-- ==== Sys2Proof/Word.lean ====
section
/-! DEFINITION. The byte and the 16-bit check of spec/11, and the largest values that several chapters share. -/

namespace Sys2Proof

/-- One byte of a frame or of the table store. -/
abbrev Byte := BitVec 8

/-- The CRC-16 of trunk and line frames (R211), and a store block's checksum (R204). -/
abbrev Check := BitVec 16

/-- The top of M, of deadlines and of every amount of money (spec/00, Conventions). -/
abbrev top24 : Nat := 16777215

/-- The end of the journal's numbering, 2^40 (R154, R168). -/
abbrev seqEnd : Nat := 1099511627776

end Sys2Proof
end

