-- ==== Sys2Proof/Syntax.lean ====
section
/-! DEFINITION. The commands of the concentrator: one constructor of `Instr` for each row of spec/opcode_table.json,
with the operands that the spec gives the event or the request. Bytes stand where the spec gives a layout. -/

namespace Sys2Proof

/-- The two trunk ports (R170). -/
inductive Port
  | uplink
  | downlink
  deriving DecidableEq, Repr

/-- The forms of destination a request may arrive in (R187). -/
inductive DestForm
  | unit
  | broadcast
  | room (r : Nat)
  deriving DecidableEq, Repr

/-- A request as its trunk frame carries it (11.1): the form of its destination, the source unit, the request tag and
the payload bytes. The kind byte is the row's own. -/
structure Request where
  form : DestForm
  source : Byte
  tag : Byte
  payload : List Byte
  deriving DecidableEq, Repr

/-- What the outside gives the unit at power-on reset (R206, R210): the straps UN4..UN0, how many of the four memory
passes fail, whether each port detects its partner, and the store blocks whose contents differ from what the unit last
left there (a write cut off by the power loss, or a memory changed or replaced from outside). -/
structure PowerOn where
  straps : Fin 32
  failedPasses : Fin 5
  uplink : Bool
  downlink : Bool
  changed : List (Nat × List Byte)
  deriving DecidableEq, Repr

/-- The commands, one per row of the table. A place is an index 0..127 of the Door Table (spec/03, 3.1). -/
inductive Instr
  -- start-up
  | powerOnReset (i : PowerOn)
  | startUpRestore
  -- time
  | secondEvent
  | minuteAdvance
  | credentialExpiry (index : Fin 4096)
  | revocationDeadline (record : Fin 32)
  | unlockTimeout (place : Fin 128)
  | doorHeld (place : Fin 128)
  | graceExpiry (place : Fin 128) (compartment : Fin 12)
  | errorWindowClose (seg : Fin 4)
  | retestTimeout (seg : Fin 4)
  -- lines
  | normalPoll (seg : Fin 4)
  | probePoll (seg : Fin 4)
  | priorityPoll (seg : Fin 4)
  | testExchange (seg : Fin 4)
  | responseReceived (seg : Fin 4) (frame : List Byte)
  | responseWindowClose (seg : Fin 4)
  | missCountSilent (place : Fin 128)
  | missCountAbsent (place : Fin 128)
  | terminatorMissesDown (seg : Fin 4)
  -- trunk
  | frameReceived (port : Port) (frame : List Byte)
  | partnerHold (port : Port) (hold : Bool)
  /-- `rxCut`: a frame was being received; `txCut`: the frame last started was still being transmitted. -/
  | linkDisconnect (port : Port) (rxCut txCut : Bool)
  | linkConnect (port : Port)
  | classifyFrame
  | downlinkTransmit
  | uplinkArbitrate
  | completionEnterQueue
  -- table store
  | storeWriteStart
  /-- `reported`: the memory reports the write complete within 20 ms; `landed`: what the block then holds, where that is
  not the copy written. -/
  | storeWriteComplete (reported : Bool) (landed : Option (List Byte))
  -- requests
  | unknownRequest (kind : Byte) (q : Request)
  | loadWindows (q : Request)
  | loadDoors (q : Request)
  | loadSchedules (q : Request)
  | loadZones (q : Request)
  | loadPrices (q : Request)
  | loadCompartments (q : Request)
  | loadPolicy (q : Request)
  | loadCredentials (q : Request)
  | loadStays (q : Request)
  | loadRooms (q : Request)
  | fetchWindows (q : Request)
  | fetchDoors (q : Request)
  | fetchSchedules (q : Request)
  | fetchZones (q : Request)
  | fetchPrices (q : Request)
  | fetchCompartments (q : Request)
  | fetchPolicy (q : Request)
  | fetchCredentials (q : Request)
  | fetchStays (q : Request)
  | fetchRooms (q : Request)
  | enrol (q : Request)
  | enrolReplace (q : Request)
  | withdraw (q : Request)
  | stayOpen (q : Request)
  | stayExtend (q : Request)
  | stayClose (q : Request)
  | stayPurge (q : Request)
  | doorOpen (q : Request)
  | zoneSet (q : Request)
  | clockSet (q : Request)
  | journalRelease (q : Request)
  | journalRewind (q : Request)
  | segmentTest (q : Request)
  | segmentServiceOut (q : Request)
  | segmentServiceIn (q : Request)
  | status (q : Request)
  | faultClear (q : Request)
  | restart (q : Request)
  deriving DecidableEq, Repr

end Sys2Proof
end

