-- ==== Sys2Proof/Decode.lean ====
section
/-! DEFINITION. No row of spec/opcode_table.json gives bits (spec/98_reader.md counts 0 rows with fixed bits and 0 with
fields), so no word spells a command. Trunk and line frames, which do have layouts, are read in Machine/Bytes.lean,
Machine/Trunk.lean and Machine/Responses.lean. -/

namespace Sys2Proof

/-- The command that a table word spells: none, because the table gives no row any bits. -/
def decodeTableWord (_nbits _w : Nat) : Option Instr := none

end Sys2Proof
end

