-- ==== Sys2Proof/Machine/Bytes.lean ====
section
/-! DEFINITION. Byte order, the CRC-16 and the store checksum (spec/11, R204, R211). -/

namespace Sys2Proof.Machine

/-- The byte of a number's lowest eight bits. -/
def byte (n : Nat) : Byte := BitVec.ofNat 8 n

/-- A number in `w` bytes, least significant first. -/
def le : Nat → Nat → List Byte
  | 0, _ => []
  | w + 1, n => byte n :: le w (n / 256)

/-- The number that bytes carry, least significant first. -/
def ofLe : List Byte → Nat
  | [] => 0
  | b :: bs => b.toNat + 256 * ofLe bs

/-- Bytes filled with 0 up to the end of a field of `n` bytes (11.7). -/
def padTo (n : Nat) (bs : List Byte) : List Byte := (bs ++ List.replicate n 0#8).take n

/-- A yes-or-no value in one byte (11.5). -/
def flag (b : Bool) : List Byte := [if b then 1#8 else 0#8]

/-- R211 step 4: one shift toward the low end, with 8408 hex when the bit shifted out was 1. -/
def crcShift (r : Check) : Check :=
  if r.getLsbD 0 then (r >>> 1) ^^^ 0x8408#16 else r >>> 1

def crcShifts : Nat → Check → Check
  | 0, r => r
  | n + 1, r => crcShifts n (crcShift r)

/-- R211 steps 3 and 4 for one byte. -/
def crcByte (r : Check) (b : Byte) : Check := crcShifts 8 (r ^^^ b.setWidth 16)

/-- R211: the check of the covered bytes. -/
def crc (bs : List Byte) : Check := bs.foldl crcByte 0xFFFF#16

/-- The check as it is sent, low byte first. -/
def checkBytes (c : Check) : List Byte := le 2 c.toNat

/-- R211: the check is correct when the computation over covered bytes and check ends at 0. -/
def crcOk (bs : List Byte) : Bool := crc bs == 0#16

/-- R204: the sum of the bytes modulo 65,536. -/
def checksum (bs : List Byte) : Nat := bs.foldl (fun n b => (n + b.toNat) % 65536) 0

end Sys2Proof.Machine
end

