-- ==== Sys2Proof/Machine/Tab.lean ====
section
/-! DEFINITION. Tables: lists of (index, entry) pairs in one canonical form, indices strictly rising and no entry equal to
what an unlisted index reads as, so that equal tables are equal data. -/

namespace Sys2Proof.Machine

/-- A table: the entries that differ from the default, in ascending index. -/
abbrev Tab (α : Type) := List (Nat × α)

variable {α : Type}

def Tab.look : Tab α → Nat → Option α
  | [], _ => none
  | (j, v) :: t, k => if j = k then some v else Tab.look t k

def Tab.write : Tab α → Nat → α → Tab α
  | [], k, v => [(k, v)]
  | (j, w) :: t, k, v =>
    if k < j then (k, v) :: (j, w) :: t
    else if j = k then (k, v) :: t
    else (j, w) :: Tab.write t k v

def Tab.clear : Tab α → Nat → Tab α
  | [], _ => []
  | (j, w) :: t, k => if j = k then t else (j, w) :: Tab.clear t k

/-- The entry at an index; an unlisted index reads as the default `d`. -/
def Tab.read (d : α) (t : Tab α) (k : Nat) : α := (Tab.look t k).getD d

/-- Writing an entry keeps the canonical form: writing the default removes the entry. -/
def Tab.put [DecidableEq α] (d : α) (t : Tab α) (k : Nat) (v : α) : Tab α :=
  if v = d then Tab.clear t k else Tab.write t k v

/-- The listed indices, ascending. -/
def Tab.keys (t : Tab α) : List Nat := t.map Prod.fst

/-- The canonical form's order: indices strictly rising. -/
abbrev Tab.Rising (t : Tab α) : Prop := (Tab.keys t).Pairwise (· < ·)

/-- The canonical form against a default: rising, and the default is never listed. -/
abbrev Tab.Wf [DecidableEq α] (d : α) (t : Tab α) : Prop :=
  Tab.Rising t ∧ ∀ e ∈ t, e.2 ≠ d

/-- The lowest index below `n` that the table does not list. -/
def Tab.lowestFree (t : Tab α) (n : Nat) : Option Nat :=
  (List.range n).find? (fun k => (Tab.look t k).isNone)

/-- The first index, ascending, whose entry satisfies `p`. -/
def Tab.findKey? (t : Tab α) (p : α → Bool) : Option Nat := (List.find? (fun e => p e.2) t).map Prod.fst

/-- How many entries satisfy `p`. -/
def Tab.tally (t : Tab α) (p : α → Bool) : Nat := (List.filter (fun e => p e.2) t).length

/-- Insert into an ascending set of numbers, once. -/
def insertNat (n : Nat) : List Nat → List Nat
  | [] => [n]
  | m :: t => if n < m then n :: m :: t else if n = m then m :: t else m :: insertNat n t

end Sys2Proof.Machine
end

