-- ==== Sys2Proof/Machine/State.lean ====
section
/-! DEFINITION. The state of one concentrator: everything spec/01 to spec/11 give it, as plain data, with the value of each
piece right after power-on reset; and the reasons a step can stop. -/

namespace Sys2Proof.Machine

/-! ## Site Clock (R25) -/

inductive ClockState
  | unset
  | running
  deriving DecidableEq, Repr

/-- M, W, S and the clock state. -/
structure Clock where
  m : Nat
  w : Nat
  s : Nat
  state : ClockState
  deriving DecidableEq, Repr

/-! ## Credentials and rooms (R1, R18) -/

inductive CredKind
  | guest
  | staff
  | master
  | emergency
  deriving DecidableEq, Repr

/-- The states of an entry that is not EMPTY; an EMPTY entry is not listed in the table. -/
inductive CredState
  | active
  | revoked
  | superseded
  | expired
  deriving DecidableEq, Repr

/-- Room, stay number and generation: present for GUEST only. -/
structure GuestPart where
  room : Nat
  stay : Nat
  generation : Nat
  deriving DecidableEq, Repr

/-- A Credential Table entry other than EMPTY. Bit z of `zones` stands for zone z; `validity` is the pair A, B. -/
structure Cred where
  state : CredState
  card : Nat
  kind : CredKind
  guest : Option GuestPart
  zones : BitVec 16
  schedule : Option Nat
  validity : Option (Nat × Nat)
  restock : Bool
  boltOverride : Bool
  deriving DecidableEq, Repr

/-- A Room Table entry in use. Doors are given by place index. -/
structure Room where
  room : Nat
  accepted : Nat
  openStay : Option Nat
  door : Option Nat
  minibar : Option Nat
  deriving DecidableEq, Repr

/-! ## Schedules, zones (R31, R35) -/

inductive ZoneState
  | normal
  | closed
  | released
  deriving DecidableEq, Repr

/-- One interval slot: start and length. -/
structure Interval where
  start : Nat
  length : Nat
  deriving DecidableEq, Repr

/-- Four slots, each absent or present. -/
structure Schedule where
  slot0 : Option Interval
  slot1 : Option Interval
  slot2 : Option Interval
  slot3 : Option Interval
  deriving DecidableEq, Repr

def Schedule.absent : Schedule := ⟨none, none, none, none⟩

/-! ## Doors (R42, R43) -/

inductive DoorRec
  | unused
  | roomDoor (room zone unlock held : Nat)
  | commonDoor (zone : Nat) (schedule : Option Nat) (unlock held : Nat)
  | minibar (room zone held : Nat)
  deriving DecidableEq, Repr

inductive DoorState
  | secure
  | unlocked
  | openGranted
  | openForced
  | held
  | released
  | unknown
  deriving DecidableEq, Repr

/-- The debounced parts of a condition: door contact OPEN, bolt ON, tamper YES. -/
structure Cond where
  isOpen : Bool
  bolt : Bool
  tamper : Bool
  deriving DecidableEq, Repr

/-- The zone command mark of 2.4.1. -/
inductive ZoneMark
  | none
  | holdOwed
  | holdQueued
  | secureOwed
  | secureQueued
  deriving DecidableEq, Repr

/-! ## Presentations (R44) and verdicts -/

inductive DenyReason
  | unmapped
  | unknown
  | revoked
  | superseded
  | expired
  | closed
  | reach
  | time
  | privacy
  | audit
  | stay
  | cap
  deriving DecidableEq, Repr

inductive Verdict
  | grant
  | deny (r : DenyReason)
  deriving DecidableEq, Repr

/-- What step 3 found, as it stood at the evaluation. -/
structure Found where
  index : Nat
  kind : CredKind
  guest : Option (Nat × Nat)
  deriving DecidableEq, Repr

/-- An outstanding presentation; `sent` is delivery SENT. -/
structure Presentation where
  tag : Nat
  card : Nat
  found : Option Found
  verdict : Verdict
  released : Bool
  untimed : Bool
  sent : Bool
  deriving DecidableEq, Repr

/-! ## Line commands and the command queue (R74, R75) -/

/-- A VERDICT's result: GRANT with seconds, or DENY with its reason class. -/
inductive VerdictOut
  | grant (seconds : Nat)
  | denyTime
  | denyRefused
  deriving DecidableEq, Repr

/-- A queued line command. CACHE_ADD and CACHE_REMOVE also hold the credential index they serve (5.1.1); a CACHE_FLUSH is
a join flush or a suspect flush. -/
inductive LineCmd
  | verdict (tag : Nat) (out : VerdictOut)
  | remoteUnlock (seconds : Nat)
  | holdOpen
  | secure
  | cacheAdd (slot card index : Nat)
  | cacheRemove (slot index : Nat)
  | cacheFlush (join : Bool)
  | identify
  | backlogNext
  deriving DecidableEq, Repr

/-- A command and the moment it arrived, as a stamp that is higher for a later arrival at the same drop. -/
structure QEntry where
  cmd : LineCmd
  stamp : Nat
  deriving DecidableEq, Repr

/-- A command that left delivery unconfirmed (R73): what it was, the bit it was carried with, and whether an echo has
already settled it. -/
structure Departed where
  cmd : LineCmd
  bit : Bool
  settled : Bool
  deriving DecidableEq, Repr

inductive Presence
  | absent
  | joining
  | present
  | silent
  deriving DecidableEq, Repr

inductive JoinStep
  | none
  | identify
  | mismatch
  | waiting
  | flush
  deriving DecidableEq, Repr

inductive DropKind
  | lock
  | reader
  | minibar
  deriving DecidableEq, Repr

/-! ## Cache Directory (R100, R104) -/

inductive CmdStatus
  | queued
  | carried
  | owed
  | doubtful
  deriving DecidableEq, Repr

inductive DirState
  | adding (status : CmdStatus)
  | held
  | removing (status : CmdStatus)
  deriving DecidableEq, Repr

structure DirEntry where
  slot : Nat
  index : Nat
  state : DirState
  deriving DecidableEq, Repr

/-! ## Minibar (R133, R138) -/

inductive CompState
  | stocked
  | empty
  | pending
  | faulty
  deriving DecidableEq, Repr

structure Compartment where
  price : Nat
  state : CompState
  reversals : Nat
  deriving DecidableEq, Repr

inductive SessionKind
  | guest
  | restock
  | forced
  deriving DecidableEq, Repr

structure LidWindow where
  kind : SessionKind
  card : Nat
  deriving DecidableEq, Repr

structure Session where
  kind : SessionKind
  card : Option Nat
  touched : List Nat
  deriving DecidableEq, Repr

/-! ## A place: its door record and everything kept for the drop there -/

structure Place where
  door : DoorRec
  comps : List Compartment
  -- door runtime state (R43)
  doorState : DoorState
  accepted : Option Cond
  candidate : Option Cond
  unlockLeft : Nat
  openElapsed : Nat
  holding : Bool
  mark : ZoneMark
  -- presentation and command queue (R44, R75)
  presentation : Option Presentation
  delivery : Option QEntry
  waiting : List QEntry
  -- drop presence (R83)
  presence : Presence
  misses : Nat
  nextBit : Bool
  uncertain : Bool
  departed : Option Departed
  joinStep : JoinStep
  joinOwed : List LineCmd
  reportedKind : Option DropKind
  reportedSerial : Option Nat
  lockSerial : Option Nat
  backlog : Bool
  suspect : Bool
  -- cache (R100, R104)
  directory : List DirEntry
  flush : Option CmdStatus
  -- minibar lid (R138)
  window : Option LidWindow
  session : Option Session
  deriving DecidableEq, Repr

/-- A place after power-on reset (R43, R83, R100, R138). -/
def Place.reset : Place where
  door := .unused
  comps := []
  doorState := .unknown
  accepted := none
  candidate := none
  unlockLeft := 0
  openElapsed := 0
  holding := false
  mark := .none
  presentation := none
  delivery := none
  waiting := []
  presence := .absent
  misses := 0
  nextBit := false
  uncertain := true
  departed := none
  joinStep := .none
  joinOwed := []
  reportedKind := none
  reportedSerial := none
  lockSerial := none
  backlog := false
  suspect := false
  directory := []
  flush := none
  window := none
  session := none

/-! ## Segments (R66, R79, R90, R108) -/

inductive LineState
  | outOfService
  | testing
  | inService
  | degraded
  | down
  | failed
  | testPlug
  deriving DecidableEq, Repr

inductive Wiring
  | none
  | terminated
  | panelLoop
  deriving DecidableEq, Repr

/-- Test progress: attempt 1..4, exchange 1..8, failed attempts, wiring code seen, and whether an exchange of the attempt
under way has failed. -/
structure TestProgress where
  attempt : Nat
  exchange : Nat
  failed : Nat
  wiring : Wiring
  attemptFailed : Bool
  deriving DecidableEq, Repr

inductive PollKind
  | normal
  | probe
  | priority
  | test
  deriving DecidableEq, Repr

/-- The exchange under way. -/
structure Exchange where
  addr : Nat
  kind : PollKind
  bit : Bool
  carried : Option QEntry
  resync : Bool
  deriving DecidableEq, Repr

inductive Pass
  | guest
  | other
  deriving DecidableEq, Repr

structure Segment where
  line : LineState
  badCount : Nat
  cleanWindows : Nat
  termMisses : Nat
  retest : Nat
  test : Option TestProgress
  pendingTest : Option (Byte × Byte)
  roundPos : Nat
  probeMark : Nat
  prioMark : Nat
  roundOpen : Bool
  prioDue : Bool
  exchange : Option Exchange
  served : Nat
  index : Nat
  pass : Pass
  terminal : Bool
  waits : Bool
  requests : List Nat
  deriving DecidableEq, Repr

/-- A segment after power-on reset (R82, R90, R108). -/
def Segment.reset : Segment where
  line := .outOfService
  badCount := 0
  cleanWindows := 0
  termMisses := 0
  retest := 0
  test := none
  pendingTest := none
  roundPos := 0
  probeMark := 0
  prioMark := 0
  roundOpen := false
  prioDue := false
  exchange := none
  served := 0
  index := 0
  pass := .guest
  terminal := true
  waits := false
  requests := []

/-! ## Revocations (R112) -/

inductive Cause
  | withdraw
  | replace
  | checkout
  | supersede
  | expiry
  deriving DecidableEq, Repr

/-- A record in use, which is OPEN. `drops` is the ascending list of the places to confirm. -/
structure Revocation where
  index : Nat
  card : Nat
  cause : Cause
  drops : List Nat
  deadline : Nat
  deriving DecidableEq, Repr

/-! ## Stays, prices, pending charges (R125, R132, R147) -/

structure Stay where
  number : Nat
  room : Nat
  isOpen : Bool
  opened : Nat
  closed : Option Nat
  planned : Nat
  cap : Nat
  total : Nat
  saturated : Bool
  deriving DecidableEq, Repr

structure Price where
  price : Nat
  tax : Nat
  deriving DecidableEq, Repr

inductive ChargeKind
  | guest
  | forced
  deriving DecidableEq, Repr

structure Charge where
  place : Nat
  compartment : Nat
  stay : Nat
  card : Option Nat
  kind : ChargeKind
  amount : Nat
  left : Nat
  deriving DecidableEq, Repr

/-! ## Journal (R151, R154) -/

inductive RecKind
  | doorGrant
  | doorDeny
  | offlineEntry
  | remoteOpen
  | doorForced
  | doorHeld
  | doorClosed
  | tamper
  | minibarCharge
  | minibarReturn
  | minibarUnbilled
  | minibarLateReturn
  | compartmentFault
  | restock
  | enrolled
  | revoked
  | superseded
  | expired
  | revocationComplete
  | revocationPartial
  | stayOpened
  | stayExtended
  | stayClosed
  | segmentState
  | dropPresence
  | lockReplaced
  | clockSet
  | restoreFix
  | journalGap
  | unitStart
  deriving DecidableEq, Repr

/-- Where an event happened. A drop is given by its place index. -/
inductive Spot
  | unit
  | drop (place : Nat)
  | segment (g : Nat)
  | room (r : Nat)
  deriving DecidableEq, Repr

/-- The verdict byte of a record (11.5). -/
inductive RecVerdict
  | grant
  | grantReleased
  | deny (r : DenyReason)
  | lockDeny
  deriving DecidableEq, Repr

structure Marks where
  untimed : Bool
  late : Bool
  stale : Bool
  undelivered : Bool
  conflict : Bool
  forced : Bool
  noGrace : Bool
  deriving DecidableEq, Repr

def Marks.none : Marks := ⟨false, false, false, false, false, false, false⟩

/-- A record as its writing block hands it over; `time` is the back-dated minute and second of R63, when there is one. -/
structure Draft where
  kind : RecKind
  spot : Spot
  card : Option Nat
  verdict : Option RecVerdict
  detail : List Byte
  marks : Marks
  time : Option (Nat × Nat)
  deriving DecidableEq, Repr

/-- A stored record. -/
structure Record where
  seq : Nat
  minute : Nat
  second : Nat
  kind : RecKind
  spot : Spot
  card : Option Nat
  verdict : Option RecVerdict
  detail : List Byte
  marks : Marks
  deriving DecidableEq, Repr

inductive Numbering
  | openNumbers
  | ended
  | halted
  deriving DecidableEq, Repr

structure Journal where
  ring : List Record
  release : Nat
  cursor : Nat
  next : Nat
  limit : Nat
  pendingLimit : Option Nat
  numbering : Numbering
  gap : Nat
  setPoint : Option Nat
  copyA : Option Nat
  copyB : Option Nat
  deriving DecidableEq, Repr

/-! ## Faults (R201) -/

inductive FaultKind
  | trunkCheck
  | segmentDegraded
  | segmentDown
  | segmentFailed
  | dropAbsent
  | dropMismatch
  | doorForced
  | doorHeld
  | tamper
  | offlineConflict
  | revocationPartial
  | revocationOverflow
  | journalHigh
  | journalFull
  | compartmentFault
  | folioSaturated
  | clockUnset
  | clockEnd
  | storeBlockBad
  | storeWriteFail
  | startErrors
  deriving DecidableEq, Repr

inductive Severity
  | note
  | degrade
  | alarm
  deriving DecidableEq, Repr

/-- A fault kind's record; `severity` is absent while it is the kind's default, `detail` is the first detail as its three
bytes (11.4). -/
structure FaultRec where
  set : Bool
  masked : Bool
  severity : Option Severity
  detail : Option (List Byte)
  occurrences : Nat
  deriving DecidableEq, Repr

def FaultRec.clear : FaultRec := ⟨false, false, none, none, 0⟩

/-! ## Trunk (R170), completions and notices -/

structure TrunkFrame where
  dest : Byte
  room : Nat
  source : Byte
  kind : Byte
  tag : Byte
  payload : List Byte
  check : Check
  deriving DecidableEq, Repr

/-- The refusal reasons in the order R188 lists them. -/
inductive Reason
  | badField
  | unknownRequest
  | notReady
  | busy
  | tableFull
  | duplicate
  | notFound
  | revoking
  | roomOccupied
  | noStay
  | staleGeneration
  | mapConflict
  | outOfService
  | bypass
  deriving DecidableEq, Repr

inductive ReplyStatus
  | done
  | refused (r : Reason)
  | noRoute
  deriving DecidableEq, Repr

/-- A completion (11.4): tag, request kind answered, status and reason, the four bytes of refusal detail, and the result
fields. -/
structure Completion where
  tag : Byte
  kind : Byte
  status : ReplyStatus
  detail : List Byte
  result : List Byte
  deriving DecidableEq, Repr

/-- A notice (R202, 11.4). -/
structure Notice where
  kind : FaultKind
  severity : Severity
  detail : List Byte
  m : Nat
  s : Nat
  deriving DecidableEq, Repr

/-- A frame in transmission at UPLINK. -/
inductive UpFrame
  | passThrough (f : TrunkFrame)
  | completion (c : Completion)
  | notice (n : Notice)
  | journal (r : Record)
  deriving DecidableEq, Repr

inductive Source
  | passThrough
  | local
  deriving DecidableEq, Repr

structure Trunk where
  upLink : Bool
  downLink : Bool
  classifier : List TrunkFrame
  downlink : List TrunkFrame
  passThrough : List TrunkFrame
  completions : List Completion
  waitingCompletions : List Completion
  notices : List Notice
  upErrors : Nat
  downErrors : Nat
  upOverruns : Nat
  downOverruns : Nat
  upHeld : Bool
  downHeld : Bool
  upTx : Option UpFrame
  downTx : Option TrunkFrame
  txTests : Nat
  lastServed : Source
  unitNumber : Nat
  deriving DecidableEq, Repr

/-- A room window (R176). -/
structure Window where
  enabled : Bool
  base : Nat
  count : Nat
  seg : Nat
  first : Nat
  deriving DecidableEq, Repr

/-- A disabled window. The four values beside `enabled` are DESIGN CHOICE (log 8). -/
def Window.disabled : Window := ⟨false, 1, 1, 0, 1⟩

/-- The POLICY record (R194). -/
structure Policy where
  g : Nat
  h : Nat
  u : Nat
  d : Nat
  strictAudit : Bool
  e : Nat
  deriving DecidableEq, Repr

def Policy.default : Policy := ⟨30, 60, 20, 15, true, 12⟩

/-- The request in progress (R185): its kind byte and the request. -/
structure Held where
  kind : Byte
  request : Request
  deriving DecidableEq, Repr

/-! ## Unit status, start-up and the table store (R205 to R209) -/

inductive UnitStatus
  | starting
  | ready
  | readyWithErrors
  | bypass
  deriving DecidableEq, Repr

inductive NoteCode
  | memory
  | blank
  | blockBad
  | numbering
  | reservation
  deriving DecidableEq, Repr

/-- An error noted by a start-up stage. -/
structure Note where
  stage : Nat
  code : NoteCode
  deriving DecidableEq, Repr

structure StartRecord where
  stage : Nat
  code : NoteCode
  count : Nat
  deriving DecidableEq, Repr

/-- The first attempt of the start-up reservation write (R167). -/
inductive Attempt
  | notBegun
  | awaited
  | acknowledged
  | failed
  | notNeeded
  deriving DecidableEq, Repr

inductive Writer
  | idle
  | writing (block : Nat) (copy : List Byte) (changed : Bool)
  | waiting
  deriving DecidableEq, Repr

/-! ## Due work (log 1) -/

/-- A consequence that a rule ties to a second event or to an exchange's end, and that a row of the table carries out. -/
inductive Due
  | minuteAdvance
  | unlockTimeout (place : Nat)
  | doorHeld (place : Nat)
  | graceExpiry (place compartment : Nat)
  | errorWindow (g : Nat)
  | retest (g : Nat)
  | missSilent (place : Nat)
  | missAbsent (place : Nat)
  | terminatorDown (g : Nat)
  | completionEnter
  deriving DecidableEq, Repr

/-! ## The whole state -/

structure State where
  clock : Clock
  creds : Tab Cred
  rooms : Tab Room
  schedules : Tab Schedule
  zones : Tab ZoneState
  places : Tab Place
  segs : Tab Segment
  revocations : Tab Revocation
  stays : Tab Stay
  prices : Tab Price
  pendingCharges : List Charge
  windows : Tab Window
  policy : Policy
  journal : Journal
  trunk : Trunk
  request : Option Held
  faults : Tab FaultRec
  alarm : Bool
  status : UnitStatus
  bypassStage : Option Nat
  startRecord : Option StartRecord
  notes : List Note
  firstAttempt : Attempt
  dirty : List Nat
  writer : Writer
  store : Tab (List Byte)
  due : List Due
  pending : List Instr
  deriving DecidableEq, Repr

/-- Right after power-on reset, before start-up's first stage: every piece at the value its chapter gives for power-on
reset. The values the spec does not give are named in log 8, the partners' hold NO among them (R172). -/
def State.reset : State where
  clock := ⟨0, 0, 0, .unset⟩
  creds := []
  rooms := []
  schedules := []
  zones := []
  places := []
  segs := []
  revocations := []
  stays := []
  prices := []
  pendingCharges := []
  windows := []
  policy := Policy.default
  journal := {
    ring := [], release := 0, cursor := 0, next := 0, limit := 0, pendingLimit := none,
    numbering := .openNumbers, gap := 0, setPoint := none, copyA := some 0, copyB := some 0 }
  trunk := {
    upLink := false, downLink := false, classifier := [], downlink := [], passThrough := [],
    completions := [], waitingCompletions := [], notices := [], upErrors := 0, downErrors := 0,
    upOverruns := 0, downOverruns := 0, upHeld := false, downHeld := false, upTx := none,
    downTx := none, txTests := 0, lastServed := .local, unitNumber := 1 }
  request := none
  faults := []
  alarm := false
  status := .starting
  bypassStage := none
  startRecord := none
  notes := []
  firstAttempt := .notBegun
  dirty := []
  writer := .idle
  store := []
  due := []
  pending := []

/-- No command of the concentrator stops it with a fault: the fault kinds of R201 are statuses in State. The type is
closed and empty. -/
inductive Fault
  deriving DecidableEq, Repr

/-- The reasons for which a command has no meaning. -/
inductive Refusal
  /-- Raised by `exec` alone, for a row whose meaning is not yet written; safe, because a run stops there. -/
  | notModelled (mnemonic : String)
  deriving DecidableEq, Repr

end Sys2Proof.Machine
end

