-- ==== Sys2Proof/Machine/Codes.lean ====
section
/-! DEFINITION. The codes of spec/11 for values drawn from named lists. A list that spec/11 codes nowhere else is coded by
position in the list of its owning rule (11.5). -/

namespace Sys2Proof.Machine

def clockCode : ClockState → Nat
  | .unset => 0
  | .running => 1

def credKindCode : CredKind → Nat
  | .guest => 0
  | .staff => 1
  | .master => 2
  | .emergency => 3

def credKindOf : Nat → Option CredKind
  | 0 => some .guest
  | 1 => some .staff
  | 2 => some .master
  | 3 => some .emergency
  | _ => none

/-- Credential states of 11.3; EMPTY is 0. -/
def credStateCode : CredState → Nat
  | .active => 1
  | .revoked => 2
  | .superseded => 3
  | .expired => 4

def credStateOf : Nat → Option CredState
  | 1 => some .active
  | 2 => some .revoked
  | 3 => some .superseded
  | 4 => some .expired
  | _ => none

def zoneCode : ZoneState → Nat
  | .normal => 0
  | .closed => 1
  | .released => 2

def zoneOf : Nat → Option ZoneState
  | 0 => some .normal
  | 1 => some .closed
  | 2 => some .released
  | _ => none

/-- R43's list. -/
def doorStateCode : DoorState → Nat
  | .secure => 0
  | .unlocked => 1
  | .openGranted => 2
  | .openForced => 3
  | .held => 4
  | .released => 5
  | .unknown => 6

/-- 11.5: DENY_UNMAPPED 2 to DENY_CAP 13. -/
def denyCode : DenyReason → Nat
  | .unmapped => 2
  | .unknown => 3
  | .revoked => 4
  | .superseded => 5
  | .expired => 6
  | .closed => 7
  | .reach => 8
  | .time => 9
  | .privacy => 10
  | .audit => 11
  | .stay => 12
  | .cap => 13

def recVerdictCode : RecVerdict → Nat
  | .grant => 0
  | .grantReleased => 1
  | .deny r => denyCode r
  | .lockDeny => 14

def presenceCode : Presence → Nat
  | .absent => 0
  | .joining => 1
  | .present => 2
  | .silent => 3

/-- The line state table of 4.6, from 0. -/
def lineCode : LineState → Nat
  | .outOfService => 0
  | .testing => 1
  | .inService => 2
  | .degraded => 3
  | .down => 4
  | .failed => 5
  | .testPlug => 6

def wiringCode : Wiring → Nat
  | .none => 0
  | .terminated => 1
  | .panelLoop => 2

/-- R112's list. -/
def causeCode : Cause → Nat
  | .withdraw => 0
  | .replace => 1
  | .checkout => 2
  | .supersede => 3
  | .expiry => 4

def compStateCode : CompState → Nat
  | .stocked => 0
  | .empty => 1
  | .pending => 2
  | .faulty => 3

def compStateOf : Nat → Option CompState
  | 0 => some .stocked
  | 1 => some .empty
  | 2 => some .pending
  | 3 => some .faulty
  | _ => none

def dropKindOf : Nat → Option DropKind
  | 1 => some .lock
  | 2 => some .reader
  | 3 => some .minibar
  | _ => none

def numberingCode : Numbering → Nat
  | .openNumbers => 0
  | .ended => 1
  | .halted => 2

/-- 11.5: kinds numbered from 1 in the order of 7.1.1. -/
def recKindCode : RecKind → Nat
  | .doorGrant => 1
  | .doorDeny => 2
  | .offlineEntry => 3
  | .remoteOpen => 4
  | .doorForced => 5
  | .doorHeld => 6
  | .doorClosed => 7
  | .tamper => 8
  | .minibarCharge => 9
  | .minibarReturn => 10
  | .minibarUnbilled => 11
  | .minibarLateReturn => 12
  | .compartmentFault => 13
  | .restock => 14
  | .enrolled => 15
  | .revoked => 16
  | .superseded => 17
  | .expired => 18
  | .revocationComplete => 19
  | .revocationPartial => 20
  | .stayOpened => 21
  | .stayExtended => 22
  | .stayClosed => 23
  | .segmentState => 24
  | .dropPresence => 25
  | .lockReplaced => 26
  | .clockSet => 27
  | .restoreFix => 28
  | .journalGap => 29
  | .unitStart => 30

/-- The 21 fault kinds in the order of R201, TRUNK_CHECK being kind 0. -/
def faultKinds : List FaultKind :=
  [.trunkCheck, .segmentDegraded, .segmentDown, .segmentFailed, .dropAbsent, .dropMismatch, .doorForced, .doorHeld,
   .tamper, .offlineConflict, .revocationPartial, .revocationOverflow, .journalHigh, .journalFull, .compartmentFault,
   .folioSaturated, .clockUnset, .clockEnd, .storeBlockBad, .storeWriteFail, .startErrors]

def faultCode : FaultKind → Nat
  | .trunkCheck => 0
  | .segmentDegraded => 1
  | .segmentDown => 2
  | .segmentFailed => 3
  | .dropAbsent => 4
  | .dropMismatch => 5
  | .doorForced => 6
  | .doorHeld => 7
  | .tamper => 8
  | .offlineConflict => 9
  | .revocationPartial => 10
  | .revocationOverflow => 11
  | .journalHigh => 12
  | .journalFull => 13
  | .compartmentFault => 14
  | .folioSaturated => 15
  | .clockUnset => 16
  | .clockEnd => 17
  | .storeBlockBad => 18
  | .storeWriteFail => 19
  | .startErrors => 20

def faultOf (n : Nat) : Option FaultKind := faultKinds[n]?

/-- R201: the default severities. -/
def defaultSeverity : FaultKind → Severity
  | .segmentDegraded | .segmentDown | .dropAbsent | .revocationPartial | .journalHigh | .storeWriteFail => .degrade
  | .segmentFailed | .doorForced | .tamper | .revocationOverflow | .journalFull => .alarm
  | .trunkCheck | .dropMismatch | .doorHeld | .offlineConflict | .compartmentFault | .folioSaturated | .clockUnset
  | .clockEnd | .storeBlockBad | .startErrors => .note

def severityCode : Severity → Nat
  | .note => 0
  | .degrade => 1
  | .alarm => 2

def severityOf : Nat → Option Severity
  | 0 => some .note
  | 1 => some .degrade
  | 2 => some .alarm
  | _ => none

/-- 11.4: reasons numbered from 1 in the order R188 lists them. -/
def reasonCode : Reason → Nat
  | .badField => 1
  | .unknownRequest => 2
  | .notReady => 3
  | .busy => 4
  | .tableFull => 5
  | .duplicate => 6
  | .notFound => 7
  | .revoking => 8
  | .roomOccupied => 9
  | .noStay => 10
  | .staleGeneration => 11
  | .mapConflict => 12
  | .outOfService => 13
  | .bypass => 14

def noteCode : NoteCode → Nat
  | .memory => 1
  | .blank => 2
  | .blockBad => 3
  | .numbering => 4
  | .reservation => 5

/-- Segment of a place index (3.1). -/
def segOf (p : Nat) : Nat := p / 32

/-- Drop address of a place index (3.1). -/
def dropOf (p : Nat) : Nat := p % 32 + 1

/-- The place index of a drop address 1..32 on a segment. -/
def placeOf (g a : Nat) : Nat := g * 32 + (a - 1)

/-- A place as its two bytes, segment then drop. -/
def placeBytes (p : Nat) : List Byte := [byte (segOf p), byte (dropOf p)]

def marksByte (m : Marks) : Byte :=
  byte ((if m.untimed then 1 else 0) + (if m.late then 2 else 0) + (if m.stale then 4 else 0)
    + (if m.undelivered then 8 else 0) + (if m.conflict then 16 else 0) + (if m.forced then 32 else 0)
    + (if m.noGrace then 64 else 0))

end Sys2Proof.Machine
end

