-- ==== Sys2Proof/Machine/Ops.lean ====
section
/-! DEFINITION. Access to the tables of the state, and the dirty set of the table store (R204, R205). -/

namespace Sys2Proof.Machine

namespace State

/-! ## Places and segments -/

def place (s : State) (p : Nat) : Place := Tab.read Place.reset s.places p

def setPlace (s : State) (p : Nat) (pl : Place) : State :=
  { s with places := Tab.put Place.reset s.places p pl }

def modPlace (s : State) (p : Nat) (f : Place → Place) : State := s.setPlace p (f (s.place p))

def seg (s : State) (g : Nat) : Segment := Tab.read Segment.reset s.segs g

def setSeg (s : State) (g : Nat) (x : Segment) : State :=
  { s with segs := Tab.put Segment.reset s.segs g x }

def modSeg (s : State) (g : Nat) (f : Segment → Segment) : State := s.setSeg g (f (s.seg g))

/-- The places that are not as power-on reset leaves a place, in ascending segment and drop. -/
def placeKeys (s : State) : List Nat := Tab.keys s.places

/-- The places of one segment among them, in ascending address. -/
def placesOn (s : State) (g : Nat) : List Nat := s.placeKeys.filter (fun p => segOf p == g)

/-! ## The dirty set (R205) -/

/-- R205: a change adds its block to the dirty set; a block being written is noted as changed during the write. -/
def markDirty (s : State) (b : Nat) : State :=
  { s with
    dirty := insertNat b s.dirty
    writer := match s.writer with
      | .writing b' copy changed => .writing b' copy (changed || b' == b)
      | w => w }

/-- R204: the block that holds each table's entry. -/
def priceBlock (i : Nat) : Nat := 6 + i / 64
def doorBlock (p : Nat) : Nat := 10 + p / 64
def roomBlock (i : Nat) : Nat := 12 + i / 64
def stayBlock (i : Nat) : Nat := 14 + i / 64
def chargeBlock : Nat := 18
def credBlock (i : Nat) : Nat := 19 + i / 64

/-! ## Tables whose unlisted entries are EMPTY or unused -/

def cred (s : State) (i : Nat) : Option Cred := Tab.look s.creds i

/-- R1: each change to an entry marks its block dirty. -/
def setCred (s : State) (i : Nat) (c : Cred) : State :=
  { s with creds := Tab.write s.creds i c }.markDirty (credBlock i)

def emptyCred (s : State) (i : Nat) : State :=
  { s with creds := Tab.clear s.creds i }.markDirty (credBlock i)

/-- R4: the lookup by card number. -/
def findCard (s : State) (card : Nat) : Option (Nat × Cred) :=
  s.creds.find? (fun e => e.2.card == card)

def setRoom (s : State) (i : Nat) (r : Room) : State :=
  { s with rooms := Tab.write s.rooms i r }.markDirty (roomBlock i)

def clearRoom (s : State) (i : Nat) : State :=
  { s with rooms := Tab.clear s.rooms i }.markDirty (roomBlock i)

/-- The Room Table entry of a room number (R18: at most one). Two restored entries may bear one number, and R23 and R208
give no fix. DESIGN CHOICE (log 38), unsafe: both stay, and the one at the lowest index is read. -/
def findRoom (s : State) (r : Nat) : Option (Nat × Room) :=
  s.rooms.find? (fun e => e.2.room == r)

/-- R125: a stay entry is written. R133 and R204 mark each change; whether an event that leaves the entry as it was is one
is left open. DESIGN CHOICE (log 39), unsafe: it marks the block too. -/
def setStay (s : State) (i : Nat) (x : Stay) : State :=
  { s with stays := Tab.write s.stays i x }.markDirty (stayBlock i)

def clearStay (s : State) (i : Nat) : State :=
  { s with stays := Tab.clear s.stays i }.markDirty (stayBlock i)

/-- The Stay Table entry in use that holds a stay number (R125: at most one). R23 and R208 give no fix where the store
restores two. DESIGN CHOICE (log 52), unsafe: both are kept, and the lowest index is read. -/
def findStay (s : State) (n : Nat) : Option (Nat × Stay) :=
  s.stays.find? (fun e => e.2.number == n)

/-! ## Tables whose every entry has contents -/

def zone (s : State) (z : Nat) : ZoneState := Tab.read .normal s.zones z

/-- R35: the zones are block 3. -/
def setZone (s : State) (z : Nat) (x : ZoneState) : State :=
  { s with zones := Tab.put .normal s.zones z x }.markDirty 3

def schedule (s : State) (i : Nat) : Schedule := Tab.read Schedule.absent s.schedules i

def setSchedule (s : State) (i : Nat) (x : Schedule) : State :=
  { s with schedules := Tab.put Schedule.absent s.schedules i x }.markDirty 4

def window (s : State) (i : Nat) : Window := Tab.read Window.disabled s.windows i

def setWindow (s : State) (i : Nat) (x : Window) : State :=
  { s with windows := Tab.put Window.disabled s.windows i x }.markDirty 5

def price (s : State) (i : Nat) : Price := Tab.read ⟨0, 0⟩ s.prices i

def setPrice (s : State) (i : Nat) (x : Price) : State :=
  { s with prices := Tab.put ⟨0, 0⟩ s.prices i x }.markDirty (priceBlock i)

def setCharges (s : State) (cs : List Charge) : State :=
  { s with pendingCharges := cs }.markDirty chargeBlock

end State

/-! ## Door records -/

def DoorRec.room? : DoorRec → Option Nat
  | .roomDoor r _ _ _ => some r
  | .minibar r _ _ => some r
  | .unused => none
  | .commonDoor _ _ _ _ => none

def DoorRec.zone? : DoorRec → Option Nat
  | .unused => none
  | .roomDoor _ z _ _ => some z
  | .commonDoor z _ _ _ => some z
  | .minibar _ z _ => some z

def DoorRec.unlockSeconds : DoorRec → Nat
  | .unused => 0
  | .roomDoor _ _ u _ => u
  | .commonDoor _ _ u _ => u
  | .minibar _ _ _ => 0

def DoorRec.heldLimit : DoorRec → Nat
  | .unused => 0
  | .roomDoor _ _ _ h => h
  | .commonDoor _ _ _ h => h
  | .minibar _ _ h => h

/-- The kind byte of a door record (11.3). -/
def DoorRec.kindCode : DoorRec → Nat
  | .unused => 0
  | .roomDoor _ _ _ _ => 1
  | .commonDoor _ _ _ _ => 2
  | .minibar _ _ _ => 3

def DoorRec.isMinibar (d : DoorRec) : Bool := d.kindCode == 3

def DoorRec.isUnused (d : DoorRec) : Bool := d.kindCode == 0

/-- A ROOM_DOOR or a COMMON_DOOR: a door with a lock cache (R100) and a zone command mark (2.4.1). -/
def DoorRec.isLocked (d : DoorRec) : Bool := d.kindCode == 1 || d.kindCode == 2

/-- The state of the zone that a door record names; an UNUSED record names none. -/
def State.zoneOfDoor (s : State) (d : DoorRec) : ZoneState :=
  match d.zone? with
  | some z => s.zone z
  | none => .normal

/-- The accepted generation that a room's entry holds (R21). -/
def State.accepted (s : State) (r : Nat) : Option Nat := (s.findRoom r).map (fun e => e.2.accepted)

/-- R5: a credential entry is referenced while a directory entry or an OPEN record names its index. -/
def State.referenced (s : State) (i : Nat) : Bool :=
  s.places.any (fun e => e.2.directory.any (fun d => d.index == i))
    || s.revocations.any (fun e => e.2.index == i)

end Sys2Proof.Machine
end

