-- ==== Sys2Proof/Machine/Queue.lean ====
section
/-! DEFINITION. A drop's command queue and what a command's source keeps about it, inside one place: order, offers,
evictions, withdrawals, command statuses and the zone command mark (R37 to R41, R74 to R78, R104). -/

namespace Sys2Proof.Machine

/-- R74: the class of a line command, 1 the highest. -/
def LineCmd.cls : LineCmd → Nat
  | .verdict _ _ => 1
  | .remoteUnlock _ => 1
  | .holdOpen => 1
  | .secure => 1
  | .cacheRemove _ _ => 2
  | .cacheFlush _ => 2
  | .cacheAdd _ _ _ => 3
  | .identify => 3
  | .backlogNext => 3

namespace Place

/-- R75: the queue in its order, the command in delivery first. -/
def queue (pl : Place) : List QEntry := pl.delivery.toList ++ pl.waiting

def queueLen (pl : Place) : Nat := pl.queue.length

/-- R75: a free place among the four. -/
def hasRoom (pl : Place) : Bool := decide (pl.queueLen < 4)

/-- How many class-1 commands the queue holds, in delivery or waiting. -/
def class1 (pl : Place) : Nat := (pl.queue.filter (fun e => e.cmd.cls == 1)).length

/-- The stamp of the next arrival. -/
def nextStamp (pl : Place) : Nat := pl.queue.foldl (fun n e => max n (e.stamp + 1)) 0

/-! ## Statuses kept by the sources -/

/-- The directory with the state of the entry at a slot for a credential changed. -/
def mapDir (pl : Place) (slot index : Nat) (f : DirState → DirState) : Place :=
  { pl with
    directory := pl.directory.map (fun d =>
      if d.slot = slot ∧ d.index = index then { d with state := f d.state } else d) }

/-- R104: a CACHE_ADD moves the status of an entry still ADDING. -/
def addStatus (pl : Place) (slot index : Nat) (st : CmdStatus) : Place :=
  pl.mapDir slot index (fun x => match x with
    | .adding _ => .adding st
    | .held => .held
    | .removing y => .removing y)

/-- R104: a CACHE_REMOVE moves the status of an entry in REMOVING. -/
def removeStatus (pl : Place) (slot index : Nat) (st : CmdStatus) : Place :=
  pl.mapDir slot index (fun x => match x with
    | .adding y => .adding y
    | .held => .held
    | .removing _ => .removing st)

/-- R39, R104: a command took a place in the queue. -/
def onEntered (c : LineCmd) (pl : Place) : Place :=
  match c with
  | .cacheAdd slot _ index => pl.addStatus slot index .queued
  | .cacheRemove slot index => pl.removeStatus slot index .queued
  | .cacheFlush false => { pl with flush := some .queued }
  | .holdOpen => { pl with mark := .holdQueued }
  | .secure => { pl with mark := .secureQueued }
  | .cacheFlush true => pl
  | .identify => pl
  | .verdict _ _ => pl
  | .remoteUnlock _ => pl
  | .backlogNext => pl

/-- R77, R104: a command that did not get or keep a place goes back to its source, `st` being OWED, or DOUBTFUL when it
was evicted from delivery. A suspect flush whose status R124 has made NONE leaves it NONE. -/
def onReturned (c : LineCmd) (st : CmdStatus) (pl : Place) : Place :=
  match c with
  | .cacheAdd slot _ index => pl.addStatus slot index st
  | .cacheRemove slot index => pl.removeStatus slot index st
  | .cacheFlush false => { pl with flush := pl.flush.map (fun _ => st) }
  | .cacheFlush true => { pl with joinOwed := pl.joinOwed ++ [.cacheFlush true] }
  | .identify => { pl with joinOwed := pl.joinOwed ++ [.identify] }
  | .verdict _ _ => pl
  | .remoteUnlock _ => pl
  | .holdOpen => pl
  | .secure => pl
  | .backlogNext => pl

/-! ## Offers and evictions -/

/-- R75: a command takes its place by class, and within its class last. -/
def insertEntry (e : QEntry) : List QEntry → List QEntry
  | [] => [e]
  | x :: xs => if e.cmd.cls < x.cmd.cls then e :: x :: xs else x :: insertEntry e xs

/-- Take a command into a queue that has a place for it. -/
def enter (c : LineCmd) (pl : Place) : Place :=
  onEntered c { pl with waiting := insertEntry ⟨c, pl.nextStamp⟩ pl.waiting }

/-- R76: which of two queued commands goes first when one is to be evicted: the lower class, then the newer. -/
def evictBefore (a b : QEntry) : Bool :=
  decide (b.cmd.cls < a.cmd.cls) || (a.cmd.cls == b.cmd.cls && decide (b.stamp < a.stamp))

/-- R76: the newest command of the lowest class present. -/
def victim : List QEntry → Option QEntry
  | [] => none
  | e :: es =>
    match victim es with
    | none => some e
    | some v => if evictBefore e v then some e else some v

/-- R73: the command in delivery leaves it without confirmation. -/
def depart (pl : Place) : Place :=
  match pl.delivery with
  | none => pl
  | some e => { pl with delivery := none, uncertain := true, departed := some ⟨e.cmd, pl.nextBit, false⟩ }

/-- R76, R77: an evicted command leaves the queue and goes back to its source. -/
def evict (v : QEntry) (pl : Place) : Place :=
  if pl.delivery = some v then onReturned v.cmd .doubtful pl.depart
  else onReturned v.cmd .owed { pl with waiting := pl.waiting.filter (fun e => e != v) }

/-- R76: a command is offered to the queue. -/
def offer (c : LineCmd) (pl : Place) : Place :=
  if pl.hasRoom then pl.enter c
  else match victim pl.queue with
    | none => onReturned c .owed pl
    | some v => if c.cls < v.cmd.cls then (pl.evict v).enter c else onReturned c .owed pl

/-- Offer while a free place remains (R104). -/
def offerFree (c : LineCmd) (pl : Place) : Place := if pl.hasRoom then pl.enter c else pl

/-- Waiting commands, which have not been carried, are withdrawn. -/
def withdraw (p : LineCmd → Bool) (pl : Place) : Place :=
  { pl with waiting := pl.waiting.filter (fun e => !p e.cmd) }

/-- Whether a waiting command satisfies `p`. -/
def waits (p : LineCmd → Bool) (pl : Place) : Bool := pl.waiting.any (fun e => p e.cmd)

/-! ## The zone command (R37 to R41) -/

/-- PRESENT or SILENT. -/
def reachable (pl : Place) : Bool := pl.presence == .present || pl.presence == .silent

/-- R39: an owed zone command enters the queue as class 1. -/
def offerZone (pl : Place) : Place :=
  if pl.reachable && decide (pl.class1 < 4) then
    match pl.mark with
    | .holdOwed => pl.offer .holdOpen
    | .secureOwed => pl.offer .secure
    | .none | .holdQueued | .secureQueued => pl
  else pl

def isHoldOpen (c : LineCmd) : Bool := c == .holdOpen

def isSecure (c : LineCmd) : Bool := c == .secure

/-- R37: the mark at a zone entering RELEASED. -/
def markReleased (pl : Place) : Place :=
  match pl.mark with
  | .secureQueued => { pl.withdraw isSecure with mark := .holdOwed }
  | .holdOwed | .holdQueued => pl
  | .none | .secureOwed => { pl with mark := .holdOwed }

/-- R38: the mark at a zone leaving RELEASED. -/
def markLeft (pl : Place) : Place :=
  match pl.mark with
  | .holdQueued => { pl.withdraw isHoldOpen with mark := .secureOwed }
  | .holdOwed | .none => { pl with mark := .secureOwed }
  | .secureOwed | .secureQueued => pl

/-- R39: the mark when the drop enters ABSENT; `released` says that the door's zone is RELEASED. -/
def markAbsent (released : Bool) (m : ZoneMark) : ZoneMark :=
  match m with
  | .holdQueued | .holdOwed => .holdOwed
  | .secureQueued | .secureOwed => .secureOwed
  | .none => if released then .holdOwed else .none

/-- R40: the mark after a confirmed HOLD_OPEN. -/
def markHoldDone : ZoneMark → ZoneMark
  | .secureOwed => .secureOwed
  | .secureQueued => .secureQueued
  | .none | .holdOwed | .holdQueued => .none

/-- R40: the mark after a confirmed SECURE. -/
def markSecureDone : ZoneMark → ZoneMark
  | .holdOwed => .holdOwed
  | .holdQueued => .holdQueued
  | .none | .secureOwed | .secureQueued => .none

/-! ## The join procedure's command and the suspect flush -/

/-- R77: one command that went back to the join procedure is offered while a free place remains. -/
def offerReturned (pl : Place) (c : LineCmd) : Place :=
  if pl.hasRoom then { pl with joinOwed := pl.joinOwed.erase c }.enter c else pl

/-- R77: the join procedure offers each returned IDENTIFY or join flush again, in the order they came back. -/
def offerJoin (pl : Place) : Place := pl.joinOwed.foldl offerReturned pl

/-- R104, R122: an OWED suspect flush is offered again at a drop that is PRESENT or SILENT. -/
def offerFlush (pl : Place) : Place :=
  if pl.reachable && decide (pl.flush = some .owed) then pl.offerFree (.cacheFlush false) else pl

/-- R104: OWED CACHE_REMOVE commands are offered again, in ascending slot. -/
def offerRemoves (pl : Place) : Place :=
  pl.directory.foldl (fun q d =>
    if d.state = .removing .owed then q.offerFree (.cacheRemove d.slot d.index) else q) pl

/-- R104: OWED CACHE_ADD commands are offered again, in ascending slot; `card` gives the card of a credential. -/
def offerAdds (card : Nat → Nat) (pl : Place) : Place :=
  pl.directory.foldl (fun q d =>
    if d.state = .adding .owed then q.offerFree (.cacheAdd d.slot (card d.index) d.index) else q) pl

/-- R104: the offers that a freed place brings, before the push engine's. -/
def reoffer (card : Nat → Nat) (pl : Place) : Place :=
  ((pl.offerZone.offerJoin).offerFlush.offerRemoves).offerAdds card

/-- R122: the cache-suspect mark becomes YES, and a suspect flush is offered at a reachable drop that awaits none. -/
def suspectNow (pl : Place) : Place :=
  if pl.reachable && pl.flush.isNone then { pl with suspect := true, flush := some .owed }.offer (.cacheFlush false)
  else { pl with suspect := true }

/-! ## The command of a poll (R67) -/

/-- R67 rule 3, R96: the first waiting command that is not held back. -/
def firstReady (degraded : Bool) (pl : Place) : Option QEntry :=
  pl.waiting.find? (fun e => !(degraded && match e.cmd with
    | .cacheAdd _ _ _ => true
    | _ => false))

/-- R44, R104: the first poll that carries a command. -/
def onCarried (c : LineCmd) (pl : Place) : Place :=
  match c with
  | .cacheAdd slot _ index => pl.addStatus slot index .carried
  | .cacheRemove slot index => pl.removeStatus slot index .carried
  | .cacheFlush false => { pl with flush := some .carried }
  | .verdict tag _ =>
    match pl.presentation with
    | some pr => if pr.tag = tag then { pl with presentation := some { pr with sent := true } } else pl
    | none => pl
  | .cacheFlush true => pl
  | .identify => pl
  | .remoteUnlock _ => pl
  | .holdOpen => pl
  | .secure => pl
  | .backlogNext => pl

/-- R67: the command becomes the command in delivery. -/
def carry (e : QEntry) (pl : Place) : Place :=
  onCarried e.cmd { pl with delivery := some e, waiting := pl.waiting.filter (fun x => x != e) }

/-- R67: what a poll of the drop carries, and the drop's state once it has been sent. -/
def choose (degraded : Bool) (pl : Place) : Place × Option QEntry :=
  if pl.uncertain then (pl, none)
  else match pl.delivery with
    | some e => (pl, some e)
    | none =>
      match pl.firstReady degraded with
      | some e => (pl.carry e, some e)
      | none => (pl, none)

/-- The sequence bit of a poll (R67, R73): while a departed command is in doubt, its bit. -/
def pollBit (pl : Place) : Bool :=
  match pl.departed with
  | some d => if pl.uncertain then d.bit else pl.nextBit
  | none => pl.nextBit

end Place

end Sys2Proof.Machine
end

