-- ==== Sys2Proof/Machine/Cache.lean ====
section
/-! DEFINITION. The Cache Manager: the cache plan, additions, the push engines' reloads, and the offers that a freed queue
place brings (R100 to R111, R122 to R124). -/

namespace Sys2Proof.Machine

/-! ## Slots (R101) -/

/-- R101: slots 0..5 are the GUEST class, 6..15 the other class. -/
def classSlots (guest : Bool) : List Nat := if guest then List.range 6 else (List.range 10).map (fun i => i + 6)

namespace Place

def namesIndex (pl : Place) (i : Nat) : Bool := pl.directory.any (fun d => d.index == i)

def slotFree (pl : Place) (n : Nat) : Bool := !pl.directory.any (fun d => d.slot == n)

/-- R101: the lowest free slot of a class; GUEST-class slots exist at a ROOM_DOOR only. -/
def freeSlot (pl : Place) (guest : Bool) : Option Nat :=
  if guest && pl.door.kindCode != 1 then none else (classSlots guest).find? pl.slotFree

/-- The directory is kept in ascending slot. -/
def insertDir (d : DirEntry) : List DirEntry → List DirEntry
  | [] => [d]
  | x :: xs => if d.slot < x.slot then d :: x :: xs else x :: insertDir d xs

/-- R106, R110: an ADDING entry is created and its CACHE_ADD offered; the entry is OWED where the offer is returned. -/
def addEntry (slot index card : Nat) (pl : Place) : Place :=
  { pl with directory := insertDir ⟨slot, index, .adding .owed⟩ pl.directory }.offer (.cacheAdd slot card index)

/-- The entries of one slot and credential that satisfy `p` are deleted. -/
def dropDir (p : DirEntry → Bool) (pl : Place) : Place :=
  { pl with directory := pl.directory.filter (fun d => !p d) }

end Place

/-- The reload set and engine of a drop that leaves the line: the reload ends and the drop leaves the set (R111). -/
def Segment.endReload (a : Nat) (x : Segment) : Segment :=
  { x with
    terminal := x.terminal || x.served == a
    requests := x.requests.filter (fun r => r != a) }

namespace State

/-- The card number of a credential entry, 0 where it is EMPTY. -/
def cardOf (s : State) (i : Nat) : Nat :=
  match s.cred i with
  | some c => c.card
  | none => 0

/-! ## The cache plan (R102) -/

/-- R102: the GUEST class of a drop's plan. -/
def planGuest (s : State) (d : DoorRec) (c : Cred) : Bool :=
  match d, c.guest with
  | .roomDoor r _ _ _, some g =>
    c.state == .active && c.kind == .guest && g.room == r && decide ((s.accepted r).getD 0 ≤ g.generation)
  | _, _ => false

/-- R102: the other class of a drop's plan. -/
def planOther (d : DoorRec) (c : Cred) : Bool :=
  d.isLocked && c.state == .active &&
    (c.kind == .emergency || (c.kind == .master && match d.zone? with
      | some z => c.zones.getLsbD z
      | none => false))

/-- R102: the plan for one class. -/
def inPlan (s : State) (guest : Bool) (d : DoorRec) (c : Cred) : Bool :=
  if guest then s.planGuest d c else planOther d c

/-! ## The walk of a reload (R110) -/

/-- How a pass stopped: waiting at an index, with its class full at an index, or past the last credential. -/
inductive Walked
  | waiting (index : Nat)
  | full (index : Nat)
  | done
  deriving DecidableEq, Repr

/-- R110: the walk of one pass over the credentials `cs` that stand at `pos` or above. -/
def walkPass (p : Nat) (guest : Bool) : Nat → List (Nat × Cred) → State → State × Walked
  | pos, [], s => (s, if ((s.place p).freeSlot guest).isNone then .full (min pos 4095) else .done)
  | pos, (i, c) :: cs, s =>
    match (s.place p).freeSlot guest with
    | none => (s, .full pos)
    | some slot =>
      if s.inPlan guest (s.place p).door c && !(s.place p).namesIndex i then
        if (s.place p).hasRoom then walkPass p guest (i + 1) cs (s.modPlace p (Place.addEntry slot i c.card))
        else (s, .waiting i)
      else walkPass p guest (i + 1) cs s

/-- The credentials from an index on. -/
def credsFrom (s : State) (i : Nat) : List (Nat × Cred) := s.creds.filter (fun e => decide (i ≤ e.1))

/-- R110: one pass from the engine's current index. -/
def walkFrom (g : Nat) (guest : Bool) (s : State) : State × Walked :=
  walkPass (placeOf g (s.seg g).served) guest (s.seg g).index (s.credsFrom (s.seg g).index) s

/-- R110: the OTHER pass; at its end the reload is terminal. -/
def walkOther (g : Nat) (s : State) : State :=
  match s.walkFrom g false with
  | (s', .waiting i) => s'.modSeg g (fun x => { x with index := i, waits := true })
  | (s', .full i) => s'.modSeg g (fun x => { x with index := i, terminal := true, waits := false })
  | (s', .done) => s'.modSeg g (fun x => { x with index := 4095, terminal := true, waits := false })

/-- R110: at the end of the GUEST pass the OTHER pass begins at index 0. -/
def enterOther (g : Nat) (s : State) : State := (s.modSeg g (fun x => { x with index := 0, pass := .other })).walkOther g

/-- R110: the walk goes on from the engine's index and pass, as far as it can. -/
def walk (g : Nat) (s : State) : State :=
  match (s.seg g).pass with
  | .other => s.walkOther g
  | .guest =>
    match s.walkFrom g true with
    | (s', .waiting i) => s'.modSeg g (fun x => { x with index := i, waits := true })
    | (s', .full _) => s'.enterOther g
    | (s', .done) => s'.enterOther g

/-- R109: the address the next reload goes to. -/
def nextServed (x : Segment) : Option Nat :=
  match x.requests.find? (fun a => decide (x.served < a)) with
  | some a => some a
  | none => x.requests.head?

/-- R109: a reload starts when the engine is terminal, the set is not empty and the segment is not DEGRADED. -/
def startReload (g : Nat) (s : State) : State :=
  let x := s.seg g
  if x.terminal && decide (x.line ≠ .degraded) then
    match nextServed x with
    | some a => s.setSeg g { x with
        requests := x.requests.filter (fun r => r != a)
        served := a
        index := 0
        pass := .guest
        terminal := false
        waits := false }
    | none => s
  else s

/-- R110: the walk waits at its index, and the queue of the drop served still has no free place. -/
def engineStuck (s : State) (g : Nat) : Bool :=
  (s.seg g).waits && !(s.place (placeOf g (s.seg g).served)).hasRoom

/-- R109 to R111: the engine runs on: the walk under way, unless it waits for a place, then the reloads that its end lets
start. -/
def pump (g : Nat) : Nat → State → State
  | 0, s => s
  | n + 1, s =>
    if (s.seg g).line = .degraded then s
    else if (s.seg g).terminal then
      match nextServed (s.seg g) with
      | some _ => pump g n ((s.startReload g).walk g)
      | none => s
    else if s.engineStuck g then s
    else
      let s' := s.walk g
      if (s'.seg g).terminal then pump g n s' else s'

/-- The engine of a segment runs as far as its drops' queues let it. -/
def runEngine (g : Nat) (s : State) : State := pump g ((s.seg g).requests.length + 2) s

/-- R109: a reload of the drop at a place is requested. -/
def requestReload (p : Nat) (s : State) : State :=
  let g := segOf p
  let a := dropOf p
  let x := s.seg g
  if x.terminal = false ∧ x.served = a then s.setSeg g { x with index := 0, pass := .guest, waits := false }
  else (s.setSeg g { x with requests := insertNat a x.requests }).startReload g

/-! ## Offers on a freed place (R104) -/

/-- R104, R110: a command has left the queue of the drop at `p`: the owed commands are offered, then the push engine
proceeds if it serves the drop. A walk that waits proceeds only into a place still free; one that has just been requested
begins, and passes by what needs no addition whether or not a place is free. -/
def reoffer (p : Nat) (s : State) : State :=
  let s1 := s.modPlace p (Place.reoffer s.cardOf)
  let x := s1.seg (segOf p)
  if x.terminal = false ∧ x.served = dropOf p then s1.runEngine (segOf p) else s1

/-- Waiting commands that satisfy `c` are withdrawn, and the places they free are offered (R104). -/
def withdraw (p : Nat) (c : LineCmd → Bool) (s : State) : State :=
  if (s.place p).waits c then (s.modPlace p (Place.withdraw c)).reoffer p else s

/-! ## Additions at enrolment (R106) -/

/-- R106: the credential is added at one place where the conditions hold. -/
def addAt (i : Nat) (s : State) (p : Nat) : State :=
  match s.cred i with
  | none => s
  | some c =>
    let pl := s.place p
    let guest := c.kind == .guest
    if pl.reachable && s.inPlan guest pl.door c && !pl.namesIndex i then
      match pl.freeSlot guest with
      | some slot => s.modPlace p (Place.addEntry slot i c.card)
      | none => s
    else s

/-- R106: the Cache Manager is handed the index of a newly written ACTIVE credential. -/
def handCredential (i : Nat) (s : State) : State :=
  (s.placeKeys.filter (fun p => (s.place p).door.isLocked)).foldl (addAt i) s

/-! ## Clearing (R124) and suspect marks (R122) -/

/-- R111, R124: a drop's directory, flush status and reload end. -/
def clearCache (p : Nat) (s : State) : State :=
  (s.modPlace p (fun pl => { pl with directory := [], flush := none })).modSeg (segOf p)
    (Segment.endReload (dropOf p))

/-- R109, R111: the drop at a place enters ABSENT or is returned to JOINING: its cache is cleared, and where a reload of
its own ended with that, the next one may start. A walk of another drop is not touched, and neither is an engine that was
terminal before: R109 tests its conditions at the end of a reload only. -/
def leaveCache (p : Nat) (s : State) : State :=
  let x := s.seg (segOf p)
  if x.terminal = false ∧ x.served = dropOf p then (s.clearCache p).runEngine (segOf p) else s.clearCache p

/-- R122: the drop is marked cache-suspect. -/
def markSuspect (p : Nat) (s : State) : State := s.modPlace p Place.suspectNow

end State

end Sys2Proof.Machine
end

