-- ==== Sys2Proof/Config.lean ====
section
/-! DEFINITION. The free values: what the spec leaves open and the part nevertheless goes on with. Each is an opaque
constant with no body, so that no proof can lean on its value. -/

namespace Sys2Proof.Machine

/-- The destination byte of the upward frames that the unit builds: spec/11 gives destinations for downward frames only
(log 9). -/
opaque Config.upwardDestination : Byte

/-- The effective mark that a JOURNAL RELEASE completion carries when the send cursor is 0, one below which no number
exists (R162, log 11). -/
opaque Config.markBelowZero : Nat

/-- What a record of a good block restores as when its bytes are not a record of its table (R207 states no effect, log 10).
`none` stands for the table's default. -/
opaque Config.restoredCred : List Byte → Option Cred
opaque Config.restoredRoom : List Byte → Option Room
opaque Config.restoredStay : List Byte → Option Stay
opaque Config.restoredDoor : List Byte → Option DoorRec
opaque Config.restoredComps : List Byte → Option (List Compartment)
opaque Config.restoredWindow : List Byte → Option Window
opaque Config.restoredSchedule : List Byte → Option Schedule
opaque Config.restoredZone : List Byte → Option ZoneState
opaque Config.restoredPrice : List Byte → Option Price
opaque Config.restoredPolicy : List Byte → Option Policy
opaque Config.restoredCharge : List Byte → Option Charge

/-- The list that a good pending charge block restores as when its first byte is above 64 (log 10). -/
opaque Config.restoredCharges : List Byte → List Charge

/-- The reservation limit read from a good copy whose value is not a multiple of 256 in 0..2^40 (R164, log 10). -/
opaque Config.restoredLimit : List Byte → Nat

/-- Whether a transmission under way has ended at one test of R179 or R183: the spec gives bit rates and no command for a
transmission's end (log 6). The number counts the tests, so that each has a value of its own. -/
opaque Config.transmissionEnded : Nat → Bool

end Sys2Proof.Machine
end

