-- ==== Sys2Proof/Machine/Flags.lean ====
section
/-! DEFINITION. The status flags of the Fault Unit: occurrences, notices and the ALARM pin (R201 to R203). -/

namespace Sys2Proof.Machine

namespace State

def fault (s : State) (k : FaultKind) : FaultRec := Tab.read FaultRec.clear s.faults (faultCode k)

/-- A kind's severity: the default until FAULT CLEAR changes it. -/
def severity (s : State) (k : FaultKind) : Severity := ((s.fault k).severity).getD (defaultSeverity k)

/-- R202: the ALARM pin is driven while a kind is SET, UNMASKED and of severity ALARM. -/
def alarmDue (s : State) : Bool :=
  faultKinds.any (fun k => (s.fault k).set && !(s.fault k).masked && decide (s.severity k = .alarm))

/-- R202: the pin is re-evaluated. -/
def driveAlarm (s : State) : State := { s with alarm := s.alarmDue }

def setFault (s : State) (k : FaultKind) (r : FaultRec) : State :=
  { s with faults := Tab.put FaultRec.clear s.faults (faultCode k) r }

/-- R182, R202: a notice enters the notice queue, or is discarded when the queue holds 4; a unit numbered 0 builds none. -/
def buildNotice (s : State) (n : Notice) : State :=
  if s.trunk.unitNumber = 0 then s
  else if s.trunk.notices.length < 4 then
    { s with trunk := { s.trunk with notices := s.trunk.notices ++ [n] } }
  else s

/-- R202: an occurrence of kind `k` with its three detail bytes reaches the Fault Unit. -/
def giveFault (s : State) (k : FaultKind) (detail : List Byte) : State :=
  let r := s.fault k
  if r.set then
    s.setFault k { r with occurrences := min 255 (r.occurrences + 1) }
  else
    let s1 := (s.setFault k { r with set := true, detail := some detail, occurrences := 1 }).driveAlarm
    if r.masked then s1 else s1.buildNotice ⟨k, s.severity k, detail, s.clock.m, s.clock.s⟩

/-- A fault whose detail is a place (11.4). -/
def faultAt (s : State) (k : FaultKind) (p : Nat) : State := s.giveFault k (padTo 3 (placeBytes p))

/-- A fault whose detail is one value of `w` bytes (11.4). -/
def faultWith (s : State) (k : FaultKind) (w n : Nat) : State := s.giveFault k (padTo 3 (le w n))

end State

/-- R203: one severity change. -/
def applySeverity (s : State) (c : FaultKind × Severity) : State :=
  s.setFault c.1 { s.fault c.1 with severity := if c.2 = defaultSeverity c.1 then none else some c.2 }

/-- R203: the mask set, kind by kind: a kind in the set becomes MASKED, every other UNMASKED. -/
def applyMask (set : Nat) (s : State) (k : FaultKind) : State :=
  s.setFault k { s.fault k with masked := set.testBit (faultCode k) }

/-- R203: the clear set, kind by kind. -/
def applyClear (set : Nat) (s : State) (k : FaultKind) : State :=
  if set.testBit (faultCode k) then
    s.setFault k { s.fault k with set := false, detail := none, occurrences := 0 }
  else s

/-- R203: severity changes, then the mask set, then the clear set, then the pin. R203 does not say what two pairs that name
one kind do. DESIGN CHOICE (log 57), unsafe: they are taken in list order, so that the last one's severity stays. -/
def clearFaults (clear : Nat) (mask : Option Nat) (changes : List (FaultKind × Severity)) (s : State) : State :=
  let s1 := changes.foldl applySeverity s
  let s2 := match mask with
    | none => s1
    | some m => faultKinds.foldl (applyMask m) s1
  (faultKinds.foldl (applyClear clear) s2).driveAlarm

/-- The kinds that are SET, as a fault set (11.2). -/
def State.faultSet (s : State) : Nat :=
  faultKinds.foldl (fun n k => if (s.fault k).set then n + 2 ^ faultCode k else n) 0

end Sys2Proof.Machine
end

