-- ==== Sys2Proof/Machine/Journal.lean ====
section
/-! DEFINITION. The Entry Journal: storing, gap, reservation, release and rewind (spec/07). -/

namespace Sys2Proof.Machine

/-- R154: how many records are held. -/
def Journal.held (j : Journal) : Nat := j.next - j.release

/-- R156: the journal is full while 2048 records are held. -/
def Journal.full (j : Journal) : Bool := j.held == 2048

/-- R155: the four conditions for storing. -/
def Journal.storable (j : Journal) : Bool :=
  decide (j.numbering = .openNumbers) && decide (j.next < j.limit) && decide (j.next < seqEnd)
    && decide (j.held < 2048)

/-- R165: a reservation is due. -/
def Journal.reservationDue (j : Journal) : Bool :=
  j.pendingLimit.isNone && decide (j.numbering = .openNumbers) && decide (j.limit ≤ j.next + 128)
    && decide (j.limit < seqEnd)

/-- R164: the copy a new limit is written to: the bad one, else the smaller, else copy A. -/
def Journal.copyToWrite (j : Journal) : Nat :=
  match j.copyA, j.copyB with
  | none, _ => 0
  | some _, none => 1
  | some a, some b => if b < a then 1 else 0

namespace State

/-- R165: when a reservation is due, the pending limit is set and the chosen copy is marked dirty. -/
def reserve (s : State) : State :=
  if s.journal.reservationDue then
    { s with journal := { s.journal with pendingLimit := some (min (s.journal.limit + 256) seqEnd) } }.markDirty
      s.journal.copyToWrite
  else s

/-- R153: whether a record carries UNTIMED beyond what its writing block says. -/
def untimedNow (s : State) (d : Draft) : Bool :=
  decide (s.clock.state = .unset) ||
    match d.time, s.journal.setPoint with
    | some (m, sec), some sp => decide (m * 60 + sec < sp)
    | _, _ => false

/-- R151, R152: the record as stored, with its number and stamp. -/
def stamp (s : State) (d : Draft) : Record where
  seq := s.journal.next
  minute := (d.time.getD (s.clock.m, s.clock.s)).1
  second := (d.time.getD (s.clock.m, s.clock.s)).2
  kind := d.kind
  spot := d.spot
  card := d.card
  verdict := d.verdict
  detail := d.detail
  marks := { d.marks with untimed := d.marks.untimed || s.untimedNow d }

/-- R155, R168: the record takes the next number and joins the ring. -/
def append (s : State) (d : Draft) : State :=
  { s with journal := { s.journal with
      ring := s.journal.ring ++ [s.stamp d]
      next := s.journal.next + 1
      numbering := if s.journal.next + 1 = seqEnd then .ended else s.journal.numbering } }

/-- R156: fault JOURNAL_FULL while the ring is full; its detail is the gap count. -/
def fullFault (s : State) : State :=
  if s.journal.full then s.faultWith .journalFull 2 s.journal.gap else s

/-- R158: fault JOURNAL_HIGH at 1536 held records or more; its detail is the held count. -/
def highFault (s : State) : State :=
  if 1536 ≤ s.journal.held then s.faultWith .journalHigh 2 s.journal.held else s

/-- R156: a record that is not stored raises the gap count. -/
def countGap (s : State) : State :=
  { s with journal := { s.journal with gap := min 65535 (s.journal.gap + 1) } }

/-- R155 to R158, R165: a record is handed to the Entry Journal. R156 gives JOURNAL_FULL for a record counted against the
full ring, R166 none where the next number equals L, and both may hold. DESIGN CHOICE (log 43), unsafe: the fault is given
whenever 2048 records are held. -/
def handOver (s : State) (d : Draft) : State :=
  if s.journal.storable then (s.append d).highFault.fullFault.reserve
  else s.countGap.fullFault

/-- R157: a JOURNAL_GAP record, when the gap count is above 0 and storing is possible. -/
def storeGap (s : State) : State :=
  if 0 < s.journal.gap && s.journal.storable then
    let s1 := s.handOver ⟨.journalGap, .unit, none, none, le 2 s.journal.gap, Marks.none, none⟩
    { s1 with journal := { s1.journal with gap := 0 } }
  else s

/-- A record without card or verdict, marks or back-dating. -/
def log (s : State) (k : RecKind) (w : Spot) (detail : List Byte) : State :=
  s.handOver ⟨k, w, none, none, detail, Marks.none, none⟩

/-- A record with a card number. -/
def logCard (s : State) (k : RecKind) (w : Spot) (card : Nat) (detail : List Byte) : State :=
  s.handOver ⟨k, w, some card, none, detail, Marks.none, none⟩

end State

/-! ## Release and rewind -/

/-- R162: the effective mark, absent where the send cursor is 0 and no number lies below it. -/
def Journal.effectiveMark (j : Journal) (n : Nat) : Option Nat :=
  if j.cursor = 0 then none else some (min n (j.cursor - 1))

/-- R162 steps 2 and 3: how many records a release to `n` frees. -/
def Journal.freedBy (j : Journal) (n : Nat) : Nat :=
  match j.effectiveMark n with
  | none => 0
  | some e => if e < j.release then 0 else e + 1 - j.release

/-- R162: the records up to the effective mark are freed, and a JOURNAL_GAP record follows where at least one was. -/
def State.releaseTo (n : Nat) (s : State) : State :=
  let k := s.journal.freedBy n
  if k = 0 then s
  else
    { s with journal := { s.journal with
        ring := s.journal.ring.drop k
        release := s.journal.release + k } }.storeGap

/-- R163: the send cursor moves back, no lower than the release mark. -/
def State.rewindTo (n : Nat) (s : State) : State :=
  if s.journal.cursor < n then s
  else { s with journal := { s.journal with cursor := max n s.journal.release } }

/-- R162: the result fields of a JOURNAL RELEASE completion. -/
def releaseResult (n freed : Nat) (before after : Journal) : List Byte :=
  le 5 ((before.effectiveMark n).getD Config.markBelowZero) ++ le 2 freed ++ le 6 after.release ++ le 2 after.held

end Sys2Proof.Machine
end

