-- ==== Sys2Proof/Machine/Operands.lean ====
section
/-! DEFINITION. The operands of requests: reading payload fields, reading records, and the range checks that name a bad
field (R186, R191, R212, spec/11). -/

namespace Sys2Proof.Machine

/-! ## Reading fields -/

/-- Fields as they were read: field number and value. -/
abbrev Fields := List (Nat × Nat)

def Fields.get (f : Fields) (n : Nat) : Option Nat := (f.find? (fun e => e.1 == n)).map (fun e => e.2)

def Fields.val (f : Fields) (n : Nat) : Nat := (f.get n).getD 0

/-- The number of the last field carried, 0 for none. -/
def Fields.last (f : Fields) : Nat := (f.getLast?.map (fun e => e.1)).getD 0

/-- A layout: each field's number and its size in bytes. -/
abbrev Layout := List (Nat × Nat)

/-- R186: fields are read in order; a payload that ends before a field is complete names that field. -/
def readLayout : Layout → List Byte → Except Nat (Fields × List Byte)
  | [], bs => .ok ([], bs)
  | (n, w) :: ls, bs =>
    if bs.length < w then .error n
    else match readLayout ls (bs.drop w) with
      | .error e => .error e
      | .ok (f, rest) => .ok ((n, ofLe (bs.take w)) :: f, rest)

/-- R186: a whole payload; bytes left over name the field one above the last. Where optional fields are absent R186 does not
say which field is the last. DESIGN CHOICE (log 18), unsafe: the last one carried. -/
def readPayload (l : Layout) (bs : List Byte) : Except Nat Fields :=
  match readLayout l bs with
  | .error e => .error e
  | .ok (f, []) => .ok f
  | .ok (f, _ :: _) => .error (f.last + 1)

/-- The first failing check of a list of (field, passes) pairs. -/
def firstBad : List (Nat × Bool) → Option Nat
  | [] => none
  | (n, good) :: cs => if good then firstBad cs else some n

/-! ## Record layouts (11.3) -/

/-- A reader of one record of a table: it takes the size from the first field and the presence bits. -/
abbrev Reader := List Byte → Except Nat (Fields × List Byte)

/-- Read on after the fields `f` already read. -/
def readMore (f : Fields) (l : Layout) (bs : List Byte) : Except Nat (Fields × List Byte) :=
  match readLayout l bs with
  | .error e => .error e
  | .ok (g, rest) => .ok (f ++ g, rest)

/-- The layout entries that a condition admits. -/
def onlyIf (c : Bool) (l : Layout) : Layout := if c then l else []

/-- Fields 4 to 11 of a credential record, by its presence bits. -/
def credTail (presence : Nat) : Layout :=
  [(4, 4), (5, 2)] ++ onlyIf (presence.testBit 0) [(6, 2), (7, 2), (8, 2)] ++ onlyIf (presence.testBit 1) [(9, 1)]
    ++ onlyIf (presence.testBit 2) [(10, 3)] ++ onlyIf (presence.testBit 3) [(11, 3)]

/-- A credential record of 1 to 22 bytes; the state decides whether more follows. -/
def readCred : Reader := fun bs =>
  match readLayout [(1, 1)] bs with
  | .error e => .error e
  | .ok (f1, r1) =>
    if f1.val 1 = 0 then .ok (f1, r1)
    else if 4 < f1.val 1 then .error 1
    else match readMore f1 [(2, 1), (3, 1)] r1 with
      | .error e => .error e
      | .ok (f2, r2) => readMore f2 (credTail (f2.val 3)) r2

/-- ENROL: the options byte, then fields 2 to 11 of the credential record. R186 names the field one above the last for bytes
left over, and does not say whether the last is field 11 or the last one carried. DESIGN CHOICE (log 18), unsafe: the last
one carried, so that a record without A and B names a field below 12. -/
def readEnrol (bs : List Byte) : Except Nat Fields :=
  match readLayout [(1, 1), (2, 1), (3, 1)] bs with
  | .error e => .error e
  | .ok (f, r) =>
    match readMore f (credTail (f.val 3)) r with
    | .error e => .error e
    | .ok (g, []) => .ok g
    | .ok (g, _ :: _) => .error (g.last + 1)

/-- A door record of 1 to 7 bytes. -/
def readDoor : Reader := fun bs =>
  match readLayout [(1, 1)] bs with
  | .error e => .error e
  | .ok (f1, r1) =>
    if f1.val 1 = 0 then .ok (f1, r1)
    else if 3 < f1.val 1 then .error 1
    else match readMore f1 [(2, 1)] r1 with
      | .error e => .error e
      | .ok (f2, r2) =>
        readMore f2 ([(3, 1)] ++ onlyIf (f1.val 1 != 2) [(4, 2)] ++ onlyIf ((f2.val 2).testBit 0) [(5, 1)]
          ++ onlyIf ((f2.val 2).testBit 1) [(6, 1)] ++ onlyIf ((f2.val 2).testBit 2) [(7, 1)]) r2

/-- The three fields of compartment `c`. -/
def compLayout (c : Nat) : Layout := [(2 + 3 * c, 1), (3 + 3 * c, 1), (4 + 3 * c, 1)]

/-- A compartment record of 1 or 37 bytes. -/
def readComps : Reader := fun bs =>
  match readLayout [(1, 1)] bs with
  | .error e => .error e
  | .ok (f1, r1) =>
    if f1.val 1 = 1 then .ok (f1, r1)
    else if 1 < f1.val 1 then .error 1
    else readMore f1 ((List.range 12).flatMap compLayout) r1

/-- A stay record of LOAD: one byte, or fields 1 to 6. A CLOSED record is read at that size and refused afterwards. -/
def readStayLoad : Reader := fun bs =>
  match readLayout [(1, 1)] bs with
  | .error e => .error e
  | .ok (f1, r1) =>
    if f1.val 1 = 0 then .ok (f1, r1)
    else if 2 < f1.val 1 then .error 1
    else readMore f1 [(2, 2), (3, 2), (4, 3), (5, 3), (6, 3)] r1

/-- A stay record as FETCH returns it and the store holds it. -/
def readStayFull : Reader := fun bs =>
  match readLayout [(1, 1)] bs with
  | .error e => .error e
  | .ok (f1, r1) =>
    if f1.val 1 = 0 then .ok (f1, r1)
    else if 2 < f1.val 1 then .error 1
    else readMore f1 ([(2, 2), (3, 2), (4, 3), (5, 3), (6, 3), (7, 3), (8, 1)] ++ onlyIf (f1.val 1 == 2) [(9, 3)]) r1

/-- A room record, which only the store carries inward. -/
def readRoom : Reader := fun bs =>
  match readLayout [(1, 1)] bs with
  | .error e => .error e
  | .ok (f1, r1) =>
    if f1.val 1 = 0 then .ok (f1, r1)
    else if 1 < f1.val 1 then .error 1
    else match readMore f1 [(2, 2), (3, 2), (4, 1)] r1 with
      | .error e => .error e
      | .ok (f2, r2) =>
        readMore f2 (onlyIf ((f2.val 4).testBit 0) [(5, 2)] ++ onlyIf ((f2.val 4).testBit 1) [(6, 2)]
          ++ onlyIf ((f2.val 4).testBit 2) [(7, 2)]) r2

def readWindow : Reader := readLayout [(1, 1), (2, 2), (3, 1), (4, 1), (5, 1)]

/-- The three fields of slot `i` of a schedule. -/
def slotLayout (i : Nat) : Layout := [(1 + 3 * i, 1), (2 + 3 * i, 2), (3 + 3 * i, 2)]

def readSchedule : Reader := readLayout ((List.range 4).flatMap slotLayout)

def readZone : Reader := readLayout [(1, 1)]

def readPrice : Reader := readLayout [(1, 2), (2, 2)]

def readPolicy : Reader := readLayout [(1, 1), (2, 1), (3, 1), (4, 1), (5, 1), (6, 1)]

/-! ## Range checks: from fields to an entry, or the first offending field -/

/-- What a credential record stores, and whether a privilege was dropped (R2). -/
structure CredIn where
  cred : Cred
  dropped : Bool
  deriving DecidableEq, Repr

/-- R212: the presence bits that a kind does not allow, or a reserved one. -/
def credPresenceOk (k : CredKind) (p : Nat) : Bool :=
  !p.testBit 6 && !p.testBit 7 && (!p.testBit 0 || k == .guest) && (!p.testBit 1 || k == .staff)
    && (!(p.testBit 2 || p.testBit 3) || k != .emergency)

/-- R1: the guest part, from fields 6 to 8. -/
def guestOf (f : Fields) (k : CredKind) : Option GuestPart :=
  match k with
  | .guest => some ⟨f.val 6, f.val 7, f.val 8⟩
  | .staff | .master | .emergency => none

/-- R1: the validity pair, when A and B are carried. -/
def validityOf (f : Fields) : Option (Nat × Nat) :=
  match f.get 10, f.get 11 with
  | some a, some b => some (a, b)
  | _, _ => none

/-- The credential that a record's fields describe, wrong-kind privileges dropped (R2). -/
def buildCred (f : Fields) (st : CredState) (k : CredKind) : Cred where
  state := st
  card := f.val 4
  kind := k
  guest := guestOf f k
  zones := BitVec.ofNat 16 (f.val 5)
  schedule := f.get 9
  validity := validityOf f
  restock := (f.val 3).testBit 4 && k == .staff
  boltOverride := (f.val 3).testBit 5 && k == .master

/-- R2: the cases that refuse a credential record, in ascending field. R2 does not say which field offends where one of A and
B is present without the other, nor where A is greater than B. DESIGN CHOICES (log 18), unsafe: the missing one of the two,
A being field 10 and B field 11; and B, field 11. -/
def credChecks (f : Fields) (k : CredKind) : List (Nat × Bool) :=
  let p := f.val 3
  let guest := k == .guest
  [ (3, credPresenceOk k p),
    (4, f.val 4 != 0 && f.val 4 != 4294967295),
    (6, !guest || (p.testBit 0 && f.val 6 != 0)),
    (7, !guest || f.val 7 != 0),
    (8, !guest || f.val 8 != 0),
    (9, !p.testBit 1 || decide (f.val 9 ≤ 31)),
    (10, p.testBit 2 || !(guest || p.testBit 3)),
    (11, p.testBit 3 || !(guest || p.testBit 2)),
    (11, !p.testBit 3 || decide (f.val 10 ≤ f.val 11)) ]

/-- R2, R212: the fields 2 to 11 of a credential record. -/
def checkCred (f : Fields) (st : CredState) : Except Nat CredIn :=
  match credKindOf (f.val 2) with
  | none => .error 2
  | some k =>
    match firstBad (credChecks f k) with
    | some n => .error n
    | none => .ok ⟨buildCred f st k,
        ((f.val 3).testBit 4 && k != .staff) || ((f.val 3).testBit 5 && k != .master)⟩

/-- R17: a LOAD CREDENTIALS record is EMPTY or ACTIVE. -/
def checkCredLoad (f : Fields) : Except Nat (Option CredIn) :=
  if f.val 1 = 0 then .ok none
  else if f.val 1 = 1 then
    match checkCred f .active with
    | .error n => .error n
    | .ok c => .ok (some c)
  else .error 1

/-- R2, R212: an ENROL payload; `some` with the credential, and the REPLACE flag beside it. -/
def checkEnrol (f : Fields) : Except Nat (Bool × CredIn) :=
  if 1 < f.val 1 then .error 1
  else match checkCred f .active with
    | .error n => .error n
    | .ok c => .ok (f.val 1 == 1, c)

/-- R212: the presence bits a door record's kind allows. -/
def doorPresenceOk (kind p : Nat) : Bool :=
  decide (p < 8) && (!p.testBit 0 || kind == 2) && (!p.testBit 1 || kind != 3)

/-- R42: the cases that refuse a door record. -/
def doorChecks (f : Fields) : List (Nat × Bool) :=
  let k := f.val 1
  let p := f.val 2
  [ (2, doorPresenceOk k p),
    (3, decide (f.val 3 ≤ 15)),
    (4, k == 2 || f.val 4 != 0),
    (5, !p.testBit 0 || decide (f.val 5 ≤ 31)),
    (6, !p.testBit 1 || (decide (1 ≤ f.val 6) && decide (f.val 6 ≤ 30))),
    (7, !p.testBit 2 || decide (5 ≤ f.val 7)) ]

/-- R42: the record stored; an omitted unlock time is 5 s, an omitted held limit 45 s. -/
def buildDoor (f : Fields) : DoorRec :=
  let u := (f.get 6).getD 5
  let h := (f.get 7).getD 45
  match f.val 1 with
  | 1 => .roomDoor (f.val 4) (f.val 3) u h
  | 2 => .commonDoor (f.val 3) (f.get 5) u h
  | 3 => .minibar (f.val 4) (f.val 3) h
  | _ => .unused

def checkDoor (f : Fields) : Except Nat DoorRec :=
  if f.val 1 = 0 then .ok .unused
  else match firstBad (doorChecks f) with
    | some n => .error n
    | none => .ok (buildDoor f)

/-- R176, R177: the ranges of a window's five fields. -/
def windowChecks (f : Fields) : List (Nat × Bool) :=
  [ (1, decide (f.val 1 ≤ 1)), (2, f.val 2 != 0), (3, decide (1 ≤ f.val 3) && decide (f.val 3 ≤ 128)),
    (4, decide (f.val 4 ≤ 3)), (5, decide (1 ≤ f.val 5) && decide (f.val 5 ≤ 32)) ]

/-- The window written and the count stored: a run past drop 32 is clamped (R177). R177 also says that a window written
disabled keeps the fields it carries. DESIGN CHOICE (log 45), unsafe: its count is clamped like any other. -/
def checkWindow (f : Fields) : Except Nat Window :=
  match firstBad (windowChecks f) with
  | some n => .error n
  | none => .ok ⟨f.val 1 == 1, f.val 2, min (f.val 3) (33 - f.val 5), f.val 4, f.val 5⟩

/-- The range checks of one schedule slot (R31). -/
def slotChecks (f : Fields) (i : Nat) : List (Nat × Bool) :=
  let present := f.val (1 + 3 * i)
  [ (1 + 3 * i, decide (present ≤ 1)),
    (2 + 3 * i, present != 1 || decide (f.val (2 + 3 * i) ≤ 10079)),
    (3 + 3 * i, present != 1 || (decide (1 ≤ f.val (3 + 3 * i)) && decide (f.val (3 + 3 * i) ≤ 10080))) ]

def slotOf (f : Fields) (i : Nat) : Option Interval :=
  if f.val (1 + 3 * i) = 1 then some ⟨f.val (2 + 3 * i), f.val (3 + 3 * i)⟩ else none

def checkSchedule (f : Fields) : Except Nat Schedule :=
  match firstBad (slotChecks f 0 ++ slotChecks f 1 ++ slotChecks f 2 ++ slotChecks f 3) with
  | some n => .error n
  | none => .ok ⟨slotOf f 0, slotOf f 1, slotOf f 2, slotOf f 3⟩

def checkZone (f : Fields) : Except Nat ZoneState :=
  match zoneOf (f.val 1) with
  | none => .error 1
  | some z => .ok z

/-- R132: T at most 5,000 basis points. -/
def checkPrice (f : Fields) : Except Nat Price :=
  if 5000 < f.val 2 then .error 2 else .ok ⟨f.val 1, f.val 2⟩

/-- R194: the ranges of the six settings. -/
def checkPolicy (f : Fields) : Except Nat Policy :=
  match firstBad
    [ (3, decide (5 ≤ f.val 3) && decide (f.val 3 ≤ 60)), (4, f.val 4 != 0), (5, decide (f.val 5 ≤ 1)),
      (6, f.val 6 != 0) ] with
  | some n => .error n
  | none => .ok ⟨f.val 1, f.val 2, f.val 3, f.val 4, f.val 5 == 1, f.val 6⟩

/-- R133: a LOAD COMPARTMENTS record: each compartment STOCKED or EMPTY, the reversal counts 0. -/
def compLoadChecks (f : Fields) (c : Nat) : List (Nat × Bool) := [(3 + 3 * c, decide (f.val (3 + 3 * c) ≤ 1))]

def compLoadOf (f : Fields) (c : Nat) : Compartment :=
  ⟨f.val (2 + 3 * c), if f.val (3 + 3 * c) = 0 then .stocked else .empty, 0⟩

def checkComps (f : Fields) : Except Nat (List Compartment) :=
  if f.val 1 = 1 then .error 1
  else match firstBad ((List.range 12).flatMap (compLoadChecks f)) with
    | some n => .error n
    | none => .ok ((List.range 12).map (compLoadOf f))

/-- R193: what a LOAD STAYS OPEN record carries. -/
structure StayIn where
  number : Nat
  room : Nat
  opened : Nat
  planned : Nat
  cap : Nat
  deriving DecidableEq, Repr

def checkStay (f : Fields) : Except Nat (Option StayIn) :=
  if f.val 1 = 0 then .ok none
  else match firstBad [(1, f.val 1 == 1), (2, f.val 2 != 0), (3, f.val 3 != 0)] with
    | some n => .error n
    | none => .ok (some ⟨f.val 2, f.val 3, f.val 4, f.val 5, f.val 6⟩)

/-! ## The tables of LOAD and FETCH (R190) -/

inductive TableId
  | windows
  | doors
  | schedules
  | zones
  | prices
  | compartments
  | policy
  | credentials
  | stays
  | rooms
  deriving DecidableEq, Repr

def TableId.code : TableId → Nat
  | .windows => 0
  | .doors => 1
  | .schedules => 2
  | .zones => 3
  | .prices => 4
  | .compartments => 5
  | .policy => 6
  | .credentials => 7
  | .stays => 8
  | .rooms => 9

/-- How many entries a table has (R190). -/
def TableId.size : TableId → Nat
  | .windows => 16
  | .doors => 128
  | .schedules => 32
  | .zones => 16
  | .prices => 256
  | .compartments => 128
  | .policy => 1
  | .credentials => 4096
  | .stays => 256
  | .rooms => 96

/-- A BAD_FIELD: record position, 0 outside records, and field number (R186). -/
structure BadField where
  pos : Nat
  field : Nat
  deriving DecidableEq, Repr

/-- R190: the common checks; the answer is the first index and the count. -/
def tableHeader (t : TableId) (f : Fields) : Option Nat :=
  firstBad
    [ (1, f.val 1 == t.code), (2, decide (f.val 2 < t.size)),
      (3, f.val 3 != 0 && decide (f.val 2 + f.val 3 ≤ t.size)) ]

/-- R191 step 2: exactly `n` records from position `pos` on, each complete, and nothing after the last. For bytes left over
R191 names the field and no record position, and does not say whether the last record's last field is one that it carries.
DESIGN CHOICES (log 18), unsafe: the last record's position, and the last field that it carries. -/
def readRecords (r : Reader) : Nat → Nat → List Byte → Except BadField (List Fields)
  | 0, _, [] => .ok []
  | 0, pos, _ :: _ => .error ⟨pos - 1, 0⟩
  | n + 1, pos, bs =>
    match r bs with
    | .error e => .error ⟨pos, e⟩
    | .ok (f, rest) =>
      if n = 0 ∧ rest ≠ [] then .error ⟨pos, f.last + 1⟩
      else match readRecords r n (pos + 1) rest with
        | .error e => .error e
        | .ok fs => .ok (f :: fs)

/-- R191 step 3: the range checks, record by record; `check` is told the entry's index. -/
def checkRecords {α : Type} (check : Nat → Fields → Except Nat α) (first : Nat) :
    Nat → List Fields → Except BadField (List α)
  | _, [] => .ok []
  | pos, f :: fs =>
    match check (first + pos - 1) f with
    | .error e => .error ⟨pos, e⟩
    | .ok a =>
      match checkRecords check first (pos + 1) fs with
      | .error e => .error e
      | .ok as => .ok (a :: as)

/-- Entries with their indices, from a first index on. -/
def indexed {α : Type} : Nat → List α → List (Nat × α)
  | _, [] => []
  | i, a :: as => (i, a) :: indexed (i + 1) as

/-- R190, R191 steps 1 to 3: the entries that a LOAD carries, each with its index. R190 and R186 do not say what is named where
the header ends early behind a table id or a first index that R190 refuses. DESIGN CHOICE (log 18), unsafe: the header is read
whole first, and its missing field is named. -/
def readLoad {α : Type} (t : TableId) (r : Reader) (check : Nat → Fields → Except Nat α) (payload : List Byte) :
    Except BadField (List (Nat × α)) :=
  match readLayout [(1, 1), (2, 2), (3, 2)] payload with
  | .error e => .error ⟨0, e⟩
  | .ok (h, rest) =>
    match tableHeader t h with
    | some n => .error ⟨0, n⟩
    | none =>
      match readRecords r (h.val 3) 1 rest with
      | .error e => .error e
      | .ok fs =>
        match checkRecords check (h.val 2) 1 fs with
        | .error e => .error e
        | .ok as => .ok (indexed (h.val 2) as)

/-- R190, R192: first index and count of a FETCH. As in `readLoad` the header is read whole first (DESIGN CHOICE, log 18). -/
def readFetch (t : TableId) (payload : List Byte) : Except BadField (Nat × Nat) :=
  match readLayout [(1, 1), (2, 2), (3, 2)] payload with
  | .error e => .error ⟨0, e⟩
  | .ok (h, rest) =>
    match tableHeader t h with
    | some n => .error ⟨0, n⟩
    | none => if rest.isEmpty then .ok (h.val 2, h.val 3) else .error ⟨0, 4⟩

/-! ## FAULT CLEAR (11.2) -/

/-- The payload of FAULT CLEAR: clear set, mask set when carried, and severity changes. -/
structure FaultArgs where
  clear : Nat
  mask : Option Nat
  changes : List (FaultKind × Severity)
  deriving DecidableEq, Repr

/-- The layout of `n` pairs, numbered on from 5. -/
def pairLayout (n : Nat) : Layout := (List.range n).flatMap (fun i => [(5 + 2 * i, 1), (6 + 2 * i, 1)])

/-- R186: the fields of FAULT CLEAR; field 2 decides whether field 3 is carried, field 4 how many pairs follow. R186 and R203
do not say which of two bad fields is named. DESIGN CHOICE (log 18), unsafe: a field 2 or 4 out of range, and a wrong
length, are named before a bit above 20 of field 1 or 3 and before a pair's code; bytes left over name the field one above the
last one carried. -/
def readFaultArgs (bs : List Byte) : Except Nat Fields :=
  match readLayout [(1, 4), (2, 1)] bs with
  | .error e => .error e
  | .ok (f1, r1) =>
    if 1 < f1.val 2 then .error 2
    else match readMore f1 (onlyIf (f1.val 2 == 1) [(3, 4)] ++ [(4, 1)]) r1 with
      | .error e => .error e
      | .ok (f2, r2) =>
        if 21 < f2.val 4 then .error 4
        else match readMore f2 (pairLayout (f2.val 4)) r2 with
          | .error e => .error e
          | .ok (f3, []) => .ok f3
          | .ok (f3, _ :: _) => .error (f3.last + 1)

/-- The severity changes carried; the first code outside its list is named. -/
def pairsOf (f : Fields) : Nat → Nat → Except Nat (List (FaultKind × Severity))
  | _, 0 => .ok []
  | i, n + 1 =>
    match faultOf (f.val (5 + 2 * i)), severityOf (f.val (6 + 2 * i)) with
    | none, _ => .error (5 + 2 * i)
    | some _, none => .error (6 + 2 * i)
    | some k, some v =>
      match pairsOf f (i + 1) n with
      | .error e => .error e
      | .ok ps => .ok ((k, v) :: ps)

/-- R203, R212: the bits of a fault set above bit 20 name no kind. -/
def checkFaultArgs (f : Fields) : Except Nat FaultArgs :=
  if 2097152 ≤ f.val 1 then .error 1
  else if 2097152 ≤ f.val 3 then .error 3
  else match pairsOf f 0 (f.val 4) with
    | .error e => .error e
    | .ok ps => .ok ⟨f.val 1, f.get 3, ps⟩

end Sys2Proof.Machine
end

