-- ==== Sys2Proof/Machine/Records.lean ====
section
/-! DEFINITION. The records that FETCH returns and the table store holds, the fields of the store's blocks, and the bytes
of upward frames (11.3, 11.4, 11.5, 11.7). -/

namespace Sys2Proof.Machine

/-! ## Table records outward (11.3) -/

def bit (b : Bool) (n : Nat) : Nat := if b then 2 ^ n else 0

/-- The presence byte of a credential record. -/
def credPresence (c : Cred) : Nat :=
  bit c.guest.isSome 0 + bit c.schedule.isSome 1 + bit c.validity.isSome 2 + bit c.validity.isSome 3
    + bit c.restock 4 + bit c.boltOverride 5

def guestBytes : Option GuestPart → List Byte
  | none => []
  | some g => le 2 g.room ++ le 2 g.stay ++ le 2 g.generation

def pairBytes : Option (Nat × Nat) → List Byte
  | none => []
  | some v => le 3 v.1 ++ le 3 v.2

/-- A value that is carried only when present. -/
def optBytes (w : Nat) : Option Nat → List Byte
  | none => []
  | some n => le w n

def credBytes : Option Cred → List Byte
  | none => [0#8]
  | some c =>
    [byte (credStateCode c.state), byte (credKindCode c.kind), byte (credPresence c)] ++ le 4 c.card
      ++ le 2 c.zones.toNat ++ guestBytes c.guest ++ optBytes 1 c.schedule ++ pairBytes c.validity

def doorBytes : DoorRec → List Byte
  | .unused => [0#8]
  | .roomDoor r z u h => [1#8, 6#8, byte z] ++ le 2 r ++ [byte u, byte h]
  | .commonDoor z sch u h => [2#8, byte (6 + bit sch.isSome 0), byte z] ++ optBytes 1 sch ++ [byte u, byte h]
  | .minibar r z h => [3#8, 4#8, byte z] ++ le 2 r ++ [byte h]

def compBytes (c : Compartment) : List Byte := [byte c.price, byte (compStateCode c.state), byte c.reversals]

/-- A place whose door record is not MINIBAR has no compartments. -/
def compsBytes (pl : Place) : List Byte :=
  if pl.door.isMinibar then 0#8 :: pl.comps.flatMap compBytes else [1#8]

def stayBytes : Option Stay → List Byte
  | none => [0#8]
  | some x =>
    [if x.isOpen then 1#8 else 2#8] ++ le 2 x.number ++ le 2 x.room ++ le 3 x.opened ++ le 3 x.planned ++ le 3 x.cap
      ++ le 3 x.total ++ flag x.saturated ++ (if x.isOpen then [] else le 3 (x.closed.getD 0))

def optPlaceBytes : Option Nat → List Byte
  | none => []
  | some p => placeBytes p

def roomBytes : Option Room → List Byte
  | none => [0#8]
  | some r =>
    [1#8] ++ le 2 r.room ++ le 2 r.accepted
      ++ [byte (bit r.openStay.isSome 0 + bit r.door.isSome 1 + bit r.minibar.isSome 2)]
      ++ optBytes 2 r.openStay ++ optPlaceBytes r.door ++ optPlaceBytes r.minibar

def windowBytes (w : Window) : List Byte :=
  flag w.enabled ++ le 2 w.base ++ [byte w.count, byte w.seg, byte w.first]

def slotBytes : Option Interval → List Byte
  | none => [0#8, 0#8, 0#8, 0#8, 0#8]
  | some i => [1#8] ++ le 2 i.start ++ le 2 i.length

def scheduleBytes (x : Schedule) : List Byte :=
  slotBytes x.slot0 ++ slotBytes x.slot1 ++ slotBytes x.slot2 ++ slotBytes x.slot3

def zoneBytes (z : ZoneState) : List Byte := [byte (zoneCode z)]

def priceBytes (p : Price) : List Byte := le 2 p.price ++ le 2 p.tax

def policyBytes (p : Policy) : List Byte :=
  [byte p.g, byte p.h, byte p.u, byte p.d] ++ flag p.strictAudit ++ [byte p.e]

/-- A pending charge entry as the store holds it, without the seconds left (11.7). -/
def chargeBytes (c : Charge) : List Byte :=
  placeBytes c.place ++ [byte c.compartment] ++ le 2 c.stay
    ++ [byte (bit c.card.isSome 0), if c.kind = .guest then 0#8 else 1#8] ++ le 4 (c.card.getD 0) ++ le 3 c.amount

/-! ## FETCH (R192) -/

/-- The record that FETCH returns for entry `i` of a table. -/
def State.record (s : State) (t : TableId) (i : Nat) : List Byte :=
  match t with
  | .windows => windowBytes (s.window i)
  | .doors => doorBytes (s.place i).door
  | .schedules => scheduleBytes (s.schedule i)
  | .zones => zoneBytes (s.zone i)
  | .prices => priceBytes (s.price i)
  | .compartments => compsBytes (s.place i)
  | .policy => policyBytes s.policy
  | .credentials => credBytes (s.cred i)
  | .stays => stayBytes (Tab.look s.stays i)
  | .rooms => roomBytes (Tab.look s.rooms i)

/-- R192: as many whole records as fit in `room` bytes, from the first. -/
def fitting : Nat → List (List Byte) → List (List Byte)
  | _, [] => []
  | room, r :: rs => if room < r.length then [] else r :: fitting (room - r.length) rs

/-- R192: the result of a FETCH of `count` entries from `first`; 228 bytes are left for records (11.4). -/
def State.fetchResult (s : State) (t : TableId) (first count : Nat) : List Byte :=
  let recs := fitting 228 ((List.range count).map (fun i => s.record t (first + i)))
  [byte t.code] ++ le 2 first ++ le 2 recs.length ++ recs.flatten

/-! ## Blocks of the table store (11.7) -/

/-- The fields of the records of `n` entries from `first` on, each filled to `size` bytes. -/
def fieldsOf (size n first : Nat) (f : Nat → List Byte) : List Byte :=
  (List.range n).flatMap (fun i => padTo size (f (first + i)))

/-- The first 3,070 bytes of a block as the state now stands. -/
def State.blockBody (s : State) (b : Nat) : List Byte :=
  padTo 3070 (
    if b < 2 then le 6 (s.journal.pendingLimit.getD s.journal.limit)
    else if b = 2 then policyBytes s.policy
    else if b = 3 then fieldsOf 1 16 0 (s.record .zones)
    else if b = 4 then fieldsOf 20 32 0 (s.record .schedules)
    else if b = 5 then fieldsOf 6 16 0 (s.record .windows)
    else if b < 10 then fieldsOf 4 64 (64 * (b - 6)) (s.record .prices)
    else if b < 12 then
      fieldsOf 44 64 (64 * (b - 10)) (fun p => padTo 7 (s.record .doors p) ++ s.record .compartments p)
    else if b < 14 then fieldsOf 12 (if b = 12 then 64 else 32) (64 * (b - 12)) (s.record .rooms)
    else if b < 18 then fieldsOf 21 64 (64 * (b - 14)) (s.record .stays)
    else if b = 18 then byte s.pendingCharges.length :: s.pendingCharges.flatMap (fun c => padTo 14 (chargeBytes c))
    else fieldsOf 22 64 (64 * (b - 19)) (s.record .credentials))

/-- A block with its checksum, 3,072 bytes. -/
def State.blockBytes (s : State) (b : Nat) : List Byte :=
  s.blockBody b ++ le 2 (checksum (s.blockBody b))

/-! ## Upward frames (11.1, 11.4, 11.5) -/

def spotForm : Spot → Nat
  | .unit => 0
  | .drop _ => 1
  | .segment _ => 2
  | .room _ => 3

def spotBytes : Spot → List Byte
  | .unit => [0#8, 0#8]
  | .drop p => placeBytes p
  | .segment g => [byte g, 0#8]
  | .room r => le 2 r

def verdictBytes : Option RecVerdict → List Byte
  | none => []
  | some v => [byte (recVerdictCode v)]

/-- The journal record of 16 to 61 bytes (11.5). -/
def recordBytes (r : Record) : List Byte :=
  le 5 r.seq ++ le 3 r.minute ++ [byte r.second, byte (recKindCode r.kind), byte (spotForm r.spot)]
    ++ spotBytes r.spot ++ [marksByte r.marks, byte (bit r.card.isSome 0 + bit r.verdict.isSome 1)]
    ++ optBytes 4 r.card ++ verdictBytes r.verdict ++ [byte r.detail.length] ++ r.detail

def replyCode : ReplyStatus → Nat
  | .done => 0
  | .refused _ => 1
  | .noRoute => 2

def replyReason : ReplyStatus → Nat
  | .refused r => reasonCode r
  | .done => 0
  | .noRoute => 0

def completionBytes (c : Completion) : List Byte :=
  [c.kind, byte (replyCode c.status), byte (replyReason c.status)] ++ padTo 4 c.detail ++ c.result

def noticeBytes (n : Notice) : List Byte :=
  [byte (faultCode n.kind), byte (severityCode n.severity)] ++ padTo 3 n.detail ++ le 3 n.m ++ [byte n.s]

/-- The bytes that the check of a trunk frame covers (R211). -/
def frameBody (dest : Byte) (room : Nat) (source kind tag : Byte) (payload : List Byte) : List Byte :=
  [dest] ++ le 2 room ++ [source, kind, tag, byte payload.length] ++ payload

/-- A whole trunk frame with the delimiter and a check (11.1). -/
def frameWith (body : List Byte) (c : Check) : List Byte := 0xA5#8 :: body ++ checkBytes c

/-- A frame this unit builds: its check is computed (R211). -/
def State.builtFrame (s : State) (kind tag : Byte) (payload : List Byte) : List Byte :=
  let body := frameBody Config.upwardDestination 0 (byte s.trunk.unitNumber) kind tag payload
  frameWith body (crc body)

/-- A frame passed on: it keeps the check it arrived with (R211). -/
def TrunkFrame.bytes (f : TrunkFrame) : List Byte :=
  frameWith (frameBody f.dest f.room f.source f.kind f.tag f.payload) f.check

/-- The bytes that UPLINK sends for a frame in transmission. -/
def State.upBytes (s : State) : UpFrame → List Byte
  | .passThrough f => f.bytes
  | .completion c => s.builtFrame 0x80 c.tag (completionBytes c)
  | .notice n => s.builtFrame 0x81 0 (noticeBytes n)
  | .journal r => s.builtFrame 0x82 0 (recordBytes r)

end Sys2Proof.Machine
end

