-- ==== Sys2Proof/Machine/Revocation.lean ====
section
/-! DEFINITION. Revocations: their start, their confirmations, their deadline, and the expiry rule (R3, R13 to R15, R30,
R112 to R121). -/

namespace Sys2Proof.Machine

/-- R13: the state that a revocation cause leaves the credential in. -/
def Cause.newState : Cause → CredState
  | .withdraw => .revoked
  | .replace => .revoked
  | .checkout => .revoked
  | .supersede => .superseded
  | .expiry => .expired

/-- R13: the start journal record. -/
def Cause.recKind : Cause → RecKind
  | .withdraw => .revoked
  | .replace => .revoked
  | .checkout => .revoked
  | .supersede => .superseded
  | .expiry => .expired

/-- R114: the DENY reason that matches the new state. -/
def Cause.deny : Cause → DenyReason
  | .withdraw => .revoked
  | .replace => .revoked
  | .checkout => .revoked
  | .supersede => .superseded
  | .expiry => .expired

def isRemove (slot index : Nat) (c : LineCmd) : Bool := c == .cacheRemove slot index

def isAdd (slot index : Nat) : LineCmd → Bool
  | .cacheAdd s _ i => s == slot && i == index
  | _ => false

namespace Place

/-- R114: whether the outstanding presentation holds a GRANT that a revocation of credential `i` replaces. -/
def replaceable (i : Nat) (pr : Presentation) : Bool :=
  (match pr.found with
    | some f => f.index == i
    | none => false)
    && !pr.sent && decide (pr.verdict = .grant) && !pr.released

/-- R114: a queued GRANT becomes a DENY with the same tag, in place. -/
def denyQueued (tag : Nat) (e : QEntry) : QEntry :=
  match e.cmd with
  | .verdict t (.grant _) => if t = tag then { e with cmd := .verdict t .denyRefused } else e
  | _ => e

/-- R114: the replacement at one drop. -/
def replaceGrant (i : Nat) (why : DenyReason) (pl : Place) : Place :=
  match pl.presentation with
  | none => pl
  | some pr =>
    if replaceable i pr then
      { pl with
        presentation := some { pr with verdict := .deny why }
        waiting := pl.waiting.map (denyQueued pr.tag) }
    else pl

/-- R115: the entry becomes REMOVING and its CACHE_REMOVE is offered. -/
def startRemove (slot index : Nat) (pl : Place) : Place :=
  (pl.mapDir slot index (fun _ => .removing .owed)).offer (.cacheRemove slot index)

end Place

/-- A GUEST credential's room and generation. -/
def Cred.roomOf (c : Cred) : Option Nat := c.guest.map (fun g => g.room)

namespace State

/-- R114: queued GRANT verdicts for the credential are replaced at every drop of the unit. -/
def replaceGrants (i : Nat) (why : DenyReason) (s : State) : State :=
  s.placeKeys.foldl (fun s p => s.modPlace p (Place.replaceGrant i why)) s

/-- R115: the entry that names the credential in the directory of one drop. -/
def revokeAt (i : Nat) (s : State) (p : Nat) : State :=
  match (s.place p).directory.find? (fun d => d.index == i) with
  | none => s
  | some d =>
    let gone (e : DirEntry) : Bool := e.index == i
    match d.state with
    | .adding .queued => (s.modPlace p (Place.dropDir gone)).withdraw p (isAdd d.slot i)
    | .adding .owed => s.modPlace p (Place.dropDir gone)
    | .adding .carried => s.modPlace p (Place.startRemove d.slot i)
    | .adding .doubtful => s.modPlace p (Place.startRemove d.slot i)
    | .held => s.modPlace p (Place.startRemove d.slot i)
    | .removing _ => s

/-- R115: the drops that hold a REMOVING entry for the credential, in ascending segment and drop. -/
def removingAt (s : State) (i : Nat) : List Nat :=
  s.placeKeys.filter (fun p => (s.place p).directory.any (fun d => d.index == i && match d.state with
    | .removing _ => true
    | .adding _ => false
    | .held => false))

/-- R117: the list-full fallback at one drop. -/
def overflowAt (i : Nat) (s : State) (p : Nat) : State :=
  match (s.place p).directory.find? (fun d => d.index == i) with
  | none => s
  | some d =>
    (((s.modPlace p (Place.dropDir (fun e => e.index == i))).withdraw p (isRemove d.slot i))).markSuspect p

/-- R116: deadline M + D, held at 16,777,215. -/
def newDeadline (s : State) : Nat := min top24 (s.clock.m + s.policy.d)

/-- R116, R117: the start record's detail. R117 names the number of drops made cache-suspect and an overflow indication, and
gives neither a form for the indication nor its order against R22's accepted generation. DESIGN CHOICES (log 59), unsafe: the
number stands where R116's number of drops to confirm stands; the indication is a byte 1 on overflow and no byte otherwise, as
the last value of the detail, behind the accepted generation of a SUPERSEDED record. -/
def startDetail (s : State) (c : Cred) (i : Nat) (cause : Cause) (n : Nat) (overflow : Bool) : List Byte :=
  [byte (causeCode cause)] ++ le 2 i ++ le 2 n
    ++ (match cause, c.roomOf with
        | .supersede, some r => le 2 ((s.accepted r).getD 0)
        | _, _ => [])
    ++ (if overflow then [1#8] else [])

/-- Where a start record places its event: the room of a GUEST credential, else the unit. -/
def credSpot (c : Cred) : Spot :=
  match c.roomOf with
  | some r => .room r
  | none => .unit

/-- R116, R117: parts 3 and 4 of a revocation start. -/
def recordRevocation (i : Nat) (c : Cred) (cause : Cause) (s : State) : State :=
  let drops := s.removingAt i
  let start (s : State) (overflow : Bool) : State :=
    s.logCard cause.recKind (credSpot c) c.card (s.startDetail c i cause drops.length overflow)
  if drops.isEmpty then
    (start s false).logCard .revocationComplete .unit c.card ([byte (causeCode cause)] ++ le 2 i ++ le 2 0)
  else
    match Tab.lowestFree s.revocations 32 with
    | some k =>
      start { s with revocations := Tab.write s.revocations k ⟨i, c.card, cause, drops, s.newDeadline⟩ } false
    | none => (start (drops.foldl (overflowAt i) s) true).faultWith .revocationOverflow 2 i

/-- R3, R113: an ACTIVE credential leaves ACTIVE with a cause, and its revocation starts. -/
def revoke (i : Nat) (cause : Cause) (s : State) : State :=
  match s.cred i with
  | none => s
  | some c =>
    if c.state = .active then
      let s1 := s.setCred i { c with state := cause.newState }
      let s2 := s1.replaceGrants i cause.deny
      let s3 := s2.placeKeys.foldl (revokeAt i) s2
      s3.recordRevocation i c cause
    else s

/-- R13: one event ends several credentials, in ascending index. -/
def revokeAll (is : List Nat) (cause : Cause) (s : State) : State := is.foldl (fun s i => s.revoke i cause) s

/-! ## Confirmation (R118 to R120) -/

/-- R120: a record whose set is empty is COMPLETE: it is journalled and freed. -/
def completeIfEmpty (k : Nat) (s : State) : State :=
  match Tab.look s.revocations k with
  | none => s
  | some r =>
    if r.drops.isEmpty then
      { s.logCard .revocationComplete .unit r.card ([byte (causeCode r.cause)] ++ le 2 r.index) with
        revocations := Tab.clear s.revocations k }
    else s

/-- A drop is taken out of the set of one record, which may complete it. -/
def confirmAt (p : Nat) (s : State) (k : Nat) : State :=
  match Tab.look s.revocations k with
  | none => s
  | some r =>
    if r.drops.contains p then
      { s with revocations := Tab.write s.revocations k { r with drops := r.drops.filter (fun q => q != p) }
        }.completeIfEmpty k
    else s

/-- R118: a confirmed CACHE_REMOVE. -/
def removeConfirmed (p slot i : Nat) (s : State) : State :=
  let s1 := s.modPlace p (Place.dropDir (fun d => d.slot == slot && d.index == i && match d.state with
    | .removing _ => true
    | .adding _ => false
    | .held => false))
  match Tab.findKey? s1.revocations (fun r => r.index == i && r.drops.contains p) with
  | none => s1
  | some k => s1.confirmAt p k

/-- R107: a confirmed CACHE_ADD. -/
def addConfirmed (p slot i : Nat) (s : State) : State :=
  s.modPlace p (fun pl => pl.mapDir slot i (fun x => match x with
    | .adding _ => .held
    | .held => .held
    | .removing st => .removing st))

/-- R119 part 1: the entries that a flush leaves: ADDING ones never carried. -/
def survivesFlush (d : DirEntry) : Bool :=
  match d.state with
  | .adding .queued => true
  | .adding .owed => true
  | .adding .carried => false
  | .adding .doubtful => false
  | .held => false
  | .removing _ => false

def isAnyRemove : LineCmd → Bool
  | .cacheRemove _ _ => true
  | _ => false

/-- R119: a confirmed flush, parts 1 to 3; the caller requests the reload of part 4. -/
def flushConfirmed (p : Nat) (s : State) : State :=
  let s1 := (s.modPlace p (Place.dropDir (fun d => !survivesFlush d))).modPlace p (Place.withdraw isAnyRemove)
  let s2 := (Tab.keys s1.revocations).foldl (confirmAt p) s1
  s2.modPlace p (fun pl => { pl with suspect := false, flush := none })

/-! ## Deadline (R121) and the adjustment at CLOCK SET (R30) -/

/-- R121 step 1 at one listed drop. -/
def partialAt (i : Nat) (s : State) (p : Nat) : State :=
  match (s.place p).directory.find? (fun d => d.index == i) with
  | none => s.markSuspect p
  | some d =>
    ((s.modPlace p (Place.dropDir (fun e => e.index == i))).withdraw p (isRemove d.slot i)).markSuspect p

/-- R121: a record reached by its deadline becomes PARTIAL. -/
def endPartial (k : Nat) (r : Revocation) (s : State) : State :=
  let s1 := r.drops.foldl (partialAt r.index) s
  let s2 := s1.logCard .revocationPartial (match r.drops.head? with
      | some p => .drop p
      | none => .unit) r.card ([byte (causeCode r.cause)] ++ le 2 r.index ++ le 2 r.drops.length)
  let s3 := s2.faultWith .revocationPartial 2 r.index
  { s3 with revocations := Tab.clear s3.revocations k }

/-- R121: the deadline test of one record. -/
def deadlineAt (s : State) (k : Nat) : State :=
  match Tab.look s.revocations k with
  | none => s
  | some r => if r.deadline ≤ s.clock.m then s.endPartial k r else s

/-- R121: every OPEN record, in ascending index. -/
def deadlineTest (s : State) : State := (Tab.keys s.revocations).foldl deadlineAt s

/-- R30: a record keeps the minutes it had left. -/
def moveDeadline (old new : Nat) (r : Revocation) : Revocation :=
  { r with deadline := min top24 (new + (r.deadline - old)) }

/-! ## Expiry (R14, R33) -/

/-- R33: the end of validity, without wrap; a credential without a pair has none. -/
def credEnd (s : State) (c : Cred) : Option Nat :=
  match c.validity with
  | none => none
  | some v => some (v.2 + if c.kind = .guest then s.policy.g else 0)

/-- R33: whether a credential's end has passed. -/
def ended (s : State) (c : Cred) : Bool :=
  match s.credEnd c with
  | none => false
  | some e => decide (e ≤ s.clock.m)

/-- R14: whether the expiry rule moves an entry. -/
def expires (s : State) (c : Cred) : Bool := c.state == .active && s.ended c

/-- R14: the entries that the expiry rule moves, in ascending index. -/
def expiring (s : State) : List Nat := (s.creds.filter (fun e => s.expires e.2)).map (fun e => e.1)

/-- R14, R15: the expiry rule over the whole table. -/
def applyExpiry (s : State) : State := s.revokeAll s.expiring .expiry

end State

end Sys2Proof.Machine
end

