-- ==== Sys2Proof/Machine/Minibar.lean ====
section
/-! DEFINITION. The Stay and Minibar Unit: charges, commits, sessions and compartment events (R135 to R149), and the Room
Table entries that stays and doors need (R18 to R20). -/

namespace Sys2Proof.Machine

/-- R135: the tax on a price, rounded to the nearest unit, a half up. -/
def taxOf (p : Price) : Nat := (p.price * p.tax + 5000) / 10000

/-- R135: the charge for an item. -/
def chargeOf (p : Price) : Nat := p.price + taxOf p

namespace State

/-! ## Compartments (R133) -/

def comp (s : State) (p c : Nat) : Compartment := ((s.place p).comps[c]?).getD ⟨0, .empty, 0⟩

/-- R133: each change to a compartment marks the door block dirty. DESIGN CHOICE (log 39), unsafe: an event that leaves
the compartment as it was marks it too. -/
def setComp (s : State) (p c : Nat) (x : Compartment) : State :=
  (s.modPlace p (fun pl => { pl with comps := pl.comps.set c x })).markDirty (doorBlock p)

/-- A compartment's state and reversal count change; its price index stays. -/
def moveComp (s : State) (p c : Nat) (st : CompState) (rev : Nat) : State :=
  s.setComp p c { s.comp p c with state := st, reversals := rev }

/-- R136: where the compartment still exists and is PENDING or STOCKED, it becomes EMPTY. -/
def emptyComp (s : State) (p c : Nat) : State :=
  match (s.place p).comps[c]? with
  | none => s
  | some x => if x.state = .pending ∨ x.state = .stocked then s.moveComp p c .empty 0 else s

/-! ## Stays (R125) -/

/-- The room's OPEN stay, found through its Room Table entry. -/
def openStay (s : State) (r : Nat) : Option (Nat × Stay) :=
  match s.findRoom r with
  | none => none
  | some e =>
    match e.2.openStay with
    | none => none
    | some n =>
      match s.findStay n with
      | none => none
      | some x => if x.2.isOpen then some x else none

/-! ## Commit (R136) -/

/-- The marks of a minibar record. -/
def chargeMarks (kind : ChargeKind) (noGrace : Bool) : Marks :=
  { Marks.none with forced := kind == .forced, noGrace := noGrace }

/-- R136: F with the charge added, held at the top. -/
def addTotal (x : Stay) (amount : Nat) : Stay :=
  if x.total + amount ≤ top24 then { x with total := x.total + amount }
  else { x with total := top24, saturated := true }

/-- R150: the detail of MINIBAR_CHARGE. DESIGN CHOICE (log 42), unsafe: SATURATED is a byte 1 where this commit passed the
top, and no byte otherwise. -/
def chargeDetail (c : Charge) (total : Nat) (saturatedNow : Bool) : List Byte :=
  [byte c.compartment] ++ le 3 c.amount ++ le 2 c.stay ++ le 3 total ++ (if saturatedNow then [1#8] else [])

/-- R136: a charge is committed to the stay it is bound to, or journalled as unbilled where no entry holds that stay. R150
carries SATURATED when set by this commit. DESIGN CHOICE (log 42), unsafe: each commit that passes the top sets it, also
on a stay that is SATURATED already. Of two restored entries of one stay number the lowest takes the charge (log 52). -/
def commit (c : Charge) (noGrace : Bool) (s : State) : State :=
  match s.findStay c.stay with
  | some (i, x) =>
    let sat := decide (top24 < x.total + c.amount)
    let y := addTotal x c.amount
    let s1 := s.setStay i y
    let s2 := if sat then s1.faultWith .folioSaturated 2 x.number else s1
    (s2.emptyComp c.place c.compartment).handOver
      ⟨.minibarCharge, .drop c.place, c.card, none, chargeDetail c y.total sat, chargeMarks c.kind noGrace, none⟩
  | none =>
    (s.emptyComp c.place c.compartment).handOver
      ⟨.minibarUnbilled, .drop c.place, c.card, none, [byte c.compartment] ++ le 3 c.amount,
        chargeMarks c.kind false, none⟩

/-- The entries that satisfy `f` leave the Pending Charge List and are committed one by one, in list order. -/
def commitWhere (f : Charge → Bool) (noGrace : Bool) (s : State) : State :=
  (s.pendingCharges.filter f).foldl
    (fun s c => (s.setCharges (s.pendingCharges.filter (fun d => d != c))).commit c noGrace) s

def isCharge (p c : Nat) (x : Charge) : Bool := x.place == p && x.compartment == c

/-! ## Sessions (R138 to R142) -/

/-- R140: an accepted OPEN at a MINIBAR place starts a session where none runs. -/
def openLid (p : Nat) (s : State) : State :=
  s.modPlace p (fun pl =>
    match pl.session, pl.window with
    | some _, _ => pl
    | none, some w => { pl with window := none, session := some ⟨w.kind, some w.card, []⟩ }
    | none, none => { pl with session := some ⟨.forced, none, []⟩ })

/-- How many of a place's compartments are STOCKED. -/
def stockedCount (pl : Place) : Nat := (pl.comps.filter (fun c => decide (c.state = .stocked))).length

/-- R141: a running session ends; a RESTOCK session is journalled. -/
def endSession (p : Nat) (s : State) : State :=
  let pl := s.place p
  match pl.session with
  | none => s
  | some x =>
    let s1 := s.modPlace p (fun pl => { pl with session := none })
    if x.kind = .restock then
      s1.handOver ⟨.restock, .drop p, x.card, none, le 2 x.touched.length ++ le 2 (stockedCount pl), Marks.none, none⟩
    else s1

/-- R142: window and session end without a lid event. -/
def endLid (p : Nat) (s : State) : State := (s.modPlace p (fun pl => { pl with window := none })).endSession p

/-! ## Compartment events (R143 to R146) -/

/-- R143: the charge kind, GUEST while a GUEST session runs. -/
def chargeKindAt (pl : Place) : ChargeKind :=
  match pl.session with
  | some x => if x.kind = .guest then .guest else .forced
  | none => .forced

/-- R143: a removal. -/
def removal (p c : Nat) (s : State) : State :=
  let pl := s.place p
  let amount := chargeOf (s.price (s.comp p c).price)
  let card := pl.session.bind (fun x => x.card)
  match (pl.door.room?).bind s.openStay with
  | none =>
    (s.moveComp p c .empty 0).handOver
      ⟨.minibarUnbilled, .drop p, card, none, [byte c] ++ le 3 amount, chargeMarks (chargeKindAt pl) false, none⟩
  | some e =>
    let charge : Charge := ⟨p, c, e.2.number, card, chargeKindAt pl, amount, s.policy.h⟩
    if s.policy.h = 0 ∨ 64 ≤ s.pendingCharges.length then s.commit charge true
    else (s.moveComp p c .pending (s.comp p c).reversals).setCharges (s.pendingCharges ++ [charge])

/-- R144: a return inside the grace cancels the charge. -/
def cancel (p c : Nat) (s : State) : State :=
  match s.pendingCharges.find? (isCharge p c) with
  | none => s
  | some x =>
    let n := (s.comp p c).reversals + 1
    let s1 := s.setCharges (s.pendingCharges.filter (fun d => d != x))
    let s2 := (s1.moveComp p c (if n < 4 then .stocked else .faulty) n).handOver
      ⟨.minibarReturn, .drop p, x.card, none, [byte c] ++ le 3 x.amount ++ le 2 n, Marks.none, none⟩
    if n < 4 then s2
    else (s2.log .compartmentFault (.drop p) ([byte c] ++ le 2 n)).giveFault .compartmentFault
      (placeBytes p ++ [byte c])

/-- R145: an anomaly record: the compartment, the state found and the event. -/
def anomaly (p c : Nat) (taken : Bool) (s : State) : State :=
  s.log .compartmentFault (.drop p) [byte c, byte (compStateCode (s.comp p c).state), if taken then 0#8 else 1#8]

/-- R145: a return after the commit. -/
def lateReturn (p c : Nat) (s : State) : State :=
  (s.moveComp p c .stocked (s.comp p c).reversals).log .minibarLateReturn (.drop p)
    ([byte c] ++ le 2 (s.comp p c).price)

/-- R143 to R145: an event while no RESTOCK session runs. -/
def lidEvent (p c : Nat) (taken : Bool) (s : State) : State :=
  match (s.comp p c).state, taken with
  | .stocked, true => s.removal p c
  | .pending, false => s.cancel p c
  | .empty, false => s.lateReturn p c
  | .stocked, false => s.anomaly p c taken
  | .empty, true => s.anomaly p c taken
  | .pending, true => s.anomaly p c taken
  | .faulty, _ => s.anomaly p c taken

/-- R146: an event during a RESTOCK session. The entry of a PENDING compartment is committed first; the others have none. -/
def restockEvent (p c : Nat) (taken : Bool) (s : State) : State :=
  let s1 := s.modPlace p (fun pl => match pl.session with
    | some x => { pl with session := some { x with touched := insertNat c x.touched } }
    | none => pl)
  let s2 := if (s.comp p c).state = .pending then s1.commitWhere (isCharge p c) true else s1
  s2.moveComp p c (if taken then .empty else .stocked) 0

/-- R143 to R146: a COMPARTMENT event at a MINIBAR place. -/
def compartmentEvent (p c : Nat) (taken : Bool) (s : State) : State :=
  match (s.place p).session with
  | some x => if x.kind = .restock then s.restockEvent p c taken else s.lidEvent p c taken
  | none => s.lidEvent p c taken

/-! ## Room Table entries (R18 to R20) -/

/-- R18: the lowest place of one kind that names a room. -/
def roomPlace (s : State) (kind r : Nat) : Option Nat :=
  s.placeKeys.find? (fun p => (s.place p).door.kindCode == kind && (s.place p).door.room? == some r)

/-- R20: whether a door record names a room. -/
def roomNamed (s : State) (r : Nat) : Bool := s.places.any (fun e => e.2.door.room? == some r)

/-- R19: a room entry is created in the lowest-indexed unused entry; nothing happens where none is unused. -/
def createRoom (s : State) (r : Nat) : State :=
  match Tab.lowestFree s.rooms 96 with
  | none => s
  | some i => s.setRoom i ⟨r, 0, none, s.roomPlace 1 r, s.roomPlace 3 r⟩

/-- R19: a room entry is created where the room has none. -/
def ensureRoom (s : State) (r : Nat) : State := if (s.findRoom r).isNone then s.createRoom r else s

/-- R20: the removal test of one room. -/
def removeRoom (s : State) (r : Nat) : State :=
  match s.findRoom r with
  | none => s
  | some (i, e) => if !s.roomNamed r && e.openStay.isNone then s.clearRoom i else s

/-- R18: the room door and minibar drop of one entry recomputed. -/
def recomputeRoom (s : State) (i : Nat) : State :=
  match Tab.look s.rooms i with
  | none => s
  | some e =>
    let e' := { e with door := s.roomPlace 1 e.room, minibar := s.roomPlace 3 e.room }
    if e' = e then s else s.setRoom i e'

/-- R18: recomputed for every entry. -/
def recomputeRooms (s : State) : State := (Tab.keys s.rooms).foldl recomputeRoom s

/-- The room's open stay field. -/
def setOpenStay (s : State) (r : Nat) (n : Option Nat) : State :=
  match s.findRoom r with
  | none => s
  | some (i, e) => s.setRoom i { e with openStay := n }

end State

end Sys2Proof.Machine
end

