-- ==== Sys2Proof/Machine/Doors.lean ====
section
/-! DEFINITION. The Door Table's runtime state: debounce, the door state machine, and the effects of confirmed unlock and
zone commands (R40, R43, R55 to R60). -/

namespace Sys2Proof.Machine

namespace Place

/-- R56: a confirmed unlock. -/
def unlock (seconds : Nat) (pl : Place) : Place :=
  match pl.doorState with
  | .secure | .unlocked => { pl with doorState := .unlocked, unlockLeft := seconds }
  | .openGranted | .openForced | .held | .released | .unknown => pl

/-- R40: the door's part of a confirmed HOLD_OPEN. -/
def holdOpenDone (pl : Place) : Place :=
  let q := { pl with holding := true, mark := markHoldDone pl.mark }
  if pl.doorState = .unknown then q else { q with doorState := .released, unlockLeft := 0, openElapsed := 0 }

/-- R40: the door's part of a confirmed SECURE. -/
def secureDone (pl : Place) : Place :=
  let q := { pl with holding := false, mark := markSecureDone pl.mark }
  if pl.doorState = .unknown then q
  else match pl.accepted with
    | none => q
    | some c =>
      { q with doorState := if c.isOpen then .openForced else .secure, unlockLeft := 0, openElapsed := 0 }

/-- R60: the door state that the first accepted condition gives. -/
def firstDoor (isOpen holding : Bool) : DoorState :=
  if isOpen then (if holding then .openGranted else .openForced) else (if holding then .released else .secure)

/-- R60: the place's runtime state when its drop enters ABSENT; R39: the zone command mark. -/
def resetDoor (released : Bool) (pl : Place) : Place :=
  { pl with
    doorState := .unknown, accepted := none, candidate := none, unlockLeft := 0, openElapsed := 0, holding := false
    mark := markAbsent (released && pl.door.isLocked) pl.mark }

/-- A door that stands open and whose open seconds are counted (R58). -/
def isOpenCounted (pl : Place) : Bool :=
  (pl.doorState == .openGranted || pl.doorState == .openForced) && !pl.holding

end Place

namespace State

/-- R57: an accepted OPEN. -/
def doorOpened (p : Nat) (s : State) : State :=
  let pl := s.place p
  match pl.doorState with
  | .unlocked => s.setPlace p { pl with doorState := .openGranted, unlockLeft := 0, openElapsed := 0 }
  | .released => s.setPlace p { pl with doorState := .openGranted, openElapsed := 0 }
  | .secure =>
    ((s.setPlace p { pl with doorState := .openForced, openElapsed := 0 }).log .doorForced (.drop p) []).faultAt
      .doorForced p
  | .openGranted | .openForced | .held | .unknown => s

/-- R59: the DOOR_CLOSED record. -/
def closedRecord (p : Nat) (left : DoorState) (elapsed : Nat) (s : State) : State :=
  s.log .doorClosed (.drop p) ([byte (doorStateCode left)] ++ le 2 elapsed)

/-- R59: an accepted CLOSED. -/
def doorShut (p : Nat) (s : State) : State :=
  let pl := s.place p
  match pl.doorState with
  | .openGranted =>
    s.setPlace p { pl with doorState := if pl.holding then .released else .secure, openElapsed := 0 }
  | .openForced | .held =>
    (s.setPlace p { pl with doorState := .secure, openElapsed := 0 }).closedRecord p pl.doorState pl.openElapsed
  | .secure | .unlocked | .released | .unknown => s

/-- R57, R59: a change of the accepted door part; at a MINIBAR place the lid is handed on (R140, R141). -/
def doorMoved (p : Nat) (isOpen : Bool) (s : State) : State :=
  let s1 := if isOpen then s.doorOpened p else s.doorShut p
  if (s.place p).door.isMinibar then (if isOpen then s1.openLid p else s1.endSession p) else s1

/-- R60: the first accepted door part after UNKNOWN. -/
def doorFirst (p : Nat) (isOpen : Bool) (s : State) : State :=
  let pl := s.place p
  let s1 := if pl.doorState = .unknown then
      s.setPlace p { pl with doorState := Place.firstDoor isOpen pl.holding, openElapsed := 0 }
    else s
  if pl.door.isMinibar && isOpen then s1.openLid p else s1

/-- R55: a change of the tamper part to YES. -/
def tampered (p : Nat) (s : State) : State := (s.log .tamper (.drop p) []).faultAt .tamper p

/-- R55: a condition is accepted; first its door part is handed on, then its tamper part. -/
def acceptCond (p : Nat) (c : Cond) (s : State) : State :=
  let old := (s.place p).accepted
  let s1 := s.modPlace p (fun pl => { pl with accepted := some c, candidate := none })
  let s2 := match old with
    | none => s1.doorFirst p c.isOpen
    | some o => if o.isOpen = c.isOpen then s1 else s1.doorMoved p c.isOpen
  let was := match old with
    | none => false
    | some o => o.tamper
  if c.tamper && !was then s2.tampered p else s2

/-- R55: a reported condition is debounced; an UNUSED place is not supervised (R43). -/
def reportCond (p : Nat) (c : Cond) (s : State) : State :=
  let pl := s.place p
  if pl.door.isUnused then s
  else match pl.accepted with
    | none => s.acceptCond p c
    | some a =>
      if a = c then s.setPlace p { pl with candidate := none }
      else if pl.candidate = some c then s.acceptCond p c
      else s.setPlace p { pl with candidate := some c }

/-! ## The counts of a second event (R56, R58) -/

/-- R56: an unlock that has run out: SECURE, and a minibar's window lapses (R139). -/
def unlockTimeout (p : Nat) (s : State) : State :=
  let pl := s.place p
  if pl.doorState = .unlocked ∧ pl.unlockLeft = 0 then
    s.setPlace p { pl with doorState := .secure, window := none }
  else s

/-- R58: a door that has stood open beyond its held limit becomes HELD. -/
def doorHeld (p : Nat) (s : State) : State :=
  let pl := s.place p
  if pl.isOpenCounted && decide (pl.door.heldLimit < pl.openElapsed) then
    ((s.setPlace p { pl with doorState := .held }).log .doorHeld (.drop p) (le 2 pl.door.heldLimit)).faultAt
      .doorHeld p
  else s

end State

/-- R56, R58: one place's door counts at a second event. -/
def Place.countSecond (pl : Place) : Place :=
  if pl.doorState = .unlocked then { pl with unlockLeft := pl.unlockLeft - 1 }
  else if pl.isOpenCounted then { pl with openElapsed := pl.openElapsed + 1 }
  else pl

end Sys2Proof.Machine
end

