-- ==== Sys2Proof/Machine/Decisions.lean ====
section
/-! DEFINITION. The Decision Engine: the thirteen steps, the presentation record and its ends, verdict delivery, accepted
generations and offline backlog records (R21, R31 to R34, R44 to R54, R61 to R64). -/

namespace Sys2Proof.Machine

/-! ## Schedules (R32) -/

/-- R32: a present interval admits W when d < L. -/
def Interval.admits (i : Interval) (w : Nat) : Bool := decide ((w + 10080 - i.start) % 10080 < i.length)

def slotAdmits (x : Option Interval) (w : Nat) : Bool :=
  match x with
  | none => false
  | some i => i.admits w

/-- R32: a schedule admits W when at least one of its present slots does. -/
def Schedule.admits (x : Schedule) (w : Nat) : Bool :=
  slotAdmits x.slot0 w || slotAdmits x.slot1 w || slotAdmits x.slot2 w || slotAdmits x.slot3 w

/-! ## The steps (R47 to R49) -/

/-- What a step gives: nothing, or a verdict and, at steps 8 and 9, the cause that ends the credential. -/
inductive StepResult
  | pass
  | grant
  | deny (r : DenyReason) (ends : Option Cause)
  deriving DecidableEq, Repr

/-- The outcome of an evaluation. -/
structure Evaluation where
  verdict : Verdict
  released : Bool
  untimed : Bool
  found : Option Found
  ends : Option Cause
  deriving DecidableEq, Repr

def Cred.inZone (c : Cred) (d : DoorRec) : Bool :=
  match d.zone? with
  | some z => c.zones.getLsbD z
  | none => false

/-- R48 step 7: whether the credential reaches the door. -/
def reaches (d : DoorRec) (c : Cred) : Bool :=
  match c.kind, d with
  | .guest, .roomDoor r _ _ _ => c.roomOf == some r
  | .guest, .minibar r _ _ => c.roomOf == some r
  | .guest, .commonDoor _ _ _ _ => c.inZone d
  | .staff, .minibar _ _ _ => c.inZone d && c.restock
  | .staff, .roomDoor _ _ _ _ => c.inZone d
  | .staff, .commonDoor _ _ _ _ => c.inZone d
  | .master, .minibar _ _ _ => false
  | .master, .roomDoor _ _ _ _ => c.inZone d
  | .master, .commonDoor _ _ _ _ => c.inZone d
  | .emergency, _ => true
  | _, .unused => false

/-- The verdict that step 4 gives a credential that is not ACTIVE. -/
def stateDeny : CredState → Option DenyReason
  | .active => none
  | .revoked => some .revoked
  | .superseded => some .superseded
  | .expired => some .expired

namespace State

/-- R47 step 4. -/
def stepState (c : Cred) : StepResult :=
  match stateDeny c.state with
  | none => .pass
  | some r => .deny r none

/-- R47 step 5. -/
def stepEmergency (c : Cred) : StepResult := if c.kind = .emergency then .grant else .pass

/-- R48 step 6. -/
def stepClosed (s : State) (d : DoorRec) (c : Cred) : StepResult :=
  if d.isLocked && s.zoneOfDoor d == .closed && (c.kind == .guest || c.kind == .staff) then .deny .closed none else .pass

/-- R48 step 7. -/
def stepReach (d : DoorRec) (c : Cred) : StepResult := if reaches d c then .pass else .deny .reach none

/-- R49 step 8. -/
def stepGeneration (s : State) (d : DoorRec) (c : Cred) : StepResult :=
  match c.guest, d.room? with
  | some g, some r =>
    match s.accepted r with
    | some a => if c.kind = .guest ∧ g.generation < a then .deny .superseded (some .supersede) else .pass
    | none => .pass
  | _, _ => .pass

/-- R33: not yet valid. -/
def tooEarly (s : State) (c : Cred) : Bool :=
  match c.validity with
  | none => false
  | some v => decide (s.clock.m < v.1)

/-- R34 parts 3 and 4: the schedule that a credential is tested against at a door. -/
def scheduleFor (d : DoorRec) (c : Cred) : Option Nat :=
  match c.kind with
  | .staff => c.schedule
  | .guest =>
    match d with
    | .commonDoor _ sch _ _ => sch
    | .roomDoor _ _ _ _ => none
    | .minibar _ _ _ => none
    | .unused => none
  | .master => none
  | .emergency => none

/-- R34: the time test. -/
def stepTime (s : State) (d : DoorRec) (c : Cred) : StepResult :=
  if s.clock.state = .unset then .pass
  else if s.tooEarly c then .deny .time none
  else if s.ended c then .deny .expired (some .expiry)
  else match scheduleFor d c with
    | none => .pass
    | some n => if (s.schedule n).admits s.clock.w then .pass else .deny .time none

/-- R49 step 10. -/
def stepPrivacy (pl : Place) (c : Cred) : StepResult :=
  match pl.accepted with
  | none => .pass
  | some x =>
    if pl.door.kindCode = 1 ∧ x.bolt ∧ ¬(c.kind = .master ∧ c.boltOverride) then .deny .privacy none else .pass

/-- R49 step 11, R159. -/
def stepAudit (s : State) (c : Cred) : StepResult :=
  if s.journal.full && s.policy.strictAudit && (c.kind == .staff || c.kind == .master) then .deny .audit none else .pass

/-- R49 steps 12 and 13, R137. -/
def stepMinibar (s : State) (d : DoorRec) (c : Cred) : StepResult :=
  match d, c.kind, c.guest with
  | .minibar r _ _, .guest, some g =>
    match s.openStay r with
    | none => .deny .stay none
    | some e =>
      if e.2.number ≠ g.stay then .deny .stay none
      else if e.2.cap ≤ e.2.total then .deny .cap none
      else .pass
  | _, _, _ => .pass

/-- The first step that gives a verdict ends the evaluation; a presentation that passes every step receives GRANT. -/
def firstVerdict : List StepResult → Verdict × Option Cause
  | [] => (.grant, none)
  | .pass :: rs => firstVerdict rs
  | .grant :: _ => (.grant, none)
  | .deny r ends :: _ => (.deny r, ends)

/-- Steps 4 to 8. -/
def earlySteps (s : State) (pl : Place) (c : Cred) : List StepResult :=
  [stepState c, stepEmergency c, s.stepClosed pl.door c, stepReach pl.door c, s.stepGeneration pl.door c]

/-- Steps 9 to 13. -/
def lateSteps (s : State) (pl : Place) (c : Cred) : List StepResult :=
  [s.stepTime pl.door c, stepPrivacy pl c, s.stepAudit c, s.stepMinibar pl.door c]

/-- Whether steps 4 to 8 let a credential through to step 9. -/
def reachesTime (s : State) (pl : Place) (c : Cred) : Bool := (s.earlySteps pl c).all (fun r => r == .pass)

/-- What the presentation record keeps of the credential found (R44). -/
def foundOf (e : Nat × Cred) : Found := ⟨e.1, e.2.kind, e.2.guest.map (fun g => (g.room, g.generation))⟩

/-- R47 to R49: the evaluation of a card at a door. `full` is false for a backlog record, which takes steps 1 to 8. At step 2
R47 looks the card up to fill index and kind and does not name room and generation, which R44 gives with the index. DESIGN
CHOICE (log 62), unsafe: they are filled there too, so that a confirmed GRANT RELEASED can raise the accepted generation. -/
def evaluate (s : State) (p card : Nat) (full : Bool) : Evaluation :=
  let pl := s.place p
  let hit := s.findCard card
  let found := hit.map foundOf
  if pl.door.isUnused then ⟨.deny .unmapped, false, false, none, none⟩
  else if pl.door.isLocked && s.zoneOfDoor pl.door == .released then ⟨.grant, true, false, found, none⟩
  else match hit with
    | none => ⟨.deny .unknown, false, false, none, none⟩
    | some (_, c) =>
      let out := firstVerdict (s.earlySteps pl c ++ if full then s.lateSteps pl c else [])
      ⟨out.1, false, full && s.reachesTime pl c && s.clock.state == .unset, found, out.2⟩

/-! ## The presentation record's end (R51 to R54) -/

/-- R54: the verdict byte of a presentation's journal record. -/
def finalVerdict (pr : Presentation) : RecVerdict :=
  match pr.verdict with
  | .deny r => .deny r
  | .grant => if pr.released then .grantReleased else .grant

/-- R54: the journal record of a presentation, with its outcome mark. DESIGN CHOICE (log 54), unsafe: the grant reason
RELEASED in the detail is one byte 1 when present and no byte otherwise, since 11.5 codes no list of grant reasons. -/
def presentationDraft (p : Nat) (pr : Presentation) (stale undelivered : Bool) : Draft where
  kind := if pr.verdict = .grant then .doorGrant else .doorDeny
  spot := .drop p
  card := some pr.card
  verdict := some (finalVerdict pr)
  detail := [byte pr.tag] ++ (if pr.released then [1#8] else [])
  marks := { Marks.none with untimed := pr.untimed, stale := stale, undelivered := undelivered }
  time := none

/-- The record ends and its journal record is written. -/
def endPresentation (p : Nat) (stale undelivered : Bool) (s : State) : State :=
  match (s.place p).presentation with
  | none => s
  | some pr =>
    (s.modPlace p (fun pl => { pl with presentation := none })).handOver (presentationDraft p pr stale undelivered)

def isVerdict (tag : Nat) : LineCmd → Bool
  | .verdict t _ => t == tag
  | _ => false

/-- R45: an outstanding presentation is abandoned: an unsent VERDICT is withdrawn. -/
def abandon (p : Nat) (s : State) : State :=
  match (s.place p).presentation with
  | none => s
  | some pr =>
    let s1 := if pr.sent then s else s.withdraw p (isVerdict pr.tag)
    s1.endPresentation p false true

/-- R45: a VERDICT of an abandoned presentation that was sent and carries the same tag as a new one is withdrawn. -/
def withdrawSent (p tag : Nat) (s : State) : State :=
  match (s.place p).delivery with
  | none => s
  | some e => if isVerdict tag e.cmd then (s.modPlace p Place.depart).reoffer p else s

/-! ## Verdict delivery (R50) -/

/-- R50: the unlock seconds of a GRANT. -/
def grantSeconds (s : State) (d : DoorRec) : Nat := if d.isMinibar then s.policy.u else d.unlockSeconds

/-- R50: the result that the VERDICT command carries. -/
def verdictOut (s : State) (d : DoorRec) : Verdict → VerdictOut
  | .grant => .grant (s.grantSeconds d)
  | .deny .time => .denyTime
  | .deny _ => .denyRefused

/-- R49: the side effects of steps 8 and 9. -/
def applyEnds (e : Evaluation) (s : State) : State :=
  match e.found, e.ends with
  | some f, some cause => s.revoke f.index cause
  | _, _ => s

/-- R50: the verdict enters the queue as class 1, or the record ends UNDELIVERED where no class-1 space is left. -/
def deliver (p : Nat) (pr : Presentation) (s : State) : State :=
  let pl := s.place p
  let s1 := s.setPlace p { pl with presentation := some pr }
  if pl.class1 < 4 then
    s1.modPlace p (Place.offer (.verdict pr.tag (s.verdictOut pl.door pr.verdict)))
  else s1.endPresentation p false true

/-- R44, R45, R47 to R50: a presentation is handed to the Decision Engine. R45 does not order the withdrawal of a sent VERDICT
of the same tag against the evaluation. DESIGN CHOICE (log 63), unsafe: it is withdrawn, and the freed place offered, first. -/
def present (p card tag : Nat) (s : State) : State :=
  let s1 := (s.abandon p).withdrawSent p tag
  let e := s1.evaluate p card true
  (s1.applyEnds e).deliver p ⟨tag, card, e.found, e.verdict, e.released, e.untimed, false⟩

/-! ## Confirmation of a verdict (R51, R52) -/

/-- R21: the ACTIVE GUEST entries of a room below a generation, in ascending index. -/
def lowerCards (s : State) (r g : Nat) : List Nat :=
  (s.creds.filter (fun e => e.2.state == .active && e.2.kind == .guest && match e.2.guest with
    | some x => x.room == r && decide (x.generation < g)
    | none => false)).map (fun e => e.1)

/-- R21: a confirmed grant at the room's room door raises the accepted generation and supersedes the lower cards. -/
def raise (p : Nat) (found : Option Found) (s : State) : State :=
  match found with
  | some ⟨_, .guest, some (r, g)⟩ =>
    match s.findRoom r with
    | none => s
    | some (i, e) =>
      if e.door = some p ∧ e.accepted < g then
        let s1 := s.setRoom i { e with accepted := g }
        s1.revokeAll (s1.lowerCards r g) .supersede
      else s
  | _ => s

/-- R139: the window kind of a credential kind; a MASTER card is never granted at a minibar. -/
def windowKind : CredKind → Option SessionKind
  | .guest => some .guest
  | .staff => some .restock
  | .emergency => some .forced
  | .master => none

/-- R51, R139: a confirmed GRANT at a minibar that leaves the lid UNLOCKED opens a window. -/
def openWindow (pr : Presentation) (pl : Place) : Place :=
  match pr.found.bind (fun f => windowKind f.kind) with
  | none => pl
  | some k => if pl.doorState = .unlocked then { pl with window := some ⟨k, pr.card⟩ } else pl

/-- R51: the effects of a confirmed GRANT. -/
def grantDone (p seconds : Nat) (pr : Presentation) (s : State) : State :=
  let d := (s.place p).door
  if d.isMinibar then s.modPlace p (fun pl => openWindow pr (pl.unlock seconds))
  else if d.isLocked then (s.modPlace p (Place.unlock seconds)).raise p pr.found
  else s

/-- R51: a VERDICT confirmed with DONE, taken only while its presentation record is outstanding. -/
def verdictDone (p tag : Nat) (out : VerdictOut) (s : State) : State :=
  match (s.place p).presentation with
  | none => s
  | some pr =>
    if pr.tag = tag then
      let s1 := s.endPresentation p false false
      match pr.verdict, out with
      | .grant, .grant n => s1.grantDone p n pr
      | _, _ => s1
    else s

/-- R52: a VERDICT answered STALE. -/
def verdictStale (p tag : Nat) (s : State) : State :=
  match (s.place p).presentation with
  | none => s
  | some pr => if pr.tag = tag then s.endPresentation p true false else s

/-- R53: an unsent VERDICT is withdrawn when the drop enters SILENT. -/
def verdictSilent (p : Nat) (s : State) : State :=
  match (s.place p).presentation with
  | none => s
  | some pr => if pr.sent then s else (s.withdraw p (isVerdict pr.tag)).endPresentation p false true

/-! ## DOOR OPEN's command (R61) -/

/-- R61: the REMOTE_OPEN record. -/
def remoteOpened (p seconds : Nat) (lost : Bool) (s : State) : State :=
  s.handOver ⟨.remoteOpen, .drop p, none, none, le 2 seconds, { Marks.none with undelivered := lost }, none⟩

/-! ## Offline backlog (R62 to R64) -/

/-- R64: the reasons that make a lock's GRANT a conflict. -/
def conflicts : Verdict → Bool
  | .grant => false
  | .deny r => r == .unknown || r == .revoked || r == .superseded || r == .expired

/-- R63, R64, 11.5: what the detail of an OFFLINE_ENTRY record carries as the reason that the evaluation gives, one
verdict code: a DENY reason's own code. DESIGN CHOICE (log 65), unsafe: a GRANT has no reason, and the spec does not say
what stands there; the code of the verdict does, 0 for GRANT and 1 for GRANT RELEASED, rather than no byte. -/
def evalCode (e : Evaluation) : Nat :=
  match e.verdict with
  | .deny r => denyCode r
  | .grant => if e.released then 1 else 0

/-- R63: the time of the lock's decision, `age` seconds before now. -/
def backDated (s : State) (age : Nat) : Nat × Nat :=
  let t := s.clock.m * 60 + s.clock.s - age
  (t / 60, t % 60)

/-- R63: the back-dated time of a record; with the clock UNSET the age is clamped to 0. -/
def backlogTime (s : State) (age : Nat) : Nat × Nat :=
  if s.clock.state = .unset then (s.clock.m, s.clock.s) else s.backDated age

/-- R63, R64: a backlog record becomes an OFFLINE_ENTRY record. Its detail's second byte is the evaluation's, also where
that is GRANT (log 65). -/
def backlogRecord (p card tag : Nat) (lockDeny : Bool) (age : Nat) (s : State) : State :=
  let e := s.evaluate p card false
  let conflict := !lockDeny && conflicts e.verdict
  let s1 := s.handOver
    ⟨.offlineEntry, .drop p, some card, some (if lockDeny then .lockDeny else .grant),
      [byte tag, byte (evalCode e)], { Marks.none with late := true, conflict := conflict }, some (s.backlogTime age)⟩
  if conflict then s1.faultAt .offlineConflict p else s1

def isBacklogNext (c : LineCmd) : Bool := c == .backlogNext

/-- R62: a BACKLOG_NEXT enters the queue while the flag is YES and the queue holds none. -/
def backlogRule (p : Nat) (s : State) : State :=
  let pl := s.place p
  if pl.backlog && !pl.queue.any (fun e => isBacklogNext e.cmd) then s.modPlace p (Place.offer .backlogNext) else s

end State

end Sys2Proof.Machine
end

