-- ==== Sys2Proof/Machine/Segments.lean ====
section
/-! DEFINITION. The Segment Controllers: completions that a test's end brings, drop presence and joins, line states and the
line test, and the poll scheduler (R66, R67, R79 to R99, R182, R189). -/

namespace Sys2Proof.Machine

/-! ## Building completions (R182, R188) -/

namespace State

/-- R182: a completion enters the completion queue, or waits outside it; a unit numbered 0 builds none (R175). -/
def buildCompletion (c : Completion) (s : State) : State :=
  if s.trunk.unitNumber = 0 then s
  else if s.trunk.completions.length < 8 ∧ s.trunk.waitingCompletions = [] then
    { s with trunk := { s.trunk with completions := s.trunk.completions ++ [c] } }
  else { s with trunk := { s.trunk with waitingCompletions := s.trunk.waitingCompletions ++ [c] } }

end State

/-! ## Identity and joins (R86, R87) -/

/-- R86: the reported kinds that match a door record. -/
def kindMatches (d : DoorRec) (k : DropKind) : Bool :=
  match d, k with
  | .roomDoor _ _ _ _, .lock => true
  | .commonDoor _ _ _ _, .lock => true
  | .commonDoor _ _ _ _, .reader => true
  | .minibar _ _ _, .minibar => true
  | _, _ => false

namespace State

/-- R39: the tests of an entry to PRESENT. -/
def enterPresent (p : Nat) (s : State) : State :=
  s.modPlace p (fun pl => { pl with presence := .present, joinStep := .none }.offerZone)

/-- R87: a DROP_PRESENCE record with one presence. -/
def presenceRecord (p : Nat) (x : Presence) (s : State) : State :=
  s.log .dropPresence (.drop p) [byte (presenceCode x)]

/-- R87: the join goes on from a matching identity. -/
def proceedJoin (p : Nat) (s : State) : State :=
  if (s.seg (segOf p)).line = .degraded then s.modPlace p (fun pl => { pl with joinStep := .waiting })
  else if (s.place p).door.isMinibar then (s.enterPresent p).presenceRecord p .present
  else s.modPlace p (fun pl => { pl with joinStep := .flush }.offer (.cacheFlush true))

/-- R86: a matching identity: LOCK_REPLACED where the serial has changed, then the new serial, then the join. -/
def identityMatch (p serial : Nat) (s : State) : State :=
  let s1 := match (s.place p).lockSerial with
    | none => s
    | some old => if old = serial then s else s.log .lockReplaced (.drop p) (le 4 old ++ le 4 serial)
  (s1.modPlace p (fun pl => { pl with lockSerial := some serial })).proceedJoin p

/-- R86: the comparison of a reported kind with the door record. -/
def compareIdentity (p : Nat) (k : DropKind) (serial : Nat) (s : State) : State :=
  if kindMatches (s.place p).door k then s.identityMatch p serial
  else (s.modPlace p (fun pl => { pl with joinStep := .mismatch })).faultAt .dropMismatch p

/-- R86: a confirmed IDENTIFY, taken while the join stands at IDENTIFY (log 16). -/
def identified (p : Nat) (k : DropKind) (serial : Nat) (s : State) : State :=
  if (s.place p).joinStep = .identify then
    (s.modPlace p (fun pl => { pl with reportedKind := some k, reportedSerial := some serial })).compareIdentity p k serial
  else s

/-- R88: the re-check of a mismatch. -/
def recheck (p : Nat) (s : State) : State :=
  let pl := s.place p
  match pl.joinStep, pl.reportedKind, pl.reportedSerial with
  | .mismatch, some k, some serial => s.compareIdentity p k serial
  | _, _, _ => s

/-- R119: a suspect flush confirmed, or settled as acted on (R105): its part 4, the reload, is requested at a drop that
is PRESENT or SILENT, where alone entries are created (R100, log 16). -/
def suspectFlushDone (p : Nat) (s : State) : State :=
  if (s.place p).reachable then (s.flushConfirmed p).requestReload p else s.flushConfirmed p

/-- R87: a confirmed join flush. Off the join step FLUSH it is a confirmed flush alone (log 16). -/
def joinFlushDone (p : Nat) (s : State) : State :=
  let s1 := s.flushConfirmed p
  if (s.place p).joinStep = .flush then ((s1.enterPresent p).presenceRecord p .present).requestReload p
  else if (s.place p).reachable then s1.requestReload p
  else s1

/-! ## Entering ABSENT (R78, R89) -/

/-- R78: the loss handling of a command; the presentation and the zone mark follow in R89's own parts. -/
def loseCmd (p : Nat) (s : State) (e : QEntry) : State :=
  match e.cmd with
  | .verdict tag _ =>
    match (s.place p).presentation with
    | some pr => if pr.tag = tag then s.endPresentation p false true else s
    | none => s
  | .remoteUnlock n => s.remoteOpened p n true
  | .holdOpen => s
  | .secure => s
  | .cacheAdd _ _ _ => s
  | .cacheRemove _ _ => s
  | .cacheFlush _ => s
  | .identify => s
  | .backlogNext => s

/-- R89 part 6: the per-drop state of a drop that enters ABSENT. R73, R78 and R89 do not say what becomes of the note of a
departed command. DESIGN CHOICE (log 50), unsafe: it is forgotten, and a later probe carries the next bit. -/
def absentFields (pl : Place) : Place :=
  { pl with misses := 0, joinStep := .none, joinOwed := [], reportedKind := none, reportedSerial := none,
            backlog := false, uncertain := true, departed := none }

/-- R89: a drop that is not ABSENT enters ABSENT. -/
def enterAbsent (p : Nat) (s : State) : State :=
  let old := s.place p
  let s1 := s.modPlace p (fun pl => { pl with presence := .absent, delivery := none, waiting := [] })
  let s2 := (old.queue.foldl (loseCmd p) s1).endPresentation p false true
  let s3 := s2.modPlace p (fun pl => pl.resetDoor (s2.zoneOfDoor pl.door == .released))
  let s4 := s3.leaveCache p
  let s5 := if old.door.isMinibar then s4.endLid p else s4
  ((s5.modPlace p absentFields).presenceRecord p old.presence).faultAt .dropAbsent p

/-- R92, R97: every drop of a segment that is not ABSENT enters ABSENT, in ascending address. -/
def allAbsent (g : Nat) (s : State) : State :=
  ((s.placesOn g).filter (fun p => (s.place p).presence != .absent)).foldl (fun s p => s.enterAbsent p) s

/-! ## Line states (R90 to R97) -/

/-- R91: the faults of the states entered. -/
def lineFault (g : Nat) (x : LineState) (s : State) : State :=
  match x with
  | .degraded => s.giveFault .segmentDegraded (padTo 3 [byte g])
  | .down => s.giveFault .segmentDown (padTo 3 [byte g])
  | .failed => s.giveFault .segmentFailed (padTo 3 [byte g])
  | .outOfService | .testing | .inService | .testPlug => s

/-- R66, R91, R95: the line state changes; an exchange under way in a state that the rule names ends at once, and the clean
windows counted so far are lost. R95 has them 0 on entering DEGRADED, and the worked operation of 12.3 has them 0 on the
recovery to IN_SERVICE and on leaving DEGRADED for DOWN and TESTING. DEDUCED (log 46): so they are 0 on entering every
other line state too. -/
def changeLine (g : Nat) (x : LineState) (fromTest : List Byte) (s : State) : State :=
  let old := (s.seg g).line
  let s1 := s.modSeg g (fun y => { y with
    line := x
    cleanWindows := 0
    exchange := if x = .inService ∨ x = .degraded then y.exchange else none })
  (s1.log .segmentState (.segment g) ([byte (lineCode old), byte (lineCode x)] ++ fromTest)).lineFault g x

/-- R92: the marks and the test progress on entering TESTING. -/
def startTest (y : Segment) : Segment :=
  { y with roundPos := 0, probeMark := 0, prioMark := 0, roundOpen := false, prioDue := false, retest := 0
           exchange := none, test := some ⟨1, 1, 0, .none, false⟩ }

/-- R92: a segment enters TESTING. -/
def enterTesting (g : Nat) (s : State) : State :=
  let s1 := if (s.seg g).line = .testing then s else s.changeLine g .testing []
  (s1.allAbsent g).modSeg g startTest

/-- R94: the segment enters DOWN and passes at once to TESTING. R97 has its drops enter ABSENT on entering DOWN, and R91
does not say on which side of the second SEGMENT_STATE their records stand. DESIGN CHOICE (log 48), unsafe: behind it, as
the worked operation of 12.3 lists them. -/
def enterDown (g : Nat) (s : State) : State := (s.changeLine g .down []).enterTesting g

/-- R97: a segment enters FAILED or TEST_PLUG: its drops enter ABSENT and the re-test seconds become 60. -/
def enterStopped (g : Nat) (x : LineState) (fromTest : List Byte) (s : State) : State :=
  ((s.changeLine g x fromTest).allAbsent g).modSeg g (fun y => { y with test := none, retest := 60 })

/-- R97, R99: a segment enters OUT_OF_SERVICE; a test in progress ends. DESIGN CHOICES (log 40), unsafe: a test ended so
decides nothing, so that the SEGMENT_STATE record carries no attempts and no wiring (R91), and the re-test seconds of a
FAILED or TEST_PLUG segment keep their value, uncounted (R97). -/
def enterOut (g : Nat) (s : State) : State :=
  ((s.changeLine g .outOfService []).allAbsent g).modSeg g (fun y => { y with test := none })

/-- R93: a segment enters IN_SERVICE or DEGRADED from a test. -/
def enterFromTest (g : Nat) (x : LineState) (fromTest : List Byte) (s : State) : State :=
  (s.changeLine g x fromTest).modSeg g (fun y =>
    { y with test := none, badCount := 0, termMisses := 0 })

/-- R95: an errored window degrades an IN_SERVICE segment. -/
def degrade (g : Nat) (s : State) : State := s.changeLine g .degraded []

/-- R96: the WAITING drops of a segment proceed, in ascending address. -/
def proceedWaiting (g : Nat) (s : State) : State :=
  ((s.placesOn g).filter (fun p => (s.place p).joinStep == .waiting)).foldl (fun s p => s.proceedJoin p) s

/-- R95, R96: the fourth clean window brings a DEGRADED segment back to IN_SERVICE. -/
def recover (g : Nat) (s : State) : State :=
  ((s.changeLine g .inService []).proceedWaiting g).runEngine g

/-- IN_SERVICE or DEGRADED: the states in which the scheduler runs. -/
def polling (s : State) (g : Nat) : Bool := (s.seg g).line == .inService || (s.seg g).line == .degraded

/-- R95: the error window closes and is judged. -/
def closeWindow (g : Nat) (s : State) : State :=
  if s.polling g then
    let x := s.seg g
    let s1 := s.setSeg g { x with badCount := 0 }
    if s.policy.e ≤ x.badCount then
      if x.line = .inService then s1.degrade g else s1.setSeg g { x with badCount := 0, cleanWindows := 0 }
    else if x.line = .degraded then
      let s2 := s1.setSeg g { x with badCount := 0, cleanWindows := min 4 (x.cleanWindows + 1) }
      if 4 ≤ x.cleanWindows + 1 then s2.recover g else s2
    else s1
  else s

/-- R97: the re-test delay has run out. -/
def retestTimeout (g : Nat) (s : State) : State :=
  let x := s.seg g
  if (x.line = .failed ∨ x.line = .testPlug) ∧ x.retest = 0 then s.enterTesting g else s

/-- R94: the third consecutive missed terminator poll. -/
def terminatorDown (g : Nat) (s : State) : State :=
  if s.polling g && decide (3 ≤ (s.seg g).termMisses) then s.enterDown g else s

/-- R84: the third consecutive missed poll of a PRESENT drop. DESIGN CHOICE (log 2), unsafe: the row acts on a PRESENT drop
at any count of 3 or more. -/
def missSilent (p : Nat) (s : State) : State :=
  let pl := s.place p
  if pl.presence = .present ∧ 3 ≤ pl.misses then (s.setPlace p { pl with presence := .silent }).verdictSilent p else s

/-- R84: the sixteenth consecutive missed poll. -/
def missAbsent (p : Nat) (s : State) : State :=
  let pl := s.place p
  if pl.presence ≠ .absent ∧ 16 ≤ pl.misses then s.enterAbsent p else s

/-! ## The line test (R92, R93, R189) -/

/-- R93: the state that a test's result enters. -/
def testResult (t : TestProgress) : LineState :=
  if t.wiring = .panelLoop then .testPlug
  else if t.failed = 0 then .inService
  else if t.failed < 4 then .degraded
  else .failed

/-- R93, R189: a pending SEGMENT TEST is answered. -/
def answerTest (g : Nat) (status : ReplyStatus) (result : List Byte) (s : State) : State :=
  match (s.seg g).pendingTest with
  | none => s
  | some (tag, _) =>
    (s.modSeg g (fun y => { y with pendingTest := none })).buildCompletion ⟨tag, 0x0E, status, [], result⟩

/-- R91, R93: a line state entered from a test. -/
def enterResult (g : Nat) (x : LineState) (fromTest : List Byte) (s : State) : State :=
  match x with
  | .testPlug => s.enterStopped g .testPlug fromTest
  | .failed => s.enterStopped g .failed fromTest
  | .inService => s.enterFromTest g .inService fromTest
  | .degraded => s.enterFromTest g .degraded fromTest
  | .outOfService | .testing | .down => s

/-- R93: the test has ended. -/
def endTest (g : Nat) (t : TestProgress) (s : State) : State :=
  let x := testResult t
  let detail := [byte t.failed, byte (wiringCode t.wiring)]
  (s.enterResult g x detail).answerTest g .done ([byte (lineCode x)] ++ detail)

/-- R92: the wiring code seen, after one more valid response. -/
def seeWiring (old seen : Wiring) : Wiring :=
  match old, seen with
  | .panelLoop, _ => .panelLoop
  | _, .panelLoop => .panelLoop
  | .terminated, _ => .terminated
  | .none, x => x

/-- R92: the progress after one exchange of a test; `none` of `next` marks the last exchange. -/
def advanceTest (t : TestProgress) (passed : Bool) (seen : Wiring) : TestProgress × Bool :=
  let bad := t.attemptFailed || !passed
  let w := seeWiring t.wiring seen
  if t.exchange < 8 then (⟨t.attempt, t.exchange + 1, t.failed, w, bad⟩, false)
  else
    let f := if bad then t.failed + 1 else t.failed
    if t.attempt < 4 then (⟨t.attempt + 1, 1, f, w, false⟩, false) else (⟨t.attempt, t.exchange, f, w, bad⟩, true)

/-- R92: an exchange of the test has ended. -/
def testStep (g : Nat) (passed : Bool) (seen : Wiring) (s : State) : State :=
  match (s.seg g).test with
  | none => s
  | some t =>
    match advanceTest t passed seen with
    | (t', false) => s.modSeg g (fun y => { y with test := some t' })
    | (t', true) => s.endTest g t'

/-- 11.6: the exchange's number, 0..31, and its pattern. -/
def testPattern (t : TestProgress) : List Byte :=
  let n := (t.attempt - 1) * 8 + (t.exchange - 1)
  (List.range 8).map (fun i => byte (n * 8 + i) ^^^ (if i % 2 = 0 then 0xAA#8 else 0x55#8))

/-! ## Poll frames (R67, R211, 11.6) -/

end State

/-- 11.6: the code of a line command; 0 stands for none, 10 for ECHO. -/
def LineCmd.code : LineCmd → Nat
  | .verdict _ _ => 1
  | .remoteUnlock _ => 2
  | .holdOpen => 3
  | .secure => 4
  | .cacheAdd _ _ _ => 5
  | .cacheRemove _ _ => 6
  | .cacheFlush _ => 7
  | .identify => 8
  | .backlogNext => 9

/-- 11.6: a verdict's result and seconds. -/
def VerdictOut.bytes : VerdictOut → List Byte
  | .grant seconds => [0#8, byte seconds]
  | .denyTime => [1#8, 0#8]
  | .denyRefused => [2#8, 0#8]

/-- 11.6: the operands of a line command. -/
def LineCmd.operands : LineCmd → List Byte
  | .verdict tag out => byte tag :: out.bytes
  | .remoteUnlock seconds => [byte seconds]
  | .cacheAdd slot card _ => byte slot :: le 4 card
  | .cacheRemove slot _ => [byte slot]
  | .holdOpen => []
  | .secure => []
  | .cacheFlush _ => []
  | .identify => []
  | .backlogNext => []

/-- A line frame: its covered bytes and their check, low byte first (R211). -/
def lineFrame (covered : List Byte) : List Byte := covered ++ checkBytes (crc covered)

/-- 11.6: address and sequence bit, the first byte of a poll frame. -/
def pollByte (addr : Nat) (bit : Bool) : Byte := byte (addr + if bit then 128 else 0)

/-- R67: what a poll carries after its first byte: in a line test ECHO with its pattern, else its command, or none. -/
def Exchange.body (e : Exchange) (test : Option TestProgress) : List Byte :=
  match e.kind, test, e.carried with
  | .test, some t, _ => 10#8 :: State.testPattern t
  | _, _, some q => byte q.cmd.code :: q.cmd.operands
  | _, _, none => [0#8]

namespace State

/-- R67, R211: the poll frame of the exchange under way on a segment. It follows from the exchange and the test's progress,
which stands still until the exchange ends (log 33). -/
def pollFrame (s : State) (g : Nat) : Option (List Byte) :=
  (s.seg g).exchange.map (fun e => lineFrame (pollByte e.addr e.bit :: e.body (s.seg g).test))

/-! ## Polls (R66, R67, R79 to R82, R92) -/

/-- A poll to a drop begins: its command is chosen by R67. -/
def pollDrop (g a : Nat) (kind : PollKind) (s : State) : State :=
  let pl := s.place (placeOf g a)
  let c := pl.choose ((s.seg g).line == .degraded)
  (s.setPlace (placeOf g a) c.1).modSeg g (fun x =>
    { x with exchange := some ⟨a, kind, pl.pollBit, c.2, pl.uncertain⟩ })

/-- A poll to the terminator begins (R67). -/
def pollTerminator (g : Nat) (kind : PollKind) (s : State) : State :=
  s.modSeg g (fun x => { x with exchange := some ⟨0, kind, false, none, false⟩ })

/-- R79: a member is a drop that is not ABSENT and whose place is not UNUSED. -/
def isMember (s : State) (g a : Nat) : Bool :=
  (s.place (placeOf g a)).presence != .absent && !(s.place (placeOf g a)).door.isUnused

/-- R80: the probe candidates. -/
def isCandidate (s : State) (g a : Nat) : Bool :=
  (s.place (placeOf g a)).presence == .absent || (s.place (placeOf g a)).door.isUnused

/-- R81: a drop that is not ABSENT and holds a class-1 command. -/
def isUrgent (s : State) (g a : Nat) : Bool :=
  (s.place (placeOf g a)).presence != .absent && decide (0 < (s.place (placeOf g a)).class1)

/-- The addresses 1..32. -/
def addresses : List Nat := (List.range 32).map (fun i => i + 1)

/-- R80, R81: the lowest address above a mark that qualifies, or the lowest that does. -/
def afterMark (mark : Nat) (f : Nat → Bool) : Option Nat :=
  match addresses.find? (fun a => decide (mark < a) && f a) with
  | some a => some a
  | none => addresses.find? f

/-- R79: the next member above the round position. -/
def nextMember (s : State) (g : Nat) : Option Nat :=
  addresses.find? (fun a => decide ((s.seg g).roundPos < a) && s.isMember g a)

/-- R66: no exchange is under way on the segment, and its scheduler runs (R82). -/
def lineFree (s : State) (g : Nat) : Bool := s.polling g && (s.seg g).exchange.isNone

/-- R81: a priority poll is due before the next normal poll. -/
def priorityDue (s : State) (g : Nat) : Bool := (s.seg g).prioDue && addresses.any (s.isUrgent g)

/-- The terminator's poll opens a round (R79). -/
def openRound (g : Nat) (s : State) : State :=
  (s.modSeg g (fun x => { x with roundPos := 0, roundOpen := true, prioDue := false })).pollTerminator g .normal

/-- R79: the round's next normal poll. Past the last member, the next round begins where there is no probe candidate. -/
def normalPoll (g : Nat) (s : State) : State :=
  if s.lineFree g && !s.priorityDue g then
    if (s.seg g).roundOpen then
      match s.nextMember g with
      | some a => (s.modSeg g (fun x => { x with roundPos := a, prioDue := false })).pollDrop g a .normal
      | none => if addresses.any (s.isCandidate g) then s else s.openRound g
    else s.openRound g
  else s

/-- R79, R80: the round's probe, after its last member. -/
def probePoll (g : Nat) (s : State) : State :=
  if s.lineFree g && !s.priorityDue g && (s.seg g).roundOpen && (s.nextMember g).isNone then
    match afterMark (s.seg g).probeMark (s.isCandidate g) with
    | some a =>
      (s.modSeg g (fun x => { x with probeMark := a, roundOpen := false, prioDue := false })).pollDrop g a .probe
    | none => s
  else s

/-- R81: the priority poll that is due after a normal poll's exchange. -/
def priorityPoll (g : Nat) (s : State) : State :=
  if s.lineFree g && (s.seg g).prioDue then
    match afterMark (s.seg g).prioMark (s.isUrgent g) with
    | some a => (s.modSeg g (fun x => { x with prioMark := a, prioDue := false })).pollDrop g a .priority
    | none => s
  else s

/-- R92: the next exchange of a line test. -/
def testExchange (g : Nat) (s : State) : State :=
  let x := s.seg g
  if x.line = .testing ∧ x.test.isSome ∧ x.exchange = none then s.pollTerminator g .test else s

end State

end Sys2Proof.Machine
end

