-- ==== Sys2Proof/Machine/Responses.lean ====
section
/-! DEFINITION. Line responses: reading them, sorting them as valid or bad, and taking a valid one as condition, event and
confirmation (R62, R66, R68, R71 to R73, R84, R85, R94, R95, R105, R212, 11.6). -/

namespace Sys2Proof.Machine

/-! ## Reading a response frame (11.6, R212) -/

/-- The event of a response. -/
inductive LineEvent
  | none
  | presentation (card tag : Nat)
  | done
  | stale
  | compartment (c : Nat) (taken : Bool)
  | identity (kind : DropKind) (serial : Nat)
  | backlogEnd
  | backlog (card tag : Nat) (lockDeny : Bool) (age : Nat)
  | echo (pattern : List Byte)
  deriving DecidableEq, Repr

/-- A response frame whose check, codes, ranges and size are good. `status` is the drop's condition byte or the
terminator's wiring code. -/
structure Response where
  addr : Nat
  echo : Bool
  status : Byte
  event : LineEvent
  deriving DecidableEq, Repr

/-- The range of a card number on the line. -/
def cardOk (n : Nat) : Bool := n != 0 && n != 4294967295

/-- 11.6: the event of a code and its operands, when the size and the ranges are those given. -/
def readEvent (code : Nat) (ops : List Byte) : Option LineEvent :=
  match code, ops with
  | 0, [] => some .none
  | 1, [a, b, c, d, t] =>
    if cardOk (ofLe [a, b, c, d]) && decide (t.toNat ≤ 15) then some (.presentation (ofLe [a, b, c, d]) t.toNat)
    else none
  | 2, [] => some .done
  | 3, [] => some .stale
  | 4, [c, m] =>
    if decide (c.toNat ≤ 11) && decide (m.toNat ≤ 1) then some (.compartment c.toNat (m == 0#8)) else none
  | 5, [k, a, b, c, d] => (dropKindOf k.toNat).map (fun x => .identity x (ofLe [a, b, c, d]))
  | 6, [e] => if e = 0#8 then some .backlogEnd else none
  | 6, [e, a, b, c, d, t, v, x, y] =>
    if e = 1#8 ∧ cardOk (ofLe [a, b, c, d]) ∧ t.toNat ≤ 15 ∧ v.toNat ≤ 1 then
      some (.backlog (ofLe [a, b, c, d]) t.toNat (v == 1#8) (ofLe [x, y]))
    else none
  | 7, ops => if ops.length = 8 then some (.echo ops) else none
  | _, _ => none

/-- R212: the reserved bits of the second byte, or the terminator's wiring code. -/
def statusOk (terminator : Bool) (b : Byte) : Bool := if terminator then decide (b.toNat ≤ 1) else decide (b.toNat < 16)

/-- A response to a poll of a drop or of the terminator; `none` is a check error (R66, R212). -/
def readResponse (terminator : Bool) (bs : List Byte) : Option Response :=
  if crcOk bs then
    match bs.take (bs.length - 2) with
    | first :: second :: code :: ops =>
      if first.getLsbD 6 || !statusOk terminator second then none
      else (readEvent code.toNat ops).map (fun ev => ⟨first.toNat % 64, first.getLsbD 7, second, ev⟩)
    | _ => none
  else none

/-- R66, R72: whether a response is valid for the exchange it answers. -/
def validFor (e : Exchange) (r : Response) : Bool :=
  r.addr == e.addr && (if e.addr = 0 then !r.echo else e.carried.isNone || r.echo == e.bit)

/-- R66: the valid response of an exchange, when the frame is one. -/
def validResponse (e : Exchange) (bs : List Byte) : Option Response :=
  match readResponse (e.addr == 0) bs with
  | none => none
  | some r => if validFor e r then some r else none

/-- The condition of a drop's response. -/
def condOf (b : Byte) : Cond := ⟨b.getLsbD 0, b.getLsbD 1, b.getLsbD 2⟩

/-- The terminator's wiring code. -/
def wiringOf (b : Byte) : Wiring := if b = 0#8 then .terminated else .panelLoop

namespace State

/-! ## Missed polls (R84, R94, R95) -/

/-- R95: a bad response raises the bad count in IN_SERVICE and DEGRADED. -/
def countBad (g : Nat) (s : State) : State :=
  if s.polling g then s.modSeg g (fun x => { x with badCount := min 255 (x.badCount + 1) }) else s

/-- A consequence that a row of the table carries out is due (log 1). -/
def addDue (d : Due) (s : State) : State := { s with due := s.due ++ [d] }

/-- R84: a missed poll of a drop; probes of an ABSENT drop keep no miss count. R84 brings a PRESENT drop to SILENT when its
count reaches 3, and does not say what a drop does that enters PRESENT with 3 or more. DESIGN CHOICE (log 2), unsafe:
SILENT becomes due at a count of exactly 3, so that such a drop stays PRESENT until a valid response or the count of 16. -/
def missDrop (p : Nat) (s : State) : State :=
  let pl := s.place p
  if pl.presence = .absent then s
  else
    let n := min 16 (pl.misses + 1)
    let s1 := s.setPlace p { pl with misses := n }
    let s2 := if pl.presence = .present ∧ n = 3 then s1.addDue (.missSilent p) else s1
    if n = 16 then s2.addDue (.missAbsent p) else s2

/-- R94: a missed poll of the terminator. -/
def missTerminator (g : Nat) (s : State) : State :=
  let n := min 3 ((s.seg g).termMisses + 1)
  let s1 := s.modSeg g (fun x => { x with termMisses := n })
  if n = 3 then s1.addDue (.terminatorDown g) else s1

/-- R66: an exchange that ended without a valid response. -/
def missedExchange (g : Nat) (e : Exchange) (s : State) : State :=
  if e.kind = .test then s.testStep g false .none
  else if e.addr = 0 then s.missTerminator g
  else s.missDrop (placeOf g e.addr)

/-! ## Confirmation (R71) -/

/-- R71: the answers that a command expects. -/
def expects (c : LineCmd) (ev : LineEvent) : Bool :=
  match c, ev with
  | .verdict _ _, .done => true
  | .verdict _ _, .stale => true
  | .identify, .identity _ _ => true
  | .backlogNext, .backlogEnd => true
  | .backlogNext, .backlog _ _ _ _ => true
  | .remoteUnlock _, .done => true
  | .holdOpen, .done => true
  | .secure, .done => true
  | .cacheAdd _ _ _, .done => true
  | .cacheRemove _ _, .done => true
  | .cacheFlush _, .done => true
  | _, _ => false

/-- R63: a backlog event taken. -/
def takeBacklog (p : Nat) (ev : LineEvent) (s : State) : State :=
  match ev with
  | .backlog card tag d age => s.backlogRecord p card tag d age
  | .none | .presentation _ _ | .done | .stale | .compartment _ _ | .identity _ _ | .backlogEnd | .echo _ => s

/-- R71 part 3: the command and its answer go to the command's source. -/
def handAnswer (p : Nat) (c : LineCmd) (ev : LineEvent) (s : State) : State :=
  match c with
  | .verdict tag out => if ev = .stale then s.verdictStale p tag else s.verdictDone p tag out
  | .remoteUnlock n => (if (s.place p).door.isUnused then s else s.modPlace p (Place.unlock n)).remoteOpened p n false
  | .holdOpen => if (s.place p).door.isLocked then s.modPlace p Place.holdOpenDone else s
  | .secure => if (s.place p).door.isLocked then s.modPlace p Place.secureDone else s
  | .cacheAdd slot _ i => s.addConfirmed p slot i
  | .cacheRemove slot i => s.removeConfirmed p slot i
  | .cacheFlush true => s.joinFlushDone p
  | .cacheFlush false => s.suspectFlushDone p
  | .identify =>
    match ev with
    | .identity k n => s.identified p k n
    | _ => s
  | .backlogNext => s.takeBacklog p ev

/-- R71: the command in delivery leaves the queue, the next bit toggles, the source has its answer, and the freed place is
offered (R104). -/
def confirm (p : Nat) (c : LineCmd) (ev : LineEvent) (s : State) : State :=
  ((s.modPlace p (fun pl => { pl with delivery := none, nextBit := !pl.nextBit })).handAnswer p c ev).reoffer p

/-! ## Resync (R72, R73, R105) -/

/-- R105: the status of a doubtful entry that the drop did not act on. -/
def undoubt (pl : Place) (slot i : Nat) : Place :=
  pl.mapDir slot i (fun x => match x with
    | .adding .doubtful => .adding .owed
    | .removing .doubtful => .removing .owed
    | y => y)

/-- R105: the echo settles a cache command in doubt. R105 does not say whether a suspect flush whose status a LOAD DOORS has
meanwhile made NONE (R124) is still taken as confirmed. DESIGN CHOICE (log 55), unsafe: it is not, and the echo settles
nothing about it; a CACHE_REMOVE whose entry is gone is taken as confirmed all the same. -/
def settleDoubt (p : Nat) (c : LineCmd) (acted : Bool) (s : State) : State :=
  match c with
  | .cacheAdd slot _ i =>
    if acted then
      s.modPlace p (fun pl => pl.mapDir slot i (fun x => match x with
        | .adding .doubtful => .held
        | y => y))
    else if (s.place p).directory.any (fun d => d.slot == slot && d.index == i && d.state == .adding .doubtful) then
      s.modPlace p (fun pl => undoubt pl slot i)
    else s
  | .cacheRemove slot i =>
    if acted then s.removeConfirmed p slot i else s.modPlace p (fun pl => undoubt pl slot i)
  | .cacheFlush false =>
    if (s.place p).flush = some .doubtful then
      if acted then s.suspectFlushDone p else s.modPlace p (fun pl => { pl with flush := some .owed })
    else s
  | .cacheFlush true => s
  | .verdict _ _ => s
  | .remoteUnlock _ => s
  | .holdOpen => s
  | .secure => s
  | .identify => s
  | .backlogNext => s

/-- R73, R105: what the first valid resync response settles about the departed command; the departed command's bit as echo
means that the drop acted on it. R105 offers a command settled as not acted on again under R104, whose events do not name
this response. DESIGN CHOICE (log 51), unsafe: it is offered at this response. -/
def settleDeparted (p : Nat) (r : Response) (s : State) : State :=
  match (s.place p).departed with
  | none => s
  | some d =>
    if d.settled then s
    else
      let s1 := s.modPlace p (fun pl => { pl with departed := some { d with settled := true } })
      (s1.settleDoubt p d.cmd (r.echo == d.bit)).reoffer p

/-- R73: a departed BACKLOG_NEXT that the drop acted on gives its record. -/
def departedBacklog (p : Nat) (r : Response) (s : State) : State :=
  match (s.place p).departed with
  | none => s
  | some d => if d.cmd = .backlogNext ∧ r.echo = d.bit then s.takeBacklog p r.event else s

/-- A PRESENTATION or a COMPARTMENT event. -/
def LineEvent.unsolicited : LineEvent → Bool
  | .presentation _ _ => true
  | .compartment _ _ => true
  | .none | .done | .stale | .identity _ _ | .backlogEnd | .backlog _ _ _ _ | .echo _ => false

/-- R72: a valid response to a plain poll. -/
def plainResponse (p : Nat) (e : Exchange) (r : Response) (s : State) : State :=
  let s1 := s.modPlace p (fun pl => { pl with nextBit := !r.echo })
  if e.resync then
    let s2 := (s1.settleDeparted p r).departedBacklog p r
    if LineEvent.unsolicited r.event then s2
    else s2.modPlace p (fun pl => { pl with uncertain := false, departed := none })
  else s1

/-! ## A valid response of a drop (R68, R84, R85) -/

/-- R84, R85: presence and miss count at a valid response. -/
def heard (p : Nat) (r : Response) (s : State) : State :=
  let pl := s.place p
  match pl.presence with
  | .absent =>
    s.setPlace p ({ pl with presence := .joining, misses := 0, nextBit := !r.echo, joinStep := .identify }.offer
      .identify)
  | .silent => s.setPlace p ({ pl with presence := .present, misses := 0 }.offerZone)
  | .joining | .present => s.setPlace p { pl with misses := 0 }

/-- R55, R62: the condition of a response, and its backlog-waiting flag. -/
def takeCondition (p : Nat) (r : Response) (s : State) : State :=
  let s1 := s.reportCond p (condOf r.status)
  (s1.modPlace p (fun pl => { pl with backlog := r.status.getLsbD 3 })).backlogRule p

/-- R68: the event of a response. -/
def takeEvent (p : Nat) (ev : LineEvent) (s : State) : State :=
  match ev with
  | .presentation card tag => s.present p card tag
  | .compartment c taken => if (s.place p).door.isMinibar then s.compartmentEvent p c taken else s
  | .none | .done | .stale | .identity _ _ | .backlogEnd | .backlog _ _ _ _ | .echo _ => s

/-- R62: the response that confirms a BACKLOG_NEXT queues the next one where it still reports backlog-waiting YES. One
that a full queue returned or evicted waits for the next response (R62, R77), whatever place this one frees. -/
def nextBacklog (p : Nat) (c : LineCmd) (s : State) : State := if c = .backlogNext then s.backlogRule p else s

/-- R71, R72: the third part of a response. -/
def takeAnswer (p : Nat) (e : Exchange) (r : Response) (s : State) : State :=
  match e.carried with
  | some q =>
    if (s.place p).delivery = some q ∧ expects q.cmd r.event then (s.confirm p q.cmd r.event).nextBacklog p q.cmd else s
  | none => s.plainResponse p e r

/-- R68: a valid response of a drop is taken in its parts. -/
def dropResponse (p : Nat) (e : Exchange) (r : Response) (s : State) : State :=
  (((s.heard p r).takeCondition p r).takeEvent p r.event).takeAnswer p e r

/-! ## A valid response of the terminator (R92, R94) -/

/-- R94: a terminator response outside a test. -/
def terminatorResponse (g : Nat) (r : Response) (s : State) : State :=
  let s1 := s.modSeg g (fun x => { x with termMisses := 0 })
  if wiringOf r.status = .panelLoop then s1.enterStopped g .testPlug [] else s1

/-- R92: a test exchange passes when its response returns the pattern unchanged. -/
def testResponse (g : Nat) (r : Response) (s : State) : State :=
  match (s.seg g).test with
  | none => s
  | some t => s.testStep g (decide (r.event = .echo (testPattern t))) (wiringOf r.status)

/-- R66: a valid response is acted on. -/
def validExchange (g : Nat) (e : Exchange) (r : Response) (s : State) : State :=
  if e.kind = .test then s.testResponse g r
  else if e.addr = 0 then s.terminatorResponse g r
  else s.dropResponse (placeOf g e.addr) e r

/-! ## The end of an exchange (R66) -/

/-- R66, R81: an exchange ends; after a normal poll or the round's probe a priority poll may be due. -/
def endExchange (g : Nat) (e : Exchange) (s : State) : State :=
  s.modSeg g (fun x => { x with exchange := none, prioDue := x.prioDue || e.kind == .normal || e.kind == .probe })

/-- R66: a response frame has been received. -/
def responseReceived (g : Nat) (bs : List Byte) (s : State) : State :=
  match (s.seg g).exchange with
  | none => s
  | some e =>
    let s1 := s.endExchange g e
    match validResponse e bs with
    | some r => s1.validExchange g e r
    | none => (s1.countBad g).missedExchange g e

/-- R66: the window has closed with no frame begun. -/
def windowClosed (g : Nat) (s : State) : State :=
  match (s.seg g).exchange with
  | none => s
  | some e => (s.endExchange g e).missedExchange g e

end State

end Sys2Proof.Machine
end

