-- ==== Sys2Proof/Machine/Trunk.lean ====
section
/-! DEFINITION. The Trunk Interface: receiving, holds, links, the classifier, forwarding, and the uplink arbiter (R160,
R170 to R184). -/

namespace Sys2Proof.Machine

/-! ## Receiving (R171, R211) -/

/-- R171: the destination test of a frame received at UPLINK. -/
def destOk (port : Port) (dest : Byte) (room : Nat) : Bool :=
  match port with
  | .downlink => true
  | .uplink => decide (dest.toNat ≤ 31) || (dest == 255#8 && room != 0)

/-- R171, R211: the frame that a whole reception holds, when it is good. R211 ends a frame with its second check byte, and
no rule says what bytes between it and the next idle are. DESIGN CHOICE (log 24), unsafe: they belong to the reception,
which as a whole is one bad frame. -/
def readFrame (port : Port) (bs : List Byte) : Option TrunkFrame :=
  match bs with
  | _ :: dest :: r0 :: r1 :: source :: kind :: tag :: len :: rest =>
    let payload := rest.take len.toNat
    let check := rest.drop len.toNat
    if decide (len.toNat ≤ 240) && decide (rest.length = len.toNat + 2) && crcOk (bs.drop 1)
        && destOk port dest (ofLe [r0, r1]) then
      some ⟨dest, ofLe [r0, r1], source, kind, tag, payload, BitVec.ofNat 16 (ofLe check)⟩
    else none
  | _ => none

/-- 11.4: a port as a fault detail. -/
def portCode : Port → Nat
  | .uplink => 0
  | .downlink => 1

namespace State

/-- R170, R172: each receive side asserts hold while its queue is full. -/
def holds (s : State) : Port → Bool
  | .uplink => decide (8 ≤ s.trunk.classifier.length)
  | .downlink => decide (8 ≤ s.trunk.passThrough.length)

/-- R170: whether a link is CONNECTED. -/
def link (s : State) : Port → Bool
  | .uplink => s.trunk.upLink
  | .downlink => s.trunk.downLink

def setLink (port : Port) (x : Bool) (s : State) : State :=
  match port with
  | .uplink => { s with trunk := { s.trunk with upLink := x } }
  | .downlink => { s with trunk := { s.trunk with downLink := x } }

/-- R171: a bad frame is counted and gives fault TRUNK_CHECK. -/
def badFrame (port : Port) (s : State) : State :=
  let s1 := match port with
    | .uplink => { s with trunk := { s.trunk with upErrors := min 65535 (s.trunk.upErrors + 1) } }
    | .downlink => { s with trunk := { s.trunk with downErrors := min 65535 (s.trunk.downErrors + 1) } }
  s1.giveFault .trunkCheck (padTo 3 [byte (portCode port)])

/-- R172: a good frame that finds its queue full is discarded. -/
def overrun (port : Port) (s : State) : State :=
  match port with
  | .uplink => { s with trunk := { s.trunk with upOverruns := min 65535 (s.trunk.upOverruns + 1) } }
  | .downlink => { s with trunk := { s.trunk with downOverruns := min 65535 (s.trunk.downOverruns + 1) } }

/-- R171: a good frame enters its port's queue. -/
def takeFrame (port : Port) (f : TrunkFrame) (s : State) : State :=
  if s.holds port then s.overrun port
  else match port with
    | .uplink => { s with trunk := { s.trunk with classifier := s.trunk.classifier ++ [f] } }
    | .downlink => { s with trunk := { s.trunk with passThrough := s.trunk.passThrough ++ [f] } }

/-- R170, R171, R211: bytes received at a port after idle; without the delimiter they begin no frame. -/
def receive (port : Port) (bs : List Byte) (s : State) : State :=
  let s1 := s.setLink port true
  if bs.head? = some 0xA5#8 then
    match readFrame port bs with
    | some f => s1.takeFrame port f
    | none => s1.badFrame port
  else s1

/-- R172: the partner's hold. -/
def partnerHold (port : Port) (x : Bool) (s : State) : State :=
  match port with
  | .uplink => { s with trunk := { s.trunk with upHeld := x } }
  | .downlink => { s with trunk := { s.trunk with downHeld := x } }

/-! ## Coverage (R176) -/

/-- R176: whether a window covers a room. -/
def covers (w : Window) (r : Nat) : Bool :=
  w.enabled && decide (w.base ≤ r) && decide (r < w.base + w.count) && decide (w.first + (r - w.base) ≤ 32)

/-- R176: the lowest-numbered window that covers a room, with the place it translates to. -/
def translate (s : State) (r : Nat) : Option (Nat × Nat) :=
  match s.windows.find? (fun e => covers e.2 r) with
  | none => none
  | some (n, w) => some (n, placeOf w.seg (w.first + (r - w.base)))

/-- R176: the coverage test. -/
def covered (s : State) (r : Nat) : Bool := (s.translate r).isSome

/-- R178: the conflict of a room-addressed frame with the door record at its translated place: the window and the room
that the record names. -/
def mapConflict (s : State) (form : DestForm) : Option (Nat × Nat) :=
  match form with
  | .unit => none
  | .broadcast => none
  | .room r =>
    match s.translate r with
    | none => none
    | some (n, p) =>
      match (s.place p).door.room? with
      | none => none
      | some x => if x = r then none else some (n, x)

/-! ## Answers of the classifier (R175, R178, R180) -/

/-- A refusal with its detail (11.4). -/
def refusal (kind tag : Byte) (r : Reason) (detail : List Byte) : Completion := ⟨tag, kind, .refused r, detail, []⟩

/-- R175: the refusal of a unit in BYPASS, with the stage that led there. -/
def bypassRefusal (s : State) (kind tag : Byte) : Completion :=
  refusal kind tag .bypass [byte (s.bypassStage.getD 0)]

/-- R178: the MAP_CONFLICT refusal. -/
def conflictRefusal (kind tag : Byte) (x : Nat × Nat) : Completion :=
  refusal kind tag .mapConflict ([byte x.1] ++ le 2 x.2)

/-- R180: the NO_ROUTE completion of a dropped frame; a broadcast has none. 11.4 puts the frame's destination byte and
room into the detail, and 11.1 has the room of a frame to a unit number be 0 and not read. DESIGN CHOICE (log 66), unsafe:
the detail carries the room bytes as the frame arrived with them, also where they are not 0 in such a frame. -/
def noRoute (f : TrunkFrame) (s : State) : State :=
  if f.dest = 0#8 then s else s.buildCompletion ⟨f.tag, f.kind, .noRoute, [f.dest] ++ le 2 f.room, []⟩

/-! ## The classifier (R173 to R175, R179, R180) -/

/-- R173: the three conditions. -/
def canClassify (s : State) : Bool :=
  (decide (s.trunk.downlink.length < 8) || !s.trunk.downLink) && s.request.isNone
    && decide (s.trunk.completions.length < 8) && s.trunk.waitingCompletions.isEmpty

/-- R174: the form of destination in which this unit consumes a frame, when it does. -/
def consumedAs (s : State) (f : TrunkFrame) : Option DestForm :=
  if f.dest = 0#8 then some .broadcast
  else if f.dest = 255#8 then
    (if s.status ≠ .bypass ∧ s.covered f.room then some (.room f.room) else none)
  else if f.dest.toNat = s.trunk.unitNumber then some .unit
  else none

/-- R174: every frame is forwarded but one consumed under this unit's number or room. -/
def forwarded (s : State) (f : TrunkFrame) : Bool := f.dest == 0#8 || (s.consumedAs f).isNone

/-- R179, R180: a forwarded frame enters the downlink queue, or is answered NO_ROUTE where DOWNLINK is DISCONNECTED. -/
def forward (f : TrunkFrame) (s : State) : State :=
  if s.trunk.downLink then { s with trunk := { s.trunk with downlink := s.trunk.downlink ++ [f] } }
  else s.noRoute f

/-- R174, R175, R178: a frame consumed here. -/
def consume (f : TrunkFrame) (form : DestForm) (s : State) : State :=
  match s.status with
  | .starting => s.buildCompletion (refusal f.kind f.tag .notReady [])
  | .bypass => s.buildCompletion (s.bypassRefusal f.kind f.tag)
  | .ready | .readyWithErrors =>
    match s.mapConflict form with
    | some x => s.buildCompletion (conflictRefusal f.kind f.tag x)
    | none => { s with request := some ⟨f.kind, ⟨form, f.source, f.tag, f.payload⟩⟩ }

/-- R174: the outcome of one frame. -/
def classify (f : TrunkFrame) (s : State) : State :=
  let s1 := if s.forwarded f then s.forward f else s
  match s.consumedAs f with
  | some form => s1.consume f form
  | none => s1

/-- R173: the classifier takes the oldest frame when its conditions hold. -/
def classifyNext (s : State) : State :=
  match s.trunk.classifier with
  | [] => s
  | f :: fs =>
    if s.canClassify then { s with trunk := { s.trunk with classifier := fs } }.classify f else s

/-! ## Transmission (R160, R179, R183) -/

/-- The frame in transmission at a port. -/
def transmits (s : State) : Port → Bool
  | .uplink => s.trunk.upTx.isSome
  | .downlink => s.trunk.downTx.isSome

/-- A port has no frame in transmission any more. -/
def endTx (port : Port) (s : State) : State :=
  match port with
  | .uplink => { s with trunk := { s.trunk with upTx := none } }
  | .downlink => { s with trunk := { s.trunk with downTx := none } }

/-- R179, R183: the condition that no frame is being transmitted is tested. When a transmission ends is a free value, a
fresh one at each test (log 6). -/
def testTx (port : Port) (s : State) : State :=
  if s.transmits port then
    let s1 := { s with trunk := { s.trunk with txTests := s.trunk.txTests + 1 } }
    if Config.transmissionEnded s.trunk.txTests then s1.endTx port else s1
  else s

/-- R179: the oldest frame of the downlink queue begins its transmission, where none is under way. -/
def sendOldest (s : State) : State :=
  match s.trunk.downlink with
  | [] => s
  | f :: fs =>
    if s.transmits .downlink then s else { s with trunk := { s.trunk with downlink := fs, downTx := some f } }

/-- R179: DOWNLINK's transmit side sends while its three conditions hold. -/
def sendDown (s : State) : State :=
  if s.trunk.downLink && !s.trunk.downHeld && !s.trunk.downlink.isEmpty then (s.testTx .downlink).sendOldest else s

/-- R160: the record that the Entry Journal offers. -/
def journalOffer (s : State) : Option Record :=
  if (s.status = .ready ∨ s.status = .readyWithErrors) ∧ s.journal.cursor < s.journal.next then
    s.journal.ring.find? (fun r => r.seq == s.journal.cursor)
  else none

/-- R183: the local source has something to send. -/
def localWaits (s : State) : Bool :=
  !s.trunk.completions.isEmpty || !s.trunk.notices.isEmpty || s.journalOffer.isSome

/-- R183: completions before notices before the journal frame. -/
def sendLocal (s : State) : State :=
  match s.trunk.completions, s.trunk.notices, s.journalOffer with
  | c :: cs, _, _ =>
    let s1 := { s with trunk := { s.trunk with completions := cs, upTx := some (.completion c), lastServed := .local } }
    if s.trunk.waitingCompletions.isEmpty then s1 else s1.addDue .completionEnter
  | [], n :: ns, _ => { s with trunk := { s.trunk with notices := ns, upTx := some (.notice n), lastServed := .local } }
  | [], [], some r =>
    { s with
      trunk := { s.trunk with upTx := some (.journal r), lastServed := .local }
      journal := { s.journal with cursor := s.journal.cursor + 1 } }
  | [], [], none => s

/-- R183: the oldest frame from below. -/
def sendThrough (s : State) : State :=
  match s.trunk.passThrough with
  | [] => s
  | f :: fs =>
    { s with trunk := { s.trunk with passThrough := fs, upTx := some (.passThrough f), lastServed := .passThrough } }

/-- R183: when both sources wait, the one not served last is served. -/
def serveNext (s : State) : State :=
  if s.trunk.passThrough.isEmpty then s.sendLocal
  else if s.localWaits && s.trunk.lastServed == .passThrough then s.sendLocal
  else s.sendThrough

/-- R183: the chosen frame begins its transmission, where none is under way. -/
def sendNext (s : State) : State := if s.transmits .uplink then s else s.serveNext

/-- R183: the uplink arbiter chooses while its three conditions hold. -/
def arbitrate (s : State) : State :=
  if s.trunk.upLink && !s.trunk.upHeld && (!s.trunk.passThrough.isEmpty || s.localWaits) then
    (s.testTx .uplink).sendNext
  else s

/-- R182: the oldest completion waiting outside enters the completion queue. -/
def enterCompletion (s : State) : State :=
  match s.trunk.waitingCompletions with
  | [] => s
  | c :: cs =>
    if s.trunk.completions.length < 8 then
      { s with trunk := { s.trunk with completions := s.trunk.completions ++ [c], waitingCompletions := cs } }
    else s

/-! ## Links (R170, R181, R184) -/

/-- R181: the frames dropped at a DOWNLINK loss, the one in transmission first. -/
def droppedFrames (s : State) (txCut : Bool) : List TrunkFrame :=
  (if txCut then s.trunk.downTx.toList else []) ++ s.trunk.downlink

/-- R181: a lost DOWNLINK drops its frames. No frame is in transmission afterwards: the one begun last was cut off, or, as
the operand says, had ended (log 6). -/
def loseDown (txCut : Bool) (s : State) : State :=
  (s.droppedFrames txCut).foldl (fun s f => s.noRoute f)
    (({ s with trunk := { s.trunk with downlink := [] } } : State).endTx .downlink)

/-- R170, R171, R181, R184: a link becomes DISCONNECTED; a frame being received is bad. At UPLINK the frame begun last was
cut off or had ended (R184, log 6): either way none is in transmission. -/
def disconnect (port : Port) (rxCut txCut : Bool) (s : State) : State :=
  if s.link port then
    let s1 := s.setLink port false
    let s2 := if rxCut then s1.badFrame port else s1
    match port with
    | .uplink => s2.endTx .uplink
    | .downlink => s2.loseDown txCut
  else s

/-- R170: RESTART empties the queues, loses what is in transmission, releases the holds and resets the arbiter's mark. R172
does not say what the partner asserts afterwards. DESIGN CHOICE (log 24), unsafe: its hold is kept as last seen. -/
def clearTrunk (s : State) : State :=
  { s with trunk := { s.trunk with
      classifier := [], downlink := [], passThrough := [], completions := [], waitingCompletions := [], notices := []
      upTx := none, downTx := none, lastServed := .local } }

end State

end Sys2Proof.Machine
end

