-- ==== Sys2Proof/Machine/Requests.lean ====
section
/-! DEFINITION. The Request Processor: how a request is taken, checked and answered (R178, R185 to R188), and the effects
of the requests other than LOAD and FETCH. -/

namespace Sys2Proof.Machine

/-- What executing a request answers. `pending` is SEGMENT TEST's, whose completion is built when its test ends (R189). -/
inductive Answer
  | done (result : List Byte)
  | refused (r : Reason) (detail : List Byte)
  | pending
  deriving DecidableEq, Repr

/-- R186: BAD_FIELD naming a payload field. -/
def badField (n : Nat) : Answer := .refused .badField (le 2 0 ++ [byte n])

/-- R186: BAD_FIELD naming a field of a record. -/
def badRecord (b : BadField) : Answer := .refused .badField (le 2 b.pos ++ [byte b.field])

/-- R187: the forms of destination that a request kind accepts. -/
def formOk (kind : Byte) (form : DestForm) : Bool :=
  match form with
  | .unit => kind != 0x05#8
  | .broadcast => !([0x05#8, 0x08#8, 0x09#8, 0x0C#8, 0x0D#8, 0x12#8].contains kind)
  | .room _ => !([0x0C#8, 0x0D#8, 0x0E#8, 0x0F#8, 0x12#8].contains kind)

/-- The effect of a request once its destination form is accepted. -/
abbrev Body := State → State × Answer

namespace State

/-- R188: the completion of an answer; the request is released. -/
def answer (kind : Byte) (q : Request) (a : Answer) (s : State) : State :=
  let s1 := { s with request := none }
  match a with
  | .done result => s1.buildCompletion ⟨q.tag, kind, .done, [], result⟩
  | .refused r detail => s1.buildCompletion (refusal kind q.tag r detail)
  | .pending => s1

/-- R178, R187: the tests made before a request is examined. -/
def preCheck (s : State) (kind : Byte) (form : DestForm) : Option Answer :=
  match s.mapConflict form with
  | some x => some (.refused .mapConflict ([byte x.1] ++ le 2 x.2))
  | none => if formOk kind form then none else some (badField 0)

/-- R185 to R188: a request in READY or READY_WITH_ERRORS. -/
def execute (kind : Byte) (q : Request) (body : Body) (s : State) : State :=
  match s.preCheck kind q.form with
  | some a => s.answer kind q a
  | none => (body s).1.answer kind q (body s).2

/-- R175: how a unit in BYPASS answers; it forwards a room-addressed frame and does not answer it. -/
def answerBypass (kind : Byte) (q : Request) (s : State) : State :=
  match q.form with
  | .room _ => s
  | .unit => s.buildCompletion (s.bypassRefusal kind q.tag)
  | .broadcast => s.buildCompletion (s.bypassRefusal kind q.tag)

/-- A row of the table that is a request: the request in progress, or a request handed over while none is (R185). -/
def runRequest (kind : Byte) (q : Request) (body : Body) (s : State) : State :=
  if s.request = none ∨ s.request = some ⟨kind, q⟩ then
    match s.status with
    | .starting => s.answer kind q (.refused .notReady [])
    | .bypass => s.answerBypass kind q
    | .ready | .readyWithErrors => s.execute kind q body
  else s

end State

/-- R186: a request whose payload has a fixed layout. R186 does not order the two tests of a payload that has both a field
out of range and a wrong length. DESIGN CHOICE (log 18), unsafe: the whole payload is read first, so that the missing field
or the bytes left over are named. -/
def withFields (l : Layout) (q : Request) (k : Fields → Body) : Body := fun s =>
  match readPayload l q.payload with
  | .error n => (s, badField n)
  | .ok f => k f s

/-! ## UNKNOWN_REQUEST (R186) -/

def unknownBody : Body := fun s => (s, .refused .unknownRequest [])

/-- R186: a kind outside the list; the map test comes first, no destination form is stated for it. -/
def State.runUnknown (kind : Byte) (q : Request) (s : State) : State :=
  if 1 ≤ kind.toNat ∧ kind.toNat ≤ 0x12 then s
  else s.runRequest kind q unknownBody

/-! ## ENROL and WITHDRAW (R6 to R12) -/

/-- ROOM for a GUEST credential, UNIT otherwise (7.1.1). -/
def State.writeCred (i : Nat) (c : Cred) (s : State) : State :=
  ((s.setCred i c).logCard .enrolled (credSpot c) c.card (le 2 i ++ [byte (credKindCode c.kind)])).handCredential i

/-- R7: the two room checks of a GUEST record. -/
def State.roomChecks (s : State) (c : Cred) : Option Reason :=
  match c.kind, c.guest with
  | .guest, some g =>
    if (match s.accepted g.room with
        | some a => decide (g.generation < a)
        | none => false) then some .staleGeneration
    else if s.covered g.room && !s.stays.any (fun e => e.2.isOpen && e.2.room == g.room && e.2.number == g.stay) then
      some .noStay
    else none
  | _, _ => none

/-- R10: the place of a credential whose card no non-EMPTY entry bears. -/
def State.freeCred (s : State) : Option Nat :=
  match Tab.lowestFree s.creds 4096 with
  | some i => some i
  | none => (s.creds.find? (fun e => e.2.state != .active && !s.referenced e.1)).map (fun e => e.1)

/-- R8 to R10: placement; the index, or the refusal, with the state after a REPLACE's revocation. -/
def State.placeCred (s : State) (card : Nat) (replace : Bool) : State × Except Reason Nat :=
  match s.findCard card with
  | some (i, old) =>
    if old.state = .active then
      if replace then
        let s1 := s.revoke i .replace
        if s1.referenced i then (s1, .error .revoking) else (s1, .ok i)
      else (s, .error .duplicate)
    else if s.referenced i then (s, .error .revoking)
    else (s, .ok i)
  | none =>
    match s.freeCred with
    | some i => (s, .ok i)
    | none => (s, .error .tableFull)

/-- R6 stages 2 to 4. -/
def enrolStages (c : CredIn) (replace : Bool) : Body := fun s =>
  match s.roomChecks c.cred with
  | some r => (s, .refused r [])
  | none =>
    match s.placeCred c.cred.card replace with
    | (s1, .error r) => (s1, .refused r [])
    | (s1, .ok i) => (s1.writeCred i c.cred, .done (le 2 i ++ flag c.dropped))

/-- R6: ENROL, with or without REPLACE as its row says. -/
def enrolBody (q : Request) (replace : Bool) : Body := fun s =>
  match readEnrol q.payload with
  | .error n => (s, badField n)
  | .ok f =>
    match checkEnrol f with
    | .error n => (s, badField n)
    | .ok (_, c) => enrolStages c replace s

/-- R12: WITHDRAW. -/
def withdrawBody (q : Request) : Body := withFields [(1, 4)] q fun f s =>
  match s.findCard (f.val 1) with
  | none => (s, .refused .notFound [])
  | some (i, c) =>
    if c.state = .active then (s.revoke i .withdraw, .done (le 2 i))
    else (s, .done [byte (credStateCode c.state)])

/-! ## Stays (R126 to R131) -/

/-- R127: the CLOSED entry with the earliest closed minute, the lowest index among equals. -/
def earliestClosed : List (Nat × Stay) → Option (Nat × Nat)
  | [] => none
  | (i, x) :: t =>
    if x.isOpen then earliestClosed t
    else
      let m := x.closed.getD 0
      match earliestClosed t with
      | none => some (i, m)
      | some (j, n) => if n < m then some (j, n) else some (i, m)

/-- R127: the entry that a STAY OPEN takes. -/
def State.freeStay (s : State) : Option Nat :=
  match Tab.lowestFree s.stays 256 with
  | some i => some i
  | none => (earliestClosed s.stays).map (fun e => e.1)

/-- R127, R193: an OPEN stay is written, with its room's entry and field, and journalled. -/
def State.writeStay (i : Nat) (x : StayIn) (s : State) : State :=
  let s1 := s.setStay i ⟨x.number, x.room, true, x.opened, none, x.planned, x.cap, 0, false⟩
  ((s1.ensureRoom x.room).setOpenStay x.room (some x.number)).log .stayOpened (.room x.room)
    (le 2 x.number ++ le 3 x.planned ++ le 3 x.cap)

/-- R126: whether a room's entry names an OPEN stay. -/
def State.roomOccupied (s : State) (r : Nat) : Bool :=
  match s.findRoom r with
  | none => false
  | some e => e.2.openStay.isSome

/-- R126: the checks of STAY OPEN after its fields. -/
def State.stayChecks (s : State) (r n : Nat) : Option Reason :=
  if s.roomOccupied r then some .roomOccupied
  else if (s.findStay n).isSome then some .duplicate
  else if (s.findRoom r).isNone && (Tab.lowestFree s.rooms 96).isNone then some .tableFull
  else if s.freeStay.isNone then some .tableFull
  else none

/-- R126, R127: STAY OPEN for a room. -/
def stayOpenFor (r : Nat) (q : Request) : Body := withFields [(1, 2), (2, 3), (3, 3)] q fun f s =>
  if f.val 1 = 0 then (s, badField 1)
  else match s.stayChecks r (f.val 1) with
    | some reason => (s, .refused reason [])
    | none =>
      match s.freeStay with
      | none => (s, .refused .tableFull [])
      | some i => (s.writeStay i ⟨f.val 1, r, s.clock.m, f.val 2, f.val 3⟩, .done (le 2 i))

def stayOpenBody (q : Request) : Body := fun s =>
  match q.form with
  | .room r => stayOpenFor r q s
  | .unit => (s, badField 0)
  | .broadcast => (s, badField 0)

/-- The ACTIVE GUEST entries that carry a stay number, in ascending index. -/
def State.guestsOf (s : State) (n : Nat) : List Nat :=
  (s.creds.filter (fun e => e.2.state == .active && e.2.kind == .guest && match e.2.guest with
    | some g => g.stay == n
    | none => false)).map (fun e => e.1)

/-- R16: B becomes the new end, or A where the end lies below it. -/
def extendCred (c : Cred) (e : Nat) : Cred :=
  { c with validity := c.validity.map (fun v => (v.1, max e v.1)) }

/-- R16: one credential of an extended stay. -/
def State.extendAt (e : Nat) (s : State) (i : Nat) : State :=
  match s.cred i with
  | none => s
  | some c => if extendCred c e = c then s else s.setCred i (extendCred c e)

/-- R16, R128: how many credentials' B changes. -/
def State.extendCount (s : State) (n e : Nat) : Nat :=
  ((s.guestsOf n).filter (fun i => match s.cred i with
    | some c => decide (extendCred c e ≠ c)
    | none => false)).length

/-- R128 part 3: the stay entry. -/
def State.extendStay (n e : Nat) (s : State) : State × Bool :=
  match s.findStay n with
  | some (i, x) =>
    if x.isOpen then
      ((s.setStay i { x with planned := e }).log .stayExtended (.room x.room) (le 2 n ++ le 3 x.planned ++ le 3 e), true)
    else (s, false)
  | none => (s, false)

/-- R128: STAY EXTEND. -/
def stayExtendBody (q : Request) : Body := withFields [(1, 2), (2, 3)] q fun f s =>
  let n := f.val 1
  let e := f.val 2
  if n = 0 then (s, badField 1)
  else if (match s.findStay n with
      | some x => !x.2.isOpen
      | none => false) then (s, .refused .notFound [])
  else
    let s1 := (s.guestsOf n).foldl (State.extendAt e) s
    let r := s1.extendStay n e
    (r.1, .done (le 2 (s.extendCount n e) ++ flag r.2))

/-- R130: an OPEN stay is closed; the answer is the number of charges committed. -/
def State.closeStay (i : Nat) (n : Nat) (s : State) : State × Nat × Stay :=
  let mine (c : Charge) : Bool := c.stay == n
  let count := (s.pendingCharges.filter mine).length
  let s1 := s.commitWhere mine true
  match Tab.look s1.stays i with
  | none => (s1, count, ⟨n, 0, false, 0, none, 0, 0, 0, false⟩)
  | some x =>
    let y : Stay := { x with isOpen := false, closed := some s1.clock.m }
    let s2 := (s1.setStay i y).setOpenStay y.room none
    ((s2.removeRoom y.room).log .stayClosed (.room y.room) (le 2 n ++ le 3 y.total ++ flag y.saturated ++ le 2 count),
      count, y)

/-- R129, R130: STAY CLOSE after its checks. -/
def stayCloseHeld (n : Nat) : Body := fun s =>
  let cards := s.guestsOf n
  let s1 := s.revokeAll cards .checkout
  match s1.findStay n with
  | none => (s1, .done (le 2 cards.length))
  | some (i, x) =>
    if x.isOpen then
      let r := s1.closeStay i n
      (r.1, .done (le 2 cards.length ++ le 2 r.2.1 ++ le 3 r.2.2.total ++ flag r.2.2.saturated))
    else (s1, .done (le 2 cards.length ++ [1#8] ++ le 3 x.total ++ flag x.saturated))

/-- R129: STAY CLOSE. -/
def stayCloseBody (q : Request) : Body := withFields [(1, 2), (2, 2)] q fun f s =>
  if f.val 1 = 0 then (s, badField 1)
  else if f.val 2 = 0 then (s, badField 2)
  else if (match s.findStay (f.val 1) with
      | some x => x.2.room != f.val 2
      | none => false) then (s, badField 2)
  else stayCloseHeld (f.val 1) s

/-- R131: STAY PURGE. -/
def stayPurgeBody (q : Request) : Body := withFields [(1, 2)] q fun f s =>
  if f.val 1 = 0 then (s, badField 1)
  else match s.findStay (f.val 1) with
    | none => (s, .refused .notFound [])
    | some (i, x) => if x.isOpen then (s, .refused .busy []) else (s.clearStay i, .done [])

/-! ## DOOR OPEN (R61) -/

/-- R61: the door of a DOOR OPEN that names a place. R61 lists its refusals in a table without ordering them. DESIGN CHOICE (log
64), unsafe: where several hold, the first listed gives the reason. -/
def doorOpenAt (p : Nat) : Body := fun s =>
  let pl := s.place p
  if !pl.door.isLocked then (s, .refused .notFound [])
  else if pl.presence = .absent then (s, .refused .outOfService [])
  else if 4 ≤ pl.class1 then (s, .refused .busy [])
  else (s.modPlace p (Place.offer (.remoteUnlock pl.door.unlockSeconds)), .done [])

/-- R61: the room door of a room. -/
def State.roomDoor (s : State) (r : Nat) : Option Nat :=
  match s.findRoom r with
  | none => none
  | some e => e.2.door

def doorOpenUnit (q : Request) : Body := withFields [(1, 1), (2, 1)] q fun f s =>
  if 3 < f.val 1 then (s, badField 1)
  else if f.val 2 = 0 ∨ 32 < f.val 2 then (s, badField 2)
  else doorOpenAt (placeOf (f.val 1) (f.val 2)) s

def doorOpenRoom (r : Nat) (q : Request) : Body := withFields [] q fun _ s =>
  match s.roomDoor r with
  | none => (s, .refused .notFound [])
  | some p => doorOpenAt p s

def doorOpenBody (q : Request) : Body := fun s =>
  match q.form with
  | .room r => doorOpenRoom r q s
  | .unit => doorOpenUnit q s
  | .broadcast => (s, badField 0)

/-! ## ZONE SET (R36 to R39) -/

namespace State

/-- A change of a mark and the offers that follow: a freed place is offered (R104), else the owed command (R39). -/
def changeMark (f : Place → Place) (p : Nat) (s : State) : State :=
  let before := (s.place p).queueLen
  let s1 := s.modPlace p f
  if (s1.place p).queueLen < before then s1.reoffer p else s1.modPlace p Place.offerZone

/-- The ROOM_DOOR and COMMON_DOOR places of a zone, in ascending segment and drop. -/
def doorsOfZone (s : State) (z : Nat) : List Nat :=
  s.placeKeys.filter (fun p => (s.place p).door.isLocked && (s.place p).door.zone? == some z)

/-- R36: a zone takes a state; R37, R38: the commands owed to its doors. -/
def changeZone (z : Nat) (x : ZoneState) (s : State) : State :=
  let old := s.zone z
  if old = x then s
  else
    let s1 := s.setZone z x
    if x = .released then (s1.doorsOfZone z).foldl (fun s p => s.changeMark Place.markReleased p) s1
    else if old = .released then (s1.doorsOfZone z).foldl (fun s p => s.changeMark Place.markLeft p) s1
    else s1

end State

/-- R36: ZONE SET. -/
def zoneSetBody (q : Request) : Body := withFields [(1, 1), (2, 1)] q fun f s =>
  if 15 < f.val 1 then (s, badField 1)
  else match zoneOf (f.val 2) with
    | none => (s, badField 2)
    | some x =>
      if s.zone (f.val 1) = x then (s, .done [])
      else (s.changeZone (f.val 1) x, .done [byte (zoneCode (s.zone (f.val 1)))])

/-! ## CLOCK SET (R29, R30) -/

namespace State

/-- R29: the clock takes M and W; the set point follows (R154). -/
def loadClock (m w : Nat) (s : State) : State :=
  { s with
    clock := ⟨m, w, 0, .running⟩
    journal := { s.journal with setPoint := some (m * 60) } }

/-- R30: every OPEN record keeps the minutes it had left. -/
def moveDeadlines (old new : Nat) (s : State) : State :=
  { s with revocations := s.revocations.map (fun e => (e.1, moveDeadline old new e.2)) }

/-- R27, R29: fault CLOCK_END while M stands at its top. -/
def clockEnd (s : State) : State := if s.clock.m = top24 then s.giveFault .clockEnd [0#8, 0#8, 0#8] else s

/-- R29, R30, R15: CLOCK SET up to the expiry rule. -/
def setClock (m w : Nat) (s : State) : State :=
  let s1 := (s.loadClock m w).log .clockSet .unit ([byte (clockCode s.clock.state)] ++ le 3 s.clock.m)
  (s1.moveDeadlines s.clock.m m).deadlineTest

end State

/-- R29: CLOCK SET. -/
def clockSetBody (q : Request) : Body := withFields [(1, 3), (2, 2)] q fun f s =>
  if 10079 < f.val 2 then (s, badField 2)
  else
    let s1 := s.setClock (f.val 1) (f.val 2)
    (s1.applyExpiry.clockEnd,
      .done (le 3 s.clock.m ++ le 2 s.clock.w ++ [byte (clockCode s.clock.state)] ++ le 2 s1.expiring.length))

/-! ## Journal requests (R162, R163) -/

def releaseBody (q : Request) : Body := withFields [(1, 5)] q fun f s =>
  let s1 := s.releaseTo (f.val 1)
  (s1, .done (releaseResult (f.val 1) (s.journal.freedBy (f.val 1)) s.journal s1.journal))

def rewindBody (q : Request) : Body := withFields [(1, 5)] q fun f s =>
  let s1 := s.rewindTo (f.val 1)
  (s1, .done (le 6 s1.journal.cursor ++ le 6 s1.journal.next))

/-! ## Segment requests (R98, R99) -/

/-- R98: SEGMENT TEST. -/
def segmentTestBody (q : Request) : Body := withFields [(1, 1)] q fun f s =>
  let g := f.val 1
  if 3 < g then (s, badField 1)
  else match (s.seg g).line with
    | .testing => (s, .refused .busy [])
    | .outOfService => (s, .refused .outOfService [])
    | .inService | .degraded | .failed | .testPlug | .down =>
      ((s.enterTesting g).modSeg g (fun x => { x with pendingTest := some (q.tag, q.source) }), .pending)

/-- R99: SEGMENT SERVICE out. Where the segment is already OUT_OF_SERVICE R99 does not say whether the DONE carries a state
left. DESIGN CHOICE (log 19), unsafe: it carries no result field. -/
def serviceOut (g : Nat) : Body := fun s =>
  let left := (s.seg g).line
  if left = .outOfService then (s, .done [])
  else ((s.enterOut g).answerTest g (.refused .outOfService) [], .done [byte (lineCode left)])

/-- R99: SEGMENT SERVICE in. -/
def serviceIn (g : Nat) : Body := fun s =>
  if (s.seg g).line = .outOfService then (s.enterTesting g, .done []) else (s, .done [])

/-- R99: the fields of SEGMENT SERVICE, then the row's direction. -/
def serviceBody (q : Request) (k : Nat → Body) : Body := withFields [(1, 1), (2, 1)] q fun f s =>
  if 3 < f.val 1 then (s, badField 1)
  else if 1 < f.val 2 then (s, badField 2)
  else k (f.val 1) s

/-! ## STATUS (R196, 11.4) -/

/-- A number with one digit of `base` per place of a list, the first lowest. 11.4 gives each drop its bits in STATUS and not
their order. DESIGN CHOICE (log 60), unsafe: drop 1 has the lowest. -/
def packed (base : Nat) : List Nat → Nat
  | [] => 0
  | n :: ns => n + base * packed base ns

namespace State

/-- R196, 11.4: the unit's group of STATUS. R196 carries the start-up record when READY_WITH_ERRORS; for READY 11.4 codes the
detail as 0 and gives the failing stage and the count no value. DESIGN CHOICE (log 60), unsafe: both are 0. -/
def statusUnit (s : State) : List Byte :=
  [byte s.trunk.unitNumber, if s.status = .readyWithErrors then 1#8 else 0#8] ++
    match s.startRecord with
    | none => [0#8, 0#8, 0#8]
    | some r => [byte r.stage, byte (noteCode r.code), byte r.count]

def statusClock (s : State) : List Byte :=
  le 3 s.clock.m ++ le 2 s.clock.w ++ [byte s.clock.s, byte (clockCode s.clock.state)]

def statusJournal (s : State) : List Byte :=
  let j := s.journal
  le 2 j.held ++ le 6 j.release ++ le 6 j.cursor ++ le 6 j.next ++ le 6 j.limit
    ++ [byte (bit j.pendingLimit.isSome 0 + bit j.full 1 + 4 * numberingCode j.numbering)] ++ le 2 j.gap

def statusTrunk (s : State) : List Byte :=
  let t := s.trunk
  [byte (bit t.upLink 0 + bit t.downLink 1)] ++ le 2 t.upErrors ++ le 2 t.downErrors ++ le 2 t.upOverruns
    ++ le 2 t.downOverruns ++ [byte t.classifier.length, byte t.downlink.length, byte t.passThrough.length,
      byte t.completions.length, byte t.notices.length]

def statusSegment (s : State) (g : Nat) : List Byte :=
  let x := s.seg g
  let drops := (List.range 32).map (fun i => s.place (g * 32 + i))
  [byte (lineCode x.line + bit x.pendingTest.isSome 7)]
    ++ le 8 (packed 4 (drops.map (fun d => presenceCode d.presence)))
    ++ le 4 (packed 2 (drops.map (fun d => bit d.suspect 0)))

def statusTables (s : State) : List Byte :=
  let n (st : CredState) : Nat := Tab.tally s.creds (fun c => c.state == st)
  le 2 (4096 - s.creds.length) ++ le 2 (n .active) ++ le 2 (n .revoked) ++ le 2 (n .superseded) ++ le 2 (n .expired)
    ++ [byte s.rooms.length] ++ le 2 (Tab.tally s.stays (fun x => x.isOpen))
    ++ le 2 (Tab.tally s.stays (fun x => !x.isOpen)) ++ [byte s.pendingCharges.length]

/-- R196, R201, 11.4: one kind's five bytes of STATUS. The first detail is absent while CLEAR, and 11.4 gives its bytes no value
then. DESIGN CHOICE (log 60), unsafe: they are 0. -/
def statusFault (s : State) (k : FaultKind) : List Byte :=
  let r := s.fault k
  [byte (bit r.set 0 + bit r.masked 1 + 4 * severityCode (s.severity k)), byte r.occurrences]
    ++ padTo 3 (r.detail.getD [])

/-- R196, 11.4: the 230 bytes of STATUS. -/
def statusBytes (s : State) : List Byte :=
  s.statusUnit ++ s.statusClock ++ s.statusJournal ++ s.statusTrunk ++ (List.range 4).flatMap s.statusSegment
    ++ [byte s.revocations.length] ++ s.statusTables ++ faultKinds.flatMap s.statusFault ++ [byte s.dirty.length]

end State

def statusBody (q : Request) : Body := withFields [] q fun _ s => (s, .done s.statusBytes)

/-! ## FAULT CLEAR (R203) -/

def faultClearBody (q : Request) : Body := fun s =>
  match readFaultArgs q.payload with
  | .error n => (s, badField n)
  | .ok f =>
    match checkFaultArgs f with
    | .error n => (s, badField n)
    | .ok a => (clearFaults a.clear a.mask a.changes s, .done (le 4 s.faultSet))

/-! ## RESTART (R197, R198) -/

/-- R83: the per-drop values after RESTART that entering ABSENT does not give. -/
def Place.restart (pl : Place) : Place := { pl with nextBit := false }

/-- R90, R108: the segment values after RESTART. -/
def Segment.restart (x : Segment) : Segment :=
  { x with badCount := 0, cleanWindows := 0, termMisses := 0, retest := 0, pendingTest := none
           served := 0, index := 0, pass := .guest, terminal := true, waits := false, requests := [] }

namespace State

/-- R197 part 2 on one segment. -/
def restartSegment (s : State) (g : Nat) : State := s.enterTesting g

/-- R83, R90, R108, R197 part 3: the remaining values of segments and drops. -/
def restartMarks (s : State) : State :=
  let s1 := (List.range 4).foldl (fun s g => s.modSeg g Segment.restart) s
  s1.placeKeys.foldl (fun s p => s.modPlace p Place.restart) s1

/-- R197: parts 1 to 3. Part 2 orders the drops and not the SEGMENT_STATE records among them. DESIGN CHOICE (log 56),
unsafe: one segment's SEGMENT_STATE record and its drops' records stand before the next segment's. -/
def restart (s : State) : State := ((List.range 4).foldl restartSegment s.clearTrunk).restartMarks

end State

def restartBody (q : Request) : Body := withFields [] q fun _ s => (s.restart, .done [])

end Sys2Proof.Machine
end

