-- ==== Sys2Proof/Machine/Loads.lean ====
section
/-! DEFINITION. LOAD and FETCH: the common mechanics (R190 to R192) and what a written entry does (R17, R19, R20, R31, R36,
R41, R42, R65, R88, R123, R132 to R134, R177, R193 to R195). -/

namespace Sys2Proof.Machine

/-- The entries of a LOAD, each with its index. -/
abbrev Entries (α : Type) := List (Nat × α)

/-- R191: the result fields common to every LOAD: table id, first index, number written. -/
def loadResult {α : Type} (t : TableId) (es : Entries α) : List Byte :=
  [byte t.code] ++ le 2 ((es.head?.map (fun e => e.1)).getD 0) ++ le 2 es.length

/-- R191: a LOAD: the checks of steps 1 to 3, then `k` with the table checks and the writing. -/
def loadBody {α : Type} (t : TableId) (r : Reader) (check : State → Nat → Fields → Except Nat α) (q : Request)
    (k : Entries α → Body) : Body := fun s =>
  match readLoad t r (check s) q.payload with
  | .error b => (s, badRecord b)
  | .ok es => k es s

/-- R191: every entry written in ascending index, answered with the common result. -/
def writeAll {α : Type} (t : TableId) (write : State → Nat × α → State) (extra : List Byte) (es : Entries α) : Body :=
  fun s => (es.foldl write s, .done (loadResult t es ++ extra))

/-! ## Simple tables -/

/-- R177: LOAD WINDOWS; the completion reports the count stored for each window. -/
def loadWindowsBody (q : Request) : Body :=
  loadBody .windows readWindow (fun _ _ f => checkWindow f) q fun es =>
    writeAll .windows (fun s e => s.setWindow e.1 e.2) (es.flatMap (fun e => le 2 e.2.count)) es

/-- R31: LOAD SCHEDULES. -/
def loadSchedulesBody (q : Request) : Body :=
  loadBody .schedules readSchedule (fun _ _ f => checkSchedule f) q fun es =>
    writeAll .schedules (fun s e => s.setSchedule e.1 e.2) [] es

/-- R36: one zone of a LOAD ZONES is handled as a ZONE SET; the entry is written in either case (R191). -/
def State.loadZone (s : State) (e : Nat × ZoneState) : State := (s.changeZone e.1 e.2).markDirty 3

def loadZonesBody (q : Request) : Body :=
  loadBody .zones readZone (fun _ _ f => checkZone f) q fun es => writeAll .zones State.loadZone [] es

/-- R132: LOAD PRICES. -/
def loadPricesBody (q : Request) : Body :=
  loadBody .prices readPrice (fun _ _ f => checkPrice f) q fun es =>
    writeAll .prices (fun s e => s.setPrice e.1 e.2) [] es

/-- R194: LOAD POLICY. -/
def State.setPolicy (s : State) (p : Policy) : State := { s with policy := p }.markDirty 2

def loadPolicyBody (q : Request) : Body :=
  loadBody .policy readPolicy (fun _ _ f => checkPolicy f) q fun es =>
    writeAll .policy (fun s e => s.setPolicy e.2) [] es

/-! ## COMPARTMENTS (R133) -/

/-- R133: a record for a place that is not MINIBAR names the place. -/
def checkCompsAt (s : State) (p : Nat) (f : Fields) : Except Nat (List Compartment) :=
  if (s.place p).door.isMinibar then checkComps f else .error 1

/-- R133: the twelve compartments of a place. -/
def State.setComps (s : State) (e : Nat × List Compartment) : State :=
  (s.modPlace e.1 (fun pl => { pl with comps := e.2 })).markDirty (doorBlock e.1)

/-- R133: a PENDING compartment at a place. -/
def State.anyPending (s : State) (p : Nat) : Bool := (s.place p).comps.any (fun c => c.state == .pending)

def loadCompartmentsBody (q : Request) : Body :=
  loadBody .compartments readComps checkCompsAt q fun es s =>
    if es.any (fun e => s.anyPending e.1) then (s, .refused .busy []) else writeAll .compartments State.setComps [] es s

/-! ## CREDENTIALS (R17) -/

/-- The ACTIVE records of a LOAD CREDENTIALS. -/
def activeOf (es : Entries (Option CredIn)) : List Cred := es.filterMap (fun e => e.2.map (fun c => c.cred))

/-- Whether a list holds some value twice. -/
def twice : List Nat → Bool
  | [] => false
  | n :: ns => ns.contains n || twice ns

/-- R17 check 5. -/
def State.duplicateCards (s : State) (es : Entries (Option CredIn)) : Bool :=
  let cards := (activeOf es).map (fun c => c.card)
  twice cards || s.creds.any (fun e => cards.contains e.2.card && !es.any (fun x => x.1 == e.1))

/-- R17: checks 2 to 5. Check 2 makes R7 on every record and names two reasons. DESIGN CHOICE (log 53), unsafe: it is made
record by record, and the first record that fails gives its reason. -/
def State.credChecks (s : State) (es : Entries (Option CredIn)) : Option Reason :=
  match (activeOf es).findSome? s.roomChecks with
  | some r => some r
  | none =>
    if es.any (fun e => match s.cred e.1 with
      | some c => c.state == .active
      | none => false) then some .busy
    else if es.any (fun e => s.referenced e.1) then some .revoking
    else if s.duplicateCards es then some .duplicate
    else none

/-- R17: one entry is written. -/
def State.loadCred (s : State) (e : Nat × Option CredIn) : State :=
  match e.2 with
  | none => s.emptyCred e.1
  | some c => s.writeCred e.1 c.cred

/-- R2: whether the LOAD dropped a privilege. -/
def anyDropped (es : Entries (Option CredIn)) : Bool :=
  es.any (fun e => match e.2 with
    | some c => c.dropped
    | none => false)

def loadCredentialsBody (q : Request) : Body :=
  loadBody .credentials readCred (fun _ _ f => checkCredLoad f) q fun es s =>
    match s.credChecks es with
    | some r => (s, .refused r [])
    | none => writeAll .credentials State.loadCred (flag (anyDropped es)) es s

/-! ## STAYS (R193) -/

/-- The OPEN records of a LOAD STAYS. -/
def opensOf (es : Entries (Option StayIn)) : List StayIn := es.filterMap (fun e => e.2)

/-- The numbers of a list without repeats. -/
def distinct : List Nat → List Nat
  | [] => []
  | n :: ns => if ns.contains n then distinct ns else n :: distinct ns

/-- R193 check 4: how many rooms lack an entry. -/
def State.roomsLacking (s : State) (rooms : List Nat) : Nat :=
  ((distinct rooms).filter (fun r => (s.findRoom r).isNone)).length

/-- R193: the table checks. -/
def State.loadStayChecks (s : State) (es : Entries (Option StayIn)) : Option Reason :=
  let xs := opensOf es
  if es.any (fun e => match Tab.look s.stays e.1 with
    | some x => x.isOpen
    | none => false) then some .busy
  else if twice (xs.map (fun x => x.number))
      || s.stays.any (fun e => xs.any (fun x => x.number == e.2.number) && !es.any (fun y => y.1 == e.1)) then
    some .duplicate
  else if twice (xs.map (fun x => x.room)) || xs.any (fun x => s.roomOccupied x.room) then some .roomOccupied
  else if 96 - s.rooms.length < s.roomsLacking (xs.map (fun x => x.room)) then some .tableFull
  else none

/-- R193: one entry is written. -/
def State.loadStay (s : State) (e : Nat × Option StayIn) : State :=
  match e.2 with
  | none => s.clearStay e.1
  | some x => s.writeStay e.1 x

def loadStaysBody (q : Request) : Body :=
  loadBody .stays readStayLoad (fun _ _ f => checkStay f) q fun es s =>
    match s.loadStayChecks es with
    | some r => (s, .refused r [])
    | none => writeAll .stays State.loadStay [] es s

/-! ## ROOMS (R193) -/

/-- R193: LOAD ROOMS names the table id. -/
def loadRoomsBody : Body := fun s => (s, badField 1)

/-! ## DOORS (R19, R20, R41, R65, R88, R123, R134) -/

/-- R41, R65: whether a LOAD changes a record's kind or room. -/
def kindOrRoomChanged (old new : DoorRec) : Bool := old.kindCode != new.kindCode || old.room? != new.room?

/-- R133, R134: the compartments of a place after its record has changed. -/
def compsAfter (old new : DoorRec) (comps : List Compartment) : List Compartment :=
  if !new.isMinibar then []
  else if old.isMinibar then comps
  else List.replicate 12 ⟨0, .empty, 0⟩

/-- R65, R122: the runtime state of a place whose kind or room has changed. R65 keeps the counts for other new kinds and
says nothing of them for UNUSED. DESIGN CHOICE (log 47), unsafe: unlock seconds and open seconds are kept there too. What it
keeps for other new kinds does not name the candidate condition. DESIGN CHOICE (log 58), unsafe: it is kept with them. -/
def runtimeAfter (old new : DoorRec) (pl : Place) : Place :=
  let q := { pl with
    comps := compsAfter old new pl.comps
    suspect := pl.suspect && new.isLocked }
  if new.isUnused then { q with doorState := .unknown, accepted := none, candidate := none, holding := false }
  else if new.isMinibar && !old.isMinibar then
    { q with holding := false, doorState := if q.doorState = .released then .secure else q.doorState }
  else q

def isZoneCmd (c : LineCmd) : Bool := c == .holdOpen || c == .secure

/-- R41: the mark after a change of kind or room; `oldReleased` and `newReleased` say whether the zones are RELEASED. -/
def markAfter (new : DoorRec) (oldReleased newReleased : Bool) : ZoneMark :=
  if new.isLocked && newReleased then .holdOwed
  else if new.isLocked && oldReleased then .secureOwed
  else .none

/-- R88: a drop returned to JOINING. -/
def Place.rejoin (pl : Place) : Place :=
  { pl with presence := .joining, waiting := [], joinStep := .identify, joinOwed := [], reportedKind := none
            reportedSerial := none }.offer .identify

namespace State

/-- R88: the drop at a place returns to JOINING. -/
def returnToJoining (p : Nat) (s : State) : State :=
  let lost := (s.place p).waiting
  let s1 := lost.foldl (loseCmd p) s
  (s1.modPlace p Place.rejoin).leaveCache p

/-- R65, R134: pending charges, lid and outstanding presentation of a place whose kind or room changes. The rules do not
order the records. DESIGN CHOICE (log 41), unsafe: those of the commits, then RESTOCK, then the abandoned presentation's.
-/
def leaveOld (p : Nat) (old : DoorRec) (s : State) : State :=
  let s1 := if old.isMinibar then (s.commitWhere (fun c => c.place == p) true).endLid p else s
  s1.abandon p

/-- R41, R65, R88: the effects of a changed kind or room. -/
def doorReplaced (p : Nat) (old : DoorRec) (s : State) : State :=
  let s1 := s.leaveOld p old
  let new := (s1.place p).door
  let mark := markAfter new (s.zoneOfDoor old == .released) (s.zoneOfDoor new == .released)
  let s2 := s1.modPlace p (fun pl => runtimeAfter old new { pl.withdraw isZoneCmd with mark := mark })
  if (s2.place p).presence = .absent then s2 else s2.returnToJoining p

/-- R41, R123: the effects of a changed zone alone. -/
def doorRezoned (p : Nat) (old new : DoorRec) (s : State) : State :=
  let was := s.zoneOfDoor old == .released
  let is := s.zoneOfDoor new == .released
  let s1 :=
    if is && !was then s.changeMark Place.markReleased p
    else if was && !is then s.changeMark Place.markLeft p
    else s
  s1.markSuspect p

/-- R65: the effects of one written record; `old` is the record it replaced. -/
def doorEffects (s : State) (e : Nat × DoorRec) : State :=
  let p := e.1
  let old := e.2
  let new := (s.place p).door
  if kindOrRoomChanged old new then s.doorReplaced p old
  else
    let s1 := if new.isLocked && old.zone? != new.zone? then s.doorRezoned p old new else s
    s1.recheck p

/-- R42: the record is written. -/
def writeDoor (s : State) (e : Nat × DoorRec) : State :=
  (s.modPlace e.1 (fun pl => { pl with door := e.2 })).markDirty (doorBlock e.1)

/-- The door record of a place after a LOAD. -/
def doorAfter (s : State) (es : Entries DoorRec) (p : Nat) : DoorRec := (Tab.look es p).getD (s.place p).door

/-- R20: whether a record names a room after a LOAD. -/
def namedAfter (s : State) (es : Entries DoorRec) (r : Nat) : Bool :=
  (List.range 128).any (fun p => (s.doorAfter es p).room? == some r)

/-- R20: the rooms that a LOAD takes out of a door record. -/
def roomsTaken (s : State) (es : Entries DoorRec) : List Nat :=
  distinct (es.filterMap (fun e =>
    if (s.place e.1).door.room? = e.2.room? then none else (s.place e.1).door.room?))

/-- R19: the rooms that the LOAD's records name and that have no entry. -/
def roomsNeeded (s : State) (es : Entries DoorRec) : List Nat :=
  (distinct (es.filterMap (fun e => e.2.room?)).reverse).reverse.filter (fun r => (s.findRoom r).isNone)

/-- R19, R20: the entries that will have been removed after the LOAD. -/
def roomsGone (s : State) (es : Entries DoorRec) : List Nat :=
  (s.roomsTaken es).filter (fun r => !s.namedAfter es r && match s.findRoom r with
    | some e => e.2.openStay.isNone
    | none => false)

/-- R19: the LOAD needs more room entries than there will be. -/
def doorsTooMany (s : State) (es : Entries DoorRec) : Bool :=
  decide (96 - s.rooms.length + (s.roomsGone es).length < (s.roomsNeeded es).length)

/-- R18 to R20, R42, R65: LOAD DOORS writes, hands on its effects, and settles the Room Table. R19 and R20 do not say
whether rooms are removed before new entries are created. DESIGN CHOICE (log 37), unsafe: they are, so that a new room may
take an index that the same LOAD frees. -/
def applyDoors (es : Entries DoorRec) (s : State) : State :=
  let old := es.map (fun e => (e.1, (s.place e.1).door))
  let s1 := old.foldl doorEffects (es.foldl writeDoor s)
  let s2 := (s.roomsTaken es).foldl removeRoom s1
  ((s.roomsNeeded es).foldl ensureRoom s2).recomputeRooms

end State

def loadDoorsBody (q : Request) : Body :=
  loadBody .doors readDoor (fun _ _ f => checkDoor f) q fun es s =>
    if s.doorsTooMany es then (s, .refused .tableFull []) else (s.applyDoors es, .done (loadResult .doors es))

/-! ## FETCH (R192) -/

/-- R192: a FETCH of one table. -/
def fetchBody (t : TableId) (q : Request) : Body := fun s =>
  match readFetch t q.payload with
  | .error b => (s, badRecord b)
  | .ok r => (s, .done (s.fetchResult t r.1 r.2))

end Sys2Proof.Machine
end

