-- ==== Sys2Proof/Machine/Store.lean ====
section
/-! DEFINITION. The Table Store Interface's writer and readings (R164 to R167, R204, R205, R207). -/

namespace Sys2Proof.Machine

/-- The erased state of a block: every byte FF (R167, R207). -/
def blankBlock : List Byte := List.replicate 3072 0xFF#8

/-- What the memory holds in a block; an unlisted block is erased. -/
def State.storeBlock (s : State) (b : Nat) : Option (List Byte) := Tab.look s.store b

/-- A block of the memory takes an image of 3,072 bytes. -/
def putBlock (st : Tab (List Byte)) (b : Nat) (img : List Byte) : Tab (List Byte) :=
  Tab.put blankBlock st b (padTo 3072 img)

/-- A reading of a block (R167, R207). -/
inductive Reading
  | blank
  | good (img : List Byte)
  | bad
  deriving DecidableEq, Repr

/-- R204: the checksum over the first 3,070 bytes stands in the last two. -/
def checksumOk (img : List Byte) : Bool := checksum (img.take 3070) == ofLe (img.drop 3070)

/-- R167, R207: one block is read. -/
def State.readBlock (s : State) (b : Nat) : Reading :=
  match s.storeBlock b with
  | none => .blank
  | some img => if img = blankBlock then .blank else if checksumOk img then .good img else .bad

/-- R164: a copy's value; where it is no multiple of 256 up to 2^40, a free multiple of 256 up to 2^40 (log 10). -/
def limitOf (img : List Byte) : Nat :=
  let n := ofLe (img.take 6)
  if n % 256 = 0 ∧ n ≤ seqEnd then n else 256 * (Config.restoredLimit img % (seqEnd / 256 + 1))

/-- R167: the value of a reservation copy, absent where the copy is bad. -/
def copyValue : Reading → Option Nat
  | .blank => some 0
  | .good img => some (limitOf img)
  | .bad => none

namespace State

/-- R205: the idle writer takes the dirty reservation copy, else the lowest dirty block, and copies it. -/
def startWrite (s : State) : State :=
  match s.writer, s.dirty with
  | .idle, b :: _ => { s with writer := .writing b (s.blockBytes b) false }
  | _, _ => s

/-- R165: an acknowledged reservation write raises L; the reservation test and the gap record follow. -/
def reserved (b : Nat) (s : State) : State :=
  match s.journal.pendingLimit with
  | none => s
  | some n =>
    let j := s.journal
    ({ s with journal := { j with
        limit := n
        pendingLimit := none
        copyA := if b = 0 then some n else j.copyA
        copyB := if b = 0 then j.copyB else some n } }.reserve).storeGap

/-- The end of the first attempt of the start-up reservation write (R167). -/
def endAttempt (b : Nat) (x : Attempt) (s : State) : State :=
  if b < 2 ∧ s.firstAttempt = .awaited then { s with firstAttempt := x } else s

/-- R205: an acknowledged write. -/
def writeDone (b : Nat) (changed : Bool) (s : State) : State :=
  let s1 := { s with writer := .idle, dirty := if changed then s.dirty else s.dirty.filter (fun x => x != b) }
  let s2 := s1.endAttempt b .acknowledged
  if b < 2 then s2.reserved b else s2

/-- R205: a write that is not acknowledged. -/
def writeFailed (b : Nat) (s : State) : State :=
  ({ s with writer := .waiting }.endAttempt b .failed).giveFault .storeWriteFail (padTo 3 [byte b])

/-- R205: a block write ends; `landed` is what the block then holds where that is not the copy. -/
def completeWrite (reported : Bool) (landed : Option (List Byte)) (s : State) : State :=
  match s.writer with
  | .idle => s
  | .waiting => s
  | .writing b copy changed =>
    let now := landed.getD copy
    let s1 := { s with store := putBlock s.store b now }
    if reported && now == copy then s1.writeDone b changed else s1.writeFailed b

end State

end Sys2Proof.Machine
end

