-- ==== Sys2Proof/Machine/StartUp.lean ====
section
/-! DEFINITION. Power-on reset and start-up: stages 1 to 3 and the reservation copies, the restore of the tables, the
reconciliation, and the end of start-up (R23, R167, R206 to R210). -/

namespace Sys2Proof.Machine

namespace State

/-- R209: an error is noted for the start-up record. -/
def note (stage : Nat) (code : NoteCode) (s : State) : State := { s with notes := s.notes ++ [⟨stage, code⟩] }

/-! ## Power-on reset, stages 1 to 3 and the reservation copies (R167, R206) -/

/-- R205, log 12: what the store holds when the power comes up. -/
def storeAfter (st : Tab (List Byte)) (changed : List (Nat × List Byte)) : Tab (List Byte) :=
  changed.foldl (fun st e => putBlock st e.1 e.2) st

/-- R210: every on-chip value at its power-on value; the straps and the links as they are found. -/
def powered (i : PowerOn) (s : State) : State :=
  { State.reset with
    trunk := { State.reset.trunk with upLink := i.uplink, downLink := i.downlink, unitNumber := i.straps.val }
    store := storeAfter s.store i.changed
    pending := s.pending }

/-- R28: fault CLOCK_UNSET with M. -/
def clockUnset (s : State) : State := s.giveFault .clockUnset (le 3 s.clock.m)

/-- R206: the unit enters BYPASS at a stage. -/
def enterBypass (stage : Nat) (s : State) : State := { s with status := .bypass, bypassStage := some stage }

/-- R206: each failed pass is noted. -/
def noteMemory (n : Nat) (s : State) : State := (List.range n).foldl (fun s _ => s.note 2 .memory) s

/-- R167: a bad reservation copy. -/
def badCopy (b : Nat) (v : Option Nat) (s : State) : State :=
  if v.isNone then (s.faultWith .storeBlockBad 1 b).note 4 .blockBad else s

/-- R167: the positions, the limit and the numbering state, from the two copies. -/
def restoreJournal (a b : Option Nat) (s : State) : State :=
  let l := max (a.getD 0) (b.getD 0)
  { s with journal := { s.journal with
      release := l, cursor := l, next := l, limit := l
      numbering := if a.isNone && b.isNone then .halted else if l = seqEnd then .ended else .openNumbers
      copyA := a, copyB := b } }

/-- R167, R207: a HALTED numbering is noted; an OPEN one writes its new limit at once. -/
def firstReservation (s : State) : State :=
  match s.journal.numbering with
  | .halted => { s.note 4 .numbering with firstAttempt := .notNeeded }
  | .ended => { s with firstAttempt := .notNeeded }
  | .openNumbers => { s.reserve with firstAttempt := .awaited }.startWrite

/-- R167: the reservation copies are read and resolved. With both bad the table says STORE_BLOCK_BAD once. DESIGN CHOICE
(log 44), unsafe: each bad copy gives it, block 0 first. -/
def readCopies (s : State) : State :=
  let a := copyValue (s.readBlock 0)
  let b := copyValue (s.readBlock 1)
  ((((s.badCopy 0 a).badCopy 1 b).restoreJournal a b)).firstReservation

/-- R206: start-up from power-on reset to the wait for the first attempt of the reservation write. -/
def powerOn (i : PowerOn) (s : State) : State :=
  let s1 := (s.powered i).clockUnset
  if i.failedPasses.val = 4 then s1.enterBypass 2
  else
    let s2 := s1.noteMemory i.failedPasses.val
    if i.straps.val = 0 then s2.enterBypass 3 else s2.readCopies

end State

/-! ## Restoring records (R207, 11.7) -/

/-- The fields of a block, `n` of `size` bytes. -/
def chunks (size n : Nat) (img : List Byte) : List (List Byte) :=
  (List.range n).map (fun i => (img.drop (i * size)).take size)

/-- A record of a field, read and checked. -/
def parse {α : Type} (r : Reader) (check : Fields → Except Nat α) (bs : List Byte) : Option α :=
  match r bs with
  | .error _ => none
  | .ok (f, _) =>
    match check f with
    | .error _ => none
    | .ok a => some a

/-- R207: a credential as stored. What R2 drops when a record is written by ENROL or LOAD is not dropped here: a privilege
keeps the bit that the store holds. -/
def storedCred (f : Fields) : Except Nat (Option Cred) :=
  if f.val 1 = 0 then .ok none
  else match credStateOf (f.val 1) with
    | none => .error 1
    | some st =>
      match checkCred f st with
      | .error n => .error n
      | .ok c => .ok (some { c.cred with restock := (f.val 3).testBit 4, boltOverride := (f.val 3).testBit 5 })

/-- R176, R207: a window as stored. The clamp of R177 belongs to LOAD WINDOWS: a run past drop 32 keeps its count, and R176
covers no room beyond that drop. -/
def storedWindow (f : Fields) : Except Nat Window :=
  match firstBad (windowChecks f) with
  | some n => .error n
  | none => .ok ⟨f.val 1 == 1, f.val 2, f.val 3, f.val 4, f.val 5⟩

/-- A place of two bytes, when it is one. -/
def placeOk (n : Nat) : Bool := decide (n % 256 ≤ 3) && decide (1 ≤ n / 256) && decide (n / 256 ≤ 32)

/-- The place index of a place read as one number, segment in the low byte. -/
def placeFrom (n : Nat) : Nat := placeOf (n % 256) (n / 256)

def storedRoom (f : Fields) : Except Nat (Option Room) :=
  if f.val 1 = 0 then .ok none
  else match firstBad
      [ (2, f.val 2 != 0), (4, decide (f.val 4 < 8)), (5, (f.get 5).all (fun n => n != 0)),
        (6, (f.get 6).all placeOk), (7, (f.get 7).all placeOk) ] with
    | some n => .error n
    | none => .ok (some ⟨f.val 2, f.val 3, f.get 5, (f.get 6).map placeFrom, (f.get 7).map placeFrom⟩)

def storedStay (f : Fields) : Except Nat (Option Stay) :=
  if f.val 1 = 0 then .ok none
  else match firstBad [(2, f.val 2 != 0), (3, f.val 3 != 0), (8, decide (f.val 8 ≤ 1))] with
    | some n => .error n
    | none =>
      .ok (some ⟨f.val 2, f.val 3, f.val 1 == 1, f.val 4, f.get 9, f.val 5, f.val 6, f.val 7, f.val 8 == 1⟩)

/-- One stored compartment. -/
def storedComp (f : Fields) (c : Nat) : Option Compartment :=
  match compStateOf (f.val (3 + 3 * c)) with
  | none => none
  | some st => if f.val (4 + 3 * c) ≤ 4 then some ⟨f.val (2 + 3 * c), st, f.val (4 + 3 * c)⟩ else none

def storedComps (f : Fields) : Except Nat (List Compartment) :=
  if f.val 1 = 1 then .error 1
  else
    let cs := (List.range 12).filterMap (storedComp f)
    if cs.length = 12 then .ok cs else .error 2

def readCharge : Reader := readLayout [(1, 1), (2, 1), (3, 1), (4, 2), (5, 1), (6, 1), (7, 4), (8, 3)]

def storedCharge (f : Fields) : Except Nat Charge :=
  match firstBad
      [ (1, decide (f.val 1 ≤ 3)), (2, decide (1 ≤ f.val 2) && decide (f.val 2 ≤ 32)), (3, decide (f.val 3 ≤ 11)),
        (4, f.val 4 != 0), (5, decide (f.val 5 ≤ 1)), (6, decide (f.val 6 ≤ 1)),
        (7, f.val 5 == 0 || cardOk (f.val 7)), (8, decide (f.val 8 ≤ 98303)) ] with
  | some n => .error n
  | none =>
    .ok ⟨placeOf (f.val 1) (f.val 2), f.val 3, f.val 4, if f.val 5 = 1 then some (f.val 7) else none,
      if f.val 6 = 0 then .guest else .forced, f.val 8, 0⟩

/-- What a field restores as: its record, or the free value where its bytes are no record (log 10). -/
def orFree {α : Type} (x : Option (Option α)) (free : Option α) : Option α :=
  match x with
  | some y => y
  | none => free

/-- A record that every entry has: its record, the free value, or the default. -/
def orDefault {α : Type} (x : Option α) (free : Option α) (d : α) : α :=
  match x with
  | some y => y
  | none => free.getD d

/-- The free value of a table whose entries may be empty, as a record of that table (log 10). -/
def legalEntry {α : Type} (r : Reader) (check : Fields → Except Nat (Option α)) (bytes : Option α → List Byte)
    (free : Option α) : Option α := free.bind (fun a => (parse r check (bytes (some a))).join)

/-- The free value of a table whose every entry has contents, as a record of that table (log 10). -/
def legalRecord {α : Type} (r : Reader) (check : Fields → Except Nat α) (bytes : α → List Byte) (free : Option α) :
    Option α := free.bind (fun a => parse r check (bytes a))

/-- The compartments that the 37 bytes beside a restored door record give. -/
def restoredCompartments (d : DoorRec) (bs : List Byte) : List Compartment :=
  if d.isMinibar then
    orDefault (parse readComps storedComps bs)
      (legalRecord readComps storedComps (fun cs => 0#8 :: cs.flatMap compBytes) (Config.restoredComps bs)) (List.replicate 12 ⟨0, .empty, 0⟩)
  else []

/-- The pending charges of block 18. -/
def restoredList (img : List Byte) : List Charge :=
  match img with
  | [] => []
  | n :: rest =>
    if n.toNat ≤ 64 then
      (chunks 14 n.toNat rest).filterMap (fun bs => match parse readCharge storedCharge bs with
        | some c => some c
        | none => legalRecord readCharge storedCharge chargeBytes (Config.restoredCharge bs))
    else ((Config.restoredCharges img).take 64).filterMap (fun c =>
      legalRecord readCharge storedCharge chargeBytes (some c))

/-- Entries of a table from a run of fields; an absent one leaves its entry unlisted. -/
def listEntries {α : Type} (t : Tab α) (first : Nat) (f : List Byte → Option α) (cs : List (List Byte)) : Tab α :=
  (indexed first cs).foldl (fun t e => match f e.2 with
    | some a => Tab.write t e.1 a
    | none => t) t

/-- Entries of a table whose every entry has contents. -/
def fillEntries {α : Type} [DecidableEq α] (d : α) (t : Tab α) (first : Nat) (f : List Byte → α)
    (cs : List (List Byte)) : Tab α :=
  (indexed first cs).foldl (fun t e => Tab.put d t e.1 (f e.2)) t

namespace State

/-- R207: a door record and its compartments restored. 11.3 has every stored record carry its unlock seconds and held limit.
DESIGN CHOICE (log 10), unsafe: one that lacks them restores with R42's defaults, as at LOAD DOORS. -/
def restorePlace (s : State) (e : Nat × List Byte) : State :=
  let d := orDefault (parse readDoor checkDoor (e.2.take 7))
    (legalRecord readDoor checkDoor doorBytes (Config.restoredDoor e.2)) .unused
  s.modPlace e.1 (fun pl => { pl with door := d, comps := restoredCompartments d (e.2.drop 7) })

/-- R207: the records of a good block, restored as stored; bytes that are no record of their table restore as a free value
(log 10). -/
def restoreBlock (b : Nat) (img : List Byte) (s : State) : State :=
  if b = 2 then
    let bs := img.take 6
    let x := orDefault (parse readPolicy checkPolicy bs)
      (legalRecord readPolicy checkPolicy policyBytes (Config.restoredPolicy bs)) Policy.default
    { s with policy := x }
  else if b = 3 then
    let f (bs : List Byte) : ZoneState := orDefault (parse readZone checkZone bs)
      (legalRecord readZone checkZone zoneBytes (Config.restoredZone bs)) .normal
    { s with zones := fillEntries .normal s.zones 0 f (chunks 1 16 img) }
  else if b = 4 then
    let f (bs : List Byte) : Schedule :=
      orDefault (parse readSchedule checkSchedule bs)
        (legalRecord readSchedule checkSchedule scheduleBytes (Config.restoredSchedule bs)) Schedule.absent
    { s with schedules := fillEntries Schedule.absent s.schedules 0 f (chunks 20 32 img) }
  else if b = 5 then
    let f (bs : List Byte) : Window :=
      orDefault (parse readWindow storedWindow bs)
        (legalRecord readWindow storedWindow windowBytes (Config.restoredWindow bs)) Window.disabled
    { s with windows := fillEntries Window.disabled s.windows 0 f (chunks 6 16 img) }
  else if b < 10 then
    let f (bs : List Byte) : Price := orDefault (parse readPrice checkPrice bs)
      (legalRecord readPrice checkPrice priceBytes (Config.restoredPrice bs)) ⟨0, 0⟩
    { s with prices := fillEntries ⟨0, 0⟩ s.prices (64 * (b - 6)) f (chunks 4 64 img) }
  else if b < 12 then (indexed (64 * (b - 10)) (chunks 44 64 img)).foldl restorePlace s
  else if b < 14 then
    let f (bs : List Byte) : Option Room := orFree (parse readRoom storedRoom bs)
      (legalEntry readRoom storedRoom roomBytes (Config.restoredRoom bs))
    { s with rooms := listEntries s.rooms (64 * (b - 12)) f (chunks 12 (if b = 12 then 64 else 32) img) }
  else if b < 18 then
    let f (bs : List Byte) : Option Stay := orFree (parse readStayFull storedStay bs)
      (legalEntry readStayFull storedStay stayBytes (Config.restoredStay bs))
    { s with stays := listEntries s.stays (64 * (b - 14)) f (chunks 21 64 img) }
  else if b = 18 then { s with pendingCharges := restoredList img }
  else
    let f (bs : List Byte) : Option Cred := orFree (parse readCred storedCred bs)
      (legalEntry readCred storedCred credBytes (Config.restoredCred bs))
    { s with creds := listEntries s.creds (64 * (b - 19)) f (chunks 22 64 img) }

/-- R207: one block; blank and bad ones leave the defaults, are marked dirty and are noted. -/
def restoreOne (s : State) (b : Nat) : State :=
  match s.readBlock b with
  | .good img => s.restoreBlock b img
  | .blank => (s.markDirty b).note 4 .blank
  | .bad => ((s.markDirty b).faultWith .storeBlockBad 1 b).note 4 .blockBad

/-- R207: blocks 2 to 82, in ascending number. -/
def restoreAll (s : State) : State := ((List.range 81).map (fun i => i + 2)).foldl restoreOne s

/-! ## Reconciliation (R23, R208) -/

/-- 11.5: the RESTORE_FIX codes, in the order R208 names them. -/
def fixRecord (code : Nat) (w : Spot) (entries : List Byte) (s : State) : State :=
  s.log .restoreFix w ([byte code] ++ entries)

/-- R23 step 1: the entry that is kept for a card number. -/
def keeper (s : State) (card : Nat) : Option Nat :=
  match s.creds.find? (fun e => e.2.card == card && e.2.state == .active) with
  | some e => some e.1
  | none => (s.creds.find? (fun e => e.2.card == card)).map (fun e => e.1)

/-- R23 step 1: the entries that give way, in ascending index. -/
def losers (s : State) : List (Nat × Cred) := s.creds.filter (fun e => s.keeper e.2.card != some e.1)

/-- R208 part 1 for one entry emptied. -/
def emptyLoser (s : State) (e : Nat × Cred) : State :=
  (s.emptyCred e.1).fixRecord 0 .unit (le 2 e.1 ++ le 2 ((s.keeper e.2.card).getD e.1))

/-- R208 part 1. -/
def fixDuplicates (s : State) : State :=
  let ls := s.losers
  ls.foldl emptyLoser (ls.foldl (fun s e => s.revoke e.1 .replace) s)

/-- R208 part 2: whether another OPEN stay of the room is kept in place of this one. -/
def outdone (s : State) (i : Nat) (x : Stay) : Bool :=
  s.stays.any (fun e => e.2.isOpen && e.2.room == x.room
    && (decide (x.opened < e.2.opened) || (e.2.opened == x.opened && decide (i < e.1))))

/-- R208: a stay is closed by start-up (fix SECOND_STAY). -/
def closeByFix (s : State) (e : Nat × Stay) : State :=
  (s.setStay e.1 { e.2 with isOpen := false, closed := some s.clock.m }).fixRecord 1 (.room e.2.room)
    (le 2 e.2.number ++ le 2 e.2.room)

/-- R208 part 2. R208 takes each part over the whole table and does not order the fixes within one. DESIGN CHOICE (log 61),
unsafe: the stays are closed in ascending index. -/
def fixStays (s : State) : State := (s.stays.filter (fun e => e.2.isOpen && s.outdone e.1 e.2)).foldl closeByFix s

/-- Whether a stay number is OPEN for a room (log 49). -/
def isOpenFor (s : State) (r n : Nat) : Bool :=
  s.stays.any (fun e => e.2.isOpen && e.2.number == n && e.2.room == r)

/-- R208 part 3, first sentence, for one room entry. It does not say whether a field that names a stay OPEN for another
room names an OPEN stay. DESIGN CHOICE (log 49), unsafe: it does not, and is removed. -/
def dropField (s : State) (e : Nat × Room) : State :=
  match e.2.openStay with
  | none => s
  | some n =>
    if s.isOpenFor e.2.room n then s
    else (s.setRoom e.1 { e.2 with openStay := none }).fixRecord 2 (.room e.2.room) (le 2 e.2.room ++ le 2 n)

/-- R208 part 3, second and third sentences, for one OPEN stay. -/
def giveField (s : State) (e : Nat × Stay) : State :=
  let x := e.2
  if !x.isOpen || s.roomOccupied x.room then s
  else
    let s1 := s.ensureRoom x.room
    if (s1.findRoom x.room).isNone then s.closeByFix e
    else (s1.setOpenStay x.room (some x.number)).fixRecord 2 (.room x.room) (le 2 x.room ++ le 2 x.number)

/-- R208 part 3. It does not order its entries. DESIGN CHOICE (log 61), unsafe: the room entries in ascending index, then the
stays in ascending index, so that of two OPEN stays without a room entry the one at the lower index gets the last unused
one and the other is closed. -/
def fixFields (s : State) : State :=
  let s1 := s.rooms.foldl dropField s
  s1.stays.foldl giveField s1

/-- R208 part 4: a room named by a door record is given an entry, where one is unused (log 21). -/
def createNamed (s : State) (p : Nat) : State :=
  match (s.place p).door.room? with
  | none => s
  | some r =>
    if (s.findRoom r).isSome then s
    else
      let s1 := s.createRoom r
      if (s1.findRoom r).isSome then s1.fixRecord 3 (.room r) (le 2 r) else s

/-- R208 part 4: an entry that nothing needs is removed. -/
def removeUnnamed (s : State) (e : Nat × Room) : State :=
  if !s.roomNamed e.2.room && e.2.openStay.isNone then
    (s.clearRoom e.1).fixRecord 4 (.room e.2.room) (le 2 e.2.room)
  else s

/-- R208 part 4. Neither R23 nor R208 orders its fixes. DEDUCED (log 21), unsafe: the entries that nothing needs are removed
first, in ascending index, so that the rooms to be created, in ascending place, find their places. -/
def fixRooms (s : State) : State :=
  let s1 := s.rooms.foldl removeUnnamed s
  (s1.placeKeys.foldl createNamed s1).recomputeRooms

/-- R23 step 3: whether an entry is below its room's accepted generation. -/
def isStale (s : State) (c : Cred) : Bool :=
  c.state == .active && c.kind == .guest && match c.guest with
    | none => false
    | some g => match s.accepted g.room with
      | none => false
      | some a => decide (g.generation < a)

/-- R208 part 5 for one entry. -/
def supersedeStale (s : State) (e : Nat × Cred) : State :=
  (s.fixRecord 5 (credSpot e.2) (le 2 e.1)).revoke e.1 .supersede

/-- R208 part 5. It does not order its entries. DESIGN CHOICE (log 61), unsafe: in ascending index. -/
def fixStale (s : State) : State := (s.creds.filter (fun e => s.isStale e.2)).foldl supersedeStale s

/-- R208 part 6 for one restored entry. -/
def commitRestored (s : State) (c : Charge) : State :=
  ((s.fixRecord 6 (.drop c.place) ([byte c.compartment] ++ le 2 c.stay)).setCharges
    (s.pendingCharges.filter (fun d => d != c))).commit c true

/-- R208 part 6 for one compartment left PENDING. -/
def orphanAt (p : Nat) (s : State) (c : Nat) : State :=
  if (s.comp p c).state = .pending then (s.moveComp p c .empty 0).fixRecord 7 (.drop p) [byte c] else s

/-- R208 part 6. It orders the charges by their list and not the orphans. DESIGN CHOICE (log 61), unsafe: in ascending place
and compartment. -/
def fixPending (s : State) : State :=
  let s1 := s.pendingCharges.foldl commitRestored s
  s1.placeKeys.foldl (fun s p => (List.range 12).foldl (orphanAt p) s) s1

/-- R39, R208 part 7: the marks of one place at the end of start-up. -/
def startMarks (s : State) (p : Nat) : State :=
  if (s.place p).door.isLocked then
    s.modPlace p (fun pl => { pl with
      suspect := true
      mark := if s.zoneOfDoor pl.door = .released then .holdOwed else .none })
  else s

/-- R208: stage 5. -/
def reconcile (s : State) : State :=
  let s1 := (s.fixDuplicates.fixStays.fixFields).fixRooms.fixStale.fixPending
  s1.placeKeys.foldl startMarks s1

/-! ## Stages 6 and 7 (R209) -/

/-- R209: UNIT_START, with the L restored, which the release mark still holds, and the numbering state. -/
def unitStart (s : State) : State :=
  let s1 := s.log .unitStart .unit (le 6 s.journal.release ++ [byte (numberingCode s.journal.numbering)])
  if s.firstAttempt = .failed then s1.note 6 .reservation else s1

/-- R209: the lowest stage among the notes. -/
def lowestStage : List Note → Option Note
  | [] => none
  | n :: ns =>
    match lowestStage ns with
    | none => some n
    | some m => if m.stage < n.stage then some m else some n

/-- R209: the unit status, with the start-up record and START_ERRORS where a stage noted an error. -/
def finishStart (s : State) : State :=
  match lowestStage s.notes with
  | none => { s with status := .ready }
  | some n =>
    let count := min 255 s.notes.length
    { s with status := .readyWithErrors, startRecord := some ⟨n.stage, n.code, count⟩ }.giveFault .startErrors
      [byte n.stage, byte count, 0#8]

/-- R207: the first attempt of the reservation write has ended. -/
def attemptEnded (s : State) : Bool :=
  match s.firstAttempt with
  | .acknowledged | .failed | .notNeeded => true
  | .notBegun | .awaited => false

/-- R207 to R209: stages 4 to 7. -/
def startUp (s : State) : State :=
  if s.status = .starting ∧ s.attemptEnded then
    ((List.range 4).foldl (fun s g => s.enterTesting g) s.restoreAll.reconcile.unitStart).finishStart
  else s

end State

end Sys2Proof.Machine
end

