-- ==== Sys2Proof/Machine/Due.lean ====
section
/-! DEFINITION. The second event and the minute advance, and the consequences that stand due until their own rows, or the
next command, carry them out (R26, R27, R148; logs 1, 2 and 13). -/

namespace Sys2Proof.Machine

namespace State

/-! ## The minute advance (R27, R28) -/

/-- R27: M holds at its top, W wraps. -/
def advanceClock (s : State) : State :=
  { s with clock := { s.clock with
      m := min top24 (s.clock.m + 1)
      w := if s.clock.w = 10079 then 0 else s.clock.w + 1 } }

/-- R28: fault CLOCK_UNSET while the clock is UNSET. -/
def unsetFault (s : State) : State := if s.clock.state = .unset then s.clockUnset else s

/-- R14: the expiry rule, while the clock is RUNNING. -/
def expireIfRunning (s : State) : State := if s.clock.state = .running then s.applyExpiry else s

/-- R27: the minute advance: the deadline test, then the expiry rule. R28 does not order its fault CLOCK_UNSET among them.
DESIGN CHOICE (log 13), unsafe: it is given after CLOCK_END and before the deadline test. -/
def minuteAdvance (s : State) : State := s.advanceClock.clockEnd.unsetFault.deadlineTest.expireIfRunning

/-! ## The second event (R26) -/

/-- R26: S rises by 1, and becomes 0 from 59. -/
def countSecond (s : State) : State := { s with clock := { s.clock with s := (s.clock.s + 1) % 60 } }

/-- R56, R58: the door counts of every place. -/
def countDoors (s : State) : State := s.placeKeys.foldl (fun s p => s.modPlace p Place.countSecond) s

/-- R148: seconds left of every pending charge; the countdown marks no block dirty (R204). -/
def countGraces (s : State) : State :=
  { s with pendingCharges := s.pendingCharges.map (fun c => { c with left := c.left - 1 }) }

/-- FAILED or TEST_PLUG, whose re-test seconds are counted (R97). -/
def awaitsRetest (s : State) (g : Nat) : Bool := (s.seg g).line == .failed || (s.seg g).line == .testPlug

/-- R97: the re-test seconds of one segment. -/
def countRetest (s : State) (g : Nat) : State :=
  if s.awaitsRetest g then s.modSeg g (fun x => { x with retest := x.retest - 1 }) else s

/-- R205: a waiting writer becomes idle. -/
def wakeWriter (s : State) : State :=
  match s.writer with
  | .waiting => { s with writer := .idle }
  | .idle => s
  | .writing _ _ _ => s

/-- R56, R58: what the door counts of one place bring. -/
def dueAt (s : State) (p : Nat) : List Due :=
  let pl := s.place p
  if pl.doorState = .unlocked ∧ pl.unlockLeft = 0 then [.unlockTimeout p]
  else if pl.isOpenCounted && decide (pl.door.heldLimit < pl.openElapsed) then [.doorHeld p]
  else []

/-- R148: the entries whose seconds left have reached 0, in list order. -/
def dueGraces (s : State) : List Due :=
  (s.pendingCharges.filter (fun c => c.left == 0)).map (fun c => .graceExpiry c.place c.compartment)

/-- R95, R97: what the second event brings to one segment. -/
def dueSegment (s : State) (g : Nat) : List Due :=
  if s.polling g then [.errorWindow g]
  else if s.awaitsRetest g && (s.seg g).retest == 0 then [.retest g]
  else []

/-- R26: what a second event makes due, after the counts; `wrapped` says that S went from 59 to 0. -/
def dueList (s : State) (wrapped : Bool) : List Due :=
  (if wrapped then [.minuteAdvance] else []) ++ s.placeKeys.flatMap s.dueAt ++ s.dueGraces
    ++ (List.range 4).flatMap s.dueSegment

/-- R26: the counts of a second event. -/
def countAll (s : State) : State :=
  ((List.range 4).foldl countRetest s.countSecond.countDoors.countGraces).wakeWriter

/-- R26: the second event. -/
def secondEvent (s : State) : State :=
  let s1 := s.countAll
  { s1 with due := s1.due ++ s1.dueList (s.clock.s == 59) }

/-! ## Carrying out what is due -/

/-- R148: an entry whose grace has run in full is committed. -/
def graceExpiry (p c : Nat) (s : State) : State :=
  s.commitWhere (fun x => isCharge p c x && x.left == 0) false

/-- One consequence, guarded by its rule's own condition (log 2). -/
def carryOut (s : State) (d : Due) : State :=
  match d with
  | .minuteAdvance => s.minuteAdvance
  | .unlockTimeout p => s.unlockTimeout p
  | .doorHeld p => s.doorHeld p
  | .graceExpiry p c => s.graceExpiry p c
  | .errorWindow g => s.closeWindow g
  | .retest g => s.retestTimeout g
  | .missSilent p => s.missSilent p
  | .missAbsent p => s.missAbsent p
  | .terminatorDown g => s.terminatorDown g
  | .completionEnter => s.enterCompletion

/-- Everything that is due is carried out, in order, before another command is taken. -/
def settle (s : State) : State := s.due.foldl carryOut { s with due := [] }

/-- Nothing is due any more under one name. -/
def undue (d : Due) (s : State) : State := { s with due := s.due.erase d }

/-- R27: a minute advance that is due comes before every other consequence. -/
def minuteFirst (d : Due) (s : State) : State :=
  if d ≠ .minuteAdvance ∧ Due.minuteAdvance ∈ s.due then (s.undue .minuteAdvance).minuteAdvance else s

/-- R148: the entries at 0 that stand in the list before the one at 0 of a compartment. -/
def gracesBefore (p c : Nat) (cs : List Charge) : List Charge :=
  if cs.any (fun x => isCharge p c x && x.left == 0) then
    (cs.takeWhile (fun x => !(isCharge p c x && x.left == 0))).filter (fun x => x.left == 0)
  else []

/-- R148: entries at 0 are committed in list order, so those before the one commanded come first. -/
def gracesFirst (d : Due) (s : State) : State :=
  match d with
  | .graceExpiry p c =>
    (gracesBefore p c s.pendingCharges).foldl
      (fun s x => (s.undue (.graceExpiry x.place x.compartment)).graceExpiry x.place x.compartment) s
  | .minuteAdvance | .unlockTimeout _ | .doorHeld _ | .errorWindow _ | .retest _ | .missSilent _ | .missAbsent _
  | .terminatorDown _ | .completionEnter => s

/-- The row of one consequence. -/
def runDue (d : Due) (s : State) : State := (((s.minuteFirst d).gracesFirst d).undue d).carryOut d

/-- R14: one credential's expiry. -/
def expireAt (i : Nat) (s : State) : State :=
  match s.cred i with
  | none => s
  | some c => if s.clock.state = .running ∧ s.expires c then s.revoke i .expiry else s

end State

end Sys2Proof.Machine
end

