-- ==== Sys2Proof/Machine/ExecFetch.lean ====
section
/-! DEFINITION. The meanings of the ten FETCH rows (R192). -/

namespace Sys2Proof.Machine

/-- R192: FETCH_WINDOWS. -/
def execFetchWindows (q : Request) (s : State) : Host.Outcome State Fault Refusal :=
  .next (s.settle.runRequest 0x02 q (fetchBody .windows q))

/-- R192: FETCH_DOORS. -/
def execFetchDoors (q : Request) (s : State) : Host.Outcome State Fault Refusal :=
  .next (s.settle.runRequest 0x02 q (fetchBody .doors q))

/-- R192: FETCH_SCHEDULES. -/
def execFetchSchedules (q : Request) (s : State) : Host.Outcome State Fault Refusal :=
  .next (s.settle.runRequest 0x02 q (fetchBody .schedules q))

/-- R192: FETCH_ZONES. -/
def execFetchZones (q : Request) (s : State) : Host.Outcome State Fault Refusal :=
  .next (s.settle.runRequest 0x02 q (fetchBody .zones q))

/-- R192: FETCH_PRICES. -/
def execFetchPrices (q : Request) (s : State) : Host.Outcome State Fault Refusal :=
  .next (s.settle.runRequest 0x02 q (fetchBody .prices q))

/-- R192: FETCH_COMPARTMENTS. -/
def execFetchCompartments (q : Request) (s : State) : Host.Outcome State Fault Refusal :=
  .next (s.settle.runRequest 0x02 q (fetchBody .compartments q))

/-- R192: FETCH_POLICY. -/
def execFetchPolicy (q : Request) (s : State) : Host.Outcome State Fault Refusal :=
  .next (s.settle.runRequest 0x02 q (fetchBody .policy q))

/-- R192: FETCH_CREDENTIALS. -/
def execFetchCredentials (q : Request) (s : State) : Host.Outcome State Fault Refusal :=
  .next (s.settle.runRequest 0x02 q (fetchBody .credentials q))

/-- R192: FETCH_STAYS. -/
def execFetchStays (q : Request) (s : State) : Host.Outcome State Fault Refusal :=
  .next (s.settle.runRequest 0x02 q (fetchBody .stays q))

/-- R192: FETCH_ROOMS. -/
def execFetchRooms (q : Request) (s : State) : Host.Outcome State Fault Refusal :=
  .next (s.settle.runRequest 0x02 q (fetchBody .rooms q))


end Sys2Proof.Machine
end

