-- ==== Sys2Proof/Machine/ExecLine.lean ====
section
/-! DEFINITION. The meanings of the line rows: polls, responses and the consequences of missed polls. -/

namespace Sys2Proof.Machine

/-- R79: NORMAL_POLL. -/
def execNormalPoll (seg : Fin 4) (s : State) : Host.Outcome State Fault Refusal :=
  .next (s.settle.normalPoll seg.val)

/-- R80: PROBE_POLL. -/
def execProbePoll (seg : Fin 4) (s : State) : Host.Outcome State Fault Refusal :=
  .next (s.settle.probePoll seg.val)

/-- R81: PRIORITY_POLL. -/
def execPriorityPoll (seg : Fin 4) (s : State) : Host.Outcome State Fault Refusal :=
  .next (s.settle.priorityPoll seg.val)

/-- R92: TEST_EXCHANGE. -/
def execTestExchange (seg : Fin 4) (s : State) : Host.Outcome State Fault Refusal :=
  .next (s.settle.testExchange seg.val)

/-- R66: RESPONSE_RECEIVED. -/
def execResponseReceived (seg : Fin 4) (frame : List Byte) (s : State) : Host.Outcome State Fault Refusal :=
  .next (s.settle.responseReceived seg.val frame)

/-- R66: RESPONSE_WINDOW_CLOSE. -/
def execResponseWindowClose (seg : Fin 4) (s : State) : Host.Outcome State Fault Refusal :=
  .next (s.settle.windowClosed seg.val)

/-- R84: MISS_COUNT_SILENT. -/
def execMissCountSilent (place : Fin 128) (s : State) : Host.Outcome State Fault Refusal :=
  .next (s.runDue (.missSilent place.val))

/-- R84: MISS_COUNT_ABSENT. -/
def execMissCountAbsent (place : Fin 128) (s : State) : Host.Outcome State Fault Refusal :=
  .next (s.runDue (.missAbsent place.val))

/-- R94: TERMINATOR_MISSES_DOWN. -/
def execTerminatorMissesDown (seg : Fin 4) (s : State) : Host.Outcome State Fault Refusal :=
  .next (s.runDue (.terminatorDown seg.val))


end Sys2Proof.Machine
end

