-- ==== Sys2Proof/Machine/ExecLoad.lean ====
section
/-! DEFINITION. The meanings of the ten LOAD rows (R190, R191, R193). -/

namespace Sys2Proof.Machine

/-- R177: LOAD_WINDOWS. -/
def execLoadWindows (q : Request) (s : State) : Host.Outcome State Fault Refusal :=
  .next (s.settle.runRequest 0x01 q (loadWindowsBody q))

/-- R65: LOAD_DOORS. -/
def execLoadDoors (q : Request) (s : State) : Host.Outcome State Fault Refusal :=
  .next (s.settle.runRequest 0x01 q (loadDoorsBody q))

/-- R31: LOAD_SCHEDULES. -/
def execLoadSchedules (q : Request) (s : State) : Host.Outcome State Fault Refusal :=
  .next (s.settle.runRequest 0x01 q (loadSchedulesBody q))

/-- R36: LOAD_ZONES. -/
def execLoadZones (q : Request) (s : State) : Host.Outcome State Fault Refusal :=
  .next (s.settle.runRequest 0x01 q (loadZonesBody q))

/-- R132: LOAD_PRICES. -/
def execLoadPrices (q : Request) (s : State) : Host.Outcome State Fault Refusal :=
  .next (s.settle.runRequest 0x01 q (loadPricesBody q))

/-- R133: LOAD_COMPARTMENTS. -/
def execLoadCompartments (q : Request) (s : State) : Host.Outcome State Fault Refusal :=
  .next (s.settle.runRequest 0x01 q (loadCompartmentsBody q))

/-- R194: LOAD_POLICY. -/
def execLoadPolicy (q : Request) (s : State) : Host.Outcome State Fault Refusal :=
  .next (s.settle.runRequest 0x01 q (loadPolicyBody q))

/-- R17: LOAD_CREDENTIALS. -/
def execLoadCredentials (q : Request) (s : State) : Host.Outcome State Fault Refusal :=
  .next (s.settle.runRequest 0x01 q (loadCredentialsBody q))

/-- R193: LOAD_STAYS. -/
def execLoadStays (q : Request) (s : State) : Host.Outcome State Fault Refusal :=
  .next (s.settle.runRequest 0x01 q (loadStaysBody q))

/-- R193: LOAD_ROOMS. -/
def execLoadRooms (q : Request) (s : State) : Host.Outcome State Fault Refusal :=
  .next (s.settle.runRequest 0x01 q loadRoomsBody)


end Sys2Proof.Machine
end

