-- ==== Sys2Proof/Machine/ExecRequest.lean ====
section
/-! DEFINITION. The meanings of the requests other than LOAD and FETCH: each is its body under the Request Processor's common handling
(R185 to R188, log 5). -/

namespace Sys2Proof.Machine

/-- R186: UNKNOWN_REQUEST. -/
def execUnknownRequest (kind : Byte) (q : Request) (s : State) : Host.Outcome State Fault Refusal :=
  .next (s.settle.runUnknown kind q)

/-- R6: ENROL. -/
def execEnrol (q : Request) (s : State) : Host.Outcome State Fault Refusal :=
  .next (s.settle.runRequest 0x03 q (enrolBody q false))

/-- R6, R8: ENROL_REPLACE. -/
def execEnrolReplace (q : Request) (s : State) : Host.Outcome State Fault Refusal :=
  .next (s.settle.runRequest 0x03 q (enrolBody q true))

/-- R12: WITHDRAW. -/
def execWithdraw (q : Request) (s : State) : Host.Outcome State Fault Refusal :=
  .next (s.settle.runRequest 0x04 q (withdrawBody q))

/-- R126: STAY_OPEN. -/
def execStayOpen (q : Request) (s : State) : Host.Outcome State Fault Refusal :=
  .next (s.settle.runRequest 0x05 q (stayOpenBody q))

/-- R128: STAY_EXTEND. -/
def execStayExtend (q : Request) (s : State) : Host.Outcome State Fault Refusal :=
  .next (s.settle.runRequest 0x06 q (stayExtendBody q))

/-- R129: STAY_CLOSE. -/
def execStayClose (q : Request) (s : State) : Host.Outcome State Fault Refusal :=
  .next (s.settle.runRequest 0x07 q (stayCloseBody q))

/-- R131: STAY_PURGE. -/
def execStayPurge (q : Request) (s : State) : Host.Outcome State Fault Refusal :=
  .next (s.settle.runRequest 0x08 q (stayPurgeBody q))

/-- R61: DOOR_OPEN. -/
def execDoorOpen (q : Request) (s : State) : Host.Outcome State Fault Refusal :=
  .next (s.settle.runRequest 0x09 q (doorOpenBody q))

/-- R36: ZONE_SET. -/
def execZoneSet (q : Request) (s : State) : Host.Outcome State Fault Refusal :=
  .next (s.settle.runRequest 0x0A q (zoneSetBody q))

/-- R29: CLOCK_SET. -/
def execClockSet (q : Request) (s : State) : Host.Outcome State Fault Refusal :=
  .next (s.settle.runRequest 0x0B q (clockSetBody q))

/-- R162: JOURNAL_RELEASE. -/
def execJournalRelease (q : Request) (s : State) : Host.Outcome State Fault Refusal :=
  .next (s.settle.runRequest 0x0C q (releaseBody q))

/-- R163: JOURNAL_REWIND. -/
def execJournalRewind (q : Request) (s : State) : Host.Outcome State Fault Refusal :=
  .next (s.settle.runRequest 0x0D q (rewindBody q))

/-- R98: SEGMENT_TEST. -/
def execSegmentTest (q : Request) (s : State) : Host.Outcome State Fault Refusal :=
  .next (s.settle.runRequest 0x0E q (segmentTestBody q))

/-- R99: SEGMENT_SERVICE_OUT. -/
def execSegmentServiceOut (q : Request) (s : State) : Host.Outcome State Fault Refusal :=
  .next (s.settle.runRequest 0x0F q (serviceBody q serviceOut))

/-- R99: SEGMENT_SERVICE_IN. -/
def execSegmentServiceIn (q : Request) (s : State) : Host.Outcome State Fault Refusal :=
  .next (s.settle.runRequest 0x0F q (serviceBody q serviceIn))

/-- R196: STATUS. -/
def execStatus (q : Request) (s : State) : Host.Outcome State Fault Refusal :=
  .next (s.settle.runRequest 0x10 q (statusBody q))

/-- R203: FAULT_CLEAR. -/
def execFaultClear (q : Request) (s : State) : Host.Outcome State Fault Refusal :=
  .next (s.settle.runRequest 0x11 q (faultClearBody q))

/-- R197: RESTART. -/
def execRestart (q : Request) (s : State) : Host.Outcome State Fault Refusal :=
  .next (s.settle.runRequest 0x12 q (restartBody q))


end Sys2Proof.Machine
end

