-- ==== Sys2Proof/Machine/ExecTime.lean ====
section
/-! DEFINITION. The meanings of the reset, start-up, clock and timer rows: POWER_ON_RESET, START_UP_RESTORE, SECOND_EVENT and the
consequences of a second event. Every meaning but POWER_ON_RESET first carries out what is due (log 1). -/

namespace Sys2Proof.Machine

/-- R206, R210: POWER_ON_RESET. -/
def execPowerOnReset (i : PowerOn) (s : State) : Host.Outcome State Fault Refusal :=
  .next (s.powerOn i)

/-- R207 to R209: START_UP_RESTORE. -/
def execStartUpRestore (s : State) : Host.Outcome State Fault Refusal :=
  .next s.settle.startUp

/-- R26: SECOND_EVENT. -/
def execSecondEvent (s : State) : Host.Outcome State Fault Refusal :=
  .next s.settle.secondEvent

/-- R27: MINUTE_ADVANCE (log 2). -/
def execMinuteAdvance (s : State) : Host.Outcome State Fault Refusal :=
  .next (s.runDue .minuteAdvance)

/-- R14: CREDENTIAL_EXPIRY. -/
def execCredentialExpiry (index : Fin 4096) (s : State) : Host.Outcome State Fault Refusal :=
  .next (s.settle.expireAt index.val)

/-- R121: REVOCATION_DEADLINE. -/
def execRevocationDeadline (record : Fin 32) (s : State) : Host.Outcome State Fault Refusal :=
  .next (s.settle.deadlineAt record.val)

/-- R56: UNLOCK_TIMEOUT. -/
def execUnlockTimeout (place : Fin 128) (s : State) : Host.Outcome State Fault Refusal :=
  .next (s.runDue (.unlockTimeout place.val))

/-- R58: DOOR_HELD. -/
def execDoorHeld (place : Fin 128) (s : State) : Host.Outcome State Fault Refusal :=
  .next (s.runDue (.doorHeld place.val))

/-- R148: GRACE_EXPIRY. -/
def execGraceExpiry (place : Fin 128) (compartment : Fin 12) (s : State) : Host.Outcome State Fault Refusal :=
  .next (s.runDue (.graceExpiry place.val compartment.val))

/-- R95: ERROR_WINDOW_CLOSE. -/
def execErrorWindowClose (seg : Fin 4) (s : State) : Host.Outcome State Fault Refusal :=
  .next (s.runDue (.errorWindow seg.val))

/-- R97: RETEST_TIMEOUT. -/
def execRetestTimeout (seg : Fin 4) (s : State) : Host.Outcome State Fault Refusal :=
  .next (s.runDue (.retest seg.val))


end Sys2Proof.Machine
end

