-- ==== Sys2Proof/Machine/ExecTrunk.lean ====
section
/-! DEFINITION. The meanings of the trunk rows and of the table store's writer. -/

namespace Sys2Proof.Machine

/-- R171: FRAME_RECEIVED. -/
def execFrameReceived (port : Port) (frame : List Byte) (s : State) : Host.Outcome State Fault Refusal :=
  .next (s.settle.receive port frame)

/-- R172: PARTNER_HOLD. -/
def execPartnerHold (port : Port) (hold : Bool) (s : State) : Host.Outcome State Fault Refusal :=
  .next (s.settle.partnerHold port hold)

/-- R170, R181, R184: LINK_DISCONNECT. -/
def execLinkDisconnect (port : Port) (rxCut txCut : Bool) (s : State) : Host.Outcome State Fault Refusal :=
  .next (s.settle.disconnect port rxCut txCut)

/-- R170: LINK_CONNECT. -/
def execLinkConnect (port : Port) (s : State) : Host.Outcome State Fault Refusal :=
  .next (s.settle.setLink port true)

/-- R173: CLASSIFY_FRAME. -/
def execClassifyFrame (s : State) : Host.Outcome State Fault Refusal :=
  .next s.settle.classifyNext

/-- R179: DOWNLINK_TRANSMIT. -/
def execDownlinkTransmit (s : State) : Host.Outcome State Fault Refusal :=
  .next s.settle.sendDown

/-- R183: UPLINK_ARBITRATE. -/
def execUplinkArbitrate (s : State) : Host.Outcome State Fault Refusal :=
  .next s.settle.arbitrate

/-- R182: COMPLETION_ENTER_QUEUE. -/
def execCompletionEnterQueue (s : State) : Host.Outcome State Fault Refusal :=
  .next (s.runDue .completionEnter)

/-- R205: STORE_WRITE_START. -/
def execStoreWriteStart (s : State) : Host.Outcome State Fault Refusal :=
  .next s.settle.startWrite

/-- R205: STORE_WRITE_COMPLETE. -/
def execStoreWriteComplete (reported : Bool) (landed : Option (List Byte)) (s : State) : Host.Outcome State Fault Refusal :=
  .next (s.settle.completeWrite reported landed)


end Sys2Proof.Machine
end

