-- ==== Sys2Proof/Machine/Dispatch.lean ====
section
/-! DEFINITION. One arm per command, each one call of its meaning. -/

namespace Sys2Proof.Machine

def exec (i : Instr) (s : State) : Host.Outcome State Fault Refusal :=
  match i with
  | .powerOnReset p => Sys2Proof.Machine.execPowerOnReset p s
  | .startUpRestore => Sys2Proof.Machine.execStartUpRestore s
  | .secondEvent => Sys2Proof.Machine.execSecondEvent s
  | .minuteAdvance => Sys2Proof.Machine.execMinuteAdvance s
  | .credentialExpiry index => Sys2Proof.Machine.execCredentialExpiry index s
  | .revocationDeadline record => Sys2Proof.Machine.execRevocationDeadline record s
  | .unlockTimeout place => Sys2Proof.Machine.execUnlockTimeout place s
  | .doorHeld place => Sys2Proof.Machine.execDoorHeld place s
  | .graceExpiry place compartment => Sys2Proof.Machine.execGraceExpiry place compartment s
  | .errorWindowClose seg => Sys2Proof.Machine.execErrorWindowClose seg s
  | .retestTimeout seg => Sys2Proof.Machine.execRetestTimeout seg s
  | .normalPoll seg => Sys2Proof.Machine.execNormalPoll seg s
  | .probePoll seg => Sys2Proof.Machine.execProbePoll seg s
  | .priorityPoll seg => Sys2Proof.Machine.execPriorityPoll seg s
  | .testExchange seg => Sys2Proof.Machine.execTestExchange seg s
  | .responseReceived seg frame => Sys2Proof.Machine.execResponseReceived seg frame s
  | .responseWindowClose seg => Sys2Proof.Machine.execResponseWindowClose seg s
  | .missCountSilent place => Sys2Proof.Machine.execMissCountSilent place s
  | .missCountAbsent place => Sys2Proof.Machine.execMissCountAbsent place s
  | .terminatorMissesDown seg => Sys2Proof.Machine.execTerminatorMissesDown seg s
  | .frameReceived port frame => Sys2Proof.Machine.execFrameReceived port frame s
  | .partnerHold port hold => Sys2Proof.Machine.execPartnerHold port hold s
  | .linkDisconnect port rxCut txCut => Sys2Proof.Machine.execLinkDisconnect port rxCut txCut s
  | .linkConnect port => Sys2Proof.Machine.execLinkConnect port s
  | .classifyFrame => Sys2Proof.Machine.execClassifyFrame s
  | .downlinkTransmit => Sys2Proof.Machine.execDownlinkTransmit s
  | .uplinkArbitrate => Sys2Proof.Machine.execUplinkArbitrate s
  | .completionEnterQueue => Sys2Proof.Machine.execCompletionEnterQueue s
  | .storeWriteStart => Sys2Proof.Machine.execStoreWriteStart s
  | .storeWriteComplete reported landed => Sys2Proof.Machine.execStoreWriteComplete reported landed s
  | .unknownRequest kind q => Sys2Proof.Machine.execUnknownRequest kind q s
  | .loadWindows q => Sys2Proof.Machine.execLoadWindows q s
  | .loadDoors q => Sys2Proof.Machine.execLoadDoors q s
  | .loadSchedules q => Sys2Proof.Machine.execLoadSchedules q s
  | .loadZones q => Sys2Proof.Machine.execLoadZones q s
  | .loadPrices q => Sys2Proof.Machine.execLoadPrices q s
  | .loadCompartments q => Sys2Proof.Machine.execLoadCompartments q s
  | .loadPolicy q => Sys2Proof.Machine.execLoadPolicy q s
  | .loadCredentials q => Sys2Proof.Machine.execLoadCredentials q s
  | .loadStays q => Sys2Proof.Machine.execLoadStays q s
  | .loadRooms q => Sys2Proof.Machine.execLoadRooms q s
  | .fetchWindows q => Sys2Proof.Machine.execFetchWindows q s
  | .fetchDoors q => Sys2Proof.Machine.execFetchDoors q s
  | .fetchSchedules q => Sys2Proof.Machine.execFetchSchedules q s
  | .fetchZones q => Sys2Proof.Machine.execFetchZones q s
  | .fetchPrices q => Sys2Proof.Machine.execFetchPrices q s
  | .fetchCompartments q => Sys2Proof.Machine.execFetchCompartments q s
  | .fetchPolicy q => Sys2Proof.Machine.execFetchPolicy q s
  | .fetchCredentials q => Sys2Proof.Machine.execFetchCredentials q s
  | .fetchStays q => Sys2Proof.Machine.execFetchStays q s
  | .fetchRooms q => Sys2Proof.Machine.execFetchRooms q s
  | .enrol q => Sys2Proof.Machine.execEnrol q s
  | .enrolReplace q => Sys2Proof.Machine.execEnrolReplace q s
  | .withdraw q => Sys2Proof.Machine.execWithdraw q s
  | .stayOpen q => Sys2Proof.Machine.execStayOpen q s
  | .stayExtend q => Sys2Proof.Machine.execStayExtend q s
  | .stayClose q => Sys2Proof.Machine.execStayClose q s
  | .stayPurge q => Sys2Proof.Machine.execStayPurge q s
  | .doorOpen q => Sys2Proof.Machine.execDoorOpen q s
  | .zoneSet q => Sys2Proof.Machine.execZoneSet q s
  | .clockSet q => Sys2Proof.Machine.execClockSet q s
  | .journalRelease q => Sys2Proof.Machine.execJournalRelease q s
  | .journalRewind q => Sys2Proof.Machine.execJournalRewind q s
  | .segmentTest q => Sys2Proof.Machine.execSegmentTest q s
  | .segmentServiceOut q => Sys2Proof.Machine.execSegmentServiceOut q s
  | .segmentServiceIn q => Sys2Proof.Machine.execSegmentServiceIn q s
  | .status q => Sys2Proof.Machine.execStatus q s
  | .faultClear q => Sys2Proof.Machine.execFaultClear q s
  | .restart q => Sys2Proof.Machine.execRestart q s

end Sys2Proof.Machine
end

