-- ==== Sys2Proof/Safety.lean ====
section
/-! DEFINITION. What counts as a safe state, and the conditions under which a command has its own effect, in the terms that
the statements use. -/

namespace Sys2Proof.Machine

/-! ## Ranges and canonical forms -/

/-- R25: M at most 16,777,215, W below 10,080, S below 60. -/
abbrev Clock.InRange (c : Clock) : Prop := c.m ≤ top24 ∧ c.w < 10080 ∧ c.s < 60

/-- R202: the ALARM pin is driven exactly while a kind is SET, UNMASKED and of severity ALARM. -/
abbrev State.AlarmTrue (s : State) : Prop := s.alarm = s.alarmDue

/-- R154: the records held bear the numbers from the release mark up to the next number, no number is above the
reservation limit or a limit being written, the send cursor lies between, and at most 2048 records are held. -/
structure Journal.Contiguous (j : Journal) : Prop where
  releaseCursor : j.release ≤ j.cursor
  cursorNext : j.cursor ≤ j.next
  nextLimit : j.next ≤ j.limit
  capacity : j.next ≤ j.release + 2048
  numbers : j.ring.map Record.seq = List.range' j.release (j.next - j.release)
  limitRises : ∀ n, j.pendingLimit = some n → j.limit ≤ n

/-- R170: the capacities of the trunk's queues. -/
abbrev Trunk.Bounded (t : Trunk) : Prop :=
  t.classifier.length ≤ 8 ∧ t.downlink.length ≤ 8 ∧ t.passThrough.length ≤ 8 ∧ t.completions.length ≤ 8
    ∧ t.notices.length ≤ 4

/-- R75: no drop's command queue holds more than four commands, the one in delivery counted. -/
abbrev State.QueuesBounded (s : State) : Prop := ∀ e ∈ s.places, e.2.queueLen ≤ 4

/-- R133: no place holds more than twelve compartments. -/
abbrev State.CompsBounded (s : State) : Prop := ∀ e ∈ s.places, e.2.comps.length ≤ 12

/-- R112, R120: a revocation record in use has a drop left to confirm. -/
abbrev State.RecordsOpen (s : State) : Prop := ∀ e ∈ s.revocations, e.2.drops ≠ []

/-- R108, R109: the drop served while a reload runs, and the reload request set, are addresses 1..32, the set ascending. -/
abbrev State.ReloadsInRange (s : State) : Prop :=
  ∀ e ∈ s.segs, (e.2.terminal = false → 1 ≤ e.2.served) ∧ e.2.served ≤ 32 ∧ (∀ a ∈ e.2.requests, 1 ≤ a ∧ a ≤ 32) ∧
    e.2.requests.Pairwise (· < ·)

/-- R205: the dirty blocks are listed in ascending order, each once, so that the first is the lowest. -/
abbrev State.DirtyRising (s : State) : Prop := s.dirty.Pairwise (· < ·)

/-- Every table is in its canonical form. -/
structure State.Canonical (s : State) : Prop where
  creds : Tab.Rising s.creds
  rooms : Tab.Rising s.rooms
  stays : Tab.Rising s.stays
  revocations : Tab.Rising s.revocations
  schedules : Tab.Wf Schedule.absent s.schedules
  zones : Tab.Wf ZoneState.normal s.zones
  places : Tab.Wf Place.reset s.places
  segs : Tab.Wf Segment.reset s.segs
  prices : Tab.Wf (⟨0, 0⟩ : Price) s.prices
  windows : Tab.Wf Window.disabled s.windows
  faults : Tab.Wf FaultRec.clear s.faults
  store : Tab.Wf blankBlock s.store

/-! ## Who holds a credential -/

/-- R115: the states of a directory entry whose removal a lock must confirm: the lock may hold the credential. -/
def DirState.mayHold : DirState → Bool
  | .held | .removing _ => true
  | .adding .carried | .adding .doubtful => true
  | .adding .queued | .adding .owed => false

/-- R115, R116: the drops to confirm when a credential ends, in ascending segment and drop. -/
def State.holders (s : State) (i : Nat) : List Nat :=
  s.placeKeys.filter (fun p =>
    ((s.place p).directory.find? (fun d => d.index == i)).any (fun d => d.state.mayHold))

/-- R109: a reload of a drop has been requested: its engine serves it, or it is in the request set. -/
abbrev State.reloadAsked (s : State) (p : Nat) : Prop :=
  ((s.seg (segOf p)).terminal = false ∧ (s.seg (segOf p)).served = dropOf p) ∨ dropOf p ∈ (s.seg (segOf p)).requests

/-! ## Pending charges -/

/-- R147: every entry of the Pending Charge List names a compartment in state PENDING, and every PENDING compartment stands
at a MINIBAR place and has exactly one entry. -/
structure State.ChargesMatch (s : State) : Prop where
  pending : ∀ x ∈ s.pendingCharges, (s.comp x.place x.compartment).state = .pending
  single : ∀ p c, (s.comp p c).state = .pending → (s.place p).door.isMinibar = true ∧
    ∃ x, s.pendingCharges.filter (State.isCharge p c) = [x]

/-- R136: a stay after charges are committed to it: F rises by their sum and holds at the top, where SATURATED is set. -/
def Stay.charged (x : Stay) (cs : List Charge) : Stay :=
  let sum := (cs.map (fun c => c.amount)).sum
  { x with
    total := if cs = [] then x.total else min top24 (x.total + sum)
    saturated := x.saturated || (!cs.isEmpty && decide (top24 < x.total + sum)) }

/-- The charges of a list that are bound to the stay of one entry; of two entries of one number the lowest (log 52). -/
def State.boundTo (s : State) (i : Nat) (cs : List Charge) : List Charge :=
  cs.filter (fun c => (s.findStay c.stay).map (fun e => e.1) == some i)

/-- R136: from `s` to `t` the charges `cs` are committed to the stays they are bound to, and no other stay changes. -/
structure State.Charged (s t : State) (cs : List Charge) : Prop where
  stays : ∀ i x, Tab.look s.stays i = some x → Tab.look t.stays i = some (x.charged (s.boundTo i cs))
  unused : ∀ i, Tab.look s.stays i = none → Tab.look t.stays i = none
  saturated : ∀ i x, Tab.look s.stays i = some x → s.boundTo i cs ≠ [] →
    top24 < x.total + ((s.boundTo i cs).map (fun c => c.amount)).sum → (t.fault .folioSaturated).set = true

/-- A journal record as a statement about minibar records reads it: kind, place, card, NO_GRACE, FORCED, and the first four
bytes of its detail. -/
abbrev Outline := RecKind × Spot × Option Nat × Bool × Bool × List Byte

def Record.outline (r : Record) : Outline :=
  (r.kind, r.spot, r.card, r.marks.noGrace, r.marks.forced, r.detail.take 4)

/-- R136, R150: the record of a charge committed: MINIBAR_CHARGE, or MINIBAR_UNBILLED where no entry holds its stay, with
the compartment and the amount. -/
def State.chargeOutline (s : State) (noGrace : Bool) (c : Charge) : Outline :=
  let held := (s.findStay c.stay).isSome
  (if held then .minibarCharge else .minibarUnbilled, .drop c.place, c.card, noGrace && held, c.kind == .forced,
    [byte c.compartment] ++ le 3 c.amount)

/-- A RESTORE_FIX record that stands at a drop (R208). -/
def fixOutline (p : Nat) (detail : List Byte) : Outline := (.restoreFix, .drop p, none, false, false, detail)

/-! ## When a command has its own effect -/

/-- READY or READY_WITH_ERRORS: the unit serves requests (R209). -/
abbrev State.Serving (s : State) : Prop := s.status = .ready ∨ s.status = .readyWithErrors

/-- A request is executed: nothing is due, the unit serves, no other request is in progress (R185), no MAP_CONFLICT
(R178), and the destination form is one its kind accepts (R187). -/
structure State.Takes (s : State) (kind : Byte) (q : Request) : Prop where
  settled : s.due = []
  serving : s.Serving
  free : s.request = none ∨ s.request = some ⟨kind, q⟩
  unmapped : s.mapConflict q.form = none
  accepted : formOk kind q.form = true

/-! ## Legal records (what ENROL, LOAD and the part itself put into a table) -/

/-- R1, R2: a credential entry. -/
structure Cred.Legal (c : Cred) : Prop where
  card : 1 ≤ c.card ∧ c.card < 4294967295
  guest : c.guest.isSome = true ↔ c.kind = .guest
  guestRange : ∀ g, c.guest = some g →
    1 ≤ g.room ∧ g.room ≤ 65535 ∧ 1 ≤ g.stay ∧ g.stay ≤ 65535 ∧ 1 ≤ g.generation ∧ g.generation ≤ 65535
  schedule : ∀ n, c.schedule = some n → c.kind = .staff ∧ n ≤ 31
  validity : ∀ v, c.validity = some v → c.kind ≠ .emergency ∧ v.1 ≤ v.2 ∧ v.2 ≤ top24
  guestValidity : c.kind = .guest → c.validity.isSome = true
  restock : c.restock = true → c.kind = .staff
  boltOverride : c.boltOverride = true → c.kind = .master

/-- R42: a door record. -/
abbrev DoorRec.Legal : DoorRec → Prop
  | .unused => True
  | .roomDoor r z u h => (1 ≤ r ∧ r ≤ 65535) ∧ z ≤ 15 ∧ (1 ≤ u ∧ u ≤ 30) ∧ 5 ≤ h ∧ h ≤ 255
  | .commonDoor z sch u h => z ≤ 15 ∧ (∀ n, sch = some n → n ≤ 31) ∧ (1 ≤ u ∧ u ≤ 30) ∧ 5 ≤ h ∧ h ≤ 255
  | .minibar r z h => (1 ≤ r ∧ r ≤ 65535) ∧ z ≤ 15 ∧ 5 ≤ h ∧ h ≤ 255

/-- R176, R177: a room window; its run ends at drop 32. -/
abbrev Window.Legal (w : Window) : Prop :=
  (1 ≤ w.base ∧ w.base ≤ 65535) ∧ 1 ≤ w.count ∧ w.seg ≤ 3 ∧ 1 ≤ w.first ∧ w.first + w.count ≤ 33

/-- R176: a room window as the store may hold it: each field in its range, the run not clamped. -/
abbrev Window.Stored (w : Window) : Prop :=
  (1 ≤ w.base ∧ w.base ≤ 65535) ∧ (1 ≤ w.count ∧ w.count ≤ 128) ∧ w.seg ≤ 3 ∧ 1 ≤ w.first ∧ w.first ≤ 32

/-- R31: one slot of a schedule. -/
abbrev slotLegal (x : Option Interval) : Prop :=
  ∀ i, x = some i → i.start ≤ 10079 ∧ 1 ≤ i.length ∧ i.length ≤ 10080

/-- R31: a schedule. -/
abbrev Schedule.Legal (x : Schedule) : Prop :=
  slotLegal x.slot0 ∧ slotLegal x.slot1 ∧ slotLegal x.slot2 ∧ slotLegal x.slot3

/-- R132: a price entry. -/
abbrev Price.Legal (p : Price) : Prop := p.price ≤ 65535 ∧ p.tax ≤ 5000

/-- R194: the policy. -/
abbrev Policy.Legal (p : Policy) : Prop :=
  p.g ≤ 255 ∧ p.h ≤ 255 ∧ (5 ≤ p.u ∧ p.u ≤ 60) ∧ (1 ≤ p.d ∧ p.d ≤ 255) ∧ 1 ≤ p.e ∧ p.e ≤ 255

/-- R125: a stay entry. -/
structure Stay.Legal (x : Stay) : Prop where
  number : 1 ≤ x.number ∧ x.number ≤ 65535
  room : 1 ≤ x.room ∧ x.room ≤ 65535
  minutes : x.opened ≤ top24 ∧ x.planned ≤ top24
  amounts : x.cap ≤ top24 ∧ x.total ≤ top24
  closed : x.closed.isSome = true ↔ x.isOpen = false
  closedRange : ∀ n, x.closed = some n → n ≤ top24

/-- R18: a room entry. -/
structure Room.Legal (r : Room) : Prop where
  room : 1 ≤ r.room ∧ r.room ≤ 65535
  accepted : r.accepted ≤ 65535
  openStay : ∀ n, r.openStay = some n → 1 ≤ n ∧ n ≤ 65535
  door : ∀ p, r.door = some p → p < 128
  minibar : ∀ p, r.minibar = some p → p < 128

/-- R133: a compartment. -/
abbrev Compartment.Legal (c : Compartment) : Prop := c.price ≤ 255 ∧ c.reversals ≤ 4

/-- R147: a pending charge as the store holds it, without the seconds left. -/
structure Charge.Stored (c : Charge) : Prop where
  place : c.place < 128
  compartment : c.compartment ≤ 11
  stay : 1 ≤ c.stay ∧ c.stay ≤ 65535
  card : ∀ n, c.card = some n → 1 ≤ n ∧ n < 4294967295
  amount : c.amount ≤ 98303
  left : c.left = 0

/-! ## The scheduler, and the verdict -/

/-- R80, R81: `a` is the lowest address above the mark that qualifies, or, where none above it does, the lowest. -/
abbrev isNext (mark : Nat) (f : Nat → Bool) (a : Nat) : Prop :=
  1 ≤ a ∧ a ≤ 32 ∧ f a = true ∧
    ((mark < a ∧ ∀ b, mark < b → b < a → f b = false) ∨
      ((∀ b, mark < b → b ≤ 32 → f b = false) ∧ ∀ b, 1 ≤ b → b < a → f b = false))

/-- R82: the scheduler runs on a segment, and no exchange is under way there. -/
abbrev State.LineFree (s : State) (g : Nat) : Prop :=
  ((s.seg g).line = .inService ∨ (s.seg g).line = .degraded) ∧ (s.seg g).exchange = none

/-- R34: what the time test asks of a credential at a door while the clock is RUNNING. -/
abbrev State.InTime (s : State) (d : DoorRec) (c : Cred) : Prop :=
  (∀ v, c.validity = some v → v.1 ≤ s.clock.m) ∧ (∀ e, s.credEnd c = some e → s.clock.m < e) ∧
    ∀ n, State.scheduleFor d c = some n → (s.schedule n).admits s.clock.w = true

/-- R48, R49: what steps 6 to 13 ask of an ACTIVE credential that is not EMERGENCY. -/
structure State.Allows (s : State) (pl : Place) (c : Cred) : Prop where
  closed : pl.door.isLocked = true → s.zoneOfDoor pl.door = .closed → c.kind = .master
  reach : reaches pl.door c = true
  generation : ∀ r g a, pl.door.room? = some r → c.guest = some g → c.kind = .guest → s.accepted r = some a → a ≤ g.generation
  time : s.clock.state = .running → s.InTime pl.door c
  privacy : ∀ x, pl.door.kindCode = 1 → pl.accepted = some x → x.bolt = true → c.kind = .master ∧ c.boltOverride = true
  audit : s.journal.full = true → s.policy.strictAudit = true → c.kind ≠ .staff ∧ c.kind ≠ .master
  minibar : ∀ r z h g, pl.door = .minibar r z h → c.kind = .guest → c.guest = some g →
    ∃ e, s.openStay r = some e ∧ e.2.number = g.stay ∧ e.2.total < e.2.cap

/-- R47 to R49: a card is let through at a place. -/
def State.Permits (s : State) (p card : Nat) : Prop :=
  (s.place p).door ≠ .unused ∧
    (((s.place p).door.isLocked = true ∧ s.zoneOfDoor (s.place p).door = .released) ∨
      ∃ i c, s.findCard card = some (i, c) ∧ c.state = .active ∧ (c.kind = .emergency ∨ s.Allows (s.place p) c))

/-! ## Rows -/

/-- A consequence is no longer due (log 1). -/
def State.without (s : State) (d : Due) : State := { s with due := s.due.erase d }

end Sys2Proof.Machine

namespace Sys2Proof

open Machine

/-- The rows that carry out one due consequence (log 1). -/
def Instr.consequence : Instr → Option Due
  | .minuteAdvance => some .minuteAdvance
  | .unlockTimeout p => some (.unlockTimeout p.val)
  | .doorHeld p => some (.doorHeld p.val)
  | .graceExpiry p c => some (.graceExpiry p.val c.val)
  | .errorWindowClose g => some (.errorWindow g.val)
  | .retestTimeout g => some (.retest g.val)
  | .missCountSilent p => some (.missSilent p.val)
  | .missCountAbsent p => some (.missAbsent p.val)
  | .terminatorMissesDown g => some (.terminatorDown g.val)
  | .completionEnterQueue => some .completionEnter
  | _ => none

/-- POWER_ON_RESET, which waits for nothing (log 1). -/
def Instr.isPowerOn : Instr → Bool
  | .powerOnReset _ => true
  | _ => false

end Sys2Proof
end

