-- ==== Sys2Proof/WellFormed.lean ====
section
/-! DEFINITION. Which commands the outside can send: a request's payload fits a trunk frame (R171), a room destination
names a room (11.1), a row's payload is the payload of that row's request (11.2), and store contents are whole blocks. -/

namespace Sys2Proof

/-- R171, 11.1: at most 240 payload bytes, and ROOM with room 1..65,535. -/
def Request.ok (q : Request) : Bool :=
  decide (q.payload.length ≤ 240) &&
    match q.form with
    | .room r => decide (1 ≤ r) && decide (r ≤ 65535)
    | _ => true

/-- 11.2, 11.3: a LOAD or FETCH of the table with this id begins with the id. A payload without a first byte belongs to
no table, and every row may carry it. -/
def Request.okTable (q : Request) (id : Byte) : Bool :=
  q.ok && match q.payload with
    | [] => true
    | b :: _ => decide (b = id) || decide (9 < b.toNat)

/-- 11.2: the options byte of ENROL says whether REPLACE is set; the direction byte of SEGMENT SERVICE says which way. -/
def Request.okByte (q : Request) (k : Nat) (p : Byte → Bool) : Bool :=
  q.ok && match q.payload[k]? with
    | none => true
    | some b => p b

/-- 11.7: a block of the table store has 3,072 bytes. -/
def okImage (img : List Byte) : Bool := decide (img.length = 3072)

/-- The well-formed commands. -/
def Instr.wellFormed : Instr → Bool
  | .powerOnReset i => i.changed.all (fun e => decide (e.1 < 83) && okImage e.2)
  | .startUpRestore => true
  | .secondEvent => true
  | .minuteAdvance => true
  | .credentialExpiry _ => true
  | .revocationDeadline _ => true
  | .unlockTimeout _ => true
  | .doorHeld _ => true
  | .graceExpiry _ _ => true
  | .errorWindowClose _ => true
  | .retestTimeout _ => true
  | .normalPoll _ => true
  | .probePoll _ => true
  | .priorityPoll _ => true
  | .testExchange _ => true
  | .responseReceived _ frame => !frame.isEmpty
  | .responseWindowClose _ => true
  | .missCountSilent _ => true
  | .missCountAbsent _ => true
  | .terminatorMissesDown _ => true
  | .frameReceived _ frame => !frame.isEmpty
  | .partnerHold _ _ => true
  | .linkDisconnect _ _ _ => true
  | .linkConnect _ => true
  | .classifyFrame => true
  | .downlinkTransmit => true
  | .uplinkArbitrate => true
  | .completionEnterQueue => true
  | .storeWriteStart => true
  | .storeWriteComplete _ landed => landed.all okImage
  | .unknownRequest kind q => q.ok && (decide (kind = 0#8) || decide (0x12 < kind.toNat))
  | .loadWindows q => q.okTable 0
  | .loadDoors q => q.okTable 1
  | .loadSchedules q => q.okTable 2
  | .loadZones q => q.okTable 3
  | .loadPrices q => q.okTable 4
  | .loadCompartments q => q.okTable 5
  | .loadPolicy q => q.okTable 6
  | .loadCredentials q => q.okTable 7
  | .loadStays q => q.okTable 8
  | .loadRooms q => q.okTable 9
  | .fetchWindows q => q.okTable 0
  | .fetchDoors q => q.okTable 1
  | .fetchSchedules q => q.okTable 2
  | .fetchZones q => q.okTable 3
  | .fetchPrices q => q.okTable 4
  | .fetchCompartments q => q.okTable 5
  | .fetchPolicy q => q.okTable 6
  | .fetchCredentials q => q.okTable 7
  | .fetchStays q => q.okTable 8
  | .fetchRooms q => q.okTable 9
  | .enrol q => q.okByte 0 (fun b => !b.getLsbD 0)
  | .enrolReplace q => q.okByte 0 (fun b => b.getLsbD 0)
  | .withdraw q => q.ok
  | .stayOpen q => q.ok
  | .stayExtend q => q.ok
  | .stayClose q => q.ok
  | .stayPurge q => q.ok
  | .doorOpen q => q.ok
  | .zoneSet q => q.ok
  | .clockSet q => q.ok
  | .journalRelease q => q.ok
  | .journalRewind q => q.ok
  | .segmentTest q => q.ok
  | .segmentServiceOut q => q.okByte 1 (fun b => decide (b ≠ 1))
  | .segmentServiceIn q => q.okByte 1 (fun b => decide (b ≠ 0))
  | .status q => q.ok
  | .faultClear q => q.ok
  | .restart q => q.ok

/-- The rows that are requests: the kind byte that the row's frame carries (11.2), and the request. -/
def Instr.asRequest : Instr → Option (Byte × Request)
  | .powerOnReset _ => none
  | .startUpRestore => none
  | .secondEvent => none
  | .minuteAdvance => none
  | .credentialExpiry _ => none
  | .revocationDeadline _ => none
  | .unlockTimeout _ => none
  | .doorHeld _ => none
  | .graceExpiry _ _ => none
  | .errorWindowClose _ => none
  | .retestTimeout _ => none
  | .normalPoll _ => none
  | .probePoll _ => none
  | .priorityPoll _ => none
  | .testExchange _ => none
  | .responseReceived _ _ => none
  | .responseWindowClose _ => none
  | .missCountSilent _ => none
  | .missCountAbsent _ => none
  | .terminatorMissesDown _ => none
  | .frameReceived _ _ => none
  | .partnerHold _ _ => none
  | .linkDisconnect _ _ _ => none
  | .linkConnect _ => none
  | .classifyFrame => none
  | .downlinkTransmit => none
  | .uplinkArbitrate => none
  | .completionEnterQueue => none
  | .storeWriteStart => none
  | .storeWriteComplete _ _ => none
  | .unknownRequest kind q => some (kind, q)
  | .loadWindows q => some (0x01#8, q)
  | .loadDoors q => some (0x01#8, q)
  | .loadSchedules q => some (0x01#8, q)
  | .loadZones q => some (0x01#8, q)
  | .loadPrices q => some (0x01#8, q)
  | .loadCompartments q => some (0x01#8, q)
  | .loadPolicy q => some (0x01#8, q)
  | .loadCredentials q => some (0x01#8, q)
  | .loadStays q => some (0x01#8, q)
  | .loadRooms q => some (0x01#8, q)
  | .fetchWindows q => some (0x02#8, q)
  | .fetchDoors q => some (0x02#8, q)
  | .fetchSchedules q => some (0x02#8, q)
  | .fetchZones q => some (0x02#8, q)
  | .fetchPrices q => some (0x02#8, q)
  | .fetchCompartments q => some (0x02#8, q)
  | .fetchPolicy q => some (0x02#8, q)
  | .fetchCredentials q => some (0x02#8, q)
  | .fetchStays q => some (0x02#8, q)
  | .fetchRooms q => some (0x02#8, q)
  | .enrol q => some (0x03#8, q)
  | .enrolReplace q => some (0x03#8, q)
  | .withdraw q => some (0x04#8, q)
  | .stayOpen q => some (0x05#8, q)
  | .stayExtend q => some (0x06#8, q)
  | .stayClose q => some (0x07#8, q)
  | .stayPurge q => some (0x08#8, q)
  | .doorOpen q => some (0x09#8, q)
  | .zoneSet q => some (0x0A#8, q)
  | .clockSet q => some (0x0B#8, q)
  | .journalRelease q => some (0x0C#8, q)
  | .journalRewind q => some (0x0D#8, q)
  | .segmentTest q => some (0x0E#8, q)
  | .segmentServiceOut q => some (0x0F#8, q)
  | .segmentServiceIn q => some (0x0F#8, q)
  | .status q => some (0x10#8, q)
  | .faultClear q => some (0x11#8, q)
  | .restart q => some (0x12#8, q)

end Sys2Proof
end

