-- ==== Sys2Proof/Certificates/Slice0/Obligations.lean ====
section
/-! DEFINITION. The statements about the concentrator, each a closed proposition. A statement about an ordinary command is
made for a settled state, one in which nothing is due (`s.due = []`); `DueWorkFirst` carries it to every other state. -/

open Sys2Proof Sys2Proof.Machine

/-! ## The queue of commands, and every command -/

/-- The command at the front of the queue is taken, with the queue's rest in place; with none waiting the block idles
(the model's choice, log 3). -/
def Obligations.StepTakesTheFront : Prop :=
  (∀ (c : Instr) (s : State) (rest : List Instr), s.pending = c :: rest → step s = exec c { s with pending := rest }) ∧
  ∀ s : State, s.pending = [] → step s = .next s

/-- Every command, legal or not, is answered by a next state in every state, and none touches the queue (log 35). -/
def Obligations.EveryCommandIsAnswered : Prop :=
  ∀ (c : Instr) (s : State), ∃ t, exec c s = .next t ∧ t.pending = s.pending

/-- The model's choice of log 1: what a second event or a missed poll has made due is carried out before any other
command takes effect, POWER_ON_RESET and the rows that are such consequences excepted; carrying it out leaves nothing
due, and does nothing where nothing is due. -/
def Obligations.DueWorkFirst : Prop :=
  (∀ (c : Instr) (s : State), c.consequence = none → c.isPowerOn = false → exec c s = exec c s.settle) ∧
  (∀ s : State, s.settle.due = []) ∧ ∀ s : State, s.due = [] → s.settle = s

/-! ## What every step keeps -/

/-- R25: M stays within 0..16,777,215, W within 0..10,079 and S within 0..59. -/
def Obligations.ClockStaysInRange : Prop :=
  ∀ s t : State, s.clock.InRange → step s = .next t → t.clock.InRange

/-- R202: the ALARM pin is driven exactly while some kind is SET, UNMASKED and of severity ALARM. -/
def Obligations.AlarmFollowsFaults : Prop :=
  ∀ s t : State, Tab.Wf FaultRec.clear s.faults → s.AlarmTrue → step s = .next t →
    Tab.Wf FaultRec.clear t.faults ∧ t.AlarmTrue

/-- R154: the held records bear the numbers from the release mark up to the next number, one each and in order; at
most 2048 are held; the cursor lies between; no number reaches past the reservation limit. -/
def Obligations.JournalStaysContiguous : Prop :=
  ∀ s t : State, s.journal.Contiguous → step s = .next t → t.journal.Contiguous

/-- R75, R170: no queue of the trunk outgrows its places, and no drop's command queue outgrows four commands. -/
def Obligations.QueuesStayBounded : Prop :=
  (∀ s t : State, s.trunk.Bounded → step s = .next t → t.trunk.Bounded) ∧
  ∀ s t : State, s.QueuesBounded → step s = .next t → t.QueuesBounded

/-- R108, R109, R112, R120: a revocation record in use always has a drop left to confirm; a push engine serves a drop
of 1..32 while it is not terminal, and its request set holds addresses 1..32. That the engine's range holds rests on
where the model keeps the engine at its terminal state (log 22). -/
def Obligations.CacheWorkStaysInRange : Prop :=
  (∀ s t : State, s.RecordsOpen → step s = .next t → t.RecordsOpen) ∧
  ∀ s t : State, s.Canonical → s.ReloadsInRange → step s = .next t → t.ReloadsInRange

/-- Every table keeps its canonical form, so that equal tables are equal data; the canonical form is the model's own.
The list of dirty blocks stays strictly ascending, so that its head is the lowest block (R205). No place comes to hold
more than twelve compartments (R133), and while that holds the Pending Charge List and the compartments match (R147):
each entry names a PENDING compartment, and each PENDING compartment stands at a MINIBAR and has exactly one entry. -/
def Obligations.TablesStayCanonical : Prop :=
  (∀ s t : State, s.Canonical → step s = .next t → t.Canonical) ∧
  (∀ s t : State, s.DirtyRising → step s = .next t → t.DirtyRising) ∧
  (∀ s t : State, s.CompsBounded → step s = .next t → t.CompsBounded) ∧
  ∀ s t : State, s.Canonical → s.CompsBounded → s.ChargesMatch → step s = .next t → t.ChargesMatch

/-- The state after power-on reset meets every invariant stated above, the ascending dirty list, the bound of R133 and
the matching charges (R147) among them. It rests on reset values that the model chose where the spec gives none (log
8). -/
def Obligations.ResetMeetsTheInvariants : Prop :=
  State.reset.clock.InRange ∧ Tab.Wf FaultRec.clear State.reset.faults ∧ State.reset.AlarmTrue
    ∧ State.reset.journal.Contiguous ∧ State.reset.trunk.Bounded ∧ State.reset.QueuesBounded ∧ State.reset.RecordsOpen
    ∧ State.reset.ReloadsInRange ∧ State.reset.Canonical ∧ State.reset.DirtyRising ∧ State.reset.CompsBounded ∧
    State.reset.ChargesMatch

/-! ## Encodings -/

/-- R211: a frame's check, sent low byte first after the bytes it covers, brings the computation to 0. -/
def Obligations.ChecksEndAtZero : Prop := ∀ bs : List Byte, crcOk (bs ++ checkBytes (crc bs)) = true

/-- R171, R179, R211: a frame with a right check, a payload of at most 240 bytes and a destination its port takes is
good, and is read as it was built; one whose destination UPLINK does not take is not. A good frame is passed on with
the very bytes that arrived. A frame with a wrong check, with a length byte above 240, or whose size is not its length
byte's is no good frame: bytes behind the second check byte make the reception one bad frame, the model's choice (log
24). -/
def Obligations.FramesPassUnchanged : Prop :=
  (∀ (port : Port) (dest : Byte) (room : Nat) (source kind tag : Byte) (payload : List Byte), room ≤ 65535 →
    payload.length ≤ 240 →
    let body := frameBody dest room source kind tag payload
    readFrame port (frameWith body (crc body)) =
      if destOk port dest room then some ⟨dest, room, source, kind, tag, payload, crc body⟩ else none) ∧
  (∀ (port : Port) (bs : List Byte) (f : TrunkFrame),
    bs.head? = some 0xA5#8 → readFrame port bs = some f → f.bytes = bs) ∧
  ∀ (port : Port) (bs : List Byte),
    crcOk (bs.drop 1) = false ∨ (∀ n, bs[7]? = some n → 240 < n.toNat ∨ bs.length ≠ n.toNat + 10) →
    readFrame port bs = none

/-- A credential record reads back as the entry it was written from, whatever bytes follow it; an EMPTY entry reads
back as EMPTY. -/
def Obligations.CredentialRecordsReadBack : Prop :=
  (∀ (c : Cred) (rest : List Byte), c.Legal → parse readCred storedCred (credBytes (some c) ++ rest) = some (some c)) ∧
  ∀ rest : List Byte, parse readCred storedCred (credBytes none ++ rest) = some none

/-- The records of every other table, and the store's pending charges, read back as the entry they were written from.
R204, R207: a block never written or erased reads BLANK, another GOOD with a right checksum and BAD with a wrong one.
A block read BLANK or BAD is noted, marked dirty, and changes no table, a BAD one giving STORE_BLOCK_BAD; a GOOD one
restores each entry that its bytes hold a legal record of, as stored: a window keeps a count whose run passes drop 32
(R176), which only LOAD WINDOWS clamps. A record that is not legal restores as a free value, and a door record without
its unlock seconds or held limit with their defaults: the model's choices (log 10). -/
def Obligations.TableRecordsReadBack : Prop :=
  (∀ (d : DoorRec) (rest : List Byte), d.Legal → parse readDoor checkDoor (doorBytes d ++ rest) = some d) ∧
  (∀ (w : Window) (rest : List Byte), w.Legal → parse readWindow checkWindow (windowBytes w ++ rest) = some w) ∧
  (∀ (w : Window) (rest : List Byte), w.Stored → parse readWindow storedWindow (windowBytes w ++ rest) = some w) ∧
  (∀ (x : Schedule) (rest : List Byte), x.Legal →
    parse readSchedule checkSchedule (scheduleBytes x ++ rest) = some x) ∧
  (∀ (z : ZoneState) (rest : List Byte), parse readZone checkZone (zoneBytes z ++ rest) = some z) ∧
  (∀ (p : Price) (rest : List Byte), p.Legal → parse readPrice checkPrice (priceBytes p ++ rest) = some p) ∧
  (∀ (p : Policy) (rest : List Byte), p.Legal → parse readPolicy checkPolicy (policyBytes p ++ rest) = some p) ∧
  (∀ (x : Stay) (rest : List Byte), x.Legal → parse readStayFull storedStay (stayBytes (some x) ++ rest) = some (some x)) ∧
  (∀ (r : Room) (rest : List Byte), r.Legal → parse readRoom storedRoom (roomBytes (some r) ++ rest) = some (some r)) ∧
  (∀ (cs : List Compartment) (rest : List Byte), cs.length = 12 → (∀ c ∈ cs, c.Legal) →
    parse readComps storedComps (0#8 :: cs.flatMap compBytes ++ rest) = some cs) ∧
  (∀ (c : Charge) (rest : List Byte), c.Stored → parse readCharge storedCharge (chargeBytes c ++ rest) = some c) ∧
  (∀ (s : State) (b : Nat), (s.storeBlock b = none → s.readBlock b = .blank) ∧
    ∀ img, s.storeBlock b = some img → (img = blankBlock → s.readBlock b = .blank) ∧
      (img ≠ blankBlock → checksumOk img = true → s.readBlock b = .good img) ∧
      (img ≠ blankBlock → checksumOk img = false → s.readBlock b = .bad)) ∧
  (∀ (s : State) (b : Nat), s.Canonical → (s.readBlock b = .blank ∨ s.readBlock b = .bad) → let t := s.restoreOne b
    b ∈ t.dirty ∧ t.notes = s.notes ++ [⟨4, if s.readBlock b = .blank then .blank else .blockBad⟩] ∧
    (s.readBlock b = .bad → (t.fault .storeBlockBad).set = true) ∧
    t = { s with
      dirty := t.dirty, writer := t.writer, notes := t.notes, faults := t.faults, alarm := t.alarm
      trunk := { s.trunk with notices := t.trunk.notices } }) ∧
  ∀ (s : State) (b : Nat) (img : List Byte), s.Canonical → s.readBlock b = .good img → let t := s.restoreOne b
    let field (size i : Nat) : List Byte := (img.drop (i * size)).take size
    (∀ p, b = 2 → parse readPolicy checkPolicy (field 6 0) = some p → t = { s with policy := p }) ∧
    (∀ i x, b = 3 → i < 16 → parse readZone checkZone (field 1 i) = some x → t.zone i = x) ∧
    (∀ i x, b = 4 → i < 32 → parse readSchedule checkSchedule (field 20 i) = some x → t.schedule i = x) ∧
    (∀ i x, b = 5 → i < 16 → parse readWindow storedWindow (field 6 i) = some x → t.window i = x) ∧
    (∀ i x, 6 ≤ b → b < 10 → i < 64 → parse readPrice checkPrice (field 4 i) = some x → t.price (64 * (b - 6) + i) = x) ∧
    (∀ i x, b = 10 ∨ b = 11 → i < 64 → parse readDoor checkDoor ((field 44 i).take 7) = some x →
      (t.place (64 * (b - 10) + i)).door = x ∧
      ∀ cs, x.isMinibar = true → parse readComps storedComps ((field 44 i).drop 7) = some cs →
        (t.place (64 * (b - 10) + i)).comps = cs) ∧
    (∀ i x, b = 12 ∨ (b = 13 ∧ i < 32) → i < 64 → Tab.look s.rooms (64 * (b - 12) + i) = none →
      parse readRoom storedRoom (field 12 i) = some x → Tab.look t.rooms (64 * (b - 12) + i) = x) ∧
    (∀ i x, 14 ≤ b → b < 18 → i < 64 → Tab.look s.stays (64 * (b - 14) + i) = none →
      parse readStayFull storedStay (field 21 i) = some x → Tab.look t.stays (64 * (b - 14) + i) = x) ∧
    (∀ cs : List Charge, b = 18 → img.head? = some (byte cs.length) → cs.length ≤ 64 →
      (∀ i c, cs[i]? = some c → parse readCharge storedCharge (((img.drop 1).drop (i * 14)).take 14) = some c) →
      t.pendingCharges = cs) ∧
    (∀ i x, 19 ≤ b → b < 83 → i < 64 → s.cred (64 * (b - 19) + i) = none →
      parse readCred storedCred (field 22 i) = some x → t.cred (64 * (b - 19) + i) = x)

/-! ## The Fault Unit and the Entry Journal -/

/-- R202: an occurrence of a kind found CLEAR and of one found SET; no other kind's record changes, and nothing but
the fault records, the pin and the notice queue does. A unit numbered 0 builds no notice, and a fifth notice is
discarded. -/
def Obligations.FaultOccurrence : Prop :=
  ∀ (s : State) (k : FaultKind) (detail : List Byte), Tab.Rising s.faults →
    let r := s.fault k
    let t := s.giveFault k detail
    let built := r.set = false ∧ r.masked = false ∧ s.trunk.unitNumber ≠ 0 ∧ s.trunk.notices.length < 4
    t = { s with faults := t.faults, alarm := t.alarm, trunk := { s.trunk with notices := t.trunk.notices } } ∧
    t.fault k = (if r.set then { r with occurrences := min 255 (r.occurrences + 1) }
      else { r with set := true, detail := some detail, occurrences := 1 }) ∧
    (∀ j, j ≠ k → t.fault j = s.fault j) ∧
    (built → t.trunk.notices = s.trunk.notices ++ [⟨k, s.severity k, detail, s.clock.m, s.clock.s⟩]) ∧
    (¬built → t.trunk.notices = s.trunk.notices) ∧
    (r.set = false → t.AlarmTrue) ∧ (r.set = true → t.alarm = s.alarm)

/-- R155, R156, R165, R153: a record that can be stored takes the next number and joins the ring, and one that cannot
is counted in the gap; nothing stored leaves the ring. It carries UNTIMED as its writer says, while the clock is
UNSET, and where its time lies before the set point. A stored record that brings the next number within 128 of the
limit, with no limit pending and the limit below 2^40, sets the pending limit 256 further, at most 2^40, and makes the
copy to write dirty. JOURNAL_FULL is given exactly where 2048 records are then held; that it is given where the next
number also stands at the limit is the model's choice (log 43). -/
def Obligations.RecordsAreNumbered : Prop :=
  ∀ (s : State) (d : Draft),
    (s.journal.storable = true →
      (s.handOver d).journal.ring = s.journal.ring ++ [s.stamp d] ∧
      (s.handOver d).journal.next = s.journal.next + 1 ∧
      (s.handOver d).journal.gap = s.journal.gap ∧
      (s.handOver d).journal.numbering = (if s.journal.next + 1 = seqEnd then .ended else s.journal.numbering)) ∧
    (s.journal.storable = false →
      (s.handOver d).journal = { s.journal with gap := min 65535 (s.journal.gap + 1) }) ∧
    (s.stamp d).seq = s.journal.next ∧
    ((s.stamp d).marks.untimed = true ↔ d.marks.untimed = true ∨ s.clock.state = .unset ∨
      ∃ m sec sp, d.time = some (m, sec) ∧ s.journal.setPoint = some sp ∧ m * 60 + sec < sp) ∧
    (s.journal.storable = true →
      let isDue := s.journal.pendingLimit = none ∧ s.journal.limit ≤ s.journal.next + 129 ∧ s.journal.limit < seqEnd
      (isDue → (s.handOver d).journal.pendingLimit = some (min (s.journal.limit + 256) seqEnd) ∧
        s.journal.copyToWrite ∈ (s.handOver d).dirty) ∧
      (¬isDue → (s.handOver d).journal.pendingLimit = s.journal.pendingLimit ∧ (s.handOver d).dirty = s.dirty)) ∧
    (Tab.Rising s.faults →
      let isFull := (if s.journal.storable then s.journal.held + 1 else s.journal.held) = 2048
      (isFull → ((s.handOver d).fault .journalFull).set = true) ∧
      (¬isFull → (s.handOver d).fault .journalFull = s.fault .journalFull))

/-- R158: a record stored while 1536 or more are then held gives fault JOURNAL_HIGH; fewer held, and a record that is
not stored, give none; a release that brings the held count below 1536 leaves the fault's record as it stands. -/
def Obligations.JournalHighFault : Prop :=
  (∀ (s : State) (d : Draft), Tab.Rising s.faults → s.journal.storable = true →
    (s.handOver d).fault .journalHigh =
      if 1536 ≤ s.journal.held + 1 then
        (if (s.fault .journalHigh).set then
          { s.fault .journalHigh with occurrences := min 255 ((s.fault .journalHigh).occurrences + 1) }
         else { s.fault .journalHigh with
          set := true, detail := some (le 2 (s.journal.held + 1) ++ [0#8]), occurrences := 1 })
      else s.fault .journalHigh) ∧
  (∀ (s : State) (d : Draft), Tab.Rising s.faults → s.journal.storable = false →
    (s.handOver d).fault .journalHigh = s.fault .journalHigh) ∧
  ∀ (s : State) (n : Nat), Tab.Rising s.faults → (s.releaseTo n).journal.held < 1536 →
    (s.releaseTo n).fault .journalHigh = s.fault .journalHigh

/-! ## Reset and start-up -/

/-- R206, R210, R167: what POWER_ON_RESET leaves, whatever stood before. R210 gives the statuses, the tables and the
counters. The model's are: that both partners' hold is NO and the transmit lists are empty, and the model's own fields
of the trunk (log 8); that the row ends before the reservation attempt, with the order of the start-up notes (log 31);
that the straps, the memory passes, the links and the store's contents are the command's operands (log 12); and that a
good copy that holds no limit is a free value (log 10). -/
def Obligations.PowerOnReset : Prop :=
  ∀ (i : PowerOn) (s : State), ∃ t, exec (.powerOnReset i) s = .next t ∧
    t.clock = ⟨0, 0, 0, .unset⟩ ∧
    t.creds = [] ∧ t.rooms = [] ∧ t.schedules = [] ∧ t.zones = [] ∧ t.places = [] ∧ t.segs = [] ∧ t.revocations = [] ∧
    t.stays = [] ∧ t.prices = [] ∧ t.pendingCharges = [] ∧ t.windows = [] ∧ t.policy = Policy.default ∧
    t.request = none ∧ t.startRecord = none ∧ t.due = [] ∧ t.pending = s.pending ∧
    t.trunk = { State.reset.trunk with
      upLink := i.uplink, downLink := i.downlink, unitNumber := i.straps.val, notices := t.trunk.notices } ∧
    (t.fault .clockUnset).set = true ∧ t.journal.ring = [] ∧ t.store = State.storeAfter s.store i.changed ∧
    (i.failedPasses.val = 4 → t.status = .bypass ∧ t.bypassStage = some 2) ∧
    (i.failedPasses.val ≠ 4 → i.straps.val = 0 → t.status = .bypass ∧ t.bypassStage = some 3) ∧
    (i.failedPasses.val ≠ 4 → i.straps.val ≠ 0 →
      let a := copyValue (t.readBlock 0)
      let b := copyValue (t.readBlock 1)
      let l := max (a.getD 0) (b.getD 0)
      t.status = .starting ∧ t.bypassStage = none ∧
      t.journal.release = l ∧ t.journal.cursor = l ∧ t.journal.next = l ∧ t.journal.limit = l ∧
      (a = none ∧ b = none → t.journal.numbering = .halted ∧ t.firstAttempt = .notNeeded) ∧
      (¬(a = none ∧ b = none) → l = seqEnd → t.journal.numbering = .ended ∧ t.firstAttempt = .notNeeded) ∧
      (¬(a = none ∧ b = none) → l ≠ seqEnd → t.journal.numbering = .openNumbers ∧ t.firstAttempt = .awaited ∧
        t.journal.pendingLimit = some (min (l + 256) seqEnd)))

/-- R207 to R209, R23: START_UP_RESTORE ends start-up: READY or READY_WITH_ERRORS with its start-up record, all four
segments at the beginning of a line test. It restores blocks 2 to 82 in order (each block: TableRecordsReadBack) and
reconciles in seven parts: of the entries of one card the one R23 keeps stays and the others are emptied; of the OPEN
stays of one room the latest stays open; a room's open stay field names an OPEN stay, and each OPEN stay's room has
one; each named room has an entry where one is unused (created: generation 0, no stay), no entry is left that nothing
needs, doors and minibars are recomputed; a GUEST entry below its room's generation becomes SUPERSEDED; each charge is
noted and committed in list order to its stay, whose total rises, then each PENDING compartment without a charge is
noted, all PENDING ones become EMPTY and none is left; each lock is cache-suspect, and owed a HOLD_OPEN where its zone
is RELEASED. Each change of the first six parts is noted by a RESTORE_FIX with its code, the room and the entries
named. Before the first reservation attempt has ended, or outside STARTING, it changes nothing (log 7). The model's
choices: the split in two commands and the order of notes of one stage (log 31), the entries a RESTORE_FIX names (log
32), the order of the fixes within parts 2, 3, 5 and 6, and so which OPEN stay gets the last unused room entry (log
61), the rooms' order (log 21), all revocations before the emptying (log 29), a field naming another room's OPEN stay
(log 49), two entries of one number (log 38, log 52). -/
def Obligations.StartUpEnds : Prop :=
  (∀ s : State, s.due = [] → s.Canonical → s.status = .starting → s.attemptEnded = true →
    ∃ t, exec .startUpRestore s = .next t ∧
      (t.notes = [] → t.status = .ready ∧ t.startRecord = s.startRecord) ∧
      (t.notes ≠ [] → t.status = .readyWithErrors ∧ (t.fault .startErrors).set = true ∧
        ∃ n ∈ t.notes, (∀ m ∈ t.notes, n.stage ≤ m.stage) ∧
          t.startRecord = some ⟨n.stage, n.code, min 255 t.notes.length⟩) ∧
      (∀ g, g < 4 → (t.seg g).line = .testing ∧ (t.seg g).test = some ⟨1, 1, 0, .none, false⟩) ∧
      t.pendingCharges = [] ∧
      t.clock = s.clock ∧ t.store = s.store ∧ t.request = s.request ∧ t.due = [] ∧ t.pending = s.pending ∧
      t.trunk = { s.trunk with notices := t.trunk.notices }) ∧
  (∀ s : State, s.due = [] → s.status ≠ .starting ∨ s.attemptEnded = false → exec .startUpRestore s = .next s) ∧
  (∀ s : State, s.due = [] → s.status = .starting → s.attemptEnded = true →
    let r := ((List.range 81).map (fun i => i + 2)).foldl State.restoreOne s
    let u := (((((r.fixDuplicates).fixStays).fixFields).fixRooms).fixStale).fixPending
    exec .startUpRestore s = .next
      (((List.range 4).foldl (fun s g => s.enterTesting g) (u.placeKeys.foldl State.startMarks u).unitStart).finishStart)) ∧
  (∀ (s : State) (n i : Nat), s.Canonical → s.keeper n = some i → ∃ c, s.cred i = some c ∧ c.card = n ∧
    ((c.state = .active ∧ ∀ j d, j < i → s.cred j = some d → d.card = n → d.state ≠ .active) ∨
      ((∀ j d, s.cred j = some d → d.card = n → d.state ≠ .active) ∧
        ∀ j d, j < i → s.cred j = some d → d.card ≠ n))) ∧
  (∀ s : State, s.Canonical → let t := s.fixDuplicates
    (∀ i c, s.cred i = some c → t.cred i = if s.keeper c.card = some i then some c else none) ∧
    ∀ i j c d, t.cred i = some c → t.cred j = some d → c.card = d.card → i = j) ∧
  (∀ s : State, s.Canonical → let t := s.fixStays
    (∀ i x, Tab.look s.stays i = some x →
      let beaten := ∃ j y, Tab.look s.stays j = some y ∧ y.isOpen = true ∧ y.room = x.room ∧
        (x.opened < y.opened ∨ (y.opened = x.opened ∧ i < j))
      (x.isOpen = true → beaten →
        Tab.look t.stays i = some { x with isOpen := false, closed := some s.clock.m }) ∧
      (x.isOpen = false ∨ ¬beaten → Tab.look t.stays i = some x)) ∧
    ∀ i j x y, Tab.look t.stays i = some x → Tab.look t.stays j = some y → x.isOpen = true → y.isOpen = true →
      x.room = y.room → i = j) ∧
  (∀ s : State, s.Canonical → let t := s.fixFields
    (∀ e ∈ t.rooms, ∀ n, e.2.openStay = some n →
      ∃ x ∈ t.stays, x.2.isOpen = true ∧ x.2.number = n ∧ x.2.room = e.2.room) ∧
    (∀ e ∈ t.stays, e.2.isOpen = true → ∃ i r n, t.findRoom e.2.room = some (i, r) ∧ r.openStay = some n)) ∧
  (∀ s : State, s.Canonical → let t := s.fixRooms
    (∀ p r, (t.place p).door.room? = some r → t.findRoom r ≠ none ∨ Tab.lowestFree t.rooms 96 = none) ∧
    (∀ e ∈ t.rooms, (t.roomNamed e.2.room = true ∨ e.2.openStay ≠ none) ∧
      e.2.door = t.roomPlace 1 e.2.room ∧ e.2.minibar = t.roomPlace 3 e.2.room) ∧
    ∀ i e, Tab.look s.rooms i = some e → s.roomNamed e.room = true ∨ e.openStay ≠ none →
      ∃ x, Tab.look t.rooms i = some x ∧ x.room = e.room ∧ x.accepted = e.accepted ∧ x.openStay = e.openStay) ∧
  (∀ s : State, s.Canonical → ∀ i c, s.cred i = some c →
    let stale := c.state = .active ∧ c.kind = .guest ∧
      ∃ g a, c.guest = some g ∧ s.accepted g.room = some a ∧ g.generation < a
    (stale → s.fixStale.cred i = some { c with state := .superseded }) ∧ (¬stale → s.fixStale.cred i = some c)) ∧
  (∀ s : State, s.Canonical → let t := s.fixPending
    let cs := s.pendingCharges
    let orphans (p : Nat) : List Nat := (List.range 12).filter (fun c =>
      (s.comp p c).state == .pending && !cs.any (State.isCharge p c))
    t.pendingCharges = [] ∧ (∀ p c, c < 12 → (t.comp p c).state ≠ .pending) ∧ s.Charged t cs ∧
    (∀ p c, c < 12 → (s.comp p c).state = .pending →
      t.comp p c = { s.comp p c with state := .empty, reversals := 0 }) ∧
    (t.journal.storable = true → ∃ added, t.journal.ring = s.journal.ring ++ added ∧
      added.map Record.outline = cs.flatMap (fun c =>
          [fixOutline c.place ([6#8, byte c.compartment] ++ le 2 c.stay), s.chargeOutline true c]) ++
        s.placeKeys.flatMap (fun p => (orphans p).map (fun c => fixOutline p [7#8, byte c]))) ∧
    t = { s with
      stays := t.stays, places := t.places, pendingCharges := t.pendingCharges, journal := t.journal
      trunk := { s.trunk with notices := t.trunk.notices }, faults := t.faults, alarm := t.alarm, dirty := t.dirty
      writer := t.writer }) ∧
  (∀ (s : State) (e : Nat × Cred), s.fixDuplicates =
      (let ls := s.creds.filter (fun e => s.keeper e.2.card != some e.1)
       ls.foldl State.emptyLoser (ls.foldl (fun s e => s.revoke e.1 .replace) s)) ∧
    (∀ k, s.keeper e.2.card = some k → s.emptyLoser e =
      (s.emptyCred e.1).log .restoreFix .unit ([0#8] ++ le 2 e.1 ++ le 2 k)) ∧
    s.fixStale = (s.creds.filter (fun e => s.isStale e.2)).foldl State.supersedeStale s ∧
    s.supersedeStale e = (s.log .restoreFix (match e.2.guest with
      | some g => .room g.room
      | none => .unit) ([5#8] ++ le 2 e.1)).revoke e.1 .supersede) ∧
  (∀ (s : State) (i : Nat) (x : Stay), s.Canonical → let closed := s.closeByFix (i, x)
    s.fixStays = (s.stays.filter (fun e => e.2.isOpen && s.outdone e.1 e.2)).foldl State.closeByFix s ∧
    closed = (s.setStay i { x with isOpen := false, closed := some s.clock.m }).log .restoreFix (.room x.room)
      ([1#8] ++ le 2 x.number ++ le 2 x.room) ∧
    s.fixFields = (let u := s.rooms.foldl State.dropField s
      u.stays.foldl State.giveField u) ∧
    (x.isOpen = false ∨ s.roomOccupied x.room = true → s.giveField (i, x) = s) ∧
    (x.isOpen = true → s.findRoom x.room = none → Tab.lowestFree s.rooms 96 = none → s.giveField (i, x) = closed) ∧
    (∀ j y, x.isOpen = true → s.findRoom x.room = some (j, y) → y.openStay = none → s.giveField (i, x) =
      (s.setRoom j { y with openStay := some x.number }).log .restoreFix (.room x.room)
        ([2#8] ++ le 2 x.room ++ le 2 x.number)) ∧
    ∀ j, x.isOpen = true → s.findRoom x.room = none → Tab.lowestFree s.rooms 96 = some j →
      let u := s.giveField (i, x)
      Tab.look u.rooms j = some ⟨x.room, 0, some x.number, s.roomPlace 1 x.room, s.roomPlace 3 x.room⟩ ∧
      (∀ k, k ≠ j → Tab.look u.rooms k = Tab.look s.rooms k) ∧ u.stays = s.stays ∧
      (s.journal.storable = true → ∃ m, u.journal.ring = s.journal.ring ++ [m] ∧ m.kind = .restoreFix ∧
        m.spot = .room x.room ∧ m.detail = [2#8] ++ le 2 x.room ++ le 2 x.number)) ∧
  (∀ (s : State) (i : Nat) (x : Room), s.Canonical →
    (∀ n, x.openStay = some n → (∀ e ∈ s.stays, ¬(e.2.isOpen = true ∧ e.2.number = n ∧ e.2.room = x.room)) →
      s.dropField (i, x) = (s.setRoom i { x with openStay := none }).log .restoreFix (.room x.room)
        ([2#8] ++ le 2 x.room ++ le 2 n)) ∧
    (x.openStay = none ∨ (∃ e ∈ s.stays, e.2.isOpen = true ∧ x.openStay = some e.2.number ∧ e.2.room = x.room) →
      s.dropField (i, x) = s) ∧
    s.fixRooms = (let u := s.rooms.foldl State.removeUnnamed s
      (u.placeKeys.foldl State.createNamed u).recomputeRooms) ∧
    ((∀ p, (s.place p).door.room? ≠ some x.room) → x.openStay = none →
      s.removeUnnamed (i, x) = (s.clearRoom i).log .restoreFix (.room x.room) ([4#8] ++ le 2 x.room)) ∧
    ((∃ p, (s.place p).door.room? = some x.room) ∨ x.openStay ≠ none → s.removeUnnamed (i, x) = s)) ∧
  (∀ (s : State) (p : Nat), s.Canonical →
    ((s.place p).door.room? = none → s.createNamed p = s) ∧
    ∀ r, (s.place p).door.room? = some r →
      (s.findRoom r ≠ none ∨ Tab.lowestFree s.rooms 96 = none → s.createNamed p = s) ∧
      ∀ j, s.findRoom r = none → Tab.lowestFree s.rooms 96 = some j → s.createNamed p =
        (s.setRoom j ⟨r, 0, none, s.roomPlace 1 r, s.roomPlace 3 r⟩).log .restoreFix (.room r) ([3#8] ++ le 2 r)) ∧
  ∀ (s : State) (p : Nat), s.Canonical → (s.placeKeys.foldl State.startMarks s).place p =
    if (s.place p).door.isLocked = true then
      { s.place p with
        suspect := true, mark := if s.zoneOfDoor (s.place p).door = .released then .holdOwed else .none }
    else s.place p

/-! ## The clock and what follows it -/

/-- R26, R56, R58, R97, R148: the counts of a second event, and what it makes due. That what runs out is held as due
until it is carried out is the model's form (log 1). -/
def Obligations.SecondEventCounts : Prop :=
  ∀ s : State, s.due = [] → s.Canonical → ∃ t, exec .secondEvent s = .next t ∧
    t.clock = { s.clock with s := (s.clock.s + 1) % 60 } ∧
    (∀ p, t.place p =
      if (s.place p).doorState = .unlocked then { s.place p with unlockLeft := (s.place p).unlockLeft - 1 }
      else if ((s.place p).doorState = .openGranted ∨ (s.place p).doorState = .openForced) ∧ (s.place p).holding = false then
        { s.place p with openElapsed := (s.place p).openElapsed + 1 }
      else s.place p) ∧
    t.pendingCharges = s.pendingCharges.map (fun c => { c with left := c.left - 1 }) ∧
    (∀ g, g < 4 → t.seg g =
      if (s.seg g).line = .failed ∨ (s.seg g).line = .testPlug then { s.seg g with retest := (s.seg g).retest - 1 }
      else s.seg g) ∧
    t.writer = (if s.writer = .waiting then .idle else s.writer) ∧
    (Due.minuteAdvance ∈ t.due ↔ s.clock.s = 59) ∧
    (∀ p, Due.unlockTimeout p ∈ t.due ↔ (t.place p).doorState = .unlocked ∧ (t.place p).unlockLeft = 0) ∧
    (∀ p, Due.doorHeld p ∈ t.due ↔
      (t.place p).isOpenCounted = true ∧ (t.place p).door.heldLimit < (t.place p).openElapsed) ∧
    (∀ p c, Due.graceExpiry p c ∈ t.due ↔ ∃ x ∈ t.pendingCharges, x.place = p ∧ x.compartment = c ∧ x.left = 0) ∧
    (∀ g, Due.errorWindow g ∈ t.due ↔ g < 4 ∧ ((t.seg g).line = .inService ∨ (t.seg g).line = .degraded)) ∧
    (∀ g, Due.retest g ∈ t.due ↔
      g < 4 ∧ ((t.seg g).line = .failed ∨ (t.seg g).line = .testPlug) ∧ (t.seg g).retest = 0) ∧
    t = { s with
      clock := t.clock, places := t.places, pendingCharges := t.pendingCharges, segs := t.segs, writer := t.writer
      due := t.due }

/-- R27: the minute advance: M and W, CLOCK_END at the top, the deadline test, then the expiry rule while the clock
runs. Below the top of M no record is left whose deadline M has reached; no ACTIVE credential is left past its end.
That the row acts whether or not it is due is the model's choice (log 2). -/
def Obligations.MinuteAdvance : Prop :=
  ∀ s : State, s.Canonical → ∃ t, exec .minuteAdvance s = .next t ∧
    t.clock = { s.clock with m := min top24 (s.clock.m + 1), w := if s.clock.w = 10079 then 0 else s.clock.w + 1 } ∧
    (t.clock.m = top24 → (t.fault .clockEnd).set = true) ∧
    (s.clock.state = .unset → (t.fault .clockUnset).set = true) ∧
    (t.clock.m < top24 → 1 ≤ s.policy.d → ∀ e ∈ t.revocations, t.clock.m < e.2.deadline) ∧
    (s.clock.state = .running → ∀ e ∈ t.creds, t.expires e.2 = false) ∧
    (s.clock.state = .unset → t.creds = s.creds) ∧
    (∀ i c, s.cred i = some c → ∃ x, t.cred i = some { c with state := x } ∧
      (x = c.state ∨ c.state = .active ∧ x = .expired)) ∧
    t = { s with
      clock := t.clock, creds := t.creds, places := t.places, segs := t.segs, revocations := t.revocations
      journal := t.journal, trunk := { s.trunk with notices := t.trunk.notices }, faults := t.faults, alarm := t.alarm
      dirty := t.dirty, writer := t.writer, due := s.due.erase .minuteAdvance }

/-- R3, R13, R113 to R117: an ACTIVE credential that leaves ACTIVE keeps every field but its state, which its cause
decides. The drops to confirm are those whose directory holds the credential HELD, in REMOVING, or in ADDING once
carried. With none, no record is opened. With some and a free record, the lowest one takes them, in order, with
deadline M + D, and their entries are in REMOVING. With some and none free, the list-full fallback gives
REVOCATION_OVERFLOW, deletes their entries and marks them cache-suspect. At every other drop the credential's entry is
gone. A GRANT of the credential not yet sent, not by a RELEASED zone, becomes a DENY, in the presentation and in the
queue. The start record has the cause's kind, the card, and a detail beginning with cause, index and the number of
drops; that this number stands there in the list-full case too is the model's choice (log 59), and so are the widths
(log 19). Doors and presence stay. -/
def Obligations.RevocationStarts : Prop :=
  ∀ (s : State) (i : Nat) (c : Cred) (cause : Cause), s.Canonical → s.cred i = some c → c.state = .active →
    let t := s.revoke i cause
    t = { s with
      creds := Tab.write s.creds i { c with state := cause.newState }, places := t.places, segs := t.segs
      revocations := t.revocations, journal := t.journal, trunk := { s.trunk with notices := t.trunk.notices }
      faults := t.faults, alarm := t.alarm, dirty := t.dirty, writer := t.writer } ∧
    (∀ p, (t.place p).door = (s.place p).door ∧ (t.place p).doorState = (s.place p).doorState ∧
      (t.place p).presence = (s.place p).presence) ∧
    ((∀ e ∈ s.places, ∀ d ∈ e.2.directory, d.index ≠ i) → t.revocations = s.revocations) ∧
    (∀ k r, Tab.look s.revocations k = some r → Tab.look t.revocations k = some r) ∧
    (∀ k r, Tab.look s.revocations k = none → Tab.look t.revocations k = some r →
      Tab.lowestFree s.revocations 32 = some k ∧ r.index = i ∧ r.card = c.card ∧ r.cause = cause ∧
      r.deadline = min top24 (s.clock.m + s.policy.d)) ∧
    (s.holders i = [] → t.revocations = s.revocations) ∧
    (∀ k, s.holders i ≠ [] → Tab.lowestFree s.revocations 32 = some k →
      t.revocations = Tab.write s.revocations k
        ⟨i, c.card, cause, s.holders i, min top24 (s.clock.m + s.policy.d)⟩ ∧
      ∀ p ∈ s.holders i, ∃ d ∈ (t.place p).directory, d.index = i ∧ ∃ st, d.state = .removing st) ∧
    (s.holders i ≠ [] → Tab.lowestFree s.revocations 32 = none →
      t.revocations = s.revocations ∧ (t.fault .revocationOverflow).set = true ∧
      ∀ p ∈ s.holders i, (t.place p).suspect = true ∧ ∀ d ∈ (t.place p).directory, d.index ≠ i) ∧
    (∀ p, p ∉ s.holders i → ∀ d ∈ (t.place p).directory, d.index ≠ i) ∧
    (∀ p pr, (s.place p).presentation = some pr → Place.replaceable i pr = true →
      (t.place p).presentation = some { pr with verdict := .deny cause.deny } ∧
      ∀ x ∈ (s.place p).waiting, ∀ n, x.cmd = .verdict pr.tag (.grant n) →
        { x with cmd := .verdict pr.tag .denyRefused } ∈ (t.place p).waiting) ∧
    (s.journal.storable = true → ∃ x rest tail, t.journal.ring = s.journal.ring ++ x :: rest ∧
      x.kind = cause.recKind ∧ x.spot = State.credSpot c ∧ x.card = some c.card ∧
      x.detail = [byte (causeCode cause)] ++ le 2 i ++ le 2 (s.holders i).length ++ tail)

/-- R14, R121: CREDENTIAL_EXPIRY revokes an ACTIVE credential whose end has passed while the clock runs, with cause
EXPIRY; REVOCATION_DEADLINE ends a record that its deadline has reached: the record is freed and fault
REVOCATION_PARTIAL given. Elsewhere neither changes anything. That they change nothing elsewhere is the model's choice
(log 2, log 7). -/
def Obligations.ExpiryAndDeadlineRows : Prop :=
  (∀ (i : Fin 4096) (s : State) (c : Cred), s.due = [] → s.cred i.val = some c → s.clock.state = .running →
    c.state = .active → s.ended c = true → exec (.credentialExpiry i) s = .next (s.revoke i.val .expiry)) ∧
  (∀ (i : Fin 4096) (s : State), s.due = [] →
    (∀ c, s.cred i.val = some c → s.clock.state = .unset ∨ c.state ≠ .active ∨ s.ended c = false) →
    exec (.credentialExpiry i) s = .next s) ∧
  (∀ (k : Fin 32) (s : State) (r : Revocation), s.due = [] → s.Canonical → Tab.look s.revocations k.val = some r →
    r.deadline ≤ s.clock.m → ∃ t, exec (.revocationDeadline k) s = .next t ∧
      t.revocations = Tab.clear s.revocations k.val ∧ (t.fault .revocationPartial).set = true ∧
      (∀ p ∈ r.drops, (t.place p).suspect = true) ∧
      ((∀ c, s.cred r.index = some c → c.state ≠ .active) →
        ∀ p ∈ r.drops, ∀ d ∈ (t.place p).directory, d.index ≠ r.index) ∧
      t = { s with
        places := t.places, segs := t.segs, revocations := t.revocations, journal := t.journal
        trunk := { s.trunk with notices := t.trunk.notices }, faults := t.faults, alarm := t.alarm, dirty := t.dirty
        writer := t.writer }) ∧
  ∀ (k : Fin 32) (s : State), s.due = [] → (∀ r, Tab.look s.revocations k.val = some r → s.clock.m < r.deadline) →
    exec (.revocationDeadline k) s = .next s

/-- R55 to R60: UNLOCK_TIMEOUT brings a door whose unlock seconds have run out to SECURE, without a record; DOOR_HELD
brings a door open beyond its held limit to HELD, with its record and its fault. Elsewhere neither changes anything
but what is due. A condition is accepted when reported a second time, or first of all; one reported once is the
candidate, and the accepted one reported again clears it. An accepted door that opens or closes moves the door state
as R57 and R59 say, with DOOR_FORCED or DOOR_CLOSED where they ask; a first condition gives an UNKNOWN door its state
without record or fault (R60). At a MINIBAR an accepted OPEN, a first one included, then begins the session of the
window, which closes, else a FORCED one without a card, and starts nothing where a session runs (R140); an accepted
CLOSED ends the session alone, a restock session with its RESTOCK record (R141). A tamper that begins gives its fault.
An unlock opens a SECURE or UNLOCKED door only. That the rows change nothing elsewhere, and the mark of what is due,
are the model's choices (log 1, log 2); combinations that no rule lists leave the door state (log 27). -/
def Obligations.DoorTimerRows : Prop :=
  (∀ (p : Fin 128) (s : State), Due.minuteAdvance ∉ s.due →
    (s.place p.val).doorState = .unlocked → (s.place p.val).unlockLeft = 0 →
    exec (.unlockTimeout p) s = .next ((s.without (.unlockTimeout p.val)).setPlace p.val
      { s.place p.val with doorState := .secure, window := none })) ∧
  (∀ (p : Fin 128) (s : State), Due.minuteAdvance ∉ s.due →
    (s.place p.val).doorState ≠ .unlocked ∨ (s.place p.val).unlockLeft ≠ 0 →
    exec (.unlockTimeout p) s = .next (s.without (.unlockTimeout p.val))) ∧
  (∀ (p : Fin 128) (s : State), Due.minuteAdvance ∉ s.due →
    (s.place p.val).doorState = .openGranted ∨ (s.place p.val).doorState = .openForced →
    (s.place p.val).holding = false → (s.place p.val).door.heldLimit < (s.place p.val).openElapsed →
    exec (.doorHeld p) s = .next
      ((((s.without (.doorHeld p.val)).setPlace p.val { s.place p.val with doorState := .held }).log .doorHeld
        (.drop p.val) (le 2 (s.place p.val).door.heldLimit)).faultAt .doorHeld p.val)) ∧
  (∀ (p : Fin 128) (s : State), Due.minuteAdvance ∉ s.due →
    ((s.place p.val).doorState ≠ .openGranted ∧ (s.place p.val).doorState ≠ .openForced) ∨
      (s.place p.val).holding = true ∨ (s.place p.val).openElapsed ≤ (s.place p.val).door.heldLimit →
    exec (.doorHeld p) s = .next (s.without (.doorHeld p.val))) ∧
  (∀ (s : State) (p : Nat) (c : Cond), let pl := s.place p
    (pl.door = .unused → s.reportCond p c = s) ∧
    (pl.door ≠ .unused → pl.accepted = none ∨ (pl.accepted ≠ some c ∧ pl.candidate = some c) →
      s.reportCond p c = s.acceptCond p c) ∧
    (pl.door ≠ .unused → pl.accepted = some c → s.reportCond p c = s.setPlace p { pl with candidate := none }) ∧
    (pl.door ≠ .unused → pl.accepted ≠ none → pl.accepted ≠ some c → pl.candidate ≠ some c →
      s.reportCond p c = s.setPlace p { pl with candidate := some c })) ∧
  (∀ (s : State) (p : Nat) (c : Cond), s.Canonical →
    let t := s.acceptCond p c
    let q : Place := { s.place p with accepted := some c, candidate := none }
    let opens (d : Place) : Place := if d.door.isMinibar then
        match d.session, d.window with
        | some _, _ => d
        | none, some w => { d with window := none, session := some ⟨w.kind, some w.card, []⟩ }
        | none, none => { d with session := some ⟨.forced, none, []⟩ }
      else d
    let shuts (d : Place) : Place := if d.door.isMinibar then { d with session := none } else d
    (∀ d, d ≠ p → t.place d = s.place d) ∧
    (∀ o, (s.place p).accepted = some o → o.isOpen = c.isOpen → t.place p = q) ∧
    (∀ o, (s.place p).accepted = some o → o.isOpen = false → c.isOpen = true → t.place p = opens
        (match q.doorState with
          | .unlocked => { q with doorState := .openGranted, unlockLeft := 0, openElapsed := 0 }
          | .released => { q with doorState := .openGranted, openElapsed := 0 }
          | .secure => { q with doorState := .openForced, openElapsed := 0 }
          | .openGranted | .openForced | .held | .unknown => q) ∧
      (q.doorState = .secure → (t.fault .doorForced).set = true ∧ (s.journal.storable = true →
        ∃ x rest, t.journal.ring = s.journal.ring ++ x :: rest ∧ x.kind = .doorForced ∧ x.spot = .drop p))) ∧
    (∀ o, (s.place p).accepted = some o → o.isOpen = true → c.isOpen = false → t.place p = shuts
        (match q.doorState with
          | .openGranted => { q with doorState := if q.holding then .released else .secure, openElapsed := 0 }
          | .openForced | .held => { q with doorState := .secure, openElapsed := 0 }
          | .secure | .unlocked | .released | .unknown => q) ∧
      (q.doorState = .openForced ∨ q.doorState = .held → s.journal.storable = true →
        ∃ x rest, t.journal.ring = s.journal.ring ++ x :: rest ∧ x.kind = .doorClosed ∧ x.spot = .drop p ∧
          x.detail = [byte (doorStateCode q.doorState)] ++ le 2 q.openElapsed) ∧
      (∀ y, q.door.isMinibar = true → q.session = some y → y.kind = .restock →
        q.doorState ≠ .openForced → q.doorState ≠ .held → s.journal.storable = true →
        ∃ x rest, t.journal.ring = s.journal.ring ++ x :: rest ∧ x.kind = .restock ∧ x.spot = .drop p ∧ x.card = y.card ∧
          x.detail = le 2 y.touched.length ++ le 2 (State.stockedCount q))) ∧
    ((s.place p).accepted = none → q.doorState = .unknown →
      t.place p = (if c.isOpen then opens else id)
        { q with doorState := Place.firstDoor c.isOpen q.holding, openElapsed := 0 } ∧
      (c.tamper = false → t.journal = s.journal ∧ t.faults = s.faults)) ∧
    (c.tamper = true → (∀ o, (s.place p).accepted = some o → o.tamper = false) → (t.fault .tamper).set = true)) ∧
  (∀ isOpen holding, Place.firstDoor isOpen holding =
    if isOpen then (if holding then .openGranted else .openForced) else (if holding then .released else .secure)) ∧
  ∀ (pl : Place) (n : Nat), pl.unlock n =
    if pl.doorState = .secure ∨ pl.doorState = .unlocked then { pl with doorState := .unlocked, unlockLeft := n } else pl

/-! ## Minibars -/

/-- R135, R139 to R146: the tax is the exact tax rounded to the nearest unit, a half up, and the charge is at most
98,303. A removal from a STOCKED compartment outside a restock session leaves it PENDING with a charge of H seconds
last in the list, for a room with an OPEN stay, H above 0 and a free place in the list; with no OPEN stay it is
journalled as unbilled; with H = 0 or a full list it is committed at once with NO_GRACE. A return to a PENDING
compartment cancels its charge and counts a reversal, the fourth leaving it FAULTY with its fault; one to an EMPTY
compartment is a late return, without credit. Other events are journalled as COMPARTMENT_FAULT and change nothing. In
a restock session the compartment follows the event with reversal count 0 and is counted as touched; where it was
PENDING its entry is first committed with NO_GRACE to the stay it is bound to (R136, R146): it leaves the list, the
stay's total rises, held at the top, and MINIBAR_CHARGE is journalled, or MINIBAR_UNBILLED where no entry holds the
stay; in every other state stays, charges and journal are unchanged. A lid opened (openLid, R140) begins the session
of the window, which closes, else a FORCED one; a session that ends (endSession, R141) leaves none, a restock session
with its RESTOCK record; without a lid event (endLid, R142: the drop ABSENT, LOAD DOORS) window and session both end.
What an accepted lid condition does is DoorTimerRows. A COMPARTMENT event acts at a MINIBAR only: the model's reading
(log 23). Widths of the details are log 19, SATURATED in a detail log 42. -/
def Obligations.RemovalsAndCharges : Prop :=
  (∀ p : Price, p.Legal →
    10000 * taxOf p ≤ p.price * p.tax + 5000 ∧ p.price * p.tax < 10000 * taxOf p + 5000 ∧
    taxOf p ≤ 32768 ∧ chargeOf p = p.price + taxOf p ∧ chargeOf p ≤ 98303) ∧
  (∀ (s : State) (p c r : Nat) (e : Nat × Stay), s.Canonical → (s.place p).door.room? = some r → s.openStay r = some e →
    (∀ x, (s.place p).session = some x → x.kind ≠ .restock) → c < (s.place p).comps.length →
    (s.comp p c).state = .stocked → 0 < s.policy.h → s.pendingCharges.length < 64 →
    let t := s.compartmentEvent p c true
    t.pendingCharges = s.pendingCharges ++ [⟨p, c, e.2.number, (s.place p).session.bind (fun x => x.card),
      State.chargeKindAt (s.place p), chargeOf (s.price (s.comp p c).price), s.policy.h⟩] ∧
    t.comp p c = { s.comp p c with state := .pending } ∧
    (∀ d, d ≠ c → t.comp p d = s.comp p d) ∧ (∀ q, q ≠ p → t.place q = s.place q) ∧
    t.place p = { s.place p with comps := (t.place p).comps } ∧
    t = { s with places := t.places, pendingCharges := t.pendingCharges, dirty := t.dirty, writer := t.writer }) ∧
  (∀ (s : State) (p c : Nat) (taken : Bool),
    s.takeEvent p (.compartment c taken) =
      if (s.place p).door.isMinibar = true then s.compartmentEvent p c taken else s) ∧
  (∀ (s : State) (p c : Nat), s.Canonical → (∀ r, (s.place p).door.room? = some r → s.openStay r = none) →
    (∀ x, (s.place p).session = some x → x.kind ≠ .restock) → c < (s.place p).comps.length →
    (s.comp p c).state = .stocked → let t := s.compartmentEvent p c true
    t.comp p c = { s.comp p c with state := .empty, reversals := 0 } ∧ t.pendingCharges = s.pendingCharges ∧
    t.stays = s.stays ∧
    (s.journal.storable = true → ∃ x, t.journal.ring = s.journal.ring ++ [x] ∧ x.kind = .minibarUnbilled ∧
      x.detail = [byte c] ++ le 3 (chargeOf (s.price (s.comp p c).price)))) ∧
  (∀ (s : State) (p c r : Nat) (e : Nat × Stay), s.Canonical → (s.place p).door.room? = some r → s.openStay r = some e →
    (∀ x, (s.place p).session = some x → x.kind ≠ .restock) → c < (s.place p).comps.length →
    (s.comp p c).state = .stocked → s.policy.h = 0 ∨ 64 ≤ s.pendingCharges.length →
    let t := s.compartmentEvent p c true
    let amount := chargeOf (s.price (s.comp p c).price)
    t.comp p c = { s.comp p c with state := .empty, reversals := 0 } ∧ t.pendingCharges = s.pendingCharges ∧
    t.stays = Tab.write s.stays e.1 { e.2 with
      total := min top24 (e.2.total + amount), saturated := e.2.saturated || decide (top24 < e.2.total + amount) } ∧
    (s.journal.storable = true → ∃ x, t.journal.ring = s.journal.ring ++ [x] ∧ x.kind = .minibarCharge ∧
      x.marks.noGrace = true)) ∧
  (∀ (s : State) (p c : Nat) (x : Charge), s.Canonical →
    (∀ y, (s.place p).session = some y → y.kind ≠ .restock) → c < (s.place p).comps.length →
    (s.comp p c).state = .pending → s.pendingCharges.find? (State.isCharge p c) = some x →
    let t := s.compartmentEvent p c false
    let n := (s.comp p c).reversals + 1
    t.pendingCharges = s.pendingCharges.filter (fun d => d != x) ∧ t.stays = s.stays ∧
    t.comp p c = { s.comp p c with state := if n < 4 then .stocked else .faulty, reversals := n } ∧
    (4 ≤ n → (t.fault .compartmentFault).set = true) ∧
    (s.journal.storable = true → ∃ y rest, t.journal.ring = s.journal.ring ++ y :: rest ∧ y.kind = .minibarReturn ∧
      y.card = x.card ∧ y.detail = [byte c] ++ le 3 x.amount ++ le 2 n)) ∧
  (∀ (s : State) (p c : Nat), s.Canonical → (∀ y, (s.place p).session = some y → y.kind ≠ .restock) →
    c < (s.place p).comps.length → (s.comp p c).state = .empty → let t := s.compartmentEvent p c false
    t.comp p c = { s.comp p c with state := .stocked } ∧ t.pendingCharges = s.pendingCharges ∧ t.stays = s.stays ∧
    (s.journal.storable = true → ∃ y, t.journal.ring = s.journal.ring ++ [y] ∧ y.kind = .minibarLateReturn)) ∧
  (∀ (s : State) (p c : Nat) (taken : Bool), (∀ y, (s.place p).session = some y → y.kind ≠ .restock) →
    ((s.comp p c).state = .faulty ∨ ((s.comp p c).state = .stocked ∧ taken = false) ∨
      ((s.comp p c).state = .empty ∧ taken = true) ∨ ((s.comp p c).state = .pending ∧ taken = true)) →
    s.compartmentEvent p c taken = s.log .compartmentFault (.drop p)
      [byte c, byte (compStateCode (s.comp p c).state), if taken then 0#8 else 1#8]) ∧
  (∀ (s : State) (p c : Nat) (taken : Bool) (x : Session), s.Canonical → (s.place p).session = some x →
    x.kind = .restock → c < (s.place p).comps.length → let t := s.compartmentEvent p c taken
    t.comp p c = { s.comp p c with state := if taken then .empty else .stocked, reversals := 0 } ∧
    (∀ d, d ≠ c → t.comp p d = s.comp p d) ∧ (∀ q, q ≠ p → t.place q = s.place q) ∧
    (∃ y, (t.place p).session = some y ∧ y.kind = .restock ∧ y.card = x.card ∧
      ∀ d, d ∈ y.touched ↔ d = c ∨ d ∈ x.touched) ∧
    ((s.comp p c).state ≠ .pending → t = { s with places := t.places, dirty := t.dirty, writer := t.writer }) ∧
    ∀ y, (s.comp p c).state = .pending → s.pendingCharges.filter (State.isCharge p c) = [y] →
      t.pendingCharges = s.pendingCharges.filter (fun d => !State.isCharge p c d) ∧
      (∀ i z, s.findStay y.stay = some (i, z) →
        let total := min top24 (z.total + y.amount)
        let above := decide (top24 < z.total + y.amount)
        t.stays = Tab.write s.stays i { z with total := total, saturated := z.saturated || above } ∧
        (above = true → (t.fault .folioSaturated).set = true) ∧
        (s.journal.storable = true → ∃ m, t.journal.ring = s.journal.ring ++ [m] ∧ m.kind = .minibarCharge ∧
          m.spot = .drop p ∧ m.card = y.card ∧ m.marks.noGrace = true ∧ m.marks.forced = (y.kind == .forced) ∧
          m.detail = [byte c] ++ le 3 y.amount ++ le 2 y.stay ++ le 3 total ++ (if above then [1#8] else []))) ∧
      (s.findStay y.stay = none → t.stays = s.stays ∧
        (s.journal.storable = true → ∃ m, t.journal.ring = s.journal.ring ++ [m] ∧ m.kind = .minibarUnbilled ∧
          m.spot = .drop p ∧ m.card = y.card ∧ m.detail = [byte c] ++ le 3 y.amount))) ∧
  (∀ (s : State) (p : Nat), s.Canonical → (s.openLid p).place p = match (s.place p).session, (s.place p).window with
    | some _, _ => s.place p
    | none, some w => { s.place p with window := none, session := some ⟨w.kind, some w.card, []⟩ }
    | none, none => { s.place p with session := some ⟨.forced, none, []⟩ }) ∧
  ∀ (s : State) (p : Nat), s.Canonical →
    (s.endSession p).place p = { s.place p with session := none } ∧
    (s.endLid p).place p = { s.place p with window := none, session := none } ∧
    ((s.place p).door.isMinibar = true → ((s.enterAbsent p).place p).window = none ∧
      ((s.enterAbsent p).place p).session = none ∧ (s.enterAbsent p).pendingCharges = s.pendingCharges) ∧
    (∀ x, (s.place p).session = some x → x.kind = .restock → s.journal.storable = true →
      ∃ y, (s.endSession p).journal.ring = s.journal.ring ++ [y] ∧ y.kind = .restock ∧ y.card = x.card ∧
        y.detail = le 2 x.touched.length ++ le 2 (State.stockedCount (s.place p))) ∧
    ((∀ x, (s.place p).session = some x → x.kind ≠ .restock) → (s.endSession p).journal = s.journal)

/-- R136, R147, R148: GRACE_EXPIRY commits a charge whose seconds have run out: it leaves the list, the stay's total
rises by its amount and holds at the top, where the stay is marked SATURATED; the compartment left PENDING becomes
EMPTY. A charge whose stay no entry holds is journalled as unbilled. Where the list and the compartments match (R147,
TablesStayCanonical), every entry at 0 that stands before it is committed first, in list order, and the one named
last: each stay's total rises by the sum of its charges, each compartment named becomes EMPTY, the records stand in
that order, and the list left is exactly the entries not at 0 and the entries behind the one named. With no such
charge nothing changes but what is due. That it changes nothing elsewhere, that the row commits the earlier entries
itself, and the mark of what is due are the model's choices (log 1, log 2); of two stay entries of one number the
lower is read (log 52). -/
def Obligations.GraceExpiryCommits : Prop :=
  (∀ (p : Fin 128) (c : Fin 12) (s : State) (x : Charge) (i : Nat) (y : Stay), Due.minuteAdvance ∉ s.due → s.Canonical →
    State.gracesBefore p.val c.val s.pendingCharges = [] →
    s.pendingCharges.filter (fun d => State.isCharge p.val c.val d && d.left == 0) = [x] → s.findStay x.stay = some (i, y) →
    ∃ t, exec (.graceExpiry p c) s = .next t ∧
      t.pendingCharges = s.pendingCharges.filter (fun d => d != x) ∧
      t.stays = Tab.write s.stays i { y with
        total := min top24 (y.total + x.amount)
        saturated := y.saturated || decide (top24 < y.total + x.amount) } ∧
      (top24 < y.total + x.amount → (t.fault .folioSaturated).set = true) ∧
      ((s.comp p.val c.val).state = .pending → c.val < (s.place p.val).comps.length →
        t.comp p.val c.val = { s.comp p.val c.val with state := .empty, reversals := 0 }) ∧
      (s.journal.storable = true → ∃ r, t.journal.ring = s.journal.ring ++ [r] ∧ r.kind = .minibarCharge ∧
        r.spot = .drop p.val ∧ r.card = x.card ∧ r.marks.forced = (x.kind == .forced) ∧ r.marks.noGrace = false) ∧
      t = { s with
        stays := t.stays, places := t.places, pendingCharges := t.pendingCharges, journal := t.journal
        trunk := { s.trunk with notices := t.trunk.notices }, faults := t.faults, alarm := t.alarm, dirty := t.dirty
        writer := t.writer, due := s.due.erase (.graceExpiry p.val c.val) }) ∧
  (∀ (p : Fin 128) (c : Fin 12) (s : State), Due.minuteAdvance ∉ s.due → ∃ t, exec (.graceExpiry p c) s = .next t ∧
    (∀ y ∈ State.gracesBefore p.val c.val s.pendingCharges, y ∈ s.pendingCharges ∧ y.left = 0 ∧ y ∉ t.pendingCharges) ∧
    (∀ y ∈ t.pendingCharges, y ∈ s.pendingCharges ∧ ¬(y.place = p.val ∧ y.compartment = c.val ∧ y.left = 0)) ∧
    (∀ y ∈ s.pendingCharges, y.left ≠ 0 → y ∈ t.pendingCharges) ∧
    ∀ y ys, State.gracesBefore p.val c.val s.pendingCharges = y :: ys → s.journal.storable = true →
      ∃ r rest, t.journal.ring = s.journal.ring ++ r :: rest ∧ r.spot = .drop y.place ∧ r.card = y.card ∧
        (r.kind = .minibarCharge ∨ r.kind = .minibarUnbilled)) ∧
  (∀ (p : Fin 128) (c : Fin 12) (s : State) (pre post : List Charge) (x : Charge), Due.minuteAdvance ∉ s.due →
    s.Canonical → s.ChargesMatch → s.pendingCharges = pre ++ x :: post → x.place = p.val → x.compartment = c.val →
    x.left = 0 →
    let cs := pre.filter (fun d => d.left == 0) ++ [x]
    ∃ t, exec (.graceExpiry p c) s = .next t ∧
      t.pendingCharges = pre.filter (fun d => d.left != 0) ++ post ∧ s.Charged t cs ∧
      (∀ d ∈ cs, t.comp d.place d.compartment =
        { s.comp d.place d.compartment with state := .empty, reversals := 0 }) ∧
      (∀ q e, (∀ d ∈ cs, ¬(d.place = q ∧ d.compartment = e)) → t.comp q e = s.comp q e) ∧
      (t.journal.storable = true → ∃ added, t.journal.ring = s.journal.ring ++ added ∧
        added.map Record.outline = cs.map (s.chargeOutline false)) ∧
      t = { s with
        stays := t.stays, places := t.places, pendingCharges := t.pendingCharges, journal := t.journal
        trunk := { s.trunk with notices := t.trunk.notices }, faults := t.faults, alarm := t.alarm, dirty := t.dirty
        writer := t.writer, due := t.due }) ∧
  (∀ (p : Fin 128) (c : Fin 12) (s : State) (x : Charge), Due.minuteAdvance ∉ s.due →
    State.gracesBefore p.val c.val s.pendingCharges = [] →
    s.pendingCharges.filter (fun d => State.isCharge p.val c.val d && d.left == 0) = [x] → s.findStay x.stay = none →
    ∃ t, exec (.graceExpiry p c) s = .next t ∧
      t.pendingCharges = s.pendingCharges.filter (fun d => d != x) ∧ t.stays = s.stays ∧
      (s.journal.storable = true → ∃ r, t.journal.ring = s.journal.ring ++ [r] ∧ r.kind = .minibarUnbilled)) ∧
  ∀ (p : Fin 128) (c : Fin 12) (s : State), Due.minuteAdvance ∉ s.due →
    (∀ x ∈ s.pendingCharges, x.place = p.val → x.compartment = c.val → x.left ≠ 0) →
    exec (.graceExpiry p c) s = .next (s.without (.graceExpiry p.val c.val))

/-! ## Line states -/

/-- R95: ERROR_WINDOW_CLOSE judges the window: the bad count returns to 0; an errored window degrades an IN_SERVICE
segment and clears the clean windows of a DEGRADED one; the fourth clean window in a row brings it back to IN_SERVICE,
with no clean windows left and its record, and then the WAITING drops go on, in ascending address, and the push engine
resumes (R87, R96, R111): a minibar becomes PRESENT with its record, a lock or reader is offered its join flush, and
the engine runs until it is terminal with no request left, or waits at a full queue. On a DEGRADED segment the engine
stands still. Where the scheduler does not run, nothing changes but what is due. That it changes nothing elsewhere,
and the mark of what is due, are the model's choices (log 1, log 2); the clean windows at the recovery are read from a
worked operation (log 46); that the engine walks on within the command is log 22. -/
def Obligations.ErrorWindowIsJudged : Prop :=
  (∀ (g : Fin 4) (s : State), Due.minuteAdvance ∉ s.due → s.Canonical →
    (s.seg g.val).line = .inService ∨ (s.seg g.val).line = .degraded →
    ∃ t, exec (.errorWindowClose g) s = .next t ∧ (t.seg g.val).badCount = 0 ∧
      (s.policy.e ≤ (s.seg g.val).badCount → (t.seg g.val).line = .degraded ∧
        (t.seg g.val).cleanWindows = 0 ∧ ((s.seg g.val).line = .inService → (t.fault .segmentDegraded).set = true)) ∧
      ((s.seg g.val).badCount < s.policy.e → (s.seg g.val).line = .inService →
        t = { s.without (.errorWindow g.val) with segs := t.segs } ∧
        t.seg g.val = { s.seg g.val with badCount := 0 }) ∧
      ((s.seg g.val).badCount < s.policy.e → (s.seg g.val).line = .degraded → (s.seg g.val).cleanWindows < 3 →
        t = { s.without (.errorWindow g.val) with segs := t.segs } ∧
        t.seg g.val = { s.seg g.val with badCount := 0, cleanWindows := (s.seg g.val).cleanWindows + 1 }) ∧
      ((s.seg g.val).badCount < s.policy.e → (s.seg g.val).line = .degraded → 3 ≤ (s.seg g.val).cleanWindows →
        (t.seg g.val).line = .inService ∧ (t.seg g.val).cleanWindows = 0 ∧
        let u := ((s.without (.errorWindow g.val)).setSeg g.val { s.seg g.val with
            line := .inService, badCount := 0, cleanWindows := 0 }).log .segmentState (.segment g.val)
          [byte (lineCode .degraded), byte (lineCode .inService)]
        let waiting := ((List.range 32).map (fun i => g.val * 32 + i)).filter
          (fun p => (s.place p).joinStep == .waiting)
        t = (waiting.foldl (fun s p => s.proceedJoin p) u).runEngine g.val) ∧
      (∀ h, h ≠ g.val → t.seg h = s.seg h) ∧ t.pendingCharges = s.pendingCharges ∧ t.creds = s.creds ∧
      t.clock = s.clock ∧ t.due = s.due.erase (.errorWindow g.val)) ∧
  (∀ (s : State) (p : Nat), s.Canonical → (s.seg (segOf p)).line ≠ .degraded → let t := s.proceedJoin p
    ((s.place p).door.isMinibar = true → (t.place p).presence = .present ∧ (t.place p).joinStep = .none ∧
      (s.journal.storable = true → ∃ x, t.journal.ring = s.journal.ring ++ [x] ∧ x.kind = .dropPresence ∧
        x.spot = .drop p ∧ x.detail = [byte (presenceCode .present)])) ∧
    ((s.place p).door.isMinibar = false →
      t = s.setPlace p ({ s.place p with joinStep := .flush }.offer (.cacheFlush true)) ∧
      (t.place p).joinStep = .flush)) ∧
  (∀ (s : State) (g : Nat), s.Canonical → let t := s.runEngine g
    let x := t.seg g
    ((s.seg g).line = .degraded → t = s) ∧
    ((s.seg g).line ≠ .degraded → (x.terminal = true ∧ x.requests = []) ∨
      (x.terminal = false ∧ x.waits = true ∧ 4 ≤ (t.place (placeOf g x.served)).queueLen))) ∧
  ∀ (g : Fin 4) (s : State), Due.minuteAdvance ∉ s.due →
    (s.seg g.val).line ≠ .inService → (s.seg g.val).line ≠ .degraded →
    exec (.errorWindowClose g) s = .next (s.without (.errorWindow g.val))

/-- R92, R94, R97: RETEST_TIMEOUT at the end of the delay, and TERMINATOR_MISSES_DOWN at the third missed poll of the
terminator, start the line test: TESTING at attempt 1, exchange 1, no exchange under way, the round's mark, the probe
mark and the priority mark cleared, every drop of the segment ABSENT; the second passes through DOWN, gives its fault,
and loses the clean windows counted (log 46). Elsewhere neither changes anything but what is due. That they change
nothing elsewhere, and the mark of what is due, are the model's choices (log 1, log 2), as are the two hidden flags of
the scheduler (log 28). -/
def Obligations.LineTestStarts : Prop :=
  (∀ (g : Fin 4) (s : State), Due.minuteAdvance ∉ s.due → s.Canonical → s.ReloadsInRange →
    (s.seg g.val).line = .failed ∨ (s.seg g.val).line = .testPlug → (s.seg g.val).retest = 0 →
    ∃ t, exec (.retestTimeout g) s = .next t ∧ (t.seg g.val).line = .testing ∧
      (t.seg g.val).test = some ⟨1, 1, 0, .none, false⟩ ∧ (t.seg g.val).exchange = none ∧ (t.seg g.val).roundPos = 0 ∧
      (t.seg g.val).probeMark = 0 ∧ (t.seg g.val).prioMark = 0 ∧ (t.seg g.val).roundOpen = false ∧
      (t.seg g.val).prioDue = false ∧ (t.seg g.val).retest = 0 ∧
      (∀ p, segOf p = g.val → (t.place p).presence = .absent) ∧
      (∀ p, segOf p ≠ g.val → t.place p = s.place p) ∧ (∀ h, h ≠ g.val → t.seg h = s.seg h) ∧
      (∀ p, (t.place p).door = (s.place p).door)) ∧
  (∀ (g : Fin 4) (s : State), Due.minuteAdvance ∉ s.due → s.Canonical → s.ReloadsInRange →
    (s.seg g.val).line = .inService ∨ (s.seg g.val).line = .degraded → 3 ≤ (s.seg g.val).termMisses →
    ∃ t, exec (.terminatorMissesDown g) s = .next t ∧ (t.seg g.val).line = .testing ∧
      (t.seg g.val).test = some ⟨1, 1, 0, .none, false⟩ ∧ (t.seg g.val).exchange = none ∧ (t.seg g.val).roundPos = 0 ∧
      (t.seg g.val).probeMark = 0 ∧ (t.seg g.val).prioMark = 0 ∧ (t.seg g.val).roundOpen = false ∧
      (t.seg g.val).prioDue = false ∧ (t.seg g.val).retest = 0 ∧ (t.fault .segmentDown).set = true ∧
      (t.seg g.val).cleanWindows = 0 ∧
      (∀ p, segOf p = g.val → (t.place p).presence = .absent) ∧
      (∀ p, segOf p ≠ g.val → t.place p = s.place p) ∧ (∀ h, h ≠ g.val → t.seg h = s.seg h)) ∧
  (∀ (g : Fin 4) (s : State), Due.minuteAdvance ∉ s.due →
    ((s.seg g.val).line ≠ .failed ∧ (s.seg g.val).line ≠ .testPlug) ∨ (s.seg g.val).retest ≠ 0 →
    exec (.retestTimeout g) s = .next (s.without (.retest g.val))) ∧
  ∀ (g : Fin 4) (s : State), Due.minuteAdvance ∉ s.due →
    ((s.seg g.val).line ≠ .inService ∧ (s.seg g.val).line ≠ .degraded) ∨ (s.seg g.val).termMisses < 3 →
    exec (.terminatorMissesDown g) s = .next (s.without (.terminatorDown g.val))

/-- R84: MISS_COUNT_SILENT brings a PRESENT drop with three misses to SILENT; MISS_COUNT_ABSENT brings a drop with
sixteen to ABSENT, with its presence lost, its queue empty and fault DROP_ABSENT. Elsewhere neither changes anything
but what is due. That they change nothing elsewhere, and the mark of what is due, are the model's choices (log 1, log
2). -/
def Obligations.MissCountRows : Prop :=
  (∀ (p : Fin 128) (s : State), Due.minuteAdvance ∉ s.due → s.Canonical → (s.place p.val).presence = .present →
    3 ≤ (s.place p.val).misses → (∀ pr, (s.place p.val).presentation = some pr → pr.sent = true) →
    exec (.missCountSilent p) s = .next ((s.without (.missSilent p.val)).setPlace p.val
      { s.place p.val with presence := .silent })) ∧
  (∀ (p : Fin 128) (s : State) (pr : Presentation), Due.minuteAdvance ∉ s.due → s.Canonical →
    (s.place p.val).presence = .present → 3 ≤ (s.place p.val).misses → (s.place p.val).presentation = some pr →
    pr.sent = false → ∃ t, exec (.missCountSilent p) s = .next t ∧ (t.place p.val).presence = .silent ∧
      (t.place p.val).presentation = none ∧ (t.place p.val).waits (State.isVerdict pr.tag) = false ∧
      (s.journal.storable = true → ∃ r, t.journal.ring = s.journal.ring ++ [r] ∧ r.card = some pr.card ∧
        r.marks.undelivered = true)) ∧
  (∀ (p : Fin 128) (s : State), Due.minuteAdvance ∉ s.due → s.Canonical → s.ReloadsInRange →
    (s.place p.val).presence ≠ .absent →
    16 ≤ (s.place p.val).misses → ∃ t, exec (.missCountAbsent p) s = .next t ∧
      (t.place p.val).presence = .absent ∧ (t.place p.val).queue = [] ∧ (t.place p.val).presentation = none ∧
      (t.place p.val).directory = [] ∧ (t.place p.val).doorState = .unknown ∧ (t.place p.val).misses = 0 ∧
      (t.place p.val).door = (s.place p.val).door ∧ (t.place p.val).lockSerial = (s.place p.val).lockSerial ∧
      (t.fault .dropAbsent).set = true ∧ t.creds = s.creds ∧ t.revocations = s.revocations) ∧
  (∀ (p : Fin 128) (s : State), Due.minuteAdvance ∉ s.due →
    (s.place p.val).presence ≠ .present ∨ (s.place p.val).misses < 3 →
    exec (.missCountSilent p) s = .next (s.without (.missSilent p.val))) ∧
  ∀ (p : Fin 128) (s : State), Due.minuteAdvance ∉ s.due →
    (s.place p.val).presence = .absent ∨ (s.place p.val).misses < 16 →
    exec (.missCountAbsent p) s = .next (s.without (.missAbsent p.val))

/-! ## Polls -/

/-- R79, R82: NORMAL_POLL while the scheduler runs, the line is free and no priority poll is due: at a round's start
the terminator is polled, then each member in ascending address; past the last member a round without a probe
candidate is followed by the next. Otherwise nothing changes. Whether the round is open and whether a priority poll is
due are the model's fields (log 28); a poll that cannot be made changes nothing (log 7). -/
def Obligations.NormalPolls : Prop :=
  (∀ (g : Fin 4) (s : State), s.due = [] → s.Canonical → s.LineFree g.val → s.priorityDue g.val = false →
    ((s.seg g.val).roundOpen = false ∨
      (∀ b, (s.seg g.val).roundPos < b → b ≤ 32 → s.isMember g.val b = false) ∧
        ∀ b, 1 ≤ b → b ≤ 32 → s.isCandidate g.val b = false) →
    ∃ t, exec (.normalPoll g) s = .next t ∧ t = { s with segs := t.segs } ∧ (∀ h, h ≠ g.val → t.seg h = s.seg h) ∧
      t.seg g.val = { s.seg g.val with
        roundPos := 0, roundOpen := true, prioDue := false, exchange := some ⟨0, .normal, false, none, false⟩ }) ∧
  (∀ (g : Fin 4) (s : State) (a : Nat), s.due = [] → s.Canonical → s.LineFree g.val → s.priorityDue g.val = false →
    (s.seg g.val).roundOpen = true → (s.seg g.val).roundPos < a → a ≤ 32 → s.isMember g.val a = true →
    (∀ b, (s.seg g.val).roundPos < b → b < a → s.isMember g.val b = false) →
    let p := placeOf g.val a
    let c := (s.place p).choose ((s.seg g.val).line == .degraded)
    ∃ t, exec (.normalPoll g) s = .next t ∧ t = { s with segs := t.segs, places := t.places } ∧
      (∀ h, h ≠ g.val → t.seg h = s.seg h) ∧ (∀ q, q ≠ p → t.place q = s.place q) ∧ t.place p = c.1 ∧
      t.seg g.val = { s.seg g.val with
        roundPos := a, prioDue := false
        exchange := some ⟨a, .normal, (s.place p).pollBit, c.2, (s.place p).uncertain⟩ }) ∧
  ∀ (g : Fin 4) (s : State), s.due = [] →
    (¬s.LineFree g.val ∨ s.priorityDue g.val = true ∨
      ((s.seg g.val).roundOpen = true ∧ (∀ b, (s.seg g.val).roundPos < b → b ≤ 32 → s.isMember g.val b = false) ∧
        ∃ b, 1 ≤ b ∧ b ≤ 32 ∧ s.isCandidate g.val b = true)) →
    exec (.normalPoll g) s = .next s

/-- R80, R81, R92: PROBE_POLL polls one candidate after the round's last member and ends the round; PRIORITY_POLL, due
after a normal poll's exchange, polls the next drop that holds a class-1 command; TEST_EXCHANGE polls the terminator
in a line test. A probe changes nothing where the line is not free, a priority poll is due, the round is not open, a
member is left or there is no candidate; a priority poll where the line is not free, none is due or no drop polled
holds a class-1 command; a test exchange where the segment is not TESTING or one is under way. Members, candidates and
the drops with a class-1 command are spelled out. R67, R211: the poll frame of an exchange is its address and bit, the
code and operands of the command carried, NONE where none is, ECHO with the test's pattern in a line test, and the
check over these. Whether the round is open and whether a priority poll is due are the model's fields (log 28); that a
poll not to be made changes nothing is its choice (log 7); the frame is computed (log 33). -/
def Obligations.OtherPolls : Prop :=
  (∀ (g : Fin 4) (s : State) (a : Nat), s.due = [] → s.Canonical → s.LineFree g.val → s.priorityDue g.val = false →
    (s.seg g.val).roundOpen = true → (∀ b, (s.seg g.val).roundPos < b → b ≤ 32 → s.isMember g.val b = false) →
    isNext (s.seg g.val).probeMark (s.isCandidate g.val) a →
    let p := placeOf g.val a
    let c := (s.place p).choose ((s.seg g.val).line == .degraded)
    ∃ t, exec (.probePoll g) s = .next t ∧ t = { s with segs := t.segs, places := t.places } ∧
      (∀ h, h ≠ g.val → t.seg h = s.seg h) ∧ (∀ q, q ≠ p → t.place q = s.place q) ∧ t.place p = c.1 ∧
      t.seg g.val = { s.seg g.val with
        probeMark := a, roundOpen := false, prioDue := false
        exchange := some ⟨a, .probe, (s.place p).pollBit, c.2, (s.place p).uncertain⟩ }) ∧
  (∀ (g : Fin 4) (s : State) (a : Nat), s.due = [] → s.Canonical → s.LineFree g.val → (s.seg g.val).prioDue = true →
    isNext (s.seg g.val).prioMark (s.isUrgent g.val) a →
    let p := placeOf g.val a
    let c := (s.place p).choose ((s.seg g.val).line == .degraded)
    ∃ t, exec (.priorityPoll g) s = .next t ∧ t = { s with segs := t.segs, places := t.places } ∧
      (∀ h, h ≠ g.val → t.seg h = s.seg h) ∧ (∀ q, q ≠ p → t.place q = s.place q) ∧ t.place p = c.1 ∧
      t.seg g.val = { s.seg g.val with
        prioMark := a, prioDue := false
        exchange := some ⟨a, .priority, (s.place p).pollBit, c.2, (s.place p).uncertain⟩ }) ∧
  (∀ (g : Fin 4) (s : State), s.due = [] → (s.seg g.val).line = .testing → (s.seg g.val).test ≠ none →
    (s.seg g.val).exchange = none →
    exec (.testExchange g) s = .next (s.setSeg g.val
      { s.seg g.val with exchange := some ⟨0, .test, false, none, false⟩ })) ∧
  (∀ (g : Fin 4) (s : State), s.due = [] →
    ¬s.LineFree g.val ∨ s.priorityDue g.val = true ∨ (s.seg g.val).roundOpen = false ∨
      (∃ b, (s.seg g.val).roundPos < b ∧ b ≤ 32 ∧ s.isMember g.val b = true) ∨
      (∀ b, 1 ≤ b → b ≤ 32 → s.isCandidate g.val b = false) →
    exec (.probePoll g) s = .next s) ∧
  (∀ (g : Fin 4) (s : State), s.due = [] →
    ¬s.LineFree g.val ∨ (s.seg g.val).prioDue = false ∨ (∀ b, 1 ≤ b → b ≤ 32 → s.isUrgent g.val b = false) →
    exec (.priorityPoll g) s = .next s) ∧
  (∀ (s : State) (g a : Nat), let pl := s.place (placeOf g a)
    (s.isMember g a = true ↔ pl.presence ≠ .absent ∧ pl.door ≠ .unused) ∧
    (s.isCandidate g a = true ↔ pl.presence = .absent ∨ pl.door = .unused) ∧
    (s.isUrgent g a = true ↔ pl.presence ≠ .absent ∧ ∃ x ∈ pl.queue, x.cmd.cls = 1)) ∧
  (∀ (s : State) (g : Nat), s.priorityDue g = true ↔
    (s.seg g).prioDue = true ∧ ∃ a, 1 ≤ a ∧ a ≤ 32 ∧ s.isUrgent g a = true) ∧
  (∀ (g : Fin 4) (s : State), s.due = [] → (s.seg g.val).line ≠ .testing ∨ (s.seg g.val).exchange ≠ none →
    exec (.testExchange g) s = .next s) ∧
  (∀ (s : State) (g : Nat) (e : Exchange), (s.seg g).exchange = some e → e.addr ≤ 32 → ∃ b body,
    let covered := b :: body
    s.pollFrame g = some (covered ++ checkBytes (crc covered)) ∧ crcOk (covered ++ checkBytes (crc covered)) = true ∧
    b.toNat = e.addr + (if e.bit then 128 else 0) ∧
    (e.kind ≠ .test → e.carried = none → body = [0#8]) ∧
    (∀ q, e.kind ≠ .test → e.carried = some q → body = match q.cmd with
      | .verdict tag (.grant n) => [1#8, byte tag, 0#8, byte n]
      | .verdict tag .denyTime => [1#8, byte tag, 1#8, 0#8]
      | .verdict tag .denyRefused => [1#8, byte tag, 2#8, 0#8]
      | .remoteUnlock n => [2#8, byte n]
      | .holdOpen => [3#8]
      | .secure => [4#8]
      | .cacheAdd slot card _ => [5#8, byte slot] ++ le 4 card
      | .cacheRemove slot _ => [6#8, byte slot]
      | .cacheFlush _ => [7#8]
      | .identify => [8#8]
      | .backlogNext => [9#8]) ∧
    ∀ x, e.kind = .test → (s.seg g).test = some x → body = 10#8 :: State.testPattern x) ∧
  ∀ (x : TestProgress) (i : Nat), i < 8 → (State.testPattern x)[i]? = some
    (byte (8 * (8 * (x.attempt - 1) + (x.exchange - 1)) + i) ^^^ (if i % 2 = 0 then 0xAA#8 else 0x55#8))

/-- R74 to R77: the classes; a command offered to a queue with a free place enters it behind those of its class and
before the lower ones, so that the classes stay in order; a full queue gives up the newest command of its lowest class
for one of a higher class, and keeps all others; otherwise it stays as it is. At its source a command that enters is
queued, one that finds no place or is evicted waiting is owed again (R77, R104), and one evicted from delivery is
doubtful, departs with its bit and leaves the next bit uncertain (R73, R105). R67, R96: a poll in doubt carries none,
else the command in delivery, else the first waiting one, additions held back in DEGRADED; the one carried comes into
delivery. R104: a freed place is offered to owed commands until the queue is full or none is owed, and no command in
the queue is lost. R109, R110: a requested reload is in the set or served, from index 0 of the GUEST pass where it was
served already; the next one served is the next address above, else the lowest; the plan is R102's; a pass adds
credentials of it only, in slots of its class, deletes none, and ends with every credential of the plan named, with
its class full, or waiting at one for a queue place. R111: a drop that leaves the line loses its directory, flush
status and request, and starts or resumes no reload unless its own was running. Arrival stamps (log 30), the commands
returned to a join (log 16), the walk's moment (log 22) and the departed command's note (log 15) are the model's. -/
def Obligations.OffersAndEvictions : Prop :=
  (∀ c : LineCmd, c.cls = match c with
    | .verdict _ _ | .remoteUnlock _ | .holdOpen | .secure => 1
    | .cacheRemove _ _ | .cacheFlush _ => 2
    | .cacheAdd _ _ _ | .identify | .backlogNext => 3) ∧
  (∀ (pl : Place) (c : LineCmd),
    (pl.queueLen < 4 → (pl.offer c).delivery = pl.delivery ∧ (∀ x ∈ pl.waiting, x ∈ (pl.offer c).waiting) ∧
      (pl.offer c).queueLen = pl.queueLen + 1 ∧ ∃ x ∈ (pl.offer c).waiting, x.cmd = c) ∧
    (4 ≤ pl.queueLen → (∀ x ∈ pl.queue, x.cmd.cls ≤ c.cls) → (pl.offer c).queue = pl.queue) ∧
    (4 ≤ pl.queueLen → (∃ x ∈ pl.queue, c.cls < x.cmd.cls) → ∃ v ∈ pl.queue,
      (∀ x ∈ pl.queue, x.cmd.cls ≤ v.cmd.cls) ∧ (∀ x ∈ pl.queue, x.cmd.cls = v.cmd.cls → x.stamp ≤ v.stamp) ∧
      (∀ x ∈ pl.queue, x ≠ v → x ∈ (pl.offer c).queue) ∧ (pl.offer c).queueLen ≤ pl.queueLen ∧
      ∃ x ∈ (pl.offer c).waiting, x.cmd = c)) ∧
  (∀ (pl : Place) (c : LineCmd),
    let noted (c : LineCmd) (st : CmdStatus) (q : Place) : Place := match c with
      | .cacheAdd slot _ i => { q with directory := q.directory.map (fun d =>
          if d.slot = slot ∧ d.index = i ∧ ∃ x ∈ [CmdStatus.queued, .carried, .owed, .doubtful], d.state = .adding x then
            { d with state := .adding st } else d) }
      | .cacheRemove slot i => { q with directory := q.directory.map (fun d =>
          if d.slot = slot ∧ d.index = i ∧ ∃ x ∈ [CmdStatus.queued, .carried, .owed, .doubtful], d.state = .removing x then
            { d with state := .removing st } else d) }
      | .cacheFlush false => { q with flush := q.flush.map (fun _ => st) }
      | .cacheFlush true | .identify => { q with joinOwed := q.joinOwed ++ [c] }
      | .verdict _ _ | .remoteUnlock _ | .holdOpen | .secure | .backlogNext => q
    let taken (q : Place) : Place := match c with
      | .cacheAdd _ _ _ | .cacheRemove _ _ => noted c .queued q
      | .cacheFlush false => { q with flush := some .queued }
      | .holdOpen => { q with mark := .holdQueued }
      | .secure => { q with mark := .secureQueued }
      | .verdict _ _ | .remoteUnlock _ | .cacheFlush true | .identify | .backlogNext => q
    (pl.queueLen < 4 → ∃ w, pl.offer c = taken { pl with waiting := w }) ∧
    (4 ≤ pl.queueLen → (∀ x ∈ pl.queue, x.cmd.cls ≤ c.cls) → pl.offer c = noted c .owed pl) ∧
    (4 ≤ pl.queueLen → (∃ x ∈ pl.queue, c.cls < x.cmd.cls) → ∃ v ∈ pl.queue, ∃ w, c.cls < v.cmd.cls ∧
      pl.offer c = taken { pl.evict v with waiting := w }) ∧
    ∀ v, (pl.delivery = some v → pl.evict v = noted v.cmd .doubtful
        { pl with delivery := none, uncertain := true, departed := some ⟨v.cmd, pl.nextBit, false⟩ }) ∧
      (pl.delivery ≠ some v →
        pl.evict v = noted v.cmd .owed { pl with waiting := pl.waiting.filter (fun x => x != v) })) ∧
  (∀ (s : State) (guest : Bool) (d : DoorRec) (c : Cred), s.inPlan guest d c = true ↔ c.state = .active ∧
    ((guest = true ∧ c.kind = .guest ∧ ∃ r z u h g, d = .roomDoor r z u h ∧ c.guest = some g ∧ g.room = r ∧
        ∀ a, s.accepted r = some a → a ≤ g.generation) ∨
      (guest = false ∧ d.isLocked = true ∧
        (c.kind = .emergency ∨ (c.kind = .master ∧ ∃ z, d.zone? = some z ∧ c.zones.getLsbD z = true))))) ∧
  (∀ (pl : Place) (c : LineCmd),
    (pl.queueLen < 4 → ∃ hi lo n, pl.waiting = hi ++ lo ∧ (pl.offer c).waiting = hi ++ [⟨c, n⟩] ++ lo ∧
      (∀ x ∈ hi, x.cmd.cls ≤ c.cls) ∧ (∀ x, lo.head? = some x → c.cls < x.cmd.cls) ∧ ∀ x ∈ pl.queue, x.stamp < n) ∧
    (pl.waiting.Pairwise (fun x y => x.cmd.cls ≤ y.cmd.cls) →
      (pl.offer c).waiting.Pairwise (fun x y => x.cmd.cls ≤ y.cmd.cls))) ∧
  (∀ (pl : Place) (dg : Bool),
    (pl.uncertain = true → pl.choose dg = (pl, none)) ∧
    (∀ e, pl.uncertain = false → pl.delivery = some e → pl.choose dg = (pl, some e)) ∧
    (pl.uncertain = false → pl.delivery = none → (∀ x ∈ pl.waiting, dg = true ∧ ∃ a b i, x.cmd = .cacheAdd a b i) →
      pl.choose dg = (pl, none)) ∧
    ∀ e pre post, pl.uncertain = false → pl.delivery = none → pl.waiting = pre ++ e :: post →
      (∀ x ∈ pre, dg = true ∧ ∃ a b i, x.cmd = .cacheAdd a b i) → (dg = true → ∀ a b i, e.cmd ≠ .cacheAdd a b i) →
      (pl.choose dg).2 = some e ∧ (pl.choose dg).1.delivery = some e ∧
      (pl.choose dg).1.waiting = pl.waiting.filter (fun x => x != e)) ∧
  (∀ (pl : Place) (card : Nat → Nat), pl.queueLen < 4 → (∀ x ∈ pl.queue, x ∈ (pl.reoffer card).queue) ∧
    ((pl.reoffer card).queueLen < 4 → (pl.reoffer card).joinOwed = [] ∧
      (pl.reachable = true → (pl.reoffer card).flush ≠ some .owed ∧
        (pl.reoffer card).mark ≠ .holdOwed ∧ (pl.reoffer card).mark ≠ .secureOwed) ∧
      ∀ d ∈ (pl.reoffer card).directory, d.state ≠ .adding .owed ∧ d.state ≠ .removing .owed)) ∧
  (∀ (s : State) (p : Nat), s.Canonical → (s.requestReload p).reloadAsked p ∧
    ((s.seg (segOf p)).terminal = false → (s.seg (segOf p)).served = dropOf p →
      (s.requestReload p).seg (segOf p) = { s.seg (segOf p) with index := 0, pass := .guest, waits := false }) ∧
    s.requestReload p = { s with segs := (s.requestReload p).segs }) ∧
  (∀ (s : State) (p : Nat), let x := s.seg (segOf p)
    x.terminal = true ∨ x.served ≠ dropOf p → s.leaveCache p =
      (s.setPlace p { s.place p with directory := [], flush := none }).setSeg (segOf p)
        { x with requests := x.requests.filter (fun a => a != dropOf p) }) ∧
  (∀ (x : Segment) (a : Nat), x.requests.Pairwise (· < ·) → State.nextServed x = some a →
    a ∈ x.requests ∧ ((x.served < a ∧ ∀ b ∈ x.requests, x.served < b → a ≤ b) ∨
      ((∀ b ∈ x.requests, b ≤ x.served) ∧ ∀ b ∈ x.requests, a ≤ b))) ∧
  ∀ (s : State) (p pos : Nat) (guest : Bool) (cs : List (Nat × Cred)), s.Canonical →
    let r := State.walkPass p guest pos cs s
    r.1 = { s with places := r.1.places } ∧ (∀ d, d ≠ p → r.1.place d = s.place d) ∧
    (r.1.place p).door = (s.place p).door ∧
    (∀ d ∈ (s.place p).directory, ∃ e ∈ (r.1.place p).directory, e.slot = d.slot ∧ e.index = d.index) ∧
    (∀ d ∈ (r.1.place p).directory, (∃ e ∈ (s.place p).directory, e.slot = d.slot ∧ e.index = d.index) ∨
      ∃ c, (d.index, c) ∈ cs ∧ s.inPlan guest (s.place p).door c = true ∧ d.slot ∈ classSlots guest) ∧
    (r.2 = .done → ∀ e ∈ cs, s.inPlan guest (s.place p).door e.2 = true → (r.1.place p).namesIndex e.1 = true) ∧
    (∀ i, r.2 = .waiting i → 4 ≤ (r.1.place p).queueLen ∧ (r.1.place p).namesIndex i = false ∧
      ∃ c, (i, c) ∈ cs ∧ s.inPlan guest (s.place p).door c = true) ∧
    ∀ i, r.2 = .full i → (r.1.place p).freeSlot guest = none

/-! ## Responses -/

/-- R66, R84, R94, R95: RESPONSE_WINDOW_CLOSE ends an exchange without a response: the drop's misses rise and hold at
16, the terminator's at 3; what their third or sixteenth brings is due; a probe of an ABSENT drop counts none. A bad
response is the same and counted in the error window where the scheduler runs. The mark of a priority poll due (log
28), that of what is due (log 1), that SILENT becomes due at a count of exactly 3 (log 2) and that nothing changes
with no exchange under way (log 7) are the model's choices. -/
def Obligations.MissedAndBadExchanges : Prop :=
  (∀ (g : Fin 4) (s : State) (e : Exchange), s.due = [] → s.Canonical → (s.seg g.val).exchange = some e →
    e.kind ≠ .test → e.addr ≠ 0 →
    let p := placeOf g.val e.addr
    let n := min 16 ((s.place p).misses + 1)
    ∃ t, exec (.responseWindowClose g) s = .next t ∧
      t.seg g.val = { s.seg g.val with
        exchange := none
        prioDue := (s.seg g.val).prioDue || e.kind == .normal || e.kind == .probe } ∧
      (∀ h, h ≠ g.val → t.seg h = s.seg h) ∧
      t = { s with segs := t.segs, places := t.places, due := t.due } ∧
      ((s.place p).presence = .absent → t.places = s.places ∧ t.due = []) ∧
      ((s.place p).presence ≠ .absent → t.place p = { s.place p with misses := n } ∧
        (∀ q, q ≠ p → t.place q = s.place q) ∧
        (Due.missSilent p ∈ t.due ↔ (s.place p).presence = .present ∧ n = 3) ∧ (Due.missAbsent p ∈ t.due ↔ n = 16))) ∧
  (∀ (g : Fin 4) (s : State) (e : Exchange), s.due = [] → s.Canonical → (s.seg g.val).exchange = some e →
    e.kind ≠ .test → e.addr = 0 →
    ∃ t, exec (.responseWindowClose g) s = .next t ∧
      t.seg g.val = { s.seg g.val with
        termMisses := min 3 ((s.seg g.val).termMisses + 1), exchange := none
        prioDue := (s.seg g.val).prioDue || e.kind == .normal || e.kind == .probe } ∧
      (∀ h, h ≠ g.val → t.seg h = s.seg h) ∧ t = { s with segs := t.segs, due := t.due } ∧
      (Due.terminatorDown g.val ∈ t.due ↔ 2 ≤ (s.seg g.val).termMisses)) ∧
  (∀ (g : Fin 4) (s : State) (frame : List Byte) (e : Exchange), s.due = [] → s.Canonical →
    (s.seg g.val).exchange = some e → validResponse e frame = none →
    exec (.responseReceived g frame) s = exec (.responseWindowClose g)
      (if (s.seg g.val).line = .inService ∨ (s.seg g.val).line = .degraded then
        s.setSeg g.val { s.seg g.val with badCount := min 255 ((s.seg g.val).badCount + 1) }
      else s)) ∧
  ∀ (g : Fin 4) (s : State) (frame : List Byte), s.due = [] → (s.seg g.val).exchange = none →
    exec (.responseReceived g frame) s = .next s ∧ exec (.responseWindowClose g) s = .next s

/-- R92 to R94: the terminator's exchanges. A supervised one clears the misses, and PANEL_LOOP brings TEST_PLUG with
its re-test seconds. In a line test an exchange fails its attempt where the pattern does not return: where it is
answered otherwise, missed, or, while TESTING, badly answered; the missed and the bad one change nothing else. An
attempt failed is counted at its eighth exchange; PANEL_LOOP once seen stays the wiring seen. After the 32nd exchange,
answered or missed, PANEL_LOOP brings TEST_PLUG, else no failed attempt IN_SERVICE, one to three DEGRADED and four
FAILED; TEST_PLUG and FAILED set the re-test seconds to 60, IN_SERVICE and DEGRADED clear the bad count, the clean
windows and the terminator's misses (R97); a pending SEGMENT TEST is answered DONE with line state, failed attempts
and wiring; an answered 32nd writes SEGMENT_STATE with both states, failed attempts and wiring. The mark of a priority
poll due is the model's (log 28), as are the clean windows (log 46). -/
def Obligations.TerminatorExchanges : Prop :=
  (∀ (g : Fin 4) (s : State) (frame : List Byte) (e : Exchange) (r : Response), s.due = [] → s.Canonical →
    (s.seg g.val).exchange = some e → e.kind ≠ .test → e.addr = 0 → validResponse e frame = some r →
    ∃ t, exec (.responseReceived g frame) s = .next t ∧ (∀ h, h ≠ g.val → t.seg h = s.seg h) ∧
      (r.status = 0#8 → t = { s with segs := t.segs } ∧ t.seg g.val = { s.seg g.val with
        termMisses := 0, exchange := none
        prioDue := (s.seg g.val).prioDue || e.kind == .normal || e.kind == .probe }) ∧
      (r.status ≠ 0#8 → (t.seg g.val).line = .testPlug ∧ (t.seg g.val).retest = 60 ∧ (t.seg g.val).test = none)) ∧
  (∀ (g : Fin 4) (s : State) (frame : List Byte) (e : Exchange) (r : Response) (x : TestProgress), s.due = [] →
    s.Canonical → (s.seg g.val).exchange = some e → e.kind = .test → (s.seg g.val).test = some x →
    validResponse e frame = some r → (x.attempt < 4 ∨ x.exchange < 8) →
    ∃ t, exec (.responseReceived g frame) s = .next t ∧ t = { s with segs := t.segs } ∧
      (∀ h, h ≠ g.val → t.seg h = s.seg h) ∧
      t.seg g.val = { s.seg g.val with
        exchange := none
        test := some (State.advanceTest x (decide (r.event = .echo (State.testPattern x))) (wiringOf r.status)).1 }) ∧
  (∀ (g : Fin 4) (s : State) (e : Exchange) (x : TestProgress), s.due = [] → s.Canonical →
    (s.seg g.val).exchange = some e → e.kind = .test → (s.seg g.val).test = some x → (x.attempt < 4 ∨ x.exchange < 8) →
    ∃ t, exec (.responseWindowClose g) s = .next t ∧ t = { s with segs := t.segs } ∧
      (∀ h, h ≠ g.val → t.seg h = s.seg h) ∧
      t.seg g.val = { s.seg g.val with exchange := none, test := some (State.advanceTest x false .none).1 } ∧
      ((s.seg g.val).line = .testing → ∀ frame, validResponse e frame = none →
        exec (.responseReceived g frame) s = .next t)) ∧
  (∀ (x : TestProgress) (passed : Bool) (seen : Wiring),
    let bad := x.attemptFailed || !passed
    let f := if bad then x.failed + 1 else x.failed
    let w := State.seeWiring x.wiring seen
    (x.exchange < 8 → State.advanceTest x passed seen = (⟨x.attempt, x.exchange + 1, x.failed, w, bad⟩, false)) ∧
    (8 ≤ x.exchange → x.attempt < 4 → State.advanceTest x passed seen = (⟨x.attempt + 1, 1, f, w, false⟩, false)) ∧
    (8 ≤ x.exchange → 4 ≤ x.attempt → State.advanceTest x passed seen = (⟨x.attempt, x.exchange, f, w, bad⟩, true)) ∧
    (w = .panelLoop ↔ x.wiring = .panelLoop ∨ seen = .panelLoop) ∧ (w = .none ↔ x.wiring = .none ∧ seen = .none)) ∧
  (∀ (g : Fin 4) (s : State) (frame : List Byte) (e : Exchange) (r : Response) (x : TestProgress), s.due = [] →
    s.Canonical → (s.seg g.val).exchange = some e → e.kind = .test → (s.seg g.val).test = some x →
    validResponse e frame = some r → x.attempt = 4 → x.exchange = 8 →
    let failed := x.attemptFailed = true ∨ r.event ≠ .echo (State.testPattern x)
    let f := if failed then x.failed + 1 else x.failed
    let loop := x.wiring = .panelLoop ∨ r.status ≠ 0#8
    ∃ t, exec (.responseReceived g frame) s = .next t ∧ (t.seg g.val).test = none ∧ (t.seg g.val).exchange = none ∧
      (t.seg g.val).line = (if loop then .testPlug else if f = 0 then .inService else if f < 4 then .degraded else .failed) ∧
      (loop ∨ 4 ≤ f → (t.seg g.val).retest = 60) ∧ (t.seg g.val).pendingTest = none ∧
      (¬loop → f < 4 → (t.seg g.val).badCount = 0 ∧ (t.seg g.val).cleanWindows = 0 ∧ (t.seg g.val).termMisses = 0) ∧
      (s.journal.storable = true → ∃ m rest, t.journal.ring = s.journal.ring ++ m :: rest ∧ m.kind = .segmentState ∧
        m.spot = .segment g.val ∧ m.detail = [byte (lineCode (s.seg g.val).line), byte (lineCode (t.seg g.val).line),
          byte f, if loop then 2#8 else 1#8]) ∧
      (∀ h, h ≠ g.val → t.seg h = s.seg h) ∧
      ∀ tag src, (s.seg g.val).pendingTest = some (tag, src) → s.trunk.unitNumber ≠ 0 →
        (⟨tag, 0x0E#8, .done, [], [byte (lineCode (t.seg g.val).line), byte f, if loop then 2#8 else 1#8]⟩ : Completion)
          ∈ t.trunk.completions ++ t.trunk.waitingCompletions) ∧
  ∀ (g : Fin 4) (s : State) (e : Exchange) (x : TestProgress), s.due = [] → s.Canonical →
    (s.seg g.val).exchange = some e → e.kind = .test → (s.seg g.val).test = some x → x.attempt = 4 → x.exchange = 8 →
    ∃ t, exec (.responseWindowClose g) s = .next t ∧ (t.seg g.val).test = none ∧
      (t.seg g.val).line = (if x.wiring = .panelLoop then .testPlug else if x.failed < 3 then .degraded else .failed) ∧
      (t.seg g.val).pendingTest = none ∧ (t.seg g.val).exchange = none ∧
      (x.wiring = .panelLoop ∨ 3 ≤ x.failed → (t.seg g.val).retest = 60) ∧
      (x.wiring ≠ .panelLoop → x.failed < 3 →
        (t.seg g.val).badCount = 0 ∧ (t.seg g.val).cleanWindows = 0 ∧ (t.seg g.val).termMisses = 0) ∧
      (∀ h, h ≠ g.val → t.seg h = s.seg h) ∧
      ((s.seg g.val).line = .testing → ∀ frame, validResponse e frame = none →
        exec (.responseReceived g frame) s = .next t) ∧
      (∀ tag src, (s.seg g.val).pendingTest = some (tag, src) → s.trunk.unitNumber ≠ 0 →
        (⟨tag, 0x0E#8, .done, [], [byte (lineCode (t.seg g.val).line), byte (x.failed + 1), byte (wiringCode x.wiring)]⟩
          : Completion) ∈ t.trunk.completions ++ t.trunk.waitingCompletions)

/-- R85 to R87: a valid response to a probe of an ABSENT drop, without an event, makes the drop JOINING at join step
IDENTIFY, with no misses, the next bit taken from the echo and an IDENTIFY in its queue. An IDENTITY taken at that
step is compared with the door record: a kind that does not match brings MISMATCH and its fault; one that matches
keeps the serial, with LOCK_REPLACED where another was known, and goes on: WAITING in DEGRADED, PRESENT for a minibar,
else the join flush. A confirmed join flush makes the drop PRESENT, no longer cache-suspect, with its record and a
reload requested. That the condition of the response is taken after the presence change is the model's order (log 14);
that an IDENTITY off the step IDENTIFY changes nothing is its reading (log 16); that the serial reported is kept
beside the reported kind is its choice (log 26). -/
def Obligations.ProbeAnswered : Prop :=
  (∀ (g : Fin 4) (s : State) (frame : List Byte) (e : Exchange) (r : Response), s.due = [] → s.Canonical →
    (s.seg g.val).exchange = some e → e.kind = .probe → 1 ≤ e.addr → e.carried = none → e.resync = true →
    validResponse e frame = some r → r.event = .none →
    (s.place (placeOf g.val e.addr)).presence = .absent → (s.place (placeOf g.val e.addr)).queue = [] →
    (s.place (placeOf g.val e.addr)).departed = none →
    ∃ t, exec (.responseReceived g frame) s = .next t ∧
      (t.place (placeOf g.val e.addr)).presence = .joining ∧ (t.place (placeOf g.val e.addr)).misses = 0 ∧
      (t.place (placeOf g.val e.addr)).joinStep = .identify ∧ (t.place (placeOf g.val e.addr)).nextBit = !r.echo ∧
      (t.place (placeOf g.val e.addr)).uncertain = false ∧
      (∃ x ∈ (t.place (placeOf g.val e.addr)).queue, x.cmd = .identify) ∧
      (t.place (placeOf g.val e.addr)).backlog = r.status.getLsbD 3 ∧
      (∀ q, q ≠ placeOf g.val e.addr → t.place q = s.place q) ∧ t.creds = s.creds ∧ t.clock = s.clock ∧
      t.pendingCharges = s.pendingCharges ∧ t.revocations = s.revocations) ∧
  (∀ (d : DoorRec) (k : DropKind), kindMatches d k = true ↔
    (k = .lock ∧ d.isLocked = true) ∨ (k = .reader ∧ d.kindCode = 2) ∨ (k = .minibar ∧ d.isMinibar = true)) ∧
  (∀ (s : State) (p n : Nat) (k : DropKind), s.Canonical → (s.place p).joinStep = .identify →
    let t := s.identified p k n
    let told : Place := { s.place p with reportedKind := some k, reportedSerial := some n }
    (kindMatches (s.place p).door k = false →
      t.place p = { told with joinStep := .mismatch } ∧ (t.fault .dropMismatch).set = true ∧ t.journal = s.journal) ∧
    (kindMatches (s.place p).door k = true →
      (∀ old, (s.place p).lockSerial = some old → old ≠ n → s.journal.storable = true →
        ∃ x rest, t.journal.ring = s.journal.ring ++ x :: rest ∧ x.kind = .lockReplaced ∧ x.spot = .drop p ∧
          x.detail = le 4 old ++ le 4 n) ∧
      ((s.place p).lockSerial = none ∨ (s.place p).lockSerial = some n →
        (s.seg (segOf p)).line = .degraded ∨ (s.place p).door.isMinibar = false → t.journal = s.journal) ∧
      ((s.seg (segOf p)).line = .degraded → t.place p = { told with lockSerial := some n, joinStep := .waiting }) ∧
      ((s.seg (segOf p)).line ≠ .degraded → (s.place p).door.isMinibar = true →
        (t.place p).presence = .present ∧ (t.place p).joinStep = .none ∧ (t.place p).lockSerial = some n) ∧
      ((s.seg (segOf p)).line ≠ .degraded → (s.place p).door.isMinibar = false → (s.place p).queueLen < 4 →
        (t.place p).joinStep = .flush ∧ (t.place p).lockSerial = some n ∧ (t.place p).presence = (s.place p).presence ∧
        ∃ x ∈ (t.place p).waiting, x.cmd = .cacheFlush true))) ∧
  (∀ (s : State) (p n : Nat) (k : DropKind), (s.place p).joinStep ≠ .identify → s.identified p k n = s) ∧
  ∀ (s : State) (p : Nat), s.Canonical → (s.place p).joinStep = .flush → let t := s.joinFlushDone p
    (t.place p).presence = .present ∧ (t.place p).joinStep = .none ∧ (t.place p).suspect = false ∧ t.reloadAsked p ∧
    (s.flushConfirmed p).journal.ring <+: t.journal.ring ∧
    ((s.flushConfirmed p).journal.storable = true → ∃ x, t.journal.ring = (s.flushConfirmed p).journal.ring ++ [x] ∧
      x.kind = .dropPresence ∧ x.spot = .drop p ∧ x.detail = [byte (presenceCode .present)])

/-- R62, R71 to R73: a drop's valid response is taken as presence, condition, event, then answer; an expected answer
to the command in delivery takes it out, toggles the next bit, acts at its source and offers the freed place, and a
BACKLOG_NEXT so confirmed brings the next one while the flag is YES; another answer changes nothing; to a plain poll
it sets the next bit, and in resync settles what is in doubt: the departed command's bit as echo means that the drop
acted on it, the other value that it did not. R56, R61: a confirmed REMOTE_UNLOCK unlocks a SECURE or UNLOCKED door
and writes REMOTE_OPEN. R40: a confirmed HOLD_OPEN or SECURE sets the lock's hold, mark and door state. R107: a
confirmed CACHE_ADD leaves its entry HELD. R118, R120: a confirmed CACHE_REMOVE deletes its entry and takes the drop
out of the credential's record, freed where none is left. R119: a confirmed flush deletes the entries but additions
never carried, confirms every record at the drop, clears the suspect mark, and at a drop PRESENT or SILENT has a
reload requested. R105: an echo settles a cache command in doubt: acted on, it is confirmed, else owed again. The
order within a response (log 14, log 25) and what is settled only once (log 15, log 16) are the model's, as is the
offer at the settling response (log 51). -/
def Obligations.Confirmations : Prop :=
  (∀ (g : Fin 4) (s : State) (frame : List Byte) (e : Exchange) (r : Response) (q : QEntry) (n : Nat), s.due = [] →
    s.Canonical → (s.seg g.val).exchange = some e → e.kind ≠ .test → e.addr ≠ 0 → e.carried = some q →
    q.cmd = .remoteUnlock n → validResponse e frame = some r → r.event = .done → r.status.getLsbD 3 = false →
    let p := placeOf g.val e.addr
    (s.place p).delivery = some q → (s.place p).presence = .present → (s.place p).accepted = some (condOf r.status) →
    (s.place p).door.isLocked = true → (s.place p).doorState = .secure ∨ (s.place p).doorState = .unlocked →
    ∃ t, exec (.responseReceived g frame) s = .next t ∧ (t.place p).delivery = none ∧
      (t.place p).nextBit = !(s.place p).nextBit ∧ (t.place p).doorState = .unlocked ∧ (t.place p).unlockLeft = n ∧
      (t.place p).misses = 0 ∧
      (s.journal.storable = true → ∃ x, t.journal.ring = s.journal.ring ++ [x] ∧ x.kind = .remoteOpen ∧
        x.spot = .drop p ∧ x.detail = le 2 n ∧ x.marks.undelivered = false) ∧
      t.creds = s.creds ∧ t.pendingCharges = s.pendingCharges ∧ t.revocations = s.revocations) ∧
  (∀ (s : State) (p slot i k : Nat) (st : CmdStatus) (r : Revocation), s.Canonical →
    ⟨slot, i, .removing st⟩ ∈ (s.place p).directory → Tab.look s.revocations k = some r → r.index = i →
    p ∈ r.drops → (∀ j x, Tab.look s.revocations j = some x → x.index = i → j = k) →
    let t := s.removeConfirmed p slot i
    (∀ d ∈ (t.place p).directory, ∀ y, d ≠ ⟨slot, i, .removing y⟩) ∧
    ((∃ d ∈ r.drops, d ≠ p) →
      Tab.look t.revocations k = some { r with drops := r.drops.filter (fun d => d != p) } ∧ t.journal = s.journal) ∧
    ((∀ d ∈ r.drops, d = p) → Tab.look t.revocations k = none ∧
      (s.journal.storable = true → ∃ x, t.journal.ring = s.journal.ring ++ [x] ∧ x.kind = .revocationComplete ∧
        x.card = some r.card ∧ x.detail = [byte (causeCode r.cause)] ++ le 2 i)) ∧
    (∀ j, j ≠ k → Tab.look t.revocations j = Tab.look s.revocations j)) ∧
  (∀ (g : Fin 4) (s : State) (frame : List Byte) (e : Exchange) (r : Response), s.due = [] →
    (s.seg g.val).exchange = some e → e.kind ≠ .test → e.addr ≠ 0 → validResponse e frame = some r →
    let p := placeOf g.val e.addr
    exec (.responseReceived g frame) s = .next
      (((((s.endExchange g.val e).heard p r).takeCondition p r).takeEvent p r.event).takeAnswer p e r)) ∧
  (∀ (s : State) (p : Nat) (e : Exchange) (r : Response), e.carried = none → s.takeAnswer p e r = s.plainResponse p e r) ∧
  (∀ (s : State) (p : Nat) (e : Exchange) (r : Response) (q : QEntry), e.carried = some q →
    ((s.place p).delivery = some q → State.expects q.cmd r.event = true →
      let t := ((s.setPlace p { s.place p with delivery := none, nextBit := !(s.place p).nextBit }).handAnswer p q.cmd
        r.event).reoffer p
      let asks := q.cmd = .backlogNext ∧ (t.place p).backlog = true ∧ ∀ x ∈ (t.place p).queue, x.cmd ≠ .backlogNext
      (asks → s.takeAnswer p e r = t.setPlace p ((t.place p).offer .backlogNext)) ∧ (¬asks → s.takeAnswer p e r = t)) ∧
    ((s.place p).delivery ≠ some q ∨ State.expects q.cmd r.event = false → s.takeAnswer p e r = s)) ∧
  (∀ (c : LineCmd) (ev : LineEvent), State.expects c ev = true ↔
    (ev = .done ∧ c ≠ .identify ∧ c ≠ .backlogNext) ∨ (ev = .stale ∧ ∃ tag out, c = .verdict tag out) ∨
    (c = .identify ∧ ∃ k n, ev = .identity k n) ∨
    (c = .backlogNext ∧ (ev = .backlogEnd ∨ ∃ card tag d age, ev = .backlog card tag d age))) ∧
  (∀ (s : State) (p : Nat) (ev : LineEvent), s.Canonical → (s.place p).door.isLocked = true →
    let h := s.handAnswer p .holdOpen ev
    let c := s.handAnswer p .secure ev
    (h.place p).holding = true ∧ (c.place p).holding = false ∧
    (h.place p).mark = (if (s.place p).mark = .secureOwed ∨ (s.place p).mark = .secureQueued then (s.place p).mark else .none) ∧
    (c.place p).mark = (if (s.place p).mark = .holdOwed ∨ (s.place p).mark = .holdQueued then (s.place p).mark else .none) ∧
    (h.place p).doorState = (if (s.place p).doorState = .unknown then .unknown else .released) ∧
    ((s.place p).doorState = .unknown → (c.place p).doorState = .unknown) ∧
    (∀ x, (s.place p).doorState ≠ .unknown → (s.place p).accepted = some x →
      (c.place p).doorState = if x.isOpen then .openForced else .secure) ∧
    h = { s with places := h.places } ∧ c = { s with places := c.places }) ∧
  (∀ (s : State) (p slot card i : Nat) (ev : LineEvent), s.Canonical →
    let t := s.handAnswer p (.cacheAdd slot card i) ev
    t = { s with places := t.places } ∧ (∀ d, d ≠ p → t.place d = s.place d) ∧
    (t.place p).directory = (s.place p).directory.map (fun d =>
      if d.slot = slot ∧ d.index = i ∧ ∃ x ∈ [CmdStatus.queued, .carried, .owed, .doubtful], d.state = .adding x then
        { d with state := .held } else d)) ∧
  (∀ (s : State) (p : Nat), s.Canonical → let t := s.flushConfirmed p
    (t.place p).directory = (s.place p).directory.filter (fun d =>
      decide (d.state = .adding .queued ∨ d.state = .adding .owed)) ∧
    (t.place p).suspect = false ∧ (t.place p).flush = none ∧
    (∀ x ∈ (t.place p).waiting, x ∈ (s.place p).waiting ∧ ∀ a i, x.cmd ≠ .cacheRemove a i) ∧
    (∀ k r, Tab.look s.revocations k = some r → p ∉ r.drops → Tab.look t.revocations k = some r) ∧
    (∀ k r, Tab.look s.revocations k = some r → p ∈ r.drops → (∃ d ∈ r.drops, d ≠ p) →
      Tab.look t.revocations k = some { r with drops := r.drops.filter (fun d => d != p) }) ∧
    ∀ k r, Tab.look s.revocations k = some r → p ∈ r.drops → (∀ d ∈ r.drops, d = p) →
      Tab.look t.revocations k = none) ∧
  (∀ (s : State) (p : Nat) (ev : LineEvent), s.Canonical → (s.place p).reachable = true →
    (s.handAnswer p (.cacheFlush false) ev).reloadAsked p) ∧
  (∀ (s : State) (p : Nat) (e : Exchange) (r : Response), s.Canonical → e.carried = none → e.resync = false →
    s.plainResponse p e r = s.setPlace p { s.place p with nextBit := !r.echo }) ∧
  (∀ (s : State) (p : Nat) (e : Exchange) (r : Response), s.Canonical → e.resync = true →
    let asks := (∃ card tag, r.event = .presentation card tag) ∨ ∃ c taken, r.event = .compartment c taken
    (¬asks → ((s.plainResponse p e r).place p).uncertain = false ∧
      ((s.plainResponse p e r).place p).departed = none ∧ ((s.plainResponse p e r).place p).nextBit = !r.echo) ∧
    (asks → (s.place p).delivery = none → ((s.plainResponse p e r).place p).uncertain = (s.place p).uncertain ∧
      ∀ d, (s.place p).departed = some d → ((s.plainResponse p e r).place p).departed = some { d with settled := true })) ∧
  (∀ (s : State) (p : Nat) (r : Response),
    (∀ d, (s.place p).departed = some d → d.settled = false → s.settleDeparted p r =
      ((s.setPlace p { s.place p with departed := some { d with settled := true } }).settleDoubt p d.cmd
        (decide (r.echo = d.bit))).reoffer p) ∧
    ((∀ d, (s.place p).departed = some d → d.settled = true) → s.settleDeparted p r = s) ∧
    (∀ d, (s.place p).departed = some d → d.cmd = .backlogNext → r.echo = d.bit →
      s.departedBacklog p r = s.takeBacklog p r.event) ∧
    ((∀ d, (s.place p).departed = some d → d.cmd ≠ .backlogNext ∨ r.echo ≠ d.bit) → s.departedBacklog p r = s)) ∧
  (∀ (s : State) (p : Nat) (e : Exchange) (r : Response), e.resync = true →
    let t := ((s.setPlace p { s.place p with nextBit := !r.echo }).settleDeparted p r).departedBacklog p r
    let asks := (∃ card tag, r.event = .presentation card tag) ∨ ∃ c taken, r.event = .compartment c taken
    (asks → s.plainResponse p e r = t) ∧
    (¬asks → s.plainResponse p e r = t.setPlace p { t.place p with uncertain := false, departed := none })) ∧
  (∀ (s : State) (p slot card i : Nat), s.Canonical →
    ((s.settleDoubt p (.cacheAdd slot card i) true).place p).directory = (s.place p).directory.map (fun d =>
      if d.slot = slot ∧ d.index = i ∧ d.state = .adding .doubtful then { d with state := .held } else d) ∧
    ((∀ d ∈ (s.place p).directory, d.slot = slot → d.index = i → d.state = .adding .doubtful) →
      ((s.settleDoubt p (.cacheAdd slot card i) false).place p).directory = (s.place p).directory.map (fun d =>
        if d.slot = slot ∧ d.index = i then { d with state := .adding .owed } else d))) ∧
  (∀ (s : State) (p slot i : Nat), s.Canonical →
    s.settleDoubt p (.cacheRemove slot i) true = s.removeConfirmed p slot i ∧
    ((s.settleDoubt p (.cacheRemove slot i) false).place p).directory = (s.place p).directory.map (fun d =>
      if d.slot = slot ∧ d.index = i ∧ d.state = .removing .doubtful then { d with state := .removing .owed }
      else if d.slot = slot ∧ d.index = i ∧ d.state = .adding .doubtful then { d with state := .adding .owed } else d)) ∧
  (∀ (s : State) (p : Nat), s.Canonical → (s.place p).flush = some .doubtful →
    s.settleDoubt p (.cacheFlush false) true = s.suspectFlushDone p ∧
    s.settleDoubt p (.cacheFlush false) false = s.setPlace p { s.place p with flush := some .owed }) ∧
  ∀ (s : State) (p : Nat) (c : LineCmd) (acted : Bool), c.cls = 1 ∨ c = .identify ∨ c = .backlogNext →
    s.settleDoubt p c acted = s

/-! ## Decisions -/

/-- R44, R45, R50: a presentation first abandons one outstanding (UNDELIVERED; an unsent VERDICT of it is withdrawn,
and, while no queue exceeds its four commands, every other queued command stays) and takes a VERDICT of its own tag
out of delivery, whose bit is then uncertain; it is then evaluated; a step that ends the credential revokes it with
its cause (R49); then it is held with its evaluation and its VERDICT enters the queue, with the door's unlock seconds,
TIME or REFUSED, or, where four class-1 commands stand there, is abandoned with its record UNDELIVERED. R51, R52: a
confirmed VERDICT of the outstanding presentation ends it with its record; a GRANT unlocks a SECURE or UNLOCKED door,
opens a minibar's window (R138), and, for a GUEST card of a higher generation at its room's door, raises the accepted
generation and makes the lower ACTIVE ones SUPERSEDED (R21); STALE records STALE alone; one of another tag changes
nothing. The record is DOOR_GRANT or DOOR_DENY with card, reason and marks, UNTIMED where the evaluation was. R62 to
R64: a drop with a backlog has one BACKLOG_NEXT; a backlog record becomes one OFFLINE_ENTRY with the card, the lock's
verdict, LATE and its time counted back by its age while the clock runs, at the earliest to 0, with CONFLICT and its
fault where the lock let in a card that the unit finds unknown, revoked, superseded or expired; it changes no
credential. That the room and generation are kept at a RELEASED zone too is log 62, the withdrawal before the
evaluation log 63, the order of the parts of a response log 14, what a departed command keeps log 15, the byte of
RELEASED in a record's detail log 54. -/
def Obligations.PresentationIsAnswered : Prop :=
  (∀ (s : State) (p card tag : Nat), s.Canonical → (s.place p).presentation = none → (s.place p).delivery = none →
    (s.place p).class1 < 4 → (s.evaluate p card true).ends = none →
    let v := s.evaluate p card true
    let t := s.present p card tag
    t = { s with places := t.places } ∧ (∀ q, q ≠ p → t.place q = s.place q) ∧
    (t.place p).presentation = some ⟨tag, card, v.found, v.verdict, v.released, v.untimed, false⟩ ∧
    (∃ x ∈ (t.place p).waiting, x.cmd = .verdict tag (s.verdictOut (s.place p).door v.verdict)) ∧
    (t.place p).door = (s.place p).door ∧ (t.place p).doorState = (s.place p).doorState) ∧
  (∀ (s : State) (p card tag : Nat), let u := (s.abandon p).withdrawSent p tag
    let v := u.evaluate p card true
    let pr : Presentation := ⟨tag, card, v.found, v.verdict, v.released, v.untimed, false⟩
    (∀ f cause, v.found = some f → v.ends = some cause → s.present p card tag = (u.revoke f.index cause).deliver p pr) ∧
    (v.found = none ∨ v.ends = none → s.present p card tag = u.deliver p pr)) ∧
  (∀ (s : State) (p : Nat), s.Canonical →
    let ended (u : State) : State := u.setPlace p { u.place p with presentation := none }
    ((s.place p).presentation = none → s.abandon p = s) ∧
    (∀ pr, (s.place p).presentation = some pr → pr.sent = true →
      s.abandon p = (ended s).handOver (State.presentationDraft p pr false true)) ∧
    (∀ pr, (s.place p).presentation = some pr → pr.sent = false → ∃ u : State,
      s.abandon p = (ended u).handOver (State.presentationDraft p pr false true) ∧
      u = { s with places := u.places, segs := u.segs } ∧ (u.place p).presentation = some pr ∧
      (u.place p).waits (State.isVerdict pr.tag) = false ∧
      (s.QueuesBounded → ∀ x ∈ (s.place p).queue, State.isVerdict pr.tag x.cmd = false ∨ (s.place p).delivery = some x →
        x ∈ (u.place p).queue)) ∧
    ∀ (u : State) (pr : Presentation) (stale lost : Bool), u.journal.storable = true →
      ∃ x, (u.handOver (State.presentationDraft p pr stale lost)).journal.ring = u.journal.ring ++ [x] ∧
        x.kind = (if pr.verdict = .grant then .doorGrant else .doorDeny) ∧ x.spot = .drop p ∧ x.card = some pr.card ∧
        x.marks.stale = stale ∧ x.marks.undelivered = lost ∧ (pr.untimed = true → x.marks.untimed = true) ∧
        (∀ why, pr.verdict = .deny why → x.verdict = some (.deny why)) ∧
        (pr.verdict = .grant → x.verdict = some (if pr.released then .grantReleased else .grant))) ∧
  (∀ (s : State) (p tag : Nat),
    ((∀ e out, (s.place p).delivery = some e → e.cmd ≠ .verdict tag out) → s.withdrawSent p tag = s) ∧
    ∀ e out, (s.place p).delivery = some e → e.cmd = .verdict tag out → s.withdrawSent p tag =
      (s.setPlace p { s.place p with
        delivery := none, uncertain := true, departed := some ⟨e.cmd, (s.place p).nextBit, false⟩ }).reoffer p) ∧
  (∀ (s : State) (p : Nat) (pr : Presentation), s.Canonical → let t := s.deliver p pr
    ((s.place p).class1 < 4 → t = { s with places := t.places } ∧ (∀ q, q ≠ p → t.place q = s.place q) ∧
      (t.place p).presentation = some pr ∧
      ∃ x ∈ (t.place p).waiting, x.cmd = .verdict pr.tag (s.verdictOut (s.place p).door pr.verdict)) ∧
    (4 ≤ (s.place p).class1 → t = (s.setPlace p { s.place p with presentation := none }).handOver
      (State.presentationDraft p pr false true))) ∧
  (∀ (s : State) (d : DoorRec),
    s.verdictOut d .grant = .grant (if d.isMinibar then s.policy.u else d.unlockSeconds) ∧
    s.verdictOut d (.deny .time) = .denyTime ∧ ∀ r, r ≠ .time → s.verdictOut d (.deny r) = .denyRefused) ∧
  (∀ (s : State) (p tag : Nat) (out : VerdictOut) (ev : LineEvent), (∀ pr, (s.place p).presentation = some pr → pr.tag ≠ tag) →
    s.handAnswer p (.verdict tag out) ev = s) ∧
  (∀ (s : State) (p : Nat) (out : VerdictOut) (pr : Presentation), s.Canonical → (s.place p).presentation = some pr →
    let ended := s.setPlace p { s.place p with presentation := none }
    s.handAnswer p (.verdict pr.tag out) .stale = ended.handOver (State.presentationDraft p pr true false) ∧
    (∀ why, pr.verdict = .deny why →
      s.handAnswer p (.verdict pr.tag out) .done = ended.handOver (State.presentationDraft p pr false false)) ∧
    ∀ n, pr.verdict = .grant → out = .grant n → let t := s.handAnswer p (.verdict pr.tag out) .done
      (t.place p).presentation = none ∧
      (s.journal.storable = true → ∃ x rest, t.journal.ring = s.journal.ring ++ x :: rest ∧ x.kind = .doorGrant ∧
        x.spot = .drop p ∧ x.card = some pr.card ∧ x.marks.stale = false ∧ x.marks.undelivered = false) ∧
      ((s.place p).door.isUnused = false → (s.place p).doorState = .secure ∨ (s.place p).doorState = .unlocked →
        (t.place p).doorState = .unlocked ∧ (t.place p).unlockLeft = n) ∧
      ((s.place p).doorState ≠ .secure → (s.place p).doorState ≠ .unlocked →
        (t.place p).doorState = (s.place p).doorState) ∧
      (∀ f k, (s.place p).door.isMinibar = true → pr.found = some f → State.windowKind f.kind = some k →
        (s.place p).doorState = .secure ∨ (s.place p).doorState = .unlocked →
        (t.place p).window = some ⟨k, pr.card⟩) ∧
      (∀ f r gen i x, (s.place p).door.isLocked = true → pr.found = some f → f.kind = .guest → f.guest = some (r, gen) →
        s.findRoom r = some (i, x) → x.door = some p → x.accepted < gen →
        t.accepted r = some gen ∧ (t.findRoom r).map (fun e => e.1) = some i ∧
        ∀ j c, s.cred j = some c →
          let lower := c.state = .active ∧ c.kind = .guest ∧ ∃ y, c.guest = some y ∧ y.room = r ∧ y.generation < gen
          (lower → t.cred j = some { c with state := .superseded }) ∧ (¬lower → t.cred j = some c)) ∧
      ((∀ f r gen i x, pr.found = some f → f.kind = .guest → f.guest = some (r, gen) → s.findRoom r = some (i, x) →
        x.door ≠ some p ∨ gen ≤ x.accepted) → t.creds = s.creds ∧ t.rooms = s.rooms)) ∧
  (∀ (s : State) (p : Nat),
    ((s.place p).backlog = true → (∀ x ∈ (s.place p).queue, x.cmd ≠ .backlogNext) →
      s.backlogRule p = s.setPlace p ((s.place p).offer .backlogNext)) ∧
    ((s.place p).backlog = false ∨ (∃ x ∈ (s.place p).queue, x.cmd = .backlogNext) → s.backlogRule p = s)) ∧
  ∀ (s : State) (p card tag age : Nat) (lockDeny : Bool), s.Canonical →
    let t := s.handAnswer p .backlogNext (.backlog card tag lockDeny age)
    let v := (s.evaluate p card false).verdict
    let conflict := lockDeny = false ∧ (v = .deny .unknown ∨ v = .deny .revoked ∨ v = .deny .superseded ∨ v = .deny .expired)
    s.handAnswer p .backlogNext .backlogEnd = s ∧
    (conflict → (t.fault .offlineConflict).set = true) ∧
    (¬conflict → t.fault .offlineConflict = s.fault .offlineConflict) ∧
    (s.journal.storable = true → ∃ x, t.journal.ring = s.journal.ring ++ [x] ∧ x.kind = .offlineEntry ∧
      x.spot = .drop p ∧ x.card = some card ∧ x.verdict = some (if lockDeny then .lockDeny else .grant) ∧
      x.marks.late = true ∧ (x.marks.conflict = true ↔ conflict) ∧
      (s.clock.state = .unset → x.minute = s.clock.m ∧ x.second = s.clock.s) ∧
      (s.clock.state = .running → age ≤ s.clock.m * 60 + s.clock.s →
        x.second < 60 ∧ x.minute * 60 + x.second + age = s.clock.m * 60 + s.clock.s) ∧
      (s.clock.state = .running → s.clock.m * 60 + s.clock.s < age → x.minute = 0 ∧ x.second = 0)) ∧
    t.creds = s.creds ∧ t.places = s.places

/-- R47 to R49: a presentation is granted exactly where the thirteen steps let the card through. Step by step, in
order: an UNUSED place, a RELEASED zone and an unknown card decide first; of a card known, the first step that holds
gives the verdict, its DENY reason and, at the step of the older generation and at the end of validity, the cause that
ends the credential; with none, GRANT. Spelled out are the reach (by kind, zone list, room and, at a minibar,
restock), the generation, the time test with R33's end of validity and R34's schedule, privacy, strict audit, and the
minibar's stay and cap. UNTIMED is marked exactly where the evaluation is a full one, reaches the time test and the
clock is UNSET (R34). A backlog record is evaluated by the steps before the time test alone (R64). That a RELEASED
zone's GRANT keeps the room and generation of a GUEST card is the model's choice (log 62). R137: a room's open stay is
the entry that its open stay field names. -/
def Obligations.GrantsArePermitted : Prop :=
  (∀ (s : State) (p card : Nat), (s.evaluate p card true).verdict = .grant ↔ s.Permits p card) ∧
  (∀ (s : State) (p card : Nat) (full : Bool), let d := (s.place p).door
    let v := s.evaluate p card full
    let free := d.isLocked = true ∧ s.zoneOfDoor d = .released
    let kept (e : Nat × Cred) : Found := ⟨e.1, e.2.kind, e.2.guest.map (fun g => (g.room, g.generation))⟩
    (d = .unused → v = ⟨.deny .unmapped, false, false, none, none⟩) ∧
    (free → v = ⟨.grant, true, false, (s.findCard card).map kept, none⟩) ∧
    (d ≠ .unused → ¬free → s.findCard card = none → v = ⟨.deny .unknown, false, false, none, none⟩) ∧
    ∀ i c, d ≠ .unused → ¬free → s.findCard card = some (i, c) →
      let zoned := ∃ z, d.zone? = some z ∧ c.zones.getLsbD z = true
      let home := ∃ g r, c.guest = some g ∧ d.room? = some r ∧ g.room = r
      let reach := (c.kind = .guest ∧ d.kindCode = 2 ∧ zoned) ∨ (c.kind = .guest ∧ d.kindCode ≠ 2 ∧ home) ∨
        (c.kind = .staff ∧ zoned ∧ (d.kindCode = 3 → c.restock = true)) ∨ (c.kind = .master ∧ zoned ∧ d.kindCode ≠ 3)
      let older := c.kind = .guest ∧ ∃ g r a, c.guest = some g ∧ d.room? = some r ∧ s.accepted r = some a ∧ g.generation < a
      let running := s.clock.state = .running
      let early := ∃ a b, c.validity = some (a, b) ∧ s.clock.m < a
      let passed := ∃ a b, c.validity = some (a, b) ∧ (b + if c.kind = .guest then s.policy.g else 0) ≤ s.clock.m
      let shut := ∃ n, (s.schedule n).admits s.clock.w = false ∧
        ((c.kind = .staff ∧ c.schedule = some n) ∨ (c.kind = .guest ∧ ∃ z u h, d = .commonDoor z (some n) u h))
      let bolted := d.kindCode = 1 ∧ (∃ x, (s.place p).accepted = some x ∧ x.bolt = true) ∧
        ¬(c.kind = .master ∧ c.boltOverride = true)
      let strict := s.journal.held = 2048 ∧ s.policy.strictAudit = true ∧ (c.kind = .staff ∨ c.kind = .master)
      let minibar := c.kind = .guest ∧ d.kindCode = 3
      let noStay := ∃ g r, c.guest = some g ∧ d.room? = some r ∧ ∀ e, s.openStay r = some e → e.2.number ≠ g.stay
      let spent := ∃ r e, d.room? = some r ∧ s.openStay r = some e ∧ e.2.cap ≤ e.2.total
      let first : List (Prop × Verdict × Option Cause) := [(c.state = .revoked, .deny .revoked, none),
        (c.state = .superseded, .deny .superseded, none), (c.state = .expired, .deny .expired, none),
        (c.kind = .emergency, .grant, none),
        (d.isLocked = true ∧ s.zoneOfDoor d = .closed ∧ (c.kind = .guest ∨ c.kind = .staff), .deny .closed, none),
        (¬reach, .deny .reach, none), (older, .deny .superseded, some .supersede)]
      let second : List (Prop × Verdict × Option Cause) := [(running ∧ early, .deny .time, none),
        (running ∧ passed, .deny .expired, some .expiry), (running ∧ shut, .deny .time, none), (bolted, .deny .privacy, none),
        (strict, .deny .audit, none), (minibar ∧ noStay, .deny .stay, none),
        (minibar ∧ (∃ g, c.guest = some g) ∧ spent, .deny .cap, none)]
      let steps := first ++ if full then second else []
      v.found = some (kept (i, c)) ∧ v.released = false ∧
      (v.untimed = true ↔ full = true ∧ s.clock.state = .unset ∧ ∀ x ∈ first, ¬x.1) ∧
      (∀ pre x post, steps = pre ++ x :: post → (∀ y ∈ pre, ¬y.1) → x.1 → v.verdict = x.2.1 ∧ v.ends = x.2.2) ∧
      ((∀ x ∈ steps, ¬x.1) → v.verdict = .grant ∧ v.ends = none)) ∧
  (∀ (s : State) (c : Cred), s.credEnd c = c.validity.map (fun v => v.2 + if c.kind = .guest then s.policy.g else 0)) ∧
  (∀ (d : DoorRec) (c : Cred) (n : Nat), State.scheduleFor d c = some n ↔
    (c.kind = .staff ∧ c.schedule = some n) ∨ (c.kind = .guest ∧ ∃ z u h, d = .commonDoor z (some n) u h)) ∧
  ∀ (s : State) (r i : Nat) (x : Stay), s.openStay r = some (i, x) ↔
    x.isOpen = true ∧ ∃ j y n, s.findRoom r = some (j, y) ∧ y.openStay = some n ∧ s.findStay n = some (i, x)

/-- R32: an interval admits W when the minutes from its start to W, modulo a week, are below its length; a schedule
admits W when one of its present slots does; the test uses the W now held, and is made while the clock is RUNNING
only. -/
def Obligations.SchedulesAdmit : Prop :=
  (∀ (i : Interval) (w : Nat), i.start ≤ 10079 → w ≤ 10079 →
    (i.admits w = true ↔ ((w : Int) - (i.start : Int)) % 10080 < (i.length : Int))) ∧
  (∀ (x : Schedule) (w : Nat), x.admits w = true ↔
    ∃ i, (x.slot0 = some i ∨ x.slot1 = some i ∨ x.slot2 = some i ∨ x.slot3 = some i) ∧ i.admits w = true) ∧
  (∀ (s : State) (d : DoorRec) (c : Cred), s.clock.state = .unset → s.stepTime d c = .pass) ∧
  ∀ (s : State) (d : DoorRec) (c : Cred) (n : Nat), s.clock.state = .running → s.tooEarly c = false → s.ended c = false →
    State.scheduleFor d c = some n →
    s.stepTime d c = if (s.schedule n).admits s.clock.w then .pass else .deny .time none

/-! ## The trunk -/

/-- R171, R172: FRAME_RECEIVED: a good frame enters its port's queue, or is counted as an overrun where eight stand
there; a bad frame is counted and gives fault TRUNK_CHECK, whose detail at a fault found CLEAR names the port, filled
with 0 (log 20); bytes that do not begin with the delimiter only show that the link is CONNECTED. That bytes of either
sort show the link CONNECTED, and what bytes without a delimiter do, are the model's choices (log 24). -/
def Obligations.FramesAreReceived : Prop :=
  (∀ (s : State) (bs : List Byte) (f : TrunkFrame), s.due = [] → bs.head? = some 0xA5#8 →
    (readFrame .uplink bs = some f → s.trunk.classifier.length < 8 → exec (.frameReceived .uplink bs) s =
      .next { s with trunk := { s.trunk with upLink := true, classifier := s.trunk.classifier ++ [f] } }) ∧
    (readFrame .downlink bs = some f → s.trunk.passThrough.length < 8 → exec (.frameReceived .downlink bs) s =
      .next { s with trunk := { s.trunk with downLink := true, passThrough := s.trunk.passThrough ++ [f] } }) ∧
    (readFrame .uplink bs = some f → 8 ≤ s.trunk.classifier.length → exec (.frameReceived .uplink bs) s =
      .next { s with trunk := { s.trunk with upLink := true, upOverruns := min 65535 (s.trunk.upOverruns + 1) } }) ∧
    (readFrame .downlink bs = some f → 8 ≤ s.trunk.passThrough.length → exec (.frameReceived .downlink bs) s =
      .next { s with trunk := { s.trunk with
        downLink := true, downOverruns := min 65535 (s.trunk.downOverruns + 1) } })) ∧
  (∀ (s : State) (bs : List Byte), s.due = [] → s.Canonical → bs.head? = some 0xA5#8 →
    (readFrame .uplink bs = none → ∃ t, exec (.frameReceived .uplink bs) s = .next t ∧
      (t.fault .trunkCheck).set = true ∧
      ((s.fault .trunkCheck).set = false → (t.fault .trunkCheck).detail = some [0#8, 0#8, 0#8]) ∧
      t = { s with faults := t.faults, alarm := t.alarm, trunk := { s.trunk with
        upLink := true, upErrors := min 65535 (s.trunk.upErrors + 1), notices := t.trunk.notices } }) ∧
    (readFrame .downlink bs = none → ∃ t, exec (.frameReceived .downlink bs) s = .next t ∧
      (t.fault .trunkCheck).set = true ∧
      ((s.fault .trunkCheck).set = false → (t.fault .trunkCheck).detail = some [1#8, 0#8, 0#8]) ∧
      t = { s with faults := t.faults, alarm := t.alarm, trunk := { s.trunk with
        downLink := true, downErrors := min 65535 (s.trunk.downErrors + 1), notices := t.trunk.notices } })) ∧
  ∀ (s : State) (bs : List Byte), s.due = [] → bs.head? ≠ some 0xA5#8 →
    exec (.frameReceived .uplink bs) s = .next { s with trunk := { s.trunk with upLink := true } } ∧
    exec (.frameReceived .downlink bs) s = .next { s with trunk := { s.trunk with downLink := true } }

/-- R170, R172, R180, R181, R184: PARTNER_HOLD and LINK_CONNECT; LINK_DISCONNECT of UPLINK loses the frame cut off in
transmission and keeps every queue; of DOWNLINK it drops the downlink queue, a frame cut off first, each frame not a
broadcast being answered NO_ROUTE, in order. No frame is in transmission at a lost link: the one begun last was cut
off or had ended. The cut flags are the model's operands (log 6); that the partner's hold is kept and the order of the
NO_ROUTE completions are its choices (log 24), and so is that the room bytes of a frame to a unit number stand in its
NO_ROUTE as they came, 0 or not (log 66). -/
def Obligations.HoldsAndLinks : Prop :=
  (∀ (s : State) (x : Bool), s.due = [] →
    exec (.partnerHold .uplink x) s = .next { s with trunk := { s.trunk with upHeld := x } } ∧
    exec (.partnerHold .downlink x) s = .next { s with trunk := { s.trunk with downHeld := x } }) ∧
  (∀ s : State, s.due = [] →
    exec (.linkConnect .uplink) s = .next { s with trunk := { s.trunk with upLink := true } } ∧
    exec (.linkConnect .downlink) s = .next { s with trunk := { s.trunk with downLink := true } }) ∧
  (∀ (s : State) (txCut : Bool), s.due = [] → s.trunk.upLink = true →
    exec (.linkDisconnect .uplink false txCut) s = .next { s with trunk := { s.trunk with
      upLink := false, upTx := none } }) ∧
  (∀ (s : State) (txCut : Bool), s.due = [] → s.trunk.downLink = true → s.trunk.unitNumber ≠ 0 →
    ∃ t, exec (.linkDisconnect .downlink false txCut) s = .next t ∧
      t = { s with trunk := { s.trunk with
        downLink := false, downlink := [], downTx := none
        completions := t.trunk.completions, waitingCompletions := t.trunk.waitingCompletions } } ∧
      t.trunk.completions ++ t.trunk.waitingCompletions = s.trunk.completions ++ s.trunk.waitingCompletions ++
        (((if txCut then s.trunk.downTx.toList else []) ++ s.trunk.downlink).filter (fun f => f.dest != 0#8)).map
          (fun f => ⟨f.tag, f.kind, .noRoute, [f.dest] ++ le 2 f.room, []⟩)) ∧
  (∀ (s : State) (txCut : Bool), s.due = [] → s.Canonical →
    (s.trunk.upLink = true → ∃ t, exec (.linkDisconnect .uplink true txCut) s = .next t ∧
      t.trunk.upErrors = min 65535 (s.trunk.upErrors + 1) ∧ (t.fault .trunkCheck).set = true ∧ t.trunk.upLink = false) ∧
    (s.trunk.downLink = true → ∃ t, exec (.linkDisconnect .downlink true txCut) s = .next t ∧
      t.trunk.downErrors = min 65535 (s.trunk.downErrors + 1) ∧ (t.fault .trunkCheck).set = true ∧
      t.trunk.downLink = false ∧ t.trunk.downlink = [])) ∧
  ∀ (s : State) (port : Port) (rxCut txCut : Bool), s.due = [] → s.link port = false →
    exec (.linkDisconnect port rxCut txCut) s = .next s

/-- R173 to R176, R178, R180: CLASSIFY_FRAME takes the oldest frame of the classifier queue while its three conditions
hold, and consumes it, forwards it, or both; in STARTING and BYPASS a unit frame or a broadcast consumed is answered,
the broadcast being forwarded as well, and a covered ROOM frame is answered in STARTING and forwarded in BYPASS. R176,
R178: a room is covered where an enabled window's run, no further than drop 32, takes it in; the lowest such window
gives the place; a conflict is a door record there of another room, and is refused MAP_CONFLICT with the window and
that room. A consumed frame is held as the request in progress until its own row runs (log 5); nothing changes where
the conditions do not hold (log 7); the room bytes of a frame to a unit number stand in its NO_ROUTE as they came, 0 or
not (log 66). -/
def Obligations.FramesAreClassified : Prop :=
  (∀ (s : State) (f : TrunkFrame) (fs : List TrunkFrame), s.due = [] → s.trunk.classifier = f :: fs →
    s.trunk.downlink.length < 8 ∨ s.trunk.downLink = false → s.request = none → s.trunk.completions.length < 8 →
    s.trunk.waitingCompletions = [] →
    let s1 : State := { s with trunk := { s.trunk with classifier := fs } }
    let q (form : DestForm) : Request := ⟨form, f.source, f.tag, f.payload⟩
    let elsewhere := f.dest ≠ 0#8 ∧ ((f.dest = 255#8 ∧ (s.status = .bypass ∨ s.covered f.room = false)) ∨
      (f.dest ≠ 255#8 ∧ f.dest.toNat ≠ s.trunk.unitNumber))
    let here := f.dest ≠ 0#8 ∧ f.dest ≠ 255#8 ∧ f.dest.toNat = s.trunk.unitNumber
    (elsewhere → s.trunk.downLink = true →
      exec .classifyFrame s = .next { s1 with trunk := { s1.trunk with downlink := s.trunk.downlink ++ [f] } }) ∧
    (elsewhere → s.trunk.downLink = false →
      exec .classifyFrame s = .next (s1.buildCompletion ⟨f.tag, f.kind, .noRoute, [f.dest] ++ le 2 f.room, []⟩)) ∧
    (here → s.Serving → exec .classifyFrame s = .next { s1 with request := some ⟨f.kind, q .unit⟩ }) ∧
    (here → s.status = .starting →
      exec .classifyFrame s = .next (s1.buildCompletion ⟨f.tag, f.kind, .refused .notReady, [], []⟩)) ∧
    (here → s.status = .bypass → exec .classifyFrame s =
      .next (s1.buildCompletion ⟨f.tag, f.kind, .refused .bypass, [byte (s.bypassStage.getD 0)], []⟩)) ∧
    (f.dest = 0#8 → s.Serving → exec .classifyFrame s = .next { s1 with
      trunk := { s1.trunk with downlink := if s.trunk.downLink then s.trunk.downlink ++ [f] else s.trunk.downlink }
      request := some ⟨f.kind, q .broadcast⟩ }) ∧
    (f.dest = 0#8 → s.status = .starting ∨ s.status = .bypass → exec .classifyFrame s =
      .next ({ s1 with trunk := { s1.trunk with
          downlink := if s.trunk.downLink then s.trunk.downlink ++ [f] else s.trunk.downlink } }.buildCompletion
        (if s.status = UnitStatus.starting then ⟨f.tag, f.kind, .refused .notReady, [], []⟩
         else ⟨f.tag, f.kind, .refused .bypass, [byte (s.bypassStage.getD 0)], []⟩))) ∧
    (f.dest = 255#8 → s.status = .starting → s.covered f.room = true →
      exec .classifyFrame s = .next (s1.buildCompletion ⟨f.tag, f.kind, .refused .notReady, [], []⟩)) ∧
    (f.dest = 255#8 → s.Serving → s.covered f.room = true → s.mapConflict (.room f.room) = none →
      exec .classifyFrame s = .next { s1 with request := some ⟨f.kind, q (.room f.room)⟩ }) ∧
    (∀ x, f.dest = 255#8 → s.Serving → s.covered f.room = true → s.mapConflict (.room f.room) = some x →
      exec .classifyFrame s =
        .next (s1.buildCompletion ⟨f.tag, f.kind, .refused .mapConflict, [byte x.1] ++ le 2 x.2, []⟩))) ∧
  (∀ (s : State) (r : Nat), s.Canonical →
    let covers (n : Nat) : Prop := let w := s.window n
      w.enabled = true ∧ w.base ≤ r ∧ r < w.base + w.count ∧ w.first + (r - w.base) ≤ 32
    (s.covered r = true ↔ ∃ n, covers n) ∧
    (∀ n p, s.translate r = some (n, p) ↔ covers n ∧ (∀ m, m < n → ¬covers m) ∧
      p = placeOf (s.window n).seg ((s.window n).first + (r - (s.window n).base))) ∧
    (∀ n x, s.mapConflict (.room r) = some (n, x) ↔
      ∃ p, s.translate r = some (n, p) ∧ (s.place p).door.room? = some x ∧ x ≠ r) ∧
    s.mapConflict .unit = none ∧ s.mapConflict .broadcast = none) ∧
  ∀ s : State, s.due = [] →
    (s.trunk.classifier = [] ∨ (8 ≤ s.trunk.downlink.length ∧ s.trunk.downLink = true) ∨ s.request ≠ none ∨
      8 ≤ s.trunk.completions.length ∨ s.trunk.waitingCompletions ≠ []) →
    exec .classifyFrame s = .next s

/-- R160, R172, R179, R182, R183: DOWNLINK_TRANSMIT sends the oldest frame of its queue; UPLINK_ARBITRATE serves the
source that waits, or of two the one not served last, completions before notices before the journal frame; a
completion waiting outside enters the queue when a place is free. A lost link or the partner's hold starts nothing.
While a frame listed as begun has not ended nothing is sent, and once it has the next is: when it ends is a free value
(log 6), and the statement holds for each. A completion place freed is marked as due for the row that fills it (log
1), and that row acts where its condition holds, changing nothing but what is due elsewhere (log 2). Nothing changes
where the conditions do not hold (log 7). -/
def Obligations.FramesAreSent : Prop :=
  (∀ (s : State) (f : TrunkFrame) (fs : List TrunkFrame), s.due = [] → s.trunk.downlink = f :: fs →
    s.trunk.downLink = true → s.trunk.downHeld = false → s.trunk.downTx = none →
    exec .downlinkTransmit s = .next { s with trunk := { s.trunk with downlink := fs, downTx := some f } }) ∧
  (∀ (s : State) (f x : TrunkFrame) (fs : List TrunkFrame), s.due = [] → s.trunk.downlink = f :: fs →
    s.trunk.downLink = true → s.trunk.downHeld = false → s.trunk.downTx = some x →
    let u : State := { s with trunk := { s.trunk with txTests := s.trunk.txTests + 1 } }
    exec .downlinkTransmit s = .next u ∨
      exec .downlinkTransmit s = .next { u with trunk := { u.trunk with downlink := fs, downTx := some f } }) ∧
  (∀ s : State, s.due = [] → s.trunk.downlink = [] ∨ s.trunk.downLink = false ∨ s.trunk.downHeld = true →
    exec .downlinkTransmit s = .next s) ∧
  (∀ (s : State) (x : UpFrame), s.due = [] → s.trunk.upLink = true → s.trunk.upHeld = false →
    s.trunk.upTx = some x → s.trunk.passThrough ≠ [] ∨ s.localWaits = true →
    let u : State := { s with trunk := { s.trunk with txTests := s.trunk.txTests + 1 } }
    exec .uplinkArbitrate s = .next u ∨
      exec .uplinkArbitrate s = exec .uplinkArbitrate { u with trunk := { u.trunk with upTx := none } }) ∧
  (∀ s : State, s.due = [] → s.trunk.upLink = true → s.trunk.upHeld = false → s.trunk.upTx = none →
    let localTurn := s.trunk.passThrough = [] ∨ s.trunk.lastServed = .passThrough
    (∀ f fs, s.trunk.passThrough = f :: fs → s.trunk.lastServed = .local ∨ s.localWaits = false →
      exec .uplinkArbitrate s = .next { s with trunk := { s.trunk with
        passThrough := fs, upTx := some (.passThrough f), lastServed := .passThrough } }) ∧
    (∀ c cs, localTurn → s.trunk.completions = c :: cs →
      exec .uplinkArbitrate s = .next { s with
        trunk := { s.trunk with completions := cs, upTx := some (.completion c), lastServed := .local }
        due := if s.trunk.waitingCompletions = [] then [] else [.completionEnter] }) ∧
    (∀ n ns, localTurn → s.trunk.completions = [] → s.trunk.notices = n :: ns →
      exec .uplinkArbitrate s = .next { s with trunk := { s.trunk with
        notices := ns, upTx := some (.notice n), lastServed := .local } }) ∧
    (∀ r, localTurn → s.trunk.completions = [] → s.trunk.notices = [] → s.journalOffer = some r →
      exec .uplinkArbitrate s = .next { s with
        trunk := { s.trunk with upTx := some (.journal r), lastServed := .local }
        journal := { s.journal with cursor := s.journal.cursor + 1 } }) ∧
    (s.trunk.passThrough = [] → s.localWaits = false → exec .uplinkArbitrate s = .next s)) ∧
  (∀ s : State, s.due = [] → s.trunk.upLink = false ∨ s.trunk.upHeld = true → exec .uplinkArbitrate s = .next s) ∧
  (∀ s : State, s.journal.Contiguous → s.Serving → s.journal.cursor < s.journal.next →
    ∃ r ∈ s.journal.ring, s.journalOffer = some r ∧ r.seq = s.journal.cursor) ∧
  (∀ (s : State) (c : Completion) (cs : List Completion), Due.minuteAdvance ∉ s.due →
    s.trunk.waitingCompletions = c :: cs → s.trunk.completions.length < 8 →
    exec .completionEnterQueue s = .next { s with
      trunk := { s.trunk with completions := s.trunk.completions ++ [c], waitingCompletions := cs }
      due := s.due.erase .completionEnter }) ∧
  ∀ s : State, Due.minuteAdvance ∉ s.due → s.trunk.waitingCompletions = [] ∨ 8 ≤ s.trunk.completions.length →
    exec .completionEnterQueue s = .next (s.without .completionEnter)

/-! ## The table store -/

/-- R165, R204, R205, 11.7: STORE_WRITE_START copies a dirty reservation copy where one is dirty, else the lowest
dirty block (that the dirty list is ascending is kept by every step, TablesStayCanonical). The block copied is 3070
bytes and their checksum, low byte first: a reservation copy holds the pending limit, or L with none pending; block 2
the policy; each other block the records of its run of entries at their fixed places, each record filled with 0, the
pending charges behind their count. STORE_WRITE_COMPLETE takes an acknowledged block out of the dirty set, where it
was not changed meanwhile, and raises L to the pending limit for a reservation copy; a JOURNAL_GAP record with the gap
count is then stored where the count is above 0 and the new L lets it, and the count returns to 0, else it stays
(R157); a limit then due again makes one copy dirty and nothing else, and with none due the dirty set is what the
write left. A write not acknowledged stays dirty, gives fault STORE_WRITE_FAIL and makes the writer wait. What the
memory then holds is the command's operand (log 12); nothing changes where the conditions do not hold (log 7). -/
def Obligations.StoreWrites : Prop :=
  (∀ s : State, s.due = [] → s.DirtyRising → s.writer = .idle → s.dirty ≠ [] → ∃ b ∈ s.dirty, (∀ x ∈ s.dirty, b ≤ x) ∧
    (0 ∈ s.dirty ∨ 1 ∈ s.dirty → b = 0 ∨ b = 1) ∧
    exec .storeWriteStart s = .next { s with writer := .writing b (s.blockBytes b) false } ∧
    (s.blockBytes b).length = 3072 ∧ checksumOk (s.blockBytes b) = true) ∧
  (∀ (s : State) (b : Nat), let bs := s.blockBytes b
    let field (size i : Nat) : List Byte := (bs.drop (i * size)).take size
    bs = bs.take 3070 ++ le 2 (checksum (bs.take 3070)) ∧ bs.length = 3072 ∧
    (b < 2 → bs.take 3070 = padTo 3070 (le 6 (match s.journal.pendingLimit with
      | some n => n
      | none => s.journal.limit))) ∧
    (b = 2 → bs.take 3070 = padTo 3070 (policyBytes s.policy)) ∧
    (∀ i, b = 3 → i < 16 → field 1 i = zoneBytes (s.zone i)) ∧
    (∀ i, b = 4 → i < 32 → field 20 i = scheduleBytes (s.schedule i)) ∧
    (∀ i, b = 5 → i < 16 → field 6 i = windowBytes (s.window i)) ∧
    (∀ i, 6 ≤ b → b < 10 → i < 64 → field 4 i = priceBytes (s.price (64 * (b - 6) + i))) ∧
    (∀ i, b = 10 ∨ b = 11 → i < 64 → let pl := s.place (64 * (b - 10) + i)
      field 44 i = padTo 44 (padTo 7 (doorBytes pl.door) ++ if pl.door.isMinibar then
        0#8 :: pl.comps.flatMap (fun c => [byte c.price, byte (compStateCode c.state), byte c.reversals]) else [1#8])) ∧
    (∀ i, b = 12 ∨ (b = 13 ∧ i < 32) → i < 64 →
      field 12 i = padTo 12 (roomBytes (Tab.look s.rooms (64 * (b - 12) + i)))) ∧
    (∀ i, 14 ≤ b → b < 18 → i < 64 → field 21 i = padTo 21 (stayBytes (Tab.look s.stays (64 * (b - 14) + i)))) ∧
    (b = 18 → bs.head? = some (byte s.pendingCharges.length)) ∧
    (∀ i c, b = 18 → s.pendingCharges.length ≤ 64 → s.pendingCharges[i]? = some c →
      ((bs.drop 1).drop (i * 14)).take 14 = padTo 14 (chargeBytes c)) ∧
    ∀ i, 19 ≤ b → b < 83 → i < 64 → field 22 i = padTo 22 (credBytes (s.cred (64 * (b - 19) + i)))) ∧
  (∀ s : State, s.due = [] → s.writer ≠ .idle ∨ s.dirty = [] → exec .storeWriteStart s = .next s) ∧
  (∀ (s : State) (b : Nat) (copy : List Byte) (changed : Bool), s.due = [] → s.writer = .writing b copy changed →
    2 ≤ b → exec (.storeWriteComplete true none) s = .next { s with
      store := putBlock s.store b copy, writer := .idle
      dirty := if changed then s.dirty else s.dirty.filter (fun x => x != b) }) ∧
  (∀ (s : State) (b n : Nat) (copy : List Byte) (changed : Bool), s.due = [] → s.writer = .writing b copy changed →
    b < 2 → s.journal.pendingLimit = some n → ∃ t, exec (.storeWriteComplete true none) s = .next t ∧
      t.journal.limit = n ∧ t.journal.release = s.journal.release ∧ t.journal.cursor = s.journal.cursor ∧
      (if b = 0 then t.journal.copyA else t.journal.copyB) = some n ∧
      (if b = 0 then t.journal.copyB else t.journal.copyA) = (if b = 0 then s.journal.copyB else s.journal.copyA) ∧
      t.store = putBlock s.store b copy ∧ t.writer = .idle ∧
      (s.firstAttempt = .awaited → t.firstAttempt = .acknowledged) ∧
      let left := if changed then s.dirty else s.dirty.filter (fun x => x != b)
      (let j : Journal := { s.journal with limit := n };
        (s.journal.gap = 0 ∨ j.storable = false → t.journal.ring = s.journal.ring ∧ t.journal.next = s.journal.next ∧
          t.journal.gap = s.journal.gap ∧ t.faults = s.faults ∧ t.trunk = s.trunk ∧ t.alarm = s.alarm) ∧
        (0 < s.journal.gap → j.storable = true → t.journal.gap = 0 ∧ t.journal.next = s.journal.next + 1 ∧
          ∃ x, t.journal.ring = s.journal.ring ++ [x] ∧ x.kind = .journalGap ∧ x.seq = s.journal.next ∧
            x.detail = le 2 s.journal.gap)) ∧
      t = { s with
        journal := t.journal, faults := t.faults, alarm := t.alarm, dirty := t.dirty, writer := t.writer
        store := t.store, firstAttempt := t.firstAttempt, trunk := { s.trunk with notices := t.trunk.notices } } ∧
      (t.journal.pendingLimit = none → t.dirty = left) ∧
      (∀ m, t.journal.pendingLimit = some m → m = min (n + 256) seqEnd ∧
        ∃ c, c < 2 ∧ ∀ x, x ∈ t.dirty ↔ x = c ∨ x ∈ left)) ∧
  (∀ (s : State) (b : Nat) (copy : List Byte) (changed : Bool), s.due = [] → s.writer = .writing b copy changed →
    b < 2 → s.journal.pendingLimit = none → exec (.storeWriteComplete true none) s = .next { s with
      store := putBlock s.store b copy, writer := .idle
      dirty := if changed then s.dirty else s.dirty.filter (fun x => x != b)
      firstAttempt := if s.firstAttempt = .awaited then .acknowledged else s.firstAttempt }) ∧
  (∀ (s : State) (b : Nat) (copy : List Byte) (changed reported : Bool) (landed : Option (List Byte)), s.due = [] →
    s.Canonical → s.writer = .writing b copy changed → reported = false ∨ landed.getD copy ≠ copy →
    ∃ t, exec (.storeWriteComplete reported landed) s = .next t ∧ (t.fault .storeWriteFail).set = true ∧
      t = { s with
        store := putBlock s.store b (landed.getD copy), writer := .waiting, faults := t.faults, alarm := t.alarm
        trunk := { s.trunk with notices := t.trunk.notices }
        firstAttempt := if b < 2 ∧ s.firstAttempt = .awaited then .failed else s.firstAttempt }) ∧
  ∀ (s : State) (reported : Bool) (landed : Option (List Byte)), s.due = [] →
    (∀ b copy changed, s.writer ≠ .writing b copy changed) → exec (.storeWriteComplete reported landed) s = .next s

/-! ## Requests -/

/-- R175, R178, R185 to R188: how a row that is a request is turned away, and by which forms of destination each kind
is accepted (R187); a payload that is not as long as its kind's fields is refused with BAD_FIELD, a DOOR OPEN by drop
or by room among them; what answering one builds: exactly one completion, with the request's tag and kind, and the
request released. That a request's row carries its frame and waits for another in progress is log 5; that a form the
kind does not accept names field 0, and which field a payload of another length names, is log 18. -/
def Obligations.RequestsAreAnswered : Prop :=
  (∀ (c : Instr) (k : Byte) (q : Request) (s : State), c.wellFormed = true → c.asRequest = some (k, q) → s.due = [] →
    (s.request ≠ none → s.request ≠ some ⟨k, q⟩ → exec c s = .next s) ∧
    (s.request = none ∨ s.request = some ⟨k, q⟩ →
      (s.status = .starting → exec c s = .next (s.answer k q (.refused .notReady []))) ∧
      (s.status = .bypass → (∀ r, q.form ≠ .room r) → exec c s = .next (s.buildCompletion
        ⟨q.tag, k, .refused .bypass, [byte (s.bypassStage.getD 0)], []⟩)) ∧
      (∀ r, s.status = .bypass → q.form = .room r → exec c s = .next s) ∧
      (∀ x, s.Serving → s.mapConflict q.form = some x →
        exec c s = .next (s.answer k q (.refused .mapConflict ([byte x.1] ++ le 2 x.2)))) ∧
      (s.Serving → s.mapConflict q.form = none → formOk k q.form = false →
        exec c s = .next (s.answer k q (badField 0))))) ∧
  (∀ (k : Byte) (q : Request) (s : State), k = 0#8 ∨ 0x12 < k.toNat → s.Takes k q →
    exec (.unknownRequest k q) s = .next (s.answer k q (.refused .unknownRequest []))) ∧
  (∀ (q : Request) (s : State) (n : Nat), ∀ e ∈ ([(0x04, [(1, 4)], .withdraw q),
      (0x05, [(1, 2), (2, 3), (3, 3)], .stayOpen q), (0x06, [(1, 2), (2, 3)], .stayExtend q),
      (0x07, [(1, 2), (2, 2)], .stayClose q), (0x08, [(1, 2)], .stayPurge q), (0x0A, [(1, 1), (2, 1)], .zoneSet q),
      (0x0B, [(1, 3), (2, 2)], .clockSet q), (0x0C, [(1, 5)], .journalRelease q), (0x0D, [(1, 5)], .journalRewind q),
      (0x0E, [(1, 1)], .segmentTest q), (0x0F, [(1, 1), (2, 1)], .segmentServiceOut q),
      (0x0F, [(1, 1), (2, 1)], .segmentServiceIn q), (0x10, [], .status q), (0x12, [], .restart q)] :
      List (Byte × Layout × Instr)),
    s.Takes e.1 q → readPayload e.2.1 q.payload = .error n → exec e.2.2 s = .next (s.answer e.1 q (badField n))) ∧
  (∀ (l : Layout) (bs : List Byte), (∃ f, readPayload l bs = .ok f) ↔ bs.length = (l.map Prod.snd).sum) ∧
  (∀ (q : Request) (s : State) (n : Nat), s.Takes 0x09 q →
    (q.form = .unit → readPayload [(1, 1), (2, 1)] q.payload = .error n →
      exec (.doorOpen q) s = .next (s.answer 0x09 q (badField n))) ∧
    ∀ r, q.form = .room r → q.payload ≠ [] → exec (.doorOpen q) s = .next (s.answer 0x09 q (badField 1))) ∧
  (∀ k : Byte, 1 ≤ k.toNat → k.toNat ≤ 0x12 →
    (formOk k .unit = true ↔ k.toNat ≠ 0x05) ∧
    (formOk k .broadcast = true ↔ k.toNat ∈ [0x01, 0x02, 0x03, 0x04, 0x06, 0x07, 0x0A, 0x0B, 0x0E, 0x0F, 0x10, 0x11]) ∧
    ∀ r, (formOk k (.room r) = true ↔
      k.toNat ∈ [0x01, 0x02, 0x03, 0x04, 0x05, 0x06, 0x07, 0x08, 0x09, 0x0A, 0x0B, 0x10, 0x11])) ∧
  ∀ (k : Byte) (q : Request) (s : State), s.trunk.unitNumber ≠ 0 →
    (∀ res, let t := s.answer k q (.done res)
      t = { s with request := none, trunk := { s.trunk with
        completions := t.trunk.completions, waitingCompletions := t.trunk.waitingCompletions } } ∧
      t.trunk.completions ++ t.trunk.waitingCompletions =
        s.trunk.completions ++ s.trunk.waitingCompletions ++ [⟨q.tag, k, .done, [], res⟩]) ∧
    ∀ r detail, let t := s.answer k q (.refused r detail)
      t = { s with request := none, trunk := { s.trunk with
        completions := t.trunk.completions, waitingCompletions := t.trunk.waitingCompletions } } ∧
      t.trunk.completions ++ t.trunk.waitingCompletions =
        s.trunk.completions ++ s.trunk.waitingCompletions ++ [⟨q.tag, k, .refused r, detail, []⟩]

/-- R31, R36, R132, R177, R191, R194: LOAD of WINDOWS, SCHEDULES, ZONES, PRICES and POLICY: every entry carried is
written and reads as carried, no other entry changes, its block is dirty, and the LOAD is answered DONE; a bad header,
record or field changes nothing and is named. R36 to R38: in a zone that LOAD ZONES brings into RELEASED each lock is
owed or has queued a HOLD_OPEN, an unsent SECURE withdrawn, and in one that it takes out of RELEASED a SECURE, an
unsent HOLD_OPEN withdrawn; every other mark, and every door's state, stays. A window, a schedule, a zone state, a
price and a policy are taken exactly where each field is within its range, and a window's run past drop 32 is clamped
to end there. Which field a BAD_FIELD names is log 18; that a disabled window is clamped too is log 45. -/
def Obligations.SettingsAreLoaded : Prop :=
  (∀ (q : Request) (s : State), s.Takes 0x01 q → s.Canonical →
    (∀ es, readLoad .windows readWindow (fun _ f => checkWindow f) q.payload = .ok es →
      ∃ u : State, exec (.loadWindows q) s =
          .next (u.answer 0x01 q (.done (loadResult .windows es ++ es.flatMap (fun e => le 2 e.2.count)))) ∧
        u = { s with windows := u.windows, dirty := u.dirty, writer := u.writer } ∧ 5 ∈ u.dirty ∧
        (∀ e ∈ es, u.window e.1 = e.2) ∧ ∀ i, (∀ e ∈ es, e.1 ≠ i) → u.window i = s.window i) ∧
    (∀ es, readLoad .schedules readSchedule (fun _ f => checkSchedule f) q.payload = .ok es →
      ∃ u : State, exec (.loadSchedules q) s = .next (u.answer 0x01 q (.done (loadResult .schedules es ++ []))) ∧
        u = { s with schedules := u.schedules, dirty := u.dirty, writer := u.writer } ∧ 4 ∈ u.dirty ∧
        (∀ e ∈ es, u.schedule e.1 = e.2) ∧ ∀ i, (∀ e ∈ es, e.1 ≠ i) → u.schedule i = s.schedule i) ∧
    (∀ es, readLoad .zones readZone (fun _ f => checkZone f) q.payload = .ok es →
      ∃ u : State, exec (.loadZones q) s = .next (u.answer 0x01 q (.done (loadResult .zones es ++ []))) ∧
        u = { s with
          zones := u.zones, places := u.places, segs := u.segs, dirty := u.dirty, writer := u.writer } ∧ 3 ∈ u.dirty ∧
        (∀ e ∈ es, u.zone e.1 = e.2) ∧ (∀ i, (∀ e ∈ es, e.1 ≠ i) → u.zone i = s.zone i) ∧
        (∀ e ∈ es, ∀ p, (s.place p).door.isLocked = true → (s.place p).door.zone? = some e.1 →
          (s.zone e.1 ≠ .released → e.2 = .released →
            ((u.place p).mark = .holdOwed ∨ (u.place p).mark = .holdQueued) ∧
            ((s.place p).mark = .secureQueued → ∀ x ∈ (u.place p).waiting, x.cmd ≠ .secure)) ∧
          (s.zone e.1 = .released → e.2 ≠ .released →
            ((u.place p).mark = .secureOwed ∨ (u.place p).mark = .secureQueued) ∧
            ((s.place p).mark = .holdQueued → ∀ x ∈ (u.place p).waiting, x.cmd ≠ .holdOpen))) ∧
        (∀ p, (∀ e ∈ es, (s.place p).door.isLocked = true → (s.place p).door.zone? = some e.1 →
            (e.2 = .released ↔ s.zone e.1 = .released)) →
          (u.place p).mark = (s.place p).mark) ∧
        ∀ p, (u.place p).doorState = (s.place p).doorState ∧ (u.place p).door = (s.place p).door) ∧
    (∀ es, readLoad .prices readPrice (fun _ f => checkPrice f) q.payload = .ok es →
      ∃ u : State, exec (.loadPrices q) s = .next (u.answer 0x01 q (.done (loadResult .prices es ++ []))) ∧
        u = { s with prices := u.prices, dirty := u.dirty, writer := u.writer } ∧
        (∀ e ∈ es, u.price e.1 = e.2 ∧ State.priceBlock e.1 ∈ u.dirty) ∧
        ∀ i, (∀ e ∈ es, e.1 ≠ i) → u.price i = s.price i) ∧
    (∀ i p, readLoad .policy readPolicy (fun _ f => checkPolicy f) q.payload = .ok [(i, p)] →
      ∃ u : State, exec (.loadPolicy q) s = .next (u.answer 0x01 q (.done (loadResult .policy [(i, p)] ++ []))) ∧
        u = { s with policy := p, dirty := u.dirty, writer := u.writer } ∧ 2 ∈ u.dirty)) ∧
  (∀ (f : Fields) (w : Window), checkWindow f = .ok w ↔
    (f.val 1 ≤ 1 ∧ f.val 2 ≠ 0 ∧ (1 ≤ f.val 3 ∧ f.val 3 ≤ 128) ∧ f.val 4 ≤ 3 ∧ 1 ≤ f.val 5 ∧ f.val 5 ≤ 32) ∧
    w = ⟨f.val 1 == 1, f.val 2, if 33 < f.val 5 + f.val 3 then 33 - f.val 5 else f.val 3, f.val 4, f.val 5⟩) ∧
  (∀ f : Fields, (∃ x, checkSchedule f = .ok x) ↔ ∀ i, i < 4 → f.val (1 + 3 * i) ≤ 1 ∧
    (f.val (1 + 3 * i) = 1 → f.val (2 + 3 * i) ≤ 10079 ∧ 1 ≤ f.val (3 + 3 * i) ∧ f.val (3 + 3 * i) ≤ 10080)) ∧
  (∀ (f : Fields) (x : Schedule), checkSchedule f = .ok x → [x.slot0, x.slot1, x.slot2, x.slot3] = (List.range 4).map
    (fun i => if f.val (1 + 3 * i) = 1 then some ⟨f.val (2 + 3 * i), f.val (3 + 3 * i)⟩ else none)) ∧
  (∀ (f : Fields) (z : ZoneState), checkZone f = .ok z ↔ f.val 1 = zoneCode z) ∧
  (∀ (f : Fields) (p : Price), checkPrice f = .ok p ↔ f.val 2 ≤ 5000 ∧ p = ⟨f.val 1, f.val 2⟩) ∧
  (∀ (f : Fields) (p : Policy), checkPolicy f = .ok p ↔
    ((5 ≤ f.val 3 ∧ f.val 3 ≤ 60) ∧ f.val 4 ≠ 0 ∧ f.val 5 ≤ 1 ∧ f.val 6 ≠ 0) ∧
    p = ⟨f.val 1, f.val 2, f.val 3, f.val 4, f.val 5 == 1, f.val 6⟩) ∧
  ∀ (q : Request) (s : State) (b : BadField), s.Takes 0x01 q →
    (readLoad .windows readWindow (fun _ f => checkWindow f) q.payload = .error b →
      exec (.loadWindows q) s = .next (s.answer 0x01 q (badRecord b))) ∧
    (readLoad .schedules readSchedule (fun _ f => checkSchedule f) q.payload = .error b →
      exec (.loadSchedules q) s = .next (s.answer 0x01 q (badRecord b))) ∧
    (readLoad .zones readZone (fun _ f => checkZone f) q.payload = .error b →
      exec (.loadZones q) s = .next (s.answer 0x01 q (badRecord b))) ∧
    (readLoad .prices readPrice (fun _ f => checkPrice f) q.payload = .error b →
      exec (.loadPrices q) s = .next (s.answer 0x01 q (badRecord b))) ∧
    (readLoad .policy readPolicy (fun _ f => checkPolicy f) q.payload = .error b →
      exec (.loadPolicy q) s = .next (s.answer 0x01 q (badRecord b)))

/-- R42, R191: LOAD DOORS writes the records carried and no other, is refused TABLE_FULL where the Room Table cannot
hold the rooms (R19: the rooms held, less those removed, and the rooms newly named exceed 96), then takes the effects
place by place and settles the Room Table. R18 to R20: a room named by no record and without an OPEN stay is removed,
a new one takes the lowest unused entry, and every entry's door and minibar are those of the lowest place. R41, R65,
R88, R123, R134: a change of kind or room ends the outstanding presentation; at a minibar it commits each charge of
the place with NO_GRACE, in list order: the stay's total rises, MINIBAR_CHARGE or MINIBAR_UNBILLED is journalled, the
compartment empties (R136), and the session ends; it sets the zone mark, resets what belongs to the old kind, and
returns a drop that is not ABSENT, while every reload address lies in 1..32, to JOINING with an empty directory and an
IDENTIFY; a change of a lock's zone alone marks it cache-suspect and sets the mark; a MISMATCH is compared again.
R133: LOAD COMPARTMENTS writes the compartments carried, and is refused BUSY while one at a place carried is PENDING.
Which field a BAD_FIELD names is log 18; that rooms are removed before others are created is log 37, the mark at
ABSENT drops log 17, the kept serial log 26, two entries of one number log 38 and log 52, the order of the records log
41. -/
def Obligations.DoorsAreLoaded : Prop :=
  (∀ (q : Request) (s : State) (es : Entries DoorRec), s.Takes 0x01 q → s.Canonical →
    readLoad .doors readDoor (fun _ f => checkDoor f) q.payload = .ok es →
    (s.doorsTooMany es = true → exec (.loadDoors q) s = .next (s.answer 0x01 q (.refused .tableFull []))) ∧
    (s.doorsTooMany es = false → ∃ u : State, exec (.loadDoors q) s = .next (u.answer 0x01 q (.done (loadResult .doors es))) ∧
      (∀ e ∈ es, (u.place e.1).door = e.2 ∧ State.doorBlock e.1 ∈ u.dirty) ∧
      (∀ p, (∀ e ∈ es, e.1 ≠ p) → (u.place p).door = (s.place p).door ∧ (u.place p).comps = (s.place p).comps) ∧
      u = { s with
        places := u.places, segs := u.segs, rooms := u.rooms, stays := u.stays, pendingCharges := u.pendingCharges
        journal := u.journal, trunk := { s.trunk with notices := u.trunk.notices }, faults := u.faults, alarm := u.alarm
        dirty := u.dirty, writer := u.writer } ∧
      (let written := es.foldl State.writeDoor s
       let moved := (es.map (fun e => (e.1, (s.place e.1).door))).foldl State.doorEffects written
       u = ((s.roomsNeeded es).foldl State.ensureRoom ((s.roomsTaken es).foldl State.removeRoom moved)).recomputeRooms) ∧
      ∀ e ∈ u.rooms, e.2.door = u.roomPlace 1 e.2.room ∧ e.2.minibar = u.roomPlace 3 e.2.room)) ∧
  (∀ (s : State) (es : Entries DoorRec), s.Canonical → s.rooms.length ≤ 96 → (es.map Prod.fst).Nodup →
    (∀ e ∈ es, e.1 < 128) →
    let named (r : Nat) : Prop := ∃ p, p < 128 ∧ ((∃ e ∈ es, e.1 = p ∧ e.2.room? = some r) ∨
      ((∀ e ∈ es, e.1 ≠ p) ∧ (s.place p).door.room? = some r))
    ∃ needed gone : List Nat, needed.Nodup ∧ gone.Nodup ∧
      (∀ r, r ∈ needed ↔ (∃ e ∈ es, e.2.room? = some r) ∧ s.findRoom r = none) ∧
      (∀ r, r ∈ gone ↔ (∃ e ∈ es, (s.place e.1).door.room? = some r ∧ e.2.room? ≠ some r) ∧ ¬named r ∧
        ∃ i x, s.findRoom r = some (i, x) ∧ x.openStay = none) ∧
      (s.doorsTooMany es = true ↔ 96 + gone.length < s.rooms.length + needed.length)) ∧
  (∀ (s : State) (r i : Nat) (x : Room), s.Canonical →
    (s.findRoom r = some (i, x) → (∀ p, (s.place p).door.room? ≠ some r) → x.openStay = none →
      (s.removeRoom r).rooms = Tab.clear s.rooms i) ∧
    (s.findRoom r = none ∨ (∃ p, (s.place p).door.room? = some r) ∨ (s.findRoom r = some (i, x) ∧ x.openStay ≠ none) →
      s.removeRoom r = s) ∧
    (s.findRoom r = none → Tab.lowestFree s.rooms 96 = some i →
      (s.ensureRoom r).rooms = Tab.write s.rooms i ⟨r, 0, none, s.roomPlace 1 r, s.roomPlace 3 r⟩) ∧
    (s.findRoom r = some (i, x) → s.ensureRoom r = s) ∧
    (Tab.look s.rooms i = some x → Tab.look s.recomputeRooms.rooms i = some
      { x with door := s.roomPlace 1 x.room, minibar := s.roomPlace 3 x.room })) ∧
  (∀ (s : State) (p kind r : Nat), s.Canonical → 1 ≤ kind → (s.roomPlace kind r = some p ↔
    (s.place p).door.kindCode = kind ∧ (s.place p).door.room? = some r ∧
      ∀ q, q < p → (s.place q).door.kindCode ≠ kind ∨ (s.place q).door.room? ≠ some r)) ∧
  (∀ (s : State) (p : Nat) (old : DoorRec), let new := (s.place p).door
    let moved := old.kindCode ≠ new.kindCode ∨ old.room? ≠ new.room?
    let rezoned := new.isLocked = true ∧ old.zone? ≠ new.zone?
    (moved → s.doorEffects (p, old) = s.doorReplaced p old) ∧
    (¬moved → rezoned → s.doorEffects (p, old) = (s.doorRezoned p old new).recheck p) ∧
    (¬moved → ¬rezoned → s.doorEffects (p, old) = s.recheck p)) ∧
  (∀ (s : State) (p : Nat) (old : DoorRec), s.Canonical → let t := s.doorReplaced p old
    let new := (s.place p).door
    let was := s.zoneOfDoor old = .released
    let is := s.zoneOfDoor new = .released
    (t.place p).door = new ∧ (t.place p).presentation = none ∧
    (t.place p).mark = (if new.isLocked = true ∧ is then .holdOwed
      else if new.isLocked = true ∧ was then .secureOwed else .none) ∧
    (t.place p).suspect = ((s.place p).suspect && new.isLocked) ∧
    let mine := s.pendingCharges.filter (fun c => c.place == p)
    (old.isMinibar = true → t.pendingCharges = s.pendingCharges.filter (fun c => c.place != p) ∧
      (t.place p).window = none ∧ (t.place p).session = none ∧ s.Charged t mine ∧
      (t.journal.storable = true → ∃ added rest, t.journal.ring = s.journal.ring ++ added ++ rest ∧
        added.map Record.outline = mine.map (s.chargeOutline true))) ∧
    (old.isMinibar = false → t.pendingCharges = s.pendingCharges ∧ t.stays = s.stays) ∧
    (old.isMinibar = true → new.isMinibar = true →
      (∀ c ∈ mine, (s.comp p c.compartment).state = .pending →
        t.comp p c.compartment = { s.comp p c.compartment with state := .empty, reversals := 0 }) ∧
      ∀ c, (∀ d ∈ mine, d.compartment ≠ c) → t.comp p c = s.comp p c) ∧
    (new.isMinibar = false → (t.place p).comps = []) ∧
    (new.isMinibar = true → old.isMinibar = false → (t.place p).comps = List.replicate 12 ⟨0, .empty, 0⟩) ∧
    (new.isMinibar = true → old.isMinibar = true → (t.place p).comps.map (fun c => c.price) =
      (s.place p).comps.map (fun c => c.price)) ∧
    (new = .unused → (t.place p).doorState = .unknown ∧ (t.place p).accepted = none ∧ (t.place p).candidate = none ∧
      (t.place p).holding = false) ∧
    (new.isMinibar = true → old.isMinibar = false → (t.place p).holding = false ∧
      (t.place p).doorState = if (s.place p).doorState = .released then .secure else (s.place p).doorState) ∧
    (new ≠ .unused → (new.isMinibar = true → old.isMinibar = true) →
      (t.place p).doorState = (s.place p).doorState ∧ (t.place p).accepted = (s.place p).accepted ∧
      (t.place p).holding = (s.place p).holding ∧ (t.place p).unlockLeft = (s.place p).unlockLeft ∧
      (t.place p).openElapsed = (s.place p).openElapsed) ∧
    ((s.place p).presence = .absent → (t.place p).presence = .absent) ∧
    ((s.place p).presence ≠ .absent → s.ReloadsInRange → (t.place p).presence = .joining ∧ (t.place p).joinStep = .identify ∧
      (t.place p).reportedKind = none ∧ (t.place p).reportedSerial = none ∧ (t.place p).directory = [] ∧
      (t.place p).flush = none ∧ (t.place p).misses = (s.place p).misses ∧ (t.place p).nextBit = (s.place p).nextBit ∧
      (t.place p).lockSerial = (s.place p).lockSerial ∧ (t.place p).waiting.map (fun x => x.cmd) = [.identify])) ∧
  (∀ (s : State) (p : Nat) (old : DoorRec), s.Canonical → let t := s.doorRezoned p old (s.place p).door
    let was := s.zoneOfDoor old = .released
    let is := s.zoneOfDoor (s.place p).door = .released
    (t.place p).suspect = true ∧ (t.place p).door = (s.place p).door ∧ (t.place p).presence = (s.place p).presence ∧
    (is → ¬was → (t.place p).mark = .holdOwed ∨ (t.place p).mark = .holdQueued) ∧
    (was → ¬is → (t.place p).mark = .secureOwed ∨ (t.place p).mark = .secureQueued) ∧
    ((was ↔ is) → (t.place p).mark = (s.place p).mark)) ∧
  (∀ (s : State) (p n : Nat) (k : DropKind), s.Canonical → (s.place p).joinStep = .mismatch →
    (s.place p).reportedKind = some k → (s.place p).reportedSerial = some n →
    (kindMatches (s.place p).door k = false → ((s.recheck p).fault .dropMismatch).set = true ∧
      (s.recheck p).places = s.places) ∧
    (kindMatches (s.place p).door k = true → s.recheck p = s.identityMatch p n)) ∧
  (∀ (q : Request) (s : State) (es : Entries (List Compartment)), s.Takes 0x01 q → s.Canonical →
    readLoad .compartments readComps (checkCompsAt s) q.payload = .ok es →
    ((∃ e ∈ es, s.anyPending e.1 = true) →
      exec (.loadCompartments q) s = .next (s.answer 0x01 q (.refused .busy []))) ∧
    ((∀ e ∈ es, s.anyPending e.1 = false) → ∃ u : State, exec (.loadCompartments q) s =
        .next (u.answer 0x01 q (.done (loadResult .compartments es ++ []))) ∧
      u = { s with places := u.places, dirty := u.dirty, writer := u.writer } ∧
      (∀ e ∈ es, u.place e.1 = { s.place e.1 with comps := e.2 } ∧ State.doorBlock e.1 ∈ u.dirty) ∧
      ∀ p, (∀ e ∈ es, e.1 ≠ p) → u.place p = s.place p)) ∧
  ∀ (q : Request) (s : State) (b : BadField), s.Takes 0x01 q →
    (readLoad .doors readDoor (fun _ f => checkDoor f) q.payload = .error b →
      exec (.loadDoors q) s = .next (s.answer 0x01 q (badRecord b))) ∧
    (readLoad .compartments readComps (checkCompsAt s) q.payload = .error b →
      exec (.loadCompartments q) s = .next (s.answer 0x01 q (badRecord b)))

/-- R17, R191, R193: LOAD CREDENTIALS and LOAD STAYS write the entries carried and no other, in order, or are refused
by their table checks with nothing written; LOAD ROOMS is refused, naming the table id. Each ACTIVE record journals
ENROLLED and is added at each drop PRESENT or SILENT whose plan has it and whose directory does not, in the lowest
free slot (R106); an EMPTY record empties the entry and does nothing else. Each OPEN record is named in its room's
entry, created where none exists in the lowest unused one (R19), and journals STAY_OPENED; an UNUSED record leaves the
entry unused; no other room changes. The checks, in order: for credentials, entry by entry STALE_GENERATION and
NO_STAY, then BUSY over an ACTIVE entry, REVOKING over one that a directory or a record still refers to, DUPLICATE for
a card twice in the LOAD or in an entry outside it; for stays, BUSY over an OPEN entry, DUPLICATE, ROOM_OCCUPIED,
TABLE_FULL. That the first failing record gives R7's reason is log 53. Which field a BAD_FIELD names is log 18. -/
def Obligations.CredentialsAndStaysAreLoaded : Prop :=
  (∀ (q : Request) (s : State) (es : Entries (Option CredIn)), s.Takes 0x01 q → s.Canonical →
    readLoad .credentials readCred (fun _ f => checkCredLoad f) q.payload = .ok es →
    (∀ r, s.credChecks es = some r → exec (.loadCredentials q) s = .next (s.answer 0x01 q (.refused r []))) ∧
    (s.credChecks es = none → ∃ u : State, exec (.loadCredentials q) s =
        .next (u.answer 0x01 q (.done (loadResult .credentials es ++ flag (anyDropped es)))) ∧
      (∀ e ∈ es, u.cred e.1 = e.2.map (fun c => c.cred) ∧ State.credBlock e.1 ∈ u.dirty) ∧
      (∀ i, (∀ e ∈ es, e.1 ≠ i) → u.cred i = s.cred i) ∧
      u = { s with
        creds := u.creds, places := u.places, journal := u.journal, trunk := { s.trunk with notices := u.trunk.notices }
        faults := u.faults, alarm := u.alarm, dirty := u.dirty, writer := u.writer } ∧
      u = es.foldl State.loadCred s ∧
      (u.journal.storable = true → ∃ added, u.journal.ring = s.journal.ring ++ added ∧
        added.map (fun x => (x.kind, x.spot, x.card)) =
          (activeOf es).map (fun c => (.enrolled, State.credSpot c, some c.card))))) ∧
  (∀ (s : State) (i p : Nat) (c : CredIn), s.Canonical →
    s.loadCred (i, none) = { s with
      creds := Tab.clear s.creds i, dirty := (s.markDirty (State.credBlock i)).dirty
      writer := (s.markDirty (State.credBlock i)).writer } ∧
    let t := s.loadCred (i, some c)
    let pl := s.place p
    let guest := c.cred.kind == .guest
    let takes := pl.reachable = true ∧ s.inPlan guest pl.door c.cred = true ∧ pl.namesIndex i = false
    t.creds = Tab.write s.creds i c.cred ∧
    (∀ slot, takes → pl.freeSlot guest = some slot → t.place p = Place.addEntry slot i c.cred.card pl) ∧
    (takes → pl.freeSlot guest = none → t.place p = pl) ∧ (¬takes → t.place p = pl)) ∧
  (∀ (q : Request) (s : State) (es : Entries (Option StayIn)), s.Takes 0x01 q → s.Canonical →
    readLoad .stays readStayLoad (fun _ f => checkStay f) q.payload = .ok es →
    (∀ r, s.loadStayChecks es = some r → exec (.loadStays q) s = .next (s.answer 0x01 q (.refused r []))) ∧
    (s.loadStayChecks es = none → ∃ u : State, exec (.loadStays q) s =
        .next (u.answer 0x01 q (.done (loadResult .stays es ++ []))) ∧
      (∀ e ∈ es, State.stayBlock e.1 ∈ u.dirty ∧ Tab.look u.stays e.1 =
        e.2.map (fun x => ⟨x.number, x.room, true, x.opened, none, x.planned, x.cap, 0, false⟩)) ∧
      (∀ i, (∀ e ∈ es, e.1 ≠ i) → Tab.look u.stays i = Tab.look s.stays i) ∧
      u = { s with
        stays := u.stays, rooms := u.rooms, journal := u.journal, trunk := { s.trunk with notices := u.trunk.notices }
        faults := u.faults, alarm := u.alarm, dirty := u.dirty, writer := u.writer } ∧
      u = es.foldl State.loadStay s ∧
      (∀ e ∈ es, ∀ x, e.2 = some x → ∃ j y, u.findRoom x.room = some (j, y) ∧ State.roomBlock j ∈ u.dirty ∧
        (∀ k z, s.findRoom x.room = some (k, z) → j = k ∧ y = { z with openStay := some x.number }) ∧
        (s.findRoom x.room = none → j < 96 ∧ Tab.look s.rooms j = none ∧
          y = ⟨x.room, 0, some x.number, s.roomPlace 1 x.room, s.roomPlace 3 x.room⟩)) ∧
      (∀ r, (∀ x ∈ opensOf es, x.room ≠ r) → u.findRoom r = s.findRoom r) ∧
      (u.journal.storable = true → ∃ added, u.journal.ring = s.journal.ring ++ added ∧
        added.map (fun m => (m.kind, m.spot, m.detail)) = (opensOf es).map (fun x =>
          (.stayOpened, .room x.room, le 2 x.number ++ le 3 x.planned ++ le 3 x.cap))))) ∧
  (∀ (s : State) (i : Nat) (x : StayIn), s.Canonical →
    s.loadStay (i, none) = { s with
      stays := Tab.clear s.stays i, dirty := (s.markDirty (State.stayBlock i)).dirty
      writer := (s.markDirty (State.stayBlock i)).writer } ∧
    (∀ j y, s.findRoom x.room = some (j, y) →
      (s.loadStay (i, some x)).rooms = Tab.write s.rooms j { y with openStay := some x.number }) ∧
    ∀ j, s.findRoom x.room = none → Tab.lowestFree s.rooms 96 = some j → (s.loadStay (i, some x)).rooms =
      Tab.write s.rooms j ⟨x.room, 0, some x.number, s.roomPlace 1 x.room, s.roomPlace 3 x.room⟩) ∧
  (∀ (s : State) (c : Cred),
    let below := c.kind = .guest ∧ ∃ g a, c.guest = some g ∧ s.accepted g.room = some a ∧ g.generation < a
    let homeless := c.kind = .guest ∧ ∃ g, c.guest = some g ∧ s.covered g.room = true ∧
      ∀ e ∈ s.stays, ¬(e.2.isOpen = true ∧ e.2.room = g.room ∧ e.2.number = g.stay)
    (below → s.roomChecks c = some .staleGeneration) ∧ (¬below → homeless → s.roomChecks c = some .noStay) ∧
    (¬below → ¬homeless → s.roomChecks c = none)) ∧
  (∀ (s : State) (es : Entries (Option CredIn)), s.Canonical →
    let cards := (activeOf es).map (fun c => c.card)
    let busy := ∃ e ∈ es, ∃ c, s.cred e.1 = some c ∧ c.state = .active
    let revoking := ∃ e ∈ es, s.referenced e.1 = true
    let duplicate := ¬cards.Nodup ∨ ∃ i c, s.cred i = some c ∧ c.card ∈ cards ∧ ∀ e ∈ es, e.1 ≠ i
    (∀ pre c post r, activeOf es = pre ++ c :: post → (∀ d ∈ pre, s.roomChecks d = none) → s.roomChecks c = some r →
      s.credChecks es = some r) ∧
    ((∀ d ∈ activeOf es, s.roomChecks d = none) →
      (busy → s.credChecks es = some .busy) ∧ (¬busy → revoking → s.credChecks es = some .revoking) ∧
      (¬busy → ¬revoking → duplicate → s.credChecks es = some .duplicate) ∧
      (¬busy → ¬revoking → ¬duplicate → s.credChecks es = none))) ∧
  (∀ (s : State) (i : Nat), s.referenced i = true ↔
    (∃ e ∈ s.places, ∃ d ∈ e.2.directory, d.index = i) ∨ ∃ e ∈ s.revocations, e.2.index = i) ∧
  (∀ (s : State) (es : Entries (Option StayIn)), s.Canonical →
    let numbers := (opensOf es).map (fun x => x.number)
    let rooms := (opensOf es).map (fun x => x.room)
    let busy := ∃ e ∈ es, ∃ x, Tab.look s.stays e.1 = some x ∧ x.isOpen = true
    let duplicate := ¬numbers.Nodup ∨ ∃ i x, Tab.look s.stays i = some x ∧ x.number ∈ numbers ∧ ∀ e ∈ es, e.1 ≠ i
    let occupied := ¬rooms.Nodup ∨ ∃ r ∈ rooms, s.roomOccupied r = true
    let lacking := (rooms.filter (fun r => (s.findRoom r).isNone)).length
    (busy → s.loadStayChecks es = some .busy) ∧ (¬busy → duplicate → s.loadStayChecks es = some .duplicate) ∧
    (¬busy → ¬duplicate → occupied → s.loadStayChecks es = some .roomOccupied) ∧
    (¬busy → ¬duplicate → ¬occupied → 96 < s.rooms.length + lacking → s.rooms.length ≤ 96 →
      s.loadStayChecks es = some .tableFull) ∧
    (¬busy → ¬duplicate → ¬occupied → s.rooms.length + lacking ≤ 96 → s.loadStayChecks es = none)) ∧
  (∀ (q : Request) (s : State), s.Takes 0x01 q → exec (.loadRooms q) s = .next (s.answer 0x01 q (badField 1))) ∧
  ∀ (q : Request) (s : State) (b : BadField), s.Takes 0x01 q →
    (readLoad .credentials readCred (fun _ f => checkCredLoad f) q.payload = .error b →
      exec (.loadCredentials q) s = .next (s.answer 0x01 q (badRecord b))) ∧
    (readLoad .stays readStayLoad (fun _ f => checkStay f) q.payload = .error b →
      exec (.loadStays q) s = .next (s.answer 0x01 q (badRecord b)))

/-- R192, R196: the ten FETCH rows and STATUS change nothing but their completion. A FETCH carries the records of the
table's entries as they stand, as many whole ones as fit. STATUS carries 230 bytes: unit and start-up record, clock,
journal, trunk, the four segments with each drop's presence and cache-suspect mark, revocation records, the table
counts, the 21 faults and the number of dirty blocks. That STATUS carries 0 for stage and count without a start-up
record, and for the detail of a kind that is CLEAR, and gives drop 1 the lowest bits, is the model's choice (log 60).
Which field a BAD_FIELD names is log 18. -/
def Obligations.ReadingChangesNothing : Prop :=
  (∀ (q : Request) (s : State), s.Takes 0x02 q →
    ∀ e ∈ ([(.windows, .fetchWindows q), (.doors, .fetchDoors q), (.schedules, .fetchSchedules q),
        (.zones, .fetchZones q), (.prices, .fetchPrices q), (.compartments, .fetchCompartments q),
        (.policy, .fetchPolicy q), (.credentials, .fetchCredentials q), (.stays, .fetchStays q),
        (.rooms, .fetchRooms q)] : List (TableId × Instr)),
      (∀ first count, readFetch e.1 q.payload = .ok (first, count) →
        exec e.2 s = .next (s.answer 0x02 q (.done (s.fetchResult e.1 first count)))) ∧
      ∀ b, readFetch e.1 q.payload = .error b → exec e.2 s = .next (s.answer 0x02 q (badRecord b))) ∧
  (∀ (s : State) (t : TableId) (first count : Nat), ∃ n, n ≤ count ∧ s.fetchResult t first count =
      [byte t.code] ++ le 2 first ++ le 2 n ++ (List.range n).flatMap (fun i => s.record t (first + i)) ∧
      ((List.range n).flatMap (fun i => s.record t (first + i))).length ≤ 228 ∧
      (n < count → 228 < ((List.range (n + 1)).flatMap (fun i => s.record t (first + i))).length)) ∧
  (∀ (q : Request) (s : State), s.Takes 0x10 q → q.payload = [] →
    exec (.status q) s = .next (s.answer 0x10 q (.done s.statusBytes))) ∧
  (∀ (q : Request) (s : State), s.Takes 0x10 q → q.payload ≠ [] → exec (.status q) s = .next (s.answer 0x10 q (badField 1))) ∧
  (∀ s : State, s.statusBytes.length = 230) ∧
  (∀ s : State, s.statusBytes =
    ([byte s.trunk.unitNumber, if s.status = .readyWithErrors then 1#8 else 0#8] ++ match s.startRecord with
      | none => [0#8, 0#8, 0#8]
      | some r => [byte r.stage, byte (noteCode r.code), byte r.count]) ++
    (le 3 s.clock.m ++ le 2 s.clock.w ++ [byte s.clock.s, byte (clockCode s.clock.state)]) ++
    (le 2 (s.journal.next - s.journal.release) ++ le 6 s.journal.release ++ le 6 s.journal.cursor ++ le 6 s.journal.next ++
      le 6 s.journal.limit ++ [byte ((if s.journal.pendingLimit.isSome then 1 else 0) +
        (if s.journal.next - s.journal.release = 2048 then 2 else 0) + 4 * numberingCode s.journal.numbering)] ++
      le 2 s.journal.gap) ++
    ([byte ((if s.trunk.upLink then 1 else 0) + if s.trunk.downLink then 2 else 0)] ++ le 2 s.trunk.upErrors ++
      le 2 s.trunk.downErrors ++ le 2 s.trunk.upOverruns ++ le 2 s.trunk.downOverruns ++
      [byte s.trunk.classifier.length, byte s.trunk.downlink.length, byte s.trunk.passThrough.length,
        byte s.trunk.completions.length, byte s.trunk.notices.length]) ++
    (s.statusSegment 0 ++ s.statusSegment 1 ++ s.statusSegment 2 ++ s.statusSegment 3) ++ [byte s.revocations.length] ++
    (le 2 (4096 - s.creds.length) ++ [CredState.active, .revoked, .superseded, .expired].flatMap (fun x =>
        le 2 (s.creds.filter (fun e => e.2.state == x)).length) ++
      [byte s.rooms.length] ++ le 2 (s.stays.filter (fun e => e.2.isOpen)).length ++
      le 2 (s.stays.filter (fun e => !e.2.isOpen)).length ++ [byte s.pendingCharges.length]) ++
    faultKinds.flatMap (fun k =>
      [byte ((if (s.fault k).set then 1 else 0) + (if (s.fault k).masked then 2 else 0) +
          4 * severityCode (s.severity k)), byte (s.fault k).occurrences] ++ padTo 3 ((s.fault k).detail.getD [])) ++
    [byte s.dirty.length]) ∧
  (∀ (s : State) (g : Nat), ∃ states marks, s.statusSegment g = byte (lineCode (s.seg g).line +
      if (s.seg g).pendingTest.isSome then 128 else 0) :: (le 8 states ++ le 4 marks) ∧
    states < 4 ^ 32 ∧ marks < 2 ^ 32 ∧ ∀ i, i < 32 →
      states / 4 ^ i % 4 = presenceCode (s.place (g * 32 + i)).presence ∧
      marks.testBit i = (s.place (g * 32 + i)).suspect) ∧
  ∀ (s : State) (i : Nat), s.record .windows i = windowBytes (s.window i) ∧ s.record .doors i = doorBytes (s.place i).door ∧
    s.record .schedules i = scheduleBytes (s.schedule i) ∧ s.record .zones i = zoneBytes (s.zone i) ∧
    s.record .prices i = priceBytes (s.price i) ∧ s.record .policy i = policyBytes s.policy ∧
    s.record .credentials i = credBytes (s.cred i) ∧ s.record .stays i = stayBytes (Tab.look s.stays i) ∧
    s.record .rooms i = roomBytes (Tab.look s.rooms i) ∧
    s.record .compartments i = if (s.place i).door.isMinibar then
      0#8 :: (s.place i).comps.flatMap (fun c => [byte c.price, byte (compStateCode c.state), byte c.reversals]) else [1#8]

/-- R6 to R10: ENROL and ENROL_REPLACE. A card that no entry bears takes the lowest EMPTY entry, else the lowest entry
neither ACTIVE nor referred to, else is refused TABLE_FULL; one that an ACTIVE entry bears is refused DUPLICATE, or
with REPLACE revoked first and written in its place where nothing refers to it any more, else refused REVOKING; a card
ended before takes its own entry again. R101, R106: the credential written is added at each drop PRESENT or SILENT
whose plan has it and whose directory does not, in the lowest free slot of its class, its CACHE_ADD entering a queue
with a free place and being owed otherwise. Which field a BAD_FIELD names is log 18. -/
def Obligations.CardsAreEnrolled : Prop :=
  (∀ (q : Request) (s : State) (f : Fields) (replace : Bool) (c : CredIn), s.Takes 0x03 q → s.Canonical →
    readEnrol q.payload = .ok f → checkEnrol f = .ok (replace, c) →
    (∀ r, s.roomChecks c.cred = some r →
      exec (.enrol q) s = .next (s.answer 0x03 q (.refused r [])) ∧
      exec (.enrolReplace q) s = .next (s.answer 0x03 q (.refused r []))) ∧
    (s.roomChecks c.cred = none →
      let written (u : State) (i : Nat) : State := (u.writeCred i c.cred).answer 0x03 q (.done (le 2 i ++ flag c.dropped))
      (∀ i, s.findCard c.cred.card = none → Tab.lowestFree s.creds 4096 = some i →
        exec (.enrol q) s = .next (written s i) ∧ exec (.enrolReplace q) s = .next (written s i)) ∧
      (∀ i old, s.findCard c.cred.card = none → Tab.lowestFree s.creds 4096 = none → s.cred i = some old →
        old.state ≠ .active → s.referenced i = false →
        (∀ j d, j < i → s.cred j = some d → d.state = .active ∨ s.referenced j = true) →
        exec (.enrol q) s = .next (written s i) ∧ exec (.enrolReplace q) s = .next (written s i)) ∧
      (s.findCard c.cred.card = none → Tab.lowestFree s.creds 4096 = none →
        (∀ j d, s.cred j = some d → d.state = .active ∨ s.referenced j = true) → s.freeCred = none) ∧
      (s.findCard c.cred.card = none → s.freeCred = none →
        exec (.enrol q) s = .next (s.answer 0x03 q (.refused .tableFull [])) ∧
        exec (.enrolReplace q) s = .next (s.answer 0x03 q (.refused .tableFull []))) ∧
      (∀ i old, s.findCard c.cred.card = some (i, old) → old.state = .active →
        exec (.enrol q) s = .next (s.answer 0x03 q (.refused .duplicate [])) ∧
        ((s.revoke i .replace).referenced i = true →
          exec (.enrolReplace q) s = .next ((s.revoke i .replace).answer 0x03 q (.refused .revoking []))) ∧
        ((s.revoke i .replace).referenced i = false →
          exec (.enrolReplace q) s = .next (written (s.revoke i .replace) i))) ∧
      (∀ i old, s.findCard c.cred.card = some (i, old) → old.state ≠ .active →
        (s.referenced i = true → exec (.enrol q) s = .next (s.answer 0x03 q (.refused .revoking [])) ∧
          exec (.enrolReplace q) s = .next (s.answer 0x03 q (.refused .revoking []))) ∧
        (s.referenced i = false → exec (.enrol q) s = .next (written s i) ∧
          exec (.enrolReplace q) s = .next (written s i))))) ∧
  (∀ (s : State) (i : Nat) (c : Cred), s.Canonical →
    (s.writeCred i c).cred i = some c ∧ (∀ j, j ≠ i → (s.writeCred i c).cred j = s.cred j) ∧
    State.credBlock i ∈ (s.writeCred i c).dirty ∧
    (s.writeCred i c).places = ({ s with creds := Tab.write s.creds i c }.handCredential i).places ∧
    (s.journal.storable = true → ∃ r, (s.writeCred i c).journal.ring = s.journal.ring ++ [r] ∧ r.kind = .enrolled ∧
      r.card = some c.card)) ∧
  (∀ (s : State) (i p : Nat) (c : Cred), s.Canonical → s.cred i = some c →
    let pl := s.place p
    let guest := c.kind == .guest
    let takes := pl.reachable = true ∧ s.inPlan guest pl.door c = true ∧ pl.namesIndex i = false
    (∀ slot, takes → pl.freeSlot guest = some slot →
      (s.handCredential i).place p = Place.addEntry slot i c.card pl) ∧
    (takes → pl.freeSlot guest = none → (s.handCredential i).place p = pl) ∧
    (¬takes → (s.handCredential i).place p = pl) ∧ s.handCredential i = { s with places := (s.handCredential i).places }) ∧
  (∀ (pl : Place) (slot i card : Nat), ∃ d ∈ (Place.addEntry slot i card pl).directory, d.slot = slot ∧ d.index = i ∧
    (pl.queueLen < 4 → d.state = .adding .queued ∧ ∃ x ∈ (Place.addEntry slot i card pl).waiting,
      x.cmd = .cacheAdd slot card i) ∧
    (4 ≤ pl.queueLen → d.state = .adding .owed ∧ (Place.addEntry slot i card pl).queue = pl.queue)) ∧
  (∀ (pl : Place) (guest : Bool) (slot : Nat), pl.freeSlot guest = some slot ↔
    (guest = true → pl.door.kindCode = 1) ∧ (if guest then slot < 6 else 6 ≤ slot ∧ slot < 16) ∧
    (∀ d ∈ pl.directory, d.slot ≠ slot) ∧
    ∀ n, n < slot → (if guest then n < 6 else 6 ≤ n) → ∃ d ∈ pl.directory, d.slot = n) ∧
  ∀ (q : Request) (s : State) (n : Nat), s.Takes 0x03 q →
    (readEnrol q.payload = .error n ∨ ∃ f, readEnrol q.payload = .ok f ∧ checkEnrol f = .error n) →
    exec (.enrol q) s = .next (s.answer 0x03 q (badField n)) ∧
    exec (.enrolReplace q) s = .next (s.answer 0x03 q (badField n))

/-- R12: WITHDRAW acts on the state it finds: an ACTIVE entry becomes REVOKED and its revocation starts; of an ended
one the state is reported; an unknown card is refused NOT_FOUND. It may be broadcast. That the card numbers 0 and
FFFFFFFF hex are looked up like any other and give NOT_FOUND is the model's choice (log 18), and so is the width of
the index and of the state reported (log 19). -/
def Obligations.CardsAreWithdrawn : Prop :=
  (∀ (q : Request) (s : State) (card : Nat), s.Takes 0x04 q → s.Canonical → q.payload = le 4 card → card < 4294967296 →
    (∀ i c, s.findCard card = some (i, c) → c.state = .active →
      exec (.withdraw q) s = .next ((s.revoke i .withdraw).answer 0x04 q (.done (le 2 i))) ∧
      (s.revoke i .withdraw).cred i = some { c with state := .revoked }) ∧
    (∀ i c, s.findCard card = some (i, c) → c.state ≠ .active →
      exec (.withdraw q) s = .next (s.answer 0x04 q (.done [byte (credStateCode c.state)]))) ∧
    (s.findCard card = none → exec (.withdraw q) s = .next (s.answer 0x04 q (.refused .notFound [])))) ∧
  formOk 0x04 .broadcast = true

/-- R126 to R130: STAY OPEN opens a stay in the entry it takes (the lowest unused, else the CLOSED one closed first,
of equals the lowest) and names it in the room's entry, or is refused by the first check that fails; STAY EXTEND moves
the planned end and the validity of its ACTIVE GUEST cards; STAY CLOSE revokes those cards, commits every pending
charge of the stay with NO_GRACE in list order, so that the total rises by their sum, held at the top, where the stay
is marked SATURATED, and each compartment becomes EMPTY; the stay is then CLOSED, the room's open stay field removed,
and the room's entry too where no door record names the room (R20); STAY_CLOSED is journalled last with total,
SATURATED and the number of charges committed. A number of 0 is refused. The widths of the counts and which field a
BAD_FIELD names are log 18 and log 19. -/
def Obligations.StaysRun : Prop :=
  (∀ (q : Request) (s : State) (r n e k : Nat), s.Takes 0x05 q → s.Canonical → q.form = .room r →
    q.payload = le 2 n ++ le 3 e ++ le 3 k → n ≤ 65535 → e ≤ top24 → k ≤ top24 →
    (n = 0 → exec (.stayOpen q) s = .next (s.answer 0x05 q (badField 1))) ∧
    (1 ≤ n → s.roomOccupied r = true → exec (.stayOpen q) s = .next (s.answer 0x05 q (.refused .roomOccupied []))) ∧
    (1 ≤ n → s.roomOccupied r = false → (∃ x, s.findStay n = some x) →
      exec (.stayOpen q) s = .next (s.answer 0x05 q (.refused .duplicate []))) ∧
    (1 ≤ n → s.roomOccupied r = false → s.findStay n = none →
      (s.findRoom r = none ∧ Tab.lowestFree s.rooms 96 = none) ∨ s.freeStay = none →
      exec (.stayOpen q) s = .next (s.answer 0x05 q (.refused .tableFull []))) ∧
    (∀ i, 1 ≤ n → s.roomOccupied r = false → s.findStay n = none → s.freeStay = some i →
      s.findRoom r ≠ none ∨ Tab.lowestFree s.rooms 96 ≠ none →
      ∃ u : State, exec (.stayOpen q) s = .next (u.answer 0x05 q (.done (le 2 i))) ∧
        Tab.look u.stays i = some ⟨n, r, true, s.clock.m, none, e, k, 0, false⟩ ∧
        (∀ j, j ≠ i → Tab.look u.stays j = Tab.look s.stays j) ∧
        (∃ j x, u.findRoom r = some (j, x) ∧ x.openStay = some n) ∧
        (s.journal.storable = true → ∃ x, u.journal.ring = s.journal.ring ++ [x] ∧ x.kind = .stayOpened) ∧
        u = { s with
          stays := u.stays, rooms := u.rooms, journal := u.journal, trunk := { s.trunk with notices := u.trunk.notices }
          faults := u.faults, alarm := u.alarm, dirty := u.dirty, writer := u.writer })) ∧
  (∀ (s : State) (i : Nat), s.Canonical → (s.freeStay = some i ↔
    (i < 256 ∧ Tab.look s.stays i = none ∧ ∀ j, j < i → Tab.look s.stays j ≠ none) ∨
    ((∀ j, j < 256 → Tab.look s.stays j ≠ none) ∧ ∃ x, Tab.look s.stays i = some x ∧ x.isOpen = false ∧
      ∀ j y, Tab.look s.stays j = some y → y.isOpen = false → x.closed.getD 0 < y.closed.getD 0 ∨
        (x.closed.getD 0 = y.closed.getD 0 ∧ i ≤ j)))) ∧
  (∀ (q : Request) (s : State) (n e : Nat), s.Takes 0x06 q → s.Canonical → q.payload = le 2 n ++ le 3 e →
    n ≤ 65535 → e ≤ top24 →
    (n = 0 → exec (.stayExtend q) s = .next (s.answer 0x06 q (badField 1))) ∧
    (∀ i x, 1 ≤ n → s.findStay n = some (i, x) → x.isOpen = false →
      exec (.stayExtend q) s = .next (s.answer 0x06 q (.refused .notFound []))) ∧
    (1 ≤ n → (∀ i x, s.findStay n = some (i, x) → x.isOpen = true) → ∃ u : State, exec (.stayExtend q) s =
        .next (u.answer 0x06 q (.done (le 2 (s.extendCount n e) ++ flag (s.findStay n).isSome))) ∧
      (∀ i x, s.findStay n = some (i, x) → u.stays = Tab.write s.stays i { x with planned := e }) ∧
      (s.findStay n = none → u.stays = s.stays) ∧
      (∀ j c, s.cred j = some c → u.cred j = some
        (if c.state = .active ∧ c.kind = .guest ∧ (∃ g, c.guest = some g ∧ g.stay = n) then
          { c with validity := c.validity.map (fun v => (v.1, max e v.1)) } else c)) ∧
      u = { s with
        creds := u.creds, stays := u.stays, journal := u.journal, trunk := { s.trunk with notices := u.trunk.notices }
        faults := u.faults, alarm := u.alarm, dirty := u.dirty, writer := u.writer })) ∧
  (∀ (q : Request) (s : State) (n r : Nat), s.Takes 0x07 q → q.payload = le 2 n ++ le 2 r → n ≤ 65535 → r ≤ 65535 →
    (n = 0 → exec (.stayClose q) s = .next (s.answer 0x07 q (badField 1))) ∧
    (1 ≤ n → r = 0 → exec (.stayClose q) s = .next (s.answer 0x07 q (badField 2))) ∧
    (1 ≤ n → 1 ≤ r → s.findStay n = none → exec (.stayClose q) s =
      .next ((s.revokeAll (s.guestsOf n) .checkout).answer 0x07 q (.done (le 2 (s.guestsOf n).length))))) ∧
  ∀ (q : Request) (s : State) (n r i : Nat) (x : Stay), s.Takes 0x07 q → s.Canonical → q.payload = le 2 n ++ le 2 r →
    1 ≤ n → n ≤ 65535 → 1 ≤ r → r ≤ 65535 → s.findStay n = some (i, x) →
    (x.room ≠ r → exec (.stayClose q) s = .next (s.answer 0x07 q (badField 2))) ∧
    (x.room = r → x.isOpen = false → exec (.stayClose q) s = .next ((s.revokeAll (s.guestsOf n) .checkout).answer 0x07 q
      (.done (le 2 (s.guestsOf n).length ++ [1#8] ++ le 3 x.total ++ flag x.saturated)))) ∧
    (x.room = r → x.isOpen = true → ∃ (u : State) (y : Stay), exec (.stayClose q) s = .next (u.answer 0x07 q
        (.done (le 2 (s.guestsOf n).length ++ le 2 (s.pendingCharges.filter (fun c => c.stay == n)).length
          ++ le 3 y.total ++ flag y.saturated))) ∧
      let mine := s.pendingCharges.filter (fun c => c.stay == n)
      let sum := (mine.map (fun c => c.amount)).sum
      y = { x with
        isOpen := false, closed := some s.clock.m, total := if mine = [] then x.total else min top24 (x.total + sum)
        saturated := x.saturated || (!mine.isEmpty && decide (top24 < x.total + sum)) } ∧
      Tab.look u.stays i = some y ∧ (∀ j, j ≠ i → Tab.look u.stays j = Tab.look s.stays j) ∧
      u.pendingCharges = s.pendingCharges.filter (fun c => c.stay != n) ∧
      (∀ c ∈ mine, (s.comp c.place c.compartment).state = .pending ∨ (s.comp c.place c.compartment).state = .stocked →
        u.comp c.place c.compartment = { s.comp c.place c.compartment with state := .empty, reversals := 0 }) ∧
      (∀ j z, s.findRoom r = some (j, z) →
        Tab.look u.rooms j = if s.roomNamed r then some { z with openStay := none } else none) ∧
      (∀ j, (∀ z, s.findRoom r ≠ some (j, z)) → Tab.look u.rooms j = Tab.look s.rooms j) ∧
      (u.journal.storable = true → ∃ mid m, u.journal.ring = s.journal.ring ++ mid ++ [m] ∧ m.kind = .stayClosed ∧
        m.spot = .room r ∧ m.detail = le 2 n ++ le 3 y.total ++ flag y.saturated ++ le 2 mine.length ∧
        (mid.filter (fun d => decide (d.kind = .minibarCharge))).map (fun d => (d.spot, d.card, d.marks.noGrace)) =
          mine.map (fun c => (.drop c.place, c.card, true))) ∧
      (∀ j ∈ s.guestsOf n, ∀ c, s.cred j = some c → u.cred j = some { c with state := .revoked }) ∧
      (∀ j, j ∉ s.guestsOf n → u.cred j = s.cred j))

/-- R131: STAY PURGE. -/
def Obligations.StaysArePurged : Prop :=
  (∀ (q : Request) (s : State) (n : Nat), s.Takes 0x08 q → q.payload = le 2 n → n ≤ 65535 →
    (n = 0 → exec (.stayPurge q) s = .next (s.answer 0x08 q (badField 1))) ∧
    (∀ i x, n ≠ 0 → s.findStay n = some (i, x) → x.isOpen = false →
      exec (.stayPurge q) s = .next ((s.clearStay i).answer 0x08 q (.done []))) ∧
    (∀ i x, n ≠ 0 → s.findStay n = some (i, x) → x.isOpen = true →
      exec (.stayPurge q) s = .next (s.answer 0x08 q (.refused .busy []))) ∧
    (n ≠ 0 → s.findStay n = none → exec (.stayPurge q) s = .next (s.answer 0x08 q (.refused .notFound [])))) ∧
  (∀ (s : State) (i : Nat), (s.clearStay i).stays = Tab.clear s.stays i ∧ (s.clearStay i).journal = s.journal) ∧
  (∀ (s : State) (i n : Nat) (x : Stay), s.Canonical → (∀ j k y z, Tab.look s.stays j = some y →
      Tab.look s.stays k = some z → y.number = z.number → j = k) →
    s.findStay n = some (i, x) → (s.clearStay i).findStay n = none) ∧
  formOk 0x08 .unit = true ∧ (∀ r, formOk 0x08 (.room r) = true) ∧ formOk 0x08 .broadcast = false

/-- R61: DOOR OPEN by place or by room: a class-1 REMOTE_UNLOCK with the door's unlock seconds enters the drop's
queue, and DONE is answered; the five cases refuse. The order of the refusals is log 64; which field a BAD_FIELD names
is log 18. -/
def Obligations.DoorsAreOpened : Prop :=
  (∀ (q : Request) (s : State) (g a : Byte), s.Takes 0x09 q → s.Canonical → q.form = .unit → q.payload = [g, a] →
    (4 ≤ g.toNat → exec (.doorOpen q) s = .next (s.answer 0x09 q (badField 1))) ∧
    (g.toNat < 4 → a.toNat = 0 ∨ 33 ≤ a.toNat → exec (.doorOpen q) s = .next (s.answer 0x09 q (badField 2))) ∧
    (g.toNat < 4 → 1 ≤ a.toNat → a.toNat ≤ 32 →
      let p := placeOf g.toNat a.toNat
      let pl := s.place p
      (pl.door.isLocked = false → exec (.doorOpen q) s = .next (s.answer 0x09 q (.refused .notFound []))) ∧
      (pl.door.isLocked = true → pl.presence = .absent →
        exec (.doorOpen q) s = .next (s.answer 0x09 q (.refused .outOfService []))) ∧
      (pl.door.isLocked = true → pl.presence ≠ .absent → 4 ≤ pl.class1 →
        exec (.doorOpen q) s = .next (s.answer 0x09 q (.refused .busy []))) ∧
      (pl.door.isLocked = true → pl.presence ≠ .absent → pl.class1 < 4 →
        ∃ u : State, exec (.doorOpen q) s = .next (u.answer 0x09 q (.done [])) ∧
          u = { s with places := u.places } ∧ (∀ d, d ≠ p → u.place d = s.place d) ∧
          (∃ x ∈ (u.place p).waiting, x.cmd = .remoteUnlock pl.door.unlockSeconds) ∧
          (u.place p).class1 = pl.class1 + 1 ∧ (u.place p).doorState = pl.doorState))) ∧
  ∀ (q : Request) (s : State) (r : Nat), s.Takes 0x09 q → q.form = .room r → q.payload = [] →
    (s.roomDoor r = none → exec (.doorOpen q) s = .next (s.answer 0x09 q (.refused .notFound []))) ∧
    (∀ p, s.roomDoor r = some p → (s.place p).door.isLocked = true → (s.place p).presence = .absent →
      exec (.doorOpen q) s = .next (s.answer 0x09 q (.refused .outOfService []))) ∧
    (∀ p, s.roomDoor r = some p → (s.place p).door.isLocked = true → (s.place p).presence ≠ .absent →
      4 ≤ (s.place p).class1 → exec (.doorOpen q) s = .next (s.answer 0x09 q (.refused .busy []))) ∧
    (∀ p, s.roomDoor r = some p → (s.place p).door.isLocked = true → (s.place p).presence ≠ .absent →
      (s.place p).class1 < 4 → exec (.doorOpen q) s = .next
        ((s.modPlace p (Place.offer (.remoteUnlock (s.place p).door.unlockSeconds))).answer 0x09 q (.done [])))

/-- R36 to R39: ZONE SET: the zone takes the state carried and no other zone changes; the previous state is reported;
each lock of a zone entering RELEASED is owed or has queued a HOLD_OPEN, an unsent SECURE withdrawn, and of one
leaving it a SECURE, an unsent HOLD_OPEN withdrawn. The same state changes nothing; a zone or state out of range is
refused. Which field a BAD_FIELD names, and that no result is carried where nothing changes, are log 18 and log 19. -/
def Obligations.ZonesAreSet : Prop :=
  (∀ (q : Request) (s : State) (z x : Byte), s.Takes 0x0A q → q.payload = [z, x] →
    (16 ≤ z.toNat → exec (.zoneSet q) s = .next (s.answer 0x0A q (badField 1))) ∧
    (z.toNat < 16 → 3 ≤ x.toNat → exec (.zoneSet q) s = .next (s.answer 0x0A q (badField 2)))) ∧
  ∀ (q : Request) (s : State) (z : Byte) (x : ZoneState), s.Takes 0x0A q → s.Canonical → z.toNat < 16 →
    q.payload = [z, byte (zoneCode x)] →
    (s.zone z.toNat = x → exec (.zoneSet q) s = .next (s.answer 0x0A q (.done []))) ∧
    (s.zone z.toNat ≠ x → ∃ u : State,
      exec (.zoneSet q) s = .next (u.answer 0x0A q (.done [byte (zoneCode (s.zone z.toNat))])) ∧
      u.zone z.toNat = x ∧ (∀ y, y ≠ z.toNat → u.zone y = s.zone y) ∧ 3 ∈ u.dirty ∧
      (∀ p, (s.place p).door.isLocked = true → (s.place p).door.zone? = some z.toNat → x = .released →
        ((u.place p).mark = .holdOwed ∨ (u.place p).mark = .holdQueued) ∧
        ((s.place p).mark = .secureQueued → ∀ y ∈ (u.place p).waiting, y.cmd ≠ .secure)) ∧
      (∀ p, (s.place p).door.isLocked = true → (s.place p).door.zone? = some z.toNat → s.zone z.toNat = .released →
        ((u.place p).mark = .secureOwed ∨ (u.place p).mark = .secureQueued) ∧
        ((s.place p).mark = .holdQueued → ∀ y ∈ (u.place p).waiting, y.cmd ≠ .holdOpen)) ∧
      (x ≠ .released → s.zone z.toNat ≠ .released → u.places = s.places) ∧
      (∀ p, (u.place p).doorState = (s.place p).doorState ∧ (u.place p).door = (s.place p).door) ∧
      u = { s with zones := u.zones, places := u.places, segs := u.segs, dirty := u.dirty, writer := u.writer })

/-- R29, R30, R15: CLOCK SET: the clock takes the values carried and runs, the set point follows, each open record
keeps the minutes it had left, at most to M's top, and one left with none ends with its fault; no record is left whose
deadline M has reached (below M's top), no ACTIVE credential past its end; the completion reports the clock held
before and the number of credentials expired. Which field a BAD_FIELD names is log 18. -/
def Obligations.ClockIsSet : Prop :=
  ∀ (q : Request) (s : State) (m w : Nat), s.Takes 0x0B q → s.Canonical → q.payload = le 3 m ++ le 2 w → m ≤ top24 →
    w ≤ 65535 →
    (10080 ≤ w → exec (.clockSet q) s = .next (s.answer 0x0B q (badField 2))) ∧
    (w < 10080 → ∃ u : State, exec (.clockSet q) s = .next (u.answer 0x0B q
        (.done (le 3 s.clock.m ++ le 2 s.clock.w ++ [byte (clockCode s.clock.state)] ++
          le 2 (s.creds.filter (fun e => e.2.state == .active &&
            (s.credEnd e.2).any (fun n => decide (n ≤ m)))).length))) ∧
      u.clock = ⟨m, w, 0, .running⟩ ∧ u.journal.setPoint = some (m * 60) ∧
      (m = top24 → (u.fault .clockEnd).set = true) ∧
      (m < top24 → 1 ≤ s.policy.d → ∀ e ∈ u.revocations, m < e.2.deadline) ∧
      (∀ e ∈ u.creds, u.expires e.2 = false) ∧
      (∀ k r, Tab.look s.revocations k = some r →
        let d := min top24 (m + (r.deadline - s.clock.m))
        (m < d → Tab.look u.revocations k = some { r with deadline := d }) ∧
        (d ≤ m → (u.fault .revocationPartial).set = true)) ∧
      (∀ i c, s.cred i = some c → ∃ x, u.cred i = some { c with state := x } ∧
        (x = c.state ∨ c.state = .active ∧ x = .expired)) ∧
      u = { s with
        clock := u.clock, creds := u.creds, places := u.places, segs := u.segs, revocations := u.revocations
        journal := u.journal, trunk := { s.trunk with notices := u.trunk.notices }, faults := u.faults, alarm := u.alarm
        dirty := u.dirty, writer := u.writer })

/-- R157, R162, R163: JOURNAL RELEASE frees the records up to the smaller of N and the last number sent, stores a
JOURNAL_GAP record where it freed one, the gap count is above 0 and storing is possible, else leaves the count as it
stands, and reports what it did; JOURNAL REWIND moves the send cursor down to N and no lower than the release mark.
What a RELEASE with the cursor at 0 reports as its mark is a free value (log 11). -/
def Obligations.JournalIsReleasedAndRewound : Prop :=
  (∀ (q : Request) (s : State) (n : Nat), s.Takes 0x0D q → q.payload = le 5 n → n < seqEnd →
    let c := if s.journal.cursor < n then s.journal.cursor else max n s.journal.release
    exec (.journalRewind q) s = .next ({ s with journal := { s.journal with cursor := c } }.answer 0x0D q
      (.done (le 6 c ++ le 6 s.journal.next)))) ∧
  (∀ (q : Request) (s : State) (n : Nat), s.Takes 0x0C q → q.payload = le 5 n → n < seqEnd → 0 < s.journal.cursor →
    let mark := min n (s.journal.cursor - 1)
    (mark < s.journal.release → exec (.journalRelease q) s = .next (s.answer 0x0C q
      (.done (le 5 mark ++ le 2 0 ++ le 6 s.journal.release ++ le 2 s.journal.held)))) ∧
    (s.journal.release ≤ mark →
      let freed := mark + 1 - s.journal.release
      let j : Journal := { s.journal with ring := s.journal.ring.drop freed, release := mark + 1 }
      (s.journal.gap = 0 ∨ j.storable = false → exec (.journalRelease q) s = .next ({ s with journal := j }.answer 0x0C q
        (.done (le 5 mark ++ le 2 freed ++ le 6 (mark + 1) ++ le 2 (s.journal.next - (mark + 1)))))) ∧
      (0 < s.journal.gap → j.storable = true → ∃ u : State, exec (.journalRelease q) s = .next (u.answer 0x0C q
          (.done (le 5 mark ++ le 2 freed ++ le 6 (mark + 1) ++ le 2 (s.journal.next + 1 - (mark + 1))))) ∧
        u.journal.gap = 0 ∧ u.journal.next = s.journal.next + 1 ∧
        (∃ x, u.journal.ring = s.journal.ring.drop freed ++ [x] ∧ x.kind = .journalGap ∧ x.seq = s.journal.next ∧
          x.detail = le 2 s.journal.gap) ∧ u.journal.release = mark + 1 ∧ u.journal.cursor = s.journal.cursor ∧
        u = { s with
          journal := u.journal, faults := u.faults, alarm := u.alarm, dirty := u.dirty, writer := u.writer
          trunk := { s.trunk with notices := u.trunk.notices } }))) ∧
  ∀ (q : Request) (s : State) (n : Nat), s.Takes 0x0C q → q.payload = le 5 n → n < seqEnd → s.journal.cursor = 0 →
    ∃ mark, exec (.journalRelease q) s = .next (s.answer 0x0C q
      (.done (le 5 mark ++ le 2 0 ++ le 6 s.journal.release ++ le 2 s.journal.held)))

/-- R98, R99: SEGMENT TEST by line state, and SEGMENT SERVICE out and in. That an out on a segment OUT_OF_SERVICE
carries no result is log 19; which field a BAD_FIELD names is log 18. -/
def Obligations.SegmentsAreServed : Prop :=
  (∀ (q : Request) (s : State) (g : Byte), s.Takes 0x0E q → s.Canonical → q.payload = [g] →
    (4 ≤ g.toNat → exec (.segmentTest q) s = .next (s.answer 0x0E q (badField 1))) ∧
    (g.toNat < 4 → (s.seg g.toNat).line = .testing →
      exec (.segmentTest q) s = .next (s.answer 0x0E q (.refused .busy []))) ∧
    (g.toNat < 4 → (s.seg g.toNat).line = .outOfService →
      exec (.segmentTest q) s = .next (s.answer 0x0E q (.refused .outOfService []))) ∧
    (g.toNat < 4 → (s.seg g.toNat).line ≠ .testing → (s.seg g.toNat).line ≠ .outOfService →
      ∃ t, exec (.segmentTest q) s = .next t ∧ (t.seg g.toNat).line = .testing ∧
        (t.seg g.toNat).test = some ⟨1, 1, 0, .none, false⟩ ∧ (t.seg g.toNat).pendingTest = some (q.tag, q.source) ∧
        (∀ p, segOf p = g.toNat → (t.place p).presence = .absent) ∧ t.request = none ∧
        t.trunk = { s.trunk with notices := t.trunk.notices })) ∧
  (∀ (q : Request) (s : State) (g d : Byte), s.Takes 0x0F q → q.payload = [g, d] → g.toNat < 4 → 2 ≤ d.toNat →
    exec (.segmentServiceOut q) s = .next (s.answer 0x0F q (badField 2)) ∧
    exec (.segmentServiceIn q) s = .next (s.answer 0x0F q (badField 2))) ∧
  (∀ (q : Request) (s : State) (g : Byte), s.Takes 0x0F q → s.Canonical → q.payload = [g, 0#8] →
    (4 ≤ g.toNat → exec (.segmentServiceOut q) s = .next (s.answer 0x0F q (badField 1))) ∧
    (g.toNat < 4 → (s.seg g.toNat).line = .outOfService →
      exec (.segmentServiceOut q) s = .next (s.answer 0x0F q (.done []))) ∧
    (g.toNat < 4 → (s.seg g.toNat).line ≠ .outOfService → ∃ u : State, exec (.segmentServiceOut q) s =
        .next (u.answer 0x0F q (.done [byte (lineCode (s.seg g.toNat).line)])) ∧
      (u.seg g.toNat).line = .outOfService ∧ (u.seg g.toNat).test = none ∧ (u.seg g.toNat).pendingTest = none ∧
      (∀ p, segOf p = g.toNat → (u.place p).presence = .absent) ∧
      (∀ tag src, (s.seg g.toNat).pendingTest = some (tag, src) → s.trunk.unitNumber ≠ 0 →
        u.trunk.completions ++ u.trunk.waitingCompletions = s.trunk.completions ++ s.trunk.waitingCompletions ++
          [⟨tag, 0x0E#8, .refused .outOfService, [], []⟩]))) ∧
  ∀ (q : Request) (s : State) (g : Byte), s.Takes 0x0F q → s.Canonical → q.payload = [g, 1#8] →
    (4 ≤ g.toNat → exec (.segmentServiceIn q) s = .next (s.answer 0x0F q (badField 1))) ∧
    (g.toNat < 4 → (s.seg g.toNat).line ≠ .outOfService →
      exec (.segmentServiceIn q) s = .next (s.answer 0x0F q (.done []))) ∧
    (g.toNat < 4 → (s.seg g.toNat).line = .outOfService → ∃ u : State, exec (.segmentServiceIn q) s =
        .next (u.answer 0x0F q (.done [])) ∧
      (u.seg g.toNat).line = .testing ∧ (u.seg g.toNat).test = some ⟨1, 1, 0, .none, false⟩)

/-- R203: FAULT CLEAR takes the severity changes, then the mask set, then the clear set, and re-evaluates the pin; it
reports the kinds SET before. Of two changes of one kind the later stays: the model's choice (log 57). A kind or a
severity outside its list is named and changes nothing. Which field a BAD_FIELD names is log 18. -/
def Obligations.FaultsAreCleared : Prop :=
  (∀ (q : Request) (s : State) (f : Fields) (a : FaultArgs), s.Takes 0x11 q → s.Canonical →
    readFaultArgs q.payload = .ok f → checkFaultArgs f = .ok a → ∃ u : State,
      exec (.faultClear q) s = .next (u.answer 0x11 q (.done (le 4 s.faultSet))) ∧
      u = { s with faults := u.faults, alarm := u.alarm } ∧ u.AlarmTrue ∧
      (∀ k, a.clear.testBit (faultCode k) = true →
        (u.fault k).set = false ∧ (u.fault k).detail = none ∧ (u.fault k).occurrences = 0) ∧
      (∀ k, a.clear.testBit (faultCode k) = false → (u.fault k).set = (s.fault k).set ∧
        (u.fault k).detail = (s.fault k).detail ∧ (u.fault k).occurrences = (s.fault k).occurrences) ∧
      (∀ k m, a.mask = some m → (u.fault k).masked = m.testBit (faultCode k)) ∧
      (∀ k, a.mask = none → (u.fault k).masked = (s.fault k).masked) ∧
      ∀ k, u.severity k = match a.changes.reverse.find? (fun c => decide (c.1 = k)) with
        | some c => c.2
        | none => s.severity k) ∧
  (∀ (s : State) (k : FaultKind), s.faultSet.testBit (faultCode k) = (s.fault k).set) ∧
  ∀ (q : Request) (s : State) (n : Nat), s.Takes 0x11 q →
    (readFaultArgs q.payload = .error n ∨ ∃ f, readFaultArgs q.payload = .ok f ∧ checkFaultArgs f = .error n) →
    exec (.faultClear q) s = .next (s.answer 0x11 q (badField n))

/-- R197, R198: RESTART empties the trunk's queues, the notice queue among them: a notice then queued is of a fault
kind that RESTART itself SET; it brings every segment to the beginning of a line test and every drop to ABSENT, and
keeps every table, the clock, the policy and the store. What stood in the trunk's queues makes no difference to what
it leaves. The model's choices: completions waiting outside the queue go too (log 36), the partners' hold is kept (log
24), and which field a BAD_FIELD names (log 18). -/
def Obligations.RestartKeepsTheTables : Prop :=
  (∀ (q : Request) (s : State), s.Takes 0x12 q → s.Canonical → s.ReloadsInRange → q.payload = [] → ∃ u : State,
    exec (.restart q) s = .next (u.answer 0x12 q (.done [])) ∧
    u.trunk = { s.trunk with
      classifier := [], downlink := [], passThrough := [], completions := [], waitingCompletions := []
      notices := u.trunk.notices, upTx := none, downTx := none, lastServed := .local } ∧
    (∀ n ∈ u.trunk.notices, (s.fault n.kind).set = false ∧ (u.fault n.kind).set = true ∧
      n.severity = s.severity n.kind ∧ n.m = s.clock.m ∧ n.s = s.clock.s) ∧ u.trunk.notices.length ≤ 4 ∧
    (∀ g, g < 4 → (u.seg g).line = .testing ∧ (u.seg g).test = some ⟨1, 1, 0, .none, false⟩ ∧
      (u.seg g).pendingTest = none ∧ (u.seg g).requests = [] ∧ (u.seg g).terminal = true) ∧
    (∀ p, p < 128 → (u.place p).presence = .absent ∧ (u.place p).nextBit = false ∧
      (u.place p).door = (s.place p).door ∧ (u.place p).comps = (s.place p).comps ∧
      (u.place p).suspect = (s.place p).suspect) ∧
    (∀ p, p < 128 → (s.place p).presence ≠ .absent → (u.place p).queue = [] ∧ (u.place p).presentation = none ∧
      (u.place p).directory = [] ∧ (u.place p).doorState = .unknown) ∧
    u = { s with
      places := u.places, segs := u.segs, journal := u.journal, trunk := u.trunk, faults := u.faults, alarm := u.alarm
      dirty := u.dirty, writer := u.writer }) ∧
  (∀ (q : Request) (s : State), s.Takes 0x12 q → s.Canonical → q.payload = [] →
    exec (.restart q) s = exec (.restart q) { s with trunk := { s.trunk with
      classifier := [], downlink := [], passThrough := [], completions := [], waitingCompletions := [], notices := []
      upTx := none, downTx := none, lastServed := .local } }) ∧
  ∀ (q : Request) (s : State), s.Takes 0x12 q → q.payload ≠ [] → exec (.restart q) s = .next (s.answer 0x12 q (badField 1))
end

