-- ==== Sys2Proof/Laws/Places.lean ====
section
/-! SUPPORT. The operations on one place keep its command queue within four commands (R75, R76), and those of the queue, the
cache and the zone command leave its compartments alone (R133). -/

-- Proofs are checked one after another: with many small ones at once Lean asks for more threads than the memory limit admits.
set_option Elab.async false

namespace Sys2Proof.Machine

namespace Place

/-- An operation on a place that keeps the bound of R75. -/
def QueueOk (f : Place → Place) : Prop := ∀ pl, pl.queueLen ≤ 4 → (f pl).queueLen ≤ 4

theorem queueLen_eq (pl : Place) : pl.queueLen = pl.delivery.toList.length + pl.waiting.length := by
  simp [queueLen, queue]

/-- Two places with the same delivery and waiting commands have the same queue length. -/
theorem queueLen_congr {a b : Place} (h1 : a.delivery = b.delivery) (h2 : a.waiting = b.waiting) :
    a.queueLen = b.queueLen := by simp [queueLen, queue, h1, h2]

@[simp] theorem mapDir_queueLen (pl : Place) (sl i : Nat) (f : DirState → DirState) :
    (pl.mapDir sl i f).queueLen = pl.queueLen := rfl

@[simp] theorem addStatus_queueLen (pl : Place) (sl i : Nat) (st : CmdStatus) :
    (pl.addStatus sl i st).queueLen = pl.queueLen := rfl

@[simp] theorem removeStatus_queueLen (pl : Place) (sl i : Nat) (st : CmdStatus) :
    (pl.removeStatus sl i st).queueLen = pl.queueLen := rfl

@[simp] theorem onEntered_queueLen (c : LineCmd) (pl : Place) : (onEntered c pl).queueLen = pl.queueLen := by
  cases c <;> try rfl
  rename_i j; cases j <;> rfl

@[simp] theorem onReturned_queueLen (c : LineCmd) (st : CmdStatus) (pl : Place) :
    (onReturned c st pl).queueLen = pl.queueLen := by
  cases c <;> try rfl
  rename_i j; cases j <;> rfl

@[simp] theorem onCarried_queueLen (c : LineCmd) (pl : Place) : (onCarried c pl).queueLen = pl.queueLen := by
  cases c <;> try rfl
  · rename_i tag out
    simp only [onCarried]
    cases pl.presentation with
    | none => rfl
    | some pr => simp only; split <;> rfl
  · rename_i j; cases j <;> rfl

theorem insertEntry_length (e : QEntry) (l : List QEntry) : (insertEntry e l).length = l.length + 1 := by
  induction l with
  | nil => rfl
  | cons x xs ih => simp only [insertEntry]; split <;> simp [ih]

/-- A command that enters makes the queue one longer. -/
theorem enter_queueLen (c : LineCmd) (pl : Place) : (pl.enter c).queueLen = pl.queueLen + 1 := by
  rw [enter, onEntered_queueLen]
  simp only [queueLen_eq, insertEntry_length]; omega

theorem depart_queueLen_none (pl : Place) (h : pl.delivery = none) : pl.depart.queueLen = pl.queueLen := by
  simp [depart, h]

theorem depart_queueLen_le (pl : Place) : pl.depart.queueLen ≤ pl.queueLen := by
  unfold depart
  split
  · exact le_refl _
  · simp [queueLen_eq]

theorem victim_mem {l : List QEntry} {v : QEntry} (h : victim l = some v) : v ∈ l := by
  induction l generalizing v with
  | nil => simp [victim] at h
  | cons e es ih =>
    simp only [victim] at h
    split at h
    · simp_all
    · rename_i w hw
      have := ih hw
      split at h <;> simp_all

theorem filter_ne_length {l : List QEntry} {v : QEntry} (h : v ∈ l) :
    (l.filter (fun e => e != v)).length + 1 ≤ l.length := by
  have : (l.filter (fun e => e != v)).length < l.length :=
    List.length_filter_lt_length_iff_exists.mpr ⟨v, h, by simp⟩
  omega

/-- An evicted command makes the queue at least one shorter. -/
theorem evict_queueLen {pl : Place} {v : QEntry} (h : v ∈ pl.queue) : (pl.evict v).queueLen + 1 ≤ pl.queueLen := by
  unfold evict
  split
  · rename_i hd
    rw [onReturned_queueLen]; simp [depart, hd, queueLen_eq]
  · rename_i hd
    have hw : v ∈ pl.waiting := by
      simp only [queue, List.mem_append, Option.mem_toList] at h
      rcases h with h | h
      · exact absurd h hd
      · exact h
    have := filter_ne_length hw
    rw [onReturned_queueLen]; simp only [queueLen_eq]; omega

theorem offer_ok (c : LineCmd) : QueueOk (offer c) := by
  intro pl h
  unfold offer
  split
  · rename_i hr; simp only [hasRoom, decide_eq_true_eq] at hr; rw [enter_queueLen]; omega
  · split
    · simpa [onReturned_queueLen] using h
    · rename_i v hv
      split
      · have := evict_queueLen (victim_mem hv); rw [enter_queueLen]; omega
      · simpa [onReturned_queueLen] using h

theorem offerFree_ok (c : LineCmd) : QueueOk (offerFree c) := by
  intro pl h
  unfold offerFree
  split
  · rename_i hr; simp only [hasRoom, decide_eq_true_eq] at hr; rw [enter_queueLen]; omega
  · exact h

theorem withdraw_ok (p : LineCmd → Bool) : QueueOk (withdraw p) := by
  intro pl h
  have := List.length_filter_le (fun e : QEntry => !p e.cmd) pl.waiting
  simp only [withdraw, queueLen_eq] at *; omega

theorem depart_ok : QueueOk depart := fun pl h => (depart_queueLen_le pl).trans h

theorem comp_ok {f g : Place → Place} (hg : QueueOk g) (hf : QueueOk f) : QueueOk (fun pl => g (f pl)) :=
  fun pl h => hg _ (hf pl h)

theorem offerZone_ok : QueueOk offerZone := by
  intro pl h
  unfold offerZone
  split
  · split
    · exact offer_ok _ pl h
    · exact offer_ok _ pl h
    all_goals exact h
  · exact h

theorem markReleased_ok : QueueOk markReleased := by
  intro pl h
  unfold markReleased
  split
  · exact withdraw_ok isSecure pl h
  all_goals exact h

theorem markLeft_ok : QueueOk markLeft := by
  intro pl h
  unfold markLeft
  split
  · exact withdraw_ok isHoldOpen pl h
  all_goals exact h

theorem foldl_ok {α : Type} (f : Place → α → Place) (hf : ∀ a, QueueOk (fun pl => f pl a)) (l : List α) :
    QueueOk (fun pl => l.foldl f pl) := by
  induction l with
  | nil => exact fun pl h => h
  | cons a l ih => exact fun pl h => ih _ (hf a pl h)

theorem offerReturned_ok (c : LineCmd) : QueueOk (fun pl => pl.offerReturned c) := by
  intro pl h
  simp only [offerReturned]
  split
  · rename_i hr
    have hr : ({ pl with joinOwed := pl.joinOwed.erase c } : Place).hasRoom := hr
    simp only [hasRoom, decide_eq_true_eq] at hr
    rw [enter_queueLen]; omega
  · exact h

theorem offerJoin_ok : QueueOk offerJoin := fun pl h => foldl_ok offerReturned offerReturned_ok pl.joinOwed pl h

theorem offerFlush_ok : QueueOk offerFlush := by
  intro pl h
  unfold offerFlush
  split
  · exact offerFree_ok _ pl h
  · exact h

theorem offerRemoves_ok : QueueOk offerRemoves := by
  intro pl h
  refine foldl_ok _ (fun d q hq => ?_) pl.directory pl h
  simp only
  split
  · exact offerFree_ok _ q hq
  · exact hq

theorem offerAdds_ok (card : Nat → Nat) : QueueOk (offerAdds card) := by
  intro pl h
  refine foldl_ok _ (fun d q hq => ?_) pl.directory pl h
  simp only
  split
  · exact offerFree_ok _ q hq
  · exact hq

theorem reoffer_ok (card : Nat → Nat) : QueueOk (reoffer card) := fun pl h =>
  offerAdds_ok card _ (offerRemoves_ok _ (offerFlush_ok _ (offerJoin_ok _ (offerZone_ok pl h))))

theorem suspectNow_ok : QueueOk suspectNow := by
  intro pl h
  unfold suspectNow
  split
  · exact offer_ok _ _ h
  · exact h

theorem firstReady_mem {dg : Bool} {pl : Place} {e : QEntry} (h : pl.firstReady dg = some e) : e ∈ pl.waiting :=
  List.mem_of_find?_eq_some h

theorem carry_queueLen {pl : Place} {e : QEntry} (h : e ∈ pl.waiting) : (pl.carry e).queueLen ≤ pl.waiting.length := by
  have := filter_ne_length h
  rw [carry, onCarried_queueLen]; simp only [queueLen_eq, Option.toList_some, List.length_singleton]; omega

/-- What a poll carries leaves the queue no longer than it was. -/
theorem choose_ok (dg : Bool) : QueueOk (fun pl => (pl.choose dg).1) := by
  intro pl h
  simp only [choose]
  split
  · exact h
  · split
    · exact h
    · split
      · rename_i e he
        have := carry_queueLen (firstReady_mem he)
        simp only [queueLen_eq] at h this ⊢; omega
      · exact h

theorem addEntry_ok (slot index card : Nat) : QueueOk (addEntry slot index card) := fun _ h => offer_ok _ _ h

theorem startRemove_ok (slot index : Nat) : QueueOk (startRemove slot index) := fun _ h => offer_ok _ _ h

theorem replaceGrant_ok (i : Nat) (why : DenyReason) : QueueOk (replaceGrant i why) := by
  intro pl h
  unfold replaceGrant
  split
  · exact h
  · split
    · simpa [queueLen_eq] using h
    · exact h

/-! ## The compartments (R133) -/

@[simp] theorem mapDir_comps (pl : Place) (sl i : Nat) (f : DirState → DirState) : (pl.mapDir sl i f).comps = pl.comps := rfl

@[simp] theorem withdraw_comps (p : LineCmd → Bool) (pl : Place) : (pl.withdraw p).comps = pl.comps := rfl

@[simp] theorem dropDir_comps (p : DirEntry → Bool) (pl : Place) : (pl.dropDir p).comps = pl.comps := rfl

@[simp] theorem onEntered_comps (c : LineCmd) (pl : Place) : (onEntered c pl).comps = pl.comps := by
  cases c <;> try rfl
  rename_i j; cases j <;> rfl

@[simp] theorem onReturned_comps (c : LineCmd) (st : CmdStatus) (pl : Place) :
    (onReturned c st pl).comps = pl.comps := by
  cases c <;> try rfl
  rename_i j; cases j <;> rfl

@[simp] theorem onCarried_comps (c : LineCmd) (pl : Place) : (onCarried c pl).comps = pl.comps := by
  cases c <;> try rfl
  · rename_i tag out
    simp only [onCarried]
    cases pl.presentation with
    | none => rfl
    | some pr => simp only; split <;> rfl
  · rename_i j; cases j <;> rfl

@[simp] theorem enter_comps (c : LineCmd) (pl : Place) : (pl.enter c).comps = pl.comps := by simp [enter]

@[simp] theorem depart_comps (pl : Place) : pl.depart.comps = pl.comps := by unfold depart; split <;> rfl

@[simp] theorem evict_comps (v : QEntry) (pl : Place) : (pl.evict v).comps = pl.comps := by
  unfold evict; split <;> simp

@[simp] theorem offer_comps (c : LineCmd) (pl : Place) : (pl.offer c).comps = pl.comps := by
  unfold offer
  split
  · simp
  · split
    · simp
    · split <;> simp

@[simp] theorem offerFree_comps (c : LineCmd) (pl : Place) : (pl.offerFree c).comps = pl.comps := by
  unfold offerFree; split <;> simp

@[simp] theorem offerZone_comps (pl : Place) : pl.offerZone.comps = pl.comps := by
  unfold offerZone
  split
  · split <;> simp
  · rfl

@[simp] theorem markReleased_comps (pl : Place) : pl.markReleased.comps = pl.comps := by
  unfold markReleased; split <;> rfl

@[simp] theorem markLeft_comps (pl : Place) : pl.markLeft.comps = pl.comps := by unfold markLeft; split <;> rfl

theorem foldl_comps {α : Type} (f : Place → α → Place) (hf : ∀ pl a, (f pl a).comps = pl.comps) (l : List α) (pl : Place) :
    (l.foldl f pl).comps = pl.comps := by
  induction l generalizing pl with
  | nil => rfl
  | cons a l ih => exact (ih _).trans (hf pl a)

@[simp] theorem offerReturned_comps (pl : Place) (c : LineCmd) : (pl.offerReturned c).comps = pl.comps := by
  unfold offerReturned; split <;> simp

@[simp] theorem offerJoin_comps (pl : Place) : pl.offerJoin.comps = pl.comps := foldl_comps _ offerReturned_comps _ pl

@[simp] theorem offerFlush_comps (pl : Place) : pl.offerFlush.comps = pl.comps := by
  unfold offerFlush; split <;> simp

@[simp] theorem offerRemoves_comps (pl : Place) : pl.offerRemoves.comps = pl.comps :=
  foldl_comps _ (fun _ _ => by split <;> simp) _ pl

@[simp] theorem offerAdds_comps (card : Nat → Nat) (pl : Place) : (pl.offerAdds card).comps = pl.comps :=
  foldl_comps _ (fun _ _ => by split <;> simp) _ pl

@[simp] theorem reoffer_comps (card : Nat → Nat) (pl : Place) : (pl.reoffer card).comps = pl.comps := by simp [reoffer]

@[simp] theorem suspectNow_comps (pl : Place) : pl.suspectNow.comps = pl.comps := by
  unfold suspectNow; split <;> simp

@[simp] theorem choose_comps (dg : Bool) (pl : Place) : (pl.choose dg).1.comps = pl.comps := by
  unfold choose
  split
  · rfl
  · split
    · rfl
    · split
      · simp [carry]
      · rfl

@[simp] theorem addEntry_comps (slot index card : Nat) (pl : Place) : (pl.addEntry slot index card).comps = pl.comps := by
  simp [addEntry]

@[simp] theorem startRemove_comps (slot index : Nat) (pl : Place) : (pl.startRemove slot index).comps = pl.comps := by
  simp [startRemove]

@[simp] theorem replaceGrant_comps (i : Nat) (why : DenyReason) (pl : Place) : (pl.replaceGrant i why).comps = pl.comps := by
  unfold replaceGrant
  split
  · rfl
  · split <;> rfl

@[simp] theorem rejoin_comps (pl : Place) : pl.rejoin.comps = pl.comps := by simp [rejoin]

@[simp] theorem unlock_comps (n : Nat) (pl : Place) : (pl.unlock n).comps = pl.comps := by unfold unlock; split <;> rfl

@[simp] theorem holdOpenDone_comps (pl : Place) : pl.holdOpenDone.comps = pl.comps := by
  unfold holdOpenDone; simp only; split <;> rfl

@[simp] theorem secureDone_comps (pl : Place) : pl.secureDone.comps = pl.comps := by
  unfold secureDone
  simp only
  split
  · rfl
  · split <;> rfl

@[simp] theorem openWindow_comps (pr : Presentation) (pl : Place) : (State.openWindow pr pl).comps = pl.comps := by
  unfold State.openWindow
  split
  · rfl
  · split <;> rfl

@[simp] theorem countSecond_comps (pl : Place) : pl.countSecond.comps = pl.comps := by
  unfold countSecond
  split
  · rfl
  · split <;> rfl

end Place

end Sys2Proof.Machine
end

