-- ==== Sys2Proof/Laws/State.lean ====
section
/-! SUPPORT. One lemma per field per primitive update of the state: what the update leaves, and what it writes. -/

-- Proofs are checked one after another: with many small ones at once Lean asks for more threads than the memory limit admits.
set_option Elab.async false

namespace Sys2Proof.Machine

/-! ## setPlace -/

@[simp] theorem State.setPlace_clock (s : State) (p : Nat) (pl : Place) : (s.setPlace p pl).clock = s.clock := rfl
@[simp] theorem State.setPlace_creds (s : State) (p : Nat) (pl : Place) : (s.setPlace p pl).creds = s.creds := rfl
@[simp] theorem State.setPlace_rooms (s : State) (p : Nat) (pl : Place) : (s.setPlace p pl).rooms = s.rooms := rfl
@[simp] theorem State.setPlace_schedules (s : State) (p : Nat) (pl : Place) :
    (s.setPlace p pl).schedules = s.schedules := rfl
@[simp] theorem State.setPlace_zones (s : State) (p : Nat) (pl : Place) : (s.setPlace p pl).zones = s.zones := rfl
@[simp] theorem State.setPlace_places (s : State) (p : Nat) (pl : Place) :
    (s.setPlace p pl).places = Tab.put Place.reset s.places p pl := rfl
@[simp] theorem State.setPlace_segs (s : State) (p : Nat) (pl : Place) : (s.setPlace p pl).segs = s.segs := rfl
@[simp] theorem State.setPlace_revocations (s : State) (p : Nat) (pl : Place) :
    (s.setPlace p pl).revocations = s.revocations := rfl
@[simp] theorem State.setPlace_stays (s : State) (p : Nat) (pl : Place) : (s.setPlace p pl).stays = s.stays := rfl
@[simp] theorem State.setPlace_prices (s : State) (p : Nat) (pl : Place) : (s.setPlace p pl).prices = s.prices := rfl
@[simp] theorem State.setPlace_pendingCharges (s : State) (p : Nat) (pl : Place) :
    (s.setPlace p pl).pendingCharges = s.pendingCharges := rfl
@[simp] theorem State.setPlace_windows (s : State) (p : Nat) (pl : Place) : (s.setPlace p pl).windows = s.windows := rfl
@[simp] theorem State.setPlace_policy (s : State) (p : Nat) (pl : Place) : (s.setPlace p pl).policy = s.policy := rfl
@[simp] theorem State.setPlace_journal (s : State) (p : Nat) (pl : Place) : (s.setPlace p pl).journal = s.journal := rfl
@[simp] theorem State.setPlace_trunk (s : State) (p : Nat) (pl : Place) : (s.setPlace p pl).trunk = s.trunk := rfl
@[simp] theorem State.setPlace_request (s : State) (p : Nat) (pl : Place) : (s.setPlace p pl).request = s.request := rfl
@[simp] theorem State.setPlace_faults (s : State) (p : Nat) (pl : Place) : (s.setPlace p pl).faults = s.faults := rfl
@[simp] theorem State.setPlace_alarm (s : State) (p : Nat) (pl : Place) : (s.setPlace p pl).alarm = s.alarm := rfl
@[simp] theorem State.setPlace_status (s : State) (p : Nat) (pl : Place) : (s.setPlace p pl).status = s.status := rfl
@[simp] theorem State.setPlace_bypassStage (s : State) (p : Nat) (pl : Place) :
    (s.setPlace p pl).bypassStage = s.bypassStage := rfl
@[simp] theorem State.setPlace_startRecord (s : State) (p : Nat) (pl : Place) :
    (s.setPlace p pl).startRecord = s.startRecord := rfl
@[simp] theorem State.setPlace_notes (s : State) (p : Nat) (pl : Place) : (s.setPlace p pl).notes = s.notes := rfl
@[simp] theorem State.setPlace_firstAttempt (s : State) (p : Nat) (pl : Place) :
    (s.setPlace p pl).firstAttempt = s.firstAttempt := rfl
@[simp] theorem State.setPlace_dirty (s : State) (p : Nat) (pl : Place) : (s.setPlace p pl).dirty = s.dirty := rfl
@[simp] theorem State.setPlace_writer (s : State) (p : Nat) (pl : Place) : (s.setPlace p pl).writer = s.writer := rfl
@[simp] theorem State.setPlace_store (s : State) (p : Nat) (pl : Place) : (s.setPlace p pl).store = s.store := rfl
@[simp] theorem State.setPlace_due (s : State) (p : Nat) (pl : Place) : (s.setPlace p pl).due = s.due := rfl
@[simp] theorem State.setPlace_pending (s : State) (p : Nat) (pl : Place) : (s.setPlace p pl).pending = s.pending := rfl

/-! ## modPlace -/

@[simp] theorem State.modPlace_clock (s : State) (p : Nat) (f : Place → Place) : (s.modPlace p f).clock = s.clock := rfl
@[simp] theorem State.modPlace_creds (s : State) (p : Nat) (f : Place → Place) : (s.modPlace p f).creds = s.creds := rfl
@[simp] theorem State.modPlace_rooms (s : State) (p : Nat) (f : Place → Place) : (s.modPlace p f).rooms = s.rooms := rfl
@[simp] theorem State.modPlace_schedules (s : State) (p : Nat) (f : Place → Place) :
    (s.modPlace p f).schedules = s.schedules := rfl
@[simp] theorem State.modPlace_zones (s : State) (p : Nat) (f : Place → Place) : (s.modPlace p f).zones = s.zones := rfl
@[simp] theorem State.modPlace_places (s : State) (p : Nat) (f : Place → Place) :
    (s.modPlace p f).places = Tab.put Place.reset s.places p (f (s.place p)) := rfl
@[simp] theorem State.modPlace_segs (s : State) (p : Nat) (f : Place → Place) : (s.modPlace p f).segs = s.segs := rfl
@[simp] theorem State.modPlace_revocations (s : State) (p : Nat) (f : Place → Place) :
    (s.modPlace p f).revocations = s.revocations := rfl
@[simp] theorem State.modPlace_stays (s : State) (p : Nat) (f : Place → Place) : (s.modPlace p f).stays = s.stays := rfl
@[simp] theorem State.modPlace_prices (s : State) (p : Nat) (f : Place → Place) :
    (s.modPlace p f).prices = s.prices := rfl
@[simp] theorem State.modPlace_pendingCharges (s : State) (p : Nat) (f : Place → Place) :
    (s.modPlace p f).pendingCharges = s.pendingCharges := rfl
@[simp] theorem State.modPlace_windows (s : State) (p : Nat) (f : Place → Place) :
    (s.modPlace p f).windows = s.windows := rfl
@[simp] theorem State.modPlace_policy (s : State) (p : Nat) (f : Place → Place) :
    (s.modPlace p f).policy = s.policy := rfl
@[simp] theorem State.modPlace_journal (s : State) (p : Nat) (f : Place → Place) :
    (s.modPlace p f).journal = s.journal := rfl
@[simp] theorem State.modPlace_trunk (s : State) (p : Nat) (f : Place → Place) : (s.modPlace p f).trunk = s.trunk := rfl
@[simp] theorem State.modPlace_request (s : State) (p : Nat) (f : Place → Place) :
    (s.modPlace p f).request = s.request := rfl
@[simp] theorem State.modPlace_faults (s : State) (p : Nat) (f : Place → Place) :
    (s.modPlace p f).faults = s.faults := rfl
@[simp] theorem State.modPlace_alarm (s : State) (p : Nat) (f : Place → Place) : (s.modPlace p f).alarm = s.alarm := rfl
@[simp] theorem State.modPlace_status (s : State) (p : Nat) (f : Place → Place) :
    (s.modPlace p f).status = s.status := rfl
@[simp] theorem State.modPlace_bypassStage (s : State) (p : Nat) (f : Place → Place) :
    (s.modPlace p f).bypassStage = s.bypassStage := rfl
@[simp] theorem State.modPlace_startRecord (s : State) (p : Nat) (f : Place → Place) :
    (s.modPlace p f).startRecord = s.startRecord := rfl
@[simp] theorem State.modPlace_notes (s : State) (p : Nat) (f : Place → Place) : (s.modPlace p f).notes = s.notes := rfl
@[simp] theorem State.modPlace_firstAttempt (s : State) (p : Nat) (f : Place → Place) :
    (s.modPlace p f).firstAttempt = s.firstAttempt := rfl
@[simp] theorem State.modPlace_dirty (s : State) (p : Nat) (f : Place → Place) : (s.modPlace p f).dirty = s.dirty := rfl
@[simp] theorem State.modPlace_writer (s : State) (p : Nat) (f : Place → Place) :
    (s.modPlace p f).writer = s.writer := rfl
@[simp] theorem State.modPlace_store (s : State) (p : Nat) (f : Place → Place) : (s.modPlace p f).store = s.store := rfl
@[simp] theorem State.modPlace_due (s : State) (p : Nat) (f : Place → Place) : (s.modPlace p f).due = s.due := rfl
@[simp] theorem State.modPlace_pending (s : State) (p : Nat) (f : Place → Place) :
    (s.modPlace p f).pending = s.pending := rfl

/-! ## setSeg -/

@[simp] theorem State.setSeg_clock (s : State) (g : Nat) (x : Segment) : (s.setSeg g x).clock = s.clock := rfl
@[simp] theorem State.setSeg_creds (s : State) (g : Nat) (x : Segment) : (s.setSeg g x).creds = s.creds := rfl
@[simp] theorem State.setSeg_rooms (s : State) (g : Nat) (x : Segment) : (s.setSeg g x).rooms = s.rooms := rfl
@[simp] theorem State.setSeg_schedules (s : State) (g : Nat) (x : Segment) :
    (s.setSeg g x).schedules = s.schedules := rfl
@[simp] theorem State.setSeg_zones (s : State) (g : Nat) (x : Segment) : (s.setSeg g x).zones = s.zones := rfl
@[simp] theorem State.setSeg_places (s : State) (g : Nat) (x : Segment) : (s.setSeg g x).places = s.places := rfl
@[simp] theorem State.setSeg_segs (s : State) (g : Nat) (x : Segment) :
    (s.setSeg g x).segs = Tab.put Segment.reset s.segs g x := rfl
@[simp] theorem State.setSeg_revocations (s : State) (g : Nat) (x : Segment) :
    (s.setSeg g x).revocations = s.revocations := rfl
@[simp] theorem State.setSeg_stays (s : State) (g : Nat) (x : Segment) : (s.setSeg g x).stays = s.stays := rfl
@[simp] theorem State.setSeg_prices (s : State) (g : Nat) (x : Segment) : (s.setSeg g x).prices = s.prices := rfl
@[simp] theorem State.setSeg_pendingCharges (s : State) (g : Nat) (x : Segment) :
    (s.setSeg g x).pendingCharges = s.pendingCharges := rfl
@[simp] theorem State.setSeg_windows (s : State) (g : Nat) (x : Segment) : (s.setSeg g x).windows = s.windows := rfl
@[simp] theorem State.setSeg_policy (s : State) (g : Nat) (x : Segment) : (s.setSeg g x).policy = s.policy := rfl
@[simp] theorem State.setSeg_journal (s : State) (g : Nat) (x : Segment) : (s.setSeg g x).journal = s.journal := rfl
@[simp] theorem State.setSeg_trunk (s : State) (g : Nat) (x : Segment) : (s.setSeg g x).trunk = s.trunk := rfl
@[simp] theorem State.setSeg_request (s : State) (g : Nat) (x : Segment) : (s.setSeg g x).request = s.request := rfl
@[simp] theorem State.setSeg_faults (s : State) (g : Nat) (x : Segment) : (s.setSeg g x).faults = s.faults := rfl
@[simp] theorem State.setSeg_alarm (s : State) (g : Nat) (x : Segment) : (s.setSeg g x).alarm = s.alarm := rfl
@[simp] theorem State.setSeg_status (s : State) (g : Nat) (x : Segment) : (s.setSeg g x).status = s.status := rfl
@[simp] theorem State.setSeg_bypassStage (s : State) (g : Nat) (x : Segment) :
    (s.setSeg g x).bypassStage = s.bypassStage := rfl
@[simp] theorem State.setSeg_startRecord (s : State) (g : Nat) (x : Segment) :
    (s.setSeg g x).startRecord = s.startRecord := rfl
@[simp] theorem State.setSeg_notes (s : State) (g : Nat) (x : Segment) : (s.setSeg g x).notes = s.notes := rfl
@[simp] theorem State.setSeg_firstAttempt (s : State) (g : Nat) (x : Segment) :
    (s.setSeg g x).firstAttempt = s.firstAttempt := rfl
@[simp] theorem State.setSeg_dirty (s : State) (g : Nat) (x : Segment) : (s.setSeg g x).dirty = s.dirty := rfl
@[simp] theorem State.setSeg_writer (s : State) (g : Nat) (x : Segment) : (s.setSeg g x).writer = s.writer := rfl
@[simp] theorem State.setSeg_store (s : State) (g : Nat) (x : Segment) : (s.setSeg g x).store = s.store := rfl
@[simp] theorem State.setSeg_due (s : State) (g : Nat) (x : Segment) : (s.setSeg g x).due = s.due := rfl
@[simp] theorem State.setSeg_pending (s : State) (g : Nat) (x : Segment) : (s.setSeg g x).pending = s.pending := rfl

/-! ## modSeg -/

@[simp] theorem State.modSeg_clock (s : State) (g : Nat) (f : Segment → Segment) : (s.modSeg g f).clock = s.clock := rfl
@[simp] theorem State.modSeg_creds (s : State) (g : Nat) (f : Segment → Segment) : (s.modSeg g f).creds = s.creds := rfl
@[simp] theorem State.modSeg_rooms (s : State) (g : Nat) (f : Segment → Segment) : (s.modSeg g f).rooms = s.rooms := rfl
@[simp] theorem State.modSeg_schedules (s : State) (g : Nat) (f : Segment → Segment) :
    (s.modSeg g f).schedules = s.schedules := rfl
@[simp] theorem State.modSeg_zones (s : State) (g : Nat) (f : Segment → Segment) : (s.modSeg g f).zones = s.zones := rfl
@[simp] theorem State.modSeg_places (s : State) (g : Nat) (f : Segment → Segment) :
    (s.modSeg g f).places = s.places := rfl
@[simp] theorem State.modSeg_segs (s : State) (g : Nat) (f : Segment → Segment) :
    (s.modSeg g f).segs = Tab.put Segment.reset s.segs g (f (s.seg g)) := rfl
@[simp] theorem State.modSeg_revocations (s : State) (g : Nat) (f : Segment → Segment) :
    (s.modSeg g f).revocations = s.revocations := rfl
@[simp] theorem State.modSeg_stays (s : State) (g : Nat) (f : Segment → Segment) : (s.modSeg g f).stays = s.stays := rfl
@[simp] theorem State.modSeg_prices (s : State) (g : Nat) (f : Segment → Segment) :
    (s.modSeg g f).prices = s.prices := rfl
@[simp] theorem State.modSeg_pendingCharges (s : State) (g : Nat) (f : Segment → Segment) :
    (s.modSeg g f).pendingCharges = s.pendingCharges := rfl
@[simp] theorem State.modSeg_windows (s : State) (g : Nat) (f : Segment → Segment) :
    (s.modSeg g f).windows = s.windows := rfl
@[simp] theorem State.modSeg_policy (s : State) (g : Nat) (f : Segment → Segment) :
    (s.modSeg g f).policy = s.policy := rfl
@[simp] theorem State.modSeg_journal (s : State) (g : Nat) (f : Segment → Segment) :
    (s.modSeg g f).journal = s.journal := rfl
@[simp] theorem State.modSeg_trunk (s : State) (g : Nat) (f : Segment → Segment) : (s.modSeg g f).trunk = s.trunk := rfl
@[simp] theorem State.modSeg_request (s : State) (g : Nat) (f : Segment → Segment) :
    (s.modSeg g f).request = s.request := rfl
@[simp] theorem State.modSeg_faults (s : State) (g : Nat) (f : Segment → Segment) :
    (s.modSeg g f).faults = s.faults := rfl
@[simp] theorem State.modSeg_alarm (s : State) (g : Nat) (f : Segment → Segment) : (s.modSeg g f).alarm = s.alarm := rfl
@[simp] theorem State.modSeg_status (s : State) (g : Nat) (f : Segment → Segment) :
    (s.modSeg g f).status = s.status := rfl
@[simp] theorem State.modSeg_bypassStage (s : State) (g : Nat) (f : Segment → Segment) :
    (s.modSeg g f).bypassStage = s.bypassStage := rfl
@[simp] theorem State.modSeg_startRecord (s : State) (g : Nat) (f : Segment → Segment) :
    (s.modSeg g f).startRecord = s.startRecord := rfl
@[simp] theorem State.modSeg_notes (s : State) (g : Nat) (f : Segment → Segment) : (s.modSeg g f).notes = s.notes := rfl
@[simp] theorem State.modSeg_firstAttempt (s : State) (g : Nat) (f : Segment → Segment) :
    (s.modSeg g f).firstAttempt = s.firstAttempt := rfl
@[simp] theorem State.modSeg_dirty (s : State) (g : Nat) (f : Segment → Segment) : (s.modSeg g f).dirty = s.dirty := rfl
@[simp] theorem State.modSeg_writer (s : State) (g : Nat) (f : Segment → Segment) :
    (s.modSeg g f).writer = s.writer := rfl
@[simp] theorem State.modSeg_store (s : State) (g : Nat) (f : Segment → Segment) : (s.modSeg g f).store = s.store := rfl
@[simp] theorem State.modSeg_due (s : State) (g : Nat) (f : Segment → Segment) : (s.modSeg g f).due = s.due := rfl
@[simp] theorem State.modSeg_pending (s : State) (g : Nat) (f : Segment → Segment) :
    (s.modSeg g f).pending = s.pending := rfl

/-! ## markDirty -/

@[simp] theorem State.markDirty_clock (s : State) (b : Nat) : (s.markDirty b).clock = s.clock := rfl
@[simp] theorem State.markDirty_creds (s : State) (b : Nat) : (s.markDirty b).creds = s.creds := rfl
@[simp] theorem State.markDirty_rooms (s : State) (b : Nat) : (s.markDirty b).rooms = s.rooms := rfl
@[simp] theorem State.markDirty_schedules (s : State) (b : Nat) : (s.markDirty b).schedules = s.schedules := rfl
@[simp] theorem State.markDirty_zones (s : State) (b : Nat) : (s.markDirty b).zones = s.zones := rfl
@[simp] theorem State.markDirty_places (s : State) (b : Nat) : (s.markDirty b).places = s.places := rfl
@[simp] theorem State.markDirty_segs (s : State) (b : Nat) : (s.markDirty b).segs = s.segs := rfl
@[simp] theorem State.markDirty_revocations (s : State) (b : Nat) : (s.markDirty b).revocations = s.revocations := rfl
@[simp] theorem State.markDirty_stays (s : State) (b : Nat) : (s.markDirty b).stays = s.stays := rfl
@[simp] theorem State.markDirty_prices (s : State) (b : Nat) : (s.markDirty b).prices = s.prices := rfl
@[simp] theorem State.markDirty_pendingCharges (s : State) (b : Nat) :
    (s.markDirty b).pendingCharges = s.pendingCharges := rfl
@[simp] theorem State.markDirty_windows (s : State) (b : Nat) : (s.markDirty b).windows = s.windows := rfl
@[simp] theorem State.markDirty_policy (s : State) (b : Nat) : (s.markDirty b).policy = s.policy := rfl
@[simp] theorem State.markDirty_journal (s : State) (b : Nat) : (s.markDirty b).journal = s.journal := rfl
@[simp] theorem State.markDirty_trunk (s : State) (b : Nat) : (s.markDirty b).trunk = s.trunk := rfl
@[simp] theorem State.markDirty_request (s : State) (b : Nat) : (s.markDirty b).request = s.request := rfl
@[simp] theorem State.markDirty_faults (s : State) (b : Nat) : (s.markDirty b).faults = s.faults := rfl
@[simp] theorem State.markDirty_alarm (s : State) (b : Nat) : (s.markDirty b).alarm = s.alarm := rfl
@[simp] theorem State.markDirty_status (s : State) (b : Nat) : (s.markDirty b).status = s.status := rfl
@[simp] theorem State.markDirty_bypassStage (s : State) (b : Nat) : (s.markDirty b).bypassStage = s.bypassStage := rfl
@[simp] theorem State.markDirty_startRecord (s : State) (b : Nat) : (s.markDirty b).startRecord = s.startRecord := rfl
@[simp] theorem State.markDirty_notes (s : State) (b : Nat) : (s.markDirty b).notes = s.notes := rfl
@[simp] theorem State.markDirty_firstAttempt (s : State) (b : Nat) :
    (s.markDirty b).firstAttempt = s.firstAttempt := rfl
@[simp] theorem State.markDirty_dirty (s : State) (b : Nat) : (s.markDirty b).dirty = insertNat b s.dirty := rfl
@[simp] theorem State.markDirty_store (s : State) (b : Nat) : (s.markDirty b).store = s.store := rfl
@[simp] theorem State.markDirty_due (s : State) (b : Nat) : (s.markDirty b).due = s.due := rfl
@[simp] theorem State.markDirty_pending (s : State) (b : Nat) : (s.markDirty b).pending = s.pending := rfl

/-! ## setCred -/

@[simp] theorem State.setCred_clock (s : State) (i : Nat) (c : Cred) : (s.setCred i c).clock = s.clock := rfl
@[simp] theorem State.setCred_creds (s : State) (i : Nat) (c : Cred) :
    (s.setCred i c).creds = Tab.write s.creds i c := rfl
@[simp] theorem State.setCred_rooms (s : State) (i : Nat) (c : Cred) : (s.setCred i c).rooms = s.rooms := rfl
@[simp] theorem State.setCred_schedules (s : State) (i : Nat) (c : Cred) :
    (s.setCred i c).schedules = s.schedules := rfl
@[simp] theorem State.setCred_zones (s : State) (i : Nat) (c : Cred) : (s.setCred i c).zones = s.zones := rfl
@[simp] theorem State.setCred_places (s : State) (i : Nat) (c : Cred) : (s.setCred i c).places = s.places := rfl
@[simp] theorem State.setCred_segs (s : State) (i : Nat) (c : Cred) : (s.setCred i c).segs = s.segs := rfl
@[simp] theorem State.setCred_revocations (s : State) (i : Nat) (c : Cred) :
    (s.setCred i c).revocations = s.revocations := rfl
@[simp] theorem State.setCred_stays (s : State) (i : Nat) (c : Cred) : (s.setCred i c).stays = s.stays := rfl
@[simp] theorem State.setCred_prices (s : State) (i : Nat) (c : Cred) : (s.setCred i c).prices = s.prices := rfl
@[simp] theorem State.setCred_pendingCharges (s : State) (i : Nat) (c : Cred) :
    (s.setCred i c).pendingCharges = s.pendingCharges := rfl
@[simp] theorem State.setCred_windows (s : State) (i : Nat) (c : Cred) : (s.setCred i c).windows = s.windows := rfl
@[simp] theorem State.setCred_policy (s : State) (i : Nat) (c : Cred) : (s.setCred i c).policy = s.policy := rfl
@[simp] theorem State.setCred_journal (s : State) (i : Nat) (c : Cred) : (s.setCred i c).journal = s.journal := rfl
@[simp] theorem State.setCred_trunk (s : State) (i : Nat) (c : Cred) : (s.setCred i c).trunk = s.trunk := rfl
@[simp] theorem State.setCred_request (s : State) (i : Nat) (c : Cred) : (s.setCred i c).request = s.request := rfl
@[simp] theorem State.setCred_faults (s : State) (i : Nat) (c : Cred) : (s.setCred i c).faults = s.faults := rfl
@[simp] theorem State.setCred_alarm (s : State) (i : Nat) (c : Cred) : (s.setCred i c).alarm = s.alarm := rfl
@[simp] theorem State.setCred_status (s : State) (i : Nat) (c : Cred) : (s.setCred i c).status = s.status := rfl
@[simp] theorem State.setCred_bypassStage (s : State) (i : Nat) (c : Cred) :
    (s.setCred i c).bypassStage = s.bypassStage := rfl
@[simp] theorem State.setCred_startRecord (s : State) (i : Nat) (c : Cred) :
    (s.setCred i c).startRecord = s.startRecord := rfl
@[simp] theorem State.setCred_notes (s : State) (i : Nat) (c : Cred) : (s.setCred i c).notes = s.notes := rfl
@[simp] theorem State.setCred_firstAttempt (s : State) (i : Nat) (c : Cred) :
    (s.setCred i c).firstAttempt = s.firstAttempt := rfl
@[simp] theorem State.setCred_store (s : State) (i : Nat) (c : Cred) : (s.setCred i c).store = s.store := rfl
@[simp] theorem State.setCred_due (s : State) (i : Nat) (c : Cred) : (s.setCred i c).due = s.due := rfl
@[simp] theorem State.setCred_pending (s : State) (i : Nat) (c : Cred) : (s.setCred i c).pending = s.pending := rfl

/-! ## emptyCred -/

@[simp] theorem State.emptyCred_clock (s : State) (i : Nat) : (s.emptyCred i).clock = s.clock := rfl
@[simp] theorem State.emptyCred_creds (s : State) (i : Nat) : (s.emptyCred i).creds = Tab.clear s.creds i := rfl
@[simp] theorem State.emptyCred_rooms (s : State) (i : Nat) : (s.emptyCred i).rooms = s.rooms := rfl
@[simp] theorem State.emptyCred_schedules (s : State) (i : Nat) : (s.emptyCred i).schedules = s.schedules := rfl
@[simp] theorem State.emptyCred_zones (s : State) (i : Nat) : (s.emptyCred i).zones = s.zones := rfl
@[simp] theorem State.emptyCred_places (s : State) (i : Nat) : (s.emptyCred i).places = s.places := rfl
@[simp] theorem State.emptyCred_segs (s : State) (i : Nat) : (s.emptyCred i).segs = s.segs := rfl
@[simp] theorem State.emptyCred_revocations (s : State) (i : Nat) : (s.emptyCred i).revocations = s.revocations := rfl
@[simp] theorem State.emptyCred_stays (s : State) (i : Nat) : (s.emptyCred i).stays = s.stays := rfl
@[simp] theorem State.emptyCred_prices (s : State) (i : Nat) : (s.emptyCred i).prices = s.prices := rfl
@[simp] theorem State.emptyCred_pendingCharges (s : State) (i : Nat) :
    (s.emptyCred i).pendingCharges = s.pendingCharges := rfl
@[simp] theorem State.emptyCred_windows (s : State) (i : Nat) : (s.emptyCred i).windows = s.windows := rfl
@[simp] theorem State.emptyCred_policy (s : State) (i : Nat) : (s.emptyCred i).policy = s.policy := rfl
@[simp] theorem State.emptyCred_journal (s : State) (i : Nat) : (s.emptyCred i).journal = s.journal := rfl
@[simp] theorem State.emptyCred_trunk (s : State) (i : Nat) : (s.emptyCred i).trunk = s.trunk := rfl
@[simp] theorem State.emptyCred_request (s : State) (i : Nat) : (s.emptyCred i).request = s.request := rfl
@[simp] theorem State.emptyCred_faults (s : State) (i : Nat) : (s.emptyCred i).faults = s.faults := rfl
@[simp] theorem State.emptyCred_alarm (s : State) (i : Nat) : (s.emptyCred i).alarm = s.alarm := rfl
@[simp] theorem State.emptyCred_status (s : State) (i : Nat) : (s.emptyCred i).status = s.status := rfl
@[simp] theorem State.emptyCred_bypassStage (s : State) (i : Nat) : (s.emptyCred i).bypassStage = s.bypassStage := rfl
@[simp] theorem State.emptyCred_startRecord (s : State) (i : Nat) : (s.emptyCred i).startRecord = s.startRecord := rfl
@[simp] theorem State.emptyCred_notes (s : State) (i : Nat) : (s.emptyCred i).notes = s.notes := rfl
@[simp] theorem State.emptyCred_firstAttempt (s : State) (i : Nat) :
    (s.emptyCred i).firstAttempt = s.firstAttempt := rfl
@[simp] theorem State.emptyCred_store (s : State) (i : Nat) : (s.emptyCred i).store = s.store := rfl
@[simp] theorem State.emptyCred_due (s : State) (i : Nat) : (s.emptyCred i).due = s.due := rfl
@[simp] theorem State.emptyCred_pending (s : State) (i : Nat) : (s.emptyCred i).pending = s.pending := rfl

/-! ## setRoom -/

@[simp] theorem State.setRoom_clock (s : State) (i : Nat) (r : Room) : (s.setRoom i r).clock = s.clock := rfl
@[simp] theorem State.setRoom_creds (s : State) (i : Nat) (r : Room) : (s.setRoom i r).creds = s.creds := rfl
@[simp] theorem State.setRoom_rooms (s : State) (i : Nat) (r : Room) :
    (s.setRoom i r).rooms = Tab.write s.rooms i r := rfl
@[simp] theorem State.setRoom_schedules (s : State) (i : Nat) (r : Room) :
    (s.setRoom i r).schedules = s.schedules := rfl
@[simp] theorem State.setRoom_zones (s : State) (i : Nat) (r : Room) : (s.setRoom i r).zones = s.zones := rfl
@[simp] theorem State.setRoom_places (s : State) (i : Nat) (r : Room) : (s.setRoom i r).places = s.places := rfl
@[simp] theorem State.setRoom_segs (s : State) (i : Nat) (r : Room) : (s.setRoom i r).segs = s.segs := rfl
@[simp] theorem State.setRoom_revocations (s : State) (i : Nat) (r : Room) :
    (s.setRoom i r).revocations = s.revocations := rfl
@[simp] theorem State.setRoom_stays (s : State) (i : Nat) (r : Room) : (s.setRoom i r).stays = s.stays := rfl
@[simp] theorem State.setRoom_prices (s : State) (i : Nat) (r : Room) : (s.setRoom i r).prices = s.prices := rfl
@[simp] theorem State.setRoom_pendingCharges (s : State) (i : Nat) (r : Room) :
    (s.setRoom i r).pendingCharges = s.pendingCharges := rfl
@[simp] theorem State.setRoom_windows (s : State) (i : Nat) (r : Room) : (s.setRoom i r).windows = s.windows := rfl
@[simp] theorem State.setRoom_policy (s : State) (i : Nat) (r : Room) : (s.setRoom i r).policy = s.policy := rfl
@[simp] theorem State.setRoom_journal (s : State) (i : Nat) (r : Room) : (s.setRoom i r).journal = s.journal := rfl
@[simp] theorem State.setRoom_trunk (s : State) (i : Nat) (r : Room) : (s.setRoom i r).trunk = s.trunk := rfl
@[simp] theorem State.setRoom_request (s : State) (i : Nat) (r : Room) : (s.setRoom i r).request = s.request := rfl
@[simp] theorem State.setRoom_faults (s : State) (i : Nat) (r : Room) : (s.setRoom i r).faults = s.faults := rfl
@[simp] theorem State.setRoom_alarm (s : State) (i : Nat) (r : Room) : (s.setRoom i r).alarm = s.alarm := rfl
@[simp] theorem State.setRoom_status (s : State) (i : Nat) (r : Room) : (s.setRoom i r).status = s.status := rfl
@[simp] theorem State.setRoom_bypassStage (s : State) (i : Nat) (r : Room) :
    (s.setRoom i r).bypassStage = s.bypassStage := rfl
@[simp] theorem State.setRoom_startRecord (s : State) (i : Nat) (r : Room) :
    (s.setRoom i r).startRecord = s.startRecord := rfl
@[simp] theorem State.setRoom_notes (s : State) (i : Nat) (r : Room) : (s.setRoom i r).notes = s.notes := rfl
@[simp] theorem State.setRoom_firstAttempt (s : State) (i : Nat) (r : Room) :
    (s.setRoom i r).firstAttempt = s.firstAttempt := rfl
@[simp] theorem State.setRoom_store (s : State) (i : Nat) (r : Room) : (s.setRoom i r).store = s.store := rfl
@[simp] theorem State.setRoom_due (s : State) (i : Nat) (r : Room) : (s.setRoom i r).due = s.due := rfl
@[simp] theorem State.setRoom_pending (s : State) (i : Nat) (r : Room) : (s.setRoom i r).pending = s.pending := rfl

/-! ## clearRoom -/

@[simp] theorem State.clearRoom_clock (s : State) (i : Nat) : (s.clearRoom i).clock = s.clock := rfl
@[simp] theorem State.clearRoom_creds (s : State) (i : Nat) : (s.clearRoom i).creds = s.creds := rfl
@[simp] theorem State.clearRoom_rooms (s : State) (i : Nat) : (s.clearRoom i).rooms = Tab.clear s.rooms i := rfl
@[simp] theorem State.clearRoom_schedules (s : State) (i : Nat) : (s.clearRoom i).schedules = s.schedules := rfl
@[simp] theorem State.clearRoom_zones (s : State) (i : Nat) : (s.clearRoom i).zones = s.zones := rfl
@[simp] theorem State.clearRoom_places (s : State) (i : Nat) : (s.clearRoom i).places = s.places := rfl
@[simp] theorem State.clearRoom_segs (s : State) (i : Nat) : (s.clearRoom i).segs = s.segs := rfl
@[simp] theorem State.clearRoom_revocations (s : State) (i : Nat) : (s.clearRoom i).revocations = s.revocations := rfl
@[simp] theorem State.clearRoom_stays (s : State) (i : Nat) : (s.clearRoom i).stays = s.stays := rfl
@[simp] theorem State.clearRoom_prices (s : State) (i : Nat) : (s.clearRoom i).prices = s.prices := rfl
@[simp] theorem State.clearRoom_pendingCharges (s : State) (i : Nat) :
    (s.clearRoom i).pendingCharges = s.pendingCharges := rfl
@[simp] theorem State.clearRoom_windows (s : State) (i : Nat) : (s.clearRoom i).windows = s.windows := rfl
@[simp] theorem State.clearRoom_policy (s : State) (i : Nat) : (s.clearRoom i).policy = s.policy := rfl
@[simp] theorem State.clearRoom_journal (s : State) (i : Nat) : (s.clearRoom i).journal = s.journal := rfl
@[simp] theorem State.clearRoom_trunk (s : State) (i : Nat) : (s.clearRoom i).trunk = s.trunk := rfl
@[simp] theorem State.clearRoom_request (s : State) (i : Nat) : (s.clearRoom i).request = s.request := rfl
@[simp] theorem State.clearRoom_faults (s : State) (i : Nat) : (s.clearRoom i).faults = s.faults := rfl
@[simp] theorem State.clearRoom_alarm (s : State) (i : Nat) : (s.clearRoom i).alarm = s.alarm := rfl
@[simp] theorem State.clearRoom_status (s : State) (i : Nat) : (s.clearRoom i).status = s.status := rfl
@[simp] theorem State.clearRoom_bypassStage (s : State) (i : Nat) : (s.clearRoom i).bypassStage = s.bypassStage := rfl
@[simp] theorem State.clearRoom_startRecord (s : State) (i : Nat) : (s.clearRoom i).startRecord = s.startRecord := rfl
@[simp] theorem State.clearRoom_notes (s : State) (i : Nat) : (s.clearRoom i).notes = s.notes := rfl
@[simp] theorem State.clearRoom_firstAttempt (s : State) (i : Nat) :
    (s.clearRoom i).firstAttempt = s.firstAttempt := rfl
@[simp] theorem State.clearRoom_store (s : State) (i : Nat) : (s.clearRoom i).store = s.store := rfl
@[simp] theorem State.clearRoom_due (s : State) (i : Nat) : (s.clearRoom i).due = s.due := rfl
@[simp] theorem State.clearRoom_pending (s : State) (i : Nat) : (s.clearRoom i).pending = s.pending := rfl

/-! ## setStay -/

@[simp] theorem State.setStay_clock (s : State) (i : Nat) (x : Stay) : (s.setStay i x).clock = s.clock := rfl
@[simp] theorem State.setStay_creds (s : State) (i : Nat) (x : Stay) : (s.setStay i x).creds = s.creds := rfl
@[simp] theorem State.setStay_rooms (s : State) (i : Nat) (x : Stay) : (s.setStay i x).rooms = s.rooms := rfl
@[simp] theorem State.setStay_schedules (s : State) (i : Nat) (x : Stay) :
    (s.setStay i x).schedules = s.schedules := rfl
@[simp] theorem State.setStay_zones (s : State) (i : Nat) (x : Stay) : (s.setStay i x).zones = s.zones := rfl
@[simp] theorem State.setStay_places (s : State) (i : Nat) (x : Stay) : (s.setStay i x).places = s.places := rfl
@[simp] theorem State.setStay_segs (s : State) (i : Nat) (x : Stay) : (s.setStay i x).segs = s.segs := rfl
@[simp] theorem State.setStay_revocations (s : State) (i : Nat) (x : Stay) :
    (s.setStay i x).revocations = s.revocations := rfl
@[simp] theorem State.setStay_stays (s : State) (i : Nat) (x : Stay) :
    (s.setStay i x).stays = Tab.write s.stays i x := rfl
@[simp] theorem State.setStay_prices (s : State) (i : Nat) (x : Stay) : (s.setStay i x).prices = s.prices := rfl
@[simp] theorem State.setStay_pendingCharges (s : State) (i : Nat) (x : Stay) :
    (s.setStay i x).pendingCharges = s.pendingCharges := rfl
@[simp] theorem State.setStay_windows (s : State) (i : Nat) (x : Stay) : (s.setStay i x).windows = s.windows := rfl
@[simp] theorem State.setStay_policy (s : State) (i : Nat) (x : Stay) : (s.setStay i x).policy = s.policy := rfl
@[simp] theorem State.setStay_journal (s : State) (i : Nat) (x : Stay) : (s.setStay i x).journal = s.journal := rfl
@[simp] theorem State.setStay_trunk (s : State) (i : Nat) (x : Stay) : (s.setStay i x).trunk = s.trunk := rfl
@[simp] theorem State.setStay_request (s : State) (i : Nat) (x : Stay) : (s.setStay i x).request = s.request := rfl
@[simp] theorem State.setStay_faults (s : State) (i : Nat) (x : Stay) : (s.setStay i x).faults = s.faults := rfl
@[simp] theorem State.setStay_alarm (s : State) (i : Nat) (x : Stay) : (s.setStay i x).alarm = s.alarm := rfl
@[simp] theorem State.setStay_status (s : State) (i : Nat) (x : Stay) : (s.setStay i x).status = s.status := rfl
@[simp] theorem State.setStay_bypassStage (s : State) (i : Nat) (x : Stay) :
    (s.setStay i x).bypassStage = s.bypassStage := rfl
@[simp] theorem State.setStay_startRecord (s : State) (i : Nat) (x : Stay) :
    (s.setStay i x).startRecord = s.startRecord := rfl
@[simp] theorem State.setStay_notes (s : State) (i : Nat) (x : Stay) : (s.setStay i x).notes = s.notes := rfl
@[simp] theorem State.setStay_firstAttempt (s : State) (i : Nat) (x : Stay) :
    (s.setStay i x).firstAttempt = s.firstAttempt := rfl
@[simp] theorem State.setStay_store (s : State) (i : Nat) (x : Stay) : (s.setStay i x).store = s.store := rfl
@[simp] theorem State.setStay_due (s : State) (i : Nat) (x : Stay) : (s.setStay i x).due = s.due := rfl
@[simp] theorem State.setStay_pending (s : State) (i : Nat) (x : Stay) : (s.setStay i x).pending = s.pending := rfl

/-! ## clearStay -/

@[simp] theorem State.clearStay_clock (s : State) (i : Nat) : (s.clearStay i).clock = s.clock := rfl
@[simp] theorem State.clearStay_creds (s : State) (i : Nat) : (s.clearStay i).creds = s.creds := rfl
@[simp] theorem State.clearStay_rooms (s : State) (i : Nat) : (s.clearStay i).rooms = s.rooms := rfl
@[simp] theorem State.clearStay_schedules (s : State) (i : Nat) : (s.clearStay i).schedules = s.schedules := rfl
@[simp] theorem State.clearStay_zones (s : State) (i : Nat) : (s.clearStay i).zones = s.zones := rfl
@[simp] theorem State.clearStay_places (s : State) (i : Nat) : (s.clearStay i).places = s.places := rfl
@[simp] theorem State.clearStay_segs (s : State) (i : Nat) : (s.clearStay i).segs = s.segs := rfl
@[simp] theorem State.clearStay_revocations (s : State) (i : Nat) : (s.clearStay i).revocations = s.revocations := rfl
@[simp] theorem State.clearStay_stays (s : State) (i : Nat) : (s.clearStay i).stays = Tab.clear s.stays i := rfl
@[simp] theorem State.clearStay_prices (s : State) (i : Nat) : (s.clearStay i).prices = s.prices := rfl
@[simp] theorem State.clearStay_pendingCharges (s : State) (i : Nat) :
    (s.clearStay i).pendingCharges = s.pendingCharges := rfl
@[simp] theorem State.clearStay_windows (s : State) (i : Nat) : (s.clearStay i).windows = s.windows := rfl
@[simp] theorem State.clearStay_policy (s : State) (i : Nat) : (s.clearStay i).policy = s.policy := rfl
@[simp] theorem State.clearStay_journal (s : State) (i : Nat) : (s.clearStay i).journal = s.journal := rfl
@[simp] theorem State.clearStay_trunk (s : State) (i : Nat) : (s.clearStay i).trunk = s.trunk := rfl
@[simp] theorem State.clearStay_request (s : State) (i : Nat) : (s.clearStay i).request = s.request := rfl
@[simp] theorem State.clearStay_faults (s : State) (i : Nat) : (s.clearStay i).faults = s.faults := rfl
@[simp] theorem State.clearStay_alarm (s : State) (i : Nat) : (s.clearStay i).alarm = s.alarm := rfl
@[simp] theorem State.clearStay_status (s : State) (i : Nat) : (s.clearStay i).status = s.status := rfl
@[simp] theorem State.clearStay_bypassStage (s : State) (i : Nat) : (s.clearStay i).bypassStage = s.bypassStage := rfl
@[simp] theorem State.clearStay_startRecord (s : State) (i : Nat) : (s.clearStay i).startRecord = s.startRecord := rfl
@[simp] theorem State.clearStay_notes (s : State) (i : Nat) : (s.clearStay i).notes = s.notes := rfl
@[simp] theorem State.clearStay_firstAttempt (s : State) (i : Nat) :
    (s.clearStay i).firstAttempt = s.firstAttempt := rfl
@[simp] theorem State.clearStay_store (s : State) (i : Nat) : (s.clearStay i).store = s.store := rfl
@[simp] theorem State.clearStay_due (s : State) (i : Nat) : (s.clearStay i).due = s.due := rfl
@[simp] theorem State.clearStay_pending (s : State) (i : Nat) : (s.clearStay i).pending = s.pending := rfl

/-! ## setZone -/

@[simp] theorem State.setZone_clock (s : State) (z : Nat) (x : ZoneState) : (s.setZone z x).clock = s.clock := rfl
@[simp] theorem State.setZone_creds (s : State) (z : Nat) (x : ZoneState) : (s.setZone z x).creds = s.creds := rfl
@[simp] theorem State.setZone_rooms (s : State) (z : Nat) (x : ZoneState) : (s.setZone z x).rooms = s.rooms := rfl
@[simp] theorem State.setZone_schedules (s : State) (z : Nat) (x : ZoneState) :
    (s.setZone z x).schedules = s.schedules := rfl
@[simp] theorem State.setZone_zones (s : State) (z : Nat) (x : ZoneState) :
    (s.setZone z x).zones = Tab.put .normal s.zones z x := rfl
@[simp] theorem State.setZone_places (s : State) (z : Nat) (x : ZoneState) : (s.setZone z x).places = s.places := rfl
@[simp] theorem State.setZone_segs (s : State) (z : Nat) (x : ZoneState) : (s.setZone z x).segs = s.segs := rfl
@[simp] theorem State.setZone_revocations (s : State) (z : Nat) (x : ZoneState) :
    (s.setZone z x).revocations = s.revocations := rfl
@[simp] theorem State.setZone_stays (s : State) (z : Nat) (x : ZoneState) : (s.setZone z x).stays = s.stays := rfl
@[simp] theorem State.setZone_prices (s : State) (z : Nat) (x : ZoneState) : (s.setZone z x).prices = s.prices := rfl
@[simp] theorem State.setZone_pendingCharges (s : State) (z : Nat) (x : ZoneState) :
    (s.setZone z x).pendingCharges = s.pendingCharges := rfl
@[simp] theorem State.setZone_windows (s : State) (z : Nat) (x : ZoneState) : (s.setZone z x).windows = s.windows := rfl
@[simp] theorem State.setZone_policy (s : State) (z : Nat) (x : ZoneState) : (s.setZone z x).policy = s.policy := rfl
@[simp] theorem State.setZone_journal (s : State) (z : Nat) (x : ZoneState) : (s.setZone z x).journal = s.journal := rfl
@[simp] theorem State.setZone_trunk (s : State) (z : Nat) (x : ZoneState) : (s.setZone z x).trunk = s.trunk := rfl
@[simp] theorem State.setZone_request (s : State) (z : Nat) (x : ZoneState) : (s.setZone z x).request = s.request := rfl
@[simp] theorem State.setZone_faults (s : State) (z : Nat) (x : ZoneState) : (s.setZone z x).faults = s.faults := rfl
@[simp] theorem State.setZone_alarm (s : State) (z : Nat) (x : ZoneState) : (s.setZone z x).alarm = s.alarm := rfl
@[simp] theorem State.setZone_status (s : State) (z : Nat) (x : ZoneState) : (s.setZone z x).status = s.status := rfl
@[simp] theorem State.setZone_bypassStage (s : State) (z : Nat) (x : ZoneState) :
    (s.setZone z x).bypassStage = s.bypassStage := rfl
@[simp] theorem State.setZone_startRecord (s : State) (z : Nat) (x : ZoneState) :
    (s.setZone z x).startRecord = s.startRecord := rfl
@[simp] theorem State.setZone_notes (s : State) (z : Nat) (x : ZoneState) : (s.setZone z x).notes = s.notes := rfl
@[simp] theorem State.setZone_firstAttempt (s : State) (z : Nat) (x : ZoneState) :
    (s.setZone z x).firstAttempt = s.firstAttempt := rfl
@[simp] theorem State.setZone_store (s : State) (z : Nat) (x : ZoneState) : (s.setZone z x).store = s.store := rfl
@[simp] theorem State.setZone_due (s : State) (z : Nat) (x : ZoneState) : (s.setZone z x).due = s.due := rfl
@[simp] theorem State.setZone_pending (s : State) (z : Nat) (x : ZoneState) : (s.setZone z x).pending = s.pending := rfl

/-! ## setSchedule -/

@[simp] theorem State.setSchedule_clock (s : State) (i : Nat) (x : Schedule) :
    (s.setSchedule i x).clock = s.clock := rfl
@[simp] theorem State.setSchedule_creds (s : State) (i : Nat) (x : Schedule) :
    (s.setSchedule i x).creds = s.creds := rfl
@[simp] theorem State.setSchedule_rooms (s : State) (i : Nat) (x : Schedule) :
    (s.setSchedule i x).rooms = s.rooms := rfl
@[simp] theorem State.setSchedule_schedules (s : State) (i : Nat) (x : Schedule) :
    (s.setSchedule i x).schedules = Tab.put Schedule.absent s.schedules i x := rfl
@[simp] theorem State.setSchedule_zones (s : State) (i : Nat) (x : Schedule) :
    (s.setSchedule i x).zones = s.zones := rfl
@[simp] theorem State.setSchedule_places (s : State) (i : Nat) (x : Schedule) :
    (s.setSchedule i x).places = s.places := rfl
@[simp] theorem State.setSchedule_segs (s : State) (i : Nat) (x : Schedule) : (s.setSchedule i x).segs = s.segs := rfl
@[simp] theorem State.setSchedule_revocations (s : State) (i : Nat) (x : Schedule) :
    (s.setSchedule i x).revocations = s.revocations := rfl
@[simp] theorem State.setSchedule_stays (s : State) (i : Nat) (x : Schedule) :
    (s.setSchedule i x).stays = s.stays := rfl
@[simp] theorem State.setSchedule_prices (s : State) (i : Nat) (x : Schedule) :
    (s.setSchedule i x).prices = s.prices := rfl
@[simp] theorem State.setSchedule_pendingCharges (s : State) (i : Nat) (x : Schedule) :
    (s.setSchedule i x).pendingCharges = s.pendingCharges := rfl
@[simp] theorem State.setSchedule_windows (s : State) (i : Nat) (x : Schedule) :
    (s.setSchedule i x).windows = s.windows := rfl
@[simp] theorem State.setSchedule_policy (s : State) (i : Nat) (x : Schedule) :
    (s.setSchedule i x).policy = s.policy := rfl
@[simp] theorem State.setSchedule_journal (s : State) (i : Nat) (x : Schedule) :
    (s.setSchedule i x).journal = s.journal := rfl
@[simp] theorem State.setSchedule_trunk (s : State) (i : Nat) (x : Schedule) :
    (s.setSchedule i x).trunk = s.trunk := rfl
@[simp] theorem State.setSchedule_request (s : State) (i : Nat) (x : Schedule) :
    (s.setSchedule i x).request = s.request := rfl
@[simp] theorem State.setSchedule_faults (s : State) (i : Nat) (x : Schedule) :
    (s.setSchedule i x).faults = s.faults := rfl
@[simp] theorem State.setSchedule_alarm (s : State) (i : Nat) (x : Schedule) :
    (s.setSchedule i x).alarm = s.alarm := rfl
@[simp] theorem State.setSchedule_status (s : State) (i : Nat) (x : Schedule) :
    (s.setSchedule i x).status = s.status := rfl
@[simp] theorem State.setSchedule_bypassStage (s : State) (i : Nat) (x : Schedule) :
    (s.setSchedule i x).bypassStage = s.bypassStage := rfl
@[simp] theorem State.setSchedule_startRecord (s : State) (i : Nat) (x : Schedule) :
    (s.setSchedule i x).startRecord = s.startRecord := rfl
@[simp] theorem State.setSchedule_notes (s : State) (i : Nat) (x : Schedule) :
    (s.setSchedule i x).notes = s.notes := rfl
@[simp] theorem State.setSchedule_firstAttempt (s : State) (i : Nat) (x : Schedule) :
    (s.setSchedule i x).firstAttempt = s.firstAttempt := rfl
@[simp] theorem State.setSchedule_store (s : State) (i : Nat) (x : Schedule) :
    (s.setSchedule i x).store = s.store := rfl
@[simp] theorem State.setSchedule_due (s : State) (i : Nat) (x : Schedule) : (s.setSchedule i x).due = s.due := rfl
@[simp] theorem State.setSchedule_pending (s : State) (i : Nat) (x : Schedule) :
    (s.setSchedule i x).pending = s.pending := rfl

/-! ## setWindow -/

@[simp] theorem State.setWindow_clock (s : State) (i : Nat) (x : Window) : (s.setWindow i x).clock = s.clock := rfl
@[simp] theorem State.setWindow_creds (s : State) (i : Nat) (x : Window) : (s.setWindow i x).creds = s.creds := rfl
@[simp] theorem State.setWindow_rooms (s : State) (i : Nat) (x : Window) : (s.setWindow i x).rooms = s.rooms := rfl
@[simp] theorem State.setWindow_schedules (s : State) (i : Nat) (x : Window) :
    (s.setWindow i x).schedules = s.schedules := rfl
@[simp] theorem State.setWindow_zones (s : State) (i : Nat) (x : Window) : (s.setWindow i x).zones = s.zones := rfl
@[simp] theorem State.setWindow_places (s : State) (i : Nat) (x : Window) : (s.setWindow i x).places = s.places := rfl
@[simp] theorem State.setWindow_segs (s : State) (i : Nat) (x : Window) : (s.setWindow i x).segs = s.segs := rfl
@[simp] theorem State.setWindow_revocations (s : State) (i : Nat) (x : Window) :
    (s.setWindow i x).revocations = s.revocations := rfl
@[simp] theorem State.setWindow_stays (s : State) (i : Nat) (x : Window) : (s.setWindow i x).stays = s.stays := rfl
@[simp] theorem State.setWindow_prices (s : State) (i : Nat) (x : Window) : (s.setWindow i x).prices = s.prices := rfl
@[simp] theorem State.setWindow_pendingCharges (s : State) (i : Nat) (x : Window) :
    (s.setWindow i x).pendingCharges = s.pendingCharges := rfl
@[simp] theorem State.setWindow_windows (s : State) (i : Nat) (x : Window) :
    (s.setWindow i x).windows = Tab.put Window.disabled s.windows i x := rfl
@[simp] theorem State.setWindow_policy (s : State) (i : Nat) (x : Window) : (s.setWindow i x).policy = s.policy := rfl
@[simp] theorem State.setWindow_journal (s : State) (i : Nat) (x : Window) :
    (s.setWindow i x).journal = s.journal := rfl
@[simp] theorem State.setWindow_trunk (s : State) (i : Nat) (x : Window) : (s.setWindow i x).trunk = s.trunk := rfl
@[simp] theorem State.setWindow_request (s : State) (i : Nat) (x : Window) :
    (s.setWindow i x).request = s.request := rfl
@[simp] theorem State.setWindow_faults (s : State) (i : Nat) (x : Window) : (s.setWindow i x).faults = s.faults := rfl
@[simp] theorem State.setWindow_alarm (s : State) (i : Nat) (x : Window) : (s.setWindow i x).alarm = s.alarm := rfl
@[simp] theorem State.setWindow_status (s : State) (i : Nat) (x : Window) : (s.setWindow i x).status = s.status := rfl
@[simp] theorem State.setWindow_bypassStage (s : State) (i : Nat) (x : Window) :
    (s.setWindow i x).bypassStage = s.bypassStage := rfl
@[simp] theorem State.setWindow_startRecord (s : State) (i : Nat) (x : Window) :
    (s.setWindow i x).startRecord = s.startRecord := rfl
@[simp] theorem State.setWindow_notes (s : State) (i : Nat) (x : Window) : (s.setWindow i x).notes = s.notes := rfl
@[simp] theorem State.setWindow_firstAttempt (s : State) (i : Nat) (x : Window) :
    (s.setWindow i x).firstAttempt = s.firstAttempt := rfl
@[simp] theorem State.setWindow_store (s : State) (i : Nat) (x : Window) : (s.setWindow i x).store = s.store := rfl
@[simp] theorem State.setWindow_due (s : State) (i : Nat) (x : Window) : (s.setWindow i x).due = s.due := rfl
@[simp] theorem State.setWindow_pending (s : State) (i : Nat) (x : Window) :
    (s.setWindow i x).pending = s.pending := rfl

/-! ## setPrice -/

@[simp] theorem State.setPrice_clock (s : State) (i : Nat) (x : Price) : (s.setPrice i x).clock = s.clock := rfl
@[simp] theorem State.setPrice_creds (s : State) (i : Nat) (x : Price) : (s.setPrice i x).creds = s.creds := rfl
@[simp] theorem State.setPrice_rooms (s : State) (i : Nat) (x : Price) : (s.setPrice i x).rooms = s.rooms := rfl
@[simp] theorem State.setPrice_schedules (s : State) (i : Nat) (x : Price) :
    (s.setPrice i x).schedules = s.schedules := rfl
@[simp] theorem State.setPrice_zones (s : State) (i : Nat) (x : Price) : (s.setPrice i x).zones = s.zones := rfl
@[simp] theorem State.setPrice_places (s : State) (i : Nat) (x : Price) : (s.setPrice i x).places = s.places := rfl
@[simp] theorem State.setPrice_segs (s : State) (i : Nat) (x : Price) : (s.setPrice i x).segs = s.segs := rfl
@[simp] theorem State.setPrice_revocations (s : State) (i : Nat) (x : Price) :
    (s.setPrice i x).revocations = s.revocations := rfl
@[simp] theorem State.setPrice_stays (s : State) (i : Nat) (x : Price) : (s.setPrice i x).stays = s.stays := rfl
@[simp] theorem State.setPrice_prices (s : State) (i : Nat) (x : Price) :
    (s.setPrice i x).prices = Tab.put ⟨0, 0⟩ s.prices i x := rfl
@[simp] theorem State.setPrice_pendingCharges (s : State) (i : Nat) (x : Price) :
    (s.setPrice i x).pendingCharges = s.pendingCharges := rfl
@[simp] theorem State.setPrice_windows (s : State) (i : Nat) (x : Price) : (s.setPrice i x).windows = s.windows := rfl
@[simp] theorem State.setPrice_policy (s : State) (i : Nat) (x : Price) : (s.setPrice i x).policy = s.policy := rfl
@[simp] theorem State.setPrice_journal (s : State) (i : Nat) (x : Price) : (s.setPrice i x).journal = s.journal := rfl
@[simp] theorem State.setPrice_trunk (s : State) (i : Nat) (x : Price) : (s.setPrice i x).trunk = s.trunk := rfl
@[simp] theorem State.setPrice_request (s : State) (i : Nat) (x : Price) : (s.setPrice i x).request = s.request := rfl
@[simp] theorem State.setPrice_faults (s : State) (i : Nat) (x : Price) : (s.setPrice i x).faults = s.faults := rfl
@[simp] theorem State.setPrice_alarm (s : State) (i : Nat) (x : Price) : (s.setPrice i x).alarm = s.alarm := rfl
@[simp] theorem State.setPrice_status (s : State) (i : Nat) (x : Price) : (s.setPrice i x).status = s.status := rfl
@[simp] theorem State.setPrice_bypassStage (s : State) (i : Nat) (x : Price) :
    (s.setPrice i x).bypassStage = s.bypassStage := rfl
@[simp] theorem State.setPrice_startRecord (s : State) (i : Nat) (x : Price) :
    (s.setPrice i x).startRecord = s.startRecord := rfl
@[simp] theorem State.setPrice_notes (s : State) (i : Nat) (x : Price) : (s.setPrice i x).notes = s.notes := rfl
@[simp] theorem State.setPrice_firstAttempt (s : State) (i : Nat) (x : Price) :
    (s.setPrice i x).firstAttempt = s.firstAttempt := rfl
@[simp] theorem State.setPrice_store (s : State) (i : Nat) (x : Price) : (s.setPrice i x).store = s.store := rfl
@[simp] theorem State.setPrice_due (s : State) (i : Nat) (x : Price) : (s.setPrice i x).due = s.due := rfl
@[simp] theorem State.setPrice_pending (s : State) (i : Nat) (x : Price) : (s.setPrice i x).pending = s.pending := rfl

/-! ## setPolicy -/

@[simp] theorem State.setPolicy_clock (s : State) (x : Policy) : (s.setPolicy x).clock = s.clock := rfl
@[simp] theorem State.setPolicy_creds (s : State) (x : Policy) : (s.setPolicy x).creds = s.creds := rfl
@[simp] theorem State.setPolicy_rooms (s : State) (x : Policy) : (s.setPolicy x).rooms = s.rooms := rfl
@[simp] theorem State.setPolicy_schedules (s : State) (x : Policy) : (s.setPolicy x).schedules = s.schedules := rfl
@[simp] theorem State.setPolicy_zones (s : State) (x : Policy) : (s.setPolicy x).zones = s.zones := rfl
@[simp] theorem State.setPolicy_places (s : State) (x : Policy) : (s.setPolicy x).places = s.places := rfl
@[simp] theorem State.setPolicy_segs (s : State) (x : Policy) : (s.setPolicy x).segs = s.segs := rfl
@[simp] theorem State.setPolicy_revocations (s : State) (x : Policy) :
    (s.setPolicy x).revocations = s.revocations := rfl
@[simp] theorem State.setPolicy_stays (s : State) (x : Policy) : (s.setPolicy x).stays = s.stays := rfl
@[simp] theorem State.setPolicy_prices (s : State) (x : Policy) : (s.setPolicy x).prices = s.prices := rfl
@[simp] theorem State.setPolicy_pendingCharges (s : State) (x : Policy) :
    (s.setPolicy x).pendingCharges = s.pendingCharges := rfl
@[simp] theorem State.setPolicy_windows (s : State) (x : Policy) : (s.setPolicy x).windows = s.windows := rfl
@[simp] theorem State.setPolicy_policy (s : State) (x : Policy) : (s.setPolicy x).policy = x := rfl
@[simp] theorem State.setPolicy_journal (s : State) (x : Policy) : (s.setPolicy x).journal = s.journal := rfl
@[simp] theorem State.setPolicy_trunk (s : State) (x : Policy) : (s.setPolicy x).trunk = s.trunk := rfl
@[simp] theorem State.setPolicy_request (s : State) (x : Policy) : (s.setPolicy x).request = s.request := rfl
@[simp] theorem State.setPolicy_faults (s : State) (x : Policy) : (s.setPolicy x).faults = s.faults := rfl
@[simp] theorem State.setPolicy_alarm (s : State) (x : Policy) : (s.setPolicy x).alarm = s.alarm := rfl
@[simp] theorem State.setPolicy_status (s : State) (x : Policy) : (s.setPolicy x).status = s.status := rfl
@[simp] theorem State.setPolicy_bypassStage (s : State) (x : Policy) :
    (s.setPolicy x).bypassStage = s.bypassStage := rfl
@[simp] theorem State.setPolicy_startRecord (s : State) (x : Policy) :
    (s.setPolicy x).startRecord = s.startRecord := rfl
@[simp] theorem State.setPolicy_notes (s : State) (x : Policy) : (s.setPolicy x).notes = s.notes := rfl
@[simp] theorem State.setPolicy_firstAttempt (s : State) (x : Policy) :
    (s.setPolicy x).firstAttempt = s.firstAttempt := rfl
@[simp] theorem State.setPolicy_store (s : State) (x : Policy) : (s.setPolicy x).store = s.store := rfl
@[simp] theorem State.setPolicy_due (s : State) (x : Policy) : (s.setPolicy x).due = s.due := rfl
@[simp] theorem State.setPolicy_pending (s : State) (x : Policy) : (s.setPolicy x).pending = s.pending := rfl

/-! ## setCharges -/

@[simp] theorem State.setCharges_clock (s : State) (cs : List Charge) : (s.setCharges cs).clock = s.clock := rfl
@[simp] theorem State.setCharges_creds (s : State) (cs : List Charge) : (s.setCharges cs).creds = s.creds := rfl
@[simp] theorem State.setCharges_rooms (s : State) (cs : List Charge) : (s.setCharges cs).rooms = s.rooms := rfl
@[simp] theorem State.setCharges_schedules (s : State) (cs : List Charge) :
    (s.setCharges cs).schedules = s.schedules := rfl
@[simp] theorem State.setCharges_zones (s : State) (cs : List Charge) : (s.setCharges cs).zones = s.zones := rfl
@[simp] theorem State.setCharges_places (s : State) (cs : List Charge) : (s.setCharges cs).places = s.places := rfl
@[simp] theorem State.setCharges_segs (s : State) (cs : List Charge) : (s.setCharges cs).segs = s.segs := rfl
@[simp] theorem State.setCharges_revocations (s : State) (cs : List Charge) :
    (s.setCharges cs).revocations = s.revocations := rfl
@[simp] theorem State.setCharges_stays (s : State) (cs : List Charge) : (s.setCharges cs).stays = s.stays := rfl
@[simp] theorem State.setCharges_prices (s : State) (cs : List Charge) : (s.setCharges cs).prices = s.prices := rfl
@[simp] theorem State.setCharges_pendingCharges (s : State) (cs : List Charge) :
    (s.setCharges cs).pendingCharges = cs := rfl
@[simp] theorem State.setCharges_windows (s : State) (cs : List Charge) : (s.setCharges cs).windows = s.windows := rfl
@[simp] theorem State.setCharges_policy (s : State) (cs : List Charge) : (s.setCharges cs).policy = s.policy := rfl
@[simp] theorem State.setCharges_journal (s : State) (cs : List Charge) : (s.setCharges cs).journal = s.journal := rfl
@[simp] theorem State.setCharges_trunk (s : State) (cs : List Charge) : (s.setCharges cs).trunk = s.trunk := rfl
@[simp] theorem State.setCharges_request (s : State) (cs : List Charge) : (s.setCharges cs).request = s.request := rfl
@[simp] theorem State.setCharges_faults (s : State) (cs : List Charge) : (s.setCharges cs).faults = s.faults := rfl
@[simp] theorem State.setCharges_alarm (s : State) (cs : List Charge) : (s.setCharges cs).alarm = s.alarm := rfl
@[simp] theorem State.setCharges_status (s : State) (cs : List Charge) : (s.setCharges cs).status = s.status := rfl
@[simp] theorem State.setCharges_bypassStage (s : State) (cs : List Charge) :
    (s.setCharges cs).bypassStage = s.bypassStage := rfl
@[simp] theorem State.setCharges_startRecord (s : State) (cs : List Charge) :
    (s.setCharges cs).startRecord = s.startRecord := rfl
@[simp] theorem State.setCharges_notes (s : State) (cs : List Charge) : (s.setCharges cs).notes = s.notes := rfl
@[simp] theorem State.setCharges_firstAttempt (s : State) (cs : List Charge) :
    (s.setCharges cs).firstAttempt = s.firstAttempt := rfl
@[simp] theorem State.setCharges_store (s : State) (cs : List Charge) : (s.setCharges cs).store = s.store := rfl
@[simp] theorem State.setCharges_due (s : State) (cs : List Charge) : (s.setCharges cs).due = s.due := rfl
@[simp] theorem State.setCharges_pending (s : State) (cs : List Charge) : (s.setCharges cs).pending = s.pending := rfl

/-! ## setFault -/

@[simp] theorem State.setFault_clock (s : State) (k : FaultKind) (r : FaultRec) :
    (s.setFault k r).clock = s.clock := rfl
@[simp] theorem State.setFault_creds (s : State) (k : FaultKind) (r : FaultRec) :
    (s.setFault k r).creds = s.creds := rfl
@[simp] theorem State.setFault_rooms (s : State) (k : FaultKind) (r : FaultRec) :
    (s.setFault k r).rooms = s.rooms := rfl
@[simp] theorem State.setFault_schedules (s : State) (k : FaultKind) (r : FaultRec) :
    (s.setFault k r).schedules = s.schedules := rfl
@[simp] theorem State.setFault_zones (s : State) (k : FaultKind) (r : FaultRec) :
    (s.setFault k r).zones = s.zones := rfl
@[simp] theorem State.setFault_places (s : State) (k : FaultKind) (r : FaultRec) :
    (s.setFault k r).places = s.places := rfl
@[simp] theorem State.setFault_segs (s : State) (k : FaultKind) (r : FaultRec) : (s.setFault k r).segs = s.segs := rfl
@[simp] theorem State.setFault_revocations (s : State) (k : FaultKind) (r : FaultRec) :
    (s.setFault k r).revocations = s.revocations := rfl
@[simp] theorem State.setFault_stays (s : State) (k : FaultKind) (r : FaultRec) :
    (s.setFault k r).stays = s.stays := rfl
@[simp] theorem State.setFault_prices (s : State) (k : FaultKind) (r : FaultRec) :
    (s.setFault k r).prices = s.prices := rfl
@[simp] theorem State.setFault_pendingCharges (s : State) (k : FaultKind) (r : FaultRec) :
    (s.setFault k r).pendingCharges = s.pendingCharges := rfl
@[simp] theorem State.setFault_windows (s : State) (k : FaultKind) (r : FaultRec) :
    (s.setFault k r).windows = s.windows := rfl
@[simp] theorem State.setFault_policy (s : State) (k : FaultKind) (r : FaultRec) :
    (s.setFault k r).policy = s.policy := rfl
@[simp] theorem State.setFault_journal (s : State) (k : FaultKind) (r : FaultRec) :
    (s.setFault k r).journal = s.journal := rfl
@[simp] theorem State.setFault_trunk (s : State) (k : FaultKind) (r : FaultRec) :
    (s.setFault k r).trunk = s.trunk := rfl
@[simp] theorem State.setFault_request (s : State) (k : FaultKind) (r : FaultRec) :
    (s.setFault k r).request = s.request := rfl
@[simp] theorem State.setFault_faults (s : State) (k : FaultKind) (r : FaultRec) :
    (s.setFault k r).faults = Tab.put FaultRec.clear s.faults (faultCode k) r := rfl
@[simp] theorem State.setFault_alarm (s : State) (k : FaultKind) (r : FaultRec) :
    (s.setFault k r).alarm = s.alarm := rfl
@[simp] theorem State.setFault_status (s : State) (k : FaultKind) (r : FaultRec) :
    (s.setFault k r).status = s.status := rfl
@[simp] theorem State.setFault_bypassStage (s : State) (k : FaultKind) (r : FaultRec) :
    (s.setFault k r).bypassStage = s.bypassStage := rfl
@[simp] theorem State.setFault_startRecord (s : State) (k : FaultKind) (r : FaultRec) :
    (s.setFault k r).startRecord = s.startRecord := rfl
@[simp] theorem State.setFault_notes (s : State) (k : FaultKind) (r : FaultRec) :
    (s.setFault k r).notes = s.notes := rfl
@[simp] theorem State.setFault_firstAttempt (s : State) (k : FaultKind) (r : FaultRec) :
    (s.setFault k r).firstAttempt = s.firstAttempt := rfl
@[simp] theorem State.setFault_dirty (s : State) (k : FaultKind) (r : FaultRec) :
    (s.setFault k r).dirty = s.dirty := rfl
@[simp] theorem State.setFault_writer (s : State) (k : FaultKind) (r : FaultRec) :
    (s.setFault k r).writer = s.writer := rfl
@[simp] theorem State.setFault_store (s : State) (k : FaultKind) (r : FaultRec) :
    (s.setFault k r).store = s.store := rfl
@[simp] theorem State.setFault_due (s : State) (k : FaultKind) (r : FaultRec) : (s.setFault k r).due = s.due := rfl
@[simp] theorem State.setFault_pending (s : State) (k : FaultKind) (r : FaultRec) :
    (s.setFault k r).pending = s.pending := rfl

/-! ## driveAlarm -/

@[simp] theorem State.driveAlarm_clock (s : State) : (s.driveAlarm).clock = s.clock := rfl
@[simp] theorem State.driveAlarm_creds (s : State) : (s.driveAlarm).creds = s.creds := rfl
@[simp] theorem State.driveAlarm_rooms (s : State) : (s.driveAlarm).rooms = s.rooms := rfl
@[simp] theorem State.driveAlarm_schedules (s : State) : (s.driveAlarm).schedules = s.schedules := rfl
@[simp] theorem State.driveAlarm_zones (s : State) : (s.driveAlarm).zones = s.zones := rfl
@[simp] theorem State.driveAlarm_places (s : State) : (s.driveAlarm).places = s.places := rfl
@[simp] theorem State.driveAlarm_segs (s : State) : (s.driveAlarm).segs = s.segs := rfl
@[simp] theorem State.driveAlarm_revocations (s : State) : (s.driveAlarm).revocations = s.revocations := rfl
@[simp] theorem State.driveAlarm_stays (s : State) : (s.driveAlarm).stays = s.stays := rfl
@[simp] theorem State.driveAlarm_prices (s : State) : (s.driveAlarm).prices = s.prices := rfl
@[simp] theorem State.driveAlarm_pendingCharges (s : State) : (s.driveAlarm).pendingCharges = s.pendingCharges := rfl
@[simp] theorem State.driveAlarm_windows (s : State) : (s.driveAlarm).windows = s.windows := rfl
@[simp] theorem State.driveAlarm_policy (s : State) : (s.driveAlarm).policy = s.policy := rfl
@[simp] theorem State.driveAlarm_journal (s : State) : (s.driveAlarm).journal = s.journal := rfl
@[simp] theorem State.driveAlarm_trunk (s : State) : (s.driveAlarm).trunk = s.trunk := rfl
@[simp] theorem State.driveAlarm_request (s : State) : (s.driveAlarm).request = s.request := rfl
@[simp] theorem State.driveAlarm_faults (s : State) : (s.driveAlarm).faults = s.faults := rfl
@[simp] theorem State.driveAlarm_alarm (s : State) : (s.driveAlarm).alarm = s.alarmDue := rfl
@[simp] theorem State.driveAlarm_status (s : State) : (s.driveAlarm).status = s.status := rfl
@[simp] theorem State.driveAlarm_bypassStage (s : State) : (s.driveAlarm).bypassStage = s.bypassStage := rfl
@[simp] theorem State.driveAlarm_startRecord (s : State) : (s.driveAlarm).startRecord = s.startRecord := rfl
@[simp] theorem State.driveAlarm_notes (s : State) : (s.driveAlarm).notes = s.notes := rfl
@[simp] theorem State.driveAlarm_firstAttempt (s : State) : (s.driveAlarm).firstAttempt = s.firstAttempt := rfl
@[simp] theorem State.driveAlarm_dirty (s : State) : (s.driveAlarm).dirty = s.dirty := rfl
@[simp] theorem State.driveAlarm_writer (s : State) : (s.driveAlarm).writer = s.writer := rfl
@[simp] theorem State.driveAlarm_store (s : State) : (s.driveAlarm).store = s.store := rfl
@[simp] theorem State.driveAlarm_due (s : State) : (s.driveAlarm).due = s.due := rfl
@[simp] theorem State.driveAlarm_pending (s : State) : (s.driveAlarm).pending = s.pending := rfl

/-! ## append -/

@[simp] theorem State.append_clock (s : State) (d : Draft) : (s.append d).clock = s.clock := rfl
@[simp] theorem State.append_creds (s : State) (d : Draft) : (s.append d).creds = s.creds := rfl
@[simp] theorem State.append_rooms (s : State) (d : Draft) : (s.append d).rooms = s.rooms := rfl
@[simp] theorem State.append_schedules (s : State) (d : Draft) : (s.append d).schedules = s.schedules := rfl
@[simp] theorem State.append_zones (s : State) (d : Draft) : (s.append d).zones = s.zones := rfl
@[simp] theorem State.append_places (s : State) (d : Draft) : (s.append d).places = s.places := rfl
@[simp] theorem State.append_segs (s : State) (d : Draft) : (s.append d).segs = s.segs := rfl
@[simp] theorem State.append_revocations (s : State) (d : Draft) : (s.append d).revocations = s.revocations := rfl
@[simp] theorem State.append_stays (s : State) (d : Draft) : (s.append d).stays = s.stays := rfl
@[simp] theorem State.append_prices (s : State) (d : Draft) : (s.append d).prices = s.prices := rfl
@[simp] theorem State.append_pendingCharges (s : State) (d : Draft) :
    (s.append d).pendingCharges = s.pendingCharges := rfl
@[simp] theorem State.append_windows (s : State) (d : Draft) : (s.append d).windows = s.windows := rfl
@[simp] theorem State.append_policy (s : State) (d : Draft) : (s.append d).policy = s.policy := rfl
@[simp] theorem State.append_trunk (s : State) (d : Draft) : (s.append d).trunk = s.trunk := rfl
@[simp] theorem State.append_request (s : State) (d : Draft) : (s.append d).request = s.request := rfl
@[simp] theorem State.append_faults (s : State) (d : Draft) : (s.append d).faults = s.faults := rfl
@[simp] theorem State.append_alarm (s : State) (d : Draft) : (s.append d).alarm = s.alarm := rfl
@[simp] theorem State.append_status (s : State) (d : Draft) : (s.append d).status = s.status := rfl
@[simp] theorem State.append_bypassStage (s : State) (d : Draft) : (s.append d).bypassStage = s.bypassStage := rfl
@[simp] theorem State.append_startRecord (s : State) (d : Draft) : (s.append d).startRecord = s.startRecord := rfl
@[simp] theorem State.append_notes (s : State) (d : Draft) : (s.append d).notes = s.notes := rfl
@[simp] theorem State.append_firstAttempt (s : State) (d : Draft) : (s.append d).firstAttempt = s.firstAttempt := rfl
@[simp] theorem State.append_dirty (s : State) (d : Draft) : (s.append d).dirty = s.dirty := rfl
@[simp] theorem State.append_writer (s : State) (d : Draft) : (s.append d).writer = s.writer := rfl
@[simp] theorem State.append_store (s : State) (d : Draft) : (s.append d).store = s.store := rfl
@[simp] theorem State.append_due (s : State) (d : Draft) : (s.append d).due = s.due := rfl
@[simp] theorem State.append_pending (s : State) (d : Draft) : (s.append d).pending = s.pending := rfl

/-! ## countGap -/

@[simp] theorem State.countGap_clock (s : State) : (s.countGap).clock = s.clock := rfl
@[simp] theorem State.countGap_creds (s : State) : (s.countGap).creds = s.creds := rfl
@[simp] theorem State.countGap_rooms (s : State) : (s.countGap).rooms = s.rooms := rfl
@[simp] theorem State.countGap_schedules (s : State) : (s.countGap).schedules = s.schedules := rfl
@[simp] theorem State.countGap_zones (s : State) : (s.countGap).zones = s.zones := rfl
@[simp] theorem State.countGap_places (s : State) : (s.countGap).places = s.places := rfl
@[simp] theorem State.countGap_segs (s : State) : (s.countGap).segs = s.segs := rfl
@[simp] theorem State.countGap_revocations (s : State) : (s.countGap).revocations = s.revocations := rfl
@[simp] theorem State.countGap_stays (s : State) : (s.countGap).stays = s.stays := rfl
@[simp] theorem State.countGap_prices (s : State) : (s.countGap).prices = s.prices := rfl
@[simp] theorem State.countGap_pendingCharges (s : State) : (s.countGap).pendingCharges = s.pendingCharges := rfl
@[simp] theorem State.countGap_windows (s : State) : (s.countGap).windows = s.windows := rfl
@[simp] theorem State.countGap_policy (s : State) : (s.countGap).policy = s.policy := rfl
@[simp] theorem State.countGap_trunk (s : State) : (s.countGap).trunk = s.trunk := rfl
@[simp] theorem State.countGap_request (s : State) : (s.countGap).request = s.request := rfl
@[simp] theorem State.countGap_faults (s : State) : (s.countGap).faults = s.faults := rfl
@[simp] theorem State.countGap_alarm (s : State) : (s.countGap).alarm = s.alarm := rfl
@[simp] theorem State.countGap_status (s : State) : (s.countGap).status = s.status := rfl
@[simp] theorem State.countGap_bypassStage (s : State) : (s.countGap).bypassStage = s.bypassStage := rfl
@[simp] theorem State.countGap_startRecord (s : State) : (s.countGap).startRecord = s.startRecord := rfl
@[simp] theorem State.countGap_notes (s : State) : (s.countGap).notes = s.notes := rfl
@[simp] theorem State.countGap_firstAttempt (s : State) : (s.countGap).firstAttempt = s.firstAttempt := rfl
@[simp] theorem State.countGap_dirty (s : State) : (s.countGap).dirty = s.dirty := rfl
@[simp] theorem State.countGap_writer (s : State) : (s.countGap).writer = s.writer := rfl
@[simp] theorem State.countGap_store (s : State) : (s.countGap).store = s.store := rfl
@[simp] theorem State.countGap_due (s : State) : (s.countGap).due = s.due := rfl
@[simp] theorem State.countGap_pending (s : State) : (s.countGap).pending = s.pending := rfl

/-! ## addDue -/

@[simp] theorem State.addDue_clock (s : State) (d : Due) : (s.addDue d).clock = s.clock := rfl
@[simp] theorem State.addDue_creds (s : State) (d : Due) : (s.addDue d).creds = s.creds := rfl
@[simp] theorem State.addDue_rooms (s : State) (d : Due) : (s.addDue d).rooms = s.rooms := rfl
@[simp] theorem State.addDue_schedules (s : State) (d : Due) : (s.addDue d).schedules = s.schedules := rfl
@[simp] theorem State.addDue_zones (s : State) (d : Due) : (s.addDue d).zones = s.zones := rfl
@[simp] theorem State.addDue_places (s : State) (d : Due) : (s.addDue d).places = s.places := rfl
@[simp] theorem State.addDue_segs (s : State) (d : Due) : (s.addDue d).segs = s.segs := rfl
@[simp] theorem State.addDue_revocations (s : State) (d : Due) : (s.addDue d).revocations = s.revocations := rfl
@[simp] theorem State.addDue_stays (s : State) (d : Due) : (s.addDue d).stays = s.stays := rfl
@[simp] theorem State.addDue_prices (s : State) (d : Due) : (s.addDue d).prices = s.prices := rfl
@[simp] theorem State.addDue_pendingCharges (s : State) (d : Due) :
    (s.addDue d).pendingCharges = s.pendingCharges := rfl
@[simp] theorem State.addDue_windows (s : State) (d : Due) : (s.addDue d).windows = s.windows := rfl
@[simp] theorem State.addDue_policy (s : State) (d : Due) : (s.addDue d).policy = s.policy := rfl
@[simp] theorem State.addDue_journal (s : State) (d : Due) : (s.addDue d).journal = s.journal := rfl
@[simp] theorem State.addDue_trunk (s : State) (d : Due) : (s.addDue d).trunk = s.trunk := rfl
@[simp] theorem State.addDue_request (s : State) (d : Due) : (s.addDue d).request = s.request := rfl
@[simp] theorem State.addDue_faults (s : State) (d : Due) : (s.addDue d).faults = s.faults := rfl
@[simp] theorem State.addDue_alarm (s : State) (d : Due) : (s.addDue d).alarm = s.alarm := rfl
@[simp] theorem State.addDue_status (s : State) (d : Due) : (s.addDue d).status = s.status := rfl
@[simp] theorem State.addDue_bypassStage (s : State) (d : Due) : (s.addDue d).bypassStage = s.bypassStage := rfl
@[simp] theorem State.addDue_startRecord (s : State) (d : Due) : (s.addDue d).startRecord = s.startRecord := rfl
@[simp] theorem State.addDue_notes (s : State) (d : Due) : (s.addDue d).notes = s.notes := rfl
@[simp] theorem State.addDue_firstAttempt (s : State) (d : Due) : (s.addDue d).firstAttempt = s.firstAttempt := rfl
@[simp] theorem State.addDue_dirty (s : State) (d : Due) : (s.addDue d).dirty = s.dirty := rfl
@[simp] theorem State.addDue_writer (s : State) (d : Due) : (s.addDue d).writer = s.writer := rfl
@[simp] theorem State.addDue_store (s : State) (d : Due) : (s.addDue d).store = s.store := rfl
@[simp] theorem State.addDue_due (s : State) (d : Due) : (s.addDue d).due = s.due ++ [d] := rfl
@[simp] theorem State.addDue_pending (s : State) (d : Due) : (s.addDue d).pending = s.pending := rfl

/-! ## undue -/

@[simp] theorem State.undue_clock (s : State) (d : Due) : (s.undue d).clock = s.clock := rfl
@[simp] theorem State.undue_creds (s : State) (d : Due) : (s.undue d).creds = s.creds := rfl
@[simp] theorem State.undue_rooms (s : State) (d : Due) : (s.undue d).rooms = s.rooms := rfl
@[simp] theorem State.undue_schedules (s : State) (d : Due) : (s.undue d).schedules = s.schedules := rfl
@[simp] theorem State.undue_zones (s : State) (d : Due) : (s.undue d).zones = s.zones := rfl
@[simp] theorem State.undue_places (s : State) (d : Due) : (s.undue d).places = s.places := rfl
@[simp] theorem State.undue_segs (s : State) (d : Due) : (s.undue d).segs = s.segs := rfl
@[simp] theorem State.undue_revocations (s : State) (d : Due) : (s.undue d).revocations = s.revocations := rfl
@[simp] theorem State.undue_stays (s : State) (d : Due) : (s.undue d).stays = s.stays := rfl
@[simp] theorem State.undue_prices (s : State) (d : Due) : (s.undue d).prices = s.prices := rfl
@[simp] theorem State.undue_pendingCharges (s : State) (d : Due) : (s.undue d).pendingCharges = s.pendingCharges := rfl
@[simp] theorem State.undue_windows (s : State) (d : Due) : (s.undue d).windows = s.windows := rfl
@[simp] theorem State.undue_policy (s : State) (d : Due) : (s.undue d).policy = s.policy := rfl
@[simp] theorem State.undue_journal (s : State) (d : Due) : (s.undue d).journal = s.journal := rfl
@[simp] theorem State.undue_trunk (s : State) (d : Due) : (s.undue d).trunk = s.trunk := rfl
@[simp] theorem State.undue_request (s : State) (d : Due) : (s.undue d).request = s.request := rfl
@[simp] theorem State.undue_faults (s : State) (d : Due) : (s.undue d).faults = s.faults := rfl
@[simp] theorem State.undue_alarm (s : State) (d : Due) : (s.undue d).alarm = s.alarm := rfl
@[simp] theorem State.undue_status (s : State) (d : Due) : (s.undue d).status = s.status := rfl
@[simp] theorem State.undue_bypassStage (s : State) (d : Due) : (s.undue d).bypassStage = s.bypassStage := rfl
@[simp] theorem State.undue_startRecord (s : State) (d : Due) : (s.undue d).startRecord = s.startRecord := rfl
@[simp] theorem State.undue_notes (s : State) (d : Due) : (s.undue d).notes = s.notes := rfl
@[simp] theorem State.undue_firstAttempt (s : State) (d : Due) : (s.undue d).firstAttempt = s.firstAttempt := rfl
@[simp] theorem State.undue_dirty (s : State) (d : Due) : (s.undue d).dirty = s.dirty := rfl
@[simp] theorem State.undue_writer (s : State) (d : Due) : (s.undue d).writer = s.writer := rfl
@[simp] theorem State.undue_store (s : State) (d : Due) : (s.undue d).store = s.store := rfl
@[simp] theorem State.undue_due (s : State) (d : Due) : (s.undue d).due = s.due.erase d := rfl
@[simp] theorem State.undue_pending (s : State) (d : Due) : (s.undue d).pending = s.pending := rfl

/-! ## note -/

@[simp] theorem State.note_clock (s : State) (stage : Nat) (code : NoteCode) :
    (s.note stage code).clock = s.clock := rfl
@[simp] theorem State.note_creds (s : State) (stage : Nat) (code : NoteCode) :
    (s.note stage code).creds = s.creds := rfl
@[simp] theorem State.note_rooms (s : State) (stage : Nat) (code : NoteCode) :
    (s.note stage code).rooms = s.rooms := rfl
@[simp] theorem State.note_schedules (s : State) (stage : Nat) (code : NoteCode) :
    (s.note stage code).schedules = s.schedules := rfl
@[simp] theorem State.note_zones (s : State) (stage : Nat) (code : NoteCode) :
    (s.note stage code).zones = s.zones := rfl
@[simp] theorem State.note_places (s : State) (stage : Nat) (code : NoteCode) :
    (s.note stage code).places = s.places := rfl
@[simp] theorem State.note_segs (s : State) (stage : Nat) (code : NoteCode) : (s.note stage code).segs = s.segs := rfl
@[simp] theorem State.note_revocations (s : State) (stage : Nat) (code : NoteCode) :
    (s.note stage code).revocations = s.revocations := rfl
@[simp] theorem State.note_stays (s : State) (stage : Nat) (code : NoteCode) :
    (s.note stage code).stays = s.stays := rfl
@[simp] theorem State.note_prices (s : State) (stage : Nat) (code : NoteCode) :
    (s.note stage code).prices = s.prices := rfl
@[simp] theorem State.note_pendingCharges (s : State) (stage : Nat) (code : NoteCode) :
    (s.note stage code).pendingCharges = s.pendingCharges := rfl
@[simp] theorem State.note_windows (s : State) (stage : Nat) (code : NoteCode) :
    (s.note stage code).windows = s.windows := rfl
@[simp] theorem State.note_policy (s : State) (stage : Nat) (code : NoteCode) :
    (s.note stage code).policy = s.policy := rfl
@[simp] theorem State.note_journal (s : State) (stage : Nat) (code : NoteCode) :
    (s.note stage code).journal = s.journal := rfl
@[simp] theorem State.note_trunk (s : State) (stage : Nat) (code : NoteCode) :
    (s.note stage code).trunk = s.trunk := rfl
@[simp] theorem State.note_request (s : State) (stage : Nat) (code : NoteCode) :
    (s.note stage code).request = s.request := rfl
@[simp] theorem State.note_faults (s : State) (stage : Nat) (code : NoteCode) :
    (s.note stage code).faults = s.faults := rfl
@[simp] theorem State.note_alarm (s : State) (stage : Nat) (code : NoteCode) :
    (s.note stage code).alarm = s.alarm := rfl
@[simp] theorem State.note_status (s : State) (stage : Nat) (code : NoteCode) :
    (s.note stage code).status = s.status := rfl
@[simp] theorem State.note_bypassStage (s : State) (stage : Nat) (code : NoteCode) :
    (s.note stage code).bypassStage = s.bypassStage := rfl
@[simp] theorem State.note_startRecord (s : State) (stage : Nat) (code : NoteCode) :
    (s.note stage code).startRecord = s.startRecord := rfl
@[simp] theorem State.note_notes (s : State) (stage : Nat) (code : NoteCode) :
    (s.note stage code).notes = s.notes ++ [⟨stage, code⟩] := rfl
@[simp] theorem State.note_firstAttempt (s : State) (stage : Nat) (code : NoteCode) :
    (s.note stage code).firstAttempt = s.firstAttempt := rfl
@[simp] theorem State.note_dirty (s : State) (stage : Nat) (code : NoteCode) :
    (s.note stage code).dirty = s.dirty := rfl
@[simp] theorem State.note_writer (s : State) (stage : Nat) (code : NoteCode) :
    (s.note stage code).writer = s.writer := rfl
@[simp] theorem State.note_store (s : State) (stage : Nat) (code : NoteCode) :
    (s.note stage code).store = s.store := rfl
@[simp] theorem State.note_due (s : State) (stage : Nat) (code : NoteCode) : (s.note stage code).due = s.due := rfl
@[simp] theorem State.note_pending (s : State) (stage : Nat) (code : NoteCode) :
    (s.note stage code).pending = s.pending := rfl

/-! ## countSecond -/

@[simp] theorem State.countSecond_creds (s : State) : (s.countSecond).creds = s.creds := rfl
@[simp] theorem State.countSecond_rooms (s : State) : (s.countSecond).rooms = s.rooms := rfl
@[simp] theorem State.countSecond_schedules (s : State) : (s.countSecond).schedules = s.schedules := rfl
@[simp] theorem State.countSecond_zones (s : State) : (s.countSecond).zones = s.zones := rfl
@[simp] theorem State.countSecond_places (s : State) : (s.countSecond).places = s.places := rfl
@[simp] theorem State.countSecond_segs (s : State) : (s.countSecond).segs = s.segs := rfl
@[simp] theorem State.countSecond_revocations (s : State) : (s.countSecond).revocations = s.revocations := rfl
@[simp] theorem State.countSecond_stays (s : State) : (s.countSecond).stays = s.stays := rfl
@[simp] theorem State.countSecond_prices (s : State) : (s.countSecond).prices = s.prices := rfl
@[simp] theorem State.countSecond_pendingCharges (s : State) : (s.countSecond).pendingCharges = s.pendingCharges := rfl
@[simp] theorem State.countSecond_windows (s : State) : (s.countSecond).windows = s.windows := rfl
@[simp] theorem State.countSecond_policy (s : State) : (s.countSecond).policy = s.policy := rfl
@[simp] theorem State.countSecond_journal (s : State) : (s.countSecond).journal = s.journal := rfl
@[simp] theorem State.countSecond_trunk (s : State) : (s.countSecond).trunk = s.trunk := rfl
@[simp] theorem State.countSecond_request (s : State) : (s.countSecond).request = s.request := rfl
@[simp] theorem State.countSecond_faults (s : State) : (s.countSecond).faults = s.faults := rfl
@[simp] theorem State.countSecond_alarm (s : State) : (s.countSecond).alarm = s.alarm := rfl
@[simp] theorem State.countSecond_status (s : State) : (s.countSecond).status = s.status := rfl
@[simp] theorem State.countSecond_bypassStage (s : State) : (s.countSecond).bypassStage = s.bypassStage := rfl
@[simp] theorem State.countSecond_startRecord (s : State) : (s.countSecond).startRecord = s.startRecord := rfl
@[simp] theorem State.countSecond_notes (s : State) : (s.countSecond).notes = s.notes := rfl
@[simp] theorem State.countSecond_firstAttempt (s : State) : (s.countSecond).firstAttempt = s.firstAttempt := rfl
@[simp] theorem State.countSecond_dirty (s : State) : (s.countSecond).dirty = s.dirty := rfl
@[simp] theorem State.countSecond_writer (s : State) : (s.countSecond).writer = s.writer := rfl
@[simp] theorem State.countSecond_store (s : State) : (s.countSecond).store = s.store := rfl
@[simp] theorem State.countSecond_due (s : State) : (s.countSecond).due = s.due := rfl
@[simp] theorem State.countSecond_pending (s : State) : (s.countSecond).pending = s.pending := rfl

/-! ## advanceClock -/

@[simp] theorem State.advanceClock_creds (s : State) : (s.advanceClock).creds = s.creds := rfl
@[simp] theorem State.advanceClock_rooms (s : State) : (s.advanceClock).rooms = s.rooms := rfl
@[simp] theorem State.advanceClock_schedules (s : State) : (s.advanceClock).schedules = s.schedules := rfl
@[simp] theorem State.advanceClock_zones (s : State) : (s.advanceClock).zones = s.zones := rfl
@[simp] theorem State.advanceClock_places (s : State) : (s.advanceClock).places = s.places := rfl
@[simp] theorem State.advanceClock_segs (s : State) : (s.advanceClock).segs = s.segs := rfl
@[simp] theorem State.advanceClock_revocations (s : State) : (s.advanceClock).revocations = s.revocations := rfl
@[simp] theorem State.advanceClock_stays (s : State) : (s.advanceClock).stays = s.stays := rfl
@[simp] theorem State.advanceClock_prices (s : State) : (s.advanceClock).prices = s.prices := rfl
@[simp] theorem State.advanceClock_pendingCharges (s : State) :
    (s.advanceClock).pendingCharges = s.pendingCharges := rfl
@[simp] theorem State.advanceClock_windows (s : State) : (s.advanceClock).windows = s.windows := rfl
@[simp] theorem State.advanceClock_policy (s : State) : (s.advanceClock).policy = s.policy := rfl
@[simp] theorem State.advanceClock_journal (s : State) : (s.advanceClock).journal = s.journal := rfl
@[simp] theorem State.advanceClock_trunk (s : State) : (s.advanceClock).trunk = s.trunk := rfl
@[simp] theorem State.advanceClock_request (s : State) : (s.advanceClock).request = s.request := rfl
@[simp] theorem State.advanceClock_faults (s : State) : (s.advanceClock).faults = s.faults := rfl
@[simp] theorem State.advanceClock_alarm (s : State) : (s.advanceClock).alarm = s.alarm := rfl
@[simp] theorem State.advanceClock_status (s : State) : (s.advanceClock).status = s.status := rfl
@[simp] theorem State.advanceClock_bypassStage (s : State) : (s.advanceClock).bypassStage = s.bypassStage := rfl
@[simp] theorem State.advanceClock_startRecord (s : State) : (s.advanceClock).startRecord = s.startRecord := rfl
@[simp] theorem State.advanceClock_notes (s : State) : (s.advanceClock).notes = s.notes := rfl
@[simp] theorem State.advanceClock_firstAttempt (s : State) : (s.advanceClock).firstAttempt = s.firstAttempt := rfl
@[simp] theorem State.advanceClock_dirty (s : State) : (s.advanceClock).dirty = s.dirty := rfl
@[simp] theorem State.advanceClock_writer (s : State) : (s.advanceClock).writer = s.writer := rfl
@[simp] theorem State.advanceClock_store (s : State) : (s.advanceClock).store = s.store := rfl
@[simp] theorem State.advanceClock_due (s : State) : (s.advanceClock).due = s.due := rfl
@[simp] theorem State.advanceClock_pending (s : State) : (s.advanceClock).pending = s.pending := rfl

/-! ## loadClock -/

@[simp] theorem State.loadClock_clock (s : State) (m w : Nat) : (s.loadClock m w).clock = ⟨m, w, 0, .running⟩ := rfl
@[simp] theorem State.loadClock_creds (s : State) (m w : Nat) : (s.loadClock m w).creds = s.creds := rfl
@[simp] theorem State.loadClock_rooms (s : State) (m w : Nat) : (s.loadClock m w).rooms = s.rooms := rfl
@[simp] theorem State.loadClock_schedules (s : State) (m w : Nat) : (s.loadClock m w).schedules = s.schedules := rfl
@[simp] theorem State.loadClock_zones (s : State) (m w : Nat) : (s.loadClock m w).zones = s.zones := rfl
@[simp] theorem State.loadClock_places (s : State) (m w : Nat) : (s.loadClock m w).places = s.places := rfl
@[simp] theorem State.loadClock_segs (s : State) (m w : Nat) : (s.loadClock m w).segs = s.segs := rfl
@[simp] theorem State.loadClock_revocations (s : State) (m w : Nat) :
    (s.loadClock m w).revocations = s.revocations := rfl
@[simp] theorem State.loadClock_stays (s : State) (m w : Nat) : (s.loadClock m w).stays = s.stays := rfl
@[simp] theorem State.loadClock_prices (s : State) (m w : Nat) : (s.loadClock m w).prices = s.prices := rfl
@[simp] theorem State.loadClock_pendingCharges (s : State) (m w : Nat) :
    (s.loadClock m w).pendingCharges = s.pendingCharges := rfl
@[simp] theorem State.loadClock_windows (s : State) (m w : Nat) : (s.loadClock m w).windows = s.windows := rfl
@[simp] theorem State.loadClock_policy (s : State) (m w : Nat) : (s.loadClock m w).policy = s.policy := rfl
@[simp] theorem State.loadClock_trunk (s : State) (m w : Nat) : (s.loadClock m w).trunk = s.trunk := rfl
@[simp] theorem State.loadClock_request (s : State) (m w : Nat) : (s.loadClock m w).request = s.request := rfl
@[simp] theorem State.loadClock_faults (s : State) (m w : Nat) : (s.loadClock m w).faults = s.faults := rfl
@[simp] theorem State.loadClock_alarm (s : State) (m w : Nat) : (s.loadClock m w).alarm = s.alarm := rfl
@[simp] theorem State.loadClock_status (s : State) (m w : Nat) : (s.loadClock m w).status = s.status := rfl
@[simp] theorem State.loadClock_bypassStage (s : State) (m w : Nat) :
    (s.loadClock m w).bypassStage = s.bypassStage := rfl
@[simp] theorem State.loadClock_startRecord (s : State) (m w : Nat) :
    (s.loadClock m w).startRecord = s.startRecord := rfl
@[simp] theorem State.loadClock_notes (s : State) (m w : Nat) : (s.loadClock m w).notes = s.notes := rfl
@[simp] theorem State.loadClock_firstAttempt (s : State) (m w : Nat) :
    (s.loadClock m w).firstAttempt = s.firstAttempt := rfl
@[simp] theorem State.loadClock_dirty (s : State) (m w : Nat) : (s.loadClock m w).dirty = s.dirty := rfl
@[simp] theorem State.loadClock_writer (s : State) (m w : Nat) : (s.loadClock m w).writer = s.writer := rfl
@[simp] theorem State.loadClock_store (s : State) (m w : Nat) : (s.loadClock m w).store = s.store := rfl
@[simp] theorem State.loadClock_due (s : State) (m w : Nat) : (s.loadClock m w).due = s.due := rfl
@[simp] theorem State.loadClock_pending (s : State) (m w : Nat) : (s.loadClock m w).pending = s.pending := rfl

end Sys2Proof.Machine
end

