-- ==== Sys2Proof/Laws/Tab.lean ====
section
/-! SUPPORT. The laws of tables: reading after writing, and that every table operation keeps the canonical form. -/

-- Proofs are checked one after another: with many small ones at once Lean asks for more threads than the memory limit admits.
set_option Elab.async false

namespace Sys2Proof.Machine

variable {α : Type}

/-! ## Reading after writing -/

theorem Tab.look_write_self (t : Tab α) (k : Nat) (v : α) : Tab.look (Tab.write t k v) k = some v := by
  induction t with
  | nil => simp [Tab.write, Tab.look]
  | cons e t ih =>
    obtain ⟨j, w⟩ := e
    by_cases h1 : k < j
    · simp [Tab.write, Tab.look, h1]
    · by_cases h2 : j = k
      · simp [Tab.write, Tab.look, h2]
      · simp [Tab.write, Tab.look, h1, h2, ih]

theorem Tab.look_write_ne (t : Tab α) {k j : Nat} (v : α) (h : j ≠ k) :
    Tab.look (Tab.write t k v) j = Tab.look t j := by
  induction t with
  | nil => simp [Tab.write, Tab.look, h.symm]
  | cons e t ih =>
    obtain ⟨i, w⟩ := e
    by_cases h1 : k < i
    · simp [Tab.write, Tab.look, h1, h.symm]
    · by_cases h2 : i = k
      · subst h2; simp [Tab.write, Tab.look, h.symm]
      · simp only [Tab.write, h1, h2, if_false, Tab.look, ih]

theorem Tab.look_write (t : Tab α) (k j : Nat) (v : α) :
    Tab.look (Tab.write t k v) j = if j = k then some v else Tab.look t j := by
  by_cases h : j = k
  · subst h; simp [Tab.look_write_self]
  · simp [h, Tab.look_write_ne t v h]

theorem Tab.look_clear_ne (t : Tab α) {k j : Nat} (h : j ≠ k) : Tab.look (Tab.clear t k) j = Tab.look t j := by
  induction t with
  | nil => rfl
  | cons e t ih =>
    obtain ⟨i, w⟩ := e
    by_cases h2 : i = k
    · subst h2; simp [Tab.clear, Tab.look, h.symm]
    · simp only [Tab.clear, h2, if_false, Tab.look, ih]

theorem Tab.look_none_of_lt (t : Tab α) (k : Nat) (h : ∀ e ∈ t, k < e.1) : Tab.look t k = none := by
  induction t with
  | nil => rfl
  | cons e t ih =>
    obtain ⟨i, w⟩ := e
    have h1 : k < i := h (i, w) (by simp)
    have h2 : i ≠ k := by omega
    simpa [Tab.look, h2] using ih (fun e he => h e (by simp [he]))

theorem Tab.rising_cons {i : Nat} {w : α} {t : Tab α} :
    Tab.Rising ((i, w) :: t) ↔ (∀ e ∈ t, i < e.1) ∧ Tab.Rising t := by
  simp [Tab.Rising, Tab.keys, List.pairwise_cons]

theorem Tab.look_clear_self (t : Tab α) (k : Nat) (h : Tab.Rising t) : Tab.look (Tab.clear t k) k = none := by
  induction t with
  | nil => rfl
  | cons e t ih =>
    obtain ⟨i, w⟩ := e
    obtain ⟨h1, h2⟩ := Tab.rising_cons.mp h
    by_cases h3 : i = k
    · subst h3; simpa [Tab.clear] using Tab.look_none_of_lt t i h1
    · simpa [Tab.clear, Tab.look, h3] using ih h2

theorem Tab.look_clear (t : Tab α) (k j : Nat) (h : Tab.Rising t) :
    Tab.look (Tab.clear t k) j = if j = k then none else Tab.look t j := by
  by_cases hj : j = k
  · subst hj; simp [Tab.look_clear_self t j h]
  · simp [hj, Tab.look_clear_ne t hj]

/-- A read after a put gives the value put at its index, and what stood there before at every other. -/
theorem Tab.read_put [DecidableEq α] (d : α) (t : Tab α) (k j : Nat) (v : α) (h : Tab.Rising t) :
    Tab.read d (Tab.put d t k v) j = if j = k then v else Tab.read d t j := by
  unfold Tab.put Tab.read
  by_cases hv : v = d
  · subst hv
    simp only [if_true, Tab.look_clear t k j h]
    by_cases hj : j = k <;> simp [hj]
  · simp only [if_neg hv, Tab.look_write]
    by_cases hj : j = k <;> simp [hj]

theorem Tab.read_put_ne [DecidableEq α] (d : α) (t : Tab α) {k j : Nat} (v : α) (h : j ≠ k) :
    Tab.read d (Tab.put d t k v) j = Tab.read d t j := by
  unfold Tab.put Tab.read
  by_cases hv : v = d
  · simp [hv, Tab.look_clear_ne t h]
  · simp [hv, Tab.look_write_ne t v h]

/-! ## The canonical form is kept -/

theorem Tab.mem_write {t : Tab α} {k : Nat} {v : α} {e : Nat × α} (h : e ∈ Tab.write t k v) : e = (k, v) ∨ e ∈ t := by
  induction t with
  | nil => simpa [Tab.write] using h
  | cons f t ih =>
    obtain ⟨i, w⟩ := f
    simp only [Tab.write] at h
    split at h
    · simpa using h
    · split at h
      · rcases List.mem_cons.mp h with h | h
        · exact .inl h
        · exact .inr (by simp [h])
      · rcases List.mem_cons.mp h with h | h
        · exact .inr (by simp [h])
        · rcases ih h with h | h
          · exact .inl h
          · exact .inr (by simp [h])

theorem Tab.mem_clear {t : Tab α} {k : Nat} {e : Nat × α} (h : e ∈ Tab.clear t k) : e ∈ t := by
  induction t with
  | nil => simp [Tab.clear] at h
  | cons f t ih =>
    obtain ⟨i, w⟩ := f
    simp only [Tab.clear] at h
    split at h
    · simp [h]
    · rcases List.mem_cons.mp h with h | h
      · simp [h]
      · simp [ih h]

theorem Tab.write_rising {t : Tab α} (k : Nat) (v : α) (h : Tab.Rising t) : Tab.Rising (Tab.write t k v) := by
  induction t with
  | nil => simp [Tab.write, Tab.Rising, Tab.keys]
  | cons e t ih =>
    obtain ⟨i, w⟩ := e
    obtain ⟨h1, h2⟩ := Tab.rising_cons.mp h
    simp only [Tab.write]
    split
    · refine Tab.rising_cons.mpr ⟨fun e he => ?_, h⟩
      rcases List.mem_cons.mp he with rfl | he
      · assumption
      · have := h1 e he; omega
    · split
      · rename_i hi; subst hi; exact Tab.rising_cons.mpr ⟨h1, h2⟩
      · refine Tab.rising_cons.mpr ⟨fun e he => ?_, ih h2⟩
        rcases Tab.mem_write he with rfl | he
        · simp only; omega
        · exact h1 e he

theorem Tab.clear_rising {t : Tab α} (k : Nat) (h : Tab.Rising t) : Tab.Rising (Tab.clear t k) := by
  induction t with
  | nil => exact h
  | cons e t ih =>
    obtain ⟨i, w⟩ := e
    obtain ⟨h1, h2⟩ := Tab.rising_cons.mp h
    simp only [Tab.clear]
    split
    · exact h2
    · exact Tab.rising_cons.mpr ⟨fun e he => h1 e (Tab.mem_clear he), ih h2⟩

theorem Tab.put_wf [DecidableEq α] (d : α) {t : Tab α} (k : Nat) (v : α) (h : Tab.Wf d t) :
    Tab.Wf d (Tab.put d t k v) := by
  unfold Tab.put
  split
  · exact ⟨Tab.clear_rising k h.1, fun e he => h.2 e (Tab.mem_clear he)⟩
  · rename_i hv
    refine ⟨Tab.write_rising k v h.1, fun e he => ?_⟩
    rcases Tab.mem_write he with rfl | he
    · exact hv
    · exact h.2 e he

/-- An entry written and cleared again leaves no trace of the write. -/
theorem Tab.clear_write (t : Tab α) (k : Nat) (v : α) : Tab.clear (Tab.write t k v) k = Tab.clear t k ∨
    Tab.clear (Tab.write t k v) k = t := by
  induction t with
  | nil => exact .inr (by simp [Tab.write, Tab.clear])
  | cons e t ih =>
    obtain ⟨i, w⟩ := e
    simp only [Tab.write]
    split
    · exact .inr (by simp [Tab.clear])
    · split
      · rename_i h; subst h; exact .inl (by simp [Tab.clear])
      · rename_i h
        simp only [Tab.clear, h, if_false, List.cons.injEq, true_and]
        exact ih

/-- Mapping the entries keeps the indices. -/
theorem Tab.map_rising {β : Type} (f : α → β) {t : Tab α} (h : Tab.Rising t) :
    Tab.Rising (t.map (fun e => (e.1, f e.2))) := by
  have hk : Tab.keys (t.map (fun e => (e.1, f e.2))) = Tab.keys t := by simp [Tab.keys]
  simpa [Tab.Rising, hk] using h

/-! ## Looking up by membership, and free entries -/

theorem Tab.look_mem {t : Tab α} {k : Nat} {v : α} (h : Tab.look t k = some v) : (k, v) ∈ t := by
  induction t with
  | nil => simp [Tab.look] at h
  | cons e t ih =>
    obtain ⟨i, w⟩ := e
    simp only [Tab.look] at h
    split at h
    · rename_i hi; subst hi; simp_all
    · simp [ih h]

theorem Tab.mem_look {t : Tab α} {k : Nat} {v : α} (hr : Tab.Rising t) (h : (k, v) ∈ t) : Tab.look t k = some v := by
  induction t with
  | nil => simp at h
  | cons e t ih =>
    obtain ⟨i, w⟩ := e
    obtain ⟨h1, h2⟩ := Tab.rising_cons.mp hr
    rcases List.mem_cons.mp h with h | h
    · cases h; simp [Tab.look]
    · have h3 : i ≠ k := by have := h1 _ h; simp only at this; omega
      simpa [Tab.look, h3] using ih h2 h

/-- The lowest free index lists nothing and lies below the table's size. -/
theorem Tab.lowestFree_spec {t : Tab α} {n k : Nat} (h : Tab.lowestFree t n = some k) :
    Tab.look t k = none ∧ k < n ∧ ∀ j < k, (Tab.look t j).isSome := by
  unfold Tab.lowestFree at h
  obtain ⟨hk, as, bs, hab, hall⟩ := List.find?_eq_some_iff_append.mp h
  have hmem : k ∈ List.range n := by rw [hab]; simp
  refine ⟨by simpa using hk, List.mem_range.mp hmem, fun j hj => ?_⟩
  have hpos : k = as.length := by
    have h1 : (List.range n)[as.length]? = some k := by rw [hab]; simp
    have h2 := List.mem_range.mp hmem
    have h3 : as.length < n := by
      have := congrArg List.length hab
      simp at this; omega
    rw [List.getElem?_range h3] at h1
    simpa using h1.symm
  have hjn : j < n := by have := List.mem_range.mp hmem; omega
  have hin : j ∈ as := by
    have h1 : (List.range n)[j]? = some j := List.getElem?_range hjn
    rw [hab, List.getElem?_append_left (by omega)] at h1
    exact List.mem_of_getElem? h1
  have := hall j hin
  simpa [Option.isNone_iff_eq_none, Option.isSome_iff_ne_none] using this

/-! ## Ascending sets of numbers -/

theorem mem_insertNat {n x : Nat} {l : List Nat} : x ∈ insertNat n l ↔ x = n ∨ x ∈ l := by
  induction l with
  | nil => simp [insertNat]
  | cons m t ih =>
    simp only [insertNat]
    split
    · simp
    · split
      · rename_i h; subst h; simp
      · simp only [List.mem_cons, ih]; tauto

/-- Inserting keeps an ascending set ascending. -/
theorem insertNat_rising (n : Nat) {l : List Nat} (h : l.Pairwise (· < ·)) : (insertNat n l).Pairwise (· < ·) := by
  induction l with
  | nil => simp [insertNat]
  | cons m t ih =>
    have ⟨h1, h2⟩ := List.pairwise_cons.mp h
    simp only [insertNat]
    split
    · rename_i hn
      refine List.pairwise_cons.mpr ⟨fun x hx => ?_, h⟩
      rcases List.mem_cons.mp hx with rfl | hx
      · exact hn
      · exact hn.trans (h1 x hx)
    · split
      · exact h
      · refine List.pairwise_cons.mpr ⟨fun x hx => ?_, ih h2⟩
        rcases mem_insertNat.mp hx with rfl | hx
        · omega
        · exact h1 x hx

end Sys2Proof.Machine
end

