-- ==== Sys2Proof/Laws/Reads.lean ====
section
/-! SUPPORT. Reading one entry after writing one: the entry written, and every other as before. -/

-- Proofs are checked one after another: with many small ones at once Lean asks for more threads than the memory limit admits.
set_option Elab.async false

namespace Sys2Proof.Machine

/-- The codes of two fault kinds differ. -/
theorem faultCode_inj {k l : FaultKind} (h : faultCode k = faultCode l) : k = l := by
  cases k <;> cases l <;> first | rfl | (exact absurd h (by decide))

namespace State

theorem place_setPlace (s : State) (p q : Nat) (pl : Place) (h : Tab.Rising s.places) :
    (s.setPlace p pl).place q = if q = p then pl else s.place q :=
  Tab.read_put Place.reset s.places p q pl h

theorem place_modPlace (s : State) (p q : Nat) (f : Place → Place) (h : Tab.Rising s.places) :
    (s.modPlace p f).place q = if q = p then f (s.place p) else s.place q :=
  Tab.read_put Place.reset s.places p q _ h

theorem place_setPlace_ne (s : State) {p q : Nat} (pl : Place) (h : q ≠ p) : (s.setPlace p pl).place q = s.place q :=
  Tab.read_put_ne Place.reset s.places pl h

theorem seg_setSeg (s : State) (g k : Nat) (x : Segment) (h : Tab.Rising s.segs) :
    (s.setSeg g x).seg k = if k = g then x else s.seg k :=
  Tab.read_put Segment.reset s.segs g k x h

theorem seg_modSeg (s : State) (g k : Nat) (f : Segment → Segment) (h : Tab.Rising s.segs) :
    (s.modSeg g f).seg k = if k = g then f (s.seg g) else s.seg k :=
  Tab.read_put Segment.reset s.segs g k _ h

theorem seg_setSeg_ne (s : State) {g k : Nat} (x : Segment) (h : k ≠ g) : (s.setSeg g x).seg k = s.seg k :=
  Tab.read_put_ne Segment.reset s.segs x h

theorem zone_setZone (s : State) (z y : Nat) (x : ZoneState) (h : Tab.Rising s.zones) :
    (s.setZone z x).zone y = if y = z then x else s.zone y :=
  Tab.read_put ZoneState.normal s.zones z y x h

theorem schedule_setSchedule (s : State) (i j : Nat) (x : Schedule) (h : Tab.Rising s.schedules) :
    (s.setSchedule i x).schedule j = if j = i then x else s.schedule j :=
  Tab.read_put Schedule.absent s.schedules i j x h

theorem window_setWindow (s : State) (i j : Nat) (x : Window) (h : Tab.Rising s.windows) :
    (s.setWindow i x).window j = if j = i then x else s.window j :=
  Tab.read_put Window.disabled s.windows i j x h

theorem price_setPrice (s : State) (i j : Nat) (x : Price) (h : Tab.Rising s.prices) :
    (s.setPrice i x).price j = if j = i then x else s.price j :=
  Tab.read_put (⟨0, 0⟩ : Price) s.prices i j x h

theorem cred_setCred (s : State) (i j : Nat) (c : Cred) :
    (s.setCred i c).cred j = if j = i then some c else s.cred j :=
  Tab.look_write s.creds i j c

theorem cred_emptyCred (s : State) (i j : Nat) (h : Tab.Rising s.creds) :
    (s.emptyCred i).cred j = if j = i then none else s.cred j :=
  Tab.look_clear s.creds i j h

theorem fault_setFault (s : State) (k l : FaultKind) (r : FaultRec) (h : Tab.Rising s.faults) :
    (s.setFault k r).fault l = if l = k then r else s.fault l := by
  rw [State.fault, setFault_faults, Tab.read_put _ _ _ _ _ h]
  by_cases hl : l = k
  · simp [hl]
  · have : faultCode l ≠ faultCode k := fun e => hl (faultCode_inj e)
    simp [hl, this, State.fault]

end State

/-- R148: what stands before an entry at 0 is in the list, and is at 0. -/
theorem mem_gracesBefore {p c : Nat} {cs : List Charge} {y : Charge} (h : y ∈ State.gracesBefore p c cs) :
    y ∈ cs ∧ y.left = 0 := by
  unfold State.gracesBefore at h
  split at h
  · have hf := List.mem_filter.1 h
    exact ⟨(List.takeWhile_sublist _).subset hf.1, by simpa using hf.2⟩
  · cases h

end Sys2Proof.Machine
end

