-- ==== Sys2Proof/Laws/Changes.lean ====
section
/-! SUPPORT. Said once, what an operation can do to the state: a chain of changes, each to one part and each keeping the
invariants of that part. `Changes K s t`: t comes from s by changes to parts in `K` alone. -/

-- Proofs are checked one after another: with many small ones at once Lean asks for more threads than the memory limit admits.
set_option Elab.async false

namespace Sys2Proof.Machine

/-- The parts of the state. The queue of commands is no part: no change touches it. -/
inductive Part
  | clock
  | creds
  | rooms
  | schedules
  | zones
  | places
  | segs
  | revocations
  | stays
  | prices
  | charges
  | windows
  | policy
  | journal
  | notices
  | completions
  | trunk
  | request
  | faults
  | status
  | dirty
  | store
  | due
  deriving DecidableEq, Repr

/-- One change to one part. Each carries what it keeps. -/
inductive Change (K : List Part) : State → State → Prop
  | clock (s : State) (c : Clock) (hK : .clock ∈ K) (h : s.clock.InRange → c.InRange) : Change K s { s with clock := c }
  | creds (s : State) (x : Tab Cred) (hK : .creds ∈ K) (h : Tab.Rising s.creds → Tab.Rising x) :
      Change K s { s with creds := x }
  | rooms (s : State) (x : Tab Room) (hK : .rooms ∈ K) (h : Tab.Rising s.rooms → Tab.Rising x) :
      Change K s { s with rooms := x }
  | schedules (s : State) (x : Tab Schedule) (hK : .schedules ∈ K)
      (h : Tab.Wf Schedule.absent s.schedules → Tab.Wf Schedule.absent x) : Change K s { s with schedules := x }
  | zones (s : State) (x : Tab ZoneState) (hK : .zones ∈ K)
      (h : Tab.Wf ZoneState.normal s.zones → Tab.Wf ZoneState.normal x) : Change K s { s with zones := x }
  | place (s : State) (p : Nat) (pl : Place) (hK : .places ∈ K) (h : (s.place p).queueLen ≤ 4 → pl.queueLen ≤ 4)
      (hc : (s.place p).comps.length ≤ 12 → pl.comps.length ≤ 12) : Change K s (s.setPlace p pl)
  | seg (s : State) (g : Nat) (x : Segment) (hK : .segs ∈ K) : Change K s (s.setSeg g x)
  | revocations (s : State) (x : Tab Revocation) (hK : .revocations ∈ K)
      (h : Tab.Rising s.revocations → Tab.Rising x)
      (ho : s.RecordsOpen → ∀ e ∈ x, e.2.drops ≠ []) : Change K s { s with revocations := x }
  | stays (s : State) (x : Tab Stay) (hK : .stays ∈ K) (h : Tab.Rising s.stays → Tab.Rising x) :
      Change K s { s with stays := x }
  | prices (s : State) (x : Tab Price) (hK : .prices ∈ K)
      (h : Tab.Wf (⟨0, 0⟩ : Price) s.prices → Tab.Wf (⟨0, 0⟩ : Price) x) : Change K s { s with prices := x }
  | charges (s : State) (x : List Charge) (hK : .charges ∈ K) : Change K s { s with pendingCharges := x }
  | windows (s : State) (x : Tab Window) (hK : .windows ∈ K)
      (h : Tab.Wf Window.disabled s.windows → Tab.Wf Window.disabled x) : Change K s { s with windows := x }
  | policy (s : State) (x : Policy) (hK : .policy ∈ K) : Change K s { s with policy := x }
  | journal (s : State) (j : Journal) (hK : .journal ∈ K) (h : s.journal.Contiguous → j.Contiguous) :
      Change K s { s with journal := j }
  | notices (s : State) (ns : List Notice) (hK : .notices ∈ K) (h : s.trunk.notices.length ≤ 4 → ns.length ≤ 4) :
      Change K s { s with trunk := { s.trunk with notices := ns } }
  | completions (s : State) (cs ws : List Completion) (hK : .completions ∈ K)
      (h : s.trunk.completions.length ≤ 8 → cs.length ≤ 8) :
      Change K s { s with trunk := { s.trunk with completions := cs, waitingCompletions := ws } }
  | trunk (s : State) (t : Trunk) (hK : .trunk ∈ K) (h : s.trunk.Bounded → t.Bounded) : Change K s { s with trunk := t }
  | request (s : State) (r : Option Held) (hK : .request ∈ K) : Change K s { s with request := r }
  | faults (s : State) (fs : Tab FaultRec) (a : Bool) (hK : .faults ∈ K)
      (h : Tab.Wf FaultRec.clear s.faults → Tab.Wf FaultRec.clear fs)
      (ha : Tab.Rising s.faults → s.AlarmTrue → a = { s with faults := fs }.alarmDue) :
      Change K s { s with faults := fs, alarm := a }
  | status (s : State) (st : UnitStatus) (bs : Option Nat) (sr : Option StartRecord) (ns : List Note) (fa : Attempt)
      (hK : .status ∈ K) :
      Change K s { s with status := st, bypassStage := bs, startRecord := sr, notes := ns, firstAttempt := fa }
  | dirty (s : State) (d : List Nat) (w : Writer) (hK : .dirty ∈ K) (h : s.DirtyRising → d.Pairwise (· < ·)) :
      Change K s { s with dirty := d, writer := w }
  | store (s : State) (x : Tab (List Byte)) (hK : .store ∈ K) (h : Tab.Wf blankBlock s.store → Tab.Wf blankBlock x) :
      Change K s { s with store := x }
  | due (s : State) (d : List Due) (hK : .due ∈ K) : Change K s { s with due := d }

/-- A chain of changes. -/
abbrev Changes (K : List Part) : State → State → Prop := Relation.ReflTransGen (Change K)

namespace Changes

variable {K L : List Part} {a b c : State}

theorem refl (s : State) : Changes K s s := Relation.ReflTransGen.refl

theorem one (h : Change K a b) : Changes K a b := Relation.ReflTransGen.single h

theorem change_mono (hL : ∀ x ∈ L, x ∈ K) (h : Change L a b) : Change K a b := by
  cases h with
  | clock c hK h => exact .clock _ _ (hL _ hK) h
  | creds x hK h => exact .creds _ _ (hL _ hK) h
  | rooms x hK h => exact .rooms _ _ (hL _ hK) h
  | schedules x hK h => exact .schedules _ _ (hL _ hK) h
  | zones x hK h => exact .zones _ _ (hL _ hK) h
  | place p pl hK h hc => exact .place _ _ _ (hL _ hK) h hc
  | seg g x hK => exact .seg _ _ _ (hL _ hK)
  | revocations x hK h ho => exact .revocations _ _ (hL _ hK) h ho
  | stays x hK h => exact .stays _ _ (hL _ hK) h
  | prices x hK h => exact .prices _ _ (hL _ hK) h
  | charges x hK => exact .charges _ _ (hL _ hK)
  | windows x hK h => exact .windows _ _ (hL _ hK) h
  | policy x hK => exact .policy _ _ (hL _ hK)
  | journal j hK h => exact .journal _ _ (hL _ hK) h
  | notices ns hK h => exact .notices _ _ (hL _ hK) h
  | completions cs ws hK h => exact .completions _ _ _ (hL _ hK) h
  | trunk t hK h => exact .trunk _ _ (hL _ hK) h
  | request r hK => exact .request _ _ (hL _ hK)
  | faults fs a hK h ha => exact .faults _ _ _ (hL _ hK) h ha
  | status st bs sr ns fa hK => exact .status _ _ _ _ _ _ (hL _ hK)
  | dirty d w hK h => exact .dirty _ _ _ (hL _ hK) h
  | store x hK h => exact .store _ _ (hL _ hK) h
  | due d hK => exact .due _ _ (hL _ hK)

theorem mono (hL : ∀ x ∈ L, x ∈ K) (h : Changes L a b) : Changes K a b :=
  Relation.ReflTransGen.mono (fun _ _ => change_mono hL) _ _ h

/-- One operation after another. -/
theorem comp (h : Changes K a b) (g : Changes L b c) (hL : ∀ x ∈ L, x ∈ K := by decide) : Changes K a c :=
  Relation.ReflTransGen.trans h (g.mono hL)

/-- An operation used inside a larger one. -/
theorem up (g : Changes L b c) (hL : ∀ x ∈ L, x ∈ K := by decide) : Changes K b c := g.mono hL

theorem ite {p : Prop} [Decidable p] (h1 : p → Changes K a b) (h2 : ¬p → Changes K a c) :
    Changes K a (if p then b else c) := by
  split
  · exact h1 ‹_›
  · exact h2 ‹_›

/-- An operation taken over a list. -/
theorem fold {α : Type} {f : State → α → State} (h : ∀ s x, Changes K s (f s x)) (l : List α) (s : State) :
    Changes K s (l.foldl f s) := by
  induction l generalizing s with
  | nil => exact refl s
  | cons x l ih => exact (h s x).comp (ih (f s x)) (fun _ hx => hx)

/-- An operation taken over the entries of a list, of each of which something is known. -/
theorem fold_mem {α : Type} {f : State → α → State} {l : List α} (h : ∀ x ∈ l, ∀ s, Changes K s (f s x)) (s : State) :
    Changes K s (l.foldl f s) := by
  induction l generalizing s with
  | nil => exact refl s
  | cons x l ih =>
    exact (h x (by simp) s).comp (ih (fun y hy => h y (by simp [hy])) (f s x)) (fun _ hx => hx)

/-! ## What a chain leaves alone -/

/-- A value that no change to a part in `K` alters is the same at the end of a chain. -/
theorem keeps {β : Type} (f : State → β) (hf : ∀ s t, Change K s t → f t = f s) (h : Changes K a b) : f b = f a := by
  induction h with
  | refl => rfl
  | tail _ h ih => rw [hf _ _ h, ih]

theorem pending_eq (h : Changes K a b) : b.pending = a.pending := by
  refine keeps State.pending (fun s t h => ?_) h
  cases h <;> rfl

theorem clock_eq (h : Changes K a b) (hK : Part.clock ∉ K := by decide) : b.clock = a.clock := by
  refine keeps State.clock (fun s t h => ?_) h
  cases h <;> first | rfl | contradiction

theorem creds_eq (h : Changes K a b) (hK : Part.creds ∉ K := by decide) : b.creds = a.creds := by
  refine keeps State.creds (fun s t h => ?_) h
  cases h <;> first | rfl | contradiction

theorem rooms_eq (h : Changes K a b) (hK : Part.rooms ∉ K := by decide) : b.rooms = a.rooms := by
  refine keeps State.rooms (fun s t h => ?_) h
  cases h <;> first | rfl | contradiction

theorem schedules_eq (h : Changes K a b) (hK : Part.schedules ∉ K := by decide) : b.schedules = a.schedules := by
  refine keeps State.schedules (fun s t h => ?_) h
  cases h <;> first | rfl | contradiction

theorem zones_eq (h : Changes K a b) (hK : Part.zones ∉ K := by decide) : b.zones = a.zones := by
  refine keeps State.zones (fun s t h => ?_) h
  cases h <;> first | rfl | contradiction

theorem places_eq (h : Changes K a b) (hK : Part.places ∉ K := by decide) : b.places = a.places := by
  refine keeps State.places (fun s t h => ?_) h
  cases h <;> first | rfl | contradiction

theorem segs_eq (h : Changes K a b) (hK : Part.segs ∉ K := by decide) : b.segs = a.segs := by
  refine keeps State.segs (fun s t h => ?_) h
  cases h <;> first | rfl | contradiction

theorem revocations_eq (h : Changes K a b) (hK : Part.revocations ∉ K := by decide) :
    b.revocations = a.revocations := by
  refine keeps State.revocations (fun s t h => ?_) h
  cases h <;> first | rfl | contradiction

theorem stays_eq (h : Changes K a b) (hK : Part.stays ∉ K := by decide) : b.stays = a.stays := by
  refine keeps State.stays (fun s t h => ?_) h
  cases h <;> first | rfl | contradiction

theorem prices_eq (h : Changes K a b) (hK : Part.prices ∉ K := by decide) : b.prices = a.prices := by
  refine keeps State.prices (fun s t h => ?_) h
  cases h <;> first | rfl | contradiction

theorem charges_eq (h : Changes K a b) (hK : Part.charges ∉ K := by decide) :
    b.pendingCharges = a.pendingCharges := by
  refine keeps State.pendingCharges (fun s t h => ?_) h
  cases h <;> first | rfl | contradiction

theorem windows_eq (h : Changes K a b) (hK : Part.windows ∉ K := by decide) : b.windows = a.windows := by
  refine keeps State.windows (fun s t h => ?_) h
  cases h <;> first | rfl | contradiction

theorem policy_eq (h : Changes K a b) (hK : Part.policy ∉ K := by decide) : b.policy = a.policy := by
  refine keeps State.policy (fun s t h => ?_) h
  cases h <;> first | rfl | contradiction

theorem journal_eq (h : Changes K a b) (hK : Part.journal ∉ K := by decide) : b.journal = a.journal := by
  refine keeps State.journal (fun s t h => ?_) h
  cases h <;> first | rfl | contradiction

theorem request_eq (h : Changes K a b) (hK : Part.request ∉ K := by decide) : b.request = a.request := by
  refine keeps State.request (fun s t h => ?_) h
  cases h <;> first | rfl | contradiction

theorem faults_eq (h : Changes K a b) (hK : Part.faults ∉ K := by decide) :
    b.faults = a.faults ∧ b.alarm = a.alarm := by
  have h2 := keeps (fun s : State => (s.faults, s.alarm)) (fun s t h => by
    cases h <;> first | rfl | contradiction) h
  simpa using h2

theorem status_eq (h : Changes K a b) (hK : Part.status ∉ K := by decide) :
    b.status = a.status ∧ b.bypassStage = a.bypassStage ∧ b.startRecord = a.startRecord ∧ b.notes = a.notes
      ∧ b.firstAttempt = a.firstAttempt := by
  have h2 := keeps (fun s : State => (s.status, s.bypassStage, s.startRecord, s.notes, s.firstAttempt)) (fun s t h => by
    cases h <;> first | rfl | contradiction) h
  simpa using h2

theorem dirty_eq (h : Changes K a b) (hK : Part.dirty ∉ K := by decide) :
    b.dirty = a.dirty ∧ b.writer = a.writer := by
  have h2 := keeps (fun s : State => (s.dirty, s.writer)) (fun s t h => by
    cases h <;> first | rfl | contradiction) h
  simpa using h2

theorem store_eq (h : Changes K a b) (hK : Part.store ∉ K := by decide) : b.store = a.store := by
  refine keeps State.store (fun s t h => ?_) h
  cases h <;> first | rfl | contradiction

theorem due_eq (h : Changes K a b) (hK : Part.due ∉ K := by decide) : b.due = a.due := by
  refine keeps State.due (fun s t h => ?_) h
  cases h <;> first | rfl | contradiction

/-- A chain that leaves the trunk's own part, the completions and the notices alone leaves the whole trunk alone. -/
theorem trunk_eq (h : Changes K a b) (h1 : Part.trunk ∉ K := by decide) (h2 : Part.notices ∉ K := by decide)
    (h3 : Part.completions ∉ K := by decide) : b.trunk = a.trunk := by
  refine keeps State.trunk (fun s t h => ?_) h
  cases h <;> first | rfl | contradiction

/-- A chain that leaves the trunk's own part and the completions alone changes the notices at most. -/
theorem trunk_notices (h : Changes K a b) (h1 : Part.trunk ∉ K := by decide)
    (h3 : Part.completions ∉ K := by decide) : b.trunk = { a.trunk with notices := b.trunk.notices } := by
  have h2 := keeps (fun s : State => { s.trunk with notices := [] }) (fun s t h => by
    cases h <;> first | rfl | contradiction) h
  have h4 : b.trunk = { ({ b.trunk with notices := [] } : Trunk) with notices := b.trunk.notices } := rfl
  rw [h4]
  simp only at h2
  rw [h2]

/-- A chain that leaves the trunk's own part alone changes the completions and the notices at most. -/
theorem trunk_local (h : Changes K a b) (h1 : Part.trunk ∉ K := by decide) :
    b.trunk = { a.trunk with
      notices := b.trunk.notices, completions := b.trunk.completions
      waitingCompletions := b.trunk.waitingCompletions } := by
  have h2 := keeps (fun s : State => { s.trunk with notices := [], completions := [], waitingCompletions := [] })
    (fun s t h => by cases h <;> first | rfl | contradiction) h
  have h4 : b.trunk = { ({ b.trunk with notices := [], completions := [], waitingCompletions := [] } : Trunk) with
      notices := b.trunk.notices, completions := b.trunk.completions
      waitingCompletions := b.trunk.waitingCompletions } := rfl
  rw [h4]
  simp only at h2
  rw [h2]

/-! ## What a chain keeps: whatever each change keeps -/

/-- A condition on states that every change keeps is kept by a chain. -/
theorem inv {P : State → Prop} (hP : ∀ s t, Change K s t → P s → P t) (h : Changes K a b) (ha : P a) : P b := by
  induction h with
  | refl => exact ha
  | tail _ h ih => exact hP _ _ h ih

end Changes

end Sys2Proof.Machine
end

