-- ==== Sys2Proof/Laws/ChangesJournal.lean ====
section
/-! SUPPORT. What the Fault Unit's and the Entry Journal's operations change. -/

-- Proofs are checked one after another: with many small ones at once Lean asks for more threads than the memory limit admits.
set_option Elab.async false

namespace Sys2Proof.Machine

/-- A fault occurrence changes its record, the pin and the notice queue. -/
abbrev kFault : List Part := [.faults, .notices]

/-- A record handed to the Entry Journal may also reserve numbers and give faults. -/
abbrev kLog : List Part := [.faults, .notices, .journal, .dirty]

/-! ## Faults -/

/-- The pin depends only on whether each kind is SET, MASKED and of severity ALARM. -/
theorem alarmDue_congr {s t : State}
    (h : ∀ k, (s.fault k).set = (t.fault k).set ∧ (s.fault k).masked = (t.fault k).masked ∧
      (s.fault k).severity = (t.fault k).severity) : s.alarmDue = t.alarmDue := by
  unfold State.alarmDue
  congr 1
  funext k
  obtain ⟨h1, h2, h3⟩ := h k
  simp only [State.severity, h1, h2, h3]
  rfl

theorem setFault_wf (s : State) (k : FaultKind) (r : FaultRec) (h : Tab.Wf FaultRec.clear s.faults) :
    Tab.Wf FaultRec.clear (s.setFault k r).faults := Tab.put_wf _ _ _ h

/-- The whole of what a fault occurrence does: the record of its kind, the pin, and at most one notice. -/
theorem giveFault_ch (k : FaultKind) (d : List Byte) (s : State) : Changes kFault s (s.giveFault k d) := by
  unfold State.giveFault
  by_cases hset : (s.fault k).set
  · simp only [hset, if_true]
    generalize hr : (⟨true, (s.fault k).masked, (s.fault k).severity, (s.fault k).detail,
      min 255 ((s.fault k).occurrences + 1)⟩ : FaultRec) = r
    refine .one (.faults s _ s.alarm (by decide) (setFault_wf s k r) (fun ht ha => ?_))
    rw [show s.alarm = s.alarmDue from ha]
    refine alarmDue_congr (fun l => ?_)
    have h := State.fault_setFault s k l r ht
    change _ = ((s.setFault k r).fault l).set ∧ _ = ((s.setFault k r).fault l).masked ∧
      _ = ((s.setFault k r).fault l).severity
    rw [h]
    by_cases hl : l = k
    · subst hl; subst hr; simp [hset]
    · simp [hl]
  · have h1 : Changes kFault s
        ((s.setFault k { s.fault k with set := true, detail := some d, occurrences := 1 }).driveAlarm) :=
      .one (.faults s _ _ (by decide) (setFault_wf s k _) (fun _ _ => rfl))
    simp only [hset, Bool.false_eq_true, if_false]
    split
    · exact h1
    · refine Changes.comp h1 (L := kFault) (.one ?_)
      unfold State.buildNotice
      split
      · exact .notices _ _ (by decide) id
      · split
        · refine .notices _ _ (by decide) (fun _ => ?_)
          simp only [List.length_append, List.length_singleton]; omega
        · exact .notices _ _ (by decide) id

theorem faultAt_ch (k : FaultKind) (p : Nat) (s : State) : Changes kFault s (s.faultAt k p) := giveFault_ch k _ s

theorem faultWith_ch (k : FaultKind) (w n : Nat) (s : State) : Changes kFault s (s.faultWith k w n) :=
  giveFault_ch k _ s

/-! ## The dirty set -/

theorem markDirty_ch (b : Nat) (s : State) : Changes [.dirty] s (s.markDirty b) :=
  .one (.dirty s _ _ (by decide) (insertNat_rising b))

/-! ## The journal -/

/-- A new pending limit is not below the limit. -/
theorem reserve_ch (s : State) : Changes [.journal, .dirty] s s.reserve := by
  unfold State.reserve
  refine .ite (fun h => ?_) (fun _ => .refl s)
  refine (Changes.one (.journal s { s.journal with pendingLimit := some (min (s.journal.limit + 256) seqEnd) }
    (by decide) (fun hj => ?_))).comp (markDirty_ch _ _)
  refine { releaseCursor := hj.1, cursorNext := hj.2, nextLimit := hj.3, capacity := hj.4, numbers := hj.5,
           limitRises := ?_ }
  intro n hn
  simp only [Journal.reservationDue, Bool.and_eq_true, decide_eq_true_eq] at h
  simp only [Option.some.injEq] at hn
  subst hn
  simp only
  omega

/-- A stored record bears the next number. -/
theorem append_contiguous (s : State) (d : Draft) (hs : s.journal.storable) (hj : s.journal.Contiguous) :
    (s.append d).journal.Contiguous := by
  simp only [Journal.storable, Journal.held, Bool.and_eq_true, decide_eq_true_eq] at hs
  obtain ⟨⟨⟨-, h1⟩, -⟩, h2⟩ := hs
  replace h2 : s.journal.next - s.journal.release < 2048 := of_decide_eq_true h2
  have h3 := hj.releaseCursor
  have h4 := hj.cursorNext
  refine { releaseCursor := h3, cursorNext := ?_, nextLimit := ?_, capacity := ?_, numbers := ?_,
           limitRises := hj.limitRises }
  · simp only [State.append]; omega
  · simp only [State.append]; omega
  · simp only [State.append]; omega
  · have h5 : s.journal.next + 1 - s.journal.release = s.journal.next - s.journal.release + 1 := by omega
    have h6 : s.journal.release + (s.journal.next - s.journal.release) = s.journal.next := by omega
    simp only [State.append, List.map_append, hj.numbers, h5, List.range'_concat, List.map_cons, List.map_nil,
      State.stamp, Nat.one_mul, h6]

theorem countGap_ch (s : State) : Changes [.journal] s s.countGap :=
  .one (.journal s _ (by decide) (fun hj => ⟨hj.1, hj.2, hj.3, hj.4, hj.5, hj.6⟩))

theorem fullFault_ch (s : State) : Changes kFault s s.fullFault := by
  unfold State.fullFault
  exact .ite (fun _ => faultWith_ch ..) (fun _ => .refl s)

theorem highFault_ch (s : State) : Changes kFault s s.highFault := by
  unfold State.highFault
  exact .ite (fun _ => faultWith_ch ..) (fun _ => .refl s)

/-- The whole of what handing a record over does. -/
theorem handOver_ch (d : Draft) (s : State) : Changes kLog s (s.handOver d) := by
  unfold State.handOver
  refine .ite (fun h => ?_) (fun _ => ?_)
  · have h1 : Changes kLog s (s.append d) := .one (.journal s _ (by decide) (append_contiguous s d h))
    exact ((h1.comp (highFault_ch _)).comp (fullFault_ch _)).comp (reserve_ch _)
  · exact (Changes.up (K := kLog) (countGap_ch s)).comp (fullFault_ch _)

theorem log_ch (k : RecKind) (w : Spot) (bs : List Byte) (s : State) : Changes kLog s (s.log k w bs) := handOver_ch _ s

theorem logCard_ch (k : RecKind) (w : Spot) (card : Nat) (bs : List Byte) (s : State) :
    Changes kLog s (s.logCard k w card bs) := handOver_ch _ s

theorem storeGap_ch (s : State) : Changes kLog s s.storeGap := by
  unfold State.storeGap
  refine .ite (fun _ => ?_) (fun _ => .refl s)
  have h1 := handOver_ch ⟨.journalGap, .unit, none, none, le 2 s.journal.gap, Marks.none, none⟩ s
  generalize s.handOver _ = t at h1
  exact h1.comp (L := kLog) (.one (.journal t { t.journal with gap := 0 } (by decide)
    (fun hj => ⟨hj.1, hj.2, hj.3, hj.4, hj.5, hj.6⟩)))

/-- What is freed lies below the send cursor. -/
theorem freedBy_le (j : Journal) (n : Nat) (hj : j.Contiguous) : j.release + j.freedBy n ≤ j.cursor := by
  have := hj.releaseCursor
  unfold Journal.freedBy Journal.effectiveMark
  by_cases h0 : j.cursor = 0
  · simp [h0]; omega
  · simp only [h0, if_false]
    split <;> omega

theorem releaseTo_ch (n : Nat) (s : State) : Changes kLog s (State.releaseTo n s) := by
  unfold State.releaseTo
  simp only
  refine .ite (fun _ => .refl s) (fun _ => ?_)
  have h1 : Changes kLog s { s with journal := { s.journal with
      ring := s.journal.ring.drop (s.journal.freedBy n)
      release := s.journal.release + s.journal.freedBy n } } := by
    refine .one (.journal s _ (by decide) (fun hj => ?_))
    have h2 := freedBy_le s.journal n hj
    have h3 := hj.cursorNext
    have h4 := hj.capacity
    refine { releaseCursor := h2, cursorNext := h3, nextLimit := hj.nextLimit, capacity := ?_, numbers := ?_,
             limitRises := hj.limitRises }
    · simp only; omega
    · have h5 : s.journal.next - s.journal.release - s.journal.freedBy n
          = s.journal.next - (s.journal.release + s.journal.freedBy n) := by omega
      simp only [List.map_drop, hj.numbers, List.drop_range', Nat.mul_one, h5]
  exact h1.comp (storeGap_ch _)

theorem rewindTo_ch (n : Nat) (s : State) : Changes [.journal] s (State.rewindTo n s) := by
  unfold State.rewindTo
  refine .ite (fun _ => .refl s) (fun h => ?_)
  refine .one (.journal s _ (by decide) (fun hj => ?_))
  have h1 := hj.releaseCursor
  have h2 := hj.cursorNext
  refine { releaseCursor := ?_, cursorNext := ?_, nextLimit := hj.nextLimit, capacity := hj.capacity,
           numbers := hj.numbers, limitRises := hj.limitRises }
  · simp only; omega
  · simp only; omega

/-! ## FAULT CLEAR -/

/-- One state differs from another in the fault records at most, which keep their canonical form. -/
structure FaultsOnly (s t : State) : Prop where
  same : t = { s with faults := t.faults }
  wf : Tab.Wf FaultRec.clear s.faults → Tab.Wf FaultRec.clear t.faults

theorem FaultsOnly.refl (s : State) : FaultsOnly s s := ⟨rfl, id⟩

theorem FaultsOnly.trans {s t u : State} (h : FaultsOnly s t) (g : FaultsOnly t u) : FaultsOnly s u := by
  refine ⟨?_, fun hw => g.wf (h.wf hw)⟩
  rw [g.same]
  conv_lhs => rw [h.same]

theorem FaultsOnly.fold {α : Type} {f : State → α → State} (hf : ∀ s a, FaultsOnly s (f s a)) (l : List α)
    (s : State) : FaultsOnly s (l.foldl f s) := by
  induction l generalizing s with
  | nil => exact .refl s
  | cons a l ih => exact (hf s a).trans (ih _)

theorem FaultsOnly.set (s : State) (k : FaultKind) (r : FaultRec) : FaultsOnly s (s.setFault k r) :=
  ⟨rfl, setFault_wf s k r⟩

/-- The records of the kinds change; the pin is driven at the end. -/
theorem clearFaults_ch (clear : Nat) (mask : Option Nat) (changes : List (FaultKind × Severity)) (s : State) :
    Changes [.faults] s (clearFaults clear mask changes s) := by
  have h1 := FaultsOnly.fold (f := applySeverity) (fun s a => .set s _ _) changes s
  have h2 : FaultsOnly s (match mask with
      | none => changes.foldl applySeverity s
      | some m => faultKinds.foldl (applyMask m) (changes.foldl applySeverity s)) := by
    cases mask with
    | none => exact h1
    | some m => exact h1.trans (.fold (f := applyMask m) (fun s a => .set s _ _) _ _)
  have h3 := h2.trans (.fold (f := applyClear clear) (fun s a => by
    unfold applyClear
    split
    · exact .set s _ _
    · exact .refl s) faultKinds _)
  unfold clearFaults
  simp only
  generalize List.foldl (applyClear clear) _ faultKinds = t at h3
  obtain ⟨hs, hw⟩ := h3
  generalize t.faults = fs at hs hw
  subst hs
  exact .one (.faults s fs _ (by decide) hw (fun _ _ => rfl))

end Sys2Proof.Machine
end

