-- ==== Sys2Proof/Laws/ChangesCache.lean ====
section
/-! SUPPORT. What the table writes, the Cache Manager's and the Revocation List's operations change. -/

-- Proofs are checked one after another: with many small ones at once Lean asks for more threads than the memory limit admits.
set_option Elab.async false

namespace Sys2Proof.Machine

/-- The parts of the Cache Manager. -/
abbrev kCache : List Part := [.places, .segs]

/-- The parts that a revocation start, a confirmation or a deadline changes. -/
abbrev kRev : List Part := [.faults, .notices, .journal, .dirty, .places, .segs, .creds, .revocations]

/-! ## Places, segments and table entries -/

theorem setPlace_ch (s : State) (p : Nat) (pl : Place) (h : (s.place p).queueLen ≤ 4 → pl.queueLen ≤ 4)
    (hc : pl.comps = (s.place p).comps := by first | rfl | simp) : Changes [.places] s (s.setPlace p pl) :=
  .one (.place s p pl (by decide) h (fun hp => by rw [hc]; exact hp))

theorem modPlace_ch (s : State) (p : Nat) {f : Place → Place} (h : Place.QueueOk f)
    (hc : ∀ pl, (f pl).comps = pl.comps := by intro pl; first | rfl | simp) : Changes [.places] s (s.modPlace p f) :=
  setPlace_ch s p _ (h _) (hc _)

/-- A change of a place that leaves its queue alone. -/
theorem modPlace_same (s : State) (p : Nat) {f : Place → Place} (h : ∀ pl, (f pl).queueLen = pl.queueLen)
    (hc : ∀ pl, (f pl).comps = pl.comps := by intro pl; first | rfl | simp) : Changes [.places] s (s.modPlace p f) :=
  modPlace_ch s p (fun pl hp => by rw [h]; exact hp) hc

theorem setPlace_same (s : State) (p : Nat) {pl : Place} (h : pl.queueLen = (s.place p).queueLen)
    (hc : pl.comps = (s.place p).comps := by first | rfl | simp) : Changes [.places] s (s.setPlace p pl) :=
  setPlace_ch s p pl (fun hp => by rw [h]; exact hp) hc

/-- A change of a place's compartments, which stay at most twelve (R133). -/
theorem modPlace_comps (s : State) (p : Nat) {f : Place → Place} (h : Place.QueueOk f)
    (hc : ∀ pl, pl.comps.length ≤ 12 → (f pl).comps.length ≤ 12) : Changes [.places] s (s.modPlace p f) :=
  .one (.place s p _ (by decide) (h _) (hc _))

theorem setSeg_ch (s : State) (g : Nat) (x : Segment) : Changes [.segs] s (s.setSeg g x) := .one (.seg s g x (by decide))

theorem modSeg_ch (s : State) (g : Nat) (f : Segment → Segment) : Changes [.segs] s (s.modSeg g f) := setSeg_ch s g _

theorem setCred_ch (s : State) (i : Nat) (c : Cred) : Changes [.creds, .dirty] s (s.setCred i c) :=
  (Changes.one (.creds s _ (by decide) (Tab.write_rising i c))).comp (markDirty_ch _ _)

theorem emptyCred_ch (s : State) (i : Nat) : Changes [.creds, .dirty] s (s.emptyCred i) :=
  (Changes.one (.creds s _ (by decide) (Tab.clear_rising i))).comp (markDirty_ch _ _)

theorem setRoom_ch (s : State) (i : Nat) (r : Room) : Changes [.rooms, .dirty] s (s.setRoom i r) :=
  (Changes.one (.rooms s _ (by decide) (Tab.write_rising i r))).comp (markDirty_ch _ _)

theorem clearRoom_ch (s : State) (i : Nat) : Changes [.rooms, .dirty] s (s.clearRoom i) :=
  (Changes.one (.rooms s _ (by decide) (Tab.clear_rising i))).comp (markDirty_ch _ _)

theorem setStay_ch (s : State) (i : Nat) (x : Stay) : Changes [.stays, .dirty] s (s.setStay i x) :=
  (Changes.one (.stays s _ (by decide) (Tab.write_rising i x))).comp (markDirty_ch _ _)

theorem clearStay_ch (s : State) (i : Nat) : Changes [.stays, .dirty] s (s.clearStay i) :=
  (Changes.one (.stays s _ (by decide) (Tab.clear_rising i))).comp (markDirty_ch _ _)

theorem setZone_ch (s : State) (z : Nat) (x : ZoneState) : Changes [.zones, .dirty] s (s.setZone z x) :=
  (Changes.one (.zones s _ (by decide) (Tab.put_wf _ z x))).comp (markDirty_ch _ _)

theorem setSchedule_ch (s : State) (i : Nat) (x : Schedule) : Changes [.schedules, .dirty] s (s.setSchedule i x) :=
  (Changes.one (.schedules s _ (by decide) (Tab.put_wf _ i x))).comp (markDirty_ch _ _)

theorem setWindow_ch (s : State) (i : Nat) (x : Window) : Changes [.windows, .dirty] s (s.setWindow i x) :=
  (Changes.one (.windows s _ (by decide) (Tab.put_wf _ i x))).comp (markDirty_ch _ _)

theorem setPrice_ch (s : State) (i : Nat) (x : Price) : Changes [.prices, .dirty] s (s.setPrice i x) :=
  (Changes.one (.prices s _ (by decide) (Tab.put_wf _ i x))).comp (markDirty_ch _ _)

theorem setPolicy_ch (s : State) (x : Policy) : Changes [.policy, .dirty] s (s.setPolicy x) :=
  (Changes.one (.policy s _ (by decide))).comp (markDirty_ch _ _)

theorem setCharges_ch (s : State) (cs : List Charge) : Changes [.charges, .dirty] s (s.setCharges cs) :=
  (Changes.one (.charges s _ (by decide))).comp (markDirty_ch _ _)

/-! ## The push engine (R108 to R111) -/

theorem walkPass_ch (p : Nat) (guest : Bool) (cs : List (Nat × Cred)) (pos : Nat) (s : State) :
    Changes [.places] s (State.walkPass p guest pos cs s).1 := by
  induction cs generalizing pos s with
  | nil => exact .refl s
  | cons e cs ih =>
    simp only [State.walkPass]
    split
    · exact .refl s
    · split
      · split
        · exact (modPlace_ch s p (Place.addEntry_ok _ _ _)).comp (ih _ _)
        · exact .refl s
      · exact ih _ _

theorem walkFrom_ch (g : Nat) (guest : Bool) (s : State) : Changes [.places] s (State.walkFrom g guest s).1 :=
  walkPass_ch ..

theorem walkOther_ch (g : Nat) (s : State) : Changes kCache s (State.walkOther g s) := by
  have h : Changes kCache s (State.walkFrom g false s).1 := (walkFrom_ch g false s).up
  unfold State.walkOther
  split <;> rename_i heq <;> rw [heq] at h <;> exact h.comp (modSeg_ch ..)

theorem enterOther_ch (g : Nat) (s : State) : Changes kCache s (State.enterOther g s) :=
  (Changes.up (modSeg_ch ..)).comp (walkOther_ch g _)

theorem walk_ch (g : Nat) (s : State) : Changes kCache s (State.walk g s) := by
  unfold State.walk
  split
  · exact walkOther_ch g s
  · have h : Changes kCache s (State.walkFrom g true s).1 := (walkFrom_ch g true s).up
    split <;> rename_i heq <;> rw [heq] at h
    · exact h.comp (modSeg_ch ..)
    · exact h.comp (enterOther_ch g _)
    · exact h.comp (enterOther_ch g _)

theorem startReload_ch (g : Nat) (s : State) : Changes [.segs] s (State.startReload g s) := by
  unfold State.startReload
  simp only
  split
  · split
    · exact setSeg_ch ..
    · exact .refl s
  · exact .refl s

theorem pump_ch (g n : Nat) (s : State) : Changes kCache s (State.pump g n s) := by
  induction n generalizing s with
  | zero => exact .refl s
  | succ n ih =>
    simp only [State.pump]
    split
    · exact .refl s
    · split
      · split
        · exact ((Changes.up (startReload_ch g s)).comp (walk_ch g _)).comp (ih _)
        · exact .refl s
      · split
        · exact .refl s
        · split
          · exact (walk_ch g s).comp (ih _)
          · exact walk_ch g s

theorem runEngine_ch (g : Nat) (s : State) : Changes kCache s (State.runEngine g s) := pump_ch ..

theorem requestReload_ch (p : Nat) (s : State) : Changes [.segs] s (State.requestReload p s) := by
  unfold State.requestReload
  exact .ite (fun _ => setSeg_ch ..) (fun _ => (setSeg_ch ..).comp (startReload_ch ..))

theorem reoffer_ch (p : Nat) (s : State) : Changes kCache s (State.reoffer p s) := by
  unfold State.reoffer
  have h : Changes kCache s (s.modPlace p (Place.reoffer s.cardOf)) := (modPlace_ch s p (Place.reoffer_ok _)).up
  exact .ite (fun _ => h.comp (runEngine_ch ..)) (fun _ => h)

theorem withdraw_ch (p : Nat) (c : LineCmd → Bool) (s : State) : Changes kCache s (State.withdraw p c s) := by
  unfold State.withdraw
  exact .ite (fun _ => (Changes.up (modPlace_ch s p (Place.withdraw_ok c))).comp (reoffer_ch ..)) (fun _ => .refl s)

theorem addAt_ch (i : Nat) (s : State) (p : Nat) : Changes [.places] s (State.addAt i s p) := by
  unfold State.addAt
  split
  · exact .refl s
  · simp only
    split
    · split
      · exact modPlace_ch s p (Place.addEntry_ok _ _ _)
      · exact .refl s
    · exact .refl s

theorem handCredential_ch (i : Nat) (s : State) : Changes [.places] s (State.handCredential i s) :=
  .fold (fun s p => addAt_ch i s p) _ s

theorem clearCache_ch (p : Nat) (s : State) : Changes kCache s (State.clearCache p s) :=
  (Changes.up (K := kCache) (modPlace_same s p (f := fun pl => { pl with directory := [], flush := none })
    (fun _ => rfl))).comp (modSeg_ch ..)

theorem leaveCache_ch (p : Nat) (s : State) : Changes kCache s (State.leaveCache p s) :=
  .ite (fun _ => (clearCache_ch p s).comp (runEngine_ch ..)) (fun _ => clearCache_ch p s)

theorem markSuspect_ch (p : Nat) (s : State) : Changes [.places] s (State.markSuspect p s) :=
  modPlace_ch s p Place.suspectNow_ok

/-- A change of the directory alone leaves the queue. -/
theorem dropDir_ch (s : State) (p : Nat) (f : DirEntry → Bool) :
    Changes [.places] s (s.modPlace p (Place.dropDir f)) := modPlace_same s p (fun _ => rfl)

/-! ## Revocation starts (R113 to R117) -/

theorem replaceGrants_ch (i : Nat) (why : DenyReason) (s : State) : Changes [.places] s (State.replaceGrants i why s) :=
  .fold (fun s p => modPlace_ch s p (Place.replaceGrant_ok i why)) _ s

theorem revokeAt_ch (i : Nat) (s : State) (p : Nat) : Changes kCache s (State.revokeAt i s p) := by
  unfold State.revokeAt
  split
  · exact .refl s
  · simp only
    split
    · exact (Changes.up (dropDir_ch s p _)).comp (withdraw_ch ..)
    · exact (dropDir_ch s p _).up
    · exact (modPlace_ch s p (Place.startRemove_ok _ _)).up
    · exact (modPlace_ch s p (Place.startRemove_ok _ _)).up
    · exact (modPlace_ch s p (Place.startRemove_ok _ _)).up
    · exact .refl s

theorem overflowAt_ch (i : Nat) (s : State) (p : Nat) : Changes kCache s (State.overflowAt i s p) := by
  unfold State.overflowAt
  split
  · exact .refl s
  · exact ((Changes.up (dropDir_ch s p _)).comp (withdraw_ch ..)).comp (markSuspect_ch ..)

theorem recordRevocation_ch (i : Nat) (c : Cred) (cause : Cause) (s : State) :
    Changes kRev s (State.recordRevocation i c cause s) := by
  unfold State.recordRevocation
  simp only
  split
  · exact (Changes.up (logCard_ch ..)).comp (logCard_ch ..)
  · rename_i hne
    split
    · rename_i k hk
      refine (Changes.one (.revocations s _ (by decide) (Tab.write_rising k _) (fun ho e he => ?_))).comp (logCard_ch ..)
      rcases Tab.mem_write he with rfl | he
      · simpa [List.isEmpty_iff] using hne
      · exact ho e he
    · exact ((Changes.up (.fold (fun s p => overflowAt_ch i s p) _ s)).comp (logCard_ch ..)).comp (faultWith_ch ..)

theorem revoke_ch (i : Nat) (cause : Cause) (s : State) : Changes kRev s (State.revoke i cause s) := by
  unfold State.revoke
  split
  · exact .refl s
  · simp only
    refine .ite (fun _ => ?_) (fun _ => .refl s)
    exact (((Changes.up (setCred_ch ..)).comp (replaceGrants_ch ..)).comp
      (Changes.fold (fun s p => revokeAt_ch i s p) _ _)).comp (recordRevocation_ch ..)

theorem revokeAll_ch (is : List Nat) (cause : Cause) (s : State) : Changes kRev s (State.revokeAll is cause s) :=
  .fold (fun s i => revoke_ch i cause s) is s

/-! ## Confirmations (R118 to R120) -/

/-- A fault leaves the Revocation List alone and does not look at it. -/
theorem giveFault_revocations (s : State) (x : Tab Revocation) (k : FaultKind) (d : List Byte) :
    { s with revocations := x }.giveFault k d = { s.giveFault k d with revocations := x } := by
  have hb (t : State) (n : Notice) :
      { t with revocations := x }.buildNotice n = { t.buildNotice n with revocations := x } := by
    unfold State.buildNotice
    split
    · rfl
    · split <;> rfl
  by_cases h1 : (s.fault k).set
  · have h2 : (State.fault { s with revocations := x } k).set = true := h1
    simp only [State.giveFault, h1, h2, if_true]
    rfl
  · have h2 : ¬(State.fault { s with revocations := x } k).set = true := h1
    by_cases h3 : (s.fault k).masked
    · have h4 : (State.fault { s with revocations := x } k).masked = true := h3
      simp only [State.giveFault, h1, h2, h3, h4, if_true]
      rfl
    · have h4 : ¬(State.fault { s with revocations := x } k).masked = true := h3
      simp only [State.giveFault, h1, h2, h3, h4, if_false, Bool.false_eq_true]
      exact hb ((s.setFault k ⟨true, false, (s.fault k).severity, some d, 1⟩).driveAlarm)
        ⟨k, s.severity k, d, s.clock.m, s.clock.s⟩

/-- A record handed over leaves the Revocation List alone and does not look at it. -/
theorem handOver_revocations (s : State) (x : Tab Revocation) (d : Draft) :
    { s with revocations := x }.handOver d = { s.handOver d with revocations := x } := by
  have hf (t : State) : { t with revocations := x }.fullFault = { t.fullFault with revocations := x } := by
    unfold State.fullFault
    split
    · exact giveFault_revocations ..
    · rfl
  have hh (t : State) : { t with revocations := x }.highFault = { t.highFault with revocations := x } := by
    unfold State.highFault
    split
    · exact giveFault_revocations ..
    · rfl
  have hr (t : State) : { t with revocations := x }.reserve = { t.reserve with revocations := x } := by
    unfold State.reserve
    split <;> rfl
  unfold State.handOver
  split
  · have h1 : { s with revocations := x }.append d = { s.append d with revocations := x } := rfl
    rw [h1, hh, hf, hr]
  · have h1 : { s with revocations := x }.countGap = { s.countGap with revocations := x } := rfl
    rw [h1, hf]

/-- A drop taken out of a record's set: a record whose set becomes empty is freed. -/
theorem confirmAt_ch (p : Nat) (s : State) (k : Nat) : Changes kRev s (State.confirmAt p s k) := by
  unfold State.confirmAt
  split
  · exact .refl s
  · rename_i r hr
    refine .ite (fun _ => ?_) (fun _ => .refl s)
    unfold State.completeIfEmpty
    simp only [Tab.look_write_self]
    split
    · rename_i he
      unfold State.logCard
      rw [handOver_revocations]
      have h0 := handOver_ch ⟨.revocationComplete, .unit, some r.card, none, [byte (causeCode r.cause)] ++ le 2 r.index,
        Marks.none, none⟩ s
      have ht := h0.revocations_eq
      generalize s.handOver _ = t at h0 ht ⊢
      refine Changes.comp (h0.up (K := kRev)) (L := kRev) (.one (.revocations t _ (by decide)
        (fun h => Tab.clear_rising k (Tab.write_rising k _ (ht ▸ h))) ?_))
      intro ho e hm
      rcases Tab.clear_write s.revocations k { r with drops := r.drops.filter (fun q => q != p) } with hc | hc
      · rw [hc] at hm; exact ho e (ht ▸ Tab.mem_clear hm)
      · rw [hc] at hm; exact ho e (ht ▸ hm)
    · rename_i he
      refine .one (.revocations s _ (by decide) (Tab.write_rising k _) (fun ho e hm => ?_))
      rcases Tab.mem_write hm with rfl | hm
      · simpa [List.isEmpty_iff] using he
      · exact ho e hm

theorem removeConfirmed_ch (p slot i : Nat) (s : State) : Changes kRev s (State.removeConfirmed p slot i s) := by
  unfold State.removeConfirmed
  simp only
  split
  · exact (dropDir_ch s p _).up
  · exact (Changes.up (dropDir_ch s p _)).comp (confirmAt_ch ..)

theorem addConfirmed_ch (p slot i : Nat) (s : State) : Changes [.places] s (State.addConfirmed p slot i s) :=
  modPlace_same s p (fun _ => rfl)

theorem flushConfirmed_ch (p : Nat) (s : State) : Changes kRev s (State.flushConfirmed p s) := by
  unfold State.flushConfirmed
  exact (((Changes.up (dropDir_ch s p _)).comp (modPlace_ch _ p (Place.withdraw_ok _))).comp
    (Changes.fold (fun s k => confirmAt_ch p s k) _ _)).comp (modPlace_same _ p (fun _ => rfl))

/-! ## Deadlines and expiry (R14, R121) -/

theorem partialAt_ch (i : Nat) (s : State) (p : Nat) : Changes kCache s (State.partialAt i s p) := by
  unfold State.partialAt
  split
  · exact (markSuspect_ch ..).up
  · exact ((Changes.up (dropDir_ch s p _)).comp (withdraw_ch ..)).comp (markSuspect_ch ..)

theorem freeRecord_ch (s : State) (k : Nat) :
    Changes [.revocations] s { s with revocations := Tab.clear s.revocations k } :=
  .one (.revocations s _ (by decide) (Tab.clear_rising k) (fun ho e he => ho e (Tab.mem_clear he)))

theorem endPartial_ch (k : Nat) (r : Revocation) (s : State) : Changes kRev s (State.endPartial k r s) := by
  unfold State.endPartial
  exact (((Changes.up (.fold (fun s p => partialAt_ch r.index s p) r.drops s)).comp (logCard_ch ..)).comp
    (faultWith_ch ..)).comp (freeRecord_ch ..)

theorem deadlineAt_ch (s : State) (k : Nat) : Changes kRev s (State.deadlineAt s k) := by
  unfold State.deadlineAt
  split
  · exact .refl s
  · exact .ite (fun _ => endPartial_ch ..) (fun _ => .refl s)

theorem deadlineTest_ch (s : State) : Changes kRev s s.deadlineTest := .fold (fun s k => deadlineAt_ch s k) _ s

theorem applyExpiry_ch (s : State) : Changes kRev s s.applyExpiry := revokeAll_ch ..

end Sys2Proof.Machine
end

