-- ==== Sys2Proof/Laws/ChangesDoors.lean ====
section
/-! SUPPORT. What the Stay and Minibar Unit, the Room Table's operations, the Door Table's runtime operations and the
Decision Engine change. -/

-- Proofs are checked one after another: with many small ones at once Lean asks for more threads than the memory limit admits.
set_option Elab.async false

namespace Sys2Proof.Machine

/-- Charges, commits and compartments. -/
abbrev kMini : List Part := [.faults, .notices, .journal, .dirty, .places, .stays, .charges]

/-- The Room Table. -/
abbrev kRoom : List Part := [.rooms, .dirty]

/-- A place and the journal. -/
abbrev kDoor : List Part := [.faults, .notices, .journal, .dirty, .places]

/-! ## Compartments, commits and sessions (R133 to R146) -/

theorem setComp_ch (s : State) (p c : Nat) (x : Compartment) : Changes [.places, .dirty] s (s.setComp p c x) :=
  (Changes.up (modPlace_comps s p (f := fun pl => { pl with comps := pl.comps.set c x }) (fun _ h => h)
    (fun _ h => by simpa using h))).comp (markDirty_ch ..)

theorem moveComp_ch (s : State) (p c : Nat) (st : CompState) (rev : Nat) :
    Changes [.places, .dirty] s (s.moveComp p c st rev) := setComp_ch ..

theorem emptyComp_ch (s : State) (p c : Nat) : Changes [.places, .dirty] s (s.emptyComp p c) := by
  unfold State.emptyComp
  split
  · exact .refl s
  · exact .ite (fun _ => moveComp_ch ..) (fun _ => .refl s)

theorem commit_ch (c : Charge) (ng : Bool) (s : State) : Changes kMini s (State.commit c ng s) := by
  unfold State.commit
  split
  · rename_i i x _
    simp only
    have h1 : Changes kMini s (s.setStay i (State.addTotal x c.amount)) := (setStay_ch ..).up
    split
    · exact ((h1.comp (faultWith_ch ..)).comp (emptyComp_ch ..)).comp (handOver_ch ..)
    · exact (h1.comp (emptyComp_ch ..)).comp (handOver_ch ..)
  · exact (Changes.up (emptyComp_ch ..)).comp (handOver_ch ..)

theorem commitWhere_ch (f : Charge → Bool) (ng : Bool) (s : State) : Changes kMini s (State.commitWhere f ng s) :=
  .fold (fun s c => (Changes.up (setCharges_ch s _)).comp (commit_ch c ng _)) _ s

theorem openLid_ch (p : Nat) (s : State) : Changes [.places] s (State.openLid p s) := by
  refine modPlace_same s p (fun pl => ?_) (fun pl => ?_) <;> cases pl.session <;> cases pl.window <;> rfl

theorem endSession_ch (p : Nat) (s : State) : Changes kDoor s (State.endSession p s) := by
  unfold State.endSession
  simp only
  split
  · exact .refl s
  · have h1 : Changes kDoor s (s.modPlace p (fun pl => { pl with session := none })) :=
      (modPlace_same s p (fun _ => by rfl)).up
    exact .ite (fun _ => h1.comp (handOver_ch ..)) (fun _ => h1)

theorem endLid_ch (p : Nat) (s : State) : Changes kDoor s (State.endLid p s) :=
  (Changes.up (modPlace_same s p (f := fun pl => { pl with window := none }) (fun _ => rfl))).comp (endSession_ch ..)

theorem removal_ch (p c : Nat) (s : State) : Changes kMini s (State.removal p c s) := by
  unfold State.removal
  simp only
  split
  · exact (Changes.up (moveComp_ch ..)).comp (handOver_ch ..)
  · exact .ite (fun _ => commit_ch ..) (fun _ => (Changes.up (moveComp_ch ..)).comp (setCharges_ch ..))

theorem cancel_ch (p c : Nat) (s : State) : Changes kMini s (State.cancel p c s) := by
  unfold State.cancel
  split
  · exact .refl s
  · rename_i x _
    have h1 : Changes kMini s (s.setCharges (s.pendingCharges.filter (fun d => d != x))) := (setCharges_ch ..).up
    simp only
    refine .ite (fun _ => (h1.comp (moveComp_ch ..)).comp (handOver_ch ..))
      (fun _ => (((h1.comp (moveComp_ch ..)).comp (handOver_ch ..)).comp (log_ch ..)).comp (giveFault_ch ..))

theorem anomaly_ch (p c : Nat) (taken : Bool) (s : State) : Changes kLog s (State.anomaly p c taken s) := log_ch ..

theorem lateReturn_ch (p c : Nat) (s : State) : Changes kDoor s (State.lateReturn p c s) :=
  (Changes.up (moveComp_ch ..)).comp (log_ch ..)

theorem lidEvent_ch (p c : Nat) (taken : Bool) (s : State) : Changes kMini s (State.lidEvent p c taken s) := by
  unfold State.lidEvent
  split
  · exact removal_ch ..
  · exact cancel_ch ..
  · exact (lateReturn_ch ..).up
  all_goals exact (anomaly_ch ..).up

theorem restockEvent_ch (p c : Nat) (taken : Bool) (s : State) : Changes kMini s (State.restockEvent p c taken s) := by
  unfold State.restockEvent
  simp only
  have h (u : State) (hu : Changes kMini s u) :
      Changes kMini s (if (s.comp p c).state = .pending then u.commitWhere (State.isCharge p c) true else u) :=
    .ite (fun _ => hu.comp (commitWhere_ch ..)) (fun _ => hu)
  refine (h _ (modPlace_same s p (fun pl => ?_) (fun pl => ?_)).up).comp (moveComp_ch ..) <;> cases pl.session <;> rfl

theorem compartmentEvent_ch (p c : Nat) (taken : Bool) (s : State) :
    Changes kMini s (State.compartmentEvent p c taken s) := by
  unfold State.compartmentEvent
  split
  · exact .ite (fun _ => restockEvent_ch ..) (fun _ => lidEvent_ch ..)
  · exact lidEvent_ch ..

/-! ## The Room Table (R18 to R20) -/

theorem createRoom_ch (s : State) (r : Nat) : Changes kRoom s (s.createRoom r) := by
  unfold State.createRoom
  split
  · exact .refl s
  · exact setRoom_ch ..

theorem ensureRoom_ch (s : State) (r : Nat) : Changes kRoom s (s.ensureRoom r) := by
  unfold State.ensureRoom
  exact .ite (fun _ => createRoom_ch ..) (fun _ => .refl s)

theorem removeRoom_ch (s : State) (r : Nat) : Changes kRoom s (s.removeRoom r) := by
  unfold State.removeRoom
  split
  · exact .refl s
  · exact .ite (fun _ => clearRoom_ch ..) (fun _ => .refl s)

theorem recomputeRoom_ch (s : State) (i : Nat) : Changes kRoom s (s.recomputeRoom i) := by
  unfold State.recomputeRoom
  split
  · exact .refl s
  · exact .ite (fun _ => .refl s) (fun _ => setRoom_ch ..)

theorem recomputeRooms_ch (s : State) : Changes kRoom s s.recomputeRooms := .fold (fun s i => recomputeRoom_ch s i) _ s

theorem setOpenStay_ch (s : State) (r : Nat) (n : Option Nat) : Changes kRoom s (s.setOpenStay r n) := by
  unfold State.setOpenStay
  split
  · exact .refl s
  · exact setRoom_ch ..

/-! ## Doors (R40, R55 to R60) -/

theorem unlock_same (n : Nat) (pl : Place) : (Place.unlock n pl).queueLen = pl.queueLen := by
  unfold Place.unlock; split <;> rfl

theorem holdOpenDone_same (pl : Place) : (Place.holdOpenDone pl).queueLen = pl.queueLen := by
  unfold Place.holdOpenDone; simp only; split <;> rfl

theorem secureDone_same (pl : Place) : (Place.secureDone pl).queueLen = pl.queueLen := by
  unfold Place.secureDone
  simp only
  split
  · rfl
  · split <;> rfl

theorem doorOpened_ch (p : Nat) (s : State) : Changes kDoor s (State.doorOpened p s) := by
  unfold State.doorOpened
  simp only
  split
  · exact (setPlace_same s p (by rfl)).up
  · exact (setPlace_same s p (by rfl)).up
  · exact ((Changes.up (setPlace_same s p (by rfl))).comp (log_ch ..)).comp (faultAt_ch ..)
  all_goals exact .refl s

theorem doorShut_ch (p : Nat) (s : State) : Changes kDoor s (State.doorShut p s) := by
  unfold State.doorShut
  simp only
  split
  · exact (setPlace_same s p (by rfl)).up
  · exact (Changes.up (setPlace_same s p (by rfl))).comp (log_ch ..)
  · exact (Changes.up (setPlace_same s p (by rfl))).comp (log_ch ..)
  all_goals exact .refl s

theorem doorMoved_ch (p : Nat) (o : Bool) (s : State) : Changes kDoor s (State.doorMoved p o s) := by
  have h1 : Changes kDoor s (if o then s.doorOpened p else s.doorShut p) :=
    .ite (fun _ => doorOpened_ch ..) (fun _ => doorShut_ch ..)
  unfold State.doorMoved
  simp only
  generalize (if o then s.doorOpened p else s.doorShut p) = t at h1 ⊢
  refine .ite (fun _ => ?_) (fun _ => h1)
  exact .ite (fun _ => h1.comp (openLid_ch ..)) (fun _ => h1.comp (endSession_ch ..))

theorem doorFirst_ch (p : Nat) (o : Bool) (s : State) : Changes [.places] s (State.doorFirst p o s) := by
  unfold State.doorFirst
  simp only
  have h1 (x : State) (hx : Changes [.places] s x) :
      Changes [.places] s (if (s.place p).door.isMinibar && o then x.openLid p else x) :=
    .ite (fun _ => hx.comp (openLid_ch ..)) (fun _ => hx)
  exact h1 _ (.ite (fun _ => setPlace_same s p (by rfl)) (fun _ => .refl s))

theorem tampered_ch (p : Nat) (s : State) : Changes kLog s (State.tampered p s) :=
  (log_ch ..).comp (faultAt_ch ..)

theorem acceptCond_ch (p : Nat) (c : Cond) (s : State) : Changes kDoor s (State.acceptCond p c s) := by
  unfold State.acceptCond
  simp only
  have h1 : Changes kDoor s (s.modPlace p (fun pl => { pl with accepted := some c, candidate := none })) :=
    (modPlace_same s p (fun _ => by rfl)).up
  have h2 (x : State) (hx : Changes kDoor s x) (b : Bool) : Changes kDoor s (if b then x.tampered p else x) :=
    .ite (fun _ => hx.comp (tampered_ch ..)) (fun _ => hx)
  refine h2 _ ?_ _
  split
  · exact h1.comp (doorFirst_ch ..)
  · exact .ite (fun _ => h1) (fun _ => h1.comp (doorMoved_ch ..))

theorem reportCond_ch (p : Nat) (c : Cond) (s : State) : Changes kDoor s (State.reportCond p c s) := by
  unfold State.reportCond
  simp only
  refine .ite (fun _ => .refl s) (fun _ => ?_)
  split
  · exact acceptCond_ch ..
  · refine .ite (fun _ => (setPlace_same s p (by rfl)).up) (fun _ => ?_)
    exact .ite (fun _ => acceptCond_ch ..) (fun _ => (setPlace_same s p (by rfl)).up)

theorem unlockTimeout_ch (p : Nat) (s : State) : Changes [.places] s (State.unlockTimeout p s) := by
  unfold State.unlockTimeout
  exact .ite (fun _ => setPlace_same s p (by rfl)) (fun _ => .refl s)

theorem doorHeld_ch (p : Nat) (s : State) : Changes kDoor s (State.doorHeld p s) := by
  unfold State.doorHeld
  exact .ite (fun _ => ((Changes.up (setPlace_same s p (by rfl))).comp (log_ch ..)).comp (faultAt_ch ..)) (fun _ => .refl s)

theorem countSecond_same (pl : Place) : (Place.countSecond pl).queueLen = pl.queueLen := by
  unfold Place.countSecond
  split
  · rfl
  · split <;> rfl

/-! ## Presentations (R44 to R54) -/

theorem endPresentation_ch (p : Nat) (st un : Bool) (s : State) : Changes kDoor s (State.endPresentation p st un s) := by
  unfold State.endPresentation
  split
  · exact .refl s
  · exact (Changes.up (modPlace_same s p (f := fun pl => { pl with presentation := none }) (fun _ => rfl))).comp
      (handOver_ch ..)

theorem abandon_ch (p : Nat) (s : State) : Changes kRev s (State.abandon p s) := by
  unfold State.abandon
  split
  · exact .refl s
  · rename_i pr _
    simp only
    split
    · exact (endPresentation_ch ..).up
    · exact (Changes.up (withdraw_ch ..)).comp (endPresentation_ch ..)

theorem withdrawSent_ch (p tag : Nat) (s : State) : Changes kCache s (State.withdrawSent p tag s) := by
  unfold State.withdrawSent
  split
  · exact .refl s
  · exact .ite (fun _ => (Changes.up (modPlace_ch s p Place.depart_ok)).comp (reoffer_ch ..)) (fun _ => .refl s)

theorem applyEnds_ch (e : Evaluation) (s : State) : Changes kRev s (State.applyEnds e s) := by
  unfold State.applyEnds
  split
  · exact revoke_ch ..
  · exact .refl s

theorem deliver_ch (p : Nat) (pr : Presentation) (s : State) : Changes kDoor s (State.deliver p pr s) := by
  unfold State.deliver
  simp only
  have h1 : Changes kDoor s (s.setPlace p { s.place p with presentation := some pr }) := (setPlace_same s p (by rfl)).up
  exact .ite (fun _ => h1.comp (modPlace_ch _ p (Place.offer_ok _))) (fun _ => h1.comp (endPresentation_ch ..))

theorem present_ch (p card tag : Nat) (s : State) : Changes kRev s (State.present p card tag s) :=
  (((abandon_ch p s).comp (withdrawSent_ch p tag _)).comp (applyEnds_ch ..)).comp (deliver_ch ..)

/-- A confirmed grant may also raise a room's accepted generation. -/
abbrev kGrant : List Part := [.faults, .notices, .journal, .dirty, .places, .segs, .creds, .revocations, .rooms]

theorem raise_ch (p : Nat) (f : Option Found) (s : State) : Changes kGrant s (State.raise p f s) := by
  unfold State.raise
  split
  · split
    · exact .refl s
    · exact .ite (fun _ => (Changes.up (setRoom_ch ..)).comp (revokeAll_ch ..)) (fun _ => .refl s)
  · exact .refl s

theorem openWindow_same (pr : Presentation) (pl : Place) : (State.openWindow pr pl).queueLen = pl.queueLen := by
  unfold State.openWindow
  split
  · rfl
  · split <;> rfl

theorem grantDone_ch (p n : Nat) (pr : Presentation) (s : State) : Changes kGrant s (State.grantDone p n pr s) := by
  unfold State.grantDone
  simp only
  refine .ite (fun _ => ?_) (fun _ => .ite (fun _ => ?_) (fun _ => .refl s))
  · exact (modPlace_same s p (fun pl => by rw [openWindow_same, unlock_same])).up
  · exact (Changes.up (modPlace_same s p (unlock_same n))).comp (raise_ch ..)

theorem verdictDone_ch (p tag : Nat) (out : VerdictOut) (s : State) :
    Changes kGrant s (State.verdictDone p tag out s) := by
  unfold State.verdictDone
  split
  · exact .refl s
  · refine .ite (fun _ => ?_) (fun _ => .refl s)
    simp only
    split
    · exact (Changes.up (endPresentation_ch ..)).comp (grantDone_ch ..)
    · exact (endPresentation_ch ..).up

theorem verdictStale_ch (p tag : Nat) (s : State) : Changes kDoor s (State.verdictStale p tag s) := by
  unfold State.verdictStale
  split
  · exact .refl s
  · exact .ite (fun _ => endPresentation_ch ..) (fun _ => .refl s)

theorem verdictSilent_ch (p : Nat) (s : State) : Changes kRev s (State.verdictSilent p s) := by
  unfold State.verdictSilent
  split
  · exact .refl s
  · exact .ite (fun _ => .refl s) (fun _ => (Changes.up (withdraw_ch ..)).comp (endPresentation_ch ..))

theorem remoteOpened_ch (p n : Nat) (lost : Bool) (s : State) : Changes kLog s (State.remoteOpened p n lost s) :=
  handOver_ch ..

theorem backlogRecord_ch (p card tag : Nat) (ld : Bool) (age : Nat) (s : State) :
    Changes kLog s (State.backlogRecord p card tag ld age s) := by
  unfold State.backlogRecord
  simp only
  exact .ite (fun _ => (handOver_ch ..).comp (faultAt_ch ..)) (fun _ => handOver_ch ..)

theorem backlogRule_ch (p : Nat) (s : State) : Changes [.places] s (State.backlogRule p s) := by
  unfold State.backlogRule
  exact .ite (fun _ => modPlace_ch s p (Place.offer_ok _)) (fun _ => .refl s)

end Sys2Proof.Machine
end

