-- ==== Sys2Proof/Laws/ChangesLine.lean ====
section
/-! SUPPORT. What the Segment Controllers' operations change: presence, joins, line states, tests, polls and responses. -/

-- Proofs are checked one after another: with many small ones at once Lean asks for more threads than the memory limit admits.
set_option Elab.async false

namespace Sys2Proof.Machine

/-- A drop that enters ABSENT, and the line states that bring it there. -/
abbrev kAbsent : List Part := [.faults, .notices, .journal, .dirty, .places, .segs]

/-- The end of a test may also answer a SEGMENT TEST. -/
abbrev kTest : List Part := [.faults, .notices, .journal, .dirty, .places, .segs, .completions]

/-- Everything that a response can change. -/
abbrev kLine : List Part :=
  [.faults, .notices, .journal, .dirty, .places, .segs, .creds, .revocations, .rooms, .stays, .charges, .completions, .due]

/-! ## Completions and due work -/

theorem buildCompletion_ch (c : Completion) (s : State) : Changes [.completions] s (State.buildCompletion c s) := by
  unfold State.buildCompletion
  refine .ite (fun _ => .refl s) (fun _ => .ite (fun h => ?_) (fun _ => ?_))
  · refine .one (.completions s (s.trunk.completions ++ [c]) s.trunk.waitingCompletions (by decide) (fun _ => ?_))
    simp only [List.length_append, List.length_singleton]; omega
  · exact .one (.completions s s.trunk.completions (s.trunk.waitingCompletions ++ [c]) (by decide) id)

theorem addDue_ch (d : Due) (s : State) : Changes [.due] s (State.addDue d s) := .one (.due s _ (by decide))

/-! ## Joins (R86 to R88) -/

theorem enterPresent_ch (p : Nat) (s : State) : Changes [.places] s (State.enterPresent p s) :=
  modPlace_ch s p (fun _ h => Place.offerZone_ok _ h)

theorem presenceRecord_ch (p : Nat) (x : Presence) (s : State) : Changes kLog s (State.presenceRecord p x s) := log_ch ..

theorem proceedJoin_ch (p : Nat) (s : State) : Changes kDoor s (State.proceedJoin p s) := by
  unfold State.proceedJoin
  refine .ite (fun _ => (modPlace_same s p (fun _ => by rfl)).up) (fun _ => .ite (fun _ => ?_) (fun _ => ?_))
  · exact (Changes.up (enterPresent_ch ..)).comp (presenceRecord_ch ..)
  · refine Changes.up (L := [.places]) (modPlace_ch s p (fun _ h => ?_))
    exact Place.offer_ok _ _ h

theorem identityMatch_ch (p serial : Nat) (s : State) : Changes kDoor s (State.identityMatch p serial s) := by
  unfold State.identityMatch
  simp only
  have h1 (x : State) (hx : Changes kDoor s x) :
      Changes kDoor s ((x.modPlace p (fun pl => { pl with lockSerial := some serial })).proceedJoin p) :=
    (hx.comp (modPlace_same x p (fun _ => by rfl))).comp (proceedJoin_ch ..)
  refine h1 _ ?_
  split
  · exact .refl s
  · exact .ite (fun _ => .refl s) (fun _ => (log_ch ..).up)

theorem compareIdentity_ch (p : Nat) (k : DropKind) (n : Nat) (s : State) :
    Changes kDoor s (State.compareIdentity p k n s) := by
  unfold State.compareIdentity
  exact .ite (fun _ => identityMatch_ch ..)
    (fun _ => (Changes.up (modPlace_same s p (fun _ => by rfl))).comp (faultAt_ch ..))

theorem identified_ch (p : Nat) (k : DropKind) (n : Nat) (s : State) : Changes kDoor s (State.identified p k n s) := by
  unfold State.identified
  exact .ite (fun _ => (Changes.up (modPlace_same s p (fun _ => by rfl))).comp (compareIdentity_ch ..))
    (fun _ => .refl s)

theorem recheck_ch (p : Nat) (s : State) : Changes kDoor s (State.recheck p s) := by
  unfold State.recheck
  simp only
  split
  · exact compareIdentity_ch ..
  · exact .refl s

theorem suspectFlushDone_ch (p : Nat) (s : State) : Changes kRev s (State.suspectFlushDone p s) :=
  .ite (fun _ => (flushConfirmed_ch p s).comp (requestReload_ch ..)) (fun _ => flushConfirmed_ch p s)

theorem joinFlushDone_ch (p : Nat) (s : State) : Changes kRev s (State.joinFlushDone p s) := by
  unfold State.joinFlushDone
  simp only
  have h1 := flushConfirmed_ch p s
  refine .ite (fun _ => ?_) (fun _ => .ite (fun _ => h1.comp (requestReload_ch ..)) (fun _ => h1))
  exact ((h1.comp (enterPresent_ch ..)).comp (presenceRecord_ch ..)).comp (requestReload_ch ..)

/-! ## ABSENT (R78, R89) -/

theorem loseCmd_ch (p : Nat) (s : State) (e : QEntry) : Changes kDoor s (State.loseCmd p s e) := by
  unfold State.loseCmd
  split
  · split
    · exact .ite (fun _ => endPresentation_ch ..) (fun _ => .refl s)
    · exact .refl s
  · exact (remoteOpened_ch ..).up
  all_goals exact .refl s

theorem enterAbsent_ch (p : Nat) (s : State) : Changes kAbsent s (State.enterAbsent p s) := by
  unfold State.enterAbsent
  simp only
  have h1 : Changes kAbsent s (s.modPlace p (fun pl => { pl with presence := .absent, delivery := none, waiting := [] })) :=
    (modPlace_ch s p (fun _ _ => by simp [Place.queueLen_eq])).up
  have h2 := h1.comp (.fold (fun s e => loseCmd_ch p s e) (s.place p).queue _)
  have h3 := h2.comp (endPresentation_ch p false true _)
  generalize State.endPresentation p false true _ = t at h3 ⊢
  have h4 := h3.comp (modPlace_same t p (f := fun pl => pl.resetDoor (t.zoneOfDoor pl.door == .released)) (fun _ => rfl))
  have h5 := h4.comp (leaveCache_ch p _)
  generalize State.leaveCache p _ = u at h5 ⊢
  have h6 : Changes kAbsent s (if (s.place p).door.isMinibar then u.endLid p else u) :=
    .ite (fun _ => h5.comp (endLid_ch ..)) (fun _ => h5)
  generalize (if (s.place p).door.isMinibar then u.endLid p else u) = v at h6 ⊢
  exact ((h6.comp (modPlace_same v p (f := State.absentFields) (fun _ => rfl))).comp (presenceRecord_ch ..)).comp
    (faultAt_ch ..)

theorem allAbsent_ch (g : Nat) (s : State) : Changes kAbsent s (State.allAbsent g s) :=
  .fold (fun s p => enterAbsent_ch p s) _ s

/-! ## Line states (R90 to R97) -/

theorem lineFault_ch (g : Nat) (x : LineState) (s : State) : Changes kFault s (State.lineFault g x s) := by
  unfold State.lineFault
  split <;> first | exact giveFault_ch .. | exact .refl s

theorem changeLine_ch (g : Nat) (x : LineState) (bs : List Byte) (s : State) :
    Changes kAbsent s (State.changeLine g x bs s) := by
  unfold State.changeLine
  exact ((Changes.up (modSeg_ch ..)).comp (log_ch ..)).comp (lineFault_ch ..)

theorem enterTesting_ch (g : Nat) (s : State) : Changes kAbsent s (State.enterTesting g s) := by
  unfold State.enterTesting
  simp only
  have h1 (x : State) (hx : Changes kAbsent s x) : Changes kAbsent s ((x.allAbsent g).modSeg g State.startTest) :=
    (hx.comp (allAbsent_ch ..)).comp (modSeg_ch ..)
  exact h1 _ (.ite (fun _ => .refl s) (fun _ => changeLine_ch ..))

theorem enterDown_ch (g : Nat) (s : State) : Changes kAbsent s (State.enterDown g s) :=
  (changeLine_ch g .down [] s).comp (enterTesting_ch ..)

theorem enterStopped_ch (g : Nat) (x : LineState) (bs : List Byte) (s : State) :
    Changes kAbsent s (State.enterStopped g x bs s) :=
  ((changeLine_ch g x bs s).comp (allAbsent_ch ..)).comp (modSeg_ch ..)

theorem enterOut_ch (g : Nat) (s : State) : Changes kAbsent s (State.enterOut g s) :=
  ((changeLine_ch g .outOfService [] s).comp (allAbsent_ch ..)).comp (modSeg_ch ..)

theorem enterFromTest_ch (g : Nat) (x : LineState) (bs : List Byte) (s : State) :
    Changes kAbsent s (State.enterFromTest g x bs s) := (changeLine_ch g x bs s).comp (modSeg_ch ..)

theorem degrade_ch (g : Nat) (s : State) : Changes kAbsent s (State.degrade g s) :=
  changeLine_ch g .degraded [] s

theorem proceedWaiting_ch (g : Nat) (s : State) : Changes kDoor s (State.proceedWaiting g s) :=
  .fold (fun s p => proceedJoin_ch p s) _ s

theorem recover_ch (g : Nat) (s : State) : Changes kAbsent s (State.recover g s) :=
  ((changeLine_ch g .inService [] s).comp (proceedWaiting_ch ..)).comp (runEngine_ch ..)

theorem closeWindow_ch (g : Nat) (s : State) : Changes kAbsent s (State.closeWindow g s) := by
  unfold State.closeWindow
  refine .ite (fun _ => ?_) (fun _ => .refl s)
  simp only
  have h1 : Changes kAbsent s (s.setSeg g { s.seg g with badCount := 0 }) := (setSeg_ch ..).up
  refine .ite (fun _ => .ite (fun _ => h1.comp (degrade_ch ..)) (fun _ => h1.comp (setSeg_ch ..))) (fun _ => ?_)
  refine .ite (fun _ => ?_) (fun _ => h1)
  exact .ite (fun _ => (h1.comp (setSeg_ch ..)).comp (recover_ch ..)) (fun _ => h1.comp (setSeg_ch ..))

theorem retestTimeout_ch (g : Nat) (s : State) : Changes kAbsent s (State.retestTimeout g s) := by
  unfold State.retestTimeout
  exact .ite (fun _ => enterTesting_ch ..) (fun _ => .refl s)

theorem terminatorDown_ch (g : Nat) (s : State) : Changes kAbsent s (State.terminatorDown g s) := by
  unfold State.terminatorDown
  exact .ite (fun _ => enterDown_ch ..) (fun _ => .refl s)

theorem missSilent_ch (p : Nat) (s : State) : Changes kRev s (State.missSilent p s) := by
  unfold State.missSilent
  exact .ite (fun _ => (Changes.up (setPlace_same s p (by rfl))).comp (verdictSilent_ch ..)) (fun _ => .refl s)

theorem missAbsent_ch (p : Nat) (s : State) : Changes kAbsent s (State.missAbsent p s) := by
  unfold State.missAbsent
  exact .ite (fun _ => enterAbsent_ch ..) (fun _ => .refl s)

/-! ## The line test (R92, R93) -/

theorem answerTest_ch (g : Nat) (st : ReplyStatus) (bs : List Byte) (s : State) :
    Changes kTest s (State.answerTest g st bs s) := by
  unfold State.answerTest
  split
  · exact .refl s
  · exact (Changes.up (modSeg_ch ..)).comp (buildCompletion_ch ..)

theorem enterResult_ch (g : Nat) (x : LineState) (bs : List Byte) (s : State) :
    Changes kAbsent s (State.enterResult g x bs s) := by
  unfold State.enterResult
  split <;> first | exact enterStopped_ch .. | exact enterFromTest_ch .. | exact .refl s

theorem endTest_ch (g : Nat) (t : TestProgress) (s : State) : Changes kTest s (State.endTest g t s) :=
  (Changes.up (enterResult_ch ..)).comp (answerTest_ch ..)

theorem testStep_ch (g : Nat) (ok : Bool) (w : Wiring) (s : State) : Changes kTest s (State.testStep g ok w s) := by
  unfold State.testStep
  split
  · exact .refl s
  · split
    · exact (modSeg_ch ..).up
    · exact endTest_ch ..

/-! ## Polls (R66, R67, R79 to R82) -/

theorem pollDrop_ch (g a : Nat) (k : PollKind) (s : State) : Changes kCache s (State.pollDrop g a k s) := by
  unfold State.pollDrop
  exact (Changes.up (setPlace_ch s _ _ (Place.choose_ok _ _))).comp (modSeg_ch ..)

theorem pollTerminator_ch (g : Nat) (k : PollKind) (s : State) : Changes [.segs] s (State.pollTerminator g k s) :=
  modSeg_ch ..

theorem openRound_ch (g : Nat) (s : State) : Changes [.segs] s (State.openRound g s) :=
  (modSeg_ch ..).comp (pollTerminator_ch ..)

theorem normalPoll_ch (g : Nat) (s : State) : Changes kCache s (State.normalPoll g s) := by
  unfold State.normalPoll
  refine .ite (fun _ => .ite (fun _ => ?_) (fun _ => (openRound_ch ..).up)) (fun _ => .refl s)
  split
  · exact (Changes.up (modSeg_ch ..)).comp (pollDrop_ch ..)
  · exact .ite (fun _ => .refl s) (fun _ => (openRound_ch ..).up)

theorem probePoll_ch (g : Nat) (s : State) : Changes kCache s (State.probePoll g s) := by
  unfold State.probePoll
  refine .ite (fun _ => ?_) (fun _ => .refl s)
  split
  · exact (Changes.up (modSeg_ch ..)).comp (pollDrop_ch ..)
  · exact .refl s

theorem priorityPoll_ch (g : Nat) (s : State) : Changes kCache s (State.priorityPoll g s) := by
  unfold State.priorityPoll
  refine .ite (fun _ => ?_) (fun _ => .refl s)
  split
  · exact (Changes.up (modSeg_ch ..)).comp (pollDrop_ch ..)
  · exact .refl s

theorem testExchange_ch (g : Nat) (s : State) : Changes [.segs] s (State.testExchange g s) := by
  unfold State.testExchange
  exact .ite (fun _ => pollTerminator_ch ..) (fun _ => .refl s)

/-! ## Missed polls (R84, R94, R95) -/

theorem countBad_ch (g : Nat) (s : State) : Changes [.segs] s (State.countBad g s) := by
  unfold State.countBad
  exact .ite (fun _ => modSeg_ch ..) (fun _ => .refl s)

theorem missDrop_ch (p : Nat) (s : State) : Changes [.places, .due] s (State.missDrop p s) := by
  unfold State.missDrop
  simp only
  refine .ite (fun _ => .refl s) (fun _ => ?_)
  have h1 : Changes [.places, .due] s (s.setPlace p { s.place p with misses := min 16 ((s.place p).misses + 1) }) :=
    (setPlace_same s p (by rfl)).up
  have h2 (x : State) (hx : Changes [.places, .due] s x) (q : Prop) [Decidable q] (d : Due) :
      Changes [.places, .due] s (if q then x.addDue d else x) := .ite (fun _ => hx.comp (addDue_ch ..)) (fun _ => hx)
  exact h2 _ (h2 _ h1 _ _) _ _

theorem missTerminator_ch (g : Nat) (s : State) : Changes [.segs, .due] s (State.missTerminator g s) := by
  unfold State.missTerminator
  simp only
  exact .ite (fun _ => (Changes.up (modSeg_ch ..)).comp (addDue_ch ..)) (fun _ => (modSeg_ch ..).up)

theorem missedExchange_ch (g : Nat) (e : Exchange) (s : State) : Changes kLine s (State.missedExchange g e s) := by
  unfold State.missedExchange
  exact .ite (fun _ => (testStep_ch ..).up)
    (fun _ => .ite (fun _ => (missTerminator_ch ..).up) (fun _ => (missDrop_ch ..).up))

/-! ## Confirmations (R71 to R73, R105) -/

theorem takeBacklog_ch (p : Nat) (ev : LineEvent) (s : State) : Changes kLog s (State.takeBacklog p ev s) := by
  unfold State.takeBacklog
  split <;> first | exact backlogRecord_ch .. | exact .refl s

theorem handAnswer_ch (p : Nat) (c : LineCmd) (ev : LineEvent) (s : State) :
    Changes kGrant s (State.handAnswer p c ev s) := by
  unfold State.handAnswer
  split
  · exact .ite (fun _ => (verdictStale_ch ..).up) (fun _ => verdictDone_ch ..)
  · have h1 (x : State) (hx : Changes kGrant s x) (n : Nat) : Changes kGrant s (x.remoteOpened p n false) :=
      hx.comp (remoteOpened_ch ..)
    exact h1 _ (.ite (fun _ => .refl s) (fun _ => (modPlace_same s p (unlock_same _)).up)) _
  · exact .ite (fun _ => (modPlace_same s p holdOpenDone_same).up) (fun _ => .refl s)
  · exact .ite (fun _ => (modPlace_same s p secureDone_same).up) (fun _ => .refl s)
  · exact (addConfirmed_ch ..).up
  · exact (removeConfirmed_ch ..).up
  · exact (joinFlushDone_ch ..).up
  · exact (suspectFlushDone_ch ..).up
  · split
    · exact (identified_ch ..).up
    · exact .refl s
  · exact (takeBacklog_ch ..).up

theorem confirm_ch (p : Nat) (c : LineCmd) (ev : LineEvent) (s : State) : Changes kGrant s (State.confirm p c ev s) := by
  unfold State.confirm
  have h1 : Changes kGrant s (s.modPlace p (fun pl => { pl with delivery := none, nextBit := !pl.nextBit })) := by
    refine (modPlace_ch s p (fun pl h => ?_)).up
    simp only [Place.queueLen_eq, Option.toList_none, List.length_nil] at h ⊢; omega
  exact (h1.comp (handAnswer_ch ..)).comp (reoffer_ch ..)

theorem settleDoubt_ch (p : Nat) (c : LineCmd) (acted : Bool) (s : State) :
    Changes kRev s (State.settleDoubt p c acted s) := by
  unfold State.settleDoubt
  split
  · exact .ite (fun _ => (modPlace_same s p (fun _ => by rfl)).up)
      (fun _ => .ite (fun _ => (modPlace_same s p (fun _ => by rfl)).up) (fun _ => .refl s))
  · exact .ite (fun _ => removeConfirmed_ch ..) (fun _ => (modPlace_same s p (fun _ => by rfl)).up)
  · exact .ite (fun _ => .ite (fun _ => suspectFlushDone_ch ..)
      (fun _ => (modPlace_same s p (fun _ => by rfl)).up)) (fun _ => .refl s)
  all_goals exact .refl s

theorem settleDeparted_ch (p : Nat) (r : Response) (s : State) : Changes kRev s (State.settleDeparted p r s) := by
  unfold State.settleDeparted
  split
  · exact .refl s
  · refine .ite (fun _ => .refl s) (fun _ => ?_)
    exact ((Changes.up (modPlace_same s p (fun _ => by rfl))).comp (settleDoubt_ch ..)).comp (reoffer_ch ..)

theorem departedBacklog_ch (p : Nat) (r : Response) (s : State) : Changes kLog s (State.departedBacklog p r s) := by
  unfold State.departedBacklog
  split
  · exact .refl s
  · exact .ite (fun _ => takeBacklog_ch ..) (fun _ => .refl s)

theorem plainResponse_ch (p : Nat) (e : Exchange) (r : Response) (s : State) :
    Changes kRev s (State.plainResponse p e r s) := by
  unfold State.plainResponse
  simp only
  have h1 : Changes kRev s (s.modPlace p (fun pl => { pl with nextBit := !r.echo })) :=
    (modPlace_same s p (fun _ => by rfl)).up
  refine .ite (fun _ => ?_) (fun _ => h1)
  have h2 := (h1.comp (settleDeparted_ch p r _)).comp (departedBacklog_ch p r _)
  exact .ite (fun _ => h2) (fun _ => h2.comp (modPlace_same _ p (fun _ => by rfl)))

theorem heard_ch (p : Nat) (r : Response) (s : State) : Changes [.places] s (State.heard p r s) := by
  unfold State.heard
  simp only
  split
  · exact setPlace_ch s p _ (fun h => Place.offer_ok _ _ h)
  · exact setPlace_ch s p _ (fun h => Place.offerZone_ok _ h)
  · exact setPlace_same s p (by rfl)
  · exact setPlace_same s p (by rfl)

theorem takeCondition_ch (p : Nat) (r : Response) (s : State) : Changes kDoor s (State.takeCondition p r s) :=
  ((reportCond_ch ..).comp (modPlace_same _ p (f := fun pl => { pl with backlog := r.status.getLsbD 3 })
    (fun _ => rfl))).comp (backlogRule_ch ..)

theorem takeEvent_ch (p : Nat) (ev : LineEvent) (s : State) : Changes kLine s (State.takeEvent p ev s) := by
  unfold State.takeEvent
  split
  · exact (present_ch ..).up
  · exact .ite (fun _ => (compartmentEvent_ch ..).up) (fun _ => .refl s)
  all_goals exact .refl s

theorem nextBacklog_ch (p : Nat) (c : LineCmd) (s : State) : Changes [.places] s (State.nextBacklog p c s) :=
  .ite (fun _ => backlogRule_ch p s) (fun _ => .refl s)

theorem takeAnswer_ch (p : Nat) (e : Exchange) (r : Response) (s : State) :
    Changes kGrant s (State.takeAnswer p e r s) := by
  unfold State.takeAnswer
  split
  · exact .ite (fun _ => (confirm_ch ..).comp (nextBacklog_ch ..)) (fun _ => .refl s)
  · exact (plainResponse_ch ..).up

theorem dropResponse_ch (p : Nat) (e : Exchange) (r : Response) (s : State) :
    Changes kLine s (State.dropResponse p e r s) :=
  (((Changes.up (heard_ch p r s)).comp (takeCondition_ch p r _)).comp (takeEvent_ch p r.event _)).comp
    (takeAnswer_ch p e r _)

theorem terminatorResponse_ch (g : Nat) (r : Response) (s : State) :
    Changes kAbsent s (State.terminatorResponse g r s) := by
  unfold State.terminatorResponse
  simp only
  exact .ite (fun _ => (Changes.up (modSeg_ch ..)).comp (enterStopped_ch ..)) (fun _ => (modSeg_ch ..).up)

theorem testResponse_ch (g : Nat) (r : Response) (s : State) : Changes kTest s (State.testResponse g r s) := by
  unfold State.testResponse
  split
  · exact .refl s
  · exact testStep_ch ..

theorem validExchange_ch (g : Nat) (e : Exchange) (r : Response) (s : State) :
    Changes kLine s (State.validExchange g e r s) := by
  unfold State.validExchange
  exact .ite (fun _ => (testResponse_ch ..).up)
    (fun _ => .ite (fun _ => (terminatorResponse_ch ..).up) (fun _ => dropResponse_ch ..))

theorem endExchange_ch (g : Nat) (e : Exchange) (s : State) : Changes [.segs] s (State.endExchange g e s) := modSeg_ch ..

theorem responseReceived_ch (g : Nat) (bs : List Byte) (s : State) :
    Changes kLine s (State.responseReceived g bs s) := by
  unfold State.responseReceived
  split
  · exact .refl s
  · simp only
    split
    · exact (Changes.up (endExchange_ch ..)).comp (validExchange_ch ..)
    · exact ((Changes.up (endExchange_ch ..)).comp (countBad_ch ..)).comp (missedExchange_ch ..)

theorem windowClosed_ch (g : Nat) (s : State) : Changes kLine s (State.windowClosed g s) := by
  unfold State.windowClosed
  split
  · exact .refl s
  · exact (Changes.up (endExchange_ch ..)).comp (missedExchange_ch ..)

end Sys2Proof.Machine
end

