-- ==== Sys2Proof/Laws/ChangesTrunk.lean ====
section
/-! SUPPORT. What the Trunk Interface, the Table Store Interface, start-up and the second event change. -/

-- Proofs are checked one after another: with many small ones at once Lean asks for more threads than the memory limit admits.
set_option Elab.async false

namespace Sys2Proof.Machine

/-! ## Receiving (R170 to R172) -/

abbrev kTrunk : List Part := [.faults, .notices, .trunk]

theorem setLink_ch (port : Port) (x : Bool) (s : State) : Changes [.trunk] s (State.setLink port x s) := by
  cases port <;> exact .one (.trunk s _ (by decide) id)

theorem badFrame_ch (port : Port) (s : State) : Changes kTrunk s (State.badFrame port s) := by
  unfold State.badFrame
  cases port
  · exact (Changes.up (K := kTrunk) (L := [.trunk]) (.one (.trunk s
      { s.trunk with upErrors := min 65535 (s.trunk.upErrors + 1) } (by decide) id))).comp (giveFault_ch ..)
  · exact (Changes.up (K := kTrunk) (L := [.trunk]) (.one (.trunk s
      { s.trunk with downErrors := min 65535 (s.trunk.downErrors + 1) } (by decide) id))).comp (giveFault_ch ..)

theorem overrun_ch (port : Port) (s : State) : Changes [.trunk] s (State.overrun port s) := by
  cases port <;> exact .one (.trunk s _ (by decide) id)

/-- A frame enters a queue only while it has room: a full queue asserts hold (R172). -/
theorem takeFrame_ch (port : Port) (f : TrunkFrame) (s : State) : Changes [.trunk] s (State.takeFrame port f s) := by
  unfold State.takeFrame
  refine .ite (fun _ => overrun_ch ..) (fun h => ?_)
  cases port
  · simp only [State.holds, decide_eq_true_eq, not_le] at h
    refine .one (.trunk s _ (by decide) (fun hb => ⟨?_, hb.2⟩))
    simp only [List.length_append, List.length_singleton]; omega
  · simp only [State.holds, decide_eq_true_eq, not_le] at h
    refine .one (.trunk s _ (by decide) (fun hb => ⟨hb.1, hb.2.1, ?_, hb.2.2.2⟩))
    simp only [List.length_append, List.length_singleton]; omega

theorem receive_ch (port : Port) (bs : List Byte) (s : State) : Changes kTrunk s (State.receive port bs s) := by
  unfold State.receive
  simp only
  have h1 : Changes kTrunk s (s.setLink port true) := (setLink_ch ..).up
  refine .ite (fun _ => ?_) (fun _ => h1)
  split
  · exact h1.comp (takeFrame_ch ..)
  · exact h1.comp (badFrame_ch ..)

theorem partnerHold_ch (port : Port) (x : Bool) (s : State) : Changes [.trunk] s (State.partnerHold port x s) := by
  cases port <;> exact .one (.trunk s _ (by decide) id)

/-! ## The classifier (R173 to R180) -/

abbrev kClassify : List Part := [.trunk, .completions, .request]

theorem noRoute_ch (f : TrunkFrame) (s : State) : Changes [.completions] s (State.noRoute f s) := by
  unfold State.noRoute
  exact .ite (fun _ => .refl s) (fun _ => buildCompletion_ch ..)

theorem consume_ch (f : TrunkFrame) (form : DestForm) (s : State) :
    Changes [.completions, .request] s (State.consume f form s) := by
  unfold State.consume
  split
  · exact (buildCompletion_ch ..).up
  · exact (buildCompletion_ch ..).up
  all_goals
    split
    · exact (buildCompletion_ch ..).up
    · exact .one (.request s _ (by decide))

/-- A frame is taken only while the downlink queue has a place for it or the link is down (R173, R180). -/
theorem classifyNext_ch (s : State) : Changes kClassify s s.classifyNext := by
  unfold State.classifyNext
  split
  · exact .refl s
  · rename_i f fs hq
    refine .ite (fun hc => ?_) (fun _ => .refl s)
    have h1 : Changes kClassify s { s with trunk := { s.trunk with classifier := fs } } := by
      refine .one (.trunk s _ (by decide) (fun hb => ⟨?_, hb.2⟩))
      have := hb.1; rw [hq] at this; simp only [List.length_cons] at this ⊢; omega
    have hlen : s.trunk.downLink = true → s.trunk.downlink.length < 8 := by
      intro hl
      simp only [State.canClassify, Bool.and_eq_true, Bool.or_eq_true, decide_eq_true_eq, hl] at hc
      simpa using hc.1.1.1
    unfold State.classify
    simp only
    have h2 : Changes kClassify s (if State.forwarded { s with trunk := { s.trunk with classifier := fs } } f then
        State.forward f { s with trunk := { s.trunk with classifier := fs } }
        else { s with trunk := { s.trunk with classifier := fs } }) := by
      refine .ite (fun _ => ?_) (fun _ => h1)
      unfold State.forward
      refine .ite (fun hl => h1.comp (L := [.trunk]) (.one (.trunk _ _ (by decide) (fun hb => ?_))))
        (fun _ => h1.comp (noRoute_ch ..))
      refine ⟨hb.1, ?_, hb.2.2⟩
      have := hlen hl
      simp only [List.length_append, List.length_singleton]; omega
    split
    · exact h2.comp (consume_ch ..)
    · exact h2

/-! ## Transmission and links (R160, R179 to R184) -/

theorem endTx_ch (port : Port) (s : State) : Changes [.trunk] s (s.endTx port) := by
  cases port
  · exact .one (.trunk s { s.trunk with upTx := none } (by decide) id)
  · exact .one (.trunk s { s.trunk with downTx := none } (by decide) id)

/-- R179, R183: the test for a frame in transmission counts itself, and may end that transmission. -/
theorem testTx_ch (port : Port) (s : State) : Changes [.trunk] s (s.testTx port) := by
  unfold State.testTx
  have h : Changes [.trunk] s { s with trunk := { s.trunk with txTests := s.trunk.txTests + 1 } } :=
    .one (.trunk s { s.trunk with txTests := s.trunk.txTests + 1 } (by decide) id)
  exact .ite (fun _ => .ite (fun _ => h.comp (endTx_ch ..)) (fun _ => h)) (fun _ => .refl s)

/-- With no frame in transmission the test passes and counts nothing. -/
theorem testTx_idle (port : Port) (s : State) (h : s.transmits port = false) : s.testTx port = s := by
  simp [State.testTx, h]

/-- With a frame listed as begun, the test is counted, and the frame has ended or has not. -/
theorem testTx_cases (port : Port) (s : State) (h : s.transmits port = true) :
    let u : State := { s with trunk := { s.trunk with txTests := s.trunk.txTests + 1 } }
    s.testTx port = u ∨ s.testTx port = u.endTx port := by
  simp only [State.testTx, h, if_true]
  split
  · exact .inr rfl
  · exact .inl rfl

theorem sendOldest_ch (s : State) : Changes [.trunk] s s.sendOldest := by
  unfold State.sendOldest
  split
  · exact .refl s
  · rename_i f fs hq
    refine .ite (fun _ => .refl s) (fun _ => .one (.trunk s _ (by decide) (fun hb => ⟨hb.1, ?_, hb.2.2⟩)))
    have := hb.2.1; rw [hq] at this; simp only [List.length_cons] at this ⊢; omega

theorem sendDown_ch (s : State) : Changes [.trunk] s s.sendDown :=
  .ite (fun _ => (testTx_ch _ s).comp (sendOldest_ch _)) (fun _ => .refl s)

abbrev kSend : List Part := [.trunk, .journal, .due]

theorem sendLocal_ch (s : State) : Changes kSend s s.sendLocal := by
  unfold State.sendLocal
  split
  · rename_i c cs hq
    have h1 : Changes kSend s { s with trunk := { s.trunk with
        completions := cs, upTx := some (.completion c), lastServed := .local } } := by
      refine .one (.trunk s _ (by decide) (fun hb => ⟨hb.1, hb.2.1, hb.2.2.1, ?_, hb.2.2.2.2⟩))
      have := hb.2.2.2.1; rw [hq] at this; simp only [List.length_cons] at this ⊢; omega
    simp only
    exact .ite (fun _ => h1) (fun _ => h1.comp (addDue_ch ..))
  · rename_i n ns _ hq
    refine .one (.trunk s _ (by decide) (fun hb => ⟨hb.1, hb.2.1, hb.2.2.1, hb.2.2.2.1, ?_⟩))
    have := hb.2.2.2.2; rw [hq] at this; simp only [List.length_cons] at this ⊢; omega
  · rename_i r _ _ ho
    have h1 : Changes kSend s { s with trunk := { s.trunk with upTx := some (.journal r), lastServed := .local } } :=
      .one (.trunk s _ (by decide) id)
    refine h1.comp (L := [.journal]) (.one (.journal _ { s.journal with cursor := s.journal.cursor + 1 } (by decide)
      (fun hj => ?_)))
    have hlt : s.journal.cursor < s.journal.next := by
      unfold State.journalOffer at ho
      split at ho
      · rename_i h; exact h.2
      · cases ho
    have h2 := hj.releaseCursor
    simp only at h2
    refine { releaseCursor := ?_, cursorNext := ?_, nextLimit := hj.nextLimit, capacity := hj.capacity,
             numbers := hj.numbers, limitRises := hj.limitRises }
    · simp only; omega
    · simp only; omega
  · exact .refl s

theorem sendThrough_ch (s : State) : Changes [.trunk] s s.sendThrough := by
  unfold State.sendThrough
  split
  · exact .refl s
  · rename_i f fs hq
    refine .one (.trunk s _ (by decide) (fun hb => ⟨hb.1, hb.2.1, ?_, hb.2.2.2⟩))
    have := hb.2.2.1; rw [hq] at this; simp only [List.length_cons] at this ⊢; omega

theorem serveNext_ch (s : State) : Changes kSend s s.serveNext :=
  .ite (fun _ => sendLocal_ch s) (fun _ => .ite (fun _ => sendLocal_ch s) (fun _ => (sendThrough_ch s).up))

theorem arbitrate_ch (s : State) : Changes kSend s s.arbitrate :=
  .ite (fun _ => (Changes.up (testTx_ch _ s)).comp (.ite (fun _ => .refl _) (fun _ => serveNext_ch _)) (fun _ h => h))
    (fun _ => .refl s)

theorem enterCompletion_ch (s : State) : Changes [.completions] s s.enterCompletion := by
  unfold State.enterCompletion
  split
  · exact .refl s
  · rename_i c cs _
    refine .ite (fun h => ?_) (fun _ => .refl s)
    refine .one (.completions s (s.trunk.completions ++ [c]) cs (by decide) (fun _ => ?_))
    simp only [List.length_append, List.length_singleton]; omega

abbrev kLink : List Part := [.faults, .notices, .trunk, .completions]

theorem disconnect_ch (port : Port) (rx tx : Bool) (s : State) : Changes kLink s (State.disconnect port rx tx s) := by
  unfold State.disconnect
  refine .ite (fun _ => ?_) (fun _ => .refl s)
  simp only
  have h1 : Changes kLink s (s.setLink port false) := (setLink_ch ..).up
  have h2 : Changes kLink s (if rx then (s.setLink port false).badFrame port else s.setLink port false) :=
    .ite (fun _ => h1.comp (badFrame_ch ..)) (fun _ => h1)
  generalize (if rx then (s.setLink port false).badFrame port else s.setLink port false) = t at h2 ⊢
  cases port
  · exact h2.comp (endTx_ch .uplink t)
  · refine ((h2.comp (L := [.trunk]) (.one (.trunk t { t.trunk with downlink := [] } (by decide)
      (fun hb => ⟨hb.1, by simp, hb.2.2⟩)))).comp (endTx_ch .downlink _)).comp
        (Changes.fold (fun s f => noRoute_ch f s) _ _)

theorem clearTrunk_ch (s : State) : Changes [.trunk] s s.clearTrunk :=
  .one (.trunk s _ (by decide) (fun _ => by simp [Trunk.Bounded]))

/-! ## The table store (R164, R165, R205) -/

theorem startWrite_ch (s : State) : Changes [.dirty] s s.startWrite := by
  unfold State.startWrite
  split
  · exact .one (.dirty s s.dirty _ (by decide) id)
  · exact .refl s

theorem reserved_ch (b : Nat) (s : State) : Changes kLog s (State.reserved b s) := by
  unfold State.reserved
  split
  · exact .refl s
  · rename_i n hn
    simp only
    refine Changes.comp (Changes.comp (Changes.up (K := kLog) (L := [.journal])
      (.one (.journal s _ (by decide) (fun hj => ?_)))) (reserve_ch _)) (storeGap_ch _)
    have h1 := hj.limitRises n hn
    have h2 := hj.nextLimit
    refine { releaseCursor := hj.releaseCursor, cursorNext := hj.cursorNext, nextLimit := ?_, capacity := hj.capacity,
             numbers := hj.numbers, limitRises := ?_ }
    · simp only; omega
    · intro m hm; cases hm

abbrev kStore : List Part := [.faults, .notices, .journal, .dirty, .store, .status]

theorem endAttempt_ch (b : Nat) (x : Attempt) (s : State) : Changes [.status] s (State.endAttempt b x s) := by
  unfold State.endAttempt
  exact .ite (fun _ => .one (.status s _ _ _ _ _ (by decide))) (fun _ => .refl s)

theorem writeDone_ch (b : Nat) (changed : Bool) (s : State) : Changes kStore s (State.writeDone b changed s) := by
  unfold State.writeDone
  simp only
  have h1 : Changes kStore s { s with
      writer := .idle, dirty := if changed then s.dirty else s.dirty.filter (fun x => x != b) } :=
    .one (.dirty s _ _ (by decide) (fun h => by split; exacts [h, h.filter _]))
  have h2 := h1.comp (endAttempt_ch b .acknowledged _)
  exact .ite (fun _ => h2.comp (reserved_ch ..)) (fun _ => h2)

theorem writeFailed_ch (b : Nat) (s : State) : Changes kStore s (State.writeFailed b s) := by
  unfold State.writeFailed
  have h1 : Changes kStore s { s with writer := .waiting } := .one (.dirty s s.dirty _ (by decide) id)
  exact (h1.comp (endAttempt_ch ..)).comp (giveFault_ch ..)

theorem putBlock_wf (st : Tab (List Byte)) (b : Nat) (img : List Byte) (h : Tab.Wf blankBlock st) :
    Tab.Wf blankBlock (putBlock st b img) := Tab.put_wf _ _ _ h

theorem completeWrite_ch (reported : Bool) (landed : Option (List Byte)) (s : State) :
    Changes kStore s (State.completeWrite reported landed s) := by
  unfold State.completeWrite
  split
  · exact .refl s
  · exact .refl s
  · rename_i b copy changed _
    simp only
    have h1 : Changes kStore s { s with store := putBlock s.store b (landed.getD copy) } :=
      .one (.store s _ (by decide) (putBlock_wf _ _ _))
    exact .ite (fun _ => h1.comp (writeDone_ch ..)) (fun _ => h1.comp (writeFailed_ch ..))

/-! ## Start-up (R206 to R209) -/

abbrev kStart : List Part :=
  [.faults, .notices, .journal, .dirty, .places, .segs, .creds, .revocations, .rooms, .stays, .charges, .status, .zones,
   .schedules, .windows, .prices, .policy]

theorem note_ch (stage : Nat) (code : NoteCode) (s : State) : Changes [.status] s (State.note stage code s) :=
  .one (.status s _ _ _ _ _ (by decide))

theorem enterBypass_ch (stage : Nat) (s : State) : Changes [.status] s (State.enterBypass stage s) :=
  .one (.status s _ _ _ _ _ (by decide))

theorem noteMemory_ch (n : Nat) (s : State) : Changes [.status] s (State.noteMemory n s) :=
  .fold (fun s _ => note_ch 2 .memory s) _ s

/-- What the two reservation copies give, on a journal whose ring is empty, is contiguous (R167). -/
theorem restored_contiguous (j : Journal) (l : Nat) (x : Numbering) (a b : Option Nat) (h1 : j.ring = [])
    (h2 : j.pendingLimit = none) :
    ({ j with release := l, cursor := l, next := l, limit := l, numbering := x, copyA := a, copyB := b }
      : Journal).Contiguous :=
  { releaseCursor := le_refl l, cursorNext := le_refl l, nextLimit := le_refl l, capacity := by simp,
    numbers := by simp [h1], limitRises := by simp [h2] }

theorem badCopy_ch (b : Nat) (v : Option Nat) (s : State) : Changes [.faults, .notices, .status] s (State.badCopy b v s) := by
  unfold State.badCopy
  exact .ite (fun _ => (Changes.up (faultWith_ch ..)).comp (note_ch ..)) (fun _ => .refl s)

theorem firstReservation_ch (s : State) : Changes kStart s s.firstReservation := by
  unfold State.firstReservation
  split
  · exact (Changes.up (note_ch ..)).comp (L := [.status]) (.one (.status _ _ _ _ _ _ (by decide)))
  · exact .one (.status s _ _ _ _ _ (by decide))
  · exact ((Changes.up (reserve_ch s)).comp (L := [.status]) (.one (.status _ _ _ _ _ .awaited (by decide)))).comp
      (startWrite_ch _)

/-- Reading the copies: on a journal whose ring is empty and that has no pending limit. -/
theorem readCopies_ch (s : State) (h1 : s.journal.ring = []) (h2 : s.journal.pendingLimit = none) :
    Changes kStart s s.readCopies := by
  unfold State.readCopies
  simp only
  have hb : Changes [.faults, .notices, .status] s
      ((s.badCopy 0 (copyValue (s.readBlock 0))).badCopy 1 (copyValue (s.readBlock 1))) :=
    (badCopy_ch ..).comp (badCopy_ch ..)
  have hj := hb.journal_eq
  generalize State.badCopy 1 _ _ = t at hb hj ⊢
  refine Changes.comp (Changes.comp (hb.up (K := kStart)) (L := [.journal]) (.one (.journal t _ (by decide) (fun _ => ?_))))
    (firstReservation_ch _)
  exact restored_contiguous _ _ _ _ _ (by rw [hj, h1]) (by rw [hj, h2])

/-- Power-on reset ends in a chain of changes from the state that the supply leaves. -/
theorem powerOn_ch (i : PowerOn) (s : State) : Changes kStart (s.powered i) (State.powerOn i s) := by
  unfold State.powerOn
  simp only
  have h0 : Changes kFault (s.powered i) (s.powered i).clockUnset := giveFault_ch ..
  refine .ite (fun _ => h0.up.comp (enterBypass_ch ..)) (fun _ => ?_)
  have h1 : Changes [.faults, .notices, .status] (s.powered i) ((s.powered i).clockUnset.noteMemory i.failedPasses.val) :=
    h0.up.comp (noteMemory_ch ..)
  have hj := h1.journal_eq
  refine .ite (fun _ => h1.up.comp (enterBypass_ch ..)) (fun _ => ?_)
  exact h1.up.comp (readCopies_ch _ (by rw [hj]; rfl) (by rw [hj]; rfl))

theorem listEntries_rising {α : Type} (t : Tab α) (first : Nat) (f : List Byte → Option α) (cs : List (List Byte))
    (h : Tab.Rising t) : Tab.Rising (listEntries t first f cs) := by
  unfold listEntries
  generalize indexed first cs = l
  induction l generalizing t with
  | nil => exact h
  | cons e l ih =>
    refine ih _ ?_
    simp only
    split
    · exact Tab.write_rising _ _ h
    · exact h

theorem fillEntries_wf {α : Type} [DecidableEq α] (d : α) (t : Tab α) (first : Nat) (f : List Byte → α)
    (cs : List (List Byte)) (h : Tab.Wf d t) : Tab.Wf d (fillEntries d t first f cs) := by
  unfold fillEntries
  generalize indexed first cs = l
  induction l generalizing t with
  | nil => exact h
  | cons e l ih => exact ih _ (Tab.put_wf d _ _ h)

/-- A record that is read has passed its check. -/
theorem parse_checked {α : Type} {r : Reader} {check : Fields → Except Nat α} {bs : List Byte} {a : α}
    (h : parse r check bs = some a) : ∃ f, check f = .ok a := by
  unfold parse at h
  split at h
  · cases h
  · split at h
    · cases h
    · cases h; exact ⟨_, ‹_›⟩

theorem storedComps_length {f : Fields} {cs : List Compartment} (h : storedComps f = .ok cs) : cs.length = 12 := by
  unfold storedComps at h
  split at h
  · cases h
  · simp only at h
    split at h
    · cases h; assumption
    · cases h

/-- R133: a place restored holds at most twelve compartments. -/
theorem restoredCompartments_length (d : DoorRec) (bs : List Byte) : (restoredCompartments d bs).length ≤ 12 := by
  have read {bs : List Byte} {cs : List Compartment} (h : parse readComps storedComps bs = some cs) : cs.length ≤ 12 := by
    obtain ⟨f, hf⟩ := parse_checked h
    exact (storedComps_length hf).le
  unfold restoredCompartments orDefault
  split
  · split
    · exact read ‹_›
    · unfold legalRecord
      cases h : (Config.restoredComps bs).bind (fun a => parse readComps storedComps (0#8 :: a.flatMap compBytes)) with
      | none => simp
      | some cs =>
        obtain ⟨a, -, ha⟩ := Option.bind_eq_some_iff.mp h
        exact read ha
  · simp

theorem restorePlace_ch (s : State) (e : Nat × List Byte) : Changes [.places] s (s.restorePlace e) := by
  unfold State.restorePlace
  exact modPlace_comps s e.1 (fun _ h => h) (fun _ _ => restoredCompartments_length ..)

theorem restoreBlock_ch (b : Nat) (img : List Byte) (s : State) : Changes kStart s (State.restoreBlock b img s) := by
  unfold State.restoreBlock
  refine .ite (fun _ => .one (.policy s _ (by decide))) (fun _ => ?_)
  refine .ite (fun _ => .one (.zones s _ (by decide) (fillEntries_wf _ _ _ _ _))) (fun _ => ?_)
  refine .ite (fun _ => .one (.schedules s _ (by decide) (fillEntries_wf _ _ _ _ _))) (fun _ => ?_)
  refine .ite (fun _ => .one (.windows s _ (by decide) (fillEntries_wf _ _ _ _ _))) (fun _ => ?_)
  refine .ite (fun _ => .one (.prices s _ (by decide) (fillEntries_wf _ _ _ _ _))) (fun _ => ?_)
  refine .ite (fun _ => (Changes.fold (fun s e => restorePlace_ch s e) _ s).up) (fun _ => ?_)
  refine .ite (fun _ => .one (.rooms s _ (by decide) (listEntries_rising _ _ _ _))) (fun _ => ?_)
  refine .ite (fun _ => .one (.stays s _ (by decide) (listEntries_rising _ _ _ _))) (fun _ => ?_)
  refine .ite (fun _ => .one (.charges s _ (by decide))) (fun _ => ?_)
  exact .one (.creds s _ (by decide) (listEntries_rising _ _ _ _))

theorem restoreOne_ch (s : State) (b : Nat) : Changes kStart s (s.restoreOne b) := by
  unfold State.restoreOne
  split
  · exact restoreBlock_ch ..
  · exact (Changes.up (markDirty_ch ..)).comp (note_ch ..)
  · exact ((Changes.up (markDirty_ch ..)).comp (faultWith_ch ..)).comp (note_ch ..)

theorem restoreAll_ch (s : State) : Changes kStart s s.restoreAll := .fold (fun s b => restoreOne_ch s b) _ s

theorem fixRecord_ch (code : Nat) (w : Spot) (bs : List Byte) (s : State) :
    Changes kLog s (State.fixRecord code w bs s) := log_ch ..

theorem fixDuplicates_ch (s : State) : Changes kStart s s.fixDuplicates := by
  unfold State.fixDuplicates
  simp only
  refine (Changes.up (Changes.fold (K := kRev) (f := fun s e => s.revoke e.1 .replace)
    (fun s e => revoke_ch e.1 .replace s) s.losers s)).comp ?_ (L := kStart) (fun _ h => h)
  exact .fold (fun s e => (Changes.up (emptyCred_ch ..)).comp (fixRecord_ch ..)) _ _

theorem closeByFix_ch (s : State) (e : Nat × Stay) : Changes kStart s (s.closeByFix e) :=
  (Changes.up (setStay_ch ..)).comp (fixRecord_ch ..)

theorem fixStays_ch (s : State) : Changes kStart s s.fixStays := .fold (fun s e => closeByFix_ch s e) _ s

theorem dropField_ch (s : State) (e : Nat × Room) : Changes kStart s (s.dropField e) := by
  unfold State.dropField
  split
  · exact .refl s
  · exact .ite (fun _ => .refl s) (fun _ => (Changes.up (setRoom_ch ..)).comp (fixRecord_ch ..))

theorem giveField_ch (s : State) (e : Nat × Stay) : Changes kStart s (s.giveField e) := by
  unfold State.giveField
  simp only
  refine .ite (fun _ => .refl s) (fun _ => .ite (fun _ => closeByFix_ch ..) (fun _ => ?_))
  exact ((Changes.up (ensureRoom_ch ..)).comp (setOpenStay_ch ..)).comp (fixRecord_ch ..)

theorem createNamed_ch (s : State) (p : Nat) : Changes kStart s (s.createNamed p) := by
  unfold State.createNamed
  split
  · exact .refl s
  · refine .ite (fun _ => .refl s) (fun _ => ?_)
    simp only
    exact .ite (fun _ => (Changes.up (createRoom_ch ..)).comp (fixRecord_ch ..)) (fun _ => .refl s)

theorem removeUnnamed_ch (s : State) (e : Nat × Room) : Changes kStart s (s.removeUnnamed e) := by
  unfold State.removeUnnamed
  exact .ite (fun _ => (Changes.up (clearRoom_ch ..)).comp (fixRecord_ch ..)) (fun _ => .refl s)

theorem fixFields_ch (s : State) : Changes kStart s s.fixFields :=
  (Changes.fold (fun s e => dropField_ch s e) _ s).comp (.fold (fun s e => giveField_ch s e) _ _) (fun _ h => h)

theorem fixRooms_ch (s : State) : Changes kStart s s.fixRooms :=
  ((Changes.fold (fun s e => removeUnnamed_ch s e) _ s).comp (.fold (fun s p => createNamed_ch s p) _ _)
    (fun _ h => h)).comp (recomputeRooms_ch _)

theorem supersedeStale_ch (s : State) (e : Nat × Cred) : Changes kStart s (s.supersedeStale e) := by
  unfold State.supersedeStale
  exact (Changes.up (fixRecord_ch ..)).comp (revoke_ch ..)

theorem fixStale_ch (s : State) : Changes kStart s s.fixStale := .fold (fun s e => supersedeStale_ch s e) _ s

theorem commitRestored_ch (s : State) (c : Charge) : Changes kStart s (s.commitRestored c) :=
  ((Changes.up (fixRecord_ch 6 (.drop c.place) ([byte c.compartment] ++ le 2 c.stay) s)).comp (setCharges_ch ..)).comp
    (commit_ch ..)

theorem orphanAt_ch (p : Nat) (s : State) (c : Nat) : Changes kStart s (State.orphanAt p s c) := by
  unfold State.orphanAt
  exact .ite (fun _ => (Changes.up (moveComp_ch ..)).comp (fixRecord_ch ..)) (fun _ => .refl s)

theorem fixPending_ch (s : State) : Changes kStart s s.fixPending :=
  (Changes.fold (fun s c => commitRestored_ch s c) _ s).comp
    (.fold (fun s p => .fold (fun s c => orphanAt_ch p s c) _ s) _ _) (fun _ h => h)

theorem startMarks_ch (s : State) (p : Nat) : Changes [.places] s (s.startMarks p) := by
  unfold State.startMarks
  exact .ite (fun _ => modPlace_same s p (fun _ => by rfl)) (fun _ => .refl s)

theorem reconcile_ch (s : State) : Changes kStart s s.reconcile :=
  ((((((fixDuplicates_ch s).comp (fixStays_ch _)).comp (fixFields_ch _)).comp (fixRooms_ch _)).comp
    (fixStale_ch _)).comp (fixPending_ch _)).comp (Changes.fold (fun s p => startMarks_ch s p) _ _)

theorem unitStart_ch (s : State) : Changes kStart s s.unitStart := by
  unfold State.unitStart
  simp only
  exact .ite (fun _ => (Changes.up (log_ch ..)).comp (note_ch ..)) (fun _ => (log_ch ..).up)

theorem finishStart_ch (s : State) : Changes kStart s s.finishStart := by
  unfold State.finishStart
  split
  · exact .one (.status s _ _ _ _ _ (by decide))
  · simp only
    exact (Changes.up (L := [.status]) (.one (.status s _ _ _ _ _ (by decide)))).comp (giveFault_ch ..)

theorem startUp_ch (s : State) : Changes kStart s s.startUp := by
  unfold State.startUp
  refine .ite (fun _ => ?_) (fun _ => .refl s)
  exact ((((restoreAll_ch s).comp (reconcile_ch _)).comp (unitStart_ch _)).comp
    (Changes.fold (fun s g => enterTesting_ch g s) _ _)).comp (finishStart_ch _)

/-! ## The second event and what is due (R26, R27) -/

abbrev kMinute : List Part :=
  [.faults, .notices, .journal, .dirty, .places, .segs, .creds, .revocations, .clock]

theorem advanceClock_ch (s : State) : Changes [.clock] s s.advanceClock := by
  refine .one (.clock s _ (by decide) (fun h => ?_))
  obtain ⟨h1, h2, h3⟩ := h
  refine ⟨?_, ?_, h3⟩
  · simp only; omega
  · simp only; split <;> omega

theorem clockEnd_ch (s : State) : Changes kFault s s.clockEnd := by
  unfold State.clockEnd
  exact .ite (fun _ => giveFault_ch ..) (fun _ => .refl s)

theorem unsetFault_ch (s : State) : Changes kFault s s.unsetFault := by
  unfold State.unsetFault
  exact .ite (fun _ => giveFault_ch ..) (fun _ => .refl s)

theorem expireIfRunning_ch (s : State) : Changes kRev s s.expireIfRunning := by
  unfold State.expireIfRunning
  exact .ite (fun _ => applyExpiry_ch s) (fun _ => .refl s)

theorem minuteAdvance_ch (s : State) : Changes kMinute s s.minuteAdvance :=
  ((((Changes.up (advanceClock_ch s)).comp (clockEnd_ch _)).comp (unsetFault_ch _)).comp (deadlineTest_ch _)).comp
    (expireIfRunning_ch _)

abbrev kSecond : List Part := [.clock, .places, .charges, .segs, .dirty, .due]

theorem countSecondEvent_ch (s : State) : Changes [.clock] s s.countSecond := by
  refine .one (.clock s _ (by decide) (fun h => ⟨h.1, h.2.1, ?_⟩))
  simp only; omega

theorem countDoors_ch (s : State) : Changes [.places] s s.countDoors :=
  .fold (fun s p => modPlace_same s p countSecond_same) _ s

theorem countRetest_ch (s : State) (g : Nat) : Changes [.segs] s (s.countRetest g) := by
  unfold State.countRetest
  exact .ite (fun _ => modSeg_ch ..) (fun _ => .refl s)

theorem wakeWriter_ch (s : State) : Changes [.dirty] s s.wakeWriter := by
  unfold State.wakeWriter
  split
  · exact .one (.dirty s s.dirty _ (by decide) id)
  · exact .refl s
  · exact .refl s

theorem countAll_ch (s : State) : Changes kSecond s s.countAll := by
  unfold State.countAll
  refine Changes.comp (Changes.comp ?_ (Changes.fold (fun s g => countRetest_ch s g) _ _)) (wakeWriter_ch _)
  exact ((Changes.up (countSecondEvent_ch s)).comp (countDoors_ch _)).comp (L := [.charges]) (.one (.charges _ _ (by decide)))

theorem secondEvent_ch (s : State) : Changes kSecond s s.secondEvent :=
  (countAll_ch s).comp (L := [.due]) (.one (.due _ _ (by decide)))

/-- What the rows of the due consequences can change. -/
abbrev kCarry : List Part :=
  [.faults, .notices, .journal, .dirty, .places, .segs, .creds, .revocations, .clock, .stays, .charges, .completions]

theorem carryOut_ch (s : State) (d : Due) : Changes kCarry s (s.carryOut d) := by
  unfold State.carryOut
  split
  · exact (minuteAdvance_ch s).up
  · exact (unlockTimeout_ch ..).up
  · exact (doorHeld_ch ..).up
  · exact (commitWhere_ch ..).up
  · exact (closeWindow_ch ..).up
  · exact (retestTimeout_ch ..).up
  · exact (missSilent_ch ..).up
  · exact (missAbsent_ch ..).up
  · exact (terminatorDown_ch ..).up
  · exact (enterCompletion_ch ..).up

abbrev kSettle : List Part :=
  [.faults, .notices, .journal, .dirty, .places, .segs, .creds, .revocations, .clock, .stays, .charges, .completions, .due]

theorem settle_ch (s : State) : Changes kSettle s s.settle :=
  (Changes.up (L := [.due]) (.one (.due s [] (by decide)))).comp (Changes.fold (fun s d => carryOut_ch s d) _ _)

/-- Once everything due has been carried out, nothing is due. -/
theorem settle_due (s : State) : s.settle.due = [] := by
  unfold State.settle
  rw [(Changes.fold (fun s d => carryOut_ch s d) s.due { s with due := [] }).due_eq]

/-- With nothing due, settling changes nothing. -/
theorem settle_eq (s : State) (h : s.due = []) : s.settle = s := by
  unfold State.settle
  cases s
  simp only at h
  subst h
  rfl

theorem undue_ch (d : Due) (s : State) : Changes [.due] s (s.undue d) := .one (.due s _ (by decide))

theorem minuteFirst_ch (d : Due) (s : State) : Changes kSettle s (s.minuteFirst d) :=
  .ite (fun _ => (Changes.up (undue_ch ..)).comp (minuteAdvance_ch _)) (fun _ => .refl s)

theorem gracesFirst_ch (d : Due) (s : State) : Changes kSettle s (s.gracesFirst d) := by
  unfold State.gracesFirst
  split
  · exact .fold (fun s x => (Changes.up (undue_ch ..)).comp (commitWhere_ch ..)) _ s
  all_goals exact .refl s

theorem runDue_ch (d : Due) (s : State) : Changes kSettle s (State.runDue d s) :=
  (((minuteFirst_ch d s).comp (gracesFirst_ch d _) (fun _ h => h)).comp (undue_ch ..)).comp (carryOut_ch ..)

theorem expireAt_ch (i : Nat) (s : State) : Changes kRev s (State.expireAt i s) := by
  unfold State.expireAt
  split
  · exact .refl s
  · exact .ite (fun _ => revoke_ch ..) (fun _ => .refl s)

end Sys2Proof.Machine
end

