-- ==== Sys2Proof/Laws/ChangesRequests.lean ====
section
/-! SUPPORT. What requests change, and what any command changes. -/

-- Proofs are checked one after another: with many small ones at once Lean asks for more threads than the memory limit admits.
set_option Elab.async false

namespace Sys2Proof.Machine

/-! ## Numbers read from bytes -/

theorem ofLe_lt (bs : List Byte) : ofLe bs < 256 ^ bs.length := by
  induction bs with
  | nil => simp [ofLe]
  | cons b bs ih =>
    have := b.isLt
    simp only [ofLe, List.length_cons, Nat.pow_succ]
    omega

/-! ## The common handling (R185 to R188) -/

theorem answer_ch (kind : Byte) (q : Request) (a : Answer) (s : State) :
    Changes [.completions, .request] s (State.answer kind q a s) := by
  have h1 : Changes [.completions, .request] s { s with request := none } := .one (.request s none (by decide))
  unfold State.answer
  simp only
  cases a
  · exact h1.comp (buildCompletion_ch ..)
  · exact h1.comp (buildCompletion_ch ..)
  · exact h1

/-- A request changes what its body changes, the request in progress and the completions. -/
theorem runRequest_ch {K : List Part} (h1 : Part.completions ∈ K) (h2 : Part.request ∈ K) (kind : Byte) (q : Request)
    {body : Body} (hb : ∀ s, Changes K s (body s).1) (s : State) : Changes K s (State.runRequest kind q body s) := by
  have hK : ∀ x ∈ [Part.completions, Part.request], x ∈ K := by simp [h1, h2]
  have hK1 : ∀ x ∈ [Part.completions], x ∈ K := by simp [h1]
  unfold State.runRequest
  refine .ite (fun _ => ?_) (fun _ => .refl s)
  split
  · exact (answer_ch ..).mono hK
  · unfold State.answerBypass
    split
    · exact .refl s
    · exact (buildCompletion_ch ..).mono hK1
    · exact (buildCompletion_ch ..).mono hK1
  all_goals
    unfold State.execute
    split
    · exact (answer_ch ..).mono hK
    · exact (hb s).comp (answer_ch ..) hK

/-- A body that branches. -/
theorem iteFst {K : List Part} {a : State} {x y : State × Answer} {p : Prop} [Decidable p]
    (h1 : p → Changes K a x.1) (h2 : ¬p → Changes K a y.1) : Changes K a (if p then x else y).1 := by
  split
  · exact h1 ‹_›
  · exact h2 ‹_›

/-- A body that reads fields changes what its continuation changes. -/
theorem withFields_ch {K : List Part} (l : Layout) (q : Request) {k : Fields → Body}
    (hk : ∀ f s, Changes K s (k f s).1) (s : State) : Changes K s (withFields l q k s).1 := by
  unfold withFields
  split
  · exact .refl s
  · exact hk _ s

/-! ## ENROL and WITHDRAW -/

theorem writeCred_ch (i : Nat) (c : Cred) (s : State) : Changes kRev s (State.writeCred i c s) :=
  ((Changes.up (setCred_ch s i c)).comp (logCard_ch ..)).comp (handCredential_ch ..)

theorem placeCred_ch (s : State) (card : Nat) (r : Bool) : Changes kRev s (s.placeCred card r).1 := by
  unfold State.placeCred
  split
  · rename_i i old _
    simp only
    split
    · split
      · split
        · exact revoke_ch ..
        · exact revoke_ch ..
      · exact .refl s
    · split
      · exact .refl s
      · exact .refl s
  · split <;> exact .refl s

theorem enrolStages_ch (c : CredIn) (r : Bool) (s : State) : Changes kRev s (enrolStages c r s).1 := by
  unfold enrolStages
  split
  · exact .refl s
  · have h1 := placeCred_ch s c.cred.card r
    split <;> rename_i heq <;> rw [heq] at h1
    · exact h1
    · exact h1.comp (writeCred_ch ..)

theorem enrolBody_ch (q : Request) (r : Bool) (s : State) : Changes kRev s (enrolBody q r s).1 := by
  unfold enrolBody
  split
  · exact .refl s
  · split
    · exact .refl s
    · exact enrolStages_ch ..

theorem withdrawBody_ch (q : Request) (s : State) : Changes kRev s (withdrawBody q s).1 := by
  refine withFields_ch _ q (fun f s => ?_) s
  split
  · exact .refl s
  · split
    · exact revoke_ch ..
    · exact .refl s

/-! ## Stays -/

abbrev kStay : List Part := [.faults, .notices, .journal, .dirty, .stays, .rooms]

theorem writeStay_ch (i : Nat) (x : StayIn) (s : State) : Changes kStay s (State.writeStay i x s) :=
  (((Changes.up (setStay_ch ..)).comp (ensureRoom_ch ..)).comp (setOpenStay_ch ..)).comp (log_ch ..)

theorem stayOpenBody_ch (q : Request) (s : State) : Changes kStay s (stayOpenBody q s).1 := by
  unfold stayOpenBody
  split
  · refine withFields_ch _ q (fun f s => ?_) s
    split
    · exact .refl s
    · split
      · exact .refl s
      · split
        · exact .refl s
        · exact writeStay_ch ..
  · exact .refl s
  · exact .refl s

theorem extendAt_ch (e : Nat) (s : State) (i : Nat) : Changes [.creds, .dirty] s (State.extendAt e s i) := by
  unfold State.extendAt
  split
  · exact .refl s
  · exact .ite (fun _ => .refl s) (fun _ => setCred_ch ..)

abbrev kExtend : List Part := [.faults, .notices, .journal, .dirty, .stays, .creds]

theorem extendStay_ch (n e : Nat) (s : State) : Changes kExtend s (State.extendStay n e s).1 := by
  unfold State.extendStay
  split
  · split
    · exact (Changes.up (setStay_ch ..)).comp (log_ch ..)
    · exact .refl s
  · exact .refl s

theorem stayExtendBody_ch (q : Request) (s : State) : Changes kExtend s (stayExtendBody q s).1 := by
  refine withFields_ch _ q (fun f s => ?_) s
  refine iteFst (fun _ => .refl s) (fun _ => iteFst (fun _ => .refl s) (fun _ => ?_))
  exact (Changes.up (Changes.fold (fun s i => extendAt_ch _ s i) _ s)).comp (extendStay_ch ..)

abbrev kClose : List Part :=
  [.faults, .notices, .journal, .dirty, .places, .segs, .creds, .revocations, .stays, .charges, .rooms]

theorem closeStay_ch (i n : Nat) (s : State) : Changes kClose s (State.closeStay i n s).1 := by
  unfold State.closeStay
  simp only
  split
  · exact (commitWhere_ch ..).up
  · exact ((((Changes.up (commitWhere_ch ..)).comp (setStay_ch ..)).comp (setOpenStay_ch ..)).comp
      (removeRoom_ch ..)).comp (log_ch ..)

theorem stayCloseHeld_ch (n : Nat) (s : State) : Changes kClose s (stayCloseHeld n s).1 := by
  unfold stayCloseHeld
  simp only
  have h1 : Changes kClose s (s.revokeAll (s.guestsOf n) .checkout) := (revokeAll_ch ..).up
  split
  · exact h1
  · split
    · exact h1.comp (closeStay_ch ..)
    · exact h1

theorem stayCloseBody_ch (q : Request) (s : State) : Changes kClose s (stayCloseBody q s).1 := by
  refine withFields_ch _ q (fun f s => ?_) s
  exact iteFst (fun _ => .refl s) (fun _ => iteFst (fun _ => .refl s)
    (fun _ => iteFst (fun _ => .refl s) (fun _ => stayCloseHeld_ch ..)))

theorem stayPurgeBody_ch (q : Request) (s : State) : Changes [.stays, .dirty] s (stayPurgeBody q s).1 := by
  refine withFields_ch _ q (fun f s => ?_) s
  split
  · exact .refl s
  · split
    · exact .refl s
    · split
      · exact .refl s
      · exact clearStay_ch ..

/-! ## DOOR OPEN, ZONE SET, CLOCK SET -/

theorem doorOpenAt_ch (p : Nat) (s : State) : Changes [.places] s (doorOpenAt p s).1 := by
  unfold doorOpenAt
  simp only
  split
  · exact .refl s
  · split
    · exact .refl s
    · split
      · exact .refl s
      · exact modPlace_ch s p (Place.offer_ok _)

theorem doorOpenBody_ch (q : Request) (s : State) : Changes [.places] s (doorOpenBody q s).1 := by
  unfold doorOpenBody
  split
  · refine withFields_ch _ q (fun f s => ?_) s
    split
    · exact .refl s
    · exact doorOpenAt_ch ..
  · refine withFields_ch _ q (fun f s => ?_) s
    exact iteFst (fun _ => .refl s) (fun _ => iteFst (fun _ => .refl s) (fun _ => doorOpenAt_ch ..))
  · exact .refl s

theorem changeMark_ch {f : Place → Place} (hf : Place.QueueOk f) (p : Nat) (s : State)
    (hc : ∀ pl, (f pl).comps = pl.comps := by intro pl; first | rfl | simp) : Changes kCache s (State.changeMark f p s) := by
  unfold State.changeMark
  simp only
  have h1 : Changes kCache s (s.modPlace p f) := (modPlace_ch s p hf hc).up
  exact .ite (fun _ => h1.comp (reoffer_ch ..)) (fun _ => h1.comp (modPlace_ch _ p Place.offerZone_ok))

abbrev kZone : List Part := [.zones, .dirty, .places, .segs]

theorem changeZone_ch (z : Nat) (x : ZoneState) (s : State) : Changes kZone s (State.changeZone z x s) := by
  unfold State.changeZone
  simp only
  have h1 : Changes kZone s (s.setZone z x) := (setZone_ch ..).up
  refine .ite (fun _ => .refl s) (fun _ => .ite (fun _ => ?_) (fun _ => .ite (fun _ => ?_) (fun _ => h1)))
  · exact h1.comp (Changes.fold (fun s p => changeMark_ch Place.markReleased_ok p s) _ _)
  · exact h1.comp (Changes.fold (fun s p => changeMark_ch Place.markLeft_ok p s) _ _)

theorem zoneSetBody_ch (q : Request) (s : State) : Changes kZone s (zoneSetBody q s).1 := by
  refine withFields_ch _ q (fun f s => ?_) s
  refine iteFst (fun _ => .refl s) (fun _ => ?_)
  split
  · exact .refl s
  · exact iteFst (fun _ => .refl s) (fun _ => changeZone_ch ..)

theorem loadClock_ch (m w : Nat) (s : State) (hm : m ≤ top24) (hw : w < 10080) :
    Changes [.clock, .journal] s (State.loadClock m w s) := by
  have h1 : Changes [.clock, .journal] s { s with clock := ⟨m, w, 0, .running⟩ } :=
    .one (.clock s _ (by decide) (fun _ => ⟨hm, hw, by simp⟩))
  exact h1.comp (L := [.journal]) (.one (.journal _ { s.journal with setPoint := some (m * 60) } (by decide)
    (fun hj => ⟨hj.1, hj.2, hj.3, hj.4, hj.5, hj.6⟩)))

theorem moveDeadlines_ch (old new : Nat) (s : State) : Changes [.revocations] s (State.moveDeadlines old new s) := by
  refine .one (.revocations s _ (by decide) (fun h => ?_) (fun ho e he => ?_))
  · exact Tab.map_rising (State.moveDeadline old new) h
  · obtain ⟨x, hx, rfl⟩ := List.mem_map.mp he
    exact ho x hx

theorem setClock_ch (m w : Nat) (s : State) (hm : m ≤ top24) (hw : w < 10080) :
    Changes kMinute s (State.setClock m w s) :=
  (((Changes.up (loadClock_ch m w s hm hw)).comp (log_ch ..)).comp (moveDeadlines_ch ..)).comp (deadlineTest_ch _)

/-- The first field of a layout that starts with three bytes is below 2^24. -/
theorem readPayload_first {w n : Nat} {l : Layout} {bs : List Byte} {f : Fields}
    (h : readPayload ((n, w) :: l) bs = .ok f) : f.val n < 256 ^ w := by
  unfold readPayload readLayout at h
  split at h
  · cases h
  · rename_i g hg
    split at hg
    · cases hg
    · rename_i hlen
      split at hg
      · cases hg
      · simp only [Except.ok.injEq, Prod.mk.injEq] at hg h
        obtain ⟨hg, -⟩ := hg
        subst h; subst hg
        have h1 := ofLe_lt (bs.take w)
        have h2 : (bs.take w).length = w := by simp; omega
        rw [h2] at h1
        simpa [Fields.val, Fields.get] using h1
  · cases h

theorem clockSetBody_ch (q : Request) (s : State) : Changes kMinute s (clockSetBody q s).1 := by
  unfold clockSetBody withFields
  split
  · exact .refl s
  · rename_i f hf
    simp only
    split
    · exact .refl s
    · rename_i hw
      have hm : f.val 1 ≤ top24 := by
        have := readPayload_first hf
        have h3 : (256 : Nat) ^ 3 = 16777216 := by norm_num
        have h4 : top24 = 16777215 := rfl
        omega
      exact ((setClock_ch _ _ s hm (by omega)).comp (applyExpiry_ch _)).comp (clockEnd_ch _)

/-! ## Journal, segments, status, faults, RESTART -/

theorem releaseBody_ch (q : Request) (s : State) : Changes kLog s (releaseBody q s).1 :=
  withFields_ch _ q (fun _ s => releaseTo_ch _ s) s

theorem rewindBody_ch (q : Request) (s : State) : Changes [.journal] s (rewindBody q s).1 :=
  withFields_ch _ q (fun _ s => rewindTo_ch _ s) s

theorem segmentTestBody_ch (q : Request) (s : State) : Changes kAbsent s (segmentTestBody q s).1 := by
  refine withFields_ch _ q (fun f s => ?_) s
  refine iteFst (fun _ => .refl s) (fun _ => ?_)
  have h1 : Changes kAbsent s ((s.enterTesting (f.val 1)).modSeg (f.val 1)
      (fun x => { x with pendingTest := some (q.tag, q.source) })) := (enterTesting_ch ..).comp (modSeg_ch ..)
  split
  · exact .refl s
  · exact .refl s
  all_goals exact h1

theorem serviceOut_ch (g : Nat) (s : State) : Changes kTest s (serviceOut g s).1 := by
  unfold serviceOut
  simp only
  split
  · exact .refl s
  · exact (Changes.up (enterOut_ch ..)).comp (answerTest_ch ..)

theorem serviceIn_ch (g : Nat) (s : State) : Changes kTest s (serviceIn g s).1 := by
  unfold serviceIn
  split
  · exact (enterTesting_ch ..).up
  · exact .refl s

theorem serviceBody_ch {K : List Part} (q : Request) {k : Nat → Body} (hk : ∀ g s, Changes K s (k g s).1) (s : State) :
    Changes K s (serviceBody q k s).1 := by
  refine withFields_ch _ q (fun f s => ?_) s
  split
  · exact .refl s
  · split
    · exact .refl s
    · exact hk _ s

theorem statusBody_ch (q : Request) (s : State) : Changes [] s (statusBody q s).1 :=
  withFields_ch _ q (fun _ s => .refl s) s

theorem faultClearBody_ch (q : Request) (s : State) : Changes [.faults] s (faultClearBody q s).1 := by
  unfold faultClearBody
  split
  · exact .refl s
  · split
    · exact .refl s
    · exact clearFaults_ch ..

abbrev kRestart : List Part := [.faults, .notices, .journal, .dirty, .places, .segs, .trunk]

theorem restartMarks_ch (s : State) : Changes kCache s s.restartMarks := by
  unfold State.restartMarks
  simp only
  have h1 (s : State) (g : Nat) : Changes [.segs] s (s.modSeg g Segment.restart) := modSeg_ch ..
  have h2 (s : State) (p : Nat) : Changes [.places] s (s.modPlace p Place.restart) := modPlace_same s p (fun _ => rfl)
  exact (Changes.up (Changes.fold h1 _ s)).comp (Changes.fold h2 _ _)

theorem restartSegment_ch (s : State) (g : Nat) : Changes kAbsent s (s.restartSegment g) := enterTesting_ch ..

theorem restart_ch (s : State) : Changes kRestart s s.restart :=
  ((Changes.up (clearTrunk_ch s)).comp (Changes.fold restartSegment_ch _ _)).comp (restartMarks_ch _)

theorem restartBody_ch (q : Request) (s : State) : Changes kRestart s (restartBody q s).1 := by
  unfold restartBody withFields
  split
  · exact .refl s
  · dsimp only
    exact restart_ch s

/-! ## LOAD and FETCH -/

theorem checkRecords_checked {α : Type} {check : Nat → Fields → Except Nat α} {first pos : Nat} {fs : List Fields}
    {as : List α} (h : checkRecords check first pos fs = .ok as) : ∀ a ∈ as, ∃ i f, check i f = .ok a := by
  induction fs generalizing pos as with
  | nil => cases h; simp
  | cons f fs ih =>
    simp only [checkRecords] at h
    split at h
    · cases h
    · rename_i a ha
      split at h
      · cases h
      · rename_i bs hbs
        cases h
        simp only [List.mem_cons, forall_eq_or_imp]
        exact ⟨⟨_, f, ha⟩, ih hbs⟩

theorem mem_indexed {α : Type} {i : Nat} {as : List α} {e : Nat × α} (h : e ∈ indexed i as) : e.2 ∈ as := by
  induction as generalizing i with
  | nil => cases h
  | cons a as ih =>
    simp only [indexed, List.mem_cons] at h ⊢
    rcases h with rfl | h
    · exact .inl rfl
    · exact .inr (ih h)

/-- R191: each entry that a LOAD carries has passed its table's checks. -/
theorem readLoad_checked {α : Type} {t : TableId} {r : Reader} {check : Nat → Fields → Except Nat α} {payload : List Byte}
    {es : Entries α} (h : readLoad t r check payload = .ok es) : ∀ e ∈ es, ∃ i f, check i f = .ok e.2 := by
  unfold readLoad at h
  split at h
  · cases h
  · split at h
    · cases h
    · split at h
      · cases h
      · split at h
        · cases h
        · rename_i as has
          cases h
          exact fun e he => checkRecords_checked has _ (mem_indexed he)

/-- A LOAD whose entries have all passed its table's checks. -/
theorem loadChecked_ch {α : Type} {K : List Part} (t : TableId) (r : Reader)
    (check : State → Nat → Fields → Except Nat α) (q : Request) {k : Entries α → Body} (s : State)
    (hk : ∀ es, (∀ e ∈ es, ∃ i f, check s i f = .ok e.2) → Changes K s (k es s).1) :
    Changes K s (loadBody t r check q k s).1 := by
  unfold loadBody
  split
  · exact .refl s
  · exact hk _ (readLoad_checked ‹_›)

theorem loadBody_ch {α : Type} {K : List Part} (t : TableId) (r : Reader)
    (check : State → Nat → Fields → Except Nat α) (q : Request) {k : Entries α → Body}
    (hk : ∀ es s, Changes K s (k es s).1) (s : State) : Changes K s (loadBody t r check q k s).1 :=
  loadChecked_ch t r check q s (fun es _ => hk es s)

theorem writeAll_ch {α : Type} {K : List Part} (t : TableId) {write : State → Nat × α → State} (extra : List Byte)
    (es : Entries α) (hw : ∀ s e, Changes K s (write s e)) (s : State) : Changes K s (writeAll t write extra es s).1 :=
  .fold hw es s

theorem loadWindowsBody_ch (q : Request) (s : State) : Changes [.windows, .dirty] s (loadWindowsBody q s).1 :=
  loadBody_ch _ _ _ q (fun es s => writeAll_ch _ _ es (fun s e => setWindow_ch s e.1 e.2) s) s

theorem loadSchedulesBody_ch (q : Request) (s : State) : Changes [.schedules, .dirty] s (loadSchedulesBody q s).1 :=
  loadBody_ch _ _ _ q (fun es s => writeAll_ch _ _ es (fun s e => setSchedule_ch s e.1 e.2) s) s

theorem loadZonesBody_ch (q : Request) (s : State) : Changes kZone s (loadZonesBody q s).1 :=
  loadBody_ch _ _ _ q (fun es s => writeAll_ch _ _ es (fun s e => (changeZone_ch e.1 e.2 s).comp (markDirty_ch ..)) s) s

theorem loadPricesBody_ch (q : Request) (s : State) : Changes [.prices, .dirty] s (loadPricesBody q s).1 :=
  loadBody_ch _ _ _ q (fun es s => writeAll_ch _ _ es (fun s e => setPrice_ch s e.1 e.2) s) s

theorem loadPolicyBody_ch (q : Request) (s : State) : Changes [.policy, .dirty] s (loadPolicyBody q s).1 :=
  loadBody_ch _ _ _ q (fun es s => writeAll_ch _ _ es (fun s e => setPolicy_ch s e.2) s) s

theorem setComps_ch (s : State) {e : Nat × List Compartment} (h : e.2.length ≤ 12) :
    Changes [.places, .dirty] s (s.setComps e) :=
  (Changes.up (modPlace_comps s e.1 (f := fun pl => { pl with comps := e.2 }) (fun _ h => h) (fun _ _ => h))).comp
    (markDirty_ch ..)

/-- R133: a LOAD COMPARTMENTS record holds twelve compartments. -/
theorem checkCompsAt_length {s : State} {p : Nat} {f : Fields} {cs : List Compartment} (h : checkCompsAt s p f = .ok cs) :
    cs.length = 12 := by
  unfold checkCompsAt checkComps at h
  split at h
  · split at h
    · cases h
    · split at h
      · cases h
      · cases h; simp
  · cases h

theorem loadCompartmentsBody_ch (q : Request) (s : State) :
    Changes [.places, .dirty] s (loadCompartmentsBody q s).1 := by
  refine loadChecked_ch _ _ _ q s (fun es hes => ?_)
  split
  · exact .refl s
  · refine Changes.fold_mem (fun e he s => setComps_ch s ?_) s
    obtain ⟨i, f, hf⟩ := hes e he
    exact (checkCompsAt_length hf).le

theorem loadCred_ch (s : State) (e : Nat × Option CredIn) : Changes kRev s (s.loadCred e) := by
  unfold State.loadCred
  split
  · exact (emptyCred_ch ..).up
  · exact writeCred_ch ..

theorem loadCredentialsBody_ch (q : Request) (s : State) : Changes kRev s (loadCredentialsBody q s).1 := by
  refine loadBody_ch _ _ _ q (fun es s => ?_) s
  split
  · exact .refl s
  · exact writeAll_ch _ _ es loadCred_ch s

theorem loadStay_ch (s : State) (e : Nat × Option StayIn) : Changes kStay s (s.loadStay e) := by
  unfold State.loadStay
  split
  · exact (clearStay_ch ..).up
  · exact writeStay_ch ..

theorem loadStaysBody_ch (q : Request) (s : State) : Changes kStay s (loadStaysBody q s).1 := by
  refine loadBody_ch _ _ _ q (fun es s => ?_) s
  split
  · exact .refl s
  · exact writeAll_ch _ _ es loadStay_ch s

theorem rejoin_ok : Place.QueueOk Place.rejoin := fun pl h => by
  refine Place.offer_ok _ _ ?_
  simp only [Place.queueLen_eq, List.length_nil] at h ⊢; omega

theorem runtimeAfter_same (old new : DoorRec) (pl : Place) : (runtimeAfter old new pl).queueLen = pl.queueLen := by
  unfold runtimeAfter
  simp only
  split
  · rfl
  · split <;> rfl

/-- R133, R134: a place whose record changes holds at most twelve compartments. -/
theorem runtimeAfter_comps (old new : DoorRec) {pl : Place} (h : pl.comps.length ≤ 12) :
    (runtimeAfter old new pl).comps.length ≤ 12 := by
  have hc : (compsAfter old new pl.comps).length ≤ 12 := by
    unfold compsAfter
    split
    · simp
    · split
      · exact h
      · simp
  unfold runtimeAfter
  simp only
  split
  · exact hc
  · split <;> exact hc

theorem returnToJoining_ch (p : Nat) (s : State) : Changes kAbsent s (State.returnToJoining p s) := by
  unfold State.returnToJoining
  exact ((Changes.up (.fold (fun s e => loseCmd_ch p s e) _ s)).comp (modPlace_ch _ p rejoin_ok)).comp (leaveCache_ch ..)

theorem leaveOld_ch (p : Nat) (old : DoorRec) (s : State) : Changes kClose s (State.leaveOld p old s) := by
  unfold State.leaveOld
  simp only
  have h1 (x : State) (hx : Changes kClose s x) : Changes kClose s (x.abandon p) := hx.comp (abandon_ch ..)
  exact h1 _ (.ite (fun _ => (Changes.up (commitWhere_ch ..)).comp (endLid_ch ..)) (fun _ => .refl s))

theorem doorReplaced_ch (p : Nat) (old : DoorRec) (s : State) : Changes kClose s (State.doorReplaced p old s) := by
  unfold State.doorReplaced
  simp only
  have h1 := leaveOld_ch p old s
  generalize State.leaveOld p old s = t at h1 ⊢
  have h2 : Changes kClose s (t.modPlace p (fun pl => runtimeAfter old (t.place p).door
      { pl.withdraw isZoneCmd with
        mark := markAfter (t.place p).door (s.zoneOfDoor old == .released)
          (s.zoneOfDoor (t.place p).door == .released) })) := by
    refine h1.comp (L := [.places]) (modPlace_comps t p (fun pl h => ?_) (fun pl h => runtimeAfter_comps _ _ h))
    simp only [runtimeAfter_same]
    exact Place.withdraw_ok isZoneCmd pl h
  exact .ite (fun _ => h2) (fun _ => h2.comp (returnToJoining_ch ..))

theorem doorRezoned_ch (p : Nat) (old new : DoorRec) (s : State) : Changes kCache s (State.doorRezoned p old new s) := by
  unfold State.doorRezoned
  simp only
  have h1 (x : State) (hx : Changes kCache s x) : Changes kCache s (x.markSuspect p) := hx.comp (markSuspect_ch ..)
  exact h1 _ (.ite (fun _ => changeMark_ch Place.markReleased_ok p s)
    (fun _ => .ite (fun _ => changeMark_ch Place.markLeft_ok p s) (fun _ => .refl s)))

theorem doorEffects_ch (s : State) (e : Nat × DoorRec) : Changes kClose s (s.doorEffects e) := by
  unfold State.doorEffects
  simp only
  have h1 (x : State) (hx : Changes kClose s x) : Changes kClose s (x.recheck e.1) := hx.comp (recheck_ch ..)
  exact .ite (fun _ => doorReplaced_ch ..)
    (fun _ => h1 _ (.ite (fun _ => (doorRezoned_ch ..).up) (fun _ => .refl s)))

theorem writeDoor_ch (s : State) (e : Nat × DoorRec) : Changes kClose s (s.writeDoor e) :=
  (Changes.up (modPlace_same s e.1 (f := fun pl => { pl with door := e.2 }) (fun _ => rfl))).comp (markDirty_ch ..)

theorem applyDoors_ch (es : Entries DoorRec) (s : State) : Changes kClose s (State.applyDoors es s) := by
  unfold State.applyDoors
  simp only
  refine Changes.comp (Changes.comp (Changes.comp (Changes.comp (Changes.fold writeDoor_ch es s)
    (Changes.fold doorEffects_ch _ _) (fun _ h => h)) (Changes.fold removeRoom_ch _ _))
    (Changes.fold ensureRoom_ch _ _)) (recomputeRooms_ch _)

theorem loadDoorsBody_ch (q : Request) (s : State) : Changes kClose s (loadDoorsBody q s).1 := by
  refine loadBody_ch _ _ _ q (fun es s => ?_) s
  split
  · exact .refl s
  · exact applyDoors_ch ..

theorem fetchBody_ch (t : TableId) (q : Request) (s : State) : Changes [] s (fetchBody t q s).1 := by
  unfold fetchBody
  split <;> exact .refl s

/-! ## Any command -/

/-- Every part. -/
abbrev kAll : List Part :=
  [.clock, .creds, .rooms, .schedules, .zones, .places, .segs, .revocations, .stays, .prices, .charges, .windows, .policy,
   .journal, .notices, .completions, .trunk, .request, .faults, .status, .dirty, .store, .due]

theorem runAll_ch (kind : Byte) (q : Request) {K : List Part} {body : Body} (hb : ∀ s, Changes K s (body s).1)
    (s : State) (hK : ∀ x ∈ K, x ∈ kAll := by decide) : Changes kAll s (State.runRequest kind q body s) :=
  runRequest_ch (by decide) (by decide) kind q (fun s => (hb s).mono hK) s

theorem runUnknown_ch (kind : Byte) (q : Request) (s : State) : Changes kAll s (State.runUnknown kind q s) := by
  unfold State.runUnknown
  exact .ite (fun _ => .refl s) (fun _ => runAll_ch (K := []) kind q (fun s => .refl s) s)

end Sys2Proof.Machine
end

