-- ==== Sys2Proof/Laws/Exec.lean ====
section
/-! SUPPORT. What each command answers, as one equation per command. -/

-- Proofs are checked one after another: with many small ones at once Lean asks for more threads than the memory limit admits.
set_option Elab.async false

namespace Sys2Proof.Machine

theorem exec_powerOnReset (i : PowerOn) (s : State) : exec (.powerOnReset i) s = .next (s.powerOn i) := rfl

theorem exec_startUpRestore (s : State) : exec .startUpRestore s = .next s.settle.startUp := rfl

theorem exec_secondEvent (s : State) : exec .secondEvent s = .next s.settle.secondEvent := rfl

theorem exec_minuteAdvance (s : State) : exec .minuteAdvance s = .next (s.runDue .minuteAdvance) := rfl

theorem exec_credentialExpiry (index : Fin 4096) (s : State) :
    exec (.credentialExpiry index) s = .next (s.settle.expireAt index.val) := rfl

theorem exec_revocationDeadline (record : Fin 32) (s : State) :
    exec (.revocationDeadline record) s = .next (s.settle.deadlineAt record.val) := rfl

theorem exec_unlockTimeout (place : Fin 128) (s : State) :
    exec (.unlockTimeout place) s = .next (s.runDue (.unlockTimeout place.val)) := rfl

theorem exec_doorHeld (place : Fin 128) (s : State) :
    exec (.doorHeld place) s = .next (s.runDue (.doorHeld place.val)) := rfl

theorem exec_graceExpiry (place : Fin 128) (compartment : Fin 12) (s : State) :
    exec (.graceExpiry place compartment) s = .next (s.runDue (.graceExpiry place.val compartment.val)) := rfl

theorem exec_errorWindowClose (seg : Fin 4) (s : State) :
    exec (.errorWindowClose seg) s = .next (s.runDue (.errorWindow seg.val)) := rfl

theorem exec_retestTimeout (seg : Fin 4) (s : State) :
    exec (.retestTimeout seg) s = .next (s.runDue (.retest seg.val)) := rfl

theorem exec_normalPoll (seg : Fin 4) (s : State) :
    exec (.normalPoll seg) s = .next (s.settle.normalPoll seg.val) := rfl

theorem exec_probePoll (seg : Fin 4) (s : State) : exec (.probePoll seg) s = .next (s.settle.probePoll seg.val) := rfl

theorem exec_priorityPoll (seg : Fin 4) (s : State) :
    exec (.priorityPoll seg) s = .next (s.settle.priorityPoll seg.val) := rfl

theorem exec_testExchange (seg : Fin 4) (s : State) :
    exec (.testExchange seg) s = .next (s.settle.testExchange seg.val) := rfl

theorem exec_responseReceived (seg : Fin 4) (frame : List Byte) (s : State) :
    exec (.responseReceived seg frame) s = .next (s.settle.responseReceived seg.val frame) := rfl

theorem exec_responseWindowClose (seg : Fin 4) (s : State) :
    exec (.responseWindowClose seg) s = .next (s.settle.windowClosed seg.val) := rfl

theorem exec_missCountSilent (place : Fin 128) (s : State) :
    exec (.missCountSilent place) s = .next (s.runDue (.missSilent place.val)) := rfl

theorem exec_missCountAbsent (place : Fin 128) (s : State) :
    exec (.missCountAbsent place) s = .next (s.runDue (.missAbsent place.val)) := rfl

theorem exec_terminatorMissesDown (seg : Fin 4) (s : State) :
    exec (.terminatorMissesDown seg) s = .next (s.runDue (.terminatorDown seg.val)) := rfl

theorem exec_frameReceived (port : Port) (frame : List Byte) (s : State) :
    exec (.frameReceived port frame) s = .next (s.settle.receive port frame) := rfl

theorem exec_partnerHold (port : Port) (hold : Bool) (s : State) :
    exec (.partnerHold port hold) s = .next (s.settle.partnerHold port hold) := rfl

theorem exec_linkDisconnect (port : Port) (rxCut txCut : Bool) (s : State) :
    exec (.linkDisconnect port rxCut txCut) s = .next (s.settle.disconnect port rxCut txCut) := rfl

theorem exec_linkConnect (port : Port) (s : State) :
    exec (.linkConnect port) s = .next (s.settle.setLink port true) := rfl

theorem exec_classifyFrame (s : State) : exec .classifyFrame s = .next s.settle.classifyNext := rfl

theorem exec_downlinkTransmit (s : State) : exec .downlinkTransmit s = .next s.settle.sendDown := rfl

theorem exec_uplinkArbitrate (s : State) : exec .uplinkArbitrate s = .next s.settle.arbitrate := rfl

theorem exec_completionEnterQueue (s : State) : exec .completionEnterQueue s = .next (s.runDue .completionEnter) := rfl

theorem exec_storeWriteStart (s : State) : exec .storeWriteStart s = .next s.settle.startWrite := rfl

theorem exec_storeWriteComplete (reported : Bool) (landed : Option (List Byte)) (s : State) :
    exec (.storeWriteComplete reported landed) s = .next (s.settle.completeWrite reported landed) := rfl

theorem exec_unknownRequest (kind : Byte) (q : Request) (s : State) :
    exec (.unknownRequest kind q) s = .next (s.settle.runUnknown kind q) := rfl

theorem exec_loadWindows (q : Request) (s : State) :
    exec (.loadWindows q) s = .next (s.settle.runRequest 0x01 q (loadWindowsBody q)) := rfl

theorem exec_loadDoors (q : Request) (s : State) :
    exec (.loadDoors q) s = .next (s.settle.runRequest 0x01 q (loadDoorsBody q)) := rfl

theorem exec_loadSchedules (q : Request) (s : State) :
    exec (.loadSchedules q) s = .next (s.settle.runRequest 0x01 q (loadSchedulesBody q)) := rfl

theorem exec_loadZones (q : Request) (s : State) :
    exec (.loadZones q) s = .next (s.settle.runRequest 0x01 q (loadZonesBody q)) := rfl

theorem exec_loadPrices (q : Request) (s : State) :
    exec (.loadPrices q) s = .next (s.settle.runRequest 0x01 q (loadPricesBody q)) := rfl

theorem exec_loadCompartments (q : Request) (s : State) :
    exec (.loadCompartments q) s = .next (s.settle.runRequest 0x01 q (loadCompartmentsBody q)) := rfl

theorem exec_loadPolicy (q : Request) (s : State) :
    exec (.loadPolicy q) s = .next (s.settle.runRequest 0x01 q (loadPolicyBody q)) := rfl

theorem exec_loadCredentials (q : Request) (s : State) :
    exec (.loadCredentials q) s = .next (s.settle.runRequest 0x01 q (loadCredentialsBody q)) := rfl

theorem exec_loadStays (q : Request) (s : State) :
    exec (.loadStays q) s = .next (s.settle.runRequest 0x01 q (loadStaysBody q)) := rfl

theorem exec_loadRooms (q : Request) (s : State) :
    exec (.loadRooms q) s = .next (s.settle.runRequest 0x01 q loadRoomsBody) := rfl

theorem exec_fetchWindows (q : Request) (s : State) :
    exec (.fetchWindows q) s = .next (s.settle.runRequest 0x02 q (fetchBody .windows q)) := rfl

theorem exec_fetchDoors (q : Request) (s : State) :
    exec (.fetchDoors q) s = .next (s.settle.runRequest 0x02 q (fetchBody .doors q)) := rfl

theorem exec_fetchSchedules (q : Request) (s : State) :
    exec (.fetchSchedules q) s = .next (s.settle.runRequest 0x02 q (fetchBody .schedules q)) := rfl

theorem exec_fetchZones (q : Request) (s : State) :
    exec (.fetchZones q) s = .next (s.settle.runRequest 0x02 q (fetchBody .zones q)) := rfl

theorem exec_fetchPrices (q : Request) (s : State) :
    exec (.fetchPrices q) s = .next (s.settle.runRequest 0x02 q (fetchBody .prices q)) := rfl

theorem exec_fetchCompartments (q : Request) (s : State) :
    exec (.fetchCompartments q) s = .next (s.settle.runRequest 0x02 q (fetchBody .compartments q)) := rfl

theorem exec_fetchPolicy (q : Request) (s : State) :
    exec (.fetchPolicy q) s = .next (s.settle.runRequest 0x02 q (fetchBody .policy q)) := rfl

theorem exec_fetchCredentials (q : Request) (s : State) :
    exec (.fetchCredentials q) s = .next (s.settle.runRequest 0x02 q (fetchBody .credentials q)) := rfl

theorem exec_fetchStays (q : Request) (s : State) :
    exec (.fetchStays q) s = .next (s.settle.runRequest 0x02 q (fetchBody .stays q)) := rfl

theorem exec_fetchRooms (q : Request) (s : State) :
    exec (.fetchRooms q) s = .next (s.settle.runRequest 0x02 q (fetchBody .rooms q)) := rfl

theorem exec_enrol (q : Request) (s : State) :
    exec (.enrol q) s = .next (s.settle.runRequest 0x03 q (enrolBody q false)) := rfl

theorem exec_enrolReplace (q : Request) (s : State) :
    exec (.enrolReplace q) s = .next (s.settle.runRequest 0x03 q (enrolBody q true)) := rfl

theorem exec_withdraw (q : Request) (s : State) :
    exec (.withdraw q) s = .next (s.settle.runRequest 0x04 q (withdrawBody q)) := rfl

theorem exec_stayOpen (q : Request) (s : State) :
    exec (.stayOpen q) s = .next (s.settle.runRequest 0x05 q (stayOpenBody q)) := rfl

theorem exec_stayExtend (q : Request) (s : State) :
    exec (.stayExtend q) s = .next (s.settle.runRequest 0x06 q (stayExtendBody q)) := rfl

theorem exec_stayClose (q : Request) (s : State) :
    exec (.stayClose q) s = .next (s.settle.runRequest 0x07 q (stayCloseBody q)) := rfl

theorem exec_stayPurge (q : Request) (s : State) :
    exec (.stayPurge q) s = .next (s.settle.runRequest 0x08 q (stayPurgeBody q)) := rfl

theorem exec_doorOpen (q : Request) (s : State) :
    exec (.doorOpen q) s = .next (s.settle.runRequest 0x09 q (doorOpenBody q)) := rfl

theorem exec_zoneSet (q : Request) (s : State) :
    exec (.zoneSet q) s = .next (s.settle.runRequest 0x0A q (zoneSetBody q)) := rfl

theorem exec_clockSet (q : Request) (s : State) :
    exec (.clockSet q) s = .next (s.settle.runRequest 0x0B q (clockSetBody q)) := rfl

theorem exec_journalRelease (q : Request) (s : State) :
    exec (.journalRelease q) s = .next (s.settle.runRequest 0x0C q (releaseBody q)) := rfl

theorem exec_journalRewind (q : Request) (s : State) :
    exec (.journalRewind q) s = .next (s.settle.runRequest 0x0D q (rewindBody q)) := rfl

theorem exec_segmentTest (q : Request) (s : State) :
    exec (.segmentTest q) s = .next (s.settle.runRequest 0x0E q (segmentTestBody q)) := rfl

theorem exec_segmentServiceOut (q : Request) (s : State) :
    exec (.segmentServiceOut q) s = .next (s.settle.runRequest 0x0F q (serviceBody q serviceOut)) := rfl

theorem exec_segmentServiceIn (q : Request) (s : State) :
    exec (.segmentServiceIn q) s = .next (s.settle.runRequest 0x0F q (serviceBody q serviceIn)) := rfl

theorem exec_status (q : Request) (s : State) :
    exec (.status q) s = .next (s.settle.runRequest 0x10 q (statusBody q)) := rfl

theorem exec_faultClear (q : Request) (s : State) :
    exec (.faultClear q) s = .next (s.settle.runRequest 0x11 q (faultClearBody q)) := rfl

theorem exec_restart (q : Request) (s : State) :
    exec (.restart q) s = .next (s.settle.runRequest 0x12 q (restartBody q)) := rfl

end Sys2Proof.Machine
end

