-- ==== Sys2Proof/Laws/ChangesExec.lean ====
section
/-! SUPPORT. What any command changes, from the state it finds; power-on reset from the state that the supply leaves. -/

-- Proofs are checked one after another: with many small ones at once Lean asks for more threads than the memory limit admits.
set_option Elab.async false

namespace Sys2Proof.Machine

/-- Every command but power-on reset is a chain of changes, none of them to the queue of commands. -/
theorem exec_ch {c : Instr} {s t : State} (hc : ∀ i, c ≠ .powerOnReset i) (h : exec c s = .next t) : Changes kAll s t := by
  have hs : Changes kAll s s.settle := (settle_ch s).up
  cases c
  case powerOnReset i => exact absurd rfl (hc i)
  case startUpRestore => rw [exec_startUpRestore, Host.Outcome.next.injEq] at h; subst h; exact hs.comp (startUp_ch ..)
  case secondEvent => rw [exec_secondEvent, Host.Outcome.next.injEq] at h; subst h; exact hs.comp (secondEvent_ch ..)
  case minuteAdvance => rw [exec_minuteAdvance, Host.Outcome.next.injEq] at h; subst h; exact (runDue_ch ..).up
  case credentialExpiry index => rw [exec_credentialExpiry, Host.Outcome.next.injEq] at h; subst h; exact hs.comp (expireAt_ch ..)
  case revocationDeadline record => rw [exec_revocationDeadline, Host.Outcome.next.injEq] at h; subst h; exact hs.comp (deadlineAt_ch ..)
  case unlockTimeout place => rw [exec_unlockTimeout, Host.Outcome.next.injEq] at h; subst h; exact (runDue_ch ..).up
  case doorHeld place => rw [exec_doorHeld, Host.Outcome.next.injEq] at h; subst h; exact (runDue_ch ..).up
  case graceExpiry place compartment => rw [exec_graceExpiry, Host.Outcome.next.injEq] at h; subst h; exact (runDue_ch ..).up
  case errorWindowClose seg => rw [exec_errorWindowClose, Host.Outcome.next.injEq] at h; subst h; exact (runDue_ch ..).up
  case retestTimeout seg => rw [exec_retestTimeout, Host.Outcome.next.injEq] at h; subst h; exact (runDue_ch ..).up
  case normalPoll seg => rw [exec_normalPoll, Host.Outcome.next.injEq] at h; subst h; exact hs.comp (normalPoll_ch ..)
  case probePoll seg => rw [exec_probePoll, Host.Outcome.next.injEq] at h; subst h; exact hs.comp (probePoll_ch ..)
  case priorityPoll seg => rw [exec_priorityPoll, Host.Outcome.next.injEq] at h; subst h; exact hs.comp (priorityPoll_ch ..)
  case testExchange seg => rw [exec_testExchange, Host.Outcome.next.injEq] at h; subst h; exact hs.comp (testExchange_ch ..)
  case responseReceived seg frame => rw [exec_responseReceived, Host.Outcome.next.injEq] at h; subst h; exact hs.comp (responseReceived_ch ..)
  case responseWindowClose seg => rw [exec_responseWindowClose, Host.Outcome.next.injEq] at h; subst h; exact hs.comp (windowClosed_ch ..)
  case missCountSilent place => rw [exec_missCountSilent, Host.Outcome.next.injEq] at h; subst h; exact (runDue_ch ..).up
  case missCountAbsent place => rw [exec_missCountAbsent, Host.Outcome.next.injEq] at h; subst h; exact (runDue_ch ..).up
  case terminatorMissesDown seg => rw [exec_terminatorMissesDown, Host.Outcome.next.injEq] at h; subst h; exact (runDue_ch ..).up
  case frameReceived port frame => rw [exec_frameReceived, Host.Outcome.next.injEq] at h; subst h; exact hs.comp (receive_ch ..)
  case partnerHold port hold => rw [exec_partnerHold, Host.Outcome.next.injEq] at h; subst h; exact hs.comp (partnerHold_ch ..)
  case linkDisconnect port rxCut txCut => rw [exec_linkDisconnect, Host.Outcome.next.injEq] at h; subst h; exact hs.comp (disconnect_ch ..)
  case linkConnect port => rw [exec_linkConnect, Host.Outcome.next.injEq] at h; subst h; exact hs.comp (setLink_ch ..)
  case classifyFrame => rw [exec_classifyFrame, Host.Outcome.next.injEq] at h; subst h; exact hs.comp (classifyNext_ch ..)
  case downlinkTransmit => rw [exec_downlinkTransmit, Host.Outcome.next.injEq] at h; subst h; exact hs.comp (sendDown_ch ..)
  case uplinkArbitrate => rw [exec_uplinkArbitrate, Host.Outcome.next.injEq] at h; subst h; exact hs.comp (arbitrate_ch ..)
  case completionEnterQueue => rw [exec_completionEnterQueue, Host.Outcome.next.injEq] at h; subst h; exact (runDue_ch ..).up
  case storeWriteStart => rw [exec_storeWriteStart, Host.Outcome.next.injEq] at h; subst h; exact hs.comp (startWrite_ch ..)
  case storeWriteComplete reported landed => rw [exec_storeWriteComplete, Host.Outcome.next.injEq] at h; subst h; exact hs.comp (completeWrite_ch ..)
  case unknownRequest kind q => rw [exec_unknownRequest, Host.Outcome.next.injEq] at h; subst h; exact hs.comp (runUnknown_ch ..)
  case loadWindows q => rw [exec_loadWindows, Host.Outcome.next.injEq] at h; subst h; exact hs.comp (runAll_ch _ q (loadWindowsBody_ch q) _)
  case loadDoors q => rw [exec_loadDoors, Host.Outcome.next.injEq] at h; subst h; exact hs.comp (runAll_ch _ q (loadDoorsBody_ch q) _)
  case loadSchedules q => rw [exec_loadSchedules, Host.Outcome.next.injEq] at h; subst h; exact hs.comp (runAll_ch _ q (loadSchedulesBody_ch q) _)
  case loadZones q => rw [exec_loadZones, Host.Outcome.next.injEq] at h; subst h; exact hs.comp (runAll_ch _ q (loadZonesBody_ch q) _)
  case loadPrices q => rw [exec_loadPrices, Host.Outcome.next.injEq] at h; subst h; exact hs.comp (runAll_ch _ q (loadPricesBody_ch q) _)
  case loadCompartments q => rw [exec_loadCompartments, Host.Outcome.next.injEq] at h; subst h; exact hs.comp (runAll_ch _ q (loadCompartmentsBody_ch q) _)
  case loadPolicy q => rw [exec_loadPolicy, Host.Outcome.next.injEq] at h; subst h; exact hs.comp (runAll_ch _ q (loadPolicyBody_ch q) _)
  case loadCredentials q => rw [exec_loadCredentials, Host.Outcome.next.injEq] at h; subst h; exact hs.comp (runAll_ch _ q (loadCredentialsBody_ch q) _)
  case loadStays q => rw [exec_loadStays, Host.Outcome.next.injEq] at h; subst h; exact hs.comp (runAll_ch _ q (loadStaysBody_ch q) _)
  case loadRooms q => rw [exec_loadRooms, Host.Outcome.next.injEq] at h; subst h; exact hs.comp (runAll_ch (K := []) _ q (fun s => .refl s) _)
  case fetchWindows q => rw [exec_fetchWindows, Host.Outcome.next.injEq] at h; subst h; exact hs.comp (runAll_ch _ q (fetchBody_ch _ q) _)
  case fetchDoors q => rw [exec_fetchDoors, Host.Outcome.next.injEq] at h; subst h; exact hs.comp (runAll_ch _ q (fetchBody_ch _ q) _)
  case fetchSchedules q => rw [exec_fetchSchedules, Host.Outcome.next.injEq] at h; subst h; exact hs.comp (runAll_ch _ q (fetchBody_ch _ q) _)
  case fetchZones q => rw [exec_fetchZones, Host.Outcome.next.injEq] at h; subst h; exact hs.comp (runAll_ch _ q (fetchBody_ch _ q) _)
  case fetchPrices q => rw [exec_fetchPrices, Host.Outcome.next.injEq] at h; subst h; exact hs.comp (runAll_ch _ q (fetchBody_ch _ q) _)
  case fetchCompartments q => rw [exec_fetchCompartments, Host.Outcome.next.injEq] at h; subst h; exact hs.comp (runAll_ch _ q (fetchBody_ch _ q) _)
  case fetchPolicy q => rw [exec_fetchPolicy, Host.Outcome.next.injEq] at h; subst h; exact hs.comp (runAll_ch _ q (fetchBody_ch _ q) _)
  case fetchCredentials q => rw [exec_fetchCredentials, Host.Outcome.next.injEq] at h; subst h; exact hs.comp (runAll_ch _ q (fetchBody_ch _ q) _)
  case fetchStays q => rw [exec_fetchStays, Host.Outcome.next.injEq] at h; subst h; exact hs.comp (runAll_ch _ q (fetchBody_ch _ q) _)
  case fetchRooms q => rw [exec_fetchRooms, Host.Outcome.next.injEq] at h; subst h; exact hs.comp (runAll_ch _ q (fetchBody_ch _ q) _)
  case enrol q => rw [exec_enrol, Host.Outcome.next.injEq] at h; subst h; exact hs.comp (runAll_ch _ q (enrolBody_ch q false) _)
  case enrolReplace q => rw [exec_enrolReplace, Host.Outcome.next.injEq] at h; subst h; exact hs.comp (runAll_ch _ q (enrolBody_ch q true) _)
  case withdraw q => rw [exec_withdraw, Host.Outcome.next.injEq] at h; subst h; exact hs.comp (runAll_ch _ q (withdrawBody_ch q) _)
  case stayOpen q => rw [exec_stayOpen, Host.Outcome.next.injEq] at h; subst h; exact hs.comp (runAll_ch _ q (stayOpenBody_ch q) _)
  case stayExtend q => rw [exec_stayExtend, Host.Outcome.next.injEq] at h; subst h; exact hs.comp (runAll_ch _ q (stayExtendBody_ch q) _)
  case stayClose q => rw [exec_stayClose, Host.Outcome.next.injEq] at h; subst h; exact hs.comp (runAll_ch _ q (stayCloseBody_ch q) _)
  case stayPurge q => rw [exec_stayPurge, Host.Outcome.next.injEq] at h; subst h; exact hs.comp (runAll_ch _ q (stayPurgeBody_ch q) _)
  case doorOpen q => rw [exec_doorOpen, Host.Outcome.next.injEq] at h; subst h; exact hs.comp (runAll_ch _ q (doorOpenBody_ch q) _)
  case zoneSet q => rw [exec_zoneSet, Host.Outcome.next.injEq] at h; subst h; exact hs.comp (runAll_ch _ q (zoneSetBody_ch q) _)
  case clockSet q => rw [exec_clockSet, Host.Outcome.next.injEq] at h; subst h; exact hs.comp (runAll_ch _ q (clockSetBody_ch q) _)
  case journalRelease q => rw [exec_journalRelease, Host.Outcome.next.injEq] at h; subst h; exact hs.comp (runAll_ch _ q (releaseBody_ch q) _)
  case journalRewind q => rw [exec_journalRewind, Host.Outcome.next.injEq] at h; subst h; exact hs.comp (runAll_ch _ q (rewindBody_ch q) _)
  case segmentTest q => rw [exec_segmentTest, Host.Outcome.next.injEq] at h; subst h; exact hs.comp (runAll_ch _ q (segmentTestBody_ch q) _)
  case segmentServiceOut q => rw [exec_segmentServiceOut, Host.Outcome.next.injEq] at h; subst h; exact hs.comp (runAll_ch _ q (serviceBody_ch q serviceOut_ch) _)
  case segmentServiceIn q => rw [exec_segmentServiceIn, Host.Outcome.next.injEq] at h; subst h; exact hs.comp (runAll_ch _ q (serviceBody_ch q serviceIn_ch) _)
  case status q => rw [exec_status, Host.Outcome.next.injEq] at h; subst h; exact hs.comp (runAll_ch _ q (statusBody_ch q) _)
  case faultClear q => rw [exec_faultClear, Host.Outcome.next.injEq] at h; subst h; exact hs.comp (runAll_ch _ q (faultClearBody_ch q) _)
  case restart q => rw [exec_restart, Host.Outcome.next.injEq] at h; subst h; exact hs.comp (runAll_ch _ q (restartBody_ch q) _)

/-- Power-on reset is a chain of changes from the state that the supply leaves. -/
theorem exec_powerOn_ch {i : PowerOn} {s t : State} (h : exec (.powerOnReset i) s = .next t) :
    Changes kAll (s.powered i) t := by
  rw [exec_powerOnReset, Host.Outcome.next.injEq] at h
  subst h
  exact (powerOn_ch i s).up

end Sys2Proof.Machine
end

