-- ==== Sys2Proof/Laws/PerInstr.lean ====
section
/-! SUPPORT. A statement about every command as syntax: a well-formed request fits a trunk frame (R171, 11.1). -/

-- Proofs are checked one after another: with many small ones at once Lean asks for more threads than the memory limit admits.
set_option Elab.async false

namespace Sys2Proof.Laws.FitsFrame

/-- Where the command is a request and well-formed, its payload has at most 240 bytes, and a room that it is addressed to
is one of 1..65,535. -/
def Statement (i : Instr) : Prop :=
  i.wellFormed = true → ∀ k q, i.asRequest = some (k, q) →
    q.payload.length ≤ 240 ∧ ∀ r, q.form = .room r → 1 ≤ r ∧ r ≤ 65535

/-- What a request that is in order says. -/
theorem of_ok {q : Request} (h : q.ok = true) : q.payload.length ≤ 240 ∧ ∀ r, q.form = .room r → 1 ≤ r ∧ r ≤ 65535 := by
  unfold Request.ok at h
  simp only [Bool.and_eq_true, decide_eq_true_eq] at h
  refine ⟨h.1, fun r hr => ?_⟩
  have h2 := h.2
  rw [hr] at h2
  simpa using h2

theorem of_and {q : Request} {b : Bool} (h : (q.ok && b) = true) :
    q.payload.length ≤ 240 ∧ ∀ r, q.form = .room r → 1 ≤ r ∧ r ≤ 65535 := of_ok (Bool.and_eq_true _ _ ▸ h).1

theorem powerOnReset (i : PowerOn) : Statement (.powerOnReset i) := fun _ _ _ e => nomatch e

theorem startUpRestore : Statement .startUpRestore := fun _ _ _ e => nomatch e

theorem secondEvent : Statement .secondEvent := fun _ _ _ e => nomatch e

theorem minuteAdvance : Statement .minuteAdvance := fun _ _ _ e => nomatch e

theorem credentialExpiry (index : Fin 4096) : Statement (.credentialExpiry index) := fun _ _ _ e => nomatch e

theorem revocationDeadline (record : Fin 32) : Statement (.revocationDeadline record) := fun _ _ _ e => nomatch e

theorem unlockTimeout (place : Fin 128) : Statement (.unlockTimeout place) := fun _ _ _ e => nomatch e

theorem doorHeld (place : Fin 128) : Statement (.doorHeld place) := fun _ _ _ e => nomatch e

theorem graceExpiry (place : Fin 128) (compartment : Fin 12) : Statement (.graceExpiry place compartment) :=
  fun _ _ _ e => nomatch e

theorem errorWindowClose (seg : Fin 4) : Statement (.errorWindowClose seg) := fun _ _ _ e => nomatch e

theorem retestTimeout (seg : Fin 4) : Statement (.retestTimeout seg) := fun _ _ _ e => nomatch e

theorem normalPoll (seg : Fin 4) : Statement (.normalPoll seg) := fun _ _ _ e => nomatch e

theorem probePoll (seg : Fin 4) : Statement (.probePoll seg) := fun _ _ _ e => nomatch e

theorem priorityPoll (seg : Fin 4) : Statement (.priorityPoll seg) := fun _ _ _ e => nomatch e

theorem testExchange (seg : Fin 4) : Statement (.testExchange seg) := fun _ _ _ e => nomatch e

theorem responseReceived (seg : Fin 4) (frame : List Byte) : Statement (.responseReceived seg frame) :=
  fun _ _ _ e => nomatch e

theorem responseWindowClose (seg : Fin 4) : Statement (.responseWindowClose seg) := fun _ _ _ e => nomatch e

theorem missCountSilent (place : Fin 128) : Statement (.missCountSilent place) := fun _ _ _ e => nomatch e

theorem missCountAbsent (place : Fin 128) : Statement (.missCountAbsent place) := fun _ _ _ e => nomatch e

theorem terminatorMissesDown (seg : Fin 4) : Statement (.terminatorMissesDown seg) := fun _ _ _ e => nomatch e

theorem frameReceived (port : Port) (frame : List Byte) : Statement (.frameReceived port frame) :=
  fun _ _ _ e => nomatch e

theorem partnerHold (port : Port) (hold : Bool) : Statement (.partnerHold port hold) := fun _ _ _ e => nomatch e

theorem linkDisconnect (port : Port) (rxCut : Bool) (txCut : Bool) : Statement (.linkDisconnect port rxCut txCut) :=
  fun _ _ _ e => nomatch e

theorem linkConnect (port : Port) : Statement (.linkConnect port) := fun _ _ _ e => nomatch e

theorem classifyFrame : Statement .classifyFrame := fun _ _ _ e => nomatch e

theorem downlinkTransmit : Statement .downlinkTransmit := fun _ _ _ e => nomatch e

theorem uplinkArbitrate : Statement .uplinkArbitrate := fun _ _ _ e => nomatch e

theorem completionEnterQueue : Statement .completionEnterQueue := fun _ _ _ e => nomatch e

theorem storeWriteStart : Statement .storeWriteStart := fun _ _ _ e => nomatch e

theorem storeWriteComplete (reported : Bool) (landed : Option (List Byte)) : Statement (.storeWriteComplete reported landed) :=
  fun _ _ _ e => nomatch e

theorem unknownRequest (kind : Byte) (q : Request) : Statement (.unknownRequest kind q) :=
  fun h k q e => by cases e; exact of_and h

theorem loadWindows (q : Request) : Statement (.loadWindows q) := fun h k q e => by cases e; exact of_and h

theorem loadDoors (q : Request) : Statement (.loadDoors q) := fun h k q e => by cases e; exact of_and h

theorem loadSchedules (q : Request) : Statement (.loadSchedules q) := fun h k q e => by cases e; exact of_and h

theorem loadZones (q : Request) : Statement (.loadZones q) := fun h k q e => by cases e; exact of_and h

theorem loadPrices (q : Request) : Statement (.loadPrices q) := fun h k q e => by cases e; exact of_and h

theorem loadCompartments (q : Request) : Statement (.loadCompartments q) := fun h k q e => by cases e; exact of_and h

theorem loadPolicy (q : Request) : Statement (.loadPolicy q) := fun h k q e => by cases e; exact of_and h

theorem loadCredentials (q : Request) : Statement (.loadCredentials q) := fun h k q e => by cases e; exact of_and h

theorem loadStays (q : Request) : Statement (.loadStays q) := fun h k q e => by cases e; exact of_and h

theorem loadRooms (q : Request) : Statement (.loadRooms q) := fun h k q e => by cases e; exact of_and h

theorem fetchWindows (q : Request) : Statement (.fetchWindows q) := fun h k q e => by cases e; exact of_and h

theorem fetchDoors (q : Request) : Statement (.fetchDoors q) := fun h k q e => by cases e; exact of_and h

theorem fetchSchedules (q : Request) : Statement (.fetchSchedules q) := fun h k q e => by cases e; exact of_and h

theorem fetchZones (q : Request) : Statement (.fetchZones q) := fun h k q e => by cases e; exact of_and h

theorem fetchPrices (q : Request) : Statement (.fetchPrices q) := fun h k q e => by cases e; exact of_and h

theorem fetchCompartments (q : Request) : Statement (.fetchCompartments q) := fun h k q e => by cases e; exact of_and h

theorem fetchPolicy (q : Request) : Statement (.fetchPolicy q) := fun h k q e => by cases e; exact of_and h

theorem fetchCredentials (q : Request) : Statement (.fetchCredentials q) := fun h k q e => by cases e; exact of_and h

theorem fetchStays (q : Request) : Statement (.fetchStays q) := fun h k q e => by cases e; exact of_and h

theorem fetchRooms (q : Request) : Statement (.fetchRooms q) := fun h k q e => by cases e; exact of_and h

theorem enrol (q : Request) : Statement (.enrol q) := fun h k q e => by cases e; exact of_and h

theorem enrolReplace (q : Request) : Statement (.enrolReplace q) := fun h k q e => by cases e; exact of_and h

theorem withdraw (q : Request) : Statement (.withdraw q) := fun h k q e => by cases e; exact of_ok h

theorem stayOpen (q : Request) : Statement (.stayOpen q) := fun h k q e => by cases e; exact of_ok h

theorem stayExtend (q : Request) : Statement (.stayExtend q) := fun h k q e => by cases e; exact of_ok h

theorem stayClose (q : Request) : Statement (.stayClose q) := fun h k q e => by cases e; exact of_ok h

theorem stayPurge (q : Request) : Statement (.stayPurge q) := fun h k q e => by cases e; exact of_ok h

theorem doorOpen (q : Request) : Statement (.doorOpen q) := fun h k q e => by cases e; exact of_ok h

theorem zoneSet (q : Request) : Statement (.zoneSet q) := fun h k q e => by cases e; exact of_ok h

theorem clockSet (q : Request) : Statement (.clockSet q) := fun h k q e => by cases e; exact of_ok h

theorem journalRelease (q : Request) : Statement (.journalRelease q) := fun h k q e => by cases e; exact of_ok h

theorem journalRewind (q : Request) : Statement (.journalRewind q) := fun h k q e => by cases e; exact of_ok h

theorem segmentTest (q : Request) : Statement (.segmentTest q) := fun h k q e => by cases e; exact of_ok h

theorem segmentServiceOut (q : Request) : Statement (.segmentServiceOut q) := fun h k q e => by cases e; exact of_and h

theorem segmentServiceIn (q : Request) : Statement (.segmentServiceIn q) := fun h k q e => by cases e; exact of_and h

theorem status (q : Request) : Statement (.status q) := fun h k q e => by cases e; exact of_ok h

theorem faultClear (q : Request) : Statement (.faultClear q) := fun h k q e => by cases e; exact of_ok h

theorem restart (q : Request) : Statement (.restart q) := fun h k q e => by cases e; exact of_ok h

end Sys2Proof.Laws.FitsFrame
end

