-- ==== Sys2Proof/Tests/Slice0.lean ====
section
/-! SUPPORT. Tests: the well-formedness checks, the worked figures of the spec, and, for each statement of
Certificates/Slice0/Obligations.lean that has hypotheses, states and operands that meet them. -/

-- Proofs are checked one after another: with many small ones at once Lean asks for more threads than the memory limit admits.
set_option Elab.async false

namespace Sys2Proof.Tests

open Sys2Proof Sys2Proof.Machine

/-! ## Well-formedness: each check refuses an ill-formed command -/

def plain (payload : List Byte) : Request := ⟨.unit, 0, 7, payload⟩

theorem test_wf_power_on_block_number :
    (Instr.powerOnReset ⟨1, 0, true, true, [(83, blankBlock)]⟩).wellFormed = false := by decide +kernel
theorem test_wf_power_on_block_size : (Instr.powerOnReset ⟨1, 0, true, true, [(0, [])]⟩).wellFormed = false := by decide
theorem test_wf_empty_response : (Instr.responseReceived 0 []).wellFormed = false := by decide
theorem test_wf_empty_frame : (Instr.frameReceived .uplink []).wellFormed = false := by decide
theorem test_wf_landed_block_size : (Instr.storeWriteComplete true (some [])).wellFormed = false := by decide
theorem test_wf_unknown_kind_is_not_listed : (Instr.unknownRequest 0x12#8 (plain [])).wellFormed = false := by decide
theorem test_wf_long_payload : (Instr.status (plain (List.replicate 241 0))).wellFormed = false := by decide +kernel
theorem test_wf_room_zero : (Instr.status ⟨.room 0, 0, 7, []⟩).wellFormed = false := by decide
theorem test_wf_room_too_high : (Instr.status ⟨.room 65536, 0, 7, []⟩).wellFormed = false := by decide
theorem test_wf_table_id : (Instr.loadDoors (plain [2])).wellFormed = false := by decide
theorem test_wf_enrol_replace_bit : (Instr.enrol (plain [1])).wellFormed = false := by decide
theorem test_wf_enrol_without_replace_bit : (Instr.enrolReplace (plain [0])).wellFormed = false := by decide
theorem test_wf_service_out_direction : (Instr.segmentServiceOut (plain [0, 1])).wellFormed = false := by decide
theorem test_wf_service_in_direction : (Instr.segmentServiceIn (plain [0, 0])).wellFormed = false := by decide
theorem test_wf_accepts_table_and_unlisted_id : (Instr.loadDoors (plain [1])).wellFormed = true ∧
    (Instr.loadDoors (plain [10])).wellFormed = true := by decide

/-! ## Worked figures of the spec -/

/-- R211: the nine digits give 6F91 hex, sent as 91 then 6F. -/
theorem test_check_of_nine_digits :
    checkBytes (crc [0x31, 0x32, 0x33, 0x34, 0x35, 0x36, 0x37, 0x38, 0x39]) = [0x91#8, 0x6F#8] := by decide +kernel

/-- 6.3, worked figures: charges. -/
theorem test_charges : chargeOf ⟨1250, 1000⟩ = 1375 ∧ chargeOf ⟨1999, 775⟩ = 2154 ∧ chargeOf ⟨10, 500⟩ = 11 ∧
    chargeOf ⟨9, 500⟩ = 9 ∧ chargeOf ⟨65535, 5000⟩ = 98303 ∧ chargeOf ⟨0, 5000⟩ = 0 := by decide

/-- 2.2, worked figures: an interval across the week end. -/
theorem test_interval_across_week_end :
    ([9959, 9960, 10079, 0, 450, 479, 480].map (Interval.admits ⟨9960, 600⟩)) =
      [false, true, true, true, true, true, false] := by decide

def ready : State := { State.reset with status := .ready }

def outcome (o : Host.Outcome State Fault Refusal) : State :=
  match o with
  | .next t => t
  | .fault _ => State.reset
  | .refused _ => State.reset

/-- 2.3, worked figures: guest validity, at a room door. -/
def guestAt (m : Nat) : State :=
  { ready with
    clock := ⟨m, 0, 0, .running⟩
    creds := [(0, ⟨.active, 7, .guest, some ⟨101, 5, 1⟩, 0, none, some (1000000, 1002880), false, false⟩)]
    places := [(0, { Place.reset with door := .roomDoor 101 0 5 20, presence := .present, doorState := .secure })] }

theorem test_guest_validity :
    [999999, 1000000, 1002880, 1002909, 1002910].map (fun m => ((guestAt m).evaluate 0 7 true).verdict) =
      [.deny .time, .grant, .grant, .grant, .deny .expired] := by decide

/-- 6.3, worked figures: saturation. -/
def saturating : State :=
  { ready with
    stays := [(3, ⟨5, 101, true, 0, none, 50, 0, 16700000, false⟩)]
    pendingCharges := [⟨64, 2, 5, none, .guest, 98303, 0⟩] }

theorem test_saturation : (outcome (exec (.graceExpiry 64 2) saturating)).stays =
    [(3, ⟨5, 101, true, 0, none, 50, 0, 16777215, true⟩)] := by decide

/-- 7.8: with A = 9,984 and B = 10,240 a reservation at 10,240 goes to copy A. -/
theorem test_reservation_copy : (⟨[], 10240, 10240, 10240, 10240, none, .openNumbers, 0, none, some 9984, some 10240⟩
    : Journal).reservationDue = true ∧
    (⟨[], 10240, 10240, 10240, 10240, none, .openNumbers, 0, none, some 9984, some 10240⟩ : Journal).copyToWrite = 0 := by
  decide

/-- 7.7: the effective mark, and how many records it frees. -/
theorem test_release_figures :
    (⟨[], 50000, 51900, 52048, 52224, none, .openNumbers, 4, none, none, none⟩ : Journal).freedBy 51000 = 1001 ∧
    (⟨[], 51001, 51500, 52049, 52224, none, .openNumbers, 0, none, none, none⟩ : Journal).freedBy 51950 = 499 := by decide

/-- 11.6: a response to a poll of drop 3: PRESENTATION of card 01020304 hex with tag 5, door open, echo 1. -/
theorem test_response_bytes :
    (validResponse ⟨3, .normal, true, none, false⟩
      ([0x83, 0x01, 0x01, 0x04, 0x03, 0x02, 0x01, 0x05] ++
        checkBytes (crc [0x83, 0x01, 0x01, 0x04, 0x03, 0x02, 0x01, 0x05]))).map Response.event =
      some (.presentation 0x01020304 5) := by decide +kernel

/-- 11.6: the test pattern of exchange 0. -/
theorem test_first_pattern : State.testPattern ⟨1, 1, 0, .none, false⟩ =
    [0xAA#8, 0x54#8, 0xA8#8, 0x56#8, 0xAE#8, 0x50#8, 0xAC#8, 0x52#8] := by decide

/-- 11.3: the longest credential record, a GUEST of room 258. -/
theorem test_credential_bytes :
    credBytes (some ⟨.active, 0x01020304, .guest, some ⟨258, 5, 1⟩, 0x8001, none, some (256, 512), false, false⟩) =
      [1, 0, 0x0D, 4, 3, 2, 1, 1, 0x80, 2, 1, 5, 0, 1, 0, 0, 1, 0, 0, 2, 0] := by decide

/-- R206: straps at 0 bring BYPASS at stage 3. -/
theorem test_unit_zero_is_bypass :
    (outcome (exec (.powerOnReset ⟨0, 0, true, true, []⟩) State.reset)).bypassStage = some 3 := by decide +kernel

/-- R167: a blank store gives L = 0 and a reservation of 256. -/
theorem test_blank_store_reserves :
    (outcome (exec (.powerOnReset ⟨9, 0, true, true, []⟩) State.reset)).journal.pendingLimit = some 256 := by decide +kernel

/-- R26: S 59 becomes 0, and the minute advance follows before the next command. -/
theorem test_minute_follows :
    (outcome (exec .classifyFrame (outcome (exec .secondEvent
      { ready with clock := ⟨4, 10079, 59, .running⟩ })))).clock = ⟨5, 0, 0, .running⟩ := by decide

/-! ## Witnesses: for each statement with hypotheses, what meets them -/

theorem canon (s : State)
    (h : Tab.Rising s.creds ∧ Tab.Rising s.rooms ∧ Tab.Rising s.stays ∧ Tab.Rising s.revocations ∧
      Tab.Wf Schedule.absent s.schedules ∧ Tab.Wf ZoneState.normal s.zones ∧ Tab.Wf Place.reset s.places ∧
      Tab.Wf Segment.reset s.segs ∧ Tab.Wf (⟨0, 0⟩ : Price) s.prices ∧ Tab.Wf Window.disabled s.windows ∧
      Tab.Wf FaultRec.clear s.faults ∧ Tab.Wf blankBlock s.store) : s.Canonical :=
  ⟨h.1, h.2.1, h.2.2.1, h.2.2.2.1, h.2.2.2.2.1, h.2.2.2.2.2.1, h.2.2.2.2.2.2.1, h.2.2.2.2.2.2.2.1, h.2.2.2.2.2.2.2.2.1,
    h.2.2.2.2.2.2.2.2.2.1, h.2.2.2.2.2.2.2.2.2.2.1, h.2.2.2.2.2.2.2.2.2.2.2⟩

/-- The request in hand, the forms and the map leave the request to its body. -/
theorem takes (s : State) (k : Byte) (q : Request)
    (h : s.due = [] ∧ s.Serving ∧ (s.request = none ∨ s.request = some ⟨k, q⟩) ∧ s.mapConflict q.form = none ∧
      formOk k q.form = true) : s.Takes k q := ⟨h.1, h.2.1, h.2.2.1, h.2.2.2.1, h.2.2.2.2⟩

def roomy (r : Nat) (payload : List Byte) : Request := ⟨.room r, 0, 7, payload⟩

def lockedDoor : DoorRec := .roomDoor 101 0 5 20

def lock : Place :=
  { Place.reset with
    door := lockedDoor, presence := .present, doorState := .secure, accepted := some ⟨false, false, false⟩
    uncertain := false }

def inService : Segment := { Segment.reset with line := .inService }

/-- One lock on a segment in service, a card, a stay, a room and a running clock. -/
def hotel : State :=
  { ready with
    clock := ⟨20, 100, 0, .running⟩
    creds := [(0, ⟨.active, 7, .guest, some ⟨101, 5, 1⟩, 0, none, some (10, 60), false, false⟩),
      (1, ⟨.revoked, 8, .staff, none, 1, none, none, false, false⟩)]
    rooms := [(0, ⟨101, 1, some 5, some 0, none⟩)]
    stays := [(0, ⟨5, 101, true, 10, none, 60, 100, 0, false⟩), (1, ⟨6, 102, false, 1, some 9, 9, 100, 30, false⟩)]
    places := [(0, lock)]
    segs := [(0, inService)]
    journal := { State.reset.journal with limit := 256 } }

theorem hotel_canonical : hotel.Canonical := canon hotel (by decide)

theorem test_witness_StepTakesTheFront :
    ({ ready with pending := [.minuteAdvance, .classifyFrame] } : State).pending = .minuteAdvance :: [.classifyFrame] ∧
    State.reset.pending = [] := by decide

theorem test_witness_DueWorkFirst : Instr.classifyFrame.consequence = none ∧ Instr.classifyFrame.isPowerOn = false ∧
    ({ ready with due := [.minuteAdvance] } : State).due ≠ [] ∧ State.reset.due = [] := by decide

/-- ClockStaysInRange, AlarmFollowsFaults, JournalStaysContiguous, QueuesStayBounded, CacheWorkStaysInRange,
TablesStayCanonical: a state that meets every invariant, with work to do, and takes a step. -/
theorem test_witness_invariants :
    let s : State := { hotel with
      pending := [.minuteAdvance], clock := ⟨16777215, 10079, 59, .running⟩
      revocations := [(31, ⟨1, 8, .withdraw, [0], 16777215⟩)] }
    s.clock.InRange ∧ Tab.Wf FaultRec.clear s.faults ∧ s.AlarmTrue ∧ s.journal.Contiguous ∧ s.trunk.Bounded ∧
      s.QueuesBounded ∧ s.RecordsOpen ∧ s.ReloadsInRange ∧ s.CompsBounded ∧ s.Canonical ∧ ∃ t, step s = .next t :=
  ⟨by decide, by decide, by decide, ⟨by decide, by decide, by decide, by decide, by decide, fun _ h => nomatch h⟩,
    by decide, by decide, by decide, by decide, by decide, canon _ (by decide), _, rfl⟩

/-- The same with a full ring, full queues, an engine at drop 32 and twelve compartments. -/
theorem test_witness_invariants_at_their_bounds :
    let j : Journal := ⟨(List.range' 5 3).map (fun n => ⟨n, 0, 0, .tamper, .unit, none, none, [], Marks.none⟩), 5, 8, 8, 256,
      some 512, .openNumbers, 65535, none, some 256, some 0⟩
    j.Contiguous ∧
    ({ hotel with segs := [(3, { inService with terminal := false, served := 32, requests := [1, 32] })] } : State).ReloadsInRange ∧
    ({ hotel with places := [(127, { lock with
        waiting := [⟨.secure, 0⟩, ⟨.secure, 1⟩, ⟨.identify, 2⟩], delivery := some ⟨.holdOpen, 0⟩ })] } : State).QueuesBounded ∧
    ({ hotel with places := [(127, { lock with comps := List.replicate 12 ⟨0, .pending, 0⟩ })] } : State).CompsBounded :=
  ⟨⟨by decide, by decide, by decide, by decide, by decide, fun n h => by
    have : n = 512 := (Option.some.inj h).symm
    subst this; decide⟩, by decide, by decide, by decide⟩

theorem test_witness_FramesPassUnchanged :
    (65535 ≤ 65535 ∧ (List.replicate 240 0#8).length ≤ 240 ∧ destOk .uplink 255 65535 = true ∧
      destOk .uplink 255 0 = false) ∧
    (frameWith (frameBody 9 0 0 0x10 7 []) (crc (frameBody 9 0 0 0x10 7 []))).head? = some 0xA5#8 ∧
    readFrame .uplink (frameWith (frameBody 9 0 0 0x10 7 []) (crc (frameBody 9 0 0 0x10 7 []))) =
      some ⟨9, 0, 0, 0x10, 7, [], crc (frameBody 9 0 0 0x10 7 [])⟩ := by decide +kernel

theorem test_witness_CredentialRecordsReadBack :
    (⟨.expired, 4294967294, .guest, some ⟨65535, 65535, 65535⟩, 0xFFFF, none, some (0, 16777215), false, false⟩
      : Cred).Legal ∧
    (⟨.active, 1, .staff, none, 0, some 31, none, true, false⟩ : Cred).Legal ∧
    (⟨.revoked, 1, .master, none, 0, none, some (5, 5), false, true⟩ : Cred).Legal := by
  refine ⟨⟨by decide, by decide, ?_, ?_, ?_, by decide, by decide, by decide⟩,
    ⟨by decide, by decide, ?_, ?_, ?_, by decide, by decide, by decide⟩,
    ⟨by decide, by decide, ?_, ?_, ?_, by decide, by decide, by decide⟩⟩ <;> simp [top24]

theorem test_witness_TableRecordsReadBack :
    (DoorRec.roomDoor 65535 15 30 255).Legal ∧ (DoorRec.commonDoor 0 (some 31) 1 5).Legal ∧
    (DoorRec.minibar 1 0 5).Legal ∧ (⟨true, 65535, 32, 3, 1⟩ : Window).Legal ∧ (⟨true, 65535, 128, 3, 32⟩ : Window).Stored ∧
    (⟨some ⟨10079, 10080⟩, none, none, some ⟨0, 1⟩⟩ : Schedule).Legal ∧ (⟨65535, 5000⟩ : Price).Legal ∧
    (⟨255, 255, 60, 255, true, 255⟩ : Policy).Legal ∧
    (⟨65535, 1, false, 16777215, some 16777215, 0, 16777215, 16777215, true⟩ : Stay).Legal ∧
    (⟨1, 65535, some 65535, some 127, none⟩ : Room).Legal ∧
    ((List.replicate 12 (⟨255, .pending, 4⟩ : Compartment)).length = 12 ∧
      ∀ c ∈ List.replicate 12 (⟨255, .pending, 4⟩ : Compartment), c.Legal) ∧
    (⟨127, 11, 65535, some 4294967294, .forced, 98303, 0⟩ : Charge).Stored := by
  refine ⟨by decide, ?_, by decide, by decide, by decide, ?_, by decide, by decide, ⟨by decide, by decide, by decide, by decide, by decide,
    by simp⟩, ⟨by decide, by decide, by simp, by simp, by simp⟩, by decide, ⟨by decide, by decide, by decide, by simp,
    by decide, by decide⟩⟩
  · simp [DoorRec.Legal]
  · simp [Schedule.Legal, slotLegal]

/-- R176, R177, R207: a run past drop 32 is clamped by LOAD WINDOWS and kept by the restore; a restored privilege keeps its
bit. -/
theorem test_restored_as_stored :
    let w : Window := ⟨true, 101, 128, 3, 32⟩
    let c : Cred := ⟨.active, 9, .master, none, 1, none, none, true, false⟩
    parse readWindow storedWindow (windowBytes w) = some w ∧
    parse readWindow checkWindow (windowBytes w) = some { w with count := 1 } ∧
    [101, 102].map (State.covers w) = [true, false] ∧
    parse readCred storedCred (credBytes (some c)) = some (some c) := by decide

theorem test_witness_FaultOccurrence :
    Tab.Rising ready.faults ∧ (ready.fault .doorHeld).set = false ∧ (ready.fault .doorHeld).masked = false ∧
      ready.trunk.unitNumber ≠ 0 ∧ ready.trunk.notices.length < 4 ∧
    ((ready.giveFault .doorHeld [0, 1, 0]).fault .doorHeld).set = true ∧
      Tab.Rising (ready.giveFault .doorHeld [0, 1, 0]).faults := by decide

theorem test_witness_RecordsAreNumbered : hotel.journal.storable = true ∧ State.reset.journal.storable = false := by decide

theorem test_witness_JournalHighFault :
    let full (n : Nat) : State :=
      { ready with journal := { State.reset.journal with next := n, cursor := n, limit := 4096 } }
    (Tab.Rising (full 1535).faults ∧ (full 1535).journal.storable = true ∧ 1536 ≤ (full 1535).journal.held + 1) ∧
    (Tab.Rising (full 1534).faults ∧ (full 1534).journal.storable = true ∧ ¬1536 ≤ (full 1534).journal.held + 1) ∧
    (Tab.Rising (full 2048).faults ∧ (full 2048).journal.storable = false) ∧
    ((full 1536).releaseTo 0).journal.held < 1536 := by decide

theorem test_witness_PowerOnReset :
    let bad : List Byte := 1#8 :: List.replicate 3071 0
    let last : List Byte := le 6 seqEnd ++ List.replicate 3064 0 ++ [1, 0]
    let copy (img : List (Nat × List Byte)) (b : Nat) :=
      copyValue ((outcome (exec (.powerOnReset ⟨31, 0, true, true, img⟩) State.reset)).readBlock b)
    (⟨1, 4, true, true, []⟩ : PowerOn).failedPasses.val = 4 ∧
    ((⟨0, 3, true, true, []⟩ : PowerOn).failedPasses.val ≠ 4 ∧ (⟨0, 3, true, true, []⟩ : PowerOn).straps.val = 0) ∧
    (copy [(0, bad), (1, bad)] 0 = none ∧ copy [(0, bad), (1, bad)] 1 = none) ∧
    (copy [(0, last)] 1 = some 0 ∧ copy [(0, last)] 0 = some (limitOf last)) ∧
    (copy [] 0 = some 0 ∧ copy [] 1 = some 0) := by decide +kernel

def starting : State := { State.reset with firstAttempt := .notNeeded }

theorem test_witness_StartUpEnds :
    (starting.due = [] ∧ starting.status = .starting ∧ starting.attemptEnded = true) ∧ starting.Canonical ∧
    (ready.due = [] ∧ ready.status ≠ .starting) ∧ State.reset.attemptEnded = false :=
  ⟨by decide, canon _ (by decide), by decide, by decide⟩

theorem test_witness_SecondEventCounts : hotel.due = [] ∧ hotel.Canonical ∧
    ({ hotel with clock := ⟨20, 100, 59, .running⟩ } : State).clock.s = 59 := ⟨by decide, hotel_canonical, by decide⟩

theorem test_witness_MinuteAdvance :
    let top : State := { hotel with clock := ⟨16777214, 10079, 0, .unset⟩ }
    hotel.Canonical ∧ hotel.clock.state = .running ∧ 1 ≤ hotel.policy.d ∧ min top24 (hotel.clock.m + 1) < top24 ∧
    top.Canonical ∧ top.clock.state = .unset ∧ min top24 (top.clock.m + 1) = top24 :=
  ⟨hotel_canonical, by decide, by decide, by decide, canon _ (by decide), by decide, by decide⟩

theorem test_witness_RevocationStarts :
    let held : State := { hotel with places := [(0, { lock with directory := [⟨0, 0, .held⟩] })] }
    (hotel.Canonical ∧ hotel.cred 0 = some ⟨.active, 7, .guest, some ⟨101, 5, 1⟩, 0, none, some (10, 60), false, false⟩ ∧
      ∀ e ∈ hotel.places, ∀ d ∈ e.2.directory, d.index ≠ 0) ∧
    held.Canonical ∧ Tab.look held.revocations 0 = none ∧
      (Tab.look (held.revoke 0 .withdraw).revocations 0).isSome = true :=
  ⟨⟨hotel_canonical, by decide, by decide⟩, canon _ (by decide), by decide, by decide⟩

theorem test_witness_ExpiryAndDeadlineRows :
    let late : State := { hotel with
      clock := ⟨90, 0, 0, .running⟩, revocations := [(31, ⟨1, 8, .withdraw, [0], 90⟩)]
      places := [(0, { lock with directory := [⟨0, 1, .removing .queued⟩] })] }
    let early : State := { hotel with revocations := [(31, ⟨1, 8, .withdraw, [0], 21⟩)] }
    (late.due = [] ∧ late.clock.state = .running ∧ late.cred 0 = hotel.cred 0 ∧
      (late.cred 0).any (fun c => c.state == .active && late.ended c) = true) ∧
    (hotel.cred 0).any (fun c => !hotel.ended c) = true ∧
    (late.Canonical ∧ Tab.look late.revocations 31 = some ⟨1, 8, .withdraw, [0], 90⟩ ∧
      (90 ≤ late.clock.m) ∧ (late.cred 1).any (fun c => c.state == .active) = false) ∧
    (early.due = [] ∧ Tab.look early.revocations 31 = some ⟨1, 8, .withdraw, [0], 21⟩ ∧ early.clock.m < 21) :=
  ⟨by decide, by decide, ⟨canon _ (by decide), by decide, by decide, by decide⟩, by decide⟩

theorem test_witness_DoorTimerRows :
    let at127 (pl : Place) : State := { ready with places := [(127, pl)] }
    let a := at127 { lock with doorState := .unlocked, unlockLeft := 0 }
    let b := at127 { lock with doorState := .unlocked, unlockLeft := 1 }
    let c := at127 { lock with doorState := .openForced, openElapsed := 21 }
    let d := at127 { lock with doorState := .openGranted, openElapsed := 20 }
    (Due.minuteAdvance ∉ a.due ∧ (a.place 127).doorState = .unlocked ∧ (a.place 127).unlockLeft = 0) ∧
    (Due.minuteAdvance ∉ b.due ∧ (b.place 127).unlockLeft ≠ 0) ∧
    (Due.minuteAdvance ∉ c.due ∧ (c.place 127).doorState = .openForced ∧ (c.place 127).holding = false ∧
      (c.place 127).door.heldLimit < (c.place 127).openElapsed) ∧
    (Due.minuteAdvance ∉ d.due ∧ (d.place 127).openElapsed ≤ (d.place 127).door.heldLimit) := by decide

def bar : Place :=
  { lock with door := .minibar 101 0 5, comps := List.replicate 12 ⟨1, .stocked, 0⟩ }

def barred : State := { hotel with places := [(0, lock), (1, bar)], prices := [(1, ⟨1250, 1000⟩)] }

theorem barred_canonical : barred.Canonical := canon barred (by decide)

theorem test_witness_RemovalsAndCharges : (⟨65535, 5000⟩ : Price).Legal ∧ (⟨0, 0⟩ : Price).Legal ∧ barred.Canonical ∧
    (barred.place 1).door.room? = some 101 ∧
    barred.openStay 101 = some (0, ⟨5, 101, true, 10, none, 60, 100, 0, false⟩) ∧ (barred.place 1).session = none ∧
    11 < (barred.place 1).comps.length ∧ (barred.comp 1 11).state = .stocked ∧ 0 < barred.policy.h ∧
    barred.pendingCharges.length < 64 :=
  ⟨by decide, by decide, barred_canonical, by decide, by decide, by decide, by decide, by decide, by decide, by decide⟩

theorem test_witness_GraceExpiryCommits :
    let x : Charge := ⟨1, 11, 5, some 7, .guest, 1375, 0⟩
    let a : State := { barred with
      pendingCharges := [x], places := [(0, lock), (1, { bar with comps := List.replicate 12 ⟨1, .pending, 1⟩ })] }
    let b : State := { a with stays := [] }
    (Due.minuteAdvance ∉ a.due ∧ a.pendingCharges.filter (fun d => State.isCharge 1 11 d && d.left == 0) = [x] ∧
      a.findStay x.stay = some (0, ⟨5, 101, true, 10, none, 60, 100, 0, false⟩) ∧ (a.comp 1 11).state = .pending ∧
      11 < (a.place 1).comps.length ∧ a.journal.storable = true) ∧ a.Canonical ∧
    top24 < 16777000 + x.amount ∧
    (Due.minuteAdvance ∉ b.due ∧ b.pendingCharges.filter (fun d => State.isCharge 1 11 d && d.left == 0) = [x] ∧
      b.findStay x.stay = none ∧ b.journal.storable = true) ∧
    (∀ d ∈ ({ a with pendingCharges := [{ x with left := 1 }] } : State).pendingCharges, d.left ≠ 0) :=
  ⟨by decide +kernel, canon _ (by decide), by decide, by decide +kernel, by decide⟩

theorem test_witness_ErrorWindowIsJudged :
    let at3 (x : Segment) : State := { ready with segs := [(3, x)] }
    let a := at3 { inService with badCount := 12 }
    let b := at3 { inService with badCount := 11 }
    let c := at3 { inService with line := .degraded, cleanWindows := 2 }
    let d := at3 { inService with line := .degraded, cleanWindows := 3 }
    (a.Canonical ∧ (a.seg 3).line = .inService ∧ a.policy.e ≤ (a.seg 3).badCount) ∧
    (b.Canonical ∧ (b.seg 3).line = .inService ∧ (b.seg 3).badCount < b.policy.e) ∧
    (c.Canonical ∧ (c.seg 3).line = .degraded ∧ (c.seg 3).cleanWindows < 3) ∧
    (d.Canonical ∧ (d.seg 3).line = .degraded ∧ 3 ≤ (d.seg 3).cleanWindows) ∧
    (Due.minuteAdvance ∉ ready.due ∧ (ready.seg 3).line ≠ .inService ∧ (ready.seg 3).line ≠ .degraded) :=
  ⟨⟨canon _ (by decide), by decide, by decide⟩, ⟨canon _ (by decide), by decide, by decide⟩,
    ⟨canon _ (by decide), by decide, by decide⟩, ⟨canon _ (by decide), by decide, by decide⟩, by decide⟩

theorem test_witness_LineTestStarts :
    let at3 (x : Segment) : State := { ready with segs := [(3, x)] }
    let a := at3 { inService with line := .failed, retest := 0 }
    let b := at3 { inService with termMisses := 3 }
    let c := at3 { inService with line := .testPlug, retest := 1 }
    let d := at3 { inService with termMisses := 2 }
    (a.Canonical ∧ a.ReloadsInRange ∧ (a.seg 3).line = .failed ∧ (a.seg 3).retest = 0) ∧
    (b.Canonical ∧ b.ReloadsInRange ∧ (b.seg 3).line = .inService ∧ 3 ≤ (b.seg 3).termMisses) ∧
    (Due.minuteAdvance ∉ c.due ∧ (c.seg 3).retest ≠ 0) ∧ (Due.minuteAdvance ∉ d.due ∧ (d.seg 3).termMisses < 3) :=
  ⟨⟨canon _ (by decide), by decide, by decide, by decide⟩, ⟨canon _ (by decide), by decide, by decide, by decide⟩,
    by decide, by decide⟩

theorem test_witness_MissCountRows :
    let at127 (pl : Place) : State := { hotel with places := [(127, pl)] }
    let a := at127 { lock with misses := 3 }
    let pr : Presentation := ⟨15, 7, none, .deny .unknown, false, false, false⟩
    let b := at127 { lock with misses := 3, presentation := some pr }
    let c := at127 { lock with misses := 16 }
    (a.Canonical ∧ Due.minuteAdvance ∉ a.due ∧ (a.place 127).presence = .present ∧ 3 ≤ (a.place 127).misses ∧
      (a.place 127).presentation = none) ∧
    (b.Canonical ∧ (b.place 127).presentation = some pr ∧ pr.sent = false ∧ b.journal.storable = true) ∧
    (c.Canonical ∧ c.ReloadsInRange ∧ (c.place 127).presence ≠ .absent ∧ 16 ≤ (c.place 127).misses) ∧
    ((at127 { lock with misses := 2 }).place 127).misses < 3 ∧ ((at127 { lock with misses := 15 }).place 127).misses < 16 :=
  ⟨⟨canon _ (by decide), by decide, by decide, by decide, by decide⟩, ⟨canon _ (by decide), by decide, by decide, by decide⟩,
    ⟨canon _ (by decide), by decide, by decide, by decide⟩, by decide, by decide⟩

def onLine (pl : Place) (x : Segment) : State := { hotel with places := [(0, pl)], segs := [(0, x)] }

theorem test_witness_NormalPolls :
    let a := onLine lock inService
    let b : State := { ready with
      places := (List.range 32).map (fun i => (i, lock)), segs := [(0, { inService with roundOpen := true, roundPos := 32 })] }
    let c := onLine lock { inService with roundOpen := true }
    let d := onLine { lock with presence := .absent } { inService with roundOpen := true }
    let u := onLine { lock with waiting := [⟨.secure, 0⟩] } { inService with prioDue := true }
    (a.due = [] ∧ a.LineFree 0 ∧ a.priorityDue 0 = false ∧ (a.seg 0).roundOpen = false) ∧ a.Canonical ∧
    (b.due = [] ∧ b.LineFree 0 ∧ b.priorityDue 0 = false ∧ (b.seg 0).roundOpen = true ∧
      (b.seg 0).roundPos = 32 ∧ ∀ n ∈ List.range' 1 32, b.isCandidate 0 n = false) ∧ b.Canonical ∧
    (c.due = [] ∧ c.LineFree 0 ∧ c.priorityDue 0 = false ∧ (c.seg 0).roundOpen = true ∧ (c.seg 0).roundPos < 1 ∧
      c.isMember 0 1 = true) ∧ c.Canonical ∧
    (¬ready.LineFree 0 ∧ u.priorityDue 0 = true) ∧
    ((d.seg 0).roundOpen = true ∧ (∀ n ∈ List.range 33, d.isMember 0 n = false) ∧ d.isCandidate 0 1 = true) :=
  ⟨by decide, canon _ (by decide), by decide +kernel, canon _ (by decide +kernel), by decide, canon _ (by decide), by decide,
    by decide⟩

theorem test_witness_OtherPolls :
    let p := onLine { lock with presence := .absent } { inService with roundOpen := true, probeMark := 32 }
    let u := onLine { lock with waiting := [⟨.secure, 0⟩] } { inService with prioDue := true }
    let t := onLine lock { inService with line := .testing, test := some ⟨1, 1, 0, .none, false⟩ }
    (p.due = [] ∧ p.LineFree 0 ∧ p.priorityDue 0 = false ∧ (p.seg 0).roundOpen = true ∧
      ∀ n ∈ List.range 33, p.isMember 0 n = false) ∧ p.Canonical ∧ isNext 32 (p.isCandidate 0) 1 ∧
    (u.LineFree 0 ∧ (u.seg 0).prioDue = true) ∧ u.Canonical ∧ isNext 0 (u.isUrgent 0) 1 ∧
    ((t.seg 0).line = .testing ∧ (t.seg 0).test ≠ none ∧ (t.seg 0).exchange = none) ∧
    (¬ready.LineFree 3 ∧ (ready.seg 3).line ≠ .testing) :=
  ⟨by decide, canon _ (by decide), ⟨by decide, by decide, by decide, .inr ⟨fun _ _ _ => by omega, fun _ _ _ => by omega⟩⟩,
    by decide, canon _ (by decide), ⟨by decide, by decide, by decide, .inl ⟨by decide, fun _ _ _ => by omega⟩⟩, by decide, by decide⟩

theorem test_witness_OffersAndEvictions :
    let q (c : LineCmd) : Place :=
      { lock with delivery := some ⟨.identify, 0⟩, waiting := [⟨.secure, 1⟩, ⟨c, 2⟩, ⟨.cacheFlush true, 3⟩] }
    ({ lock with waiting := [⟨.secure, 0⟩, ⟨.secure, 1⟩, ⟨.secure, 2⟩] } : Place).queueLen < 4 ∧
    (4 ≤ (q .identify).queueLen ∧ ∀ x ∈ (q .identify).queue, x.cmd.cls ≤ LineCmd.identify.cls) ∧
    (4 ≤ (q .identify).queueLen ∧ ∃ x ∈ (q .identify).queue, LineCmd.secure.cls < x.cmd.cls) := by decide

def polled (pl : Place) (x : Segment) (e : Exchange) : State := onLine pl { x with exchange := some e }

theorem test_witness_MissedAndBadExchanges :
    let e (a : Nat) : Exchange := ⟨a, .normal, false, none, false⟩
    let s3 := polled { lock with misses := 2 } inService (e 1)
    let s16 := polled { lock with presence := .silent, misses := 15 } inService (e 1)
    let sAbs := polled { lock with presence := .absent } inService ⟨1, .probe, false, none, true⟩
    let t := polled lock { inService with termMisses := 2 } (e 0)
    (s3.due = [] ∧ (s3.seg 0).exchange = some (e 1) ∧ (s3.place 0).presence = .present ∧
      min 16 ((s3.place 0).misses + 1) = 3) ∧ s3.Canonical ∧
    ((s16.place 0).presence ≠ .absent ∧ min 16 ((s16.place 0).misses + 1) = 16) ∧ s16.Canonical ∧
    ((sAbs.place 0).presence = .absent ∧ (sAbs.seg 0).exchange = some ⟨1, .probe, false, none, true⟩) ∧
    ((t.seg 0).exchange = some (e 0) ∧ 2 ≤ (t.seg 0).termMisses) ∧ t.Canonical ∧
    validResponse (e 1) [0] = none ∧ (hotel.seg 0).exchange = none :=
  ⟨by decide, canon _ (by decide), by decide, canon _ (by decide), by decide, by decide, canon _ (by decide), by decide,
    by decide⟩

def framed (bs : List Byte) : List Byte := bs ++ checkBytes (crc bs)

theorem test_witness_TerminatorExchanges :
    let n : Exchange := ⟨0, .normal, false, none, false⟩
    let t : Exchange := ⟨0, .test, false, none, false⟩
    let atTest (x : TestProgress) := polled lock { inService with line := .testing, test := some x, pendingTest := some (7, 0) } t
    ((polled lock inService n).due = [] ∧ ((polled lock inService n).seg 0).exchange = some n ∧
      (validResponse n (framed [0, 0, 0])).map Response.status = some 0#8 ∧
      (validResponse n (framed [0, 1, 0])).map Response.status = some 1#8) ∧ (polled lock inService n).Canonical ∧
    (((atTest ⟨4, 7, 0, .none, false⟩).seg 0).test = some ⟨4, 7, 0, .none, false⟩ ∧
      (validResponse t (framed ([0, 0, 7] ++ State.testPattern ⟨4, 7, 0, .none, false⟩))).isSome = true) ∧
      (atTest ⟨4, 7, 0, .none, false⟩).Canonical ∧
    (((atTest ⟨4, 8, 2, .terminated, false⟩).seg 0).exchange = some t ∧
      ((atTest ⟨4, 8, 2, .terminated, false⟩).seg 0).pendingTest = some (7, 0) ∧
      (atTest ⟨4, 8, 2, .terminated, false⟩).trunk.unitNumber ≠ 0) :=
  ⟨by decide +kernel, canon _ (by decide), by decide +kernel, canon _ (by decide), by decide⟩

theorem test_witness_ProbeAnswered :
    let e : Exchange := ⟨1, .probe, false, none, true⟩
    let s := polled { Place.reset with door := lockedDoor } inService e
    (s.due = [] ∧ (s.seg 0).exchange = some e ∧ (validResponse e (framed [0x81, 8, 0])).map Response.event = some .none ∧
      (s.place (placeOf 0 1)).presence = .absent ∧ (s.place (placeOf 0 1)).queue = [] ∧
      (s.place (placeOf 0 1)).departed = none) ∧ s.Canonical := ⟨by decide +kernel, canon _ (by decide)⟩

theorem test_witness_Confirmations :
    let q : QEntry := ⟨.remoteUnlock 5, 0⟩
    let e : Exchange := ⟨1, .normal, false, some q, false⟩
    let s := polled { lock with delivery := some q } inService e
    let h (drops : List Nat) : State := { hotel with
      places := [(0, { lock with directory := [⟨0, 1, .removing .carried⟩] })]
      revocations := [(31, ⟨1, 8, .withdraw, drops, 90⟩)] }
    (s.due = [] ∧ (s.seg 0).exchange = some e ∧
      (validResponse e (framed [0x01, 0, 2])).map (fun r => (r.event, r.status.getLsbD 3, condOf r.status)) =
        some (.done, false, ⟨false, false, false⟩) ∧
      (s.place 0).delivery = some q ∧ (s.place 0).presence = .present ∧
      (s.place 0).accepted = some ⟨false, false, false⟩ ∧ (s.place 0).door.isLocked = true ∧
      (s.place 0).doorState = .secure ∧ s.journal.storable = true) ∧ s.Canonical ∧
    (⟨0, 1, .removing .carried⟩ ∈ ((h [0, 9]).place 0).directory ∧
      Tab.look (h [0, 9]).revocations 31 = some ⟨1, 8, .withdraw, [0, 9], 90⟩ ∧ ∃ d ∈ [0, 9], d ≠ 0) ∧
    (h [0, 9]).Canonical ∧ (Tab.look (h [0]).revocations 31 = some ⟨1, 8, .withdraw, [0], 90⟩ ∧ ∀ d ∈ [0], d = 0) ∧
    (h [0]).Canonical ∧ (∀ j x, Tab.look (h [0]).revocations j = some x → x.index = 1 → j = 31) :=
  ⟨by decide +kernel, canon _ (by decide), by decide, canon _ (by decide), by decide, canon _ (by decide), by
    intro j x h _
    simp only [Tab.look] at h
    split at h
    · omega
    · cases h⟩

theorem test_witness_PresentationIsAnswered : hotel.Canonical ∧ (hotel.place 0).presentation = none ∧
    (hotel.place 0).delivery = none ∧ (hotel.place 0).class1 < 4 ∧ (hotel.evaluate 0 7 true).ends = none ∧
    (hotel.evaluate 0 7 true).verdict = .grant ∧ (hotel.evaluate 0 99 true).ends = none :=
  ⟨hotel_canonical, by decide, by decide, by decide, by decide, by decide, by decide⟩

/-- Some presentation is granted and some is not. -/
theorem test_witness_GrantsArePermitted : (hotel.evaluate 0 7 true).verdict = .grant ∧
    (hotel.evaluate 0 8 true).verdict = .deny .revoked := by decide

theorem test_witness_SchedulesAdmit :
    let c : Cred := ⟨.active, 9, .staff, none, 1, some 31, some (0, 16777215), false, false⟩
    (10079 ≤ 10079 ∧ 0 ≤ 10079) ∧ ready.clock.state = .unset ∧
    (hotel.clock.state = .running ∧ hotel.tooEarly c = false ∧ hotel.ended c = false ∧
      State.scheduleFor lockedDoor c = some 31) := by decide

def someFrame (dest : Byte) (room : Nat) : TrunkFrame :=
  ⟨dest, room, 0, 0x10, 7, [], crc (frameBody dest room 0 0x10 7 [])⟩

theorem test_witness_FramesAreReceived :
    let bs := (someFrame 9 0).bytes
    (bs.head? = some 0xA5#8 ∧ readFrame .uplink bs = some (someFrame 9 0) ∧ readFrame .downlink bs = some (someFrame 9 0)) ∧
    (ready.due = [] ∧ (List.replicate 7 (someFrame 9 0)).length < 8 ∧ 8 ≤ (List.replicate 8 (someFrame 9 0)).length) ∧
    (readFrame .uplink [0xA5#8] = none ∧ readFrame .downlink [0xA5#8] = none) ∧ ready.Canonical ∧
    ([] : List Byte).head? ≠ some 0xA5#8 := ⟨by decide +kernel, by decide, by decide, canon _ (by decide), by decide⟩

def linked : State := { ready with trunk := { State.reset.trunk with upLink := true, downLink := true } }

theorem test_witness_HoldsAndLinks : linked.due = [] ∧ linked.trunk.upLink = true ∧ linked.trunk.downLink = true ∧
    linked.trunk.unitNumber ≠ 0 ∧ linked.Canonical ∧ ready.link .uplink = false ∧ ready.link .downlink = false :=
  ⟨by decide, by decide, by decide, by decide, canon _ (by decide), by decide, by decide⟩

def windowed : State := { linked with windows := [(0, ⟨true, 101, 4, 0, 1⟩)] }

def arrived (s : State) (f : TrunkFrame) : State := { s with trunk := { s.trunk with classifier := [f] } }

theorem test_witness_FramesAreClassified :
    let u (d : Byte) (r : Nat) := arrived windowed (someFrame d r)
    let clash : State := { windowed with places := [(0, lock)], windows := [(0, ⟨true, 102, 4, 0, 1⟩)] }
    ((u 9 0).due = [] ∧ (u 9 0).trunk.classifier = [someFrame 9 0] ∧ (u 9 0).trunk.downlink.length < 8 ∧
      (u 9 0).request = none ∧ (u 9 0).trunk.completions.length < 8 ∧ (u 9 0).trunk.waitingCompletions = []) ∧
    ((someFrame 9 0).dest ≠ 255#8 ∧ (someFrame 9 0).dest.toNat ≠ windowed.trunk.unitNumber) ∧
    ((someFrame 1 0).dest.toNat = windowed.trunk.unitNumber ∧ windowed.Serving) ∧
    (windowed.covered 105 = false ∧ windowed.covered 101 = true ∧ windowed.covered 104 = true ∧
      windowed.mapConflict (.room 101) = none) ∧
    (State.reset.status = .starting ∧ ready.trunk.downLink = false ∧ ({ ready with status := .bypass } : State).status = .bypass) ∧
    ((clash.covered 102 = true ∧ (clash.mapConflict (.room 102)).isSome = true) ∧ ready.trunk.classifier = []) := by
  decide +kernel

theorem test_witness_FramesAreSent :
    let t (f : Trunk → Trunk) : State := { linked with trunk := f linked.trunk }
    let c : Completion := ⟨7, 0x10, .done, [], []⟩
    let r : Record := ⟨0, 0, 0, .tamper, .unit, none, none, [], Marks.none⟩
    let j : State := { linked with journal := { State.reset.journal with ring := [r], next := 1, limit := 256 } }
    (linked.due = [] ∧ linked.trunk.upHeld = false ∧ linked.trunk.downHeld = false ∧ linked.localWaits = false ∧
      linked.trunk.passThrough = [] ∧ linked.trunk.downlink = []) ∧
    ((t (fun x => { x with downlink := [someFrame 9 0] })).trunk.downlink = [someFrame 9 0] ∧
      (t (fun x => { x with passThrough := [someFrame 9 0] })).trunk.lastServed = .local) ∧
    ((t (fun x => { x with completions := [c] })).trunk.completions = [c] ∧
      (t (fun x => { x with notices := [⟨.tamper, .note, [], 0, 0⟩] })).trunk.completions = []) ∧
    j.journalOffer = some r ∧ j.journal.Contiguous ∧ j.Serving ∧ j.journal.cursor < j.journal.next ∧
    ready.trunk.upLink = false ∧
    ((t (fun x => { x with completions := List.replicate 7 c, waitingCompletions := [c] })).trunk.completions.length < 8) :=
  ⟨by decide, by decide +kernel, by decide, by decide,
    ⟨by decide, by decide, by decide, by decide, by decide, fun _ h => nomatch h⟩, by decide, by decide, by decide, by decide⟩

theorem test_witness_StoreWrites :
    let w (b : Nat) : State := { ready with
      writer := .writing b [] false, firstAttempt := .awaited
      journal := { State.reset.journal with pendingLimit := some 256 } }
    let d : State := { ready with dirty := [82] }
    (d.due = [] ∧ d.writer = .idle ∧ d.dirty = [82]) ∧ (ready.writer = .idle ∧ ready.dirty = []) ∧
    ((w 2).writer = .writing 2 [] false ∧ 2 ≤ 2) ∧
    ((w 1).writer = .writing 1 [] false ∧ 1 < 2 ∧ (w 1).journal.pendingLimit = some 256 ∧ (w 1).firstAttempt = .awaited) ∧
    (w 0).Canonical ∧ (some [1#8]).getD ([] : List Byte) ≠ [] :=
  ⟨by decide, by decide, by decide, by decide, canon _ (by decide), by decide⟩

theorem test_witness_RequestsAreAnswered :
    let q : Request := ⟨.unit, 0, 7, [5]⟩
    let held (s : State) : State := { s with request := some ⟨0x10, q⟩ }
    ((Instr.status q).wellFormed = true ∧ (Instr.status q).asRequest = some (0x10, q) ∧ ready.due = []) ∧
    ((held ready).request ≠ none ∧ (held ready).request ≠ some ⟨0x12, plain []⟩ ∧ (held ready).request = some ⟨0x10, q⟩) ∧
    (State.reset.status = .starting ∧ ready.Serving ∧ ({ ready with status := .bypass } : State).status = .bypass) ∧
    (({ hotel with windows := [(0, ⟨true, 102, 4, 0, 1⟩)] } : State).mapConflict (.room 102)).isSome = true ∧
    (hotel.mapConflict .unit = none ∧ formOk 0x05 .unit = false) ∧ hotel.Takes 0x00 q ∧ hotel.Takes 0xFF q ∧
    (hotel.Takes 0x10 q ∧ readPayload [] q.payload = .error 1) ∧ (hotel.Takes 0x0C q ∧ readPayload [(1, 5)] q.payload = .error 1) ∧
    hotel.trunk.unitNumber ≠ 0 :=
  ⟨by decide, by decide, by decide, by decide, by decide, takes _ _ _ (by decide), takes _ _ _ (by decide),
    ⟨takes _ _ _ (by decide), rfl⟩, ⟨takes _ _ _ (by decide), rfl⟩, by decide⟩

theorem test_witness_SettingsAreLoaded :
    hotel.Takes 0x01 (plain []) ∧ hotel.Canonical ∧
    readLoad .windows readWindow (fun _ f => checkWindow f) ([0, 15, 0, 1, 0] ++ windowBytes ⟨true, 65535, 32, 3, 1⟩) =
      .ok [(15, ⟨true, 65535, 32, 3, 1⟩)] ∧
    readLoad .schedules readSchedule (fun _ f => checkSchedule f)
      ([2, 31, 0, 1, 0] ++ scheduleBytes ⟨some ⟨10079, 10080⟩, none, none, none⟩) =
      .ok [(31, ⟨some ⟨10079, 10080⟩, none, none, none⟩)] ∧
    readLoad .zones readZone (fun _ f => checkZone f) [3, 14, 0, 2, 0, 1, 2] = .ok [(14, .closed), (15, .released)] ∧
    readLoad .prices readPrice (fun _ f => checkPrice f) [4, 255, 0, 1, 0, 255, 255, 136, 19] = .ok [(255, ⟨65535, 5000⟩)] ∧
    readLoad .policy readPolicy (fun _ f => checkPolicy f) [6, 0, 0, 1, 0, 255, 0, 60, 255, 0, 1] =
      .ok [(0, ⟨255, 0, 60, 255, false, 1⟩)] ∧
    readLoad .windows readWindow (fun _ f => checkWindow f) [0, 16, 0, 1, 0] = .error ⟨0, 2⟩ ∧
    readLoad .zones readZone (fun _ f => checkZone f) [3, 0, 0, 1, 0, 3] = .error ⟨1, 1⟩ :=
  ⟨takes _ _ _ (by decide), hotel_canonical, rfl, rfl, rfl, rfl, rfl, rfl, rfl⟩

theorem test_witness_DoorsAreLoaded :
    let full : State := { hotel with rooms := (List.range 96).map (fun i => (i, ⟨i + 200, 0, none, none, none⟩)), places := [] }
    let es : Entries DoorRec := [(126, .unused), (127, .roomDoor 65535 15 30 255)]
    hotel.Takes 0x01 (plain []) ∧ hotel.Canonical ∧
    readLoad .doors readDoor (fun _ f => checkDoor f) ([1, 126, 0, 2, 0, 0] ++ doorBytes (.roomDoor 65535 15 30 255)) = .ok es ∧
    hotel.doorsTooMany es = false ∧
    hotel.doorsTooMany [(0, .roomDoor 103 0 5 20)] = false ∧ full.doorsTooMany [(0, .roomDoor 103 0 5 20)] = true ∧
    barred.Takes 0x01 (plain []) ∧
    readLoad .compartments readComps (checkCompsAt barred)
      ([5, 1, 0, 1, 0, 0] ++ (List.replicate 12 [(255 : Byte), 1, 4]).flatten) = .ok [(1, List.replicate 12 ⟨255, .empty, 0⟩)] ∧
    barred.anyPending 1 = false ∧
    ({ barred with places := [(1, { bar with comps := List.replicate 12 ⟨1, .pending, 0⟩ })] } : State).anyPending 1 = true ∧
    readLoad .doors readDoor (fun _ f => checkDoor f) [1, 0, 0, 1, 0, 4] = .error ⟨1, 1⟩ :=
  ⟨takes _ _ _ (by decide), hotel_canonical, rfl, by decide, by decide, by decide +kernel, takes _ _ _ (by decide), rfl, by decide, by decide, rfl⟩

theorem test_witness_CredentialsAndStaysAreLoaded :
    let c : Cred := ⟨.active, 9, .staff, none, 1, some 31, none, true, false⟩
    hotel.Takes 0x01 (plain []) ∧ hotel.Canonical ∧
    readLoad .credentials readCred (fun _ f => checkCredLoad f) ([7, 255, 15, 1, 0] ++ credBytes (some c)) =
      .ok [(4095, some ⟨c, false⟩)] ∧
    hotel.credChecks [(4095, some ⟨c, false⟩)] = none ∧ hotel.credChecks [(0, some ⟨c, false⟩)] = some .busy ∧
    hotel.credChecks [(0, none)] = some .busy ∧ hotel.credChecks [(1, none)] = none ∧
    readLoad .stays readStayLoad (fun _ f => checkStay f) [8, 255, 0, 1, 0, 1, 9, 0, 104, 0, 0, 0, 0, 0, 0, 0, 0, 0, 0] =
      .ok [(255, some ⟨9, 104, 0, 0, 0⟩)] ∧
    hotel.loadStayChecks [(255, some ⟨9, 104, 0, 0, 0⟩)] = none ∧
    hotel.loadStayChecks [(0, none)] = some .busy ∧
    readLoad .credentials readCred (fun _ f => checkCredLoad f) [7, 0, 0, 1, 0, 5] = .error ⟨1, 1⟩ :=
  ⟨takes _ _ _ (by decide), hotel_canonical, rfl, by decide, by decide, by decide, by decide, rfl, by decide, by decide, rfl⟩

theorem test_witness_ReadingChangesNothing :
    hotel.Takes 0x02 (plain []) ∧ readFetch .credentials [7, 0, 0, 255, 0] = .ok (0, 255) ∧
    readFetch .rooms [9, 95, 0, 1, 0] = .ok (95, 1) ∧ readFetch .rooms [9, 95, 0, 2, 0] = .error ⟨0, 3⟩ ∧
    hotel.Takes 0x10 (plain []) ∧ (plain []).payload = [] ∧ (plain [0]).payload ≠ [] :=
  ⟨takes _ _ _ (by decide), rfl, rfl, rfl, takes _ _ _ (by decide), rfl, by decide⟩

/-- A table of which `n` entries, one after the other, are in use. -/
def filled (n : Nat) : Tab Cred :=
  (List.range n).map (fun i => (i, ⟨.active, i + 100, .staff, none, 0, none, none, false, false⟩))

theorem look_filled (n k : Nat) (h : k < n) : (Tab.look (filled n) k).isNone = false := by
  have : Tab.look (filled n) k = some ⟨.active, k + 100, .staff, none, 0, none, none, false, false⟩ := by
    refine Tab.mem_look ?_ (List.mem_map.2 ⟨k, List.mem_range.2 h, rfl⟩)
    simp only [filled, Tab.Rising, Tab.keys, List.map_map, Function.comp_def, List.map_id']
    exact List.pairwise_lt_range
  rw [this]; rfl

theorem filled_has_no_free (n : Nat) : Tab.lowestFree (filled n) n = none :=
  List.find?_eq_none.2 fun k hk => by rw [look_filled n k (List.mem_range.1 hk)]; decide

theorem freeCred_of_filled (s : State) (h : Tab.lowestFree s.creds 4096 = none) (ha : ∀ e ∈ s.creds, e.2.state = .active) :
    s.freeCred = none := by
  unfold State.freeCred
  rw [h]
  simp only [Option.map_eq_none_iff, List.find?_eq_none]
  intro e he
  simp [ha e he]

theorem test_witness_no_free_credential (s : State) (h : s.creds = filled 4096) : s.freeCred = none := by
  refine freeCred_of_filled s (by rw [h]; exact filled_has_no_free _) fun e he => ?_
  rw [h] at he
  obtain ⟨i, _, rfl⟩ := List.mem_map.1 he
  rfl

theorem test_witness_CardsAreEnrolled :
    let c : Cred := ⟨.active, 99, .staff, none, 1, none, none, false, false⟩
    let g : Cred := ⟨.active, 99, .guest, some ⟨101, 5, 0⟩, 1, none, some (0, 9), false, false⟩
    (hotel.Takes 0x03 (plain (0 :: (credBytes (some c)).drop 1)) ∧ hotel.Canonical) ∧
    (∃ f, readEnrol (0 :: (credBytes (some c)).drop 1) = .ok f ∧ checkEnrol f = .ok (false, ⟨c, false⟩)) ∧
    (hotel.roomChecks c = none ∧ hotel.roomChecks g = some .staleGeneration) ∧
    (hotel.findCard 99 = none ∧ Tab.lowestFree hotel.creds 4096 = some 2) ∧
    (hotel.findCard 7).map Prod.fst = some 0 ∧ (hotel.revoke 0 .replace).referenced 0 = false ∧
    (({ hotel with places := [(0, { lock with directory := [⟨0, 0, .held⟩] })] } : State).revoke 0 .replace).referenced 0 = true ∧
    ((hotel.findCard 8).map Prod.fst = some 1 ∧ hotel.referenced 1 = false) ∧
    ({ hotel with places := [(0, { lock with directory := [⟨0, 1, .removing .queued⟩] })] } : State).referenced 1 = true ∧
    readEnrol [] = .error 1 ∧ hotel.journal.storable = true :=
  ⟨⟨takes _ _ _ (by decide), hotel_canonical⟩, ⟨_, rfl, rfl⟩, by decide, by decide +kernel, by decide, by decide, by decide,
    by decide, by decide, rfl, by decide⟩

theorem test_witness_CardsAreWithdrawn : hotel.Takes 0x04 (plain (le 4 7)) ∧ hotel.Canonical ∧
    ((hotel.findCard 7).map (fun e => (e.1, e.2.state)) = some (0, .active) ∧
      (hotel.findCard 8).map (fun e => (e.1, e.2.state)) = some (1, .revoked) ∧ hotel.findCard 4294967295 = none) :=
  ⟨takes _ _ _ (by decide), hotel_canonical, by decide⟩

theorem test_witness_StaysRun :
    let q (r : Nat) (n : Nat) := roomy r (le 2 n ++ le 3 60 ++ le 3 16777215)
    let full : State := { hotel with
      rooms := (List.range 96).map (fun i => (i, ⟨i + 200, 0, none, none, none⟩)) }
    (hotel.Takes 0x05 (q 101 9) ∧ hotel.Takes 0x05 (q 102 0) ∧ full.Takes 0x05 (q 103 9)) ∧ hotel.Canonical ∧
    (hotel.roomOccupied 101 = true ∧ hotel.roomOccupied 102 = false ∧ (hotel.findStay 6).isSome = true) ∧
    (hotel.findStay 9 = none ∧ hotel.freeStay = some 2 ∧ Tab.lowestFree hotel.rooms 96 = some 1) ∧
    (full.roomOccupied 103 = false ∧ full.findStay 9 = none ∧ full.findRoom 103 = none ∧ Tab.lowestFree full.rooms 96 = none) ∧
    (hotel.Takes 0x06 (plain (le 2 5 ++ le 3 16777215)) ∧ (hotel.findStay 6).any (fun e => !e.2.isOpen) = true ∧
      (hotel.findStay 5).any (fun e => e.2.isOpen) = true) ∧
    (hotel.Takes 0x07 (plain (le 2 5 ++ le 2 101)) ∧ (hotel.findStay 5).map (fun e => (e.1, e.2.room)) = some (0, 101) ∧
      (hotel.findStay 6).map (fun e => (e.1, e.2.room)) = some (1, 102)) :=
  ⟨⟨takes _ _ _ (by decide), takes _ _ _ (by decide), takes _ _ _ (by decide)⟩, hotel_canonical, by decide, by decide,
    by decide +kernel, ⟨takes _ _ _ (by decide), by decide⟩, ⟨takes _ _ _ (by decide), by decide⟩⟩

theorem test_witness_StaysArePurged : hotel.Takes 0x08 (plain (le 2 65535)) ∧ hotel.Canonical ∧ hotel.findStay 65535 = none ∧
    (hotel.findStay 6).any (fun e => !e.2.isOpen) = true ∧ (hotel.findStay 5).any (fun e => e.2.isOpen) = true ∧
    (∀ y ∈ hotel.stays, ∀ z ∈ hotel.stays, y.2.number = z.2.number → y.1 = z.1) :=
  ⟨takes _ _ _ (by decide), hotel_canonical, by decide, by decide, by decide, by decide⟩

theorem test_witness_DoorsAreOpened :
    let busy : Place := { lock with waiting := List.replicate 4 ⟨.secure, 0⟩ }
    let h (pl : Place) : State := { hotel with places := [(127, pl)] }
    (hotel.Takes 0x09 (plain [3, 32]) ∧ hotel.Takes 0x09 (plain [4, 1]) ∧ hotel.Takes 0x09 (plain [0, 33])) ∧
    (h lock).Canonical ∧
    (placeOf 3 32 = 127 ∧ ((h lock).place 127).door.isLocked = true ∧ ((h lock).place 127).presence ≠ .absent ∧
      ((h lock).place 127).class1 < 4) ∧
    (((h bar).place 127).door.isLocked = false ∧ ((h { lock with presence := .absent }).place 127).presence = .absent ∧
      4 ≤ ((h busy).place 127).class1) ∧
    (hotel.Takes 0x09 (roomy 101 []) ∧ hotel.roomDoor 101 = some 0 ∧ hotel.roomDoor 102 = none) :=
  ⟨⟨takes _ _ _ (by decide), takes _ _ _ (by decide), takes _ _ _ (by decide)⟩, canon _ (by decide), by decide, by decide,
    ⟨takes _ _ _ (by decide), by decide⟩⟩

theorem test_witness_ZonesAreSet :
    let rel : State := { hotel with zones := [(15, .released)] }
    (hotel.Takes 0x0A (plain [16, 0]) ∧ hotel.Takes 0x0A (plain [15, 3]) ∧ hotel.Takes 0x0A (plain [0, 2])) ∧
    hotel.Canonical ∧ rel.Canonical ∧ ([0, byte (zoneCode .released)] : List Byte) = [0, 2] ∧
    (hotel.zone 0 = .normal ∧ rel.zone 15 = .released) ∧
    ((hotel.place 0).door.isLocked = true ∧ (hotel.place 0).door.zone? = some 0) :=
  ⟨⟨takes _ _ _ (by decide), takes _ _ _ (by decide), takes _ _ _ (by decide)⟩, hotel_canonical, canon _ (by decide), by decide,
    by decide, by decide⟩

theorem test_witness_ClockIsSet :
    hotel.Takes 0x0B (plain (le 3 16777215 ++ le 2 10079)) ∧ hotel.Takes 0x0B (plain (le 3 0 ++ le 2 10080)) ∧ hotel.Canonical ∧
    16777215 ≤ top24 ∧ 1 ≤ hotel.policy.d := ⟨takes _ _ _ (by decide), takes _ _ _ (by decide), hotel_canonical, by decide⟩

theorem test_witness_JournalIsReleasedAndRewound :
    let r (n : Nat) : Record := ⟨n, 0, 0, .tamper, .unit, none, none, [], Marks.none⟩
    let j (c g : Nat) : State := { hotel with
      journal := { State.reset.journal with ring := [r 5, r 6], release := 5, cursor := c, next := 7, limit := 256, gap := g } }
    ((j 7 0).Takes 0x0D (plain (le 5 (seqEnd - 1))) ∧ (j 7 0).Takes 0x0C (plain (le 5 6)) ∧ 0 < (j 7 0).journal.cursor) ∧
    (min 4 ((j 7 0).journal.cursor - 1) < (j 7 0).journal.release ∧
      (j 7 0).journal.release ≤ min 6 ((j 7 0).journal.cursor - 1) ∧ (j 7 0).journal.gap = 0 ∧ 0 < (j 7 3).journal.gap) ∧
    ({ (j 7 3).journal with ring := [], release := 7 } : Journal).storable = true ∧
    ({ (j 7 3).journal with ring := [], release := 7, limit := 7 } : Journal).storable = false ∧ hotel.journal.cursor = 0 :=
  ⟨⟨takes _ _ _ (by decide), takes _ _ _ (by decide), by decide⟩, by decide, by decide, by decide, by decide⟩

theorem test_witness_SegmentsAreServed :
    let h (l : LineState) : State := { hotel with segs := [(3, { inService with line := l, pendingTest := some (7, 9) })] }
    (hotel.Takes 0x0E (plain [4]) ∧ hotel.Takes 0x0F (plain [3, 0]) ∧ hotel.Takes 0x0F (plain [3, 1]) ∧
      hotel.Takes 0x0F (plain [3, 2])) ∧ (h .testing).Canonical ∧
    ((h .testing).seg 3).line = .testing ∧ (hotel.seg 3).line = .outOfService ∧
    (((h .degraded).seg 3).line ≠ .testing ∧ ((h .degraded).seg 3).line ≠ .outOfService) ∧
    ((h .testing).seg 3).pendingTest = some (7, 9) ∧ hotel.trunk.unitNumber ≠ 0 :=
  ⟨⟨takes _ _ _ (by decide), takes _ _ _ (by decide), takes _ _ _ (by decide), takes _ _ _ (by decide)⟩, canon _ (by decide),
    by decide, by decide, by decide, by decide, by decide⟩

theorem test_witness_FaultsAreCleared :
    let bs : List Byte := [255, 255, 31, 0, 1, 1, 0, 0, 0, 1, 20, 2]
    hotel.Takes 0x11 (plain bs) ∧ hotel.Canonical ∧
    (∃ f, readFaultArgs bs = .ok f ∧ checkFaultArgs f = .ok ⟨2097151, some 1, [(.startErrors, .alarm)]⟩) ∧
    readFaultArgs [] = .error 1 ∧ (∃ f, readFaultArgs [0, 0, 32, 0, 0, 0] = .ok f ∧ checkFaultArgs f = .error 1) :=
  ⟨takes _ _ _ (by decide), hotel_canonical, ⟨_, rfl, rfl⟩, rfl, _, rfl, rfl⟩

theorem test_witness_RestartKeepsTheTables : hotel.Takes 0x12 (plain []) ∧ hotel.Canonical ∧ hotel.ReloadsInRange ∧
    (plain []).payload = [] ∧ (hotel.place 0).presence ≠ .absent ∧ (plain [0]).payload ≠ [] :=
  ⟨takes _ _ _ (by decide), hotel_canonical, by decide, rfl, by decide, by decide⟩

/-! ## Witnesses for the further clauses of those statements -/

theorem test_witness_TablesStayCanonical_dirty : ({ hotel with dirty := [0, 1, 82] } : State).DirtyRising ∧
    ({ hotel with dirty := [0, 1, 82] } : State).Canonical := ⟨by decide, canon _ (by decide)⟩

theorem test_witness_FramesPassUnchanged_bad :
    crcOk ([0xA5#8, 0, 0].drop 1) = false ∧
    ((frameWith (frameBody 9 0 0 0x10 7 []) 0 ++ [1])[7]? = some 0#8 ∧
      (frameWith (frameBody 9 0 0 0x10 7 []) 0 ++ [1]).length ≠ (0#8).toNat + 10) ∧
    240 < (241#8).toNat := by decide +kernel

theorem test_witness_TableRecordsReadBack_blocks :
    let zoneImage : List Byte := [2, 1] ++ List.replicate 3068 0
    let good : List Byte := zoneImage ++ le 2 (checksum zoneImage)
    let s : State := { hotel with store := [(3, good), (4, List.replicate 3071 0 ++ [1])] }
    (s.storeBlock 2 = none ∧ s.readBlock 2 = .blank) ∧ s.readBlock 3 = .good good ∧ s.readBlock 4 = .bad ∧
    parse readZone checkZone ((good.drop 0).take 1) = some .released ∧
    (parse readPolicy checkPolicy (policyBytes Policy.default)).isSome = true ∧
    Tab.look ready.rooms 95 = none ∧ Tab.look ready.stays 255 = none ∧ ready.cred 4095 = none := by decide +kernel

theorem test_witness_TableRecordsReadBack_canonical :
    ({ hotel with store := [(4, List.replicate 3071 0#8 ++ [1#8])] } : State).Canonical := canon _ (by decide +kernel)

/-- A limit 129 above the next number is reached, one 130 above is not; and the ring becomes full. -/
theorem test_witness_RecordsAreNumbered_edges :
    let j (next limit : Nat) : Journal := { State.reset.journal with next := next, limit := limit }
    ((j 127 256).storable = true ∧ (j 127 256).pendingLimit = none ∧ (j 127 256).limit ≤ (j 127 256).next + 129 ∧
      (j 127 256).limit < seqEnd) ∧
    ((j 126 256).storable = true ∧ ¬(j 126 256).limit ≤ (j 126 256).next + 129) ∧
    ((j 2047 4096).storable = true ∧ (j 2047 4096).held + 1 = 2048) ∧
    ((j 2048 4096).storable = false ∧ (j 2048 4096).held = 2048) ∧ Tab.Rising hotel.faults := by decide

/-- A store with a card twice, two OPEN stays of a room, a room that nothing needs and a pending charge. -/
def torn : State :=
  { starting with
    creds := [(0, ⟨.revoked, 7, .staff, none, 0, none, none, false, false⟩),
      (3, ⟨.active, 7, .guest, some ⟨101, 5, 1⟩, 0, none, some (0, 9), false, false⟩),
      (9, ⟨.expired, 9, .staff, none, 0, none, none, false, false⟩)]
    stays := [(0, ⟨5, 101, true, 10, none, 60, 100, 0, false⟩), (1, ⟨6, 101, true, 10, none, 60, 100, 0, false⟩)]
    rooms := [(0, ⟨101, 2, some 9, none, none⟩), (1, ⟨102, 0, none, none, none⟩)]
    places := [(0, lock), (127, { lock with door := .roomDoor 103 0 5 20 })]
    zones := [(0, .released)] }

theorem test_witness_StartUpEnds_reconciliation :
    torn.Canonical ∧ torn.keeper 7 = some 3 ∧ torn.keeper 9 = some 9 ∧
    (torn.fixDuplicates.cred 0 = none ∧ torn.fixDuplicates.cred 3 = torn.cred 3) ∧
    ((Tab.look torn.fixStays.stays 0).any (fun x => !x.isOpen) = true ∧
      (Tab.look torn.fixStays.stays 1).any (fun x => x.isOpen) = true) ∧
    ((torn.fixFields.findRoom 101).any (fun e => e.2.openStay.isSome) = true) ∧
    (torn.roomNamed 102 = false ∧ (torn.fixRooms.findRoom 103).map Prod.fst = some 1 ∧ torn.fixRooms.findRoom 102 = none) ∧
    (torn.accepted 101 = some 2 ∧ (torn.fixStale.cred 3).any (fun c => c.state == .superseded) = true) ∧
    ((torn.place 127).door.isLocked = true ∧ torn.zoneOfDoor (torn.place 127).door = .released) :=
  ⟨canon _ (by decide), by decide, by decide, by decide, by decide, by decide, by decide, by decide, by decide⟩

theorem test_witness_RevocationStarts_drops :
    let pr : Presentation := ⟨3, 7, some ⟨0, .guest, some (101, 1)⟩, .grant, false, false, false⟩
    let pl : Place := { lock with
      directory := [⟨0, 0, .adding .carried⟩], presentation := some pr, waiting := [⟨.verdict 3 (.grant 5), 0⟩] }
    let r : Revocation := ⟨1, 8, .withdraw, [0], 90⟩
    let a : State := { hotel with places := [(0, pl)], revocations := (List.range 31).map (fun k => (k, r)) }
    let b : State := { a with revocations := (List.range 32).map (fun k => (k, r)) }
    let never : State := { hotel with places := [(0, { lock with directory := [⟨0, 0, .adding .queued⟩] })] }
    a.Canonical ∧ (a.cred 0).any (fun c => c.state == .active) = true ∧
    (a.holders 0 = [0] ∧ Tab.lowestFree a.revocations 32 = some 31) ∧ b.Canonical ∧
    (b.holders 0 = [0] ∧ Tab.lowestFree b.revocations 32 = none) ∧ (never.holders 0 = [] ∧ 0 ∉ never.holders 0) ∧
    (Place.replaceable 0 pr = true ∧ (⟨.verdict 3 (.grant 5), 0⟩ : QEntry) ∈ (a.place 0).waiting) ∧
    a.journal.storable = true :=
  ⟨canon _ (by decide), by decide, by decide, canon _ (by decide), by decide, by decide, by decide, by decide⟩

theorem test_witness_DoorTimerRows_conditions :
    let shut : Cond := ⟨false, false, false⟩
    let s (pl : Place) : State := { hotel with places := [(0, pl)] }
    ready.place 5 = Place.reset ∧ Place.reset.door = .unused ∧
    (lock.door ≠ .unused ∧ lock.accepted = some shut ∧ lock.accepted ≠ some ⟨true, false, true⟩) ∧
    ({ lock with candidate := some ⟨true, false, true⟩ } : Place).candidate = some ⟨true, false, true⟩ ∧
    ((s lock).Canonical ∧ ((s lock).place 0).door.isMinibar = false ∧ shut.isOpen = false ∧ shut.tamper = false) ∧
    ((s { lock with accepted := some ⟨true, false, false⟩, doorState := .held }).place 0).doorState = .held ∧
    (((s { lock with accepted := none, doorState := .unknown }).place 0).accepted = none ∧
      ((s { lock with accepted := none, doorState := .unknown }).place 0).doorState = .unknown) ∧
    (((s lock).acceptCond 0 ⟨true, false, true⟩).place 0).doorState = .openForced ∧ (s lock).journal.storable = true :=
  ⟨by decide, by decide, by decide, by decide, ⟨canon _ (by decide), by decide⟩, by decide, by decide, by decide, by decide⟩

def barIs (st : CompState) (rev : Nat) : State :=
  { barred with places := [(0, lock), (1, { bar with comps := List.replicate 12 ⟨1, st, rev⟩ })] }

theorem test_witness_RemovalsAndCharges_cases :
    let x : Charge := ⟨1, 11, 5, some 7, .guest, 1375, 1⟩
    let away : State := { barred with stays := [] }
    let none0 : State := { barred with policy := { Policy.default with h := 0 } }
    let back : State := { barIs .pending 3 with pendingCharges := [x] }
    let stocking : State := { barred with
      places := [(1, { bar with session := some ⟨.restock, some 9, [0]⟩, window := some ⟨.guest, 9⟩ })] }
    (away.Canonical ∧ away.openStay 101 = none ∧ away.journal.storable = true) ∧
    (none0.Canonical ∧ none0.policy.h = 0 ∧ (none0.openStay 101).isSome = true) ∧
    (back.Canonical ∧ (back.comp 1 11).state = .pending ∧ back.pendingCharges.find? (State.isCharge 1 11) = some x ∧
      4 ≤ (back.comp 1 11).reversals + 1) ∧
    ((barIs .empty 0).Canonical ∧ ((barIs .empty 0).comp 1 0).state = .empty ∧ 0 < ((barIs .empty 0).place 1).comps.length) ∧
    (((barIs .faulty 4).comp 1 0).state = .faulty ∧ ((barIs .faulty 4).place 1).session = none) ∧
    (stocking.Canonical ∧ (stocking.place 1).session = some ⟨.restock, some 9, [0]⟩) ∧
    ((barred.place 1).window = none ∧ (barred.place 1).door.isMinibar = true) :=
  ⟨⟨canon _ (by decide), by decide⟩, ⟨canon _ (by decide), by decide⟩, ⟨canon _ (by decide), by decide⟩,
    ⟨canon _ (by decide), by decide⟩, by decide, ⟨canon _ (by decide), by decide⟩, by decide⟩

theorem test_witness_GraceExpiryCommits_order :
    let x (c left : Nat) : Charge := ⟨1, c, 5, none, .guest, 1375, left⟩
    let s : State := { barred with pendingCharges := [x 0 0, x 1 1, x 2 0, x 3 0] }
    Due.minuteAdvance ∉ s.due ∧ State.gracesBefore 1 2 s.pendingCharges = [x 0 0] ∧ s.journal.storable = true ∧
    State.gracesBefore 1 0 s.pendingCharges = [] ∧
    (outcome (exec (.graceExpiry 1 2) s)).pendingCharges = [x 1 1, x 3 0] := by decide

theorem test_witness_OtherPolls_frames :
    let x : TestProgress := ⟨4, 8, 0, .none, false⟩
    let s (e : Exchange) := polled lock { inService with test := some x } e
    let v : QEntry := ⟨.verdict 15 (.grant 30), 0⟩
    ((s ⟨32, .normal, true, some v, false⟩).seg 0).exchange = some ⟨32, .normal, true, some v, false⟩ ∧
    ((s ⟨0, .test, false, none, false⟩).seg 0).test = some x ∧
    ((s ⟨32, .normal, true, some v, false⟩).pollFrame 0).map (List.take 5) = some [0xA0, 1, 15, 0, 30] ∧
    ((s ⟨0, .normal, false, none, false⟩).pollFrame 0).map (List.take 2) = some [0, 0] := by decide +kernel

theorem test_witness_OffersAndEvictions_choice :
    let q (w : List QEntry) : Place := { lock with waiting := w }
    let add : QEntry := ⟨.cacheAdd 0 7 0, 1⟩
    let sec : QEntry := ⟨.secure, 0⟩
    let owing : Place := { lock with
      waiting := [sec, ⟨.identify, 1⟩], joinOwed := [.cacheFlush true]
      directory := [⟨0, 3, .removing .owed⟩, ⟨1, 4, .adding .owed⟩] }
    (lock.uncertain = false ∧ Place.reset.uncertain = true ∧
      ({ lock with delivery := some sec } : Place).delivery = some sec) ∧
    ((q [sec, add]).delivery = none ∧ (q [sec, add]).waiting = [] ++ sec :: [add] ∧ sec.cmd ≠ .cacheAdd 0 7 0) ∧
    ((q [add]).waiting = [add] ∧ ((q [add]).choose true).2 = none ∧ ((q [add]).choose false).2 = some add) ∧
    (q [sec, add]).waiting.Pairwise (fun x y => x.cmd.cls ≤ y.cmd.cls) ∧
    (owing.queueLen < 4 ∧ (owing.reoffer (fun _ => 7)).queueLen = 4 ∧ owing.reachable = true) ∧
    ({ lock with joinOwed := [.identify], flush := some .owed } : Place).queueLen < 4 ∧
    (({ lock with joinOwed := [.identify], flush := some .owed } : Place).reoffer (fun _ => 7)).queueLen < 4 := by decide

theorem test_witness_OffersAndEvictions_reload :
    let g (i : Nat) : Nat × Cred := (i, ⟨.active, 10 + i, .guest, some ⟨101, 5, 1⟩, 0, none, some (0, 9), false, false⟩)
    let s (n : Nat) : State := { hotel with creds := (List.range n).map g }
    let serving : State := { hotel with segs := [(0, { inService with terminal := false, served := 1, index := 9 })] }
    hotel.Canonical ∧ ((serving.seg (segOf 0)).terminal = false ∧ (serving.seg (segOf 0)).served = dropOf 0) ∧
    (([3, 32] : List Nat).Pairwise (· < ·) ∧
      State.nextServed { inService with served := 3, requests := [3, 32] } = some 32 ∧
      State.nextServed { inService with served := 32, requests := [3, 32] } = some 3) ∧
    (State.walkPass 0 true 0 (s 3).creds (s 3)).2 = .done ∧ (State.walkPass 0 true 0 (s 5).creds (s 5)).2 = .waiting 4 ∧
    (State.walkPass 0 true 0 hotel.creds { hotel with
      places := [(0, { lock with directory := (List.range 6).map (fun i => ⟨i, 99, .held⟩) })] }).2 = .full 0 :=
  ⟨hotel_canonical, by decide, by decide, by decide, by decide, by decide⟩

theorem test_witness_TerminatorExchanges_last :
    let t : Exchange := ⟨0, .test, false, none, false⟩
    let x : TestProgress := ⟨4, 8, 0, .terminated, false⟩
    let s := polled lock { inService with line := .testing, test := some x, pendingTest := some (7, 0) } t
    let bs := framed ([0, 0, 7] ++ State.testPattern x)
    (s.due = [] ∧ (s.seg 0).exchange = some t ∧ (s.seg 0).test = some x ∧ (validResponse t bs).isSome = true) ∧ s.Canonical ∧
    ((outcome (exec (.responseReceived 0 bs) s)).seg 0).line = .inService := ⟨by decide +kernel, canon _ (by decide), by decide +kernel⟩

theorem test_witness_ProbeAnswered_join :
    let s (pl : Place) (x : Segment) := onLine { pl with presence := .joining, joinStep := .identify } x
    let deg : Segment := { inService with line := .degraded }
    let flushing := onLine { lock with presence := .joining, joinStep := .flush } inService
    ((s lock inService).Canonical ∧ ((s lock inService).place 0).joinStep = .identify ∧
      kindMatches ((s lock inService).place 0).door .lock = true ∧ kindMatches ((s lock inService).place 0).door .reader = false ∧
      ((s lock inService).place 0).queueLen < 4 ∧ ((s lock inService).seg (segOf 0)).line ≠ .degraded ∧
      (s lock inService).journal.storable = true) ∧
    ((s { lock with lockSerial := some 4 } deg).Canonical ∧
      ((s { lock with lockSerial := some 4 } deg).place 0).lockSerial = some 4 ∧
      ((s { lock with lockSerial := some 4 } deg).seg (segOf 0)).line = .degraded) ∧
    ((s bar inService).Canonical ∧ ((s bar inService).place 0).door.isMinibar = true ∧
      kindMatches ((s bar inService).place 0).door .minibar = true) ∧
    (hotel.place 0).joinStep ≠ .identify ∧
    (flushing.Canonical ∧ (flushing.place 0).joinStep = .flush ∧ (flushing.flushConfirmed 0).journal.storable = true) :=
  ⟨⟨canon _ (by decide), by decide⟩, ⟨canon _ (by decide), by decide⟩, ⟨canon _ (by decide), by decide⟩, by decide,
    ⟨canon _ (by decide), by decide⟩⟩

theorem test_witness_Confirmations_answers :
    let add : QEntry := ⟨.cacheAdd 0 7 0, 0⟩
    let e : Exchange := ⟨1, .normal, false, some add, false⟩
    let s := polled { lock with delivery := some add, directory := [⟨0, 0, .adding .carried⟩] } inService e
    let plainPoll : Exchange := ⟨1, .normal, false, none, false⟩
    (s.due = [] ∧ (s.seg 0).exchange = some e ∧ (validResponse e (framed [0x01, 0, 2])).isSome = true ∧
      (s.place 0).delivery = some add ∧ State.expects add.cmd .done = true ∧ State.expects add.cmd .stale = false ∧
      (hotel.place 0).delivery ≠ some add ∧ plainPoll.carried = none ∧ plainPoll.resync = false) ∧ s.Canonical ∧
    ((hotel.place 0).door.isLocked = true ∧ (hotel.place 0).reachable = true ∧ (hotel.place 0).doorState ≠ .unknown) ∧
    ({ lock with doorState := .unknown } : Place).doorState = .unknown := ⟨by decide +kernel, canon _ (by decide), by decide, by decide⟩

theorem test_witness_Confirmations_doubt :
    let pl : Place := { lock with
      uncertain := true, departed := some ⟨.cacheAdd 0 7 0, true, false⟩, flush := some .doubtful
      directory := [⟨0, 0, .adding .doubtful⟩, ⟨1, 1, .removing .doubtful⟩] }
    let s : State := { hotel with
      places := [(0, pl)], revocations := [(0, ⟨1, 8, .withdraw, [0], 90⟩), (1, ⟨2, 9, .withdraw, [0, 5], 90⟩), (2, ⟨3, 9, .withdraw, [5], 90⟩)] }
    s.Canonical ∧ (s.place 0).delivery = none ∧ (s.place 0).departed = some ⟨.cacheAdd 0 7 0, true, false⟩ ∧
    (∀ d ∈ (s.place 0).directory, d.slot = 0 → d.index = 0 → d.state = .adding .doubtful) ∧
    (s.place 0).flush = some .doubtful ∧
    ((0 ∈ [0] ∧ ∀ d ∈ [0], d = 0) ∧ (0 ∈ [0, 5] ∧ ∃ d ∈ [0, 5], d ≠ 0) ∧ 0 ∉ [5]) ∧
    LineCmd.secure.cls = 1 := ⟨canon _ (by decide), by decide, by decide, by decide, by decide, by decide, by decide⟩

theorem test_witness_PresentationIsAnswered_verdicts :
    let pr (v : Verdict) : Presentation := ⟨3, 7, some ⟨0, .guest, some (101, 2)⟩, v, false, false, true⟩
    let s (v : Verdict) : State := { hotel with places := [(0, { lock with presentation := some (pr v) })] }
    let b : State := { barred with places := [(1, { bar with presentation := some (pr .grant) })] }
    ((s .grant).Canonical ∧ ((s .grant).place 0).presentation = some (pr .grant) ∧ (pr (.deny .time)).verdict = .deny .time ∧
      ((s .grant).place 0).doorState = .secure ∧ (s .grant).journal.storable = true) ∧
    (((s .grant).place 0).door.isLocked = true ∧
      (s .grant).findRoom 101 = some (0, ⟨101, 1, some 5, some 0, none⟩) ∧ 1 < 2) ∧
    (b.Canonical ∧ (b.place 1).door.isMinibar = true ∧ State.windowKind .guest = some .guest ∧ (b.place 1).doorState = .secure) ∧
    ((hotel.place 0).presentation = none ∧ ({ lock with doorState := .held } : Place).doorState ≠ .secure) ∧
    (({ lock with backlog := true } : Place).backlog = true ∧ (hotel.place 0).backlog = false) ∧
    ((hotel.evaluate 0 99 false).verdict = .deny .unknown ∧ (hotel.evaluate 0 7 false).verdict = .grant ∧
      hotel.clock.state = .running ∧ 1200 ≤ hotel.clock.m * 60 + hotel.clock.s ∧
      hotel.clock.m * 60 + hotel.clock.s < 1201 ∧ ready.clock.state = .unset) :=
  ⟨⟨canon _ (by decide), by decide⟩, by decide, ⟨canon _ (by decide), by decide⟩, by decide, by decide, by decide⟩

theorem test_witness_FramesAreClassified_broadcast :
    let u (st : UnitStatus) (d : Byte) (r : Nat) : State := { arrived windowed (someFrame d r) with status := st }
    ((u .starting 0 0).trunk.classifier = [someFrame 0 0] ∧ (someFrame 0 0).dest = 0#8 ∧ (u .starting 0 0).status = .starting ∧
      (u .starting 0 0).trunk.downlink.length < 8) ∧
    ((u .starting 255 101).covered 101 = true ∧ (someFrame 255 101).dest = 255#8 ∧ (someFrame 255 101).room = 101) ∧
    ((u .bypass 255 101).status = .bypass ∧ (u .bypass 0 0).request = none) := by decide +kernel

theorem test_witness_FramesAreSent_in_transmission :
    let f := someFrame 9 0
    let t (g : Trunk → Trunk) : State := { linked with trunk := g linked.trunk }
    let a := t (fun x => { x with downlink := [f], downTx := some f })
    let b := t (fun x => { x with passThrough := [f], upTx := some (.passThrough f) })
    (a.due = [] ∧ a.trunk.downlink = [f] ∧ a.trunk.downLink = true ∧ a.trunk.downHeld = false ∧ a.trunk.downTx = some f) ∧
    (b.due = [] ∧ b.trunk.upLink = true ∧ b.trunk.upHeld = false ∧ b.trunk.upTx = some (.passThrough f) ∧
      b.trunk.passThrough ≠ []) ∧ linked.trunk.upTx = none ∧ linked.trunk.downTx = none := by decide +kernel

theorem test_witness_StoreWrites_order :
    let d : State := { ready with dirty := [1, 2, 82] }
    (d.due = [] ∧ d.DirtyRising ∧ d.writer = .idle ∧ d.dirty ≠ [] ∧ 1 ∈ d.dirty) ∧
    (({ ready with writer := .writing 1 [] false } : State).journal.pendingLimit = none ∧ 1 < 2) ∧
    (∀ b ∈ [(82 : Nat)], b ≠ 0 ∧ b ≠ 1) := by decide

/-- R157: a reservation write that raises L, with a gap that can now be stored, and with one that still cannot. -/
theorem test_witness_StoreWrites_gap :
    let w (n : Nat) : State := { ready with
      writer := .writing 0 [] false
      journal := { State.reset.journal with pendingLimit := some n, gap := 3 } }
    (0 < (w 256).journal.gap ∧ ({ (w 256).journal with limit := 256 } : Journal).storable = true ∧
      ((w 256).reserved 0).journal.ring.map Record.detail = [[3, 0]] ∧ ((w 256).reserved 0).journal.gap = 0) ∧
    (({ (w 0).journal with limit := 0 } : Journal).storable = false ∧ ((w 0).reserved 0).journal.gap = 3) := by decide

theorem test_witness_SettingsAreLoaded_ranges :
    let w (a b : Nat) : Fields := [(1, 0), (2, 65535), (3, a), (4, 3), (5, b)]
    checkWindow (w 32 1) = .ok ⟨false, 65535, 32, 3, 1⟩ ∧ checkWindow (w 33 1) = .ok ⟨false, 65535, 32, 3, 1⟩ ∧
    checkWindow (w 128 32) = .ok ⟨false, 65535, 1, 3, 32⟩ ∧ checkWindow (w 129 1) = .error 3 ∧
    checkPrice [(1, 0), (2, 5000)] = .ok ⟨0, 5000⟩ ∧ checkPrice [(1, 0), (2, 5001)] = .error 2 ∧
    checkZone [(1, 2)] = .ok .released ∧ checkZone [(1, 3)] = .error 1 := ⟨rfl, rfl, rfl, rfl, rfl, rfl, rfl, rfl⟩

theorem test_witness_DoorsAreLoaded_effects :
    let s (pl : Place) : State := { hotel with places := [(0, pl)] }
    let moved : State := { s { lock with door := .unused, suspect := true } with
      segs := [(0, { inService with terminal := false, served := 1, requests := [2, 32] })] }
    let shop : State := { hotel with zones := [(1, .released)], places := [(0, { lock with door := .roomDoor 101 1 5 20 })] }
    let odd : State := s { lock with joinStep := .mismatch, reportedKind := some .reader, reportedSerial := some 4 }
    let unmapped : State := { hotel with places := [], rooms := [(0, ⟨101, 1, none, some 0, none⟩)] }
    (moved.Canonical ∧ moved.ReloadsInRange ∧ lockedDoor.kindCode ≠ (moved.place 0).door.kindCode ∧
      (moved.place 0).presence ≠ .absent ∧ (∃ x ∈ moved.segs, x.2.terminal = false ∧ 32 ∈ x.2.requests)) ∧
    ((barred.place 1).door.isMinibar = true ∧ lockedDoor.isMinibar = false) ∧
    (shop.Canonical ∧ (shop.place 0).door.isLocked = true ∧ lockedDoor.zone? ≠ (shop.place 0).door.zone? ∧
      shop.zoneOfDoor (shop.place 0).door = .released ∧ shop.zoneOfDoor lockedDoor ≠ .released) ∧
    (odd.Canonical ∧ (odd.place 0).joinStep = .mismatch ∧ kindMatches (odd.place 0).door .reader = false ∧
      kindMatches (odd.place 0).door .lock = true) ∧
    (unmapped.Canonical ∧ unmapped.findRoom 101 = some (0, ⟨101, 1, none, some 0, none⟩) ∧
      (unmapped.removeRoom 101).rooms = []) ∧
    (hotel.findRoom 103 = none ∧ Tab.lowestFree hotel.rooms 96 = some 1 ∧ hotel.roomPlace 1 101 = some 0) :=
  ⟨⟨canon _ (by decide), by decide⟩, by decide, ⟨canon _ (by decide), by decide⟩, ⟨canon _ (by decide), by decide⟩,
    ⟨canon _ (by decide), by decide⟩, by decide⟩

theorem test_witness_DoorsAreLoaded_no_room (s : State) (p : Nat) (h : s.places = []) : (s.place p).door.room? ≠ some 101 := by
  have : s.place p = Place.reset := by unfold State.place Tab.read; rw [h]; rfl
  rw [this]; decide

theorem test_witness_CredentialsAndStaysAreLoaded_checks :
    let c (card : Nat) (g : Option GuestPart) : Cred := ⟨.active, card, if g.isSome then .guest else .staff, g, 0, none, some (0, 9), false, false⟩
    let x (n r : Nat) : Option StayIn := some ⟨n, r, 0, 0, 0⟩
    let u : State := { hotel with windows := [(0, ⟨true, 101, 4, 0, 1⟩)] }
    (hotel.roomChecks (c 9 (some ⟨101, 5, 0⟩)) = some .staleGeneration ∧ u.roomChecks (c 9 (some ⟨102, 5, 1⟩)) = some .noStay ∧
      u.covered 102 = true ∧ hotel.roomChecks (c 9 none) = none) ∧
    (hotel.credChecks [(5, some ⟨c 9 none, false⟩), (6, some ⟨c 9 none, false⟩)] = some .duplicate ∧
      hotel.credChecks [(5, some ⟨c 7 none, false⟩)] = some .duplicate ∧
      ({ hotel with revocations := [(0, ⟨1, 8, .withdraw, [0], 9⟩)] } : State).credChecks [(1, none)] = some .revoking ∧
      hotel.credChecks [(5, some ⟨c 9 (some ⟨101, 5, 0⟩), false⟩)] = some .staleGeneration) ∧
    (hotel.loadStayChecks [(2, x 5 104)] = some .duplicate ∧ hotel.loadStayChecks [(2, x 9 101)] = some .roomOccupied ∧
      ({ hotel with rooms := (List.range 96).map (fun i => (i, ⟨i + 200, 0, none, none, none⟩)) } : State).loadStayChecks
        [(2, x 9 104)] = some .tableFull) := by decide +kernel

/-- R17, R106, R193: one record of a LOAD that takes a free slot and one that has none; a stay in a room with an entry and in
one without. -/
theorem test_witness_CredentialsAndStaysAreLoaded_effects :
    let c : Cred := ⟨.active, 9, .master, none, 1, none, none, false, false⟩
    let full : Place := { lock with directory := (List.range 10).map (fun i => ⟨i + 6, 99, .held⟩) }
    let s (pl : Place) : State := { hotel with places := [(0, pl)] }
    let empty : State := { hotel with stays := [], rooms := [(0, ⟨101, 1, none, some 0, none⟩)] }
    let es : Entries (Option StayIn) := [(0, some ⟨9, 101, 0, 0, 0⟩), (1, none), (2, some ⟨10, 104, 0, 0, 0⟩)]
    ((s lock).Canonical ∧ (lock.reachable = true ∧ (s lock).inPlan false lock.door c = true ∧ lock.namesIndex 5 = false ∧
      lock.freeSlot false = some 6)) ∧ (full.freeSlot false = none ∧ full.namesIndex 5 = false) ∧
    (empty.loadStayChecks es = none ∧ empty.findRoom 101 = some (0, ⟨101, 1, none, some 0, none⟩) ∧
      empty.findRoom 104 = none ∧ Tab.lowestFree empty.rooms 96 = some 1 ∧ empty.Canonical) ∧
    (es.foldl State.loadStay empty).journal.storable = true ∧
    ([(5, some ⟨c, false⟩)].foldl State.loadCred hotel).journal.storable = true :=
  ⟨⟨canon _ (by decide), by decide⟩, by decide, ⟨by decide, by decide, by decide, by decide, canon _ (by decide)⟩, by decide,
    by decide⟩

theorem test_witness_CardsAreEnrolled_additions :
    let full : Place := { lock with directory := (List.range 6).map (fun i => ⟨i, 99, .held⟩) }
    let s (pl : Place) : State := { hotel with places := [(0, pl)] }
    ((s lock).Canonical ∧ ((s lock).place 0).reachable = true ∧
      (s lock).cred 0 = some ⟨.active, 7, .guest, some ⟨101, 5, 1⟩, 0, none, some (10, 60), false, false⟩ ∧
      (s lock).inPlan true lockedDoor ⟨.active, 7, .guest, some ⟨101, 5, 1⟩, 0, none, some (10, 60), false, false⟩ = true ∧
      ((s lock).place 0).namesIndex 0 = false ∧ lock.freeSlot true = some 0 ∧ lock.freeSlot false = some 6) ∧
    (full.freeSlot true = none ∧ full.namesIndex 0 = false) ∧
    (lock.queueLen < 4 ∧ 4 ≤ ({ lock with waiting := List.replicate 4 ⟨.secure, 0⟩ } : Place).queueLen) :=
  ⟨⟨canon _ (by decide), by decide⟩, by decide, by decide⟩

theorem test_witness_ClockIsSet_deadlines :
    let s : State := { hotel with revocations := [(0, ⟨1, 8, .withdraw, [0], 21⟩), (31, ⟨1, 8, .withdraw, [0], 20⟩)] }
    Tab.look s.revocations 0 = some ⟨1, 8, .withdraw, [0], 21⟩ ∧ 100 < min top24 (100 + (21 - s.clock.m)) ∧
    min top24 (100 + (20 - s.clock.m)) ≤ 100 := by decide

/-- R140, R141, R60: an accepted lid at a MINIBAR, with a window, without, closing a restock session, and as a first one. -/
theorem test_witness_DoorTimerRows_lid :
    let s (pl : Place) : State := { barred with places := [(0, lock), (127, pl)] }
    let up : Cond := ⟨true, false, false⟩
    let down : Cond := ⟨false, false, false⟩
    let a := s { bar with doorState := .unlocked, unlockLeft := 5, window := some ⟨.guest, 7⟩ }
    let c := s { bar with accepted := some up, doorState := .openGranted, session := some ⟨.restock, some 9, [0, 11]⟩ }
    let d := s { bar with accepted := none, doorState := .unknown }
    (a.Canonical ∧ (a.place 127).door.isMinibar = true ∧ (a.place 127).accepted = some down ∧
      ((a.acceptCond 127 up).place 127).session = some ⟨.guest, some 7, []⟩ ∧
      ((a.acceptCond 127 up).place 127).window = none) ∧
    ((s bar).Canonical ∧ ((s bar).place 127).doorState = .secure ∧
      (((s bar).acceptCond 127 up).place 127).session = some ⟨.forced, none, []⟩) ∧
    (c.Canonical ∧ (c.place 127).session = some ⟨.restock, some 9, [0, 11]⟩ ∧ c.journal.storable = true ∧
      ((c.acceptCond 127 down).place 127).session = none ∧
      (c.acceptCond 127 down).journal.ring.map Record.detail = [[2, 0, 12, 0]]) ∧
    (d.Canonical ∧ (d.place 127).accepted = none ∧ (d.place 127).doorState = .unknown ∧
      ((d.acceptCond 127 up).place 127).session = some ⟨.forced, none, []⟩) :=
  ⟨⟨canon _ (by decide), by decide⟩, ⟨canon _ (by decide), by decide⟩, ⟨canon _ (by decide), by decide⟩,
    ⟨canon _ (by decide), by decide⟩⟩

/-- R146: a restock movement at a PENDING compartment, for a stay below the top, past it and held by no entry, and at a
compartment that is not PENDING. -/
theorem test_witness_RemovalsAndCharges_restock :
    let y : Charge := ⟨1, 11, 5, some 7, .guest, 1375, 3⟩
    let s (st : CompState) (total : Nat) : State := { barred with
      places := [(0, lock), (1, { bar with
        comps := List.replicate 12 ⟨1, st, 1⟩, session := some ⟨.restock, some 9, [0]⟩ })]
      stays := [(0, ⟨5, 101, true, 10, none, 60, 100, total, false⟩)], pendingCharges := [y] }
    let gone : State := { s .pending 0 with stays := [] }
    ((s .pending 0).Canonical ∧ ((s .pending 0).place 1).session = some ⟨.restock, some 9, [0]⟩ ∧
      11 < ((s .pending 0).place 1).comps.length ∧ ((s .pending 0).comp 1 11).state = .pending ∧
      (s .pending 0).pendingCharges.filter (State.isCharge 1 11) = [y] ∧ (s .pending 0).journal.storable = true ∧
      ((s .pending 0).compartmentEvent 1 11 false).stays = [(0, ⟨5, 101, true, 10, none, 60, 100, 1375, false⟩)] ∧
      (((s .pending 0).compartmentEvent 1 11 false).comp 1 11).state = .stocked) ∧
    (((s .pending top24).findStay 5).map (fun e => (e.1, e.2.total)) = some (0, top24) ∧ top24 < top24 + y.amount) ∧
    (gone.Canonical ∧ gone.findStay y.stay = none) ∧ ((s .faulty 0).comp 1 11).state ≠ .pending :=
  ⟨⟨canon _ (by decide), by decide +kernel⟩, by decide +kernel, ⟨canon _ (by decide), by decide⟩, by decide⟩

/-- R130: STAY CLOSE of an OPEN stay with charges, past the top, in a room that a door names and in one that none does. -/
theorem test_witness_StaysRun_close :
    let x (c amount : Nat) : Charge := ⟨1, c, 5, none, .guest, amount, 3⟩
    let s (places : List (Nat × Place)) : State := { barred with
      places := places, pendingCharges := [x 0 1375, ⟨1, 1, 6, none, .guest, 7, 3⟩, x 11 16777215] }
    let q := plain (le 2 5 ++ le 2 101)
    let a := s [(0, lock), (1, { bar with comps := List.replicate 12 ⟨1, .pending, 1⟩ })]
    let u := outcome (exec (.stayClose q) a)
    (a.Takes 0x07 q ∧ a.Canonical ∧
      a.findStay 5 = some (0, ⟨5, 101, true, 10, none, 60, 100, 0, false⟩) ∧ (a.comp 1 11).state = .pending ∧
      a.roomNamed 101 = true ∧ (s []).roomNamed 101 = false ∧
      a.findRoom 101 = some (0, ⟨101, 1, some 5, some 0, none⟩)) ∧
    (u.journal.storable = true ∧ u.stays.head? = some (0, ⟨5, 101, false, 10, some 20, 60, 100, 16777215, true⟩) ∧
      u.rooms = [(0, ⟨101, 1, none, some 0, none⟩)] ∧ (outcome (exec (.stayClose q) (s []))).rooms = [] ∧
      (u.journal.ring.getLast?).map Record.kind = some .stayClosed ∧ u.pendingCharges.length = 1) :=
  ⟨⟨takes _ _ _ (by decide), canon _ (by decide), by decide⟩, by decide +kernel⟩

/-- R36 to R38: LOAD ZONES brings zone 0 into RELEASED over an unsent SECURE, and zone 1 out of it over an unsent HOLD_OPEN. -/
theorem test_witness_SettingsAreLoaded_zones :
    let into : Place := { lock with mark := .secureQueued, waiting := [⟨.secure, 0⟩] }
    let out : Place := { lock with door := .roomDoor 102 1 5 20, mark := .holdQueued, waiting := [⟨.holdOpen, 0⟩] }
    let s : State := { hotel with zones := [(1, .released)], places := [(0, into), (127, out)] }
    let q := plain [3, 0, 0, 2, 0, 2, 0]
    let u := outcome (exec (.loadZones q) s)
    (s.Takes 0x01 q ∧ s.Canonical ∧
      readLoad .zones readZone (fun _ f => checkZone f) q.payload = .ok [(0, .released), (1, .normal)]) ∧
    ((s.place 0).door.isLocked = true ∧ (s.place 0).door.zone? = some 0 ∧ s.zone 0 ≠ .released ∧
      (s.place 127).door.zone? = some 1 ∧ s.zone 1 = .released) ∧
    ((u.place 0).mark = .holdQueued ∧ (u.place 127).mark = .secureQueued ∧
      (u.place 0).waiting.map QEntry.cmd = [.holdOpen] ∧ (u.place 127).waiting.map QEntry.cmd = [.secure]) :=
  ⟨⟨takes _ _ _ (by decide), canon _ (by decide), rfl⟩, by decide, by decide +kernel⟩

/-- R105, R73, R62: an echo with the departed command's bit and with the other value, a note settled already, a departed
BACKLOG_NEXT, and a confirmed BACKLOG_NEXT that brings the next. -/
theorem test_witness_Confirmations_echo :
    let r (echo : Bool) (ev : LineEvent) : Response := ⟨1, echo, 8#8, ev⟩
    let s (d : Departed) : State := { hotel with places := [(0, { lock with
      uncertain := true, departed := some d, directory := [⟨0, 0, .adding .doubtful⟩] })] }
    let d : Departed := ⟨.cacheAdd 0 7 0, true, false⟩
    let state (t : State) : List DirState := (t.place 0).directory.map DirEntry.state
    let b : QEntry := ⟨.backlogNext, 0⟩
    let e : Exchange := ⟨1, .normal, true, some b, false⟩
    let c : State := { hotel with places := [(0, { lock with backlog := true, delivery := some b })] }
    ((s d).Canonical ∧ ((s d).place 0).departed = some d ∧
      state ((s d).settleDeparted 0 (r true .none)) = [.held] ∧
      state ((s d).settleDeparted 0 (r false .none)) = [.adding .queued]) ∧
    (({ d with settled := true } : Departed).settled = true ∧ (hotel.place 0).departed = none) ∧
    (((s ⟨.backlogNext, true, false⟩).place 0).departed = some ⟨.backlogNext, true, false⟩ ∧
      (r true .backlogEnd).echo = true ∧ (⟨1, .normal, true, none, true⟩ : Exchange).resync = true) ∧
    (e.carried = some b ∧ (c.place 0).delivery = some b ∧ State.expects b.cmd .backlogEnd = true ∧
      ((c.takeAnswer 0 e (r true .backlogEnd)).place 0).waiting.map QEntry.cmd = [.backlogNext] ∧
      ((c.takeAnswer 0 e (r true .backlogEnd)).place 0).delivery = none) :=
  ⟨⟨canon _ (by decide), by decide +kernel⟩, by decide, by decide, by decide +kernel⟩

/-- R62, R77: a BACKLOG_NEXT that found the queue full waits for the next response, though this one frees a place. -/
theorem test_backlog_next_waits_for_the_next_response :
    let q (n : Nat) : QEntry := ⟨.remoteUnlock 5, n⟩
    let e : Exchange := ⟨1, .normal, true, some (q 0), false⟩
    let s : State := { hotel with places := [(0, { lock with delivery := some (q 0), waiting := [q 1, q 2, q 3] })] }
    let t := s.dropResponse 0 e ⟨1, true, 8#8, .done⟩
    (t.place 0).backlog = true ∧ (t.place 0).waiting.map QEntry.cmd = List.replicate 3 (.remoteUnlock 5) := by decide +kernel

/-- R109, R111: a drop that leaves with no reload of its own under way starts none and resumes none. -/
theorem test_witness_OffersAndEvictions_leave :
    let x : Segment := { inService with line := .testing, served := 32, requests := [1, 5, 9] }
    let idle : State := { hotel with segs := [(0, x)] }
    let other : State := { hotel with segs := [(0, { x with terminal := false, index := 7 })] }
    let own : State := { hotel with segs := [(0, { x with terminal := false, served := 1 })] }
    ((idle.seg (segOf 0)).terminal = true ∧ ((idle.leaveCache 0).seg 0) = { x with requests := [5, 9] }) ∧
    ((other.seg (segOf 0)).served ≠ dropOf 0 ∧
      ((other.leaveCache 0).seg 0) = { x with terminal := false, index := 7, requests := [5, 9] }) ∧
    ((own.leaveCache 0).seg 0).served ≠ 1 := by decide +kernel

/-! ## Witnesses: charges in a list, evaluations step by step, maps, block contents, parts of start-up -/

/-- Charges of two stays at one minibar, listed out of order; the others of its compartments are STOCKED. -/
def owing : State :=
  let comps : List Compartment := (List.replicate 4 ⟨1, .pending, 1⟩ ++ List.replicate 8 ⟨1, .stocked, 0⟩)
  { barred with
    places := [(0, lock), (1, { bar with comps := comps })]
    stays := [(0, ⟨5, 101, true, 10, none, 60, 100, 16777000, false⟩), (1, ⟨6, 102, false, 1, some 9, 9, 100, 30, false⟩)]
    pendingCharges := [⟨1, 2, 5, some 7, .guest, 1375, 0⟩, ⟨1, 3, 9, some 7, .guest, 5, 4⟩, ⟨1, 0, 6, none, .forced, 7, 0⟩,
      ⟨1, 1, 9, none, .guest, 9, 0⟩] }

theorem owing_comp (p c : Nat) : (owing.comp p c).state = .pending → p = 1 ∧ c < 4 := by
  intro h
  by_cases h1 : p = 1
  · refine ⟨h1, ?_⟩
    subst h1
    by_cases h2 : c < 12
    · have all : ∀ d < 12, (owing.comp 1 d).state = .pending → d < 4 := by decide
      exact all c h2 h
    · have l : (owing.place 1).comps.length = 12 := by decide
      rw [State.comp, List.getElem?_eq_none (by omega)] at h
      cases h
  · have e : owing.place p = if 0 = p then lock else Place.reset := by
      have : ¬1 = p := fun e => h1 e.symm
      simp [State.place, Tab.read, Tab.look, owing, this, eq_comm]
      split <;> rfl
    rw [State.comp, e] at h
    split at h <;> cases h

theorem owing_matches : owing.ChargesMatch := by
  refine ⟨by decide, fun p c h => ?_⟩
  obtain ⟨rfl, hc⟩ := owing_comp p c h
  refine ⟨by decide, ?_⟩
  have all : ∀ d < 4, ∃ x ∈ owing.pendingCharges, owing.pendingCharges.filter (State.isCharge 1 d) = [x] := by decide
  obtain ⟨x, -, hx⟩ := all c hc
  exact ⟨x, hx⟩

/-- R147: a list that names PENDING compartments alone, each of them once. -/
theorem test_witness_TablesStayCanonical_charges : owing.Canonical ∧ owing.CompsBounded ∧ owing.ChargesMatch :=
  ⟨canon _ (by decide), by decide, owing_matches⟩

/-- R148: the entry named stands behind two, of which one is at 0; the stay of the first passes the top. -/
theorem test_witness_GraceExpiryCommits_list :
    let x : Charge := ⟨1, 0, 6, none, .forced, 7, 0⟩
    let pre : List Charge := [⟨1, 2, 5, some 7, .guest, 1375, 0⟩, ⟨1, 3, 9, some 7, .guest, 5, 4⟩]
    let post : List Charge := [⟨1, 1, 9, none, .guest, 9, 0⟩]
    let t := outcome (exec (.graceExpiry 1 0) owing)
    (Due.minuteAdvance ∉ owing.due ∧ owing.pendingCharges = pre ++ x :: post ∧ x.place = 1 ∧ x.compartment = 0 ∧
      x.left = 0) ∧ owing.Canonical ∧ owing.ChargesMatch ∧
    (t.pendingCharges = [⟨1, 3, 9, some 7, .guest, 5, 4⟩, ⟨1, 1, 9, none, .guest, 9, 0⟩] ∧
      t.stays.map (fun e => e.2.total) = [16777215, 37] ∧ (t.fault .folioSaturated).set = true ∧
      t.journal.storable = true ∧ t.journal.ring.map (fun r => (r.kind, r.card)) =
        [(.minibarCharge, some 7), (.minibarCharge, none)] ∧
      ((t.comp 1 2).state, (t.comp 1 0).state, (t.comp 1 1).state) = (.empty, .empty, .pending)) :=
  ⟨by decide, canon _ (by decide), owing_matches, by decide +kernel⟩

/-- R95, R96: a DEGRADED segment before its fourth clean window, with a lock and a minibar that wait and a request. -/
theorem test_witness_ErrorWindowIsJudged_recovery :
    let waiting (pl : Place) : Place := { pl with presence := .joining, joinStep := .waiting }
    let s (l : LineState) : State := { barred with
      places := [(0, waiting lock), (1, waiting bar)]
      segs := [(0, { inService with line := l, cleanWindows := 3, requests := [1] })] }
    let t := outcome (exec (.errorWindowClose 0) (s .degraded))
    let stuck : State := { s .inService with
      places := [(0, { lock with waiting := List.replicate 4 ⟨.secure, 0⟩ })] }
    (Due.minuteAdvance ∉ (s .degraded).due ∧ ((s .degraded).seg 0).line = .degraded ∧
      ((s .degraded).seg 0).badCount < (s .degraded).policy.e ∧ 3 ≤ ((s .degraded).seg 0).cleanWindows) ∧
    (s .degraded).Canonical ∧ (s .inService).Canonical ∧
    (((s .inService).seg (segOf 1)).line ≠ .degraded ∧ ((s .inService).place 1).door.isMinibar = true ∧
      ((s .inService).place 0).door.isMinibar = false ∧ (s .inService).journal.storable = true) ∧
    ((t.seg 0).line = .inService ∧ (t.place 0).joinStep = .flush ∧ (t.place 1).presence = .present ∧
      (t.seg 0).terminal = true ∧ (t.seg 0).requests = []) ∧
    ((stuck.runEngine 0).seg 0).waits = true :=
  ⟨by decide, canon _ (by decide), canon _ (by decide), by decide, by decide +kernel, by decide +kernel⟩

/-- R80, R81: each reason for which no probe and no priority poll is made. -/
theorem test_witness_OtherPolls_none :
    let due := onLine { lock with waiting := [⟨.secure, 0⟩] } { inService with prioDue := true, roundOpen := true, roundPos := 32 }
    let calm := onLine lock { inService with prioDue := true, roundOpen := true }
    let all : State := { ready with
      places := (List.range 32).map (fun i => (i, lock)), segs := [(0, { inService with roundOpen := true, roundPos := 32 })] }
    (due.due = [] ∧ due.priorityDue 0 = true ∧ due.isUrgent 0 1 = true) ∧
    ((calm.seg 0).roundPos < 1 ∧ calm.isMember 0 1 = true ∧ calm.isCandidate 0 2 = true ∧ (calm.seg 0).prioDue = true ∧
      (∀ b ∈ List.range' 1 32, calm.isUrgent 0 b = false) ∧ calm.priorityDue 0 = false) ∧
    ((hotel.seg 0).roundOpen = false ∧ (hotel.seg 0).prioDue = false) ∧
    (∀ b ∈ List.range' 1 32, all.isCandidate 0 b = false) ∧
    (hotel.seg 0).line ≠ .testing ∧ ((polled lock inService ⟨0, .test, false, none, false⟩).seg 0).exchange ≠ none :=
  ⟨by decide, by decide +kernel, by decide, by decide +kernel, by decide, by decide⟩

/-- R73, R77, R104: an evicted command in delivery, one that waits, one returned, and the two classes of R102. -/
theorem test_witness_OffersAndEvictions_sources :
    let add : QEntry := ⟨.cacheAdd 0 7 0, 5⟩
    let bolt (n : Nat) : QEntry := ⟨.remoteUnlock 5, n⟩
    let q (d : Option QEntry) (w : List QEntry) (st : CmdStatus) : Place :=
      { lock with delivery := d, waiting := w, directory := [⟨0, 0, .adding st⟩] }
    let a := q (some add) [bolt 0, bolt 1, bolt 2] .carried
    let b := q none [bolt 0, bolt 1, bolt 2, add] .queued
    let guest : Cred := ⟨.active, 7, .guest, some ⟨101, 5, 1⟩, 0, none, some (10, 60), false, false⟩
    let master : Cred := ⟨.active, 9, .master, none, 1, none, none, false, false⟩
    (4 ≤ a.queueLen ∧ a.delivery = some add ∧ LineCmd.secure.cls < add.cmd.cls ∧
      (a.offer .secure).directory.map DirEntry.state = [.adding .doubtful] ∧ (a.offer .secure).uncertain = true ∧
      (a.offer .secure).departed = some ⟨add.cmd, false, false⟩) ∧
    (4 ≤ b.queueLen ∧ b.delivery ≠ some add ∧ (b.offer .secure).directory.map DirEntry.state = [.adding .owed] ∧
      (b.offer .secure).uncertain = false) ∧
    ((q none (List.replicate 4 (bolt 0)) .owed).offer add.cmd).queue = List.replicate 4 (bolt 0) ∧
    (hotel.inPlan true lockedDoor guest = true ∧ hotel.inPlan false lockedDoor guest = false ∧
      hotel.inPlan false lockedDoor master = true ∧ hotel.inPlan false lockedDoor { master with zones := 2 } = false ∧
      ({ hotel with rooms := [(0, ⟨101, 2, some 5, some 0, none⟩)] } : State).inPlan true lockedDoor guest = false) := by
  decide

/-- R92: a missed exchange before the 32nd, a bad one, the last one missed, and the ends of the attempts. -/
theorem test_witness_TerminatorExchanges_missed :
    let t : Exchange := ⟨0, .test, false, none, false⟩
    let s (x : TestProgress) := polled lock { inService with line := .testing, test := some x } t
    let a := s ⟨4, 7, 0, .none, false⟩
    let z (n : Nat) := s ⟨4, 8, n, .terminated, false⟩
    (a.due = [] ∧ (a.seg 0).exchange = some t ∧ (a.seg 0).test = some ⟨4, 7, 0, .none, false⟩ ∧
      (a.seg 0).line = .testing ∧ validResponse t [0] = none) ∧ a.Canonical ∧
    ((outcome (exec (.responseWindowClose 0) a)).seg 0).test = some ⟨4, 8, 0, .none, true⟩ ∧
    (((z 2).seg 0).test = some ⟨4, 8, 2, .terminated, false⟩ ∧ (z 2).journal.storable = true) ∧ (z 2).Canonical ∧
    ((outcome (exec (.responseWindowClose 0) (z 2))).seg 0).line = .degraded ∧
    ((outcome (exec (.responseWindowClose 0) (z 3))).seg 0).retest = 60 ∧
    (outcome (exec (.responseReceived 0 [0]) (z 3))) = outcome (exec (.responseWindowClose 0) (z 3)) :=
  ⟨by decide, canon _ (by decide), by decide, by decide, canon _ (by decide), by decide +kernel, by decide +kernel,
    by decide +kernel⟩

/-- R45, R49, R50: a presentation over one unsent and over one sent, a sent VERDICT of the same tag, one that ends its
credential, and a queue without a class-1 place. -/
theorem test_witness_PresentationIsAnswered_abandon :
    let pr (sent : Bool) : Presentation := ⟨3, 7, none, .deny .time, false, true, sent⟩
    let v (n : Nat) : QEntry := ⟨.verdict 3 .denyTime, n⟩
    let s (pl : Place) : State := { hotel with places := [(0, pl)] }
    let a := s { lock with presentation := some (pr false), waiting := [v 0] }
    let owed := s { lock with
      presentation := some (pr false), mark := .holdOwed, waiting := [v 0, ⟨.secure, 1⟩, ⟨.cacheAdd 6 9 2, 2⟩, ⟨.identify, 3⟩] }
    let b := s { lock with presentation := some (pr true), delivery := some (v 0) }
    let full := s { lock with waiting := List.replicate 4 ⟨.secure, 0⟩ }
    let late : State := { hotel with clock := ⟨60, 0, 0, .running⟩, policy := { Policy.default with g := 0 } }
    let kinds (t : State) : List (RecKind × Bool) := t.journal.ring.map (fun r => (r.kind, r.marks.undelivered))
    (a.Canonical ∧ (a.place 0).presentation = some (pr false) ∧ (pr false).sent = false ∧ v 0 ∈ (a.place 0).queue ∧
      State.isVerdict 3 (v 0).cmd = true ∧ ((a.abandon 0).place 0).waiting = [] ∧ kinds (a.abandon 0) = [(.doorDeny, true)]) ∧
    (owed.Canonical ∧ owed.QueuesBounded ∧ (owed.place 0).presentation = some (pr false) ∧ v 0 ∈ (owed.place 0).queue ∧
      ((owed.abandon 0).place 0).waiting.map (fun x => x.cmd) = [.secure, .holdOpen, .cacheAdd 6 9 2, .identify]) ∧
    (b.Canonical ∧ (b.place 0).presentation = some (pr true) ∧ (pr true).sent = true ∧ (b.place 0).delivery = some (v 0) ∧
      ((b.present 0 7 3).place 0).departed = some ⟨(v 0).cmd, false, false⟩ ∧ ((b.present 0 7 3).place 0).uncertain = true ∧
      ((b.present 0 7 4).place 0).delivery = some (v 0)) ∧
    (full.Canonical ∧ 4 ≤ (full.place 0).class1 ∧ kinds (full.present 0 7 3) = [(.doorGrant, true)] ∧
      ((full.present 0 7 3).place 0).presentation = none) ∧
    ((late.evaluate 0 7 true).ends = some .expiry ∧ (late.evaluate 0 7 true).found.isSome = true ∧
      ((late.present 0 7 3).cred 0).map Cred.state = some .expired) ∧
    (DenyReason.reach ≠ .time ∧ (pr true).untimed = true ∧ hotel.journal.storable = true) :=
  ⟨⟨canon _ (by decide), by decide⟩, ⟨canon _ (by decide), by decide⟩, ⟨canon _ (by decide), by decide +kernel⟩, ⟨canon _ (by decide), by decide +kernel⟩,
    by decide +kernel, by decide⟩

/-- R47 to R49, R34: each step's verdict, from a card and a door that pass the steps before it. -/
theorem test_witness_GrantsArePermitted_steps :
    let card (k : CredKind) : Cred := ⟨.active, 7, k, none, 1, none, none, false, false⟩
    let guest : Cred := ⟨.active, 7, .guest, some ⟨101, 5, 1⟩, 0, none, some (10, 60), false, false⟩
    let s (c : Cred) (pl : Place) : State := { hotel with creds := [(0, c)], places := [(0, pl)] }
    let verdict (t : State) : Verdict × Option Cause := ((t.evaluate 0 7 true).verdict, (t.evaluate 0 7 true).ends)
    let zoned (z : ZoneState) (c : Cred) : State := { s c lock with zones := [(0, z)] }
    let at_ (m : Nat) (st : ClockState) : State := { s guest lock with clock := ⟨m, 100, 0, st⟩ }
    let bolted : Place := { lock with accepted := some ⟨false, true, false⟩ }
    let full (c : Cred) : State := { s c lock with
      journal := { State.reset.journal with next := 2048 }
      policy := { Policy.default with strictAudit := true } }
    let inn (x : Stay) : State := { s guest bar with stays := [(0, x)] }
    ([verdict (s guest Place.reset), verdict (zoned .released { card .staff with state := .revoked }),
      verdict (s { card .staff with card := 8 } lock), verdict (s { card .staff with state := .expired } lock),
      verdict (zoned .closed (card .emergency)), verdict (zoned .closed (card .staff)), verdict (zoned .closed (card .master)),
      verdict (s { card .staff with zones := 2 } lock), verdict (s (card .staff) bar), verdict (s (card .master) bar),
      verdict ({ s guest lock with rooms := [(0, ⟨101, 2, some 5, some 0, none⟩)] })] =
      [(.deny .unmapped, none), (.grant, none), (.deny .unknown, none), (.deny .expired, none), (.grant, none),
        (.deny .closed, none), (.grant, none), (.deny .reach, none), (.deny .reach, none), (.deny .reach, none),
        (.deny .superseded, some .supersede)]) ∧
    [verdict (at_ 9 .running), verdict (at_ 9 .unset), verdict (at_ 16777215 .running),
      verdict (s { card .staff with schedule := some 0 } lock), verdict (s guest bolted), verdict (s (card .master) bolted),
      verdict (s { card .master with boltOverride := true } bolted),
      verdict (inn ⟨4, 101, true, 10, none, 60, 100, 0, false⟩), verdict (inn ⟨5, 101, true, 10, none, 60, 100, 100, false⟩),
      verdict (inn ⟨5, 101, true, 10, none, 60, 100, 99, false⟩)] =
      [(.deny .time, none), (.grant, none), (.deny .expired, some .expiry), (.deny .time, none), (.deny .privacy, none),
        (.deny .privacy, none), (.grant, none), (.deny .stay, none), (.deny .cap, none), (.grant, none)] ∧
    ((at_ 9 .unset).evaluate 0 7 true).untimed = true ∧ ((at_ 9 .unset).evaluate 0 7 false).untimed = false ∧
    [verdict (full (card .staff)), verdict (full guest)] = [(.deny .audit, none), (.grant, none)] := by decide +kernel

/-- R176, R178: two windows that take in one room, a run that drop 32 cuts off, and a door record of another room. -/
theorem test_witness_FramesAreClassified_map :
    let s : State := { windowed with
      places := [(0, lock), (1, { lock with door := .roomDoor 300 0 5 20 })]
      windows := [(0, ⟨true, 101, 4, 0, 1⟩), (1, ⟨true, 102, 4, 3, 1⟩), (2, ⟨true, 200, 5, 3, 31⟩)] }
    s.Canonical ∧ [s.translate 101, s.translate 102, s.translate 105, s.translate 201, s.translate 202] =
      [some (0, 0), some (0, 1), some (1, 99), some (2, 127), none] ∧
    (s.mapConflict (.room 101) = none ∧ s.mapConflict (.room 102) = some (0, 300) ∧ s.mapConflict (.room 103) = none ∧
      s.covered 202 = false) := ⟨canon _ (by decide), by decide +kernel⟩

/-- 11.7: what a block's copy holds, and the dirty set behind an acknowledged reservation copy. -/
theorem test_witness_StoreWrites_contents :
    let x : Charge := ⟨127, 11, 65535, some 7, .forced, 98303, 9⟩
    let s : State := { hotel with pendingCharges := [x, x], zones := [(15, .released)] }
    let w (limit next : Nat) : State := { ready with
      writer := .writing 1 [] false, dirty := [1, 82]
      journal := { State.reset.journal with next := next, limit := 0, pendingLimit := some limit } }
    (s.pendingCharges.length ≤ 64 ∧ s.pendingCharges[1]? = some x ∧
      ((s.blockBytes 18).drop 15).take 14 = padTo 14 (chargeBytes x) ∧ ((s.blockBytes 3).drop 15).take 1 = [2]) ∧
    ((s.blockBytes 0).take 6 = le 6 256 ∧ (({ s with journal := { s.journal with pendingLimit := some 512 } } : State).blockBytes
      1).take 6 = le 6 512) ∧
    ((w 512 0).due = [] ∧ (w 512 0).writer = .writing 1 [] false ∧ (w 512 0).journal.pendingLimit = some 512) ∧
    ((outcome (exec (.storeWriteComplete true none) (w 512 0))).dirty = [82] ∧
      (outcome (exec (.storeWriteComplete true none) (w 512 0))).journal.pendingLimit = none) ∧
    ((outcome (exec (.storeWriteComplete true none) (w 512 500))).journal.pendingLimit = some 768 ∧
      (outcome (exec (.storeWriteComplete true none) (w 512 500))).dirty = [0, 82]) := by decide +kernel

/-- R186, R187: a DOOR OPEN by drop and by room with a payload of the wrong length. -/
theorem test_witness_RequestsAreAnswered_lengths :
    (hotel.Takes 0x09 (plain [9]) ∧ (plain [9]).form = .unit ∧ readPayload [(1, 1), (2, 1)] [9] = .error 2 ∧
      readPayload [(1, 1), (2, 1)] [3, 32, 0] = .error 3) ∧
    (hotel.Takes 0x09 (roomy 101 [0]) ∧ (roomy 101 [0]).form = .room 101 ∧ (roomy 101 [0]).payload ≠ []) ∧
    (1 ≤ (0x12#8).toNat ∧ (0x12#8).toNat ≤ 0x12) :=
  ⟨⟨takes _ _ _ (by decide), by decide⟩, ⟨takes _ _ _ (by decide), by decide⟩, by decide⟩

/-- R19, R134, R136: a MINIBAR with charges becomes a lock, and is given to another room; rooms for 96 and for 97. -/
theorem test_witness_DoorsAreLoaded_charges :
    let made (d : DoorRec) : State := owing.setPlace 1 { owing.place 1 with door := d }
    let old : DoorRec := .minibar 101 0 5
    let t := (made (.minibar 102 0 5)).doorReplaced 1 old
    let rooms : State := { hotel with
      rooms := (List.range 96).map (fun i => (i, ⟨i + 101, 0, none, none, none⟩)), places := [(0, lock)] }
    ((made lockedDoor).Canonical ∧ old.isMinibar = true ∧ ((made lockedDoor).place 1).door.isMinibar = false) ∧
    ((made (.minibar 102 0 5)).Canonical ∧ t.pendingCharges = [] ∧ t.stays.map (fun e => e.2.total) = [16777215, 37] ∧
      t.journal.storable = true ∧ (t.journal.ring.take 4).map (fun r => (r.kind, r.marks.noGrace)) =
        [(.minibarCharge, true), (.minibarUnbilled, false), (.minibarCharge, true), (.minibarUnbilled, false)] ∧
      (List.range 5).map (fun c => (t.comp 1 c).state) = [.empty, .empty, .empty, .empty, .stocked]) ∧
    (rooms.Canonical ∧ rooms.rooms.length ≤ 96 ∧ ([0, 1] : List Nat).Nodup) ∧
    (rooms.doorsTooMany [(0, .roomDoor 300 0 5 20)] = false ∧
      rooms.doorsTooMany [(0, .roomDoor 300 0 5 20), (1, .roomDoor 301 0 5 20)] = true ∧
      rooms.doorsTooMany [(0, .roomDoor 300 0 5 20), (1, lockedDoor)] = true) :=
  ⟨⟨canon _ (by decide), by decide⟩, ⟨canon _ (by decide), by decide +kernel⟩, ⟨canon _ (by decide), by decide⟩,
    by decide +kernel⟩

/-- R127: the lowest unused entry; with none, the CLOSED stay closed first, and of two the lower; with none, none. -/
theorem test_witness_StaysRun_entries :
    let full (closed : Nat → Option Nat) : State := { hotel with
      stays := (List.range 256).map (fun i => (i, ⟨i + 1, 101, (closed i).isNone, 1, closed i, 9, 9, 0, false⟩)) }
    hotel.Canonical ∧ hotel.freeStay = some 2 ∧
    ((full (fun i => if i = 7 ∨ i = 255 then some 3 else if i = 2 then some 4 else none)).freeStay = some 7 ∧
      (full (fun _ => none)).freeStay = none) := ⟨hotel_canonical, by decide, by decide +kernel⟩

/-- R208: two charges, of which one finds its stay, and a PENDING compartment without one. -/
theorem test_witness_StartUpEnds_charges :
    let x (c stay : Nat) : Charge := ⟨1, c, stay, none, .guest, 9, 0⟩
    let s : State := { owing with pendingCharges := [x 2 5, x 0 9] }
    let t := s.fixPending
    (s.Canonical ∧ (s.comp 1 2).state = .pending ∧ (s.comp 1 3).state = .pending ∧ t.journal.storable = true) ∧
    (t.journal.ring.map (fun r => (r.kind, r.detail.take 2)) =
      [(.restoreFix, [6, 2]), (.minibarCharge, [2, 9]), (.restoreFix, [6, 0]), (.minibarUnbilled, [0, 9]),
        (.restoreFix, [7, 1]), (.restoreFix, [7, 3])] ∧
      t.stays.map (fun e => e.2.total) = [16777009, 30] ∧
      (List.range 5).map (fun c => (t.comp 1 c).state) = [.empty, .empty, .empty, .empty, .stocked]) :=
  ⟨⟨canon _ (by decide), by decide +kernel⟩, by decide +kernel⟩

/-- R23, R208: what each part of the reconciliation finds: a card twice, a field without its stay, a stay without its room's
field or entry, a room that nothing names and one without an entry. -/
theorem test_witness_StartUpEnds_parts :
    let x (n r : Nat) : Stay := ⟨n, r, true, 10, none, 60, 100, 0, false⟩
    let full : State := { torn with rooms := (List.range 96).map (fun i => (i, ⟨i + 200, 0, none, none, none⟩)) }
    let gone : State := { torn with places := [] }
    (torn.Canonical ∧ torn.keeper 7 = some 3 ∧ torn.journal.storable = starting.journal.storable) ∧
    (torn.roomOccupied 102 = false ∧ torn.findRoom 102 = some (1, ⟨102, 0, none, none, none⟩) ∧
      torn.findRoom 104 = none ∧ Tab.lowestFree torn.rooms 96 = some 2 ∧
      (torn.giveField (5, x 8 104)).findRoom 104 = some (2, ⟨104, 0, some 8, none, none⟩)) ∧
    (full.findRoom 104 = none ∧ Tab.lowestFree full.rooms 96 = none ∧ full.roomOccupied 104 = false) ∧
    (∀ e ∈ torn.stays, ¬(e.2.isOpen = true ∧ e.2.number = 9 ∧ e.2.room = 101)) ∧
    ((torn.place 0).door.room? = some 101 ∧ (torn.place 127).door.room? = some 103 ∧ torn.findRoom 103 = none ∧
      (torn.place 5).door.room? = none ∧ (gone.removeUnnamed (1, ⟨102, 0, none, none, none⟩)).findRoom 102 = none) ∧
    ({ torn with journal := { State.reset.journal with limit := 256 } } : State).journal.storable = true := by
  refine ⟨⟨canon _ (by decide), by decide, by decide⟩, by decide, by decide +kernel, by decide, by decide, by decide⟩

/-- R197: every queue of the trunk is full of something, and a fault kind is SET. -/
theorem test_witness_RestartKeepsTheTables_queues :
    let s : State := { hotel with trunk := { State.reset.trunk with
      classifier := [someFrame 9 0], downlink := [someFrame 9 0], passThrough := [someFrame 9 0], upHeld := true
      completions := List.replicate 8 ⟨7, 0x10, .done, [], []⟩, waitingCompletions := [⟨7, 0x10, .done, [], []⟩]
      notices := [⟨.tamper, .note, [], 0, 0⟩], downTx := some (someFrame 9 0), lastServed := .passThrough } }
    let t := outcome (exec (.restart (plain [])) s)
    s.Takes 0x12 (plain []) ∧ s.Canonical ∧ s.ReloadsInRange ∧
    (t.trunk.classifier = [] ∧ t.trunk.notices.map (fun n => n.kind) ≠ [.tamper] ∧ t.trunk.upHeld = true ∧
      t.trunk.completions = [⟨7, 0x12, .done, [], []⟩]) :=
  ⟨takes _ _ _ (by decide), canon _ (by decide), by decide, by decide +kernel⟩

end Sys2Proof.Tests
end

