-- ==== Sys2Proof/Proofs/Refuted.lean ====
section
/-! Two statements that fail, each at a state whose join procedure is owed a command other than IDENTIFY or a join flush:
`Canonical` admits such a state, and R77 offers whatever is owed. -/

set_option Elab.async false

namespace Sys2Proof.Proofs

open Sys2Proof.Machine

/-- A place written as other than at reset is read back, whatever the table. -/
theorem place_setPlace_self (s : State) (p : Nat) {pl : Place} (h : pl ≠ Place.reset) : (s.setPlace p pl).place p = pl := by
  simp [State.place, Tab.read, Tab.put, h, Tab.look_write_self]

theorem handOver_place (s : State) (d : Draft) (p : Nat) : (s.handOver d).place p = s.place p := by
  rw [State.place, (handOver_ch d s).places_eq, State.place]

/-- Place 0 holds an unsent presentation of tag 5 with its VERDICT and an IDENTIFY waiting, and its join procedure is owed
a VERDICT of the same tag: nothing in `Canonical` says that only IDENTIFY and join flushes are owed there. -/
def owedVerdict : State := { State.reset with places := [(0, { Place.reset with
  presentation := some ⟨5, 7, none, .deny .unmapped, false, false, false⟩
  waiting := [⟨.verdict 5 .denyRefused, 0⟩, ⟨.identify, 1⟩]
  joinOwed := [.verdict 5 .denyRefused] })] }

theorem owedVerdict_canonical : owedVerdict.Canonical := by
  constructor <;> decide

/-- Refutes O37: the VERDICT that `abandon` withdraws frees a place, and the join procedure's owed VERDICT of the same tag
enters there, so that one waits on. -/
theorem not_presentationIsAnswered : ¬ Obligations.PresentationIsAnswered := by
  intro h
  obtain ⟨-, -, habandon, -⟩ := h
  obtain ⟨-, -, hunsent, -⟩ := habandon owedVerdict 0 owedVerdict_canonical
  obtain ⟨u, hu, -, -, hwaits, hkept⟩ := hunsent ⟨5, 7, none, .deny .unmapped, false, false, false⟩ rfl rfl
  have hmem : (⟨.identify, 1⟩ : QEntry) ∈ (u.place 0).queue :=
    hkept (by decide) _ (by decide) (.inl (by decide))
  have hne : ({ u.place 0 with presentation := none } : Place) ≠ Place.reset := by
    intro he
    have : (u.place 0).queue = [] := congrArg Place.queue he
    rw [this] at hmem
    cases hmem
  have hplace := congrArg (fun t : State => (t.place 0).waits (State.isVerdict 5)) hu
  simp only [handOver_place, place_setPlace_self _ _ hne] at hplace
  have hfalse : (owedVerdict.abandon 0).place 0 |>.waits (State.isVerdict 5) := by decide +kernel
  exact absurd (hplace.symm.trans hfalse) (by simpa [Place.waits] using hwaits)

/-- A lock in zone 1, which is RELEASED, with a SECURE queued; its join procedure is owed another SECURE. -/
def owedSecure : State := { State.reset with
  zones := [(1, .released)]
  places := [(0, { Place.reset with
    door := .roomDoor 101 1 5 45, mark := .secureQueued
    waiting := [⟨.secure, 0⟩], joinOwed := [.secure] })] }

theorem owedSecure_canonical : owedSecure.Canonical := by
  constructor <;> decide

/-- Refutes O47: a lock moved from zone 0 into the RELEASED zone 1 withdraws its SECURE; the freed place is offered, the
join procedure's owed SECURE enters, and the zone mark is SECURE_QUEUED. -/
theorem not_doorsAreLoaded : ¬ Obligations.DoorsAreLoaded := by
  intro h
  obtain ⟨-, -, -, -, -, -, hrezoned, -⟩ := h
  obtain ⟨-, -, -, hmark, -⟩ := hrezoned owedSecure 0 (.roomDoor 101 0 5 45) owedSecure_canonical
  have hqueued : ((owedSecure.doorRezoned 0 (.roomDoor 101 0 5 45) (owedSecure.place 0).door).place 0).mark
      = .secureQueued := by decide +kernel
  rcases hmark (by decide) (by decide) with hm | hm <;> rw [hqueued] at hm <;> cases hm

end Sys2Proof.Proofs
end

