-- ==== Sys2Proof/Proofs/Tables.lean ====
section
/-! Tables in canonical form: what membership, search, the listed indices and the lowest free index say in terms of the
entry at an index. -/

set_option Elab.async false

namespace Sys2Proof.Machine

variable {α : Type}

theorem Tab.mem_iff_look {t : Tab α} (h : Tab.Rising t) (k : Nat) (v : α) : (k, v) ∈ t ↔ Tab.look t k = some v :=
  ⟨Tab.mem_look h, Tab.look_mem⟩

theorem Tab.look_isSome_iff {t : Tab α} {k : Nat} : (Tab.look t k).isSome = true ↔ k ∈ Tab.keys t := by
  induction t with
  | nil => simp [Tab.look, Tab.keys]
  | cons e t ih =>
    obtain ⟨i, w⟩ := e
    by_cases h : i = k
    · simp [Tab.look, Tab.keys, h]
    · simp only [Tab.look, h, if_false, ih, Tab.keys, List.map_cons, List.mem_cons]
      simp [Ne.symm h]

theorem Tab.look_none_iff {t : Tab α} {k : Nat} : Tab.look t k = none ↔ k ∉ Tab.keys t := by
  rw [← Tab.look_isSome_iff]; cases Tab.look t k <;> simp

/-- An index that a table does not list reads as the default. -/
theorem Tab.read_of_not_key {d : α} {t : Tab α} {k : Nat} (h : k ∉ Tab.keys t) : Tab.read d t k = d := by
  simp [Tab.read, Tab.look_none_iff.mpr h]

theorem Tab.mem_keys_of_read [DecidableEq α] {d : α} {t : Tab α} {k : Nat} (h : Tab.read d t k ≠ d) : k ∈ Tab.keys t := by
  by_contra hk
  exact h (Tab.read_of_not_key hk)

theorem Tab.keys_nodup {t : Tab α} (h : Tab.Rising t) : (Tab.keys t).Nodup :=
  List.Pairwise.imp (fun h => Nat.ne_of_lt h) h

/-- Writing where nothing is written between changes nothing else: the later write stays. -/
theorem Tab.write_write (t : Tab α) (k : Nat) (v w : α) : Tab.write (Tab.write t k v) k w = Tab.write t k w := by
  induction t with
  | nil => simp [Tab.write]
  | cons e t ih =>
    obtain ⟨i, x⟩ := e
    simp only [Tab.write]
    split
    · simp [Tab.write]
    · split
      · simp [Tab.write]
      · rename_i h1 h2; simp [Tab.write, h1, h2, ih]

/-- Writing at a listed index keeps the list of indices. -/
theorem Tab.keys_write {t : Tab α} {k : Nat} (h : Tab.Rising t) (hk : k ∈ Tab.keys t) (v : α) :
    Tab.keys (Tab.write t k v) = Tab.keys t := by
  induction t with
  | nil => simp [Tab.keys] at hk
  | cons e t ih =>
    obtain ⟨i, w⟩ := e
    obtain ⟨h1, h2⟩ := Tab.rising_cons.mp h
    simp only [Tab.keys, List.map_cons, List.mem_cons] at hk
    rcases hk with rfl | hk
    · simp [Tab.write, Tab.keys]
    · obtain ⟨e, he, rfl⟩ := List.mem_map.mp hk
      have hlt := h1 e he
      have ih := ih h2 (List.mem_map_of_mem he)
      simp only [Tab.keys] at ih
      simp [Tab.write, Tab.keys, Nat.lt_asymm hlt, Nat.ne_of_lt hlt, ih]

theorem Tab.length_write_of_key {t : Tab α} {k : Nat} (h : Tab.Rising t) (hk : k ∈ Tab.keys t) (v : α) :
    (Tab.write t k v).length = t.length := by
  simpa [Tab.keys] using congrArg List.length (Tab.keys_write h hk v)

theorem Tab.length_write_of_not_key {t : Tab α} {k : Nat} (hk : k ∉ Tab.keys t) (v : α) :
    (Tab.write t k v).length = t.length + 1 := by
  induction t with
  | nil => simp [Tab.write]
  | cons e t ih =>
    obtain ⟨i, w⟩ := e
    simp only [Tab.keys, List.map_cons, List.mem_cons, not_or] at hk
    simp only [Tab.write]
    split
    · simp
    · simp [Ne.symm hk.1, ih hk.2]

/-- A search finds the entry at the lowest index that qualifies. -/
theorem Tab.find?_entry_iff {t : Tab α} (h : Tab.Rising t) (f : Nat × α → Bool) (i : Nat) (x : α) :
    t.find? f = some (i, x) ↔
      Tab.look t i = some x ∧ f (i, x) = true ∧ ∀ j y, j < i → Tab.look t j = some y → f (j, y) = false := by
  induction t with
  | nil => simp [Tab.look]
  | cons e t ih =>
    obtain ⟨k, w⟩ := e
    obtain ⟨h1, h2⟩ := Tab.rising_cons.mp h
    have hlt : ∀ {j y}, Tab.look t j = some y → k < j := fun hj => h1 _ (Tab.look_mem hj)
    by_cases hw : f (k, w) = true
    · simp only [List.find?_cons, hw, Option.some.injEq, Prod.mk.injEq]
      constructor
      · rintro ⟨rfl, rfl⟩
        refine ⟨by simp [Tab.look], hw, fun j y hj hy => ?_⟩
        simp only [Tab.look, Nat.ne_of_gt hj, if_false] at hy
        exact absurd (hlt hy) (by omega)
      · rintro ⟨hx, -, hmin⟩
        by_cases hk : k = i
        · subst hk; simpa [Tab.look] using hx
        · simp only [Tab.look, hk, if_false] at hx
          have := hmin k w (hlt hx) (by simp [Tab.look])
          simp [hw] at this
    · simp only [Bool.not_eq_true] at hw
      simp only [List.find?_cons, hw, ih h2]
      constructor
      · rintro ⟨hx, hf, hmin⟩
        refine ⟨by simp [Tab.look, Nat.ne_of_lt (hlt hx), hx], hf, fun j y hj hy => ?_⟩
        by_cases hk : k = j
        · subst hk; simp only [Tab.look, if_true, Option.some.injEq] at hy; exact hy ▸ hw
        · simp only [Tab.look, hk, if_false] at hy; exact hmin j y hj hy
      · rintro ⟨hx, hf, hmin⟩
        have hk : k ≠ i := by rintro rfl; simp only [Tab.look, if_true, Option.some.injEq] at hx; subst hx; simp [hw] at hf
        refine ⟨by simpa [Tab.look, hk] using hx, hf, fun j y hj hy => hmin j y hj ?_⟩
        simp [Tab.look, Nat.ne_of_lt (hlt hy), hy]

/-- A search by contents finds the entry at the lowest index whose contents qualify. -/
theorem Tab.find?_iff {t : Tab α} (h : Tab.Rising t) (f : α → Bool) (i : Nat) (x : α) :
    t.find? (fun e => f e.2) = some (i, x) ↔
      Tab.look t i = some x ∧ f x = true ∧ ∀ j y, j < i → Tab.look t j = some y → f y = false :=
  Tab.find?_entry_iff h (fun e => f e.2) i x

/-- A search finds nothing exactly where no entry qualifies. -/
theorem Tab.find?_entry_none_iff {t : Tab α} (h : Tab.Rising t) (f : Nat × α → Bool) :
    t.find? f = none ↔ ∀ i x, Tab.look t i = some x → f (i, x) = false := by
  rw [List.find?_eq_none]
  constructor
  · intro hn i x hx
    simpa using hn _ (Tab.look_mem hx)
  · intro hn e he
    simpa using hn e.1 e.2 (Tab.mem_look h he)

theorem Tab.find?_none_iff {t : Tab α} (h : Tab.Rising t) (f : α → Bool) :
    t.find? (fun e => f e.2) = none ↔ ∀ i x, Tab.look t i = some x → f x = false :=
  Tab.find?_entry_none_iff h (fun e => f e.2)

/-- The search by contents with only the index read. -/
theorem Tab.any_iff {t : Tab α} (h : Tab.Rising t) (f : Nat × α → Bool) :
    t.any f = true ↔ ∃ i x, Tab.look t i = some x ∧ f (i, x) = true := by
  rw [List.any_eq_true]
  constructor
  · rintro ⟨e, he, hf⟩; exact ⟨e.1, e.2, Tab.mem_look h he, hf⟩
  · rintro ⟨i, x, hx, hf⟩; exact ⟨(i, x), Tab.look_mem hx, hf⟩

/-- The lowest free index, from what stands at and below it. -/
theorem Tab.lowestFree_iff {t : Tab α} {n k : Nat} :
    Tab.lowestFree t n = some k ↔ k < n ∧ Tab.look t k = none ∧ ∀ j < k, Tab.look t j ≠ none := by
  constructor
  · intro h
    obtain ⟨h1, h2, h3⟩ := Tab.lowestFree_spec h
    exact ⟨h2, h1, fun j hj hn => by simpa [hn] using h3 j hj⟩
  · rintro ⟨hk, hn, hmin⟩
    cases hf : Tab.lowestFree t n with
    | none =>
      have := List.find?_eq_none.mp hf k (List.mem_range.mpr hk)
      simp [hn] at this
    | some m =>
      obtain ⟨h1, h2, h3⟩ := Tab.lowestFree_spec hf
      rcases Nat.lt_trichotomy m k with hlt | rfl | hgt
      · exact absurd h1 (hmin m hlt)
      · rfl
      · have := h3 k hgt; simp [hn] at this

theorem Tab.lowestFree_none_iff {t : Tab α} {n : Nat} :
    Tab.lowestFree t n = none ↔ ∀ j < n, Tab.look t j ≠ none := by
  simp [Tab.lowestFree, List.find?_eq_none, Option.isNone_iff_eq_none]

/-- A table with fewer entries than indices has a free index. -/
theorem Tab.lowestFree_of_length {t : Tab α} {n : Nat} (h : t.length < n) : Tab.lowestFree t n ≠ none := by
  intro hn
  have hsub : List.range n ⊆ Tab.keys t := fun j hj => by
    by_contra hk
    exact Tab.lowestFree_none_iff.mp hn j (List.mem_range.mp hj) (Tab.look_none_iff.mpr hk)
  have := (List.subperm_of_subset (List.nodup_range) hsub).length_le
  simp [Tab.keys] at this
  omega

/-- Two ascending lists of numbers with the same members are the same list. -/
theorem rising_ext {l m : List Nat} (hl : l.Pairwise (· < ·)) (hm : m.Pairwise (· < ·)) (h : ∀ x, x ∈ l ↔ x ∈ m) : l = m :=
  List.Perm.eq_of_pairwise (fun _ _ _ _ h1 h2 => absurd h1 (Nat.lt_asymm h2)) hl hm
    ((List.perm_ext_iff_of_nodup (hl.imp Nat.ne_of_lt) (hm.imp Nat.ne_of_lt)).mpr h)

end Sys2Proof.Machine
end

