-- ==== Sys2Proof/Proofs/Frames.lean ====
section
/-! What a chain of changes keeps (the canonical tables) and what it leaves of the state, part by part; and what a record
handed to the journal and a fault occurrence do to the ring and to the fault table. -/

set_option Elab.async false

namespace Sys2Proof.Machine

/-! ## The canonical form -/

theorem Change.canonical {K : List Part} {s t : State} (h : Change K s t) (hs : s.Canonical) : t.Canonical := by
  cases h with
  | creds x hK h => exact { hs with creds := h hs.creds }
  | rooms x hK h => exact { hs with rooms := h hs.rooms }
  | schedules x hK h => exact { hs with schedules := h hs.schedules }
  | zones x hK h => exact { hs with zones := h hs.zones }
  | place p pl hK h hc => exact { hs with places := Tab.put_wf _ _ _ hs.places }
  | seg g x hK => exact { hs with segs := Tab.put_wf _ _ _ hs.segs }
  | revocations x hK h ho => exact { hs with revocations := h hs.revocations }
  | stays x hK h => exact { hs with stays := h hs.stays }
  | prices x hK h => exact { hs with prices := h hs.prices }
  | windows x hK h => exact { hs with windows := h hs.windows }
  | faults fs a hK h ha => exact { hs with faults := h hs.faults }
  | store x hK h => exact { hs with store := h hs.store }
  | clock | charges | policy | journal | notices | completions | trunk | request | status | dirty | due =>
    exact { hs with }

/-- Every chain of changes keeps the tables in their canonical form. -/
theorem Changes.canonical {K : List Part} {s t : State} (h : Changes K s t) (hs : s.Canonical) : t.Canonical :=
  h.inv (fun _ _ => Change.canonical) hs

/-! ## Frames -/

/-- What a chain leaves that touches neither the clock, the settings, the charges, the request, the start-up values, the
store nor what is due. -/
theorem Changes.frame {K : List Part} {s t : State} (h : Changes K s t)
    (hK : ∀ x ∈ [Part.clock, .schedules, .zones, .prices, .windows, .policy, .completions, .trunk, .request, .status,
      .store, .due], x ∉ K := by decide) :
    t = { s with
      creds := t.creds, rooms := t.rooms, places := t.places, segs := t.segs, revocations := t.revocations
      stays := t.stays, pendingCharges := t.pendingCharges, journal := t.journal
      trunk := { s.trunk with notices := t.trunk.notices }, faults := t.faults, alarm := t.alarm, dirty := t.dirty
      writer := t.writer } := by
  simp only [List.mem_cons, List.not_mem_nil, or_false, forall_eq_or_imp, forall_eq] at hK
  obtain ⟨h1, h2, h3, h4, h5, h6, h7, h8, h9, h10, h11, h12⟩ := hK
  obtain ⟨e1, e2, e3, e4, e5⟩ := h.status_eq h10
  rw [← h.trunk_notices h8 h7, ← h.clock_eq h1, ← h.schedules_eq h2, ← h.zones_eq h3, ← h.prices_eq h4,
    ← h.windows_eq h5, ← h.policy_eq h6, ← h.request_eq h9, ← e1, ← e2, ← e3, ← e4, ← e5, ← h.store_eq h11,
    ← h.due_eq h12, ← h.pending_eq]

/-! ## The ring of the journal -/

theorem State.giveFault_journal (s : State) (k : FaultKind) (d : List Byte) : (s.giveFault k d).journal = s.journal :=
  (giveFault_ch k d s).journal_eq

theorem State.fullFault_journal (s : State) : s.fullFault.journal = s.journal := (fullFault_ch s).journal_eq

theorem State.highFault_journal (s : State) : s.highFault.journal = s.journal := (highFault_ch s).journal_eq

theorem State.reserve_journal (s : State) : ∃ x, s.reserve.journal = { s.journal with pendingLimit := x } := by
  unfold State.reserve
  split
  · exact ⟨_, rfl⟩
  · exact ⟨s.journal.pendingLimit, rfl⟩

/-- A record that can be stored joins the ring behind the others. -/
theorem State.handOver_ring {s : State} (d : Draft) (h : s.journal.storable = true) :
    (s.handOver d).journal.ring = s.journal.ring ++ [s.stamp d] := by
  obtain ⟨x, hx⟩ := (s.append d).highFault.fullFault.reserve_journal
  rw [State.handOver, if_pos h, hx]
  simp only [State.fullFault_journal, State.highFault_journal, State.append]

/-- A record that cannot be stored leaves the ring. -/
theorem State.handOver_ring_of_not {s : State} (d : Draft) (h : s.journal.storable = false) :
    (s.handOver d).journal.ring = s.journal.ring := by
  simp only [State.handOver, h, Bool.false_eq_true, if_false, State.fullFault_journal, State.countGap]

/-- Where a record cannot be stored, the next one cannot either. -/
theorem State.storable_of_handOver {s : State} {d : Draft} (h : (s.handOver d).journal.storable = true) :
    s.journal.storable = true := by
  by_contra hs
  simp only [Bool.not_eq_true] at hs
  have : (s.handOver d).journal = { s.journal with gap := min 65535 (s.journal.gap + 1) } := by
    simp only [State.handOver, hs, Bool.false_eq_true, if_false, State.fullFault_journal, State.countGap]
  rw [this] at h
  exact absurd (hs ▸ h : s.journal.storable = true) (by simp [hs])

/-- From `s` to `t` records are journalled of which the ones that `view` reads are `xs`, as long as all can be stored. -/
structure Logged {β : Type} (view : Record → Option β) (s t : State) (xs : List β) : Prop where
  storable : t.journal.storable = true → s.journal.storable = true
  ring : t.journal.storable = true → ∃ added, t.journal.ring = s.journal.ring ++ added ∧ added.filterMap view = xs

namespace Logged

variable {β : Type} {view : Record → Option β} {s t u : State} {xs ys : List β}

theorem of_journal_eq (h : t.journal = s.journal) : Logged view s t [] :=
  ⟨fun hs => h ▸ hs, fun _ => ⟨[], by simp [h], rfl⟩⟩

theorem of_handOver (s : State) (d : Draft) : Logged view s (s.handOver d) (view (s.stamp d)).toList := by
  refine ⟨State.storable_of_handOver, fun h => ⟨[s.stamp d], State.handOver_ring d (State.storable_of_handOver h), ?_⟩⟩
  cases hv : view (s.stamp d) <;> simp [hv]

theorem trans (h1 : Logged view s t xs) (h2 : Logged view t u ys) : Logged view s u (xs ++ ys) := by
  refine ⟨fun h => h1.storable (h2.storable h), fun h => ?_⟩
  obtain ⟨a, ha, hx⟩ := h1.ring (h2.storable h)
  obtain ⟨b, hb, hy⟩ := h2.ring h
  exact ⟨a ++ b, by rw [hb, ha, List.append_assoc], by rw [List.filterMap_append, hx, hy]⟩

theorem then_eq (h1 : Logged view s t xs) (h2 : u.journal = t.journal) : Logged view s u xs := by
  simpa using h1.trans (of_journal_eq h2)

theorem after_eq (h1 : t.journal = s.journal) (h2 : Logged view t u xs) : Logged view s u xs := by
  simpa using (of_journal_eq h1).trans h2

/-- The records of an operation taken over a list; `P` is what the operation needs of the state and keeps. -/
theorem fold {γ : Type} {f : State → γ → State} (g : γ → List β) (P : State → Prop) (l : List γ)
    (hP : ∀ s c, P s → P (f s c)) (hf : ∀ s c, c ∈ l → P s → Logged view s (f s c) (g c)) {s : State} (hs : P s) :
    Logged view s (l.foldl f s) (l.flatMap g) := by
  induction l generalizing s with
  | nil => exact of_journal_eq rfl
  | cons c l ih =>
    exact (hf s c (by simp) hs).trans (ih (fun s d hd => hf s d (by simp [hd])) (hP s c hs))

end Logged

/-- The ring grows only at its end. -/
def RingGrows (s t : State) : Prop := ∃ rest, t.journal.ring = s.journal.ring ++ rest

theorem RingGrows.trans {s t u : State} (h1 : RingGrows s t) (h2 : RingGrows t u) : RingGrows s u := by
  obtain ⟨a, ha⟩ := h1
  obtain ⟨b, hb⟩ := h2
  exact ⟨a ++ b, by rw [hb, ha, List.append_assoc]⟩

theorem RingGrows.of_handOver (s : State) (d : Draft) : RingGrows s (s.handOver d) := by
  cases h : s.journal.storable with
  | true => exact ⟨_, State.handOver_ring d h⟩
  | false => exact ⟨[], by simp [State.handOver_ring_of_not d h]⟩

/-! ## The dirty set -/

theorem State.dirty_markDirty {s : State} {b c : Nat} : c ∈ (s.markDirty b).dirty ↔ c = b ∨ c ∈ s.dirty := mem_insertNat

theorem State.dirty_handOver {s : State} {b : Nat} (d : Draft) (h : b ∈ s.dirty) : b ∈ (s.handOver d).dirty := by
  have hr (u : State) (hu : b ∈ u.dirty) : b ∈ u.reserve.dirty := by
    unfold State.reserve
    split
    · exact State.dirty_markDirty.mpr (.inr hu)
    · exact hu
  unfold State.handOver
  split
  · refine hr _ ?_
    rw [(fullFault_ch _).dirty_eq.1, (highFault_ch _).dirty_eq.1]
    exact h
  · rw [(fullFault_ch _).dirty_eq.1]
    exact h

/-! ## The fault table -/

theorem State.fault_congr {s t : State} (h : t.faults = s.faults) (k : FaultKind) : t.fault k = s.fault k := by
  simp [State.fault, h]

theorem State.buildNotice_faults (s : State) (n : Notice) : (s.buildNotice n).faults = s.faults := by
  unfold State.buildNotice
  split
  · rfl
  · split <;> rfl

/-- A fault occurrence sets its kind and leaves every other kind's record. -/
theorem State.giveFault_fault {s : State} (hs : Tab.Wf FaultRec.clear s.faults) (k l : FaultKind) (d : List Byte) :
    ((s.giveFault k d).fault k).set = true ∧ (l ≠ k → (s.giveFault k d).fault l = s.fault l) := by
  have hset (r : FaultRec) (u : State) (hu : u.faults = (s.setFault k r).faults) :
      u.fault k = r ∧ (l ≠ k → u.fault l = s.fault l) := by
    rw [State.fault_congr hu, State.fault_congr hu]
    exact ⟨by simp [State.fault_setFault _ _ _ _ hs.1], fun hl => by simp [State.fault_setFault _ _ _ _ hs.1, hl]⟩
  unfold State.giveFault
  simp only
  split
  · rename_i h
    obtain ⟨h1, h2⟩ := hset _ _ rfl
    exact ⟨by rw [h1]; exact h, h2⟩
  · split
    · obtain ⟨h1, h2⟩ := hset _ _ (State.driveAlarm_faults _)
      exact ⟨by rw [h1], h2⟩
    · obtain ⟨h1, h2⟩ := hset _ _ ((State.buildNotice_faults _ _).trans (State.driveAlarm_faults _))
      exact ⟨by rw [h1], h2⟩

/-- No occurrence clears a kind. -/
theorem State.giveFault_set {s : State} (hs : Tab.Wf FaultRec.clear s.faults) (k l : FaultKind) (d : List Byte)
    (h : (s.fault l).set = true) : ((s.giveFault k d).fault l).set = true := by
  by_cases hl : l = k
  · subst hl; exact (giveFault_fault hs l l d).1
  · rw [(giveFault_fault hs k l d).2 hl]; exact h

theorem State.handOver_set {s : State} (hs : s.Canonical) (d : Draft) (l : FaultKind)
    (h : (s.fault l).set = true) : ((s.handOver d).fault l).set = true := by
  have hr (u : State) : u.reserve.fault l = u.fault l :=
    State.fault_congr (reserve_ch u).faults_eq.1 l
  have hh (u : State) (hu : Tab.Wf FaultRec.clear u.faults) (h : (u.fault l).set = true) :
      (u.highFault.fault l).set = true := by
    unfold State.highFault
    split
    · exact State.giveFault_set hu _ _ _ h
    · exact h
  have hf (u : State) (hu : Tab.Wf FaultRec.clear u.faults) (h : (u.fault l).set = true) :
      (u.fullFault.fault l).set = true := by
    unfold State.fullFault
    split
    · exact State.giveFault_set hu _ _ _ h
    · exact h
  unfold State.handOver
  split
  · rw [hr]
    exact hf _ ((highFault_ch (s.append d)).canonical { hs with }).faults (hh _ hs.faults h)
  · exact hf _ hs.faults h

end Sys2Proof.Machine
end

