-- ==== Sys2Proof/Proofs/Offers.lean ====
section
/-! What the offers to a command queue leave of a place: everything but the queue and what the commands' sources keep, the
slots and kinds of the directory's entries, and the waiting commands of class 1. -/

set_option Elab.async false

namespace Sys2Proof.Machine

/-- A directory entry's state without the status of its command. -/
def DirState.kind : DirState → DirState
  | .adding _ => .adding .owed
  | .held => .held
  | .removing _ => .removing .owed

/-- A directory entry without the status of its command. -/
def DirEntry.plain (d : DirEntry) : DirEntry := { d with state := d.state.kind }

theorem LineCmd.one_le_cls (c : LineCmd) : 1 ≤ c.cls := by cases c <;> simp [LineCmd.cls]

namespace Place

/-- A place without its queue and what the sources of its commands keep. -/
def core (pl : Place) : Place :=
  { pl with mark := .none, delivery := none, waiting := [], uncertain := false, departed := none, joinOwed := []
            directory := [], flush := none }

/-- The directory without the statuses of its commands. -/
def plainDir (pl : Place) : List DirEntry := pl.directory.map DirEntry.plain

/-- What offers to the queue leave. -/
structure Offered (a b : Place) : Prop where
  core : b.core = a.core
  dir : b.plainDir = a.plainDir
  first : ∀ x ∈ a.waiting, x.cmd.cls = 1 → x ∈ b.waiting

namespace Offered

variable {a b c : Place}

theorem refl (a : Place) : Offered a a := ⟨rfl, rfl, fun _ h _ => h⟩

theorem trans (h1 : Offered a b) (h2 : Offered b c) : Offered a c :=
  ⟨h2.core.trans h1.core, h2.dir.trans h1.dir, fun x hx hc => h2.first x (h1.first x hx hc) hc⟩

theorem fold {α : Type} {f : Place → α → Place} (h : ∀ pl x, Offered pl (f pl x)) (l : List α) (pl : Place) :
    Offered pl (l.foldl f pl) := by
  induction l generalizing pl with
  | nil => exact refl pl
  | cons x l ih => exact (h pl x).trans (ih _)

theorem ite {p : Prop} [Decidable p] (h : Offered a b) : Offered a (if p then b else a) := by
  split
  · exact h
  · exact refl a

end Offered

/-- A change of statuses leaves the entries' slots and kinds. -/
theorem mapDir_plainDir (pl : Place) (sl i : Nat) {f : DirState → DirState} (h : ∀ x, (f x).kind = x.kind) :
    (pl.mapDir sl i f).plainDir = pl.plainDir := by
  simp only [plainDir, mapDir, List.map_map]
  refine List.map_congr_left (fun d _ => ?_)
  simp only [Function.comp_apply, DirEntry.plain]
  split <;> simp [h]

theorem addStatus_offered (pl : Place) (sl i : Nat) (st : CmdStatus) : Offered pl (pl.addStatus sl i st) :=
  ⟨rfl, mapDir_plainDir pl sl i (fun x => by cases x <;> rfl), fun _ h _ => h⟩

theorem removeStatus_offered (pl : Place) (sl i : Nat) (st : CmdStatus) : Offered pl (pl.removeStatus sl i st) :=
  ⟨rfl, mapDir_plainDir pl sl i (fun x => by cases x <;> rfl), fun _ h _ => h⟩

theorem onEntered_offered (c : LineCmd) (pl : Place) : Offered pl (onEntered c pl) := by
  cases c with
  | cacheAdd slot card index => exact addStatus_offered ..
  | cacheRemove slot index => exact removeStatus_offered ..
  | cacheFlush j => cases j <;> exact ⟨rfl, rfl, fun _ h _ => h⟩
  | verdict | remoteUnlock | holdOpen | secure | identify | backlogNext => exact ⟨rfl, rfl, fun _ h _ => h⟩

theorem onReturned_offered (c : LineCmd) (st : CmdStatus) (pl : Place) : Offered pl (onReturned c st pl) := by
  cases c with
  | cacheAdd slot card index => exact addStatus_offered ..
  | cacheRemove slot index => exact removeStatus_offered ..
  | cacheFlush j => cases j <;> exact ⟨rfl, rfl, fun _ h _ => h⟩
  | verdict | remoteUnlock | holdOpen | secure | identify | backlogNext => exact ⟨rfl, rfl, fun _ h _ => h⟩

theorem mem_insertEntry {e x : QEntry} {l : List QEntry} : x ∈ insertEntry e l ↔ x = e ∨ x ∈ l := by
  induction l with
  | nil => simp [insertEntry]
  | cons y l ih =>
    simp only [insertEntry]
    split
    · simp
    · simp only [List.mem_cons, ih]; tauto

theorem enter_offered (c : LineCmd) (pl : Place) : Offered pl (pl.enter c) := by
  refine Offered.trans ?_ (onEntered_offered c _)
  exact ⟨rfl, rfl, fun _ h _ => mem_insertEntry.mpr (.inr h)⟩

theorem depart_offered (pl : Place) : Offered pl pl.depart := by
  unfold depart
  split
  · exact .refl pl
  · exact ⟨rfl, rfl, fun _ h _ => h⟩

/-- An evicted command of class 2 or 3 takes no command of class 1 with it. -/
theorem evict_offered {v : QEntry} (hv : v.cmd.cls ≠ 1) (pl : Place) : Offered pl (pl.evict v) := by
  unfold evict
  split
  · exact (depart_offered pl).trans (onReturned_offered ..)
  · refine Offered.trans ?_ (onReturned_offered ..)
    refine ⟨rfl, rfl, fun x hx hc => List.mem_filter.mpr ⟨hx, ?_⟩⟩
    simp only [bne_iff_ne, ne_eq]
    rintro rfl
    exact hv hc

theorem offer_offered (c : LineCmd) (pl : Place) : Offered pl (pl.offer c) := by
  unfold offer
  split
  · exact enter_offered c pl
  · split
    · exact onReturned_offered ..
    · rename_i v _
      split
      · have := c.one_le_cls
        exact (evict_offered (by omega) pl).trans (enter_offered ..)
      · exact onReturned_offered ..

theorem offerFree_offered (c : LineCmd) (pl : Place) : Offered pl (pl.offerFree c) := (enter_offered c pl).ite

theorem offerZone_offered (pl : Place) : Offered pl pl.offerZone := by
  unfold offerZone
  split
  · split
    · exact offer_offered ..
    · exact offer_offered ..
    all_goals exact .refl pl
  · exact .refl pl

theorem offerReturned_offered (pl : Place) (c : LineCmd) : Offered pl (pl.offerReturned c) := by
  refine Offered.ite (Offered.trans ?_ (enter_offered c _))
  exact ⟨rfl, rfl, fun _ h _ => h⟩

theorem offerJoin_offered (pl : Place) : Offered pl pl.offerJoin := .fold offerReturned_offered _ pl

theorem offerFlush_offered (pl : Place) : Offered pl pl.offerFlush := (offerFree_offered ..).ite

theorem offerRemoves_offered (pl : Place) : Offered pl pl.offerRemoves :=
  .fold (fun pl _ => (offerFree_offered _ pl).ite) _ pl

theorem offerAdds_offered (card : Nat → Nat) (pl : Place) : Offered pl (pl.offerAdds card) :=
  .fold (fun pl _ => (offerFree_offered _ pl).ite) _ pl

theorem reoffer_offered (card : Nat → Nat) (pl : Place) : Offered pl (pl.reoffer card) :=
  ((((offerZone_offered pl).trans (offerJoin_offered _)).trans (offerFlush_offered _)).trans
    (offerRemoves_offered _)).trans (offerAdds_offered card _)

/-- A place marked cache-suspect keeps everything but the mark, the flush and what offers change. -/
theorem suspectNow_offered (pl : Place) : Offered { pl with suspect := true } pl.suspectNow := by
  unfold suspectNow
  split
  · refine Offered.trans ?_ (offer_offered ..)
    exact ⟨rfl, rfl, fun _ h _ => h⟩
  · exact .refl _

theorem Offered.suspect {a b : Place} (h : Offered a b) : b.suspect = a.suspect := (congrArg Place.suspect h.core :)

theorem Offered.presentation {a b : Place} (h : Offered a b) : b.presentation = a.presentation :=
  (congrArg Place.presentation h.core :)

/-! ## The entries of one credential -/

/-- The entries that name a credential. -/
def entriesOf (i : Nat) (pl : Place) : List DirEntry := pl.directory.filter (fun d => d.index == i)

/-- The entries that name a credential, without the statuses of their commands. -/
def plainOf (i : Nat) (pl : Place) : List DirEntry := pl.plainDir.filter (fun d => d.index == i)

theorem plainOf_eq (i : Nat) (pl : Place) : pl.plainOf i = (pl.entriesOf i).map DirEntry.plain := by
  simp only [plainOf, plainDir, entriesOf, List.filter_map]
  rfl

theorem plainOf_eq_nil {i : Nat} {pl : Place} : pl.plainOf i = [] ↔ ∀ d ∈ pl.directory, d.index ≠ i := by
  simp [plainOf_eq, entriesOf]

/-- Some entry for the credential is in REMOVING. -/
def removes (i : Nat) (pl : Place) : Prop := ∃ d ∈ pl.directory, d.index = i ∧ ∃ st, d.state = .removing st

theorem removes_iff {i : Nat} {pl : Place} : pl.removes i ↔ ∃ d ∈ pl.plainOf i, d.state = .removing .owed := by
  rw [plainOf_eq]
  constructor
  · rintro ⟨d, hd, hi, st, hst⟩
    exact ⟨d.plain, List.mem_map_of_mem (List.mem_filter.mpr ⟨hd, by simp [hi]⟩), by simp [DirEntry.plain, hst, DirState.kind]⟩
  · rintro ⟨_, hplain, hst⟩
    obtain ⟨d, hfilter, rfl⟩ := List.mem_map.mp hplain
    obtain ⟨hd, hi⟩ := List.mem_filter.mp hfilter
    refine ⟨d, hd, by simpa using hi, ?_⟩
    cases hk : d.state with
    | removing st => exact ⟨st, rfl⟩
    | adding st => simp [DirEntry.plain, hk, DirState.kind] at hst
    | held => simp [DirEntry.plain, hk, DirState.kind] at hst

/-- The lock at the place may hold the credential (R115). -/
def holds (i : Nat) (pl : Place) : Bool := (pl.directory.find? (fun d => d.index == i)).any (fun d => d.state.mayHold)

theorem holds_congr {i : Nat} {a b : Place} (h : b.entriesOf i = a.entriesOf i) : b.holds i = a.holds i := by
  simp only [holds, ← List.head?_filter]
  rw [show b.directory.filter (fun d => d.index == i) = b.entriesOf i from rfl, h]
  rfl

/-- What a push engine's additions leave of a place, where it adds no entry for credential `i`. -/
structure Filled (i : Nat) (a b : Place) : Prop where
  rest : b = { a with waiting := b.waiting, directory := b.directory }
  entries : b.entriesOf i = a.entriesOf i
  kept : ∀ x ∈ a.waiting, x ∈ b.waiting

theorem Filled.refl (i : Nat) (a : Place) : Filled i a a := ⟨rfl, rfl, fun _ h => h⟩

theorem Filled.trans {i : Nat} {a b c : Place} (h1 : Filled i a b) (h2 : Filled i b c) : Filled i a c := by
  refine ⟨?_, h2.entries.trans h1.entries, fun x hx => h2.kept x (h1.kept x hx)⟩
  rw [h2.rest]
  conv_lhs => rw [h1.rest]

theorem Filled.core {i : Nat} {a b : Place} (h : Filled i a b) : b.core = a.core := by
  rw [h.rest]; rfl

/-- Whatever may happen at the place of a withdrawn command: offers, additions of other credentials, and the loss of waiting
commands that are not of class 1. -/
structure Loose (i : Nat) (a b : Place) : Prop where
  core : b.core = a.core
  plain : b.plainOf i = a.plainOf i
  first : ∀ x ∈ a.waiting, x.cmd.cls = 1 → x ∈ b.waiting

theorem Loose.refl (i : Nat) (a : Place) : Loose i a a := ⟨rfl, rfl, fun _ h _ => h⟩

theorem Loose.trans {i : Nat} {a b c : Place} (h1 : Loose i a b) (h2 : Loose i b c) : Loose i a c :=
  ⟨h2.core.trans h1.core, h2.plain.trans h1.plain, fun x hx hc => h2.first x (h1.first x hx hc) hc⟩

theorem Filled.loose {i : Nat} {a b : Place} (h : Filled i a b) : Loose i a b :=
  ⟨h.core, by rw [plainOf_eq, plainOf_eq, h.entries], fun x hx _ => h.kept x hx⟩

theorem Offered.loose {a b : Place} (h : Offered a b) (i : Nat) : Loose i a b :=
  ⟨h.core, by rw [plainOf, h.dir]; rfl, h.first⟩

theorem withdraw_loose {c : LineCmd → Bool} (hc : ∀ x, c x = true → x.cls ≠ 1) (i : Nat) (pl : Place) :
    Loose i pl (pl.withdraw c) := by
  refine ⟨rfl, rfl, fun x hx h1 => List.mem_filter.mpr ⟨hx, ?_⟩⟩
  cases h : c x.cmd with
  | false => rfl
  | true => exact absurd h1 (hc _ h)

theorem insertDir_filter {i : Nat} {d : DirEntry} (hd : d.index ≠ i) (l : List DirEntry) :
    (insertDir d l).filter (fun d => d.index == i) = l.filter (fun d => d.index == i) := by
  induction l with
  | nil => simp [insertDir, hd]
  | cons x l ih =>
    simp only [insertDir]
    split
    · simp [hd]
    · simp only [List.filter_cons, ih]

theorem addStatus_entries {i j : Nat} (h : j ≠ i) (pl : Place) (sl : Nat) (st : CmdStatus) :
    (pl.addStatus sl j st).entriesOf i = pl.entriesOf i := by
  simp only [entriesOf, addStatus, mapDir, List.filter_map]
  rw [show ((fun d : DirEntry => d.index == i) ∘ _) = (fun d : DirEntry => d.index == i) from ?_]
  · conv_rhs => rw [← List.map_id (pl.directory.filter (fun d => d.index == i))]
    refine List.map_congr_left (fun d hd => ?_)
    have hi : d.index = i := by simpa using (List.mem_filter.mp hd).2
    have : ¬(d.slot = sl ∧ d.index = j) := fun hj => h (hj.2.symm.trans hi)
    simp [this]
  · funext d
    simp only [Function.comp_apply]
    split <;> rfl

/-- An addition into a free place of the queue. -/
theorem addEntry_filled {i j : Nat} (h : j ≠ i) (slot card : Nat) {pl : Place} (hr : pl.hasRoom = true) :
    Filled i pl (pl.addEntry slot j card) := by
  have hr' : ({ pl with directory := insertDir ⟨slot, j, .adding .owed⟩ pl.directory } : Place).hasRoom = true := hr
  simp only [addEntry, offer, hr', if_true]
  refine ⟨rfl, ?_, fun x hx => mem_insertEntry.mpr (.inr hx)⟩
  simp only [enter, onEntered, addStatus_entries h]
  exact insertDir_filter h pl.directory

end Place

end Sys2Proof.Machine
end

