-- ==== Sys2Proof/Proofs/Engine.lean ====
section
/-! What the push engine, a withdrawal and the suspect mark do to each place: they add no entry for a credential that is not
ACTIVE, and they leave its entries' kinds and the waiting commands of class 1. -/

set_option Elab.async false

namespace Sys2Proof.Machine

/-- No entry at the index is ACTIVE. -/
def State.NotActive (s : State) (i : Nat) : Prop := ∀ c, s.cred i = some c → c.state ≠ .active

theorem State.NotActive.congr {s t : State} {i : Nat} (h : s.NotActive i) (hc : t.creds = s.creds) : t.NotActive i := by
  intro c h1
  exact h c (by simpa [State.cred, hc] using h1)

theorem State.place_congr {s t : State} (h : t.places = s.places) (p : Nat) : t.place p = s.place p := by
  simp [State.place, h]

/-- Every place of `t` stands in a relation to the same place of `s`. -/
def State.Each (R : Place → Place → Prop) (s t : State) : Prop := ∀ q, R (s.place q) (t.place q)

namespace State

/-- R102: only ACTIVE credentials are in a plan. -/
theorem active_of_inPlan {s : State} {guest : Bool} {d : DoorRec} {c : Cred} (h : s.inPlan guest d c = true) :
    c.state = .active := by
  unfold State.inPlan at h
  split at h
  · unfold State.planGuest at h
    split at h
    · simp only [Bool.and_eq_true, beq_iff_eq, decide_eq_true_eq] at h
      obtain ⟨⟨⟨hst, -⟩, -⟩, -⟩ := h
      exact hst
    · cases h
  · unfold State.planOther at h
    simp only [Bool.and_eq_true, beq_iff_eq] at h
    exact h.1.2

theorem walkPass_filled {i : Nat} (p : Nat) (guest : Bool) (cs : List (Nat × Cred))
    (hcs : ∀ e ∈ cs, e.1 = i → e.2.state ≠ .active) (pos : Nat) {s : State} (hs : s.Canonical) :
    Each (Place.Filled i) s (walkPass p guest pos cs s).1 := by
  induction cs generalizing pos s with
  | nil => exact fun q => .refl i _
  | cons e cs ih =>
    obtain ⟨j, c⟩ := e
    have ih := ih (fun e he => hcs e (by simp [he]))
    simp only [walkPass]
    split
    · exact fun q => .refl i _
    · split
      · rename_i slot _ hplan
        simp only [Bool.and_eq_true] at hplan
        have hj : j ≠ i := fun h => hcs (j, c) (by simp) h (active_of_inPlan hplan.1)
        split
        · rename_i hr
          intro q
          have h1 := ih (j + 1) ((modPlace_ch s p (Place.addEntry_ok slot j c.card)).canonical hs) q
          refine Place.Filled.trans ?_ h1
          rw [place_modPlace _ _ _ _ hs.places.1]
          split
          · rename_i hq; subst hq; exact Place.addEntry_filled hj _ _ hr
          · exact .refl i _
        · exact fun q => .refl i _
      · exact ih (j + 1) hs

theorem walkFrom_filled {i : Nat} (g : Nat) (guest : Bool) {s : State} (hs : s.Canonical) (hi : s.NotActive i) :
    Each (Place.Filled i) s (walkFrom g guest s).1 := by
  refine walkPass_filled _ guest _ (fun e he hei => ?_) _ hs
  have hmem := (List.mem_filter.mp he).1
  exact hi _ (Tab.mem_look hs.creds (by rw [← hei]; exact hmem))

theorem walkOther_places (g : Nat) (s : State) : (walkOther g s).places = (walkFrom g false s).1.places := by
  unfold walkOther
  split <;> simp_all

theorem walk_filled {i : Nat} (g : Nat) {s : State} (hs : s.Canonical) (hi : s.NotActive i) :
    Each (Place.Filled i) s (walk g s) := by
  have hother (u : State) (hu : u.Canonical) (hui : u.NotActive i) : Each (Place.Filled i) u (walkOther g u) := by
    intro q
    rw [place_congr (walkOther_places g u)]
    exact walkFrom_filled g false hu hui q
  unfold walk
  split
  · exact hother s hs hi
  · have h1 := walkFrom_filled g true hs hi
    have hch := walkFrom_ch g true s
    have hthen (u : State) (hu : Changes [.places] s u) (h : Each (Place.Filled i) s u) :
        Each (Place.Filled i) s (u.enterOther g) := fun q => (h q).trans
      (hother (u.modSeg g (fun x => { x with index := 0, pass := .other }))
        ((modSeg_ch ..).canonical (hu.canonical hs)) (hi.congr hu.creds_eq) q)
    split <;> rename_i heq <;> rw [heq] at h1 hch
    · exact fun q => h1 q
    · exact hthen _ hch h1
    · exact hthen _ hch h1

theorem pump_filled {i : Nat} (g n : Nat) {s : State} (hs : s.Canonical) (hi : s.NotActive i) :
    Each (Place.Filled i) s (pump g n s) := by
  induction n generalizing s with
  | zero => exact fun q => .refl i _
  | succ n ih =>
    have hwalk (u : State) (hu : u.Canonical) (hui : u.NotActive i) : Each (Place.Filled i) u (pump g n (u.walk g)) :=
      fun q => (walk_filled g hu hui q).trans
        (ih ((walk_ch g u).canonical hu) (hui.congr (walk_ch g u).creds_eq) q)
    simp only [pump]
    split
    · exact fun q => .refl i _
    · split
      · split
        · have hch := startReload_ch g s
          intro q
          rw [← place_congr hch.places_eq]
          exact hwalk _ (hch.canonical hs) (hi.congr hch.creds_eq) q
        · exact fun q => .refl i _
      · split
        · exact fun q => .refl i _
        · split
          · exact hwalk s hs hi
          · exact walk_filled g hs hi

theorem runEngine_filled {i : Nat} (g : Nat) {s : State} (hs : s.Canonical) (hi : s.NotActive i) :
    Each (Place.Filled i) s (runEngine g s) :=
  pump_filled g _ hs hi

/-- A freed place of the queue at `p` is offered: at `p` anything that offers bring, elsewhere additions alone. -/
theorem reoffer_each {i : Nat} (p : Nat) {s : State} (hs : s.Canonical) (hi : s.NotActive i) :
    Each (Place.Loose i) s (reoffer p s) ∧ ∀ q, q ≠ p → Place.Filled i (s.place q) ((reoffer p s).place q) := by
  have hch := modPlace_ch s p (Place.reoffer_ok s.cardOf)
  have h1 : ∀ q, (s.modPlace p (Place.reoffer s.cardOf)).place q
      = if q = p then Place.reoffer s.cardOf (s.place p) else s.place q := fun q => place_modPlace _ _ _ _ hs.places.1
  have h2 : Each (Place.Filled i) (s.modPlace p (Place.reoffer s.cardOf)) (reoffer p s) := by
    unfold reoffer
    simp only
    split
    · exact runEngine_filled _ (hch.canonical hs) (hi.congr hch.creds_eq)
    · exact fun q => .refl i _
  refine ⟨fun q => ?_, fun q hq => ?_⟩
  · have h := (h2 q).loose
    rw [h1] at h
    split at h
    · rename_i hq; subst hq; exact ((Place.reoffer_offered _ _).loose i).trans h
    · exact h
  · have h := h2 q
    rwa [h1, if_neg hq] at h

/-- A withdrawal of commands that are not of class 1, and the offers that follow. -/
theorem withdraw_each {i : Nat} (p : Nat) {c : LineCmd → Bool} (hc : ∀ x, c x = true → x.cls ≠ 1) {s : State}
    (hs : s.Canonical) (hi : s.NotActive i) :
    Each (Place.Loose i) s (withdraw p c s) ∧ ∀ q, q ≠ p → Place.Filled i (s.place q) ((withdraw p c s).place q) := by
  unfold withdraw
  split
  · have hch := modPlace_ch s p (Place.withdraw_ok c)
    obtain ⟨h2, h3⟩ := reoffer_each p (hch.canonical hs) (hi.congr hch.creds_eq)
    refine ⟨fun q => ?_, fun q hq => ?_⟩
    · have h := h2 q
      rw [place_modPlace _ _ _ _ hs.places.1] at h
      split at h
      · rename_i hq; subst hq; exact (Place.withdraw_loose hc i _).trans h
      · exact h
    · have h := h3 q hq
      rwa [place_modPlace _ _ _ _ hs.places.1, if_neg hq] at h
  · exact ⟨fun q => .refl i _, fun q _ => .refl i _⟩

theorem cls_of_isAdd {slot i : Nat} {c : LineCmd} (h : isAdd slot i c = true) : c.cls ≠ 1 := by
  cases c with
  | cacheAdd => simp [LineCmd.cls]
  | _ => simp [isAdd] at h

theorem cls_of_isRemove {slot i : Nat} {c : LineCmd} (h : isRemove slot i c = true) : c.cls ≠ 1 := by
  simp only [isRemove, beq_iff_eq] at h
  subst h
  simp [LineCmd.cls]

/-! ## Operations taken over places -/

theorem place_of_not_key {s : State} {p : Nat} (h : p ∉ s.placeKeys) : s.place p = Place.reset := Tab.read_of_not_key h

theorem mem_placeKeys {s : State} {p : Nat} (h : s.place p ≠ Place.reset) : p ∈ s.placeKeys := Tab.mem_keys_of_read h

theorem placeKeys_rising {s : State} (hs : s.Canonical) : s.placeKeys.Pairwise (· < ·) := hs.places.1

theorem placeKeys_nodup {s : State} (hs : s.Canonical) : s.placeKeys.Nodup := Tab.keys_nodup hs.places.1

/-- An operation taken over a list of places: what it does to its own place (`A`) and to the others (`R`) adds up. `G` is
what the operation needs of the state and keeps. -/
theorem fold_places {R A : Place → Place → Prop} {G : State → Prop} {f : State → Nat → State}
    (refl : ∀ a, R a a) (rr : ∀ {a b c}, R a b → R b c → R a c) (ra : ∀ {a b c}, R a b → A b c → A a c)
    (ar : ∀ {a b c}, A a b → R b c → A a c) (hG : ∀ s p, G s → G (f s p))
    (hother : ∀ s p q, G s → q ≠ p → R (s.place q) ((f s p).place q)) (hself : ∀ s p, G s → A (s.place p) ((f s p).place p))
    {l : List Nat} (hl : l.Nodup) {s : State} (hs : G s) :
    ∀ q, (q ∈ l → A (s.place q) ((l.foldl f s).place q)) ∧ (q ∉ l → R (s.place q) ((l.foldl f s).place q)) := by
  induction l generalizing s with
  | nil => exact fun q => ⟨fun h => by simp at h, fun _ => refl _⟩
  | cons p l ih =>
    obtain ⟨hp, hl⟩ := List.nodup_cons.mp hl
    intro q
    obtain ⟨ihA, ihR⟩ := ih hl (hG s p hs) q
    refine ⟨fun hq => ?_, fun hq => ?_⟩
    · by_cases hqp : q = p
      · subst hqp; exact ar (hself s q hs) (ihR hp)
      · exact ra (hother s p q hs hqp) (ihA ((List.mem_cons.mp hq).resolve_left hqp))
    · obtain ⟨h1, h2⟩ := not_or.mp (List.mem_cons.not.mp hq)
      exact rr (hother s p q hs h1) (ihR h2)

/-- The same where each place's own operation leaves every other place as it was: `f s p` puts `g s p` there, which the
fold does not change. -/
theorem fold_modPlace {f : State → Nat → State} {g : Nat → Place → Place} {G : State → Prop} (hG : ∀ s p, G s → G (f s p))
    (hf : ∀ s p q, G s → (f s p).place q = if q = p then g p (s.place p) else s.place q) {l : List Nat} (hl : l.Nodup)
    {s : State} (hs : G s) (q : Nat) : (l.foldl f s).place q = if q ∈ l then g q (s.place q) else s.place q := by
  induction l generalizing s with
  | nil => simp
  | cons p l ih =>
    obtain ⟨hp, hl⟩ := List.nodup_cons.mp hl
    rw [List.foldl_cons, ih hl (hG s p hs), hf s p q hs]
    by_cases hqp : q = p
    · subst hqp; simp [hp]
    · simp [hqp]

end State

end Sys2Proof.Machine
end

