-- ==== Sys2Proof/Proofs/RevocationStart.lean ====
section
/-! A revocation start (R113 to R117), place by place: the replaced GRANT, the entry removed or in REMOVING, the list-full
fallback; the drops to confirm; and the record. -/

set_option Elab.async false

namespace Sys2Proof.Machine

namespace Place

/-- R114, R115 at one drop: the entry is in REMOVING where the lock may hold the credential, and gone elsewhere. -/
structure Revoked (i : Nat) (a b : Place) : Prop where
  core : b.core = a.core
  first : ∀ x ∈ a.waiting, x.cmd.cls = 1 → x ∈ b.waiting
  removes : a.holds i = true → b.removes i
  gone : a.holds i = false → b.plainOf i = []

/-- A place apart from the directory, the queue and its sources, the presentation and the cache-suspect mark. -/
def base (pl : Place) : Place := { pl.core with presentation := none, suspect := true }

/-- R117 at one drop: no entry is left, and a drop that had one is cache-suspect. -/
structure Overflowed (i : Nat) (a b : Place) : Prop where
  base : b.base = a.base
  presentation : b.presentation = a.presentation
  first : ∀ x ∈ a.waiting, x.cmd.cls = 1 → x ∈ b.waiting
  gone : b.plainOf i = []
  suspect : a.entriesOf i ≠ [] ∨ a.suspect = true → b.suspect = true

theorem base_congr {a b : Place} (h : b.core = a.core) : b.base = a.base := by simp [base, h]

theorem entriesOf_eq_nil {i : Nat} {pl : Place} : pl.entriesOf i = [] ↔ ∀ d ∈ pl.directory, d.index ≠ i := by
  simp [entriesOf]

theorem Loose.removes {i : Nat} {a b : Place} (h : Loose i a b) (ha : a.removes i) : b.removes i := by
  rw [removes_iff, h.plain]; exact removes_iff.mp ha

theorem Revoked.of_filled {i : Nat} {a b c : Place} (h1 : Filled i a b) (h2 : Revoked i b c) : Revoked i a c := by
  have hh := holds_congr h1.entries
  exact ⟨h2.core.trans h1.core, fun x hx hc => h2.first x (h1.kept x hx) hc, fun h => h2.removes (hh.trans h),
    fun h => h2.gone (hh.trans h)⟩

theorem Revoked.loose {i : Nat} {a b c : Place} (h1 : Revoked i a b) (h2 : Loose i b c) : Revoked i a c :=
  ⟨h2.core.trans h1.core, fun x hx hc => h2.first x (h1.first x hx hc) hc, fun h => h2.removes (h1.removes h),
    fun h => h2.plain.trans (h1.gone h)⟩

theorem Overflowed.of_filled {i : Nat} {a b c : Place} (h1 : Filled i a b) (h2 : Overflowed i b c) : Overflowed i a c := by
  refine ⟨h2.base.trans (base_congr h1.core), h2.presentation.trans (congrArg Place.presentation h1.core :),
    fun x hx hc => h2.first x (h1.kept x hx) hc, h2.gone, fun h => h2.suspect (h.imp (fun h => h1.entries ▸ h) ?_)⟩
  exact fun h => (congrArg Place.suspect h1.core :).trans h

theorem Overflowed.loose {i : Nat} {a b c : Place} (h1 : Overflowed i a b) (h2 : Loose i b c) : Overflowed i a c :=
  ⟨(base_congr h2.core).trans h1.base, (congrArg Place.presentation h2.core :).trans h1.presentation,
    fun x hx hc => h2.first x (h1.first x hx hc) hc, h2.plain.trans h1.gone,
    fun h => (congrArg Place.suspect h2.core :).trans (h1.suspect h)⟩

/-- A place without an entry for the credential, marked cache-suspect. -/
theorem suspectNow_overflowed {i : Nat} {a b : Place} (h : b.core = a.core)
    (hf : ∀ x ∈ a.waiting, x.cmd.cls = 1 → x ∈ b.waiting) (hg : b.plainOf i = []) : Overflowed i a b.suspectNow := by
  have ho := suspectNow_offered b
  exact ⟨(base_congr ho.core).trans (base_congr h :), (congrArg Place.presentation ho.core :).trans (congrArg Place.presentation h :),
    fun x hx hc => ho.first x (hf x hx hc) hc, by rw [(ho.loose i).plain]; exact hg, fun _ => ho.suspect⟩

theorem dropDir_gone (i : Nat) (pl : Place) : (pl.dropDir (fun d => d.index == i)).plainOf i = [] := by
  rw [plainOf_eq_nil]
  intro d hd
  simpa using (List.mem_filter.mp hd).2

/-- R115: the entry that stood at a slot is in REMOVING. -/
theorem startRemove_revoked {i : Nat} {pl : Place} {d : DirEntry} (hd : d ∈ pl.directory) (hi : d.index = i)
    (hh : pl.holds i = true) : Revoked i pl (pl.startRemove d.slot i) := by
  have ho := offer_offered (.cacheRemove d.slot i) (pl.mapDir d.slot i (fun _ => .removing .owed))
  refine Revoked.loose (b := pl.mapDir d.slot i (fun _ => .removing .owed)) ?_ (ho.loose i)
  refine ⟨rfl, fun _ h _ => h, fun _ => ⟨{ d with state := .removing .owed }, ?_, hi, .owed, rfl⟩, fun h => by simp [hh] at h⟩
  exact List.mem_map.mpr ⟨d, hd, by simp [hi]⟩

end Place

namespace State

/-- What `revokeAt` does at its own place, and what it brings to the others. -/
theorem revokeAt_each {i : Nat} (p : Nat) {s : State} (hs : s.Canonical) (hi : s.NotActive i) :
    Place.Revoked i (s.place p) ((revokeAt i s p).place p) ∧
      ∀ q, q ≠ p → Place.Filled i (s.place q) ((revokeAt i s p).place q) := by
  have hmod (f : Place → Place) (h : Place.Revoked i (s.place p) (f (s.place p))) :
      Place.Revoked i (s.place p) ((s.modPlace p f).place p) ∧
        ∀ q, q ≠ p → Place.Filled i (s.place q) ((s.modPlace p f).place q) := by
    refine ⟨by rw [place_modPlace _ _ _ _ hs.places.1, if_pos rfl]; exact h, fun q hq => ?_⟩
    rw [place_modPlace _ _ _ _ hs.places.1, if_neg hq]
    exact .refl i _
  have hdrop (h : (s.place p).holds i = false) : Place.Revoked i (s.place p) ((s.place p).dropDir (fun e => e.index == i)) :=
    ⟨rfl, fun _ h _ => h, fun h' => by simp [h] at h', fun _ => Place.dropDir_gone i _⟩
  unfold revokeAt
  cases hf : (s.place p).directory.find? (fun d => d.index == i) with
  | none =>
    refine ⟨⟨rfl, fun _ h _ => h, fun h => by simp [Place.holds, hf] at h, fun _ => ?_⟩, fun q _ => .refl i _⟩
    rw [Place.plainOf_eq_nil]
    simpa using List.find?_eq_none.mp hf
  | some d =>
    obtain ⟨slot, j, x⟩ := d
    have hd := List.mem_of_find?_eq_some hf
    have hj : j = i := by simpa using List.find?_some hf
    have hh : (s.place p).holds i = x.mayHold := by simp [Place.holds, hf]
    have hstart := fun h => hmod _ (Place.startRemove_revoked hd hj (hh.trans h))
    cases x with
    | held => exact hstart rfl
    | removing st =>
      refine ⟨⟨rfl, fun _ h _ => h, fun _ => ⟨_, hd, hj, st, rfl⟩, fun h => ?_⟩, fun q _ => .refl i _⟩
      cases hh.symm.trans h
    | adding st =>
      cases st with
      | carried => exact hstart rfl
      | doubtful => exact hstart rfl
      | owed => exact hmod _ (hdrop hh)
      | queued =>
        obtain ⟨h1, h2⟩ := hmod _ (hdrop hh)
        have hch := dropDir_ch s p (fun e => e.index == i)
        obtain ⟨h3, h4⟩ := withdraw_each p (fun x => cls_of_isAdd (slot := slot) (i := i)) (hch.canonical hs)
          (hi.congr hch.creds_eq)
        exact ⟨h1.loose (h3 p), fun q hq => (h2 q hq).trans (h4 q hq)⟩

/-- The parts of the state that a revocation start may change beside the credential. -/
abbrev kMark : List Part := [.faults, .notices, .journal, .dirty, .places, .segs, .revocations]

theorem recordRevocation_mark (i : Nat) (c : Cred) (cause : Cause) (s : State) :
    Changes kMark s (s.recordRevocation i c cause) := by
  unfold recordRevocation
  simp only
  split
  · exact (Changes.up (logCard_ch ..)).comp (logCard_ch ..)
  · rename_i hne
    split
    · rename_i k hk
      refine (Changes.one (.revocations s _ (by decide) (Tab.write_rising k _) (fun ho e he => ?_))).comp (logCard_ch ..)
      rcases Tab.mem_write he with rfl | he
      · simpa [List.isEmpty_iff] using hne
      · exact ho e he
    · exact ((Changes.up (.fold (fun s p => overflowAt_ch i s p) _ s)).comp (logCard_ch ..)).comp (faultWith_ch ..)

/-- Parts 1 and 2 of a revocation start: the credential has left ACTIVE, its queued GRANTs are replaced (R114) and its
directory entries are removed or in REMOVING (R115), at every place. -/
def swept (i : Nat) (c : Cred) (cause : Cause) (s : State) : State :=
  let s2 := (s.setCred i { c with state := cause.newState }).replaceGrants i cause.deny
  s2.placeKeys.foldl (revokeAt i) s2

theorem revoke_eq {s : State} {i : Nat} {c : Cred} (hc : s.cred i = some c) (ha : c.state = .active) (cause : Cause) :
    s.revoke i cause = (s.swept i c cause).recordRevocation i c cause := by
  simp only [revoke, hc, ha, if_true, swept]

theorem revoke_of_not {s : State} {i : Nat} (h : s.NotActive i) (cause : Cause) : s.revoke i cause = s := by
  unfold revoke
  split
  · rfl
  · rename_i c hc
    rw [if_neg (h c hc)]

theorem swept_ch (i : Nat) (c : Cred) (cause : Cause) (s : State) :
    Changes [.creds, .dirty, .places, .segs] s (s.swept i c cause) :=
  ((Changes.up (setCred_ch ..)).comp (replaceGrants_ch ..)).comp (Changes.fold (fun s p => revokeAt_ch i s p) _ _)

theorem newState_ne (cause : Cause) : cause.newState ≠ .active := by cases cause <;> decide

theorem swept_creds (i : Nat) (c : Cred) (cause : Cause) (s : State) :
    (s.swept i c cause).creds = Tab.write s.creds i { c with state := cause.newState } := by
  have h1 := (replaceGrants_ch i cause.deny (s.setCred i { c with state := cause.newState })).creds_eq
  exact (Changes.fold (fun s p => revokeAt_ch i s p) _ _).creds_eq.trans h1

theorem notActive_of_write {s t : State} {i : Nat} {c : Cred} (h : t.creds = Tab.write s.creds i c)
    (hc : c.state ≠ .active) : t.NotActive i := by
  intro d hd
  simp only [cred, h, Tab.look_write_self, Option.some.injEq] at hd
  exact hd ▸ hc

theorem swept_notActive (i : Nat) (c : Cred) (cause : Cause) (s : State) : (s.swept i c cause).NotActive i :=
  notActive_of_write (swept_creds i c cause s) (newState_ne cause)

theorem replaceGrants_place {s : State} (hs : s.Canonical) (i : Nat) (why : DenyReason) (q : Nat) :
    (s.replaceGrants i why).place q = Place.replaceGrant i why (s.place q) := by
  have h := fold_modPlace (f := fun s p => s.modPlace p (Place.replaceGrant i why))
    (g := fun _ => Place.replaceGrant i why) (G := Canonical)
    (fun s p hs => (modPlace_ch s p (Place.replaceGrant_ok i why)).canonical hs)
    (fun s p q hs => place_modPlace s p q _ hs.places.1) (placeKeys_nodup hs) hs q
  refine h.trans ?_
  split
  · rfl
  · rename_i hq
    rw [place_of_not_key hq]
    rfl

theorem swept_place {s : State} (hs : s.Canonical) (i : Nat) (c : Cred) (cause : Cause) (q : Nat) :
    Place.Revoked i (Place.replaceGrant i cause.deny (s.place q)) ((s.swept i c cause).place q) := by
  have hch : Changes [.creds, .dirty, .places] s
      ((s.setCred i { c with state := cause.newState }).replaceGrants i cause.deny) :=
    (Changes.up (setCred_ch ..)).comp (replaceGrants_ch ..)
  have hpl : ((s.setCred i { c with state := cause.newState }).replaceGrants i cause.deny).place q
      = Place.replaceGrant i cause.deny (s.place q) := replaceGrants_place ((setCred_ch ..).canonical hs) i _ q
  have hcr : ((s.setCred i { c with state := cause.newState }).replaceGrants i cause.deny).NotActive i :=
    notActive_of_write (replaceGrants_ch i cause.deny _).creds_eq (newState_ne cause)
  rw [← hpl]
  unfold swept
  generalize (s.setCred i { c with state := cause.newState }).replaceGrants i cause.deny = u at hch hcr
  have hu := hch.canonical hs
  have h := fold_places (R := Place.Filled i) (A := Place.Revoked i) (G := fun s => s.Canonical ∧ s.NotActive i)
    (f := revokeAt i) (.refl i) .trans .of_filled (fun h1 h2 => h1.loose h2.loose)
    (fun s p h => ⟨(revokeAt_ch i s p).canonical h.1, h.2.congr (revokeAt_ch i s p).creds_eq⟩)
    (fun s p q h hq => (revokeAt_each p h.1 h.2).2 q hq) (fun s p h => (revokeAt_each p h.1 h.2).1)
    (placeKeys_nodup hu) ⟨hu, hcr⟩ q
  by_cases hq : q ∈ u.placeKeys
  · exact h.1 hq
  · have hr := place_of_not_key hq
    refine Place.Revoked.of_filled (h.2 hq) ⟨rfl, fun _ h _ => h, fun hh => ?_, fun _ => ?_⟩
    all_goals have he := (h.2 hq).entries
    · rw [Place.holds_congr he, hr] at hh; cases hh
    · rw [Place.plainOf_eq, he, hr]; rfl

theorem replaceGrant_directory (i : Nat) (why : DenyReason) (pl : Place) :
    (Place.replaceGrant i why pl).directory = pl.directory := by
  unfold Place.replaceGrant
  split
  · rfl
  · split <;> rfl

theorem replaceGrant_holds (i : Nat) (why : DenyReason) (pl : Place) :
    (Place.replaceGrant i why pl).holds i = pl.holds i := by
  simp only [Place.holds, replaceGrant_directory]

theorem replaceGrant_base (i : Nat) (why : DenyReason) (pl : Place) : (Place.replaceGrant i why pl).base = pl.base := by
  unfold Place.replaceGrant
  split
  · rfl
  · split <;> rfl

theorem mem_removingAt {s : State} {i p : Nat} : p ∈ s.removingAt i ↔ (s.place p).removes i := by
  simp only [removingAt, List.mem_filter, List.any_eq_true, Bool.and_eq_true, beq_iff_eq]
  constructor
  · rintro ⟨-, d, hd, hi, hst⟩
    refine ⟨d, hd, hi, ?_⟩
    cases hk : d.state <;> simp_all
  · rintro ⟨d, hd, hi, st, hst⟩
    refine ⟨mem_placeKeys (fun hr => ?_), d, hd, hi, by simp [hst]⟩
    rw [hr] at hd
    cases hd

theorem mem_holders {s : State} {i p : Nat} : p ∈ s.holders i ↔ (s.place p).holds i = true := by
  unfold holders
  rw [List.mem_filter]
  refine ⟨fun h => h.2, fun h => ⟨mem_placeKeys (fun hr => ?_), h⟩⟩
  rw [hr] at h
  cases h

/-- R116: the drops in REMOVING after the sweep are those that may hold the credential before it, in order. -/
theorem swept_removingAt {s : State} (hs : s.Canonical) (i : Nat) (c : Cred) (cause : Cause) :
    (s.swept i c cause).removingAt i = s.holders i := by
  refine rising_ext ((placeKeys_rising ((swept_ch i c cause s).canonical hs)).filter _)
    ((placeKeys_rising hs).filter _) (fun p => ?_)
  have hp := swept_place hs i c cause p
  rw [mem_removingAt, mem_holders, ← replaceGrant_holds i cause.deny]
  constructor
  · intro hr
    by_contra hh
    obtain ⟨d, hd, hi, -⟩ := hr
    exact Place.plainOf_eq_nil.mp (hp.gone (by simpa using hh)) d hd hi
  · exact hp.removes

/-! ## The record (R116, R117) -/

/-- R117, R121: the entry at one drop deleted, its removal withdrawn, and the drop marked. -/
theorem clearEntry_each {i : Nat} (p slot : Nat) {s : State} (hs : s.Canonical) (hi : s.NotActive i) :
    let t := ((s.modPlace p (Place.dropDir (fun e => e.index == i))).withdraw p (isRemove slot i)).markSuspect p
    (Place.Overflowed i (s.place p) (t.place p) ∧ (t.place p).suspect = true) ∧
      ∀ q, q ≠ p → Place.Filled i (s.place q) (t.place q) := by
  have hch := dropDir_ch s p (fun e => e.index == i)
  obtain ⟨h1, h2⟩ := withdraw_each p (fun x => cls_of_isRemove (slot := slot) (i := i)) (hch.canonical hs)
    (hi.congr hch.creds_eq)
  have hw := (withdraw_ch p (isRemove slot i) (s.modPlace p (Place.dropDir (fun e => e.index == i)))).canonical
    (hch.canonical hs)
  have h1 := h1 p
  rw [place_modPlace _ _ _ _ hs.places.1, if_pos rfl] at h1
  intro t
  have ht (q : Nat) : t.place q = if q = p then
      ((withdraw p (isRemove slot i) (s.modPlace p (Place.dropDir (fun e => e.index == i)))).place p).suspectNow
      else (withdraw p (isRemove slot i) (s.modPlace p (Place.dropDir (fun e => e.index == i)))).place q :=
    place_modPlace _ _ _ _ hw.places.1
  refine ⟨?_, fun q hq => ?_⟩
  · rw [ht, if_pos rfl]
    exact ⟨Place.suspectNow_overflowed h1.core h1.first (h1.plain.trans (Place.dropDir_gone i _)),
      (Place.suspectNow_offered _).suspect⟩
  · rw [ht, if_neg hq]
    have h := h2 q hq
    rwa [place_modPlace _ _ _ _ hs.places.1, if_neg hq] at h

theorem overflowAt_each {i : Nat} (p : Nat) {s : State} (hs : s.Canonical) (hi : s.NotActive i) :
    Place.Overflowed i (s.place p) ((overflowAt i s p).place p) ∧
      ∀ q, q ≠ p → Place.Filled i (s.place q) ((overflowAt i s p).place q) := by
  unfold overflowAt
  cases hf : (s.place p).directory.find? (fun d => d.index == i) with
  | none =>
    have he : (s.place p).entriesOf i = [] := List.filter_eq_nil_iff.mpr (List.find?_eq_none.mp hf)
    refine ⟨⟨rfl, rfl, fun _ h _ => h, by rw [Place.plainOf_eq, he]; rfl, fun h => ?_⟩, fun q _ => .refl i _⟩
    exact h.resolve_left (fun h => h he)
  | some d =>
    obtain ⟨h1, h2⟩ := clearEntry_each p d.slot hs hi
    exact ⟨h1.1, h2⟩

theorem overflow_place {i : Nat} {s : State} (hs : s.Canonical) (hi : s.NotActive i) {l : List Nat} (hl : l.Nodup) (q : Nat) :
    (q ∈ l → Place.Overflowed i (s.place q) ((l.foldl (overflowAt i) s).place q)) ∧
      (q ∉ l → Place.Filled i (s.place q) ((l.foldl (overflowAt i) s).place q)) :=
  fold_places (R := Place.Filled i) (A := Place.Overflowed i) (G := fun s => s.Canonical ∧ s.NotActive i)
    (f := overflowAt i) (.refl i) .trans .of_filled (fun h1 h2 => h1.loose h2.loose)
    (fun s p h => ⟨(overflowAt_ch i s p).canonical h.1, h.2.congr (overflowAt_ch i s p).creds_eq⟩)
    (fun s p q h hq => (overflowAt_each p h.1 h.2).2 q hq) (fun s p h => (overflowAt_each p h.1 h.2).1) hl ⟨hs, hi⟩ q

/-- The start record's draft (R116, R117). -/
def startLog (i : Nat) (c : Cred) (cause : Cause) (n : Nat) (overflow : Bool) (s : State) : State :=
  s.logCard cause.recKind (credSpot c) c.card (s.startDetail c i cause n overflow)

theorem startLog_ch (i : Nat) (c : Cred) (cause : Cause) (n : Nat) (overflow : Bool) (s : State) :
    Changes kLog s (s.startLog i c cause n overflow) := logCard_ch ..

theorem recordRevocation_none {s : State} {i : Nat} (h : s.removingAt i = []) (c : Cred) (cause : Cause) :
    s.recordRevocation i c cause = (s.startLog i c cause 0 false).logCard .revocationComplete .unit c.card
      ([byte (causeCode cause)] ++ le 2 i ++ le 2 0) := by
  simp [recordRevocation, h, startLog]

theorem recordRevocation_free {s : State} {i k : Nat} (h : s.removingAt i ≠ [])
    (hk : Tab.lowestFree s.revocations 32 = some k) (c : Cred) (cause : Cause) :
    s.recordRevocation i c cause = startLog i c cause (s.removingAt i).length false { s with
      revocations := Tab.write s.revocations k ⟨i, c.card, cause, s.removingAt i, s.newDeadline⟩ } := by
  simp [recordRevocation, h, hk, startLog]

theorem recordRevocation_full {s : State} {i : Nat} (h : s.removingAt i ≠ [])
    (hk : Tab.lowestFree s.revocations 32 = none) (c : Cred) (cause : Cause) :
    s.recordRevocation i c cause = (((s.removingAt i).foldl (overflowAt i) s).startLog i c cause
      (s.removingAt i).length true).faultWith .revocationOverflow 2 i := by
  simp [recordRevocation, h, hk, startLog]

/-- What the record of a revocation start does to the places: nothing, or the list-full fallback at the drops to confirm. -/
theorem recordRevocation_place {i : Nat} {s : State} (hs : s.Canonical) (hi : s.NotActive i) (c : Cred) (cause : Cause)
    (q : Nat) : (s.recordRevocation i c cause).place q = s.place q ∨
      (q ∈ s.removingAt i ∧ Place.Overflowed i (s.place q) ((s.recordRevocation i c cause).place q)) ∨
      (q ∉ s.removingAt i ∧ Place.Filled i (s.place q) ((s.recordRevocation i c cause).place q)) := by
  by_cases hd : s.removingAt i = []
  · rw [recordRevocation_none hd, place_congr (logCard_ch ..).places_eq, place_congr (startLog_ch ..).places_eq]
    exact .inl rfl
  · cases hk : Tab.lowestFree s.revocations 32 with
    | some k =>
      rw [recordRevocation_free hd hk, place_congr (startLog_ch ..).places_eq]
      exact .inl rfl
    | none =>
      rw [recordRevocation_full hd hk, place_congr (faultWith_ch ..).places_eq, place_congr (startLog_ch ..).places_eq]
      obtain ⟨h1, h2⟩ := overflow_place hs hi (l := s.removingAt i) ((placeKeys_nodup hs).filter _) q
      by_cases hq : q ∈ s.removingAt i
      · exact .inr (.inl ⟨hq, h1 hq⟩)
      · exact .inr (.inr ⟨hq, h2 hq⟩)

/-! ## What a revocation leaves -/

theorem revoke_creds {s : State} {i : Nat} {c : Cred} (hc : s.cred i = some c) (ha : c.state = .active) (cause : Cause) :
    (s.revoke i cause).creds = Tab.write s.creds i { c with state := cause.newState } := by
  rw [revoke_eq hc ha, (recordRevocation_mark ..).creds_eq, swept_creds]

theorem revoke_cred_ne (s : State) {i j : Nat} (cause : Cause) (h : j ≠ i) : (s.revoke i cause).cred j = s.cred j := by
  by_cases hn : s.NotActive i
  · rw [revoke_of_not hn]
  · simp only [NotActive, not_forall, not_not] at hn
    obtain ⟨c, hc, ha⟩ := hn
    rw [cred, revoke_creds hc ha, Tab.look_write_ne _ _ h, cred]

theorem revoke_cred_self {s : State} {i : Nat} {c : Cred} (hc : s.cred i = some c) (ha : c.state = .active)
    (cause : Cause) : (s.revoke i cause).cred i = some { c with state := cause.newState } := by
  rw [cred, revoke_creds hc ha, Tab.look_write_self]

/-- A revocation leaves everything of a place but its queue, directory, presentation and cache-suspect mark. -/
theorem revoke_base {s : State} (hs : s.Canonical) (i : Nat) (cause : Cause) (q : Nat) :
    ((s.revoke i cause).place q).base = (s.place q).base := by
  by_cases hn : s.NotActive i
  · rw [revoke_of_not hn]
  · simp only [NotActive, not_forall, not_not] at hn
    obtain ⟨c, hc, ha⟩ := hn
    have h1 := (Place.base_congr (swept_place hs i c cause q).core).trans (replaceGrant_base i cause.deny (s.place q))
    rw [revoke_eq hc ha]
    have hcan := (swept_ch i c cause s).canonical hs
    rcases recordRevocation_place hcan (swept_notActive i c cause s) c cause q with h | ⟨-, h⟩ | ⟨-, h⟩
    · rw [h]; exact h1
    · exact h.base.trans h1
    · exact (Place.base_congr h.core).trans h1

end State

end Sys2Proof.Machine
end

