-- ==== Sys2Proof/Proofs/Requests.lean ====
section
/-! How a request that is taken is answered, and how a payload of fixed fields is read. -/

set_option Elab.async false

namespace Sys2Proof.Machine

theorem le_length (w n : Nat) : (le w n).length = w := by
  induction w generalizing n with
  | zero => rfl
  | succ w ih => simp [le, ih]

theorem ofLe_le {w n : Nat} (h : n < 256 ^ w) : ofLe (le w n) = n := by
  induction w generalizing n with
  | zero => simp only [Nat.pow_zero, Nat.lt_one_iff] at h; simp [le, ofLe, h]
  | succ w ih =>
    have h2 : n / 256 < 256 ^ w := by rw [Nat.div_lt_iff_lt_mul (by decide)]; rwa [Nat.pow_succ] at h
    simp only [le, ofLe, ih h2, byte, BitVec.toNat_ofNat, Nat.reducePow]
    omega

/-- A field written as its number of bytes is read back, in front of what follows. -/
theorem readLayout_le {k w n : Nat} {ls : Layout} {rest r : List Byte} {f : Fields} (hn : n < 256 ^ w)
    (h : readLayout ls rest = .ok (f, r)) : readLayout ((k, w) :: ls) (le w n ++ rest) = .ok ((k, n) :: f, r) := by
  have hlen := le_length w n
  rw [readLayout, if_neg (by simp [hlen]), List.drop_left' hlen, h, List.take_left' hlen, ofLe_le hn]

theorem readPayload_ok {ls : Layout} {bs : List Byte} {f : Fields} (h : readLayout ls bs = .ok (f, [])) :
    readPayload ls bs = .ok f := by
  rw [readPayload, h]

theorem withFields_ok {ls : Layout} {q : Request} {f : Fields} (h : readLayout ls q.payload = .ok (f, [])) (k : Fields → Body)
    (s : State) : withFields ls q k s = k f s := by
  rw [withFields, readPayload_ok h]

/-- A request that is taken is examined and answered. -/
theorem runRequest_takes {s : State} {kind : Byte} {q : Request} (h : s.Takes kind q) (body : Body) :
    s.settle.runRequest kind q body = (body s).1.answer kind q (body s).2 := by
  obtain ⟨hdue, hserving, hfree, hmap, hform⟩ := h
  have hpre : s.preCheck kind q.form = none := by simp [State.preCheck, hmap, hform]
  rw [settle_eq s hdue, State.runRequest, if_pos hfree]
  rcases hserving with hst | hst <;> rw [hst] <;> simp only [State.execute, hpre]

/-- The lookup by card number finds an entry of that number. -/
theorem State.findCard_cred {s : State} (hs : s.Canonical) {card i : Nat} {c : Cred} (h : s.findCard card = some (i, c)) :
    s.cred i = some c ∧ c.card = card := by
  obtain ⟨h1, h2, -⟩ := (Tab.find?_iff hs.creds (fun c => c.card == card) i c).mp h
  exact ⟨h1, by simpa using h2⟩

end Sys2Proof.Machine
end

