-- ==== Sys2Proof/Proofs/Withdrawn.lean ====
section
/-! Revocation starts, expiry, deadlines and WITHDRAW: O22, O23 and O51. -/

set_option Elab.async false

namespace Sys2Proof.Machine

namespace State

theorem startDetail_tail (s : State) (c : Cred) (i : Nat) (cause : Cause) (n : Nat) (overflow : Bool) :
    ∃ tail, s.startDetail c i cause n overflow = [byte (causeCode cause)] ++ le 2 i ++ le 2 n ++ tail :=
  ⟨_, List.append_assoc _ _ _⟩

theorem startLog_ring {s : State} (h : s.journal.storable = true) (i : Nat) (c : Cred) (cause : Cause) (n : Nat)
    (overflow : Bool) : ∃ x tail, (s.startLog i c cause n overflow).journal.ring = s.journal.ring ++ [x] ∧
      x.kind = cause.recKind ∧ x.spot = credSpot c ∧ x.card = some c.card ∧
      x.detail = [byte (causeCode cause)] ++ le 2 i ++ le 2 n ++ tail := by
  obtain ⟨tail, ht⟩ := s.startDetail_tail c i cause n overflow
  exact ⟨_, tail, handOver_ring _ h, rfl, rfl, rfl, ht⟩

/-- R116: the start record comes first of what a revocation journals. -/
theorem recordRevocation_ring {s : State} (h : s.journal.storable = true) (i : Nat) (c : Cred) (cause : Cause) :
    ∃ x rest tail, (s.recordRevocation i c cause).journal.ring = s.journal.ring ++ x :: rest ∧
      x.kind = cause.recKind ∧ x.spot = credSpot c ∧ x.card = some c.card ∧
      x.detail = [byte (causeCode cause)] ++ le 2 i ++ le 2 (s.removingAt i).length ++ tail := by
  by_cases hd : s.removingAt i = []
  · obtain ⟨x, tail, hr, hx⟩ := startLog_ring h i c cause 0 false
    obtain ⟨rest, hrest⟩ := RingGrows.of_handOver (s.startLog i c cause 0 false)
      ⟨.revocationComplete, .unit, some c.card, none, [byte (causeCode cause)] ++ le 2 i ++ le 2 0, Marks.none, none⟩
    refine ⟨x, rest, tail, ?_, by rw [hd]; exact hx⟩
    rw [recordRevocation_none hd, logCard, hrest, hr, List.append_assoc, List.singleton_append]
  · cases hk : Tab.lowestFree s.revocations 32 with
    | some k =>
      obtain ⟨x, tail, hr, hx⟩ := startLog_ring (s := { s with
        revocations := Tab.write s.revocations k ⟨i, c.card, cause, s.removingAt i, s.newDeadline⟩ }) h i c cause
        (s.removingAt i).length false
      exact ⟨x, [], tail, by rw [recordRevocation_free hd hk]; exact hr, hx⟩
    | none =>
      have hj := (Changes.fold (fun s p => overflowAt_ch i s p) (s.removingAt i) s).journal_eq
      obtain ⟨x, tail, hr, hx⟩ := startLog_ring (s := (s.removingAt i).foldl (overflowAt i) s) (hj ▸ h) i c cause
        (s.removingAt i).length true
      refine ⟨x, [], tail, ?_, hx⟩
      rw [recordRevocation_full hd hk, faultWith, giveFault_journal, hr, hj]

/-- The Revocation List after a start, and the fault of a full one. -/
theorem recordRevocation_list {s : State} (hs : s.Canonical) (i : Nat) (c : Cred) (cause : Cause) :
    (s.removingAt i = [] → (s.recordRevocation i c cause).revocations = s.revocations) ∧
    (∀ k, s.removingAt i ≠ [] → Tab.lowestFree s.revocations 32 = some k →
      (s.recordRevocation i c cause).revocations =
        Tab.write s.revocations k ⟨i, c.card, cause, s.removingAt i, s.newDeadline⟩) ∧
    (s.removingAt i ≠ [] → Tab.lowestFree s.revocations 32 = none →
      (s.recordRevocation i c cause).revocations = s.revocations ∧
        ((s.recordRevocation i c cause).fault .revocationOverflow).set = true) := by
  refine ⟨fun hd => ?_, fun k hd hk => ?_, fun hd hk => ?_⟩
  · rw [recordRevocation_none hd, (logCard_ch ..).revocations_eq, (startLog_ch ..).revocations_eq]
  · rw [recordRevocation_free hd hk, (startLog_ch ..).revocations_eq]
  · have hch := Changes.fold (fun s p => overflowAt_ch i s p) (s.removingAt i) s
    have hch2 := startLog_ch i c cause (s.removingAt i).length true ((s.removingAt i).foldl (overflowAt i) s)
    rw [recordRevocation_full hd hk, (faultWith_ch ..).revocations_eq, hch2.revocations_eq, hch.revocations_eq]
    exact ⟨rfl, (giveFault_fault (hch2.canonical (hch.canonical hs)).faults _ .revocationOverflow _).1⟩

/-- A GRANT that is replaced, and its VERDICT where it waits. -/
theorem replaceGrant_presentation {i : Nat} {why : DenyReason} {pl : Place} {pr : Presentation}
    (h : pl.presentation = some pr) (hr : Place.replaceable i pr = true) :
    (Place.replaceGrant i why pl).presentation = some { pr with verdict := .deny why } ∧
      ∀ x ∈ pl.waiting, ∀ n, x.cmd = .verdict pr.tag (.grant n) →
        { x with cmd := .verdict pr.tag .denyRefused } ∈ (Place.replaceGrant i why pl).waiting := by
  simp only [Place.replaceGrant, h, hr, if_true, true_and]
  intro x hx n hn
  exact List.mem_map.mpr ⟨x, hx, by simp [Place.denyQueued, hn]⟩

/-- What a revocation start leaves of each place, from the place with its GRANT replaced: no entry where the lock cannot
hold the credential, and where it may, an entry in REMOVING or, with the list full, none and the mark. -/
theorem revoke_place {s : State} (hs : s.Canonical) {i : Nat} {c : Cred} (hc : s.cred i = some c) (ha : c.state = .active)
    (cause : Cause) (q : Nat) :
    let m := Place.replaceGrant i cause.deny (s.place q)
    let pl := (s.revoke i cause).place q
    pl.presentation = m.presentation ∧ (∀ x ∈ m.waiting, x.cmd.cls = 1 → x ∈ pl.waiting) ∧
      (q ∉ s.holders i → ∀ d ∈ pl.directory, d.index ≠ i) ∧
      (q ∈ s.holders i → (Tab.lowestFree s.revocations 32 ≠ none → pl.removes i) ∧
        (Tab.lowestFree s.revocations 32 = none → pl.suspect = true ∧ ∀ d ∈ pl.directory, d.index ≠ i)) := by
  intro m pl
  have hm := swept_place hs i c cause q
  have hcan := (swept_ch i c cause s).canonical hs
  have hlist : (s.swept i c cause).revocations = s.revocations := (swept_ch i c cause s).revocations_eq
  have hrem := swept_removingAt hs i c cause
  have hcase := recordRevocation_place hcan (swept_notActive i c cause s) c cause q
  have hpl : pl = ((s.swept i c cause).recordRevocation i c cause).place q := by rw [← revoke_eq hc ha]
  rw [← hpl, hrem] at hcase
  have hpres : ((s.swept i c cause).place q).presentation = m.presentation := (congrArg Place.presentation hm.core :)
  have hhold (hq : q ∈ s.holders i) : m.holds i = true := by rw [replaceGrant_holds]; exact mem_holders.mp hq
  have hfree (hq : q ∉ s.holders i) : m.holds i = false := by
    rw [replaceGrant_holds]; simpa [mem_holders] using hq
  by_cases hk : s.holders i = [] ∨ Tab.lowestFree s.revocations 32 ≠ none
  · have hsame : pl = (s.swept i c cause).place q := by
      rw [hpl]
      by_cases hd : (s.swept i c cause).removingAt i = []
      · rw [recordRevocation_none hd, place_congr (logCard_ch ..).places_eq, place_congr (startLog_ch ..).places_eq]
      · obtain ⟨k, hk⟩ := Option.ne_none_iff_exists'.mp (hk.resolve_left (hrem ▸ hd))
        rw [recordRevocation_free hd (hlist.symm ▸ hk), place_congr (startLog_ch ..).places_eq]
        rfl
    rw [hsame]
    refine ⟨hpres, hm.first, fun hq => Place.plainOf_eq_nil.mp (hm.gone (hfree hq)), fun hq => ?_⟩
    exact ⟨fun _ => hm.removes (hhold hq), fun hn => absurd hn (hk.resolve_left (List.ne_nil_of_mem hq))⟩
  · simp only [not_or, not_not] at hk
    obtain ⟨hne, hfull⟩ := hk
    have hover : (q ∈ s.holders i → Place.Overflowed i ((s.swept i c cause).place q) pl) ∧
        (q ∉ s.holders i → Place.Filled i ((s.swept i c cause).place q) pl) := by
      have h := overflow_place hcan (swept_notActive i c cause s) (l := s.holders i) ((placeKeys_nodup hs).filter _) q
      rw [hpl, recordRevocation_full (hrem.symm ▸ hne) (hlist.symm ▸ hfull), place_congr (faultWith_ch ..).places_eq,
        place_congr (startLog_ch ..).places_eq, hrem]
      exact h
    by_cases hq : q ∈ s.holders i
    · have ho := hover.1 hq
      refine ⟨ho.presentation.trans hpres, fun x hx h1 => ho.first x (hm.first x hx h1) h1, fun h => absurd hq h,
        fun _ => ⟨fun h => absurd hfull h, fun _ => ⟨ho.suspect (.inl fun he => ?_), Place.plainOf_eq_nil.mp ho.gone⟩⟩⟩
      obtain ⟨d, hd, hi, -⟩ := hm.removes (hhold hq)
      exact Place.entriesOf_eq_nil.mp he d hd hi
    · have hf := hover.2 hq
      refine ⟨(congrArg Place.presentation hf.core :).trans hpres, fun x hx h1 => hf.kept x (hm.first x hx h1),
        fun _ => ?_, fun h => absurd h hq⟩
      rw [← Place.entriesOf_eq_nil, hf.entries, Place.entriesOf_eq_nil]
      exact Place.plainOf_eq_nil.mp (hm.gone (hfree hq))

end State

end Sys2Proof.Machine
end

