-- ==== Sys2Proof/Proofs/RevocationRows.lean ====
section
/-! O22, O23 and O51: what a revocation start leaves, the rows of expiry and deadline, and WITHDRAW. -/

set_option Elab.async false

namespace Sys2Proof.Machine

namespace State

theorem revoke_rest {s : State} {i : Nat} {c : Cred} (hc : s.cred i = some c) (ha : c.state = .active) (cause : Cause) :
    let t := s.revoke i cause
    t = { s with
      creds := Tab.write s.creds i { c with state := cause.newState }, places := t.places, segs := t.segs
      revocations := t.revocations, journal := t.journal, trunk := { s.trunk with notices := t.trunk.notices }
      faults := t.faults, alarm := t.alarm, dirty := t.dirty, writer := t.writer } := by
  intro t
  have hch : Changes kRev s t := revoke_ch ..
  conv_lhs => rw [hch.frame]
  rw [hch.rooms_eq, hch.stays_eq, hch.charges_eq, revoke_creds hc ha]

/-- The Revocation List after a revocation, by the drops to confirm and the room in the list. -/
theorem revoke_list {s : State} (hs : s.Canonical) {i : Nat} {c : Cred} (hc : s.cred i = some c) (ha : c.state = .active)
    (cause : Cause) :
    (s.holders i = [] → (s.revoke i cause).revocations = s.revocations) ∧
    (∀ k, s.holders i ≠ [] → Tab.lowestFree s.revocations 32 = some k → (s.revoke i cause).revocations =
      Tab.write s.revocations k ⟨i, c.card, cause, s.holders i, s.newDeadline⟩) ∧
    (s.holders i ≠ [] → Tab.lowestFree s.revocations 32 = none → (s.revoke i cause).revocations = s.revocations ∧
      ((s.revoke i cause).fault .revocationOverflow).set = true) := by
  have hch := swept_ch i c cause s
  have hdl : (s.swept i c cause).newDeadline = s.newDeadline := by rw [newDeadline, hch.clock_eq, hch.policy_eq, newDeadline]
  have h := recordRevocation_list (hch.canonical hs) i c cause
  rwa [swept_removingAt hs, hch.revocations_eq, hdl, ← revoke_eq hc ha] at h

/-- R116: a revocation leaves the records that stand; one that is new is the lowest free one, with this revocation. -/
theorem revoke_record {s : State} (hs : s.Canonical) {i : Nat} {c : Cred} (hc : s.cred i = some c) (ha : c.state = .active)
    (cause : Cause) (k : Nat) :
    Tab.look (s.revoke i cause).revocations k = Tab.look s.revocations k ∨
      Tab.lowestFree s.revocations 32 = some k ∧ Tab.look s.revocations k = none ∧
        Tab.look (s.revoke i cause).revocations k = some ⟨i, c.card, cause, s.holders i, s.newDeadline⟩ := by
  obtain ⟨hnone, hfree, hfull⟩ := revoke_list hs hc ha cause
  by_cases hd : s.holders i = []
  · exact .inl (by rw [hnone hd])
  · cases hl : Tab.lowestFree s.revocations 32 with
    | none => exact .inl (by rw [(hfull hd hl).1])
    | some m =>
      rw [hfree m hd hl]
      by_cases hk : k = m
      · subst hk
        exact .inr ⟨rfl, (Tab.lowestFree_spec hl).1, Tab.look_write_self ..⟩
      · exact .inl (Tab.look_write_ne _ _ hk)

theorem holders_eq_nil {s : State} (hs : s.Canonical) {i : Nat} (h : ∀ e ∈ s.places, ∀ d ∈ e.2.directory, d.index ≠ i) :
    s.holders i = [] := by
  refine List.eq_nil_iff_forall_not_mem.mpr (fun p hp => ?_)
  obtain ⟨e, he, rfl⟩ := List.mem_map.mp (List.mem_filter.mp hp).1
  have hplace : s.place e.1 = e.2 := by simp [place, Tab.read, Tab.mem_look hs.places.1 he]
  have hh := mem_holders.mp hp
  rw [hplace, Place.holds, List.find?_eq_none.mpr (fun d hd => by simpa using h e he d hd)] at hh
  cases hh

end State

/-- Settles O22, from the lemmas on the four parts of a revocation start: the sweep, the list, the places, the record. -/
theorem revocationStarts : Obligations.RevocationStarts := by
  intro s i c cause hs hc ha t
  obtain ⟨hnone, hfree, hfull⟩ := State.revoke_list hs hc ha cause
  have hplace := State.revoke_place hs hc ha cause
  have hbase := fun p => State.revoke_base hs i cause p
  have hrecord := State.revoke_record hs hc ha cause
  refine ⟨State.revoke_rest hc ha cause, fun p => ?_, fun h => hnone (State.holders_eq_nil hs h), fun k r hr => ?_,
    fun k r hr hr' => ?_, hnone, fun k hd hk => ⟨hfree k hd hk, fun p hp => ?_⟩, fun hd hk => ?_,
    fun p hp => (hplace p).2.2.1 hp, fun p pr hpr hre => ?_, fun hj => ?_⟩
  · exact ⟨(congrArg Place.door (hbase p) :), (congrArg Place.doorState (hbase p) :), (congrArg Place.presence (hbase p) :)⟩
  · rcases hrecord k with h | ⟨-, h, -⟩
    · exact h.trans hr
    · rw [hr] at h; cases h
  · rcases hrecord k with h | ⟨hk, -, h⟩
    · rw [h, hr] at hr'; cases hr'
    · obtain rfl := Option.some.inj (h.symm.trans hr')
      exact ⟨hk, rfl, rfl, rfl, rfl⟩
  · exact ((hplace p).2.2.2 hp).1 (by simp [hk])
  · exact ⟨(hfull hd hk).1, (hfull hd hk).2, fun p hp => ((hplace p).2.2.2 hp).2 hk⟩
  · obtain ⟨hm, hwait⟩ := State.replaceGrant_presentation (why := cause.deny) hpr hre
    obtain ⟨h1, h2, -⟩ := hplace p
    exact ⟨h1.trans hm, fun x hx n hn => h2 _ (hwait x hx n hn) rfl⟩
  · have hch := State.swept_ch i c cause s
    obtain ⟨x, rest, tail, h⟩ := State.recordRevocation_ring (hch.journal_eq.symm ▸ hj) i c cause
    rw [← State.revoke_eq hc ha, State.swept_removingAt hs, hch.journal_eq] at h
    exact ⟨x, rest, tail, h⟩

namespace State

/-! ## A record's deadline (R121) -/

/-- Some index bears no entry. -/
theorem exists_notActive (s : State) : ∃ j, s.NotActive j := by
  obtain ⟨j, hj⟩ := Infinite.exists_notMem_finset (Tab.keys s.creds).toFinset
  refine ⟨j, fun c hc => absurd (Tab.look_isSome_iff.mp ?_) (by simpa using hj)⟩
  simp only [cred] at hc
  simp [hc]

/-- A withdrawal of commands that are not of class 1 leaves every place's core. -/
theorem withdraw_core (p : Nat) {c : LineCmd → Bool} (hc : ∀ x, c x = true → x.cls ≠ 1) {s : State} (hs : s.Canonical)
    (q : Nat) : ((withdraw p c s).place q).core = (s.place q).core := by
  obtain ⟨j, hj⟩ := s.exists_notActive
  exact ((withdraw_each p hc hs hj).1 q).core

theorem markSuspect_place {s : State} (hs : s.Canonical) (p q : Nat) :
    (s.markSuspect p).place q = if q = p then (s.place p).suspectNow else s.place q :=
  place_modPlace _ _ _ _ hs.places.1

theorem markSuspect_suspect {s : State} (hs : s.Canonical) (p q : Nat) (h : q = p ∨ (s.place q).suspect = true) :
    ((s.markSuspect p).place q).suspect = true := by
  rw [markSuspect_place hs]
  split
  · exact (Place.suspectNow_offered _).suspect
  · rename_i hq; exact h.resolve_left hq

/-- R121 step 1: the listed drop is marked, whatever the credential, and every mark stays. -/
theorem partialAt_suspect {i : Nat} {s : State} (hs : s.Canonical) (p q : Nat) (h : q = p ∨ (s.place q).suspect = true) :
    ((partialAt i s p).place q).suspect = true := by
  unfold partialAt
  split
  · exact markSuspect_suspect hs p q h
  · rename_i d _
    have hch := dropDir_ch s p (fun e => e.index == i)
    refine markSuspect_suspect ((withdraw_ch ..).canonical (hch.canonical hs)) p q (h.imp_right fun hq => ?_)
    have hcore := withdraw_core p (fun x => cls_of_isRemove (slot := d.slot) (i := i)) (hch.canonical hs) q
    refine (congrArg Place.suspect hcore :).trans ?_
    rw [place_modPlace _ _ _ _ hs.places.1]
    split
    · rename_i heq; subst heq; exact hq
    · exact hq

/-- R121 step 1 of a credential that is not ACTIVE: its entry at the listed drop is gone, and none comes. -/
theorem partialAt_gone {i : Nat} {s : State} (hs : s.Canonical) (hi : s.NotActive i) (p q : Nat)
    (h : q = p ∨ (s.place q).plainOf i = []) : ((partialAt i s p).place q).plainOf i = [] := by
  unfold partialAt
  cases hf : (s.place p).directory.find? (fun d => d.index == i) with
  | none =>
    have hp : (s.place p).plainOf i = [] := by
      rw [Place.plainOf_eq_nil]; simpa using List.find?_eq_none.mp hf
    simp only [markSuspect_place hs]
    split
    · rw [((Place.suspectNow_offered (s.place p)).loose i).plain]; exact hp
    · rename_i hq; exact h.resolve_left hq
  | some d =>
    obtain ⟨h1, h2⟩ := clearEntry_each p d.slot hs hi
    by_cases hq : q = p
    · subst hq; exact h1.1.gone
    · rw [(h2 q hq).loose.plain]; exact h.resolve_left hq

/-- What holds of a place once an operation has visited it, and stays, holds of every place that a fold visits. -/
theorem fold_visited {G : State → Prop} {P : Place → Prop} {f : State → Nat → State} (hG : ∀ s p, G s → G (f s p))
    (hf : ∀ s p q, G s → (q = p ∨ P (s.place q)) → P ((f s p).place q)) (l : List Nat) {s : State} (hs : G s) (q : Nat)
    (h : q ∈ l ∨ P (s.place q)) : P ((l.foldl f s).place q) := by
  induction l generalizing s with
  | nil => simpa using h
  | cons p l ih =>
    refine ih (hG s p hs) ?_
    rcases h with h | h
    · rcases List.mem_cons.mp h with h | h
      · exact .inr (hf s p q hs (.inl h))
      · exact .inl h
    · exact .inr (hf s p q hs (.inr h))

/-- R121: the deadline's end of a record. -/
theorem endPartial_spec {k : Nat} {r : Revocation} {s : State} (hs : s.Canonical) :
    let t := s.endPartial k r
    t.revocations = Tab.clear s.revocations k ∧ (t.fault .revocationPartial).set = true ∧
      (∀ p ∈ r.drops, (t.place p).suspect = true) ∧
      (s.NotActive r.index → ∀ p ∈ r.drops, (t.place p).plainOf r.index = []) ∧ t.creds = s.creds := by
  have hch : Changes kCache s (r.drops.foldl (partialAt r.index) s) := .fold (fun s p => partialAt_ch r.index s p) r.drops s
  have hsus := fun q h => fold_visited (G := Canonical) (P := fun pl => pl.suspect = true) (f := partialAt r.index)
    (fun s p h => (partialAt_ch r.index s p).canonical h) (fun s p q h => partialAt_suspect h p q) r.drops hs q (.inl h)
  have hgone := fun hi q h => fold_visited (G := fun s => s.Canonical ∧ s.NotActive r.index)
    (P := fun pl => pl.plainOf r.index = []) (f := partialAt r.index)
    (fun s p h => ⟨(partialAt_ch r.index s p).canonical h.1, h.2.congr (partialAt_ch r.index s p).creds_eq⟩)
    (fun s p q h => partialAt_gone h.1 h.2 p q) r.drops ⟨hs, hi⟩ q (.inl h)
  unfold endPartial
  generalize r.drops.foldl (partialAt r.index) s = u at hch hsus hgone
  simp only
  generalize hv : u.logCard .revocationPartial _ r.card _ = v
  have hv : Changes kLog u v := hv ▸ logCard_ch ..
  have hw := faultWith_ch .revocationPartial 2 r.index v
  generalize hwe : v.faultWith .revocationPartial 2 r.index = w
  have hset : (w.fault .revocationPartial).set = true := by
    rw [← hwe]
    exact (giveFault_fault (hv.canonical (hch.canonical hs)).faults _ .revocationPartial _).1
  rw [hwe] at hw
  have hpl (p : Nat) : w.place p = u.place p :=
    (place_congr hw.places_eq p).trans (place_congr hv.places_eq p)
  refine ⟨?_, hset, fun p hp => ?_, fun hi p hp => ?_, ?_⟩
  · rw [hw.revocations_eq, hv.revocations_eq, hch.revocations_eq]
  · exact (congrArg Place.suspect (hpl p)).trans (hsus p hp)
  · exact (congrArg (Place.plainOf r.index) (hpl p)).trans (hgone hi p hp)
  · exact (hw.creds_eq.trans hv.creds_eq).trans hch.creds_eq

end State

/-- Settles O23: each row by its condition, the deadline through `endPartial_spec`. -/
theorem expiryAndDeadlineRows : Obligations.ExpiryAndDeadlineRows := by
  refine ⟨fun i s c hd hc hrun ha he => ?_, fun i s hd h => ?_, fun k s r hd hs hr hle => ?_, fun k s hd h => ?_⟩
  · rw [exec_credentialExpiry, settle_eq s hd]
    simp [State.expireAt, hc, hrun, State.expires, ha, he]
  · rw [exec_credentialExpiry, settle_eq s hd]
    cases hc : s.cred i.val with
    | none => simp [State.expireAt, hc]
    | some c => rcases h c hc with h | h | h <;> simp [State.expireAt, hc, State.expires, h]
  · refine ⟨s.endPartial k.val r, ?_, ?_⟩
    · rw [exec_revocationDeadline, settle_eq s hd]
      simp [State.deadlineAt, hr, hle]
    · obtain ⟨h1, h2, h3, h4, h5⟩ := State.endPartial_spec (k := k.val) (r := r) hs
      have hch := endPartial_ch k.val r s
      refine ⟨h1, h2, h3, fun hi p hp => Place.plainOf_eq_nil.mp (h4 hi p hp), ?_⟩
      conv_lhs => rw [hch.frame]
      rw [h5, hch.rooms_eq, hch.stays_eq, hch.charges_eq]
  · rw [exec_revocationDeadline, settle_eq s hd]
    cases hr : Tab.look s.revocations k.val with
    | none => simp [State.deadlineAt, hr]
    | some r => simp [State.deadlineAt, hr, Nat.not_le.mpr (h r hr)]

/-- Settles O51, by what the lookup finds. -/
theorem cardsAreWithdrawn : Obligations.CardsAreWithdrawn := by
  refine ⟨fun q s card hq hs hpay hlt => ?_, by decide⟩
  have hread : readLayout [(1, 4)] q.payload = .ok ([(1, card)], []) := by
    rw [hpay, ← List.append_nil (le 4 card)]
    exact readLayout_le hlt rfl
  have hbody : withdrawBody q s = match s.findCard card with
      | none => (s, .refused .notFound [])
      | some (i, c) =>
        if c.state = .active then (s.revoke i .withdraw, .done (le 2 i))
        else (s, .done [byte (credStateCode c.state)]) := withFields_ok hread _ s
  rw [exec_withdraw, runRequest_takes hq, hbody]
  refine ⟨fun i c hf ha => ?_, fun i c hf ha => ?_, fun hf => by rw [hf]⟩
  · rw [hf]
    simp only [ha, if_true, true_and]
    exact State.revoke_cred_self (State.findCard_cred hs hf).1 ha .withdraw
  · rw [hf]
    simp only [ha, if_false]

end Sys2Proof.Machine
end

