-- ==== Sys2Proof/Proofs/Enrolled.lean ====
section
/-! O50: the entry that ENROL takes, the credential written there, and its additions at the drops (R6 to R10, R101, R106). -/

set_option Elab.async false

namespace Sys2Proof.Machine

/-! ## Frames of one part -/

theorem Changes.places_frame {s t : State} (h : Changes [.places] s t) : t = { s with places := t.places } := by
  conv_lhs => rw [h.frame]
  obtain ⟨hf, ha⟩ := h.faults_eq
  obtain ⟨hd, hw⟩ := h.dirty_eq
  rw [h.creds_eq, h.rooms_eq, h.segs_eq, h.revocations_eq, h.stays_eq, h.charges_eq, h.journal_eq, h.trunk_eq, hf, ha, hd, hw]

/-! ## Slots and additions at one place (R101, R106) -/

namespace Place

theorem slotFree_iff {pl : Place} {n : Nat} : pl.slotFree n = true ↔ ∀ d ∈ pl.directory, d.slot ≠ n := by
  simp [slotFree]

theorem slotFree_false_iff {pl : Place} {n : Nat} : pl.slotFree n = false ↔ ∃ d ∈ pl.directory, d.slot = n := by
  simp [slotFree]

theorem classSlots_find {f : Nat → Bool} {guest : Bool} {slot : Nat} : (classSlots guest).find? f = some slot ↔
    (if guest then slot < 6 else 6 ≤ slot ∧ slot < 16) ∧ f slot = true ∧
      ∀ n, n < slot → (if guest then n < 6 else 6 ≤ n) → f n = false := by
  cases guest with
  | true =>
    simp only [classSlots, if_true, List.find?_range_eq_some]
    constructor
    · rintro ⟨h1, h2, h3⟩
      exact ⟨by simpa using h2, h1, fun n hn _ => by simpa using h3 n hn⟩
    · rintro ⟨h1, h2, h3⟩
      exact ⟨h2, by simpa using h1, fun n hn => by simpa using h3 n hn (by omega)⟩
  | false =>
    simp only [classSlots, Bool.false_eq_true, if_false, List.find?_map, Option.map_eq_some_iff, List.find?_range_eq_some,
      Function.comp_apply, List.mem_range]
    constructor
    · rintro ⟨m, ⟨h1, h2, h3⟩, rfl⟩
      refine ⟨by omega, h1, fun n hn h6 => ?_⟩
      have := h3 (n - 6) (by omega)
      rw [Nat.sub_add_cancel h6] at this
      simpa using this
    · rintro ⟨⟨h1, h2⟩, h3, h4⟩
      refine ⟨slot - 6, ⟨by rwa [Nat.sub_add_cancel h1], by omega, fun j hj => ?_⟩, Nat.sub_add_cancel h1⟩
      simpa using h4 (j + 6) (by omega) (by omega)

/-- R101: the lowest free slot of a class. -/
theorem freeSlot_iff (pl : Place) (guest : Bool) (slot : Nat) : pl.freeSlot guest = some slot ↔
    (guest = true → pl.door.kindCode = 1) ∧ (if guest then slot < 6 else 6 ≤ slot ∧ slot < 16) ∧
    (∀ d ∈ pl.directory, d.slot ≠ slot) ∧
    ∀ n, n < slot → (if guest then n < 6 else 6 ≤ n) → ∃ d ∈ pl.directory, d.slot = n := by
  simp only [← slotFree_iff, ← slotFree_false_iff]
  unfold freeSlot
  split
  · rename_i h
    simp only [Bool.and_eq_true, bne_iff_ne, ne_eq] at h
    simp [h.1, h.2]
  · rename_i h
    simp only [Bool.and_eq_true, bne_iff_ne, ne_eq, not_and, not_not] at h
    simp only [classSlots_find]
    exact ⟨fun h' => ⟨h, h'⟩, fun h' => h'.2⟩

theorem LineCmd.cls_le (c : LineCmd) : c.cls ≤ 3 := by cases c <;> simp [LineCmd.cls]

theorem mem_insertDir {d x : DirEntry} {l : List DirEntry} : x ∈ insertDir d l ↔ x = d ∨ x ∈ l := by
  induction l with
  | nil => simp [insertDir]
  | cons y l ih =>
    simp only [insertDir]
    split
    · simp
    · simp only [List.mem_cons, ih]; tauto

/-- A CACHE_ADD evicts nothing: a full queue returns it. -/
theorem offer_cacheAdd (slot card i : Nat) (pl : Place) : pl.offer (.cacheAdd slot card i) =
    if pl.hasRoom then pl.enter (.cacheAdd slot card i) else pl.addStatus slot i .owed := by
  unfold offer
  split
  · rfl
  · split
    · rfl
    · rename_i v _
      rw [if_neg (show ¬(LineCmd.cacheAdd slot card i).cls < v.cmd.cls from Nat.not_lt.mpr (LineCmd.cls_le v.cmd))]
      rfl

/-- The entry that an addition makes, with the status that the offer of its command gives it. -/
theorem mem_addStatus_insert (slot i : Nat) (st : CmdStatus) (pl : Place) {w : List QEntry} :
    (⟨slot, i, .adding st⟩ : DirEntry) ∈ (({ pl with
      directory := insertDir ⟨slot, i, .adding .owed⟩ pl.directory, waiting := w } : Place).addStatus slot i st).directory :=
  List.mem_map.mpr ⟨⟨slot, i, .adding .owed⟩, mem_insertDir.mpr (.inl rfl), by simp⟩

theorem addEntry_entry (pl : Place) (slot i card : Nat) : ∃ d ∈ (addEntry slot i card pl).directory,
    d.slot = slot ∧ d.index = i ∧
    (pl.queueLen < 4 → d.state = .adding .queued ∧ ∃ x ∈ (addEntry slot i card pl).waiting, x.cmd = .cacheAdd slot card i) ∧
    (4 ≤ pl.queueLen → d.state = .adding .owed ∧ (addEntry slot i card pl).queue = pl.queue) := by
  rw [addEntry, offer_cacheAdd]
  generalize hu : ({ pl with directory := insertDir ⟨slot, i, .adding .owed⟩ pl.directory } : Place) = u
  have hroom : u.hasRoom = decide (pl.queueLen < 4) := by subst hu; rfl
  by_cases h : pl.queueLen < 4
  · rw [if_pos (by simpa [hroom] using h)]
    subst hu
    refine ⟨_, mem_addStatus_insert slot i .queued pl, rfl, rfl, fun _ => ⟨rfl, ?_⟩, fun h' => by omega⟩
    exact ⟨_, mem_insertEntry.mpr (.inl rfl), rfl⟩
  · rw [if_neg (by simpa [hroom] using h)]
    subst hu
    exact ⟨_, mem_addStatus_insert slot i .owed pl, rfl, rfl, fun h' => by omega, fun _ => ⟨rfl, rfl⟩⟩

/-- R102: a plan names a lock only. -/
theorem isLocked_of_inPlan {s : State} {guest : Bool} {d : DoorRec} {c : Cred} (h : s.inPlan guest d c = true) :
    d.isLocked = true := by
  unfold State.inPlan at h
  split at h
  · unfold State.planGuest at h
    split at h
    · rfl
    · cases h
  · unfold State.planOther at h
    simp only [Bool.and_eq_true] at h
    exact h.1.1

end Place

namespace State

/-- R106: what handing over a credential makes of a place. -/
def added (s : State) (i : Nat) (c : Cred) (pl : Place) : Place :=
  let guest := c.kind == .guest
  if pl.reachable && s.inPlan guest pl.door c && !pl.namesIndex i then
    match pl.freeSlot guest with
    | some slot => Place.addEntry slot i c.card pl
    | none => pl
  else pl

/-- R106: the conditions under which a place takes a credential. -/
def TakesCred (s : State) (i : Nat) (c : Cred) (pl : Place) : Prop :=
  pl.reachable = true ∧ s.inPlan (c.kind == .guest) pl.door c = true ∧ pl.namesIndex i = false

section
variable {s : State} {i : Nat} {c : Cred} {pl : Place}

theorem added_slot {slot : Nat} (h : s.TakesCred i c pl) (hs : pl.freeSlot (c.kind == .guest) = some slot) :
    s.added i c pl = Place.addEntry slot i c.card pl := by
  obtain ⟨h1, h2, h3⟩ := h
  simp [added, h1, h2, h3, hs]

theorem added_full (h : s.TakesCred i c pl) (hs : pl.freeSlot (c.kind == .guest) = none) : s.added i c pl = pl := by
  obtain ⟨h1, h2, h3⟩ := h
  simp [added, h1, h2, h3, hs]

theorem added_of_not (h : ¬s.TakesCred i c pl) : s.added i c pl = pl := by
  refine if_neg (fun h' => h ?_)
  simp only [Bool.and_eq_true, Bool.not_eq_true', and_assoc] at h'
  exact h'

end

theorem inPlan_congr {s t : State} (h : t.rooms = s.rooms) (guest : Bool) (d : DoorRec) (c : Cred) :
    t.inPlan guest d c = s.inPlan guest d c := by
  have ha (r : Nat) : t.accepted r = s.accepted r := by simp only [accepted, findRoom, h]
  unfold inPlan planGuest
  simp only [ha]

theorem added_congr {s t : State} (h : t.rooms = s.rooms) (i : Nat) (c : Cred) (pl : Place) :
    t.added i c pl = s.added i c pl := by
  unfold added
  simp only [inPlan_congr h]

theorem addAt_eq {s : State} {i : Nat} {c : Cred} (hc : s.cred i = some c) (p : Nat) :
    addAt i s p = s ∧ s.added i c (s.place p) = s.place p ∨ addAt i s p = s.modPlace p (s.added i c) := by
  simp only [addAt, hc, added, modPlace]
  split
  · cases (s.place p).freeSlot (c.kind == .guest) with
    | some slot => exact .inr rfl
    | none => exact .inl ⟨rfl, rfl⟩
  · exact .inl ⟨rfl, rfl⟩

theorem addAt_place {s : State} (hs : s.Canonical) {i : Nat} {c : Cred} (hc : s.cred i = some c) (p q : Nat) :
    (addAt i s p).place q = if q = p then s.added i c (s.place p) else s.place q := by
  rcases addAt_eq hc p with ⟨h, hsame⟩ | h
  · rw [h]
    split
    · rename_i hq; subst hq; exact hsame.symm
    · rfl
  · rw [h, place_modPlace _ _ _ _ hs.places.1]

/-- R106: every place after a hand-over: the conditions name no place but the locks that the table lists. -/
theorem handCredential_place {s : State} (hs : s.Canonical) {i : Nat} {c : Cred} (hc : s.cred i = some c) (p : Nat) :
    (s.handCredential i).place p = s.added i c (s.place p) := by
  have h := fold_modPlace (f := addAt i) (g := fun _ => s.added i c)
    (G := fun t => t.Canonical ∧ t.cred i = some c ∧ t.rooms = s.rooms)
    (fun t p h => by
      have hch := addAt_ch i t p
      exact ⟨hch.canonical h.1, by rw [cred, hch.creds_eq]; exact h.2.1, hch.rooms_eq.trans h.2.2⟩)
    (fun t p q h => by rw [addAt_place h.1 h.2.1, added_congr h.2.2])
    ((placeKeys_nodup hs).filter (fun p => (s.place p).door.isLocked)) ⟨hs, hc, rfl⟩ p
  refine h.trans ?_
  split
  · rfl
  · rename_i hp
    unfold added
    simp only
    split
    · rename_i htakes
      simp only [Bool.and_eq_true] at htakes
      obtain ⟨⟨hreach, hplan⟩, -⟩ := htakes
      refine absurd (List.mem_filter.mpr ⟨mem_placeKeys (fun hr => ?_), Place.isLocked_of_inPlan hplan⟩) hp
      rw [hr] at hreach
      revert hreach
      decide
    · rfl

theorem addAt_congr {s t : State} (hc : t.creds = s.creds) (hr : t.rooms = s.rooms) (hp : t.places = s.places) (i p : Nat) :
    (addAt i t p).places = (addAt i s p).places := by
  have hcred : t.cred i = s.cred i := by simp only [cred, hc]
  have hplace := place_congr hp p
  unfold addAt
  rw [hcred]
  split
  · exact hp
  · simp only [hplace, inPlan_congr hr]
    split
    · split
      · simp only [modPlace, setPlace, hp, hplace]
      · exact hp
    · exact hp

/-- The hand-over reads only the Credential Table, the Room Table and the places. -/
theorem handCredential_congr {s t : State} (hc : t.creds = s.creds) (hr : t.rooms = s.rooms) (hp : t.places = s.places)
    (i : Nat) : (t.handCredential i).places = (s.handCredential i).places := by
  have hkeys : t.placeKeys.filter (fun p => (t.place p).door.isLocked) = s.placeKeys.filter (fun p => (s.place p).door.isLocked) := by
    simp only [placeKeys, place_congr hp, hp]
  unfold handCredential
  rw [hkeys]
  generalize s.placeKeys.filter (fun p => (s.place p).door.isLocked) = l
  induction l generalizing s t with
  | nil => exact hp
  | cons p l ih =>
    have h1 := addAt_ch i s p
    have h2 := addAt_ch i t p
    exact ih (h2.creds_eq.trans (hc.trans h1.creds_eq.symm)) (h2.rooms_eq.trans (hr.trans h1.rooms_eq.symm))
      (addAt_congr hc hr hp i p)
      (by simp only [placeKeys, place_congr (addAt_congr hc hr hp i p), addAt_congr hc hr hp i p])

/-! ## The credential written -/

theorem writeCred_creds (i : Nat) (c : Cred) (s : State) : (s.writeCred i c).creds = Tab.write s.creds i c := by
  rw [writeCred, (handCredential_ch ..).creds_eq, (logCard_ch ..).creds_eq]
  rfl

theorem writeCred_places (i : Nat) (c : Cred) (s : State) :
    (s.writeCred i c).places = ({ s with creds := Tab.write s.creds i c }.handCredential i).places := by
  have h := logCard_ch .enrolled (credSpot c) c.card (le 2 i ++ [byte (credKindCode c.kind)]) (s.setCred i c)
  exact (handCredential_congr h.creds_eq h.rooms_eq h.places_eq i).trans (handCredential_congr (t := s.setCred i c) (s := { s with creds := Tab.write s.creds i c }) rfl rfl rfl i)

theorem writeCred_journal (i : Nat) (c : Cred) (s : State) : (s.writeCred i c).journal =
    ((s.setCred i c).logCard .enrolled (credSpot c) c.card (le 2 i ++ [byte (credKindCode c.kind)])).journal :=
  (handCredential_ch ..).journal_eq

theorem writeCred_dirty (i : Nat) (c : Cred) {s : State} {b : Nat} (h : b = credBlock i ∨ b ∈ s.dirty) :
    b ∈ (s.writeCred i c).dirty := by
  rw [writeCred, (handCredential_ch ..).dirty_eq.1]
  exact dirty_handOver _ (dirty_markDirty.mpr h)

/-! ## The place of a credential -/

/-- R10: with no EMPTY entry, the lowest that is neither ACTIVE nor referred to. -/
theorem freeCred_of_full {s : State} (hs : s.Canonical) (hf : Tab.lowestFree s.creds 4096 = none) {i : Nat} {old : Cred}
    (ho : s.cred i = some old) (ha : old.state ≠ .active) (hr : s.referenced i = false)
    (hmin : ∀ j d, j < i → s.cred j = some d → d.state = .active ∨ s.referenced j = true) : s.freeCred = some i := by
  have h := (Tab.find?_entry_iff hs.creds (fun e => e.2.state != .active && !s.referenced e.1) i old).mpr
    ⟨ho, by simp [ha, hr], fun j d hj hd => by rcases hmin j d hj hd with h | h <;> simp [h]⟩
  unfold freeCred
  rw [hf, h]
  rfl

theorem freeCred_none {s : State} (hs : s.Canonical) (hf : Tab.lowestFree s.creds 4096 = none)
    (h : ∀ j d, s.cred j = some d → d.state = .active ∨ s.referenced j = true) : s.freeCred = none := by
  have h := (Tab.find?_entry_none_iff hs.creds (fun e => e.2.state != .active && !s.referenced e.1)).mpr
    (fun j d hd => by rcases h j d hd with h | h <;> simp [h])
  unfold freeCred
  rw [hf, h]
  rfl

theorem placeCred_free {s : State} {card i : Nat} (hf : s.findCard card = none) (hi : s.freeCred = some i) (replace : Bool) :
    s.placeCred card replace = (s, .ok i) := by
  unfold placeCred
  rw [hf, hi]

theorem placeCred_full {s : State} {card : Nat} (hf : s.findCard card = none) (hi : s.freeCred = none) (replace : Bool) :
    s.placeCred card replace = (s, .error .tableFull) := by
  unfold placeCred
  rw [hf, hi]

theorem placeCred_active {s : State} {card i : Nat} {old : Cred} (hf : s.findCard card = some (i, old))
    (ha : old.state = .active) : s.placeCred card false = (s, .error .duplicate) ∧
      s.placeCred card true = (s.revoke i .replace,
        if (s.revoke i .replace).referenced i then .error .revoking else .ok i) := by
  unfold placeCred
  simp only [hf, ha, if_true, Bool.false_eq_true, if_false, true_and]
  split <;> rfl

theorem placeCred_ended {s : State} {card i : Nat} {old : Cred} (hf : s.findCard card = some (i, old))
    (ha : old.state ≠ .active) (replace : Bool) :
    s.placeCred card replace = (s, if s.referenced i then .error .revoking else .ok i) := by
  unfold placeCred
  simp only [hf, ha, if_false]
  split <;> rfl

end State

/-- The answer to an ENROL of a card that has its place, or the refusal of one that has none. -/
def State.placed (q : Request) (c : CredIn) : State × Except Reason Nat → State
  | (u, .error r) => u.answer 0x03 q (.refused r [])
  | (u, .ok i) => (u.writeCred i c.cred).answer 0x03 q (.done (le 2 i ++ flag c.dropped))

/-- The two rows of ENROL, behind the payload and the room checks. -/
theorem exec_enrol_placed {q : Request} {s : State} {f : Fields} {replace : Bool} {c : CredIn} (hq : s.Takes 0x03 q)
    (hread : readEnrol q.payload = .ok f) (hcheck : checkEnrol f = .ok (replace, c)) (hroom : s.roomChecks c.cred = none) :
    exec (.enrol q) s = .next (State.placed q c (s.placeCred c.cred.card false)) ∧
      exec (.enrolReplace q) s = .next (State.placed q c (s.placeCred c.cred.card true)) := by
  have hbody (r : Bool) : (enrolBody q r s).1.answer 0x03 q (enrolBody q r s).2 =
      State.placed q c (s.placeCred c.cred.card r) := by
    simp only [enrolBody, hread, hcheck, enrolStages, hroom]
    rcases s.placeCred c.cred.card r with ⟨u, _ | i⟩ <;> rfl
  rw [exec_enrol, exec_enrolReplace, runRequest_takes hq, runRequest_takes hq, hbody, hbody]
  exact ⟨rfl, rfl⟩

/-- Settles O50: the rows by what the table holds of the card, and the additions place by place. -/
theorem cardsAreEnrolled : Obligations.CardsAreEnrolled := by
  refine ⟨fun q s f replace c hq hs hread hcheck => ⟨fun r hr => ?_, fun hroom => ?_⟩, fun s i c hs => ?_,
    fun s i p c hs hc => ?_, Place.addEntry_entry, Place.freeSlot_iff, fun q s n hq h => ?_⟩
  · have hbody (b : Bool) : enrolBody q b s = (s, .refused r []) := by simp only [enrolBody, hread, hcheck, enrolStages, hr]
    rw [exec_enrol, exec_enrolReplace, runRequest_takes hq, runRequest_takes hq, hbody, hbody]
    exact ⟨rfl, rfl⟩
  · intro written
    obtain ⟨he, hr⟩ := exec_enrol_placed hq hread hcheck hroom
    have hrow {x y} (h1 : s.placeCred c.cred.card false = x) (h2 : s.placeCred c.cred.card true = y) :
        exec (.enrol q) s = .next (State.placed q c x) ∧ exec (.enrolReplace q) s = .next (State.placed q c y) :=
      ⟨h1 ▸ he, h2 ▸ hr⟩
    have hfree (i : Nat) (hf : s.findCard c.cred.card = none) (hi : s.freeCred = some i) :
        exec (.enrol q) s = .next (written s i) ∧ exec (.enrolReplace q) s = .next (written s i) :=
      hrow (State.placeCred_free hf hi false) (State.placeCred_free hf hi true)
    refine ⟨fun i hf hl => hfree i hf ?_, fun i old hf hl ho ha hr hmin => hfree i hf ?_, fun _ hl h => ?_,
      fun hf hi => ?_, fun i old hf ha => ?_, fun i old hf ha => ?_⟩
    · unfold State.freeCred
      rw [hl]
    · exact State.freeCred_of_full hs hl ho ha hr hmin
    · exact State.freeCred_none hs hl h
    · exact hrow (State.placeCred_full hf hi false) (State.placeCred_full hf hi true)
    · obtain ⟨h1, h2⟩ := State.placeCred_active hf ha
      refine ⟨(hrow h1 h2).1, fun hr => ?_, fun hr => ?_⟩
      · rw [hr, if_pos rfl] at h2
        exact (hrow h1 h2).2
      · rw [hr, if_neg Bool.false_ne_true] at h2
        exact (hrow h1 h2).2
    · have h := State.placeCred_ended hf ha
      refine ⟨fun hr => ?_, fun hr => ?_⟩
      · simp only [hr, if_true] at h
        exact hrow (h false) (h true)
      · simp only [hr, Bool.false_eq_true, if_false] at h
        exact hrow (h false) (h true)
  · refine ⟨?_, fun j hj => ?_, State.writeCred_dirty i c (.inl rfl), State.writeCred_places i c s, fun hj => ?_⟩
    · rw [State.cred, State.writeCred_creds, Tab.look_write_self]
    · rw [State.cred, State.writeCred_creds, Tab.look_write_ne _ _ hj, State.cred]
    · exact ⟨_, (congrArg Journal.ring (State.writeCred_journal i c s)).trans
        (State.handOver_ring (s := s.setCred i c) _ hj), rfl, rfl⟩
  · intro pl guest takes
    have hplace := State.handCredential_place hs hc p
    rw [hplace]
    exact ⟨fun slot ht hsl => State.added_slot ht hsl, fun ht hsl => State.added_full ht hsl, State.added_of_not,
      (handCredential_ch i s).places_frame⟩
  · have hbody (b : Bool) : enrolBody q b s = (s, badField n) := by
      unfold enrolBody
      rcases h with h | ⟨f, h1, h2⟩
      · rw [h]
      · rw [h1]
        simp only [h2]
    rw [exec_enrol, exec_enrolReplace, runRequest_takes hq, runRequest_takes hq, hbody, hbody]
    exact ⟨rfl, rfl⟩

end Sys2Proof.Machine
end

