-- ==== Sys2Proof/Proofs/StayTable.lean ====
section
/-! The Stay Table and the Room Table after one entry is written: what a search by number finds, and the room entry that
an OPEN stay needs (R18 to R20, R127). -/

set_option Elab.async false

namespace Sys2Proof.Machine

section
variable {α : Type} {t : Tab α} {f : α → Bool} {i : Nat} {x y : α}

/-- The entry that a search finds is found again once another that qualifies is written in its place. -/
theorem Tab.find?_write_same (h : Tab.Rising t) (hx : t.find? (fun e => f e.2) = some (i, x)) (hy : f y = true) :
    (Tab.write t i y).find? (fun e => f e.2) = some (i, y) := by
  obtain ⟨-, -, hmin⟩ := (Tab.find?_iff h f i x).mp hx
  refine (Tab.find?_iff (Tab.write_rising i y h) f i y).mpr ⟨Tab.look_write_self .., hy, fun j z hj hz => ?_⟩
  rw [Tab.look_write_ne _ _ (Nat.ne_of_lt hj)] at hz
  exact hmin j z hj hz

/-- An entry that does not qualify, written where none that qualifies stood, leaves a search. -/
theorem Tab.find?_write_other (h : Tab.Rising t) (hold : ∀ z, Tab.look t i = some z → f z = false) (hy : f y = false) :
    (Tab.write t i y).find? (fun e => f e.2) = t.find? (fun e => f e.2) := by
  have hlook (j : Nat) (z : α) (hz : f z = true) : Tab.look (Tab.write t i y) j = some z ↔ Tab.look t j = some z := by
    by_cases hj : j = i
    · subst hj
      rw [Tab.look_write_self]
      constructor
      · rintro ⟨rfl⟩; simp [hy] at hz
      · intro h'; simp [hold z h'] at hz
    · rw [Tab.look_write_ne _ _ hj]
  have hnone (j : Nat) : (∀ z, Tab.look (Tab.write t i y) j = some z → f z = false) ↔
      ∀ z, Tab.look t j = some z → f z = false := by
    refine forall_congr' (fun z => ?_)
    cases hz : f z with
    | true => simp [hlook j z hz]
    | false => simp
  refine Option.ext (fun e => ?_)
  obtain ⟨k, z⟩ := e
  rw [Tab.find?_iff (Tab.write_rising i y h) f k z, Tab.find?_iff h f k z]
  constructor
  · rintro ⟨h1, h2, h3⟩
    exact ⟨(hlook k z h2).mp h1, h2, fun j w hj => (hnone j).mp (fun w => h3 j w hj) w⟩
  · rintro ⟨h1, h2, h3⟩
    exact ⟨(hlook k z h2).mpr h1, h2, fun j w hj => (hnone j).mpr (fun w => h3 j w hj) w⟩

/-- Where a search finds nothing, it finds an entry that is then written and qualifies. -/
theorem Tab.find?_write_new (h : Tab.Rising t) (hnone : t.find? (fun e => f e.2) = none) (hy : f y = true) :
    (Tab.write t i y).find? (fun e => f e.2) = some (i, y) := by
  have hno := (Tab.find?_none_iff h f).mp hnone
  refine (Tab.find?_iff (Tab.write_rising i y h) f i y).mpr ⟨Tab.look_write_self .., hy, fun j z hj hz => ?_⟩
  rw [Tab.look_write_ne _ _ (Nat.ne_of_lt hj)] at hz
  exact hno j z hz

end

namespace State

theorem findStay_look {s : State} (hs : s.Canonical) {n i : Nat} {x : Stay} (h : s.findStay n = some (i, x)) :
    Tab.look s.stays i = some x ∧ x.number = n := by
  obtain ⟨h1, h2, -⟩ := (Tab.find?_iff hs.stays (fun x => x.number == n) i x).mp h
  exact ⟨h1, by simpa using h2⟩

theorem findRoom_look {s : State} (hs : s.Canonical) {r i : Nat} {x : Room} (h : s.findRoom r = some (i, x)) :
    Tab.look s.rooms i = some x ∧ x.room = r := by
  obtain ⟨h1, h2, -⟩ := (Tab.find?_iff hs.rooms (fun x => x.room == r) i x).mp h
  exact ⟨h1, by simpa using h2⟩

theorem findStay_congr {s t : State} (h : t.stays = s.stays) (n : Nat) : t.findStay n = s.findStay n := by
  simp only [findStay, h]

theorem findRoom_congr {s t : State} (h : t.rooms = s.rooms) (r : Nat) : t.findRoom r = s.findRoom r := by
  simp only [findRoom, h]

theorem roomPlace_congr {s t : State} (h : t.places = s.places) (k r : Nat) : t.roomPlace k r = s.roomPlace k r := by
  simp only [roomPlace, placeKeys, place_congr h, h]

theorem roomNamed_iff {s : State} (hs : s.Canonical) {r : Nat} :
    s.roomNamed r = true ↔ ∃ p, (s.place p).door.room? = some r := by
  rw [roomNamed, Tab.any_iff hs.places.1]
  constructor
  · rintro ⟨p, pl, hp, hr⟩
    exact ⟨p, by simpa [place, Tab.read, hp] using hr⟩
  · rintro ⟨p, hr⟩
    have hk : p ∈ Tab.keys s.places := mem_placeKeys (fun h => by rw [h] at hr; cases hr)
    obtain ⟨pl, hp⟩ := Option.isSome_iff_exists.mp (Tab.look_isSome_iff.mpr hk)
    exact ⟨p, pl, hp, by simpa [place, Tab.read, hp] using hr⟩

theorem roomNamed_congr {s t : State} (hs : s.Canonical) (ht : t.Canonical) (h : ∀ p, (t.place p).door = (s.place p).door)
    (r : Nat) : t.roomNamed r = s.roomNamed r := by
  rw [Bool.eq_iff_iff, roomNamed_iff ht, roomNamed_iff hs]
  simp only [h]

section
variable {s t : State} {n r i : Nat}

theorem findStay_write_same {x y : Stay} (hs : s.Canonical) (ht : t.stays = Tab.write s.stays i y)
    (h : s.findStay n = some (i, x)) (hy : y.number = n) : t.findStay n = some (i, y) := by
  rw [findStay, ht]
  exact Tab.find?_write_same (f := fun x : Stay => x.number == n) hs.stays h (by simp [hy])

variable {x y : Room}

theorem findRoom_write_same (hs : s.Canonical) (ht : t.rooms = Tab.write s.rooms i y) (h : s.findRoom r = some (i, x))
    (hy : y.room = r) : t.findRoom r = some (i, y) := by
  rw [findRoom, ht]
  exact Tab.find?_write_same (f := fun x : Room => x.room == r) hs.rooms h (by simp [hy])

theorem findRoom_write_new (hs : s.Canonical) (ht : t.rooms = Tab.write s.rooms i y) (h : s.findRoom r = none)
    (hy : y.room = r) : t.findRoom r = some (i, y) := by
  rw [findRoom, ht]
  exact Tab.find?_write_new (f := fun x : Room => x.room == r) hs.rooms h (by simp [hy])

theorem findRoom_write_other (hs : s.Canonical) (ht : t.rooms = Tab.write s.rooms i y)
    (hold : ∀ z, Tab.look s.rooms i = some z → z.room ≠ r) (hy : y.room ≠ r) : t.findRoom r = s.findRoom r := by
  rw [findRoom, ht]
  exact Tab.find?_write_other (f := fun x : Room => x.room == r) hs.rooms (fun z hz => by simp [hold z hz]) (by simp [hy])

end

/-! ## The room entry of an OPEN stay -/

/-- The Room Table with a room's entry naming a stay, the entry created in the lowest unused one where there is none. -/
def nameStay (s : State) (r n : Nat) : State := (s.ensureRoom r).setOpenStay r (some n)

theorem nameStay_ch (s : State) (r n : Nat) : Changes kRoom s (s.nameStay r n) :=
  (ensureRoom_ch ..).comp (setOpenStay_ch ..)

/-- The entry that a room gets (R19). -/
def newRoom (s : State) (r : Nat) (n : Option Nat) : Room := ⟨r, 0, n, s.roomPlace 1 r, s.roomPlace 3 r⟩

theorem nameStay_held {s : State} {r n j : Nat} {y : Room} (h : s.findRoom r = some (j, y)) :
    s.nameStay r n = s.setRoom j { y with openStay := some n } := by
  simp [nameStay, ensureRoom, setOpenStay, h]

theorem nameStay_new {s : State} (hs : s.Canonical) {r n j : Nat} (h : s.findRoom r = none)
    (hj : Tab.lowestFree s.rooms 96 = some j) :
    s.nameStay r n = (s.setRoom j (s.newRoom r none)).setRoom j (s.newRoom r (some n)) := by
  have he : s.ensureRoom r = s.setRoom j (s.newRoom r none) := by simp [ensureRoom, createRoom, h, hj, newRoom]
  have hfind : (s.setRoom j (s.newRoom r none)).findRoom r = some (j, s.newRoom r none) :=
    findRoom_write_new hs rfl h rfl
  rw [nameStay, he, setOpenStay, hfind]
  rfl

theorem nameStay_full {s : State} {r n : Nat} (h : s.findRoom r = none) (hj : Tab.lowestFree s.rooms 96 = none) :
    s.nameStay r n = s := by
  have he : s.ensureRoom r = s := by simp [ensureRoom, createRoom, h, hj]
  rw [nameStay, he, setOpenStay, h]

theorem nameStay_rooms_held {s : State} {r n j : Nat} {y : Room} (h : s.findRoom r = some (j, y)) :
    (s.nameStay r n).rooms = Tab.write s.rooms j { y with openStay := some n } := by
  rw [nameStay_held h]; rfl

theorem nameStay_rooms_new {s : State} (hs : s.Canonical) {r n j : Nat} (h : s.findRoom r = none)
    (hj : Tab.lowestFree s.rooms 96 = some j) : (s.nameStay r n).rooms = Tab.write s.rooms j (s.newRoom r (some n)) := by
  rw [nameStay_new hs h hj]
  exact Tab.write_write ..

/-- The room's entry afterwards: the one it had, or the lowest unused one. -/
theorem nameStay_findRoom {s : State} (hs : s.Canonical) {r n : Nat}
    (h : s.findRoom r ≠ none ∨ Tab.lowestFree s.rooms 96 ≠ none) : ∃ j y, (s.nameStay r n).findRoom r = some (j, y) ∧
      roomBlock j ∈ (s.nameStay r n).dirty ∧
      (∀ k z, s.findRoom r = some (k, z) → j = k ∧ y = { z with openStay := some n }) ∧
      (s.findRoom r = none → Tab.lowestFree s.rooms 96 = some j ∧ y = s.newRoom r (some n)) := by
  cases hf : s.findRoom r with
  | some e =>
    obtain ⟨j, z⟩ := e
    refine ⟨j, { z with openStay := some n }, ?_, ?_, ?_, fun h => by cases h⟩
    · exact findRoom_write_same hs (nameStay_rooms_held hf) hf (findRoom_look hs hf).2
    · rw [nameStay_held hf]
      exact dirty_markDirty.mpr (.inl rfl)
    · intro k w h
      cases h
      exact ⟨rfl, rfl⟩
  | none =>
    obtain ⟨j, hj⟩ := Option.ne_none_iff_exists'.mp (h.resolve_left (fun h => h hf))
    refine ⟨j, s.newRoom r (some n), ?_, ?_, fun k z h => (by cases h), fun _ => ⟨hj, rfl⟩⟩
    · exact findRoom_write_new hs (nameStay_rooms_new hs hf hj) hf rfl
    · rw [nameStay_new hs hf hj]
      exact dirty_markDirty.mpr (.inl rfl)

/-- Another room's entry is found as before. -/
theorem nameStay_findRoom_ne {s : State} (hs : s.Canonical) {r n q : Nat} (hq : q ≠ r) :
    (s.nameStay r n).findRoom q = s.findRoom q := by
  cases hf : s.findRoom r with
  | some e =>
    obtain ⟨j, z⟩ := e
    obtain ⟨hj, hz⟩ := findRoom_look hs hf
    have hne : z.room ≠ q := fun h => hq (h.symm.trans hz)
    exact findRoom_write_other hs (nameStay_rooms_held hf)
      (fun w hw => (Option.some.inj (hj.symm.trans hw)) ▸ hne) hne
  | none =>
    cases hj : Tab.lowestFree s.rooms 96 with
    | none => rw [nameStay_full hf hj]
    | some j =>
      refine findRoom_write_other hs (nameStay_rooms_new hs hf hj) (fun w hw => ?_) (Ne.symm hq)
      rw [(Tab.lowestFree_spec hj).1] at hw
      cases hw

theorem nameStay_dirty {s : State} (r n : Nat) {b : Nat} (h : b ∈ s.dirty) : b ∈ (s.nameStay r n).dirty := by
  have hset (u : State) (j : Nat) (y : Room) (h : b ∈ u.dirty) : b ∈ (u.setRoom j y).dirty := dirty_markDirty.mpr (.inr h)
  have hens : b ∈ (s.ensureRoom r).dirty := by
    unfold ensureRoom createRoom
    split
    · split
      · exact h
      · exact hset _ _ _ h
    · exact h
  unfold nameStay setOpenStay
  split
  · exact hens
  · exact hset _ _ _ hens

/-! ## A stay written (R127, R193) -/

/-- The entry of a stay that is opened. -/
def openedStay (x : StayIn) : Stay := ⟨x.number, x.room, true, x.opened, none, x.planned, x.cap, 0, false⟩

theorem writeStay_eq (i : Nat) (x : StayIn) (s : State) : s.writeStay i x =
    ((s.setStay i (openedStay x)).nameStay x.room x.number).log .stayOpened (.room x.room)
      (le 2 x.number ++ le 3 x.planned ++ le 3 x.cap) := rfl

theorem writeStay_stays (i : Nat) (x : StayIn) (s : State) :
    (s.writeStay i x).stays = Tab.write s.stays i (openedStay x) := by
  rw [writeStay_eq, (log_ch ..).stays_eq, (nameStay_ch ..).stays_eq]
  rfl

theorem writeStay_findRoom (i : Nat) (x : StayIn) (s : State) (r : Nat) :
    (s.writeStay i x).findRoom r = ((s.setStay i (openedStay x)).nameStay x.room x.number).findRoom r :=
  findRoom_congr (log_ch ..).rooms_eq r

theorem writeStay_ring (i : Nat) (x : StayIn) {s : State} (h : s.journal.storable = true) :
    ∃ m, (s.writeStay i x).journal.ring = s.journal.ring ++ [m] ∧ m.kind = .stayOpened ∧ m.spot = .room x.room ∧
      m.detail = le 2 x.number ++ le 3 x.planned ++ le 3 x.cap := by
  have hj : ((s.setStay i (openedStay x)).nameStay x.room x.number).journal = s.journal := (nameStay_ch ..).journal_eq
  have hr := handOver_ring ⟨.stayOpened, .room x.room, none, none, le 2 x.number ++ le 3 x.planned ++ le 3 x.cap, Marks.none,
    none⟩ (hj.symm ▸ h)
  rw [hj] at hr
  exact ⟨_, hr, rfl, rfl, rfl⟩

theorem writeStay_dirty (i : Nat) (x : StayIn) {s : State} {b : Nat} (h : b = stayBlock i ∨ b ∈ s.dirty) :
    b ∈ (s.writeStay i x).dirty := by
  rw [writeStay_eq]
  exact dirty_handOver _ (nameStay_dirty _ _ (dirty_markDirty.mpr h))

/-- The room entry that names the stay written. -/
theorem writeStay_room {s : State} (hs : s.Canonical) (i : Nat) (x : StayIn)
    (h : s.findRoom x.room ≠ none ∨ Tab.lowestFree s.rooms 96 ≠ none) :
    ∃ j y, (s.writeStay i x).findRoom x.room = some (j, y) ∧ roomBlock j ∈ (s.writeStay i x).dirty ∧
      (∀ k z, s.findRoom x.room = some (k, z) → j = k ∧ y = { z with openStay := some x.number }) ∧
      (s.findRoom x.room = none → Tab.lowestFree s.rooms 96 = some j ∧ y = s.newRoom x.room (some x.number)) := by
  obtain ⟨j, y, h1, h2, h3⟩ := nameStay_findRoom (n := x.number) ((setStay_ch s i (openedStay x)).canonical hs) h
  refine ⟨j, y, (writeStay_findRoom ..).trans h1, ?_, h3⟩
  rw [writeStay_eq]
  exact dirty_handOver _ h2

theorem writeStay_findRoom_ne {s : State} (hs : s.Canonical) (i : Nat) (x : StayIn) {r : Nat} (h : r ≠ x.room) :
    (s.writeStay i x).findRoom r = s.findRoom r :=
  (writeStay_findRoom ..).trans (nameStay_findRoom_ne ((setStay_ch s i (openedStay x)).canonical hs) h)

end State

end Sys2Proof.Machine
end

