-- ==== Sys2Proof/Proofs/StayRequests.lean ====
section
/-! STAY OPEN and STAY EXTEND (R126 to R128), and the checks of STAY CLOSE. -/

set_option Elab.async false

namespace Sys2Proof.Machine

/-! ## The entry that a STAY OPEN takes (R127) -/

/-- An index whose CLOSED stay was closed first, the lowest among equals. -/
def ClosedFirst (t : Tab Stay) (i : Nat) : Prop :=
  ∃ x, Tab.look t i = some x ∧ x.isOpen = false ∧ ∀ j y, Tab.look t j = some y → y.isOpen = false →
    x.closed.getD 0 < y.closed.getD 0 ∨ (x.closed.getD 0 = y.closed.getD 0 ∧ i ≤ j)

theorem ClosedFirst.unique {t : Tab Stay} {i j : Nat} (hi : ClosedFirst t i) (hj : ClosedFirst t j) : i = j := by
  obtain ⟨x, hx, hxo, hxm⟩ := hi
  obtain ⟨y, hy, hyo, hym⟩ := hj
  have h1 := hxm j y hy hyo
  have h2 := hym i x hx hxo
  omega

theorem earliestClosed_none {t : Tab Stay} (h : earliestClosed t = none) : ∀ e ∈ t, e.2.isOpen = true := by
  induction t with
  | nil => simp
  | cons e t ih =>
    obtain ⟨k, w⟩ := e
    simp only [earliestClosed] at h
    split at h
    · rename_i hw
      simpa [hw] using ih h
    · split at h
      · cases h
      · split at h <;> cases h

theorem earliestClosed_some {t : Tab Stay} (ht : Tab.Rising t) {i m : Nat} (h : earliestClosed t = some (i, m)) :
    (∃ x, (i, x) ∈ t ∧ x.isOpen = false ∧ x.closed.getD 0 = m) ∧
      ∀ e ∈ t, e.2.isOpen = false → m < e.2.closed.getD 0 ∨ (m = e.2.closed.getD 0 ∧ i ≤ e.1) := by
  induction t generalizing i m with
  | nil => cases h
  | cons e t ih =>
    obtain ⟨k, w⟩ := e
    obtain ⟨hlt, ht⟩ := Tab.rising_cons.mp ht
    simp only [earliestClosed] at h
    simp only [List.mem_cons, forall_eq_or_imp]
    split at h
    · rename_i hw
      obtain ⟨⟨x, hx, hrest⟩, hmin⟩ := ih ht h
      exact ⟨⟨x, .inr hx, hrest⟩, fun hw' => by simp [hw] at hw', hmin⟩
    · rename_i hw
      have hw : w.isOpen = false := by simpa using hw
      split at h
      · rename_i hnone
        cases h
        refine ⟨⟨w, .inl rfl, hw, rfl⟩, fun _ => .inr ⟨rfl, Nat.le_refl _⟩, fun e he ho => ?_⟩
        simp [earliestClosed_none hnone e he] at ho
      · rename_i j n hsome
        obtain ⟨⟨x, hx, hrest⟩, hmin⟩ := ih ht hsome
        split at h
        · rename_i hn
          cases h
          exact ⟨⟨x, .inr hx, hrest⟩, fun _ => .inl hn, hmin⟩
        · rename_i hn
          cases h
          refine ⟨⟨w, .inl rfl, hw, rfl⟩, fun _ => .inr ⟨rfl, Nat.le_refl _⟩, fun e he ho => ?_⟩
          have h1 := hmin e he ho
          have h2 := hlt e he
          omega

theorem earliestClosed_iff {t : Tab Stay} (ht : Tab.Rising t) (i : Nat) :
    (earliestClosed t).map (fun e => e.1) = some i ↔ ClosedFirst t i := by
  cases h : earliestClosed t with
  | none =>
    have hopen := earliestClosed_none h
    constructor
    · rintro ⟨⟩
    · rintro ⟨x, hx, ho, -⟩
      have := hopen (i, x) (Tab.look_mem hx)
      simp [ho] at this
  | some e =>
    obtain ⟨k, m⟩ := e
    obtain ⟨⟨x, hx, ho, hm⟩, hmin⟩ := earliestClosed_some ht h
    have hfirst : ClosedFirst t k :=
      ⟨x, Tab.mem_look ht hx, ho, fun j y hy hyo => by rw [hm]; exact hmin (j, y) (Tab.look_mem hy) hyo⟩
    constructor
    · rintro ⟨⟩; exact hfirst
    · intro hi; exact congrArg some (hfirst.unique hi)

theorem State.freeStay_iff {s : State} (hs : s.Canonical) (i : Nat) : s.freeStay = some i ↔
    (i < 256 ∧ Tab.look s.stays i = none ∧ ∀ j, j < i → Tab.look s.stays j ≠ none) ∨
    ((∀ j, j < 256 → Tab.look s.stays j ≠ none) ∧ ClosedFirst s.stays i) := by
  have hlow := fun k => Tab.lowestFree_iff (t := s.stays) (n := 256) (k := k)
  unfold freeStay
  cases hf : Tab.lowestFree s.stays 256 with
  | some k =>
    rw [← hlow i, hf]
    have hk := (hlow k).mp hf
    exact ⟨.inl, fun h => h.resolve_right (fun h => h.1 k hk.1 hk.2.1)⟩
  | none =>
    rw [← hlow i, hf]
    have hfull := Tab.lowestFree_none_iff.mp hf
    exact ⟨fun h => .inr ⟨hfull, (earliestClosed_iff hs.stays i).mp h⟩, fun h =>
      (earliestClosed_iff hs.stays i).mpr (h.resolve_left (by simp)).2⟩

/-! ## Payloads of two and three numbers -/

theorem readLayout_two {k1 k2 w1 w2 n1 n2 : Nat} {p : List Byte} (hp : p = le w1 n1 ++ le w2 n2) (h1 : n1 < 256 ^ w1)
    (h2 : n2 < 256 ^ w2) : readLayout [(k1, w1), (k2, w2)] p = .ok ([(k1, n1), (k2, n2)], []) := by
  rw [hp, ← List.append_nil (le w2 n2)]
  exact readLayout_le h1 (readLayout_le h2 rfl)

theorem readLayout_three {k1 k2 k3 w1 w2 w3 n1 n2 n3 : Nat} {p : List Byte} (hp : p = le w1 n1 ++ le w2 n2 ++ le w3 n3)
    (h1 : n1 < 256 ^ w1) (h2 : n2 < 256 ^ w2) (h3 : n3 < 256 ^ w3) :
    readLayout [(k1, w1), (k2, w2), (k3, w3)] p = .ok ([(k1, n1), (k2, n2), (k3, n3)], []) := by
  rw [hp, ← List.append_nil (le w3 n3), List.append_assoc]
  exact readLayout_le h1 (readLayout_le h2 (readLayout_le h3 rfl))

/-! ## STAY OPEN -/

section
variable {s : State} {r n : Nat}

theorem State.stayChecks_occupied (h : s.roomOccupied r = true) : s.stayChecks r n = some .roomOccupied := by
  simp [stayChecks, h]

theorem State.stayChecks_duplicate (h : s.roomOccupied r = false) (hf : (s.findStay n).isSome = true) :
    s.stayChecks r n = some .duplicate := by
  simp [stayChecks, h, hf]

theorem State.stayChecks_full (h : s.roomOccupied r = false) (hf : s.findStay n = none)
    (hfull : (s.findRoom r = none ∧ Tab.lowestFree s.rooms 96 = none) ∨ s.freeStay = none) :
    s.stayChecks r n = some .tableFull := by
  unfold stayChecks
  simp only [h, hf, Bool.false_eq_true, if_false, Option.isSome_none]
  split
  · rfl
  · rename_i hr
    have hfs : s.freeStay = none := hfull.resolve_left (fun h => hr (by simp [h.1, h.2]))
    simp [hfs]

theorem State.stayChecks_none {i : Nat} (h : s.roomOccupied r = false) (hf : s.findStay n = none)
    (hi : s.freeStay = some i) (hr : s.findRoom r ≠ none ∨ Tab.lowestFree s.rooms 96 ≠ none) :
    s.stayChecks r n = none := by
  have hroom : ((s.findRoom r).isNone && (Tab.lowestFree s.rooms 96).isNone) = false := by
    rcases hr with h | h
    · simp [h]
    · simp [Option.isSome_iff_ne_none.mpr h]
  simp [stayChecks, h, hf, hi, hroom]

end

/-- What a STAY OPEN leaves where its checks pass. -/
theorem State.writeStay_spec {s : State} (hs : s.Canonical) (i : Nat) (x : StayIn)
    (hr : s.findRoom x.room ≠ none ∨ Tab.lowestFree s.rooms 96 ≠ none) :
    let u := s.writeStay i x
    Tab.look u.stays i = some (openedStay x) ∧ (∀ j, j ≠ i → Tab.look u.stays j = Tab.look s.stays j) ∧
      (∃ j y, u.findRoom x.room = some (j, y) ∧ y.openStay = some x.number) ∧
      (s.journal.storable = true → ∃ m, u.journal.ring = s.journal.ring ++ [m] ∧ m.kind = .stayOpened) ∧
      u = { s with
        stays := u.stays, rooms := u.rooms, journal := u.journal, trunk := { s.trunk with notices := u.trunk.notices }
        faults := u.faults, alarm := u.alarm, dirty := u.dirty, writer := u.writer } := by
  intro u
  have hst : u.stays = Tab.write s.stays i (openedStay x) := writeStay_stays i x s
  refine ⟨by rw [hst, Tab.look_write_self], fun j hj => by rw [hst, Tab.look_write_ne _ _ hj], ?_, fun hj => ?_, ?_⟩
  · obtain ⟨j, y, hf, -, hold, hnew⟩ := writeStay_room hs i x hr
    refine ⟨j, y, hf, ?_⟩
    cases h : s.findRoom x.room with
    | some e => rw [(hold e.1 e.2 h).2]
    | none => rw [(hnew h).2]; rfl
  · obtain ⟨m, h1, h2, -⟩ := writeStay_ring i x hj
    exact ⟨m, h1, h2⟩
  · have hch : Changes kStay s u := writeStay_ch ..
    conv_lhs => rw [hch.frame]
    rw [hch.creds_eq, hch.places_eq, hch.segs_eq, hch.revocations_eq, hch.charges_eq]

/-! ## STAY EXTEND -/

namespace State

theorem mem_guestsOf {s : State} (hs : s.Canonical) {n j : Nat} : j ∈ s.guestsOf n ↔
    ∃ c, s.cred j = some c ∧ c.state = .active ∧ c.kind = .guest ∧ ∃ g, c.guest = some g ∧ g.stay = n := by
  have hguest (c : Cred) : (c.state == .active && c.kind == .guest && match c.guest with
      | some g => g.stay == n
      | none => false) = true ↔ c.state = .active ∧ c.kind = .guest ∧ ∃ g, c.guest = some g ∧ g.stay = n := by
    cases c.guest <;> simp [and_assoc]
  unfold guestsOf
  rw [List.mem_map]
  constructor
  · rintro ⟨⟨k, c⟩, he, rfl⟩
    obtain ⟨hmem, hc⟩ := List.mem_filter.mp he
    exact ⟨c, Tab.mem_look hs.creds hmem, (hguest c).mp hc⟩
  · rintro ⟨c, hc, h⟩
    exact ⟨(j, c), List.mem_filter.mpr ⟨Tab.look_mem hc, (hguest c).mpr h⟩, rfl⟩

theorem guestsOf_nodup {s : State} (hs : s.Canonical) (n : Nat) : (s.guestsOf n).Nodup :=
  (Tab.keys_nodup hs.creds).sublist ((List.filter_sublist).map _)

/-- R16 at one credential: its end moves, and nothing else of the table. -/
theorem extendAt_cred (e : Nat) (s : State) (i j : Nat) :
    (extendAt e s i).cred j = if j = i then (s.cred j).map (fun c => extendCred c e) else s.cred j := by
  unfold extendAt
  by_cases hj : j = i
  · subst hj
    cases hc : s.cred j with
    | none => simp [hc]
    | some c =>
      simp only [if_true, Option.map_some]
      split
      · rename_i h; rw [hc, h]
      · exact Tab.look_write_self ..
  · rw [if_neg hj]
    split
    · rfl
    · split
      · rfl
      · exact Tab.look_write_ne _ _ hj

theorem extend_fold_cred (e : Nat) {l : List Nat} (hl : l.Nodup) (s : State) (j : Nat) :
    (l.foldl (extendAt e) s).cred j = if j ∈ l then (s.cred j).map (fun c => extendCred c e) else s.cred j := by
  induction l generalizing s with
  | nil => simp
  | cons i l ih =>
    obtain ⟨hi, hl⟩ := List.nodup_cons.mp hl
    rw [List.foldl_cons, ih hl, extendAt_cred]
    by_cases hj : j = i
    · subst hj; simp [hi]
    · simp [hj]

theorem extend_fold_ch (e : Nat) (l : List Nat) (s : State) : Changes [.creds, .dirty] s (l.foldl (extendAt e) s) :=
  .fold (fun s i => extendAt_ch e s i) l s

/-- R128 part 3: the entry of an OPEN stay. -/
theorem extendStay_open {s : State} {n e i : Nat} {x : Stay} (h : s.findStay n = some (i, x)) (ho : x.isOpen = true) :
    s.extendStay n e =
      ((s.setStay i { x with planned := e }).log .stayExtended (.room x.room) (le 2 n ++ le 3 x.planned ++ le 3 e), true) := by
  simp only [extendStay, h, ho, if_true]

theorem extendStay_none {s : State} {n e : Nat} (h : s.findStay n = none) : s.extendStay n e = (s, false) := by
  simp only [extendStay, h]

/-- R16, R128: the entries that a STAY EXTEND leaves. -/
def extended (s : State) (n e : Nat) : State := (((s.guestsOf n).foldl (extendAt e) s).extendStay n e).1

theorem extended_ch (s : State) (n e : Nat) : Changes kExtend s (s.extended n e) :=
  (Changes.up (extend_fold_ch e _ s)).comp (extendStay_ch n e _)

theorem extended_spec {s : State} (hs : s.Canonical) {n e : Nat}
    (ho : ∀ i x, s.findStay n = some (i, x) → x.isOpen = true) :
    let u := s.extended n e
    (((s.guestsOf n).foldl (extendAt e) s).extendStay n e).2 = (s.findStay n).isSome ∧
      (∀ i x, s.findStay n = some (i, x) → u.stays = Tab.write s.stays i { x with planned := e }) ∧
      (s.findStay n = none → u.stays = s.stays) ∧
      (∀ j c, s.cred j = some c → u.cred j = some
        (if c.state = .active ∧ c.kind = .guest ∧ (∃ g, c.guest = some g ∧ g.stay = n) then extendCred c e else c)) ∧
      u = { s with
        creds := u.creds, stays := u.stays, journal := u.journal, trunk := { s.trunk with notices := u.trunk.notices }
        faults := u.faults, alarm := u.alarm, dirty := u.dirty, writer := u.writer } := by
  intro u
  have hfold := extend_fold_ch e (s.guestsOf n) s
  have hcreds := extend_fold_cred e (guestsOf_nodup hs n) s
  have hu : u = (((s.guestsOf n).foldl (extendAt e) s).extendStay n e).1 := rfl
  have hch : Changes kExtend s u := extended_ch s n e
  generalize (s.guestsOf n).foldl (extendAt e) s = v at hfold hcreds hu
  have hfind : v.findStay n = s.findStay n := findStay_congr hfold.stays_eq n
  have hcred : u.creds = v.creds := by
    rw [hu]
    cases h : s.findStay n with
    | none => rw [extendStay_none (hfind.trans h)]
    | some x =>
      rw [extendStay_open (hfind.trans h) (ho x.1 x.2 h), (log_ch ..).creds_eq]
      rfl
  refine ⟨?_, fun i x h => ?_, fun h => ?_, fun j c hc => ?_, ?_⟩
  · cases h : s.findStay n with
    | none => rw [extendStay_none (hfind.trans h)]; rfl
    | some x => rw [extendStay_open (hfind.trans h) (ho x.1 x.2 h)]; rfl
  · rw [hu, extendStay_open (hfind.trans h) (ho i x h), (log_ch ..).stays_eq, ← hfold.stays_eq]
    rfl
  · rw [hu, extendStay_none (hfind.trans h), hfold.stays_eq]
  · have hj := hcreds j
    rw [cred, hcred]
    refine hj.trans ?_
    simp only [mem_guestsOf hs, hc, Option.some.injEq, exists_eq_left', Option.map_some]
    split <;> rfl
  · conv_lhs => rw [hch.frame]
    rw [hch.rooms_eq, hch.places_eq, hch.segs_eq, hch.revocations_eq, hch.charges_eq]

/-- R128: the body of STAY EXTEND behind its payload. -/
theorem stayExtendBody_eq {q : Request} {s : State} {n e : Nat}
    (hread : readLayout [(1, 2), (2, 3)] q.payload = .ok ([(1, n), (2, e)], [])) :
    (n = 0 → stayExtendBody q s = (s, badField 1)) ∧
    (∀ i x, 1 ≤ n → s.findStay n = some (i, x) → x.isOpen = false → stayExtendBody q s = (s, .refused .notFound [])) ∧
    (1 ≤ n → (∀ i x, s.findStay n = some (i, x) → x.isOpen = true) → stayExtendBody q s = (s.extended n e,
      .done (le 2 (s.extendCount n e) ++ flag (((s.guestsOf n).foldl (extendAt e) s).extendStay n e).2))) := by
  have hv1 : Fields.val [(1, n), (2, e)] 1 = n := rfl
  have hv2 : Fields.val [(1, n), (2, e)] 2 = e := rfl
  unfold stayExtendBody
  rw [withFields_ok hread]
  simp only [hv1, hv2]
  refine ⟨fun h => by rw [if_pos h], fun i x h hf hx => ?_, fun h ho => ?_⟩
  · rw [if_neg (by omega), hf]
    simp [hx]
  · rw [if_neg (by omega), if_neg]
    · rfl
    · cases hf : s.findStay n with
      | none => simp
      | some x => simp [ho x.1 x.2 hf]

end State

end Sys2Proof.Machine
end

