-- ==== Sys2Proof/Proofs/Commits.lean ====
section
/-! Charges committed one after another (R136): the stays they are bound to, the compartments, the records and the fault. -/

set_option Elab.async false

namespace Sys2Proof.Machine

/-! ## The total of a stay -/

theorem State.addTotal_eq (x : Stay) (a : Nat) : State.addTotal x a =
    { x with total := min top24 (x.total + a), saturated := x.saturated || decide (top24 < x.total + a) } := by
  unfold State.addTotal
  split
  · rename_i h
    simp [Nat.min_eq_right h, Nat.not_lt.mpr h]
  · rename_i h
    simp [Nat.min_eq_left (Nat.le_of_not_le h), Nat.lt_of_not_le h]

theorem Stay.charged_nil (x : Stay) : x.charged [] = x := by simp [Stay.charged]

theorem Stay.charged_cons (x : Stay) (c : Charge) (cs : List Charge) :
    x.charged (c :: cs) = (State.addTotal x c.amount).charged cs := by
  rw [State.addTotal_eq]
  cases cs with
  | nil => simp [Stay.charged]
  | cons d ds =>
    simp only [Stay.charged, List.map_cons, List.sum_cons, reduceCtorEq, if_false, List.isEmpty_cons, Bool.not_false,
      Bool.true_and, Stay.mk.injEq, true_and, Bool.or_assoc]
    generalize (ds.map (fun c => c.amount)).sum = n
    refine ⟨by omega, ?_⟩
    congr 1
    rw [← Bool.decide_or, decide_eq_decide]
    omega

namespace State

/-! ## Compartments -/

/-- A compartment that was PENDING or STOCKED, emptied (R136). -/
def cleared (x : Compartment) : Compartment :=
  if x.state = .pending ∨ x.state = .stocked then { x with state := .empty, reversals := 0 } else x

theorem cleared_cleared (x : Compartment) : cleared (cleared x) = cleared x := by
  unfold cleared
  split <;> simp_all

theorem comp_congr {s t : State} (h : t.places = s.places) (p c : Nat) : t.comp p c = s.comp p c := by
  simp only [comp, place_congr h]

theorem comp_some {s : State} {p c : Nat} {x : Compartment} (h : (s.place p).comps[c]? = some x) : s.comp p c = x := by
  simp only [comp, h, Option.getD_some]

theorem comp_none {s : State} {p c : Nat} (h : (s.place p).comps[c]? = none) : s.comp p c = ⟨0, .empty, 0⟩ := by
  simp only [comp, h, Option.getD_none]

theorem moveComp_place {s : State} (hs : s.Canonical) (p c q : Nat) (st : CompState) (rev : Nat) :
    (s.moveComp p c st rev).place q = if q = p then
      { s.place p with comps := (s.place p).comps.set c { s.comp p c with state := st, reversals := rev } }
      else s.place q :=
  place_modPlace s p q
    (fun pl => { pl with comps := pl.comps.set c { s.comp p c with state := st, reversals := rev } }) hs.places.1

/-- A change of a compartment that exists. -/
theorem moveComp_comp {s : State} (hs : s.Canonical) {p c : Nat} {x : Compartment} (h : (s.place p).comps[c]? = some x)
    (st : CompState) (rev q d : Nat) : (s.moveComp p c st rev).comp q d =
      if q = p ∧ d = c then { s.comp q d with state := st, reversals := rev } else s.comp q d := by
  obtain ⟨hlen, -⟩ := List.getElem?_eq_some_iff.mp h
  have hp := moveComp_place hs p c q st rev
  by_cases hq : q = p
  · subst hq
    rw [if_pos rfl] at hp
    by_cases hd : d = c
    · subst hd
      rw [if_pos ⟨rfl, rfl⟩, comp, hp]
      simp [hlen]
    · rw [if_neg (fun h => hd h.2), comp, comp, hp]
      simp [List.getElem?_set_ne (Ne.symm hd)]
  · rw [if_neg hq] at hp
    rw [if_neg (fun h => hq h.1), comp, hp, comp]

/-- R136: a compartment is emptied where it was PENDING or STOCKED, and no other changes. -/
theorem emptyComp_comp {s : State} (hs : s.Canonical) (p c q d : Nat) : (s.emptyComp p c).comp q d =
    if q = p ∧ d = c then cleared (s.comp q d) else s.comp q d := by
  unfold emptyComp
  cases h : (s.place p).comps[c]? with
  | none =>
    simp only
    split
    · rename_i hqd
      obtain ⟨rfl, rfl⟩ := hqd
      simp [comp_none h, cleared]
    · rfl
  | some x =>
    have hx := comp_some h
    simp only
    split
    · rename_i hst
      rw [moveComp_comp hs h]
      split
      · rename_i hqd
        obtain ⟨rfl, rfl⟩ := hqd
        rw [cleared, hx, if_pos hst]
      · rfl
    · rename_i hst
      split
      · rename_i hqd
        obtain ⟨rfl, rfl⟩ := hqd
        rw [cleared, hx, if_neg hst]
      · rfl

/-- A place apart from its compartments. -/
def withoutComps (pl : Place) : Place := { pl with comps := [] }

theorem emptyComp_rest {s : State} (hs : s.Canonical) (p c q : Nat) :
    withoutComps ((s.emptyComp p c).place q) = withoutComps (s.place q) := by
  unfold emptyComp
  split
  · rfl
  · split
    · rw [moveComp_place hs]
      split
      · rename_i hq; subst hq; rfl
      · rfl
    · rfl

/-! ## One commit -/

section
variable {s : State} {c : Charge}

/-- The state in which a commit hands over its record, and the record. -/
theorem commit_eq_handOver (s : State) (c : Charge) (ng : Bool) : ∃ (v : State) (d : Draft), s.commit c ng = v.handOver d ∧
    v.journal = s.journal ∧ (v.stamp d).outline = s.chargeOutline ng c := by
  have htake (tail : List Byte) : ([byte c.compartment] ++ le 3 c.amount ++ tail).take 4 = [byte c.compartment] ++ le 3 c.amount :=
    List.take_left' (by simp [le_length])
  unfold commit chargeOutline
  cases h : s.findStay c.stay with
  | none =>
    refine ⟨_, _, rfl, (emptyComp_ch ..).journal_eq, ?_⟩
    have := htake []
    rw [List.append_nil] at this
    simp only [Record.outline, stamp, this, Option.isSome_none, Bool.and_false, Bool.false_eq_true, if_false]
    rfl
  | some e =>
    obtain ⟨i, x⟩ := e
    refine ⟨_, _, rfl, (emptyComp_ch ..).journal_eq.trans ?_, ?_⟩
    · split
      · exact (giveFault_journal ..).trans rfl
      · rfl
    · simp only [Record.outline, stamp, chargeDetail, List.append_assoc, Option.isSome_some, Bool.and_true, if_true]
      rw [← List.append_assoc, htake]
      rfl

theorem commit_logged {β : Type} (view : Record → Option β) (s : State) (c : Charge) (ng : Bool) :
    ∃ m, m.outline = s.chargeOutline ng c ∧ Logged view s (s.commit c ng) (view m).toList := by
  obtain ⟨v, d, h, hj, ho⟩ := commit_eq_handOver s c ng
  exact ⟨_, ho, h ▸ Logged.after_eq hj (.of_handOver v d)⟩

theorem commit_stays_unbilled (h : s.findStay c.stay = none) (ng : Bool) : (s.commit c ng).stays = s.stays := by
  simp only [commit, h]
  rw [(handOver_ch ..).stays_eq, (emptyComp_ch ..).stays_eq]

theorem commit_stays_billed {i : Nat} {x : Stay} (h : s.findStay c.stay = some (i, x)) (ng : Bool) :
    (s.commit c ng).stays = Tab.write s.stays i (addTotal x c.amount) := by
  simp only [commit, h]
  rw [(handOver_ch ..).stays_eq, (emptyComp_ch ..).stays_eq]
  split
  · rw [(faultWith_ch ..).stays_eq]; rfl
  · rfl

/-- A commit changes the places as emptying its compartment does. -/
theorem commit_places (s : State) (c : Charge) (ng : Bool) : ∃ u K, Changes K s u ∧ u.places = s.places ∧
    (s.commit c ng).places = (u.emptyComp c.place c.compartment).places := by
  unfold commit
  split
  · simp only
    rename_i i x _
    have hset := setStay_ch s i (addTotal x c.amount)
    split
    · have hf := faultWith_ch .folioSaturated 2 x.number (s.setStay i (addTotal x c.amount))
      exact ⟨_, _, Changes.comp (K := [.stays, .dirty, .faults, .notices]) (Changes.up hset) hf,
        hf.places_eq.trans hset.places_eq, (handOver_ch ..).places_eq⟩
    · exact ⟨_, _, hset, hset.places_eq, (handOver_ch ..).places_eq⟩
  · exact ⟨s, [], .refl s, rfl, (handOver_ch ..).places_eq⟩

theorem commit_rest (hs : s.Canonical) (c : Charge) (ng : Bool) (q : Nat) :
    withoutComps ((s.commit c ng).place q) = withoutComps (s.place q) := by
  obtain ⟨u, K, hch, hp, h⟩ := commit_places s c ng
  rw [place_congr h, emptyComp_rest (hch.canonical hs), place_congr hp]

theorem commit_comp (hs : s.Canonical) (c : Charge) (ng : Bool) (q d : Nat) : (s.commit c ng).comp q d =
    if q = c.place ∧ d = c.compartment then cleared (s.comp q d) else s.comp q d := by
  obtain ⟨u, K, hch, hp, h⟩ := commit_places s c ng
  rw [comp_congr h, emptyComp_comp (hch.canonical hs), comp_congr hp]

theorem commit_charges (s : State) (c : Charge) (ng : Bool) : (s.commit c ng).pendingCharges = s.pendingCharges := by
  unfold commit
  split
  · simp only
    rw [(handOver_ch ..).charges_eq, (emptyComp_ch ..).charges_eq]
    split
    · rw [(faultWith_ch ..).charges_eq]; rfl
    · rfl
  · rw [(handOver_ch ..).charges_eq, (emptyComp_ch ..).charges_eq]

/-- A commit clears no fault kind, and sets FOLIO_SATURATED where it passes the top. -/
theorem commit_set (hs : s.Canonical) (c : Charge) (ng : Bool)
    (h : (s.fault .folioSaturated).set = true ∨ ∃ i x, s.findStay c.stay = some (i, x) ∧ top24 < x.total + c.amount) :
    ((s.commit c ng).fault .folioSaturated).set = true := by
  have hthen (u : State) (hu : u.Canonical) (hset : (u.fault .folioSaturated).set = true) (dr : Draft) :
      (((u.emptyComp c.place c.compartment).handOver dr).fault .folioSaturated).set = true := by
    have hch := emptyComp_ch u c.place c.compartment
    refine handOver_set (hch.canonical hu) _ _ ?_
    rw [fault_congr hch.faults_eq.1]
    exact hset
  unfold commit
  cases hf : s.findStay c.stay with
  | none =>
    refine hthen s hs (h.resolve_right ?_) _
    rintro ⟨i, x, hx, -⟩
    rw [hf] at hx
    cases hx
  | some e =>
    obtain ⟨i, x⟩ := e
    simp only
    have hset := setStay_ch s i (addTotal x c.amount)
    by_cases hsat : top24 < x.total + c.amount
    · simp only [hsat, decide_true, if_true]
      exact hthen _ ((faultWith_ch ..).canonical (hset.canonical hs)) 
        (giveFault_fault (s := s.setStay i (addTotal x c.amount)) hs.faults .folioSaturated .folioSaturated _).1 _
    · simp only [hsat, decide_false, Bool.false_eq_true, if_false]
      refine hthen _ (hset.canonical hs) (h.resolve_right ?_) _
      rintro ⟨j, y, hy, hlt⟩
      rw [hf] at hy
      cases hy
      exact hsat hlt

/-- A commit leaves the number of every stay, and so which entry a number finds. -/
theorem commit_found (hs : s.Canonical) (c : Charge) (ng : Bool) (n : Nat) :
    ((s.commit c ng).findStay n).map (fun e => e.1) = (s.findStay n).map (fun e => e.1) := by
  cases hf : s.findStay c.stay with
  | none => rw [findStay_congr (commit_stays_unbilled hf ng)]
  | some e =>
    obtain ⟨i, x⟩ := e
    have hst := commit_stays_billed hf ng
    have hnum : (addTotal x c.amount).number = x.number := by rw [addTotal_eq]
    obtain ⟨hx, hxn⟩ := findStay_look hs hf
    by_cases hn : n = c.stay
    · subst hn
      rw [findStay_write_same hs hst hf (hnum.trans hxn), hf]
      rfl
    · have hne : ¬x.number = n := fun h => hn (h.symm.trans hxn)
      have hsame : (s.commit c ng).findStay n = s.findStay n := by
        rw [findStay, hst]
        refine Tab.find?_write_other (f := fun x : Stay => x.number == n) hs.stays (fun z hz => ?_) (by simp [hnum, hne])
        obtain rfl := Option.some.inj (hx.symm.trans hz)
        simp [hne]
      rw [hsame]

end

/-! ## Commits taken over a list -/

/-- What comes before each commit of a list leaves the stays and the places, and clears no fault kind. -/
structure Precedes (pre : State → Charge → State) : Prop where
  ch : ∀ s c, Changes [.faults, .notices, .journal, .dirty, .charges] s (pre s c)
  set : ∀ s c, s.Canonical → (s.fault .folioSaturated).set = true → ((pre s c).fault .folioSaturated).set = true

/-- The charges of a list committed, each after `pre`. -/
def commits (pre : State → Charge → State) (ng : Bool) (cs : List Charge) (s : State) : State :=
  cs.foldl (fun s c => (pre s c).commit c ng) s

section
variable {pre : State → Charge → State} {s : State}

theorem commits_ch (hpre : Precedes pre) (ng : Bool) (cs : List Charge) (s : State) : Changes kMini s (commits pre ng cs s) :=
  .fold (fun s c => (Changes.up (hpre.ch s c)).comp (commit_ch c ng _)) _ s

theorem commits_comp (hpre : Precedes pre) (hs : s.Canonical) (ng : Bool) (cs : List Charge) (q d : Nat) :
    (commits pre ng cs s).comp q d =
      if ∃ c ∈ cs, q = c.place ∧ d = c.compartment then cleared (s.comp q d) else s.comp q d := by
  induction cs generalizing s with
  | nil => simp [commits]
  | cons c cs ih =>
    have hch := hpre.ch s c
    have hp := hch.canonical hs
    have h1 := commit_comp hp c ng q d
    rw [comp_congr hch.places_eq] at h1
    rw [commits, List.foldl_cons, ← commits, ih ((commit_ch ..).canonical hp), h1]
    by_cases hc : q = c.place ∧ d = c.compartment
    · simp [hc, cleared_cleared]
    · simp only [hc, if_false, List.exists_mem_cons_iff, false_or]

theorem commits_rest (hpre : Precedes pre) (hs : s.Canonical) (ng : Bool) (cs : List Charge) (q : Nat) :
    withoutComps ((commits pre ng cs s).place q) = withoutComps (s.place q) := by
  induction cs generalizing s with
  | nil => rfl
  | cons c cs ih =>
    have hch := hpre.ch s c
    have hp := hch.canonical hs
    exact (ih ((commit_ch ..).canonical hp)).trans
      ((commit_rest hp c ng q).trans (congrArg withoutComps (place_congr hch.places_eq q)))

theorem commits_set (hpre : Precedes pre) (hs : s.Canonical) (ng : Bool) (cs : List Charge)
    (h : (s.fault .folioSaturated).set = true) : ((commits pre ng cs s).fault .folioSaturated).set = true := by
  induction cs generalizing s with
  | nil => exact h
  | cons c cs ih =>
    have hp := (hpre.ch s c).canonical hs
    exact ih ((commit_ch ..).canonical hp) (commit_set hp c ng (.inl (hpre.set s c hs h)))

theorem boundTo_congr {s t : State} (h : ∀ n, (t.findStay n).map (fun e => e.1) = (s.findStay n).map (fun e => e.1))
    (i : Nat) (cs : List Charge) : t.boundTo i cs = s.boundTo i cs := by
  simp only [boundTo, h]

theorem boundTo_cons (s : State) (i : Nat) (c : Charge) (cs : List Charge) : s.boundTo i (c :: cs) =
    if (s.findStay c.stay).map (fun e => e.1) = some i then c :: s.boundTo i cs else s.boundTo i cs := by
  simp only [boundTo, List.filter_cons, beq_iff_eq]

/-- The entry of a stay after one commit. -/
theorem commit_look (hs : s.Canonical) (c : Charge) (ng : Bool) (i : Nat) :
    Tab.look (s.commit c ng).stays i = (Tab.look s.stays i).map (fun x =>
      if (s.findStay c.stay).map (fun e => e.1) = some i then addTotal x c.amount else x) := by
  cases hf : s.findStay c.stay with
  | none => simp [commit_stays_unbilled hf ng]
  | some e =>
    obtain ⟨k, x⟩ := e
    rw [commit_stays_billed hf ng]
    by_cases hi : i = k
    · subst hi
      simp [Tab.look_write_self, (findStay_look hs hf).1]
    · simp [Tab.look_write_ne _ _ hi, Ne.symm hi]

/-- R136: what a list of charges leaves of the stays, and the fault. -/
theorem commits_charged (hpre : Precedes pre) (hs : s.Canonical) (ng : Bool) (cs : List Charge) :
    s.Charged (commits pre ng cs s) cs := by
  induction cs generalizing s with
  | nil =>
    refine ⟨fun i x hx => ?_, fun i hi => hi, fun i x _ hb => absurd rfl hb⟩
    rw [show s.boundTo i [] = [] from rfl, Stay.charged_nil]
    exact hx
  | cons c cs ih =>
    have hch := hpre.ch s c
    have hp := hch.canonical hs
    have hfind := findStay_congr hch.stays_eq
    have hlook := commit_look hp c ng
    rw [hfind, hch.stays_eq] at hlook
    have hu := (commit_ch c ng (pre s c)).canonical hp
    obtain ⟨ih1, ih2, ih3⟩ := ih hu
    have hbound := boundTo_congr (s := s) (t := (pre s c).commit c ng) (fun n => by rw [commit_found hp, hfind])
    simp only [hbound] at ih1 ih3
    refine ⟨fun i x hx => ?_, fun i hi => ?_, fun i x hx hb hsat => ?_⟩
    · have h := hlook i
      rw [hx] at h
      rw [commits, List.foldl_cons, ← commits, ih1 i _ h, boundTo_cons]
      split
      · rw [Stay.charged_cons]
      · rfl
    · exact ih2 i (by rw [hlook i, hi]; rfl)
    · rw [commits, List.foldl_cons, ← commits]
      have h := hlook i
      rw [hx] at h
      rw [boundTo_cons] at hb hsat
      by_cases hc : (s.findStay c.stay).map (fun e => e.1) = some i
      · simp only [hc, if_true, Option.map_some, List.map_cons, List.sum_cons] at hsat h
        by_cases hnow : top24 < x.total + c.amount
        · refine commits_set hpre hu ng cs (commit_set hp c ng (.inr ?_))
          obtain ⟨e, he, hei⟩ := Option.map_eq_some_iff.mp hc
          refine ⟨e.1, e.2, (hfind c.stay).trans he, ?_⟩
          have := (findStay_look hs he).1
          rw [hei, hx] at this
          obtain rfl := Option.some.inj this
          exact hnow
        · have htotal : (addTotal x c.amount).total = x.total + c.amount := by
            rw [addTotal_eq]; exact Nat.min_eq_right (Nat.le_of_not_lt hnow)
          refine ih3 i _ h (fun hnil => ?_) (by rw [htotal]; omega)
          rw [hnil] at hsat
          simp at hsat
          omega
      · simp only [hc, if_false, Option.map_some] at hb hsat h
        exact ih3 i x h hb hsat

end

/-! ## Charges taken out of the Pending Charge List and committed -/

/-- A charge leaves the Pending Charge List. -/
def dropCharge (s : State) (c : Charge) : State := s.setCharges (s.pendingCharges.filter (fun d => d != c))

theorem dropCharge_precedes : Precedes dropCharge :=
  ⟨fun s _ => Changes.up (setCharges_ch s _), fun _ _ _ h => h⟩

theorem commitWhere_eq (f : Charge → Bool) (ng : Bool) (s : State) :
    s.commitWhere f ng = commits dropCharge ng (s.pendingCharges.filter f) s := rfl

/-- The Pending Charge List after charges are taken out one by one. -/
theorem commits_charges {pre : State → Charge → State}
    (hpre : ∀ s c, (pre s c).pendingCharges = s.pendingCharges.filter (fun d => d != c)) (ng : Bool) (cs : List Charge)
    (s : State) : (commits pre ng cs s).pendingCharges = s.pendingCharges.filter (fun d => !cs.contains d) := by
  induction cs generalizing s with
  | nil => simp [commits]
  | cons c cs ih =>
    rw [commits, List.foldl_cons, ← commits, ih, commit_charges, hpre, List.filter_filter]
    refine List.filter_congr (fun d _ => ?_)
    simp only [List.contains_cons, Bool.not_or, bne, Bool.and_comm]

theorem commitWhere_charges (f : Charge → Bool) (ng : Bool) (s : State) :
    (s.commitWhere f ng).pendingCharges = s.pendingCharges.filter (fun d => !f d) := by
  rw [commitWhere_eq, commits_charges (fun _ _ => rfl)]
  refine List.filter_congr (fun d hd => ?_)
  rw [Bool.not_inj_iff, Bool.eq_iff_iff, List.contains_iff_mem, List.mem_filter]
  simp [hd]

end State

end Sys2Proof.Machine
end

