-- ==== Sys2Proof/Proofs/StayClosed.lean ====
section
/-! STAY CLOSE (R129, R130), and O52. -/

set_option Elab.async false

namespace Sys2Proof.Machine

namespace State

/-! ## What commits and revocations journal -/

/-- The records of a list of charges, as a reading of their outlines sees them. -/
theorem commits_logged {β : Type} (w : Outline → Option β) {pre : State → Charge → State} (hpre : Precedes pre)
    {g : Charge → List β} (hg : ∀ s c, Logged (fun r => w r.outline) s (pre s c) (g c)) {s : State} (hs : s.Canonical)
    (ng : Bool) (cs : List Charge) : Logged (fun r => w r.outline) s (commits pre ng cs s)
      (cs.flatMap (fun c => g c ++ (w (s.chargeOutline ng c)).toList)) := by
  induction cs generalizing s with
  | nil => exact .of_journal_eq rfl
  | cons c cs ih =>
    have hch := hpre.ch s c
    have hp := hch.canonical hs
    have hheld (n : Nat) : (((pre s c).commit c ng).findStay n).isSome = (s.findStay n).isSome := by
      rw [← Option.isSome_map (f := fun e => e.1), commit_found hp, findStay_congr hch.stays_eq, Option.isSome_map]
    have hsame (d : Charge) : ((pre s c).commit c ng).chargeOutline ng d = s.chargeOutline ng d := by
      simp only [chargeOutline, hheld]
    have hpresame : (pre s c).chargeOutline ng c = s.chargeOutline ng c := by
      simp only [chargeOutline, findStay_congr hch.stays_eq]
    obtain ⟨m, hm, hlog⟩ := commit_logged (fun r => w r.outline) (pre s c) c ng
    have hrest := ih ((commit_ch c ng (pre s c)).canonical hp)
    simp only [hsame] at hrest
    rw [hm, hpresame] at hlog
    exact ((hg s c).trans hlog).trans hrest

theorem recordRevocation_logged {β : Type} {view : Record → Option β} {cause : Cause}
    (hv : ∀ r, r.kind = cause.recKind ∨ r.kind = .revocationComplete → view r = none) (i : Nat) (c : Cred) (s : State) :
    Logged view s (s.recordRevocation i c cause) [] := by
  have hlog (u : State) (d : Draft) (hd : d.kind = cause.recKind ∨ d.kind = .revocationComplete) :
      Logged view u (u.handOver d) [] := by
    have h := Logged.of_handOver (view := view) u d
    rwa [hv (u.stamp d) hd] at h
  have hstart (u : State) (n : Nat) (o : Bool) : Logged view u (u.startLog i c cause n o) [] := hlog u _ (.inl rfl)
  by_cases hd : s.removingAt i = []
  · rw [recordRevocation_none hd]
    exact (hstart ..).trans (hlog _ _ (.inr rfl))
  · cases hk : Tab.lowestFree s.revocations 32 with
    | some k =>
      rw [recordRevocation_free hd hk]
      generalize hu : ({ s with revocations := _ } : State) = u
      have hj : u.journal = s.journal := by subst hu; rfl
      exact Logged.after_eq hj (hstart u _ _)
    | none =>
      rw [recordRevocation_full hd hk]
      have hj := (Changes.fold (fun s p => overflowAt_ch i s p) (s.removingAt i) s).journal_eq
      generalize (s.removingAt i).foldl (overflowAt i) s = u at hj
      refine Logged.then_eq (Logged.after_eq hj (hstart u (s.removingAt i).length true)) ?_
      rw [faultWith, giveFault_journal]

/-- A reading that sees no revocation records sees nothing of a revocation. -/
theorem revoke_logged {β : Type} {view : Record → Option β} {cause : Cause}
    (hv : ∀ r, r.kind = cause.recKind ∨ r.kind = .revocationComplete → view r = none) (i : Nat) (s : State) :
    Logged view s (s.revoke i cause) [] := by
  by_cases hn : s.NotActive i
  · rw [revoke_of_not hn]
    exact .of_journal_eq rfl
  · simp only [NotActive, not_forall, not_not] at hn
    obtain ⟨c, hc, ha⟩ := hn
    rw [revoke_eq hc ha]
    exact (recordRevocation_logged hv i c _).after_eq (swept_ch i c cause s).journal_eq

theorem revokeAll_ch (is : List Nat) (cause : Cause) (s : State) : Changes kRev s (s.revokeAll is cause) :=
  .fold (fun s i => revoke_ch i cause s) is s

theorem revokeAll_logged {β : Type} {view : Record → Option β} {cause : Cause}
    (hv : ∀ r, r.kind = cause.recKind ∨ r.kind = .revocationComplete → view r = none) (is : List Nat) (s : State) :
    Logged view s (s.revokeAll is cause) [] := by
  have h := Logged.fold (view := view) (f := fun s i => s.revoke i cause) (fun _ => []) (fun _ => True) is
    (fun _ _ _ => trivial) (fun s i _ _ => revoke_logged hv i s) (s := s) trivial
  rwa [List.flatMap_eq_nil_iff.mpr (fun _ _ => rfl)] at h

theorem revokeAll_base {s : State} (hs : s.Canonical) (is : List Nat) (cause : Cause) (q : Nat) :
    ((s.revokeAll is cause).place q).base = (s.place q).base := by
  unfold revokeAll
  induction is generalizing s with
  | nil => rfl
  | cons i is ih => exact (ih ((revoke_ch i cause s).canonical hs)).trans (revoke_base hs i cause q)

theorem revokeAll_cred_ne (is : List Nat) (cause : Cause) (s : State) {j : Nat} (hj : j ∉ is) :
    (s.revokeAll is cause).cred j = s.cred j := by
  unfold revokeAll
  induction is generalizing s with
  | nil => rfl
  | cons i is ih =>
    obtain ⟨h1, h2⟩ := not_or.mp (List.mem_cons.not.mp hj)
    exact (ih (s.revoke i cause) h2).trans (revoke_cred_ne s cause h1)

theorem revokeAll_cred {is : List Nat} (hn : is.Nodup) (cause : Cause) {s : State} {j : Nat} (hj : j ∈ is) {c : Cred}
    (hc : s.cred j = some c) (ha : c.state = .active) :
    (s.revokeAll is cause).cred j = some { c with state := cause.newState } := by
  unfold revokeAll
  induction is generalizing s with
  | nil => cases hj
  | cons i is ih =>
    obtain ⟨hi, hn⟩ := List.nodup_cons.mp hn
    by_cases hji : j = i
    · subst hji
      exact (revokeAll_cred_ne is cause _ hi).trans (revoke_cred_self hc ha cause)
    · exact ih hn ((List.mem_cons.mp hj).resolve_left hji) ((revoke_cred_ne s cause hji).trans hc)

/-! ## The room of a closed stay (R20, R130) -/

theorem closeRoom_look {s : State} (hs : s.Canonical) {r j : Nat} {z : Room} (h : s.findRoom r = some (j, z)) :
    Tab.look ((s.setOpenStay r none).removeRoom r).rooms j =
        (if s.roomNamed r then some { z with openStay := none } else none) ∧
      ∀ k, k ≠ j → Tab.look ((s.setOpenStay r none).removeRoom r).rooms k = Tab.look s.rooms k := by
  have hset : s.setOpenStay r none = s.setRoom j { z with openStay := none } := by simp only [setOpenStay, h]
  have hfind : (s.setRoom j { z with openStay := none }).findRoom r = some (j, { z with openStay := none }) :=
    findRoom_write_same hs rfl h (findRoom_look hs h).2
  have hnamed : (s.setRoom j { z with openStay := none }).roomNamed r = s.roomNamed r := rfl
  have hrise : Tab.Rising (s.setRoom j { z with openStay := none }).rooms := Tab.write_rising _ _ hs.rooms
  have hrooms : (s.setRoom j { z with openStay := none }).rooms = Tab.write s.rooms j { z with openStay := none } := rfl
  rw [hset, removeRoom, hfind]
  simp only [hnamed, Option.isNone_none, Bool.and_true, Bool.not_eq_true']
  cases hn : s.roomNamed r with
  | true =>
    simp only [reduceCtorEq, if_false, if_true, hrooms]
    exact ⟨Tab.look_write_self .., fun k hk => Tab.look_write_ne _ _ hk⟩
  | false =>
    simp only [if_true, Bool.false_eq_true, if_false]
    refine ⟨Tab.look_clear_self _ _ hrise, fun k hk => (Tab.look_clear_ne _ hk).trans ?_⟩
    rw [hrooms, Tab.look_write_ne _ _ hk]

theorem closeRoom_none {s : State} {r : Nat} (h : s.findRoom r = none) :
    (s.setOpenStay r none).removeRoom r = s := by
  have hset : s.setOpenStay r none = s := by simp only [setOpenStay, h]
  rw [hset, removeRoom, h]

theorem closeRoom_ch (s : State) (r : Nat) : Changes kRoom s ((s.setOpenStay r none).removeRoom r) :=
  (setOpenStay_ch ..).comp (removeRoom_ch ..)

/-! ## The OPEN stay closed -/

/-- The stay numbers' charges. -/
def chargesOf (s : State) (n : Nat) : List Charge := s.pendingCharges.filter (fun c => c.stay == n)

/-- How an outline reads as a charge of a folio. -/
def folioLine (o : Outline) : Option (Spot × Option Nat × Bool) :=
  if o.1 = .minibarCharge then some (o.2.1, o.2.2.1, o.2.2.2.1) else none

theorem folioLine_filterMap (l : List Record) : l.filterMap (fun r => folioLine r.outline) =
    (l.filter (fun d => decide (d.kind = .minibarCharge))).map (fun d => (d.spot, d.card, d.marks.noGrace)) := by
  induction l with
  | nil => rfl
  | cons r l ih =>
    by_cases h : r.kind = .minibarCharge
    · simp [folioLine, Record.outline, h, ← ih]
    · simp [folioLine, Record.outline, h, ← ih]

/-- The entry of a stay closed, its charges committed. -/
def closedStay (s : State) (n : Nat) (x : Stay) : Stay :=
  { x.charged (s.chargesOf n) with isOpen := false, closed := some s.clock.m }

theorem closeStay_eq {s : State} (hs : s.Canonical) {n i : Nat} {x : Stay} (hf : s.findStay n = some (i, x)) :
    let v := s.commitWhere (fun c => c.stay == n) true
    let y := s.closedStay n x
    Tab.look v.stays i = some (x.charged (s.chargesOf n)) ∧
    s.closeStay i n = (((((v.setStay i y).setOpenStay x.room none).removeRoom x.room).log .stayClosed (.room x.room)
      (le 2 n ++ le 3 y.total ++ flag y.saturated ++ le 2 (s.chargesOf n).length)), (s.chargesOf n).length, y) := by
  intro v y
  have hcharged := commits_charged dropCharge_precedes hs true (s.chargesOf n)
  have hbound : s.boundTo i (s.chargesOf n) = s.chargesOf n := by
    refine List.filter_eq_self.mpr (fun c hc => ?_)
    have hn : c.stay = n := by simpa using (List.mem_filter.mp hc).2
    simp [hn, hf]
  have hv : Tab.look v.stays i = some (x.charged (s.chargesOf n)) := by
    have h := hcharged.stays i x (findStay_look hs hf).1
    rw [hbound] at h
    exact h
  have hclock : v.clock = s.clock := (commitWhere_ch ..).clock_eq
  refine ⟨hv, ?_⟩
  simp only [closeStay]
  rw [show (s.commitWhere (fun c => c.stay == n) true) = v from rfl, hv]
  simp only [hclock]
  rfl

/-- R130: what closing an OPEN stay leaves. -/
theorem closeStay_spec {s : State} (hs : s.Canonical) {n i : Nat} {x : Stay} (hf : s.findStay n = some (i, x)) :
    let u := (s.closeStay i n).1
    let y := s.closedStay n x
    Tab.look u.stays i = some y ∧ (∀ j, j ≠ i → Tab.look u.stays j = Tab.look s.stays j) ∧
    u.pendingCharges = s.pendingCharges.filter (fun c => c.stay != n) ∧
    (∀ q d, u.comp q d = if ∃ c ∈ s.chargesOf n, q = c.place ∧ d = c.compartment then cleared (s.comp q d) else s.comp q d) ∧
    (∀ j z, s.findRoom x.room = some (j, z) →
      Tab.look u.rooms j = if s.roomNamed x.room then some { z with openStay := none } else none) ∧
    (∀ j, (∀ z, s.findRoom x.room ≠ some (j, z)) → Tab.look u.rooms j = Tab.look s.rooms j) ∧
    (u.journal.storable = true → s.journal.storable = true ∧ ∃ mid m,
      u.journal.ring = s.journal.ring ++ mid ++ [m] ∧ m.kind = .stayClosed ∧
      m.spot = .room x.room ∧ m.detail = le 2 n ++ le 3 y.total ++ flag y.saturated ++ le 2 (s.chargesOf n).length ∧
      mid.filterMap (fun r => folioLine r.outline) =
        (s.chargesOf n).map (fun c => (Spot.drop c.place, c.card, true))) ∧
    u.creds = s.creds := by
  intro u y
  obtain ⟨hlook, heq⟩ := closeStay_eq hs hf
  have hu : u = _ := congrArg Prod.fst heq
  simp only at hu hlook
  have hch := commitWhere_ch (fun c => c.stay == n) true s
  have hcharged := commits_charged dropCharge_precedes hs true (s.chargesOf n)
  have hcomp := commits_comp dropCharge_precedes hs true (s.chargesOf n)
  have hrest := commits_rest dropCharge_precedes hs true (s.chargesOf n)
  have hlist := commitWhere_charges (fun c => c.stay == n) true s
  have hlogged := commits_logged folioLine dropCharge_precedes (g := fun _ => [])
    (fun _ _ => Logged.of_journal_eq rfl) hs true (s.chargesOf n)
  simp only [chargesOf, ← commitWhere_eq] at hcharged hcomp hlogged hrest
  generalize s.commitWhere (fun c => c.stay == n) true = v at *
  have hcan : (v.setStay i y).Canonical := (setStay_ch ..).canonical (hch.canonical hs)
  have hroom := closeRoom_ch (v.setStay i y) x.room
  have hclose := fun j z => closeRoom_look hcan (r := x.room) (j := j) (z := z)
  have hnone := closeRoom_none (s := v.setStay i y) (r := x.room)
  have hfind : (v.setStay i y).findRoom x.room = s.findRoom x.room := findRoom_congr hch.rooms_eq _
  have hvrooms : (v.setStay i y).rooms = s.rooms := hch.rooms_eq
  have hnamed : (v.setStay i y).roomNamed x.room = s.roomNamed x.room :=
    roomNamed_congr hs hcan (fun p => (congrArg Place.door (hrest p) :)) x.room
  rw [hfind] at hclose hnone
  rw [hnamed] at hclose
  generalize ((v.setStay i y).setOpenStay x.room none).removeRoom x.room = w at *
  have hlog : Changes kLog w u := hu ▸ log_ch ..
  have hstays : u.stays = Tab.write v.stays i y := hlog.stays_eq.trans hroom.stays_eq
  have hother (j : Nat) (hj : j ≠ i) : Tab.look v.stays j = Tab.look s.stays j := by
    have hb : s.boundTo j (s.pendingCharges.filter (fun c => c.stay == n)) = [] := by
      refine List.filter_eq_nil_iff.mpr (fun c hc => ?_)
      have hn : c.stay = n := by simpa using (List.mem_filter.mp hc).2
      simp [hn, hf, Ne.symm hj]
    cases hl : Tab.look s.stays j with
    | none => exact hcharged.unused j hl
    | some z => rw [hcharged.stays j z hl, hb, Stay.charged_nil]
  refine ⟨by rw [hstays, Tab.look_write_self], fun j hj => by rw [hstays, Tab.look_write_ne _ _ hj, hother j hj], ?_,
    fun q d => ?_, fun j z h => ?_, fun j h => ?_, fun hj => ?_, ?_⟩
  · rw [hlog.charges_eq, hroom.charges_eq]
    exact hlist
  · rw [comp_congr hlog.places_eq, comp_congr hroom.places_eq]
    exact hcomp q d
  · rw [hlog.rooms_eq]
    exact (hclose j z h).1
  · rw [hlog.rooms_eq]
    cases hr : s.findRoom x.room with
    | none => rw [hnone hr, hvrooms]
    | some e =>
      refine ((hclose e.1 e.2 hr).2 j (fun hj => h e.2 ?_)).trans (congrArg (Tab.look · j) hvrooms)
      rw [hr, hj]
  · have hw : w.journal = v.journal := hroom.journal_eq
    rw [hu] at hj ⊢
    have hs1 := storable_of_handOver hj
    obtain ⟨added, h1, h2⟩ := hlogged.ring (hw ▸ hs1)
    refine ⟨hlogged.storable (hw ▸ hs1), added, _, (handOver_ring _ hs1).trans (by rw [hw, h1]), rfl, rfl, rfl, h2.trans ?_⟩
    rw [List.map_eq_flatMap]
    refine List.flatMap_congr (fun c hc => ?_)
    have hn : c.stay = n := by simpa using (List.mem_filter.mp hc).2
    simp [folioLine, chargeOutline, hn, hf]
  · rw [hlog.creds_eq, hroom.creds_eq]
    exact hch.creds_eq

end State

/-! ## The requests -/

/-- R129: STAY CLOSE behind its payload. -/
theorem stayCloseBody_eq {q : Request} {s : State} {n r : Nat} (hpay : q.payload = le 2 n ++ le 2 r) (hn : n ≤ 65535)
    (hr : r ≤ 65535) :
    (n = 0 → stayCloseBody q s = (s, badField 1)) ∧ (1 ≤ n → r = 0 → stayCloseBody q s = (s, badField 2)) ∧
    (1 ≤ n → 1 ≤ r → (∀ i x, s.findStay n = some (i, x) → x.room = r) → stayCloseBody q s = stayCloseHeld n s) ∧
    (∀ i x, 1 ≤ n → 1 ≤ r → s.findStay n = some (i, x) → x.room ≠ r → stayCloseBody q s = (s, badField 2)) := by
  have hv1 : Fields.val [(1, n), (2, r)] 1 = n := rfl
  have hv2 : Fields.val [(1, n), (2, r)] 2 = r := rfl
  unfold stayCloseBody
  rw [withFields_ok (readLayout_two hpay (by omega) (by omega))]
  simp only [hv1, hv2]
  refine ⟨fun h => by rw [if_pos h], fun h h' => ?_, fun h h' hx => ?_, fun i x h h' hf hx => ?_⟩
  · rw [if_neg (by omega), if_pos h']
  · rw [if_neg (by omega), if_neg (by omega), if_neg]
    cases hf : s.findStay n with
    | none => simp
    | some e => simp [hx e.1 e.2 hf]
  · rw [if_neg (by omega), if_neg (by omega), hf, if_pos (by simpa using hx)]

theorem stayOpenBody_eq {q : Request} {s : State} {r n e k : Nat} (hform : q.form = .room r)
    (hpay : q.payload = le 2 n ++ le 3 e ++ le 3 k) (hn : n ≤ 65535) (he : e ≤ top24) (hk : k ≤ top24) :
    (n = 0 → stayOpenBody q s = (s, badField 1)) ∧
    (∀ x, 1 ≤ n → s.stayChecks r n = some x → stayOpenBody q s = (s, .refused x [])) ∧
    (∀ i, 1 ≤ n → s.stayChecks r n = none → s.freeStay = some i →
      stayOpenBody q s = (s.writeStay i ⟨n, r, s.clock.m, e, k⟩, .done (le 2 i))) := by
  have hv1 : Fields.val [(1, n), (2, e), (3, k)] 1 = n := rfl
  have htop : top24 < 256 ^ 3 := by decide
  have hbody : stayOpenBody q s = stayOpenFor r q s := by simp only [stayOpenBody, hform]
  rw [hbody, stayOpenFor, withFields_ok (readLayout_three hpay (by omega) (by omega) (by omega))]
  simp only [hv1]
  refine ⟨fun h => by rw [if_pos h], fun x h hx => by rw [if_neg (by omega), hx], fun i h hx hi => ?_⟩
  rw [if_neg (by omega), hx, hi]
  rfl

namespace State

/-- What STAY CLOSE of an OPEN stay leaves (R130), its cards revoked first (R129). -/
theorem closeHeld_spec {s : State} (hs : s.Canonical) {n i : Nat} {x : Stay} (hf : s.findStay n = some (i, x)) :
    let u := ((s.revokeAll (s.guestsOf n) .checkout).closeStay i n).1
    let y := s.closedStay n x
    Tab.look u.stays i = some y ∧ (∀ j, j ≠ i → Tab.look u.stays j = Tab.look s.stays j) ∧
    u.pendingCharges = s.pendingCharges.filter (fun c => c.stay != n) ∧
    (∀ c ∈ s.chargesOf n, (s.comp c.place c.compartment).state = .pending ∨
        (s.comp c.place c.compartment).state = .stocked →
      u.comp c.place c.compartment = { s.comp c.place c.compartment with state := .empty, reversals := 0 }) ∧
    (∀ j z, s.findRoom x.room = some (j, z) →
      Tab.look u.rooms j = if s.roomNamed x.room then some { z with openStay := none } else none) ∧
    (∀ j, (∀ z, s.findRoom x.room ≠ some (j, z)) → Tab.look u.rooms j = Tab.look s.rooms j) ∧
    (u.journal.storable = true → ∃ mid m, u.journal.ring = s.journal.ring ++ mid ++ [m] ∧ m.kind = .stayClosed ∧
      m.spot = .room x.room ∧ m.detail = le 2 n ++ le 3 y.total ++ flag y.saturated ++ le 2 (s.chargesOf n).length ∧
      (mid.filter (fun d => decide (d.kind = .minibarCharge))).map (fun d => (d.spot, d.card, d.marks.noGrace)) =
        (s.chargesOf n).map (fun c => (Spot.drop c.place, c.card, true))) ∧
    (∀ j ∈ s.guestsOf n, ∀ c, s.cred j = some c → u.cred j = some { c with state := .revoked }) ∧
    (∀ j, j ∉ s.guestsOf n → u.cred j = s.cred j) := by
  have hch := revokeAll_ch (s.guestsOf n) .checkout s
  have hbase := revokeAll_base hs (s.guestsOf n) .checkout
  have hlogged : Logged (fun r => folioLine r.outline) s (s.revokeAll (s.guestsOf n) .checkout) [] :=
    revokeAll_logged (fun r hr => by rcases hr with hr | hr <;> simp [folioLine, Record.outline, hr, Cause.recKind]) _ s
  have hmem := fun j => mem_guestsOf hs (n := n) (j := j)
  have hcred := fun j c hj => revokeAll_cred (guestsOf_nodup hs n) .checkout (s := s) (j := j) (c := c) hj
  have hother := fun j => revokeAll_cred_ne (s.guestsOf n) .checkout s (j := j)
  generalize s.revokeAll (s.guestsOf n) .checkout = v at *
  intro u y
  obtain ⟨hstay, hstays, hcharges, hcomp, hroom, hrooms, hring, hcreds⟩ :=
    closeStay_spec (hch.canonical hs) ((findStay_congr hch.stays_eq n).trans hf)
  have hmine : v.chargesOf n = s.chargesOf n := by rw [chargesOf, hch.charges_eq, chargesOf]
  have hclosed : v.closedStay n x = s.closedStay n x := by rw [closedStay, hmine, hch.clock_eq, ← closedStay]
  have hvcomp (p c : Nat) : v.comp p c = s.comp p c := by
    rw [comp, comp, show (v.place p).comps = (s.place p).comps from (congrArg Place.comps (hbase p) :)]
  have hnamed : v.roomNamed x.room = s.roomNamed x.room :=
    roomNamed_congr hs (hch.canonical hs) (fun p => (congrArg Place.door (hbase p) :)) x.room
  rw [hclosed] at hstay hring
  rw [hmine] at hring
  rw [hch.stays_eq] at hstays
  rw [hch.charges_eq] at hcharges
  simp only [hmine, hvcomp] at hcomp
  rw [findRoom_congr hch.rooms_eq, hnamed] at hroom
  rw [findRoom_congr hch.rooms_eq, hch.rooms_eq] at hrooms
  refine ⟨hstay, hstays, hcharges, fun c hc hst => ?_, hroom, hrooms, fun hj => ?_, fun j hj c hc => ?_, fun j hj => ?_⟩
  · exact (hcomp ..).trans ((if_pos ⟨c, hc, rfl, rfl⟩).trans (if_pos hst))
  · obtain ⟨hv, mid, m, h1, h2, h3, h4, h5⟩ := hring hj
    obtain ⟨before, hb, hnone⟩ := hlogged.ring hv
    refine ⟨before ++ mid, m, by rw [h1, hb]; simp only [List.append_assoc], h2, h3, h4, ?_⟩
    rw [← folioLine_filterMap, List.filterMap_append, hnone, h5, List.nil_append]
  · obtain ⟨d, hd, ha, -⟩ := (hmem j).mp hj
    rw [hc] at hd
    cases hd
    exact (congrArg (Tab.look · j) hcreds).trans (hcred j c hj hc ha)
  · exact (congrArg (Tab.look · j) hcreds).trans (hother j hj)

/-- STAY CLOSE of an OPEN stay (R130), the cards revoked first. -/
theorem stayCloseHeld_open {s : State} (hs : s.Canonical) {n i : Nat} {x : Stay} (hf : s.findStay n = some (i, x))
    (ho : x.isOpen = true) :
    let v := s.revokeAll (s.guestsOf n) .checkout
    let u := (v.closeStay i n).1
    let y := s.closedStay n x
    stayCloseHeld n s = (u, .done (le 2 (s.guestsOf n).length ++ le 2 (s.chargesOf n).length ++ le 3 y.total
      ++ flag y.saturated)) := by
  intro v u y
  have hch := revokeAll_ch (s.guestsOf n) .checkout s
  have hfind : v.findStay n = some (i, x) := (findStay_congr hch.stays_eq n).trans hf
  obtain ⟨-, heq⟩ := closeStay_eq (hch.canonical hs) hfind
  have hcharges : v.chargesOf n = s.chargesOf n := by rw [chargesOf, hch.charges_eq, chargesOf]
  have hy : v.closedStay n x = y := by rw [closedStay, hcharges, hch.clock_eq, ← closedStay]
  rw [hcharges, hy] at heq
  have hsnd : (v.closeStay i n).2 = ((s.chargesOf n).length, y) := congrArg Prod.snd heq
  simp only [stayCloseHeld]
  rw [show s.revokeAll (s.guestsOf n) .checkout = v from rfl, hfind]
  simp only [ho, if_true, hsnd]
  rfl

end State

/-- Settles O52: each row by its checks, STAY CLOSE through what it commits and what it revokes. -/
theorem staysRun : Obligations.StaysRun := by
  refine ⟨fun q s r n e k hq hs hform hpay hn he hk => ?_, fun s i hs => State.freeStay_iff hs i,
    fun q s n e hq hs hpay hn he => ?_, fun q s n r hq hpay hn hr => ?_, fun q s n r i x hq hs hpay h1 hn h1r hr hf => ?_⟩
  · obtain ⟨hzero, hrefused, hdone⟩ := stayOpenBody_eq (s := s) hform hpay hn he hk
    rw [exec_stayOpen, runRequest_takes hq]
    refine ⟨fun h => by rw [hzero h], fun h ho => ?_, fun h ho hx => ?_, fun h ho hx hfull => ?_,
      fun i h ho hx hi hr => ?_⟩
    · rw [hrefused _ h (State.stayChecks_occupied ho)]
    · rw [hrefused _ h (State.stayChecks_duplicate ho (Option.isSome_iff_exists.mpr hx))]
    · rw [hrefused _ h (State.stayChecks_full ho hx hfull)]
    · rw [hdone i h (State.stayChecks_none ho hx hi hr) hi]
      exact ⟨_, rfl, State.writeStay_spec hs i ⟨n, r, s.clock.m, e, k⟩ hr⟩
  · have htop : top24 < 256 ^ 3 := by decide
    obtain ⟨hzero, hclosed, hdone⟩ :=
      State.stayExtendBody_eq (s := s) (readLayout_two (k1 := 1) (k2 := 2) hpay (by omega) (by omega))
    rw [exec_stayExtend, runRequest_takes hq]
    refine ⟨fun h => by rw [hzero h], fun i x h hf ho => by rw [hclosed i x h hf ho], fun h ho => ?_⟩
    obtain ⟨hflag, hspec⟩ := State.extended_spec (e := e) hs ho
    rw [hdone h ho, hflag]
    exact ⟨_, rfl, hspec⟩
  · obtain ⟨hzero, hroom, hheld, -⟩ := stayCloseBody_eq (s := s) hpay hn hr
    rw [exec_stayClose, runRequest_takes hq]
    refine ⟨fun h => by rw [hzero h], fun h h' => by rw [hroom h h'], fun h h' hf => ?_⟩
    have hfind := (State.findStay_congr (State.revokeAll_ch (s.guestsOf n) .checkout s).stays_eq n).trans hf
    rw [hheld h h' (fun i x hx => by rw [hf] at hx; cases hx)]
    simp only [stayCloseHeld, hfind]
  · obtain ⟨-, -, hheld, hother⟩ := stayCloseBody_eq (s := s) hpay hn hr
    have hch := State.revokeAll_ch (s.guestsOf n) .checkout s
    have hfind := (State.findStay_congr hch.stays_eq n).trans hf
    have hmine (h : x.room = r) : stayCloseBody q s = stayCloseHeld n s :=
      hheld h1 h1r (fun j y hy => by rw [hf] at hy; cases hy; exact h)
    rw [exec_stayClose, runRequest_takes hq]
    refine ⟨fun h => by rw [hother i x h1 h1r hf h], fun h ho => ?_, fun h ho => ?_⟩
    · rw [hmine h]
      simp only [stayCloseHeld, hfind, ho, Bool.false_eq_true, if_false]
    · rw [hmine h, State.stayCloseHeld_open hs hf ho]
      exact ⟨_, s.closedStay n x, rfl, rfl, h ▸ State.closeHeld_spec hs hf⟩

end Sys2Proof.Machine
end

