-- ==== Sys2Proof/Proofs/Loaded.lean ====
section
/-! O48: LOAD CREDENTIALS and LOAD STAYS, their table checks and what the entries written leave (R17, R191, R193). -/

set_option Elab.async false

namespace Sys2Proof.Machine

/-! ## The entries of a LOAD -/

theorem indexed_keys {α : Type} (i : Nat) (as : List α) : (indexed i as).map (fun e => e.1) = List.range' i as.length := by
  induction as generalizing i with
  | nil => rfl
  | cons a as ih => simp [indexed, List.range'_succ, ih]

/-- R190: the entries of a LOAD stand at different indices. -/
theorem readLoad_keys {α : Type} {t : TableId} {r : Reader} {check : Nat → Fields → Except Nat α} {payload : List Byte}
    {es : Entries α} (h : readLoad t r check payload = .ok es) : (es.map (fun e => e.1)).Nodup := by
  unfold readLoad at h
  split at h
  · cases h
  · split at h
    · cases h
    · split at h
      · cases h
      · split at h
        · cases h
        · cases h
          rw [indexed_keys]
          exact List.nodup_range'

theorem twice_iff {l : List Nat} : twice l = true ↔ ¬l.Nodup := by
  induction l with
  | nil => simp [twice]
  | cons n l ih =>
    simp only [twice, Bool.or_eq_true, List.contains_iff_mem, ih, List.nodup_cons]
    tauto

theorem distinct_of_nodup {l : List Nat} (h : l.Nodup) : distinct l = l := by
  induction l with
  | nil => rfl
  | cons n l ih =>
    obtain ⟨h1, h2⟩ := List.nodup_cons.mp h
    simp [distinct, h1, ih h2]

/-- The body of a LOAD whose entries are read. -/
theorem loadBody_ok {α : Type} {t : TableId} {r : Reader} {check : State → Nat → Fields → Except Nat α} {q : Request}
    {s : State} {es : Entries α} (h : readLoad t r (check s) q.payload = .ok es) (k : Entries α → Body) :
    loadBody t r check q k s = k es s := by
  rw [loadBody, h]

theorem loadBody_error {α : Type} {t : TableId} {r : Reader} {check : State → Nat → Fields → Except Nat α} {q : Request}
    {s : State} {b : BadField} (h : readLoad t r (check s) q.payload = .error b) (k : Entries α → Body) :
    loadBody t r check q k s = (s, badRecord b) := by
  rw [loadBody, h]

/-! ## Entries written one after another -/

namespace State

section
variable {γ : Type} {f : State → Nat × γ → State} {es : Entries γ}

/-- Entries at different indices, each handled at its own. `G` is what an operation needs of the state and keeps, `I` what it
needs of the state and its entry, which the others keep. -/
theorem fold_table {β : Type} {val : State → Nat → Option β} {g : Nat × γ → Option β} {G : State → Prop}
    {I : State → Nat × γ → Prop} (hG : ∀ s e, G s → I s e → G (f s e))
    (hI : ∀ s e d, G s → I s e → d.1 ≠ e.1 → I s d → I (f s e) d)
    (hself : ∀ s e, G s → I s e → val (f s e) e.1 = g e)
    (hother : ∀ s e j, G s → I s e → j ≠ e.1 → val (f s e) j = val s j)
    (hn : (es.map (fun e => e.1)).Nodup) {s : State} (hs : G s) (hi : ∀ e ∈ es, I s e) :
    G (es.foldl f s) ∧ (∀ e ∈ es, val (es.foldl f s) e.1 = g e) ∧
      ∀ j, (∀ e ∈ es, e.1 ≠ j) → val (es.foldl f s) j = val s j := by
  induction es generalizing s with
  | nil => exact ⟨hs, fun e he => (by cases he), fun _ _ => rfl⟩
  | cons d es ih =>
    obtain ⟨hd, hn⟩ := List.nodup_cons.mp hn
    have hne : ∀ x ∈ es, x.1 ≠ d.1 := fun x hx h => hd (List.mem_map.mpr ⟨x, hx, h⟩)
    have hid := hi d (by simp)
    obtain ⟨ih0, ih1, ih2⟩ := ih hn (hG s d hs hid) (fun e he => hI s d e hs hid (hne e he) (hi e (by simp [he])))
    refine ⟨ih0, fun e he => ?_, fun j hj => ?_⟩
    · rcases List.mem_cons.mp he with rfl | he
      · rw [List.foldl_cons, ih2 e.1 hne, hself s e hs hid]
      · exact ih1 e he
    · rw [List.foldl_cons, ih2 j (fun e he => hj e (by simp [he])), hother s d j hs hid (fun h => hj d (by simp) h.symm)]

/-- The same where each operation writes at its own index whatever the state. -/
theorem fold_entries {β : Type} {val : State → Nat → Option β} {g : γ → Option β}
    (hG : ∀ s e, s.Canonical → (f s e).Canonical)
    (hf : ∀ s e j, s.Canonical → val (f s e) j = if j = e.1 then g e.2 else val s j)
    (hn : (es.map (fun e => e.1)).Nodup) {s : State} (hs : s.Canonical) :
    (∀ e ∈ es, val (es.foldl f s) e.1 = g e.2) ∧ ∀ j, (∀ e ∈ es, e.1 ≠ j) → val (es.foldl f s) j = val s j :=
  (fold_table (G := Canonical) (I := fun _ _ => True) (g := fun e => g e.2) (fun s e h _ => hG s e h)
    (fun _ _ _ _ _ _ _ => trivial) (fun s e h _ => by rw [hf s e _ h, if_pos rfl])
    (fun s e j h _ hj => by rw [hf s e _ h, if_neg hj]) hn hs (fun _ _ => trivial)).2

theorem fold_dirty_mono (h : ∀ s e b, b ∈ s.dirty → b ∈ (f s e).dirty) {s : State} {b : Nat} (hb : b ∈ s.dirty) :
    b ∈ (es.foldl f s).dirty := by
  induction es generalizing s with
  | nil => exact hb
  | cons d es ih => exact ih (h s d b hb)

theorem fold_dirty {block : Nat × γ → Nat} (h : ∀ s e b, b = block e ∨ b ∈ s.dirty → b ∈ (f s e).dirty) {s : State}
    {e : Nat × γ} (he : e ∈ es) : block e ∈ (es.foldl f s).dirty := by
  induction es generalizing s with
  | nil => cases he
  | cons d es ih =>
    rcases List.mem_cons.mp he with rfl | he
    · rw [List.foldl_cons]
      exact fold_dirty_mono (fun s e b hb => h s e b (.inr hb)) (h s e _ (.inl rfl))
    · exact ih he

end

/-! ## LOAD CREDENTIALS -/

/-- What an entry of a LOAD CREDENTIALS may change. -/
abbrev kCred : List Part := [.faults, .notices, .journal, .dirty, .places, .creds]

theorem loadCred_parts (s : State) (e : Nat × Option CredIn) : Changes kCred s (s.loadCred e) := by
  unfold loadCred
  split
  · exact Changes.up (emptyCred_ch ..)
  · exact ((Changes.up (setCred_ch ..)).comp (logCard_ch ..)).comp (handCredential_ch ..)

theorem loadCred_cred {s : State} (hs : s.Canonical) (e : Nat × Option CredIn) (j : Nat) :
    (s.loadCred e).cred j = if j = e.1 then e.2.map (fun c => c.cred) else s.cred j := by
  obtain ⟨i, c⟩ := e
  cases c with
  | none =>
    rw [show (s.loadCred (i, none)).cred j = Tab.look (Tab.clear s.creds i) j from rfl, Tab.look_clear _ _ _ hs.creds]
    rfl
  | some c =>
    rw [show (s.loadCred (i, some c)).cred j = Tab.look (s.writeCred i c.cred).creds j from rfl, writeCred_creds]
    by_cases hj : j = i
    · subst hj; simp [Tab.look_write_self]
    · simp [Tab.look_write_ne _ _ hj, hj, cred]

theorem loadCred_dirty (s : State) (e : Nat × Option CredIn) (b : Nat) (h : b = credBlock e.1 ∨ b ∈ s.dirty) :
    b ∈ (s.loadCred e).dirty := by
  unfold loadCred
  split
  · exact dirty_markDirty.mpr h
  · exact writeCred_dirty _ _ h

/-- How a record reads as an enrolment. -/
def cardLine (x : Record) : Option (RecKind × Spot × Option Nat) := some (x.kind, x.spot, x.card)

theorem loadCred_logged (s : State) (e : Nat × Option CredIn) : Logged cardLine s (s.loadCred e)
    ((e.2.map (fun c => c.cred)).toList.map (fun c => (.enrolled, credSpot c, some c.card))) := by
  obtain ⟨i, c⟩ := e
  cases c with
  | none => exact .of_journal_eq rfl
  | some c =>
    refine Logged.then_eq ?_ (writeCred_journal i c.cred s)
    exact Logged.after_eq (t := s.setCred i c.cred) rfl (.of_handOver _ _)

theorem fold_loadCred_logged (es : Entries (Option CredIn)) (s : State) :
    Logged cardLine s (es.foldl loadCred s) ((activeOf es).map (fun c => (.enrolled, credSpot c, some c.card))) := by
  have h := Logged.fold (f := loadCred) _ (fun _ => True) es (fun _ _ _ => trivial)
    (fun s e _ _ => loadCred_logged s e) (s := s) trivial
  rwa [← List.map_flatMap, ← List.filterMap_eq_flatMap_toList] at h

end State

end Sys2Proof.Machine
end

