-- ==== Sys2Proof/Proofs/LoadChecks.lean ====
section
/-! The table checks of LOAD CREDENTIALS and LOAD STAYS, in order (R17, R193). -/

set_option Elab.async false

namespace Sys2Proof.Machine

namespace State

/-- R7: the room checks of one credential. -/
theorem roomChecks_cases (s : State) (c : Cred) :
    let below := c.kind = .guest ∧ ∃ g a, c.guest = some g ∧ s.accepted g.room = some a ∧ g.generation < a
    let homeless := c.kind = .guest ∧ ∃ g, c.guest = some g ∧ s.covered g.room = true ∧
      ∀ e ∈ s.stays, ¬(e.2.isOpen = true ∧ e.2.room = g.room ∧ e.2.number = g.stay)
    (below → s.roomChecks c = some .staleGeneration) ∧ (¬below → homeless → s.roomChecks c = some .noStay) ∧
    (¬below → ¬homeless → s.roomChecks c = none) := by
  intro below homeless
  by_cases hk : c.kind = .guest
  · cases hg : c.guest with
    | none =>
      have hn : s.roomChecks c = none := by simp [roomChecks, hk, hg]
      refine ⟨?_, fun _ => ?_, fun _ _ => hn⟩
      · rintro ⟨-, g, a, h, -⟩
        rw [hg] at h
        cases h
      · rintro ⟨-, g, h, -⟩
        rw [hg] at h
        cases h
    | some g =>
      have hbelow : below ↔ ∃ a, s.accepted g.room = some a ∧ g.generation < a := by simp [below, hk, hg]
      have hhome : homeless ↔ s.covered g.room = true ∧
          s.stays.any (fun e => e.2.isOpen && e.2.room == g.room && e.2.number == g.stay) = false := by
        rw [List.any_eq_false]
        simp [homeless, hk, hg, and_assoc]
      rw [hbelow, hhome]
      refine ⟨?_, fun hb => ?_, fun hb => ?_⟩
      · rintro ⟨a, ha, hlt⟩
        simp [roomChecks, hk, hg, ha, hlt]
      · rintro ⟨hc, hany⟩
        cases ha : s.accepted g.room with
        | none => simp [roomChecks, hk, hg, ha, hc, hany]
        | some a =>
          have hlt : ¬g.generation < a := fun h => hb ⟨a, ha, h⟩
          simp [roomChecks, hk, hg, ha, hlt, hc, hany]
      · intro hh
        have hh : (s.covered g.room && !s.stays.any (fun e => e.2.isOpen && e.2.room == g.room && e.2.number == g.stay))
            = false := by
          refine Bool.eq_false_iff.mpr (fun h => hh ?_)
          rwa [Bool.and_eq_true, Bool.not_eq_true'] at h
        cases ha : s.accepted g.room with
        | none => simp only [roomChecks, hk, hg, ha, hh, Bool.false_eq_true, if_false]
        | some a =>
          have hlt : ¬g.generation < a := fun h => hb ⟨a, ha, h⟩
          simp only [roomChecks, hk, hg, ha, hlt, decide_false, hh, Bool.false_eq_true, if_false]
  · have hn : s.roomChecks c = none := by
      unfold roomChecks
      split
      · rename_i h _; exact absurd h hk
      · rfl
    exact ⟨fun h => absurd h.1 hk, fun _ h => absurd h.1 hk, fun _ _ => hn⟩

theorem referenced_iff (s : State) (i : Nat) : s.referenced i = true ↔
    (∃ e ∈ s.places, ∃ d ∈ e.2.directory, d.index = i) ∨ ∃ e ∈ s.revocations, e.2.index = i := by
  simp [referenced, List.any_eq_true]

theorem duplicateCards_iff {s : State} (hs : s.Canonical) (es : Entries (Option CredIn)) :
    s.duplicateCards es = true ↔ ¬((activeOf es).map (fun c => c.card)).Nodup ∨
      ∃ i c, s.cred i = some c ∧ c.card ∈ (activeOf es).map (fun c => c.card) ∧ ∀ e ∈ es, e.1 ≠ i := by
  simp only [duplicateCards, Bool.or_eq_true, twice_iff, Tab.any_iff hs.creds, Bool.and_eq_true, List.contains_iff_mem,
    Bool.not_eq_true', List.any_eq_false, beq_iff_eq]
  rfl

/-- R17: checks 3 to 5, once R7 has passed on every record. -/
theorem credChecks_passed {s : State} {es : Entries (Option CredIn)} (h : ∀ d ∈ activeOf es, s.roomChecks d = none) :
    ((∃ e ∈ es, ∃ c, s.cred e.1 = some c ∧ c.state = .active) → s.credChecks es = some .busy) ∧
    ((¬∃ e ∈ es, ∃ c, s.cred e.1 = some c ∧ c.state = .active) → s.credChecks es =
      if es.any (fun e => s.referenced e.1) then some .revoking
      else if s.duplicateCards es then some .duplicate else none) := by
  unfold credChecks
  rw [List.findSome?_eq_none_iff.mpr h]
  refine ⟨fun hb => ?_, fun hb => ?_⟩
  · obtain ⟨e, he, c, hc, ha⟩ := hb
    exact if_pos (List.any_eq_true.mpr ⟨e, he, by simp [hc, ha]⟩)
  · refine if_neg (fun hany => hb ?_)
    obtain ⟨e, he, ha⟩ := List.any_eq_true.mp hany
    cases hc : s.cred e.1 with
    | none => simp [hc] at ha
    | some c => exact ⟨e, he, c, hc, by simpa [hc] using ha⟩

/-- R17: the first record that fails R7 gives the reason. -/
theorem credChecks_failed {s : State} {es : Entries (Option CredIn)} {pre post : List Cred} {c : Cred} {r : Reason}
    (hes : activeOf es = pre ++ c :: post) (hpre : ∀ d ∈ pre, s.roomChecks d = none) (hc : s.roomChecks c = some r) :
    s.credChecks es = some r := by
  have h : (activeOf es).findSome? s.roomChecks = some r := by
    rw [hes, List.findSome?_append, List.findSome?_eq_none_iff.mpr hpre, List.findSome?_cons, hc]
    rfl
  unfold credChecks
  rw [h]

/-! ## LOAD STAYS -/

/-- R193: the checks behind BUSY. -/
theorem loadStayChecks_eq {s : State} {es : Entries (Option StayIn)} :
    ((∃ e ∈ es, ∃ x, Tab.look s.stays e.1 = some x ∧ x.isOpen = true) → s.loadStayChecks es = some .busy) ∧
    ((¬∃ e ∈ es, ∃ x, Tab.look s.stays e.1 = some x ∧ x.isOpen = true) → s.loadStayChecks es =
      if twice ((opensOf es).map (fun x => x.number)) || s.stays.any (fun e =>
          (opensOf es).any (fun x => x.number == e.2.number) && !es.any (fun y => y.1 == e.1)) then some .duplicate
      else if twice ((opensOf es).map (fun x => x.room)) || (opensOf es).any (fun x => s.roomOccupied x.room) then
        some .roomOccupied
      else if 96 - s.rooms.length < s.roomsLacking ((opensOf es).map (fun x => x.room)) then some .tableFull
      else none) := by
  unfold loadStayChecks
  refine ⟨fun hb => ?_, fun hb => ?_⟩
  · obtain ⟨e, he, x, hx, ho⟩ := hb
    exact if_pos (List.any_eq_true.mpr ⟨e, he, by simp [hx, ho]⟩)
  · refine if_neg (fun hany => hb ?_)
    obtain ⟨e, he, ho⟩ := List.any_eq_true.mp hany
    cases hx : Tab.look s.stays e.1 with
    | none => simp [hx] at ho
    | some x => exact ⟨e, he, x, hx, by simpa [hx] using ho⟩

theorem loadStayDuplicate_iff {s : State} (hs : s.Canonical) (es : Entries (Option StayIn)) :
    (twice ((opensOf es).map (fun x => x.number)) || s.stays.any (fun e =>
        (opensOf es).any (fun x => x.number == e.2.number) && !es.any (fun y => y.1 == e.1))) = true ↔
      ¬((opensOf es).map (fun x => x.number)).Nodup ∨
        ∃ i x, Tab.look s.stays i = some x ∧ x.number ∈ (opensOf es).map (fun x => x.number) ∧ ∀ e ∈ es, e.1 ≠ i := by
  simp only [Bool.or_eq_true, twice_iff, Tab.any_iff hs.stays, Bool.and_eq_true, List.any_eq_true, Bool.not_eq_true',
    List.any_eq_false, beq_iff_eq, List.mem_map]

theorem loadStayOccupied_iff {s : State} (es : Entries (Option StayIn)) :
    (twice ((opensOf es).map (fun x => x.room)) || (opensOf es).any (fun x => s.roomOccupied x.room)) = true ↔
      ¬((opensOf es).map (fun x => x.room)).Nodup ∨
        ∃ r ∈ (opensOf es).map (fun x => x.room), s.roomOccupied r = true := by
  simp only [Bool.or_eq_true, twice_iff, List.any_eq_true, List.mem_map, exists_exists_and_eq_and]

/-- What R193's checks guarantee where all pass: different rooms, and an unused room entry for each that lacks one. -/
theorem loadStayChecks_none {s : State} {es : Entries (Option StayIn)} (h : s.loadStayChecks es = none) :
    ((opensOf es).map (fun x => x.room)).Nodup ∧
      (((opensOf es).map (fun x => x.room)).filter (fun r => (s.findRoom r).isNone)).length ≤ 96 - s.rooms.length := by
  obtain ⟨hbusy, hrest⟩ := loadStayChecks_eq (s := s) (es := es)
  by_cases hb : ∃ e ∈ es, ∃ x, Tab.look s.stays e.1 = some x ∧ x.isOpen = true
  · rw [hbusy hb] at h; cases h
  · rw [hrest hb] at h
    split at h
    · cases h
    · split at h
      · cases h
      · rename_i hocc
        rw [loadStayOccupied_iff] at hocc
        have hn : ((opensOf es).map (fun x => x.room)).Nodup := by tauto
        split at h
        · cases h
        · rename_i hlack
          rw [roomsLacking, distinct_of_nodup hn] at hlack
          exact ⟨hn, Nat.le_of_not_lt hlack⟩

end State

end Sys2Proof.Machine
end

