-- ==== Sys2Proof/Proofs/StaysLoaded.lean ====
section
/-! What the entries of a LOAD STAYS leave (R193), and O48. -/

set_option Elab.async false

namespace Sys2Proof.Machine

namespace State

theorem loadStay_stays {s : State} (hs : s.Canonical) (e : Nat × Option StayIn) (j : Nat) :
    Tab.look (s.loadStay e).stays j = if j = e.1 then e.2.map openedStay else Tab.look s.stays j := by
  obtain ⟨i, x⟩ := e
  cases x with
  | none =>
    rw [show (s.loadStay (i, none)).stays = Tab.clear s.stays i from rfl, Tab.look_clear _ _ _ hs.stays]
    rfl
  | some x =>
    rw [show s.loadStay (i, some x) = s.writeStay i x from rfl, writeStay_stays]
    by_cases hj : j = i
    · subst hj; simp [Tab.look_write_self]
    · simp [Tab.look_write_ne _ _ hj, hj]

theorem loadStay_dirty (s : State) (e : Nat × Option StayIn) (b : Nat) (h : b = stayBlock e.1 ∨ b ∈ s.dirty) :
    b ∈ (s.loadStay e).dirty := by
  unfold loadStay
  split
  · exact dirty_markDirty.mpr h
  · exact writeStay_dirty _ _ h

/-- An entry of a LOAD STAYS leaves the rooms that it does not name. -/
theorem loadStay_findRoom {s : State} (hs : s.Canonical) (e : Nat × Option StayIn) {r : Nat}
    (h : ∀ x, e.2 = some x → x.room ≠ r) : (s.loadStay e).findRoom r = s.findRoom r := by
  obtain ⟨i, x⟩ := e
  cases x with
  | none => rfl
  | some x => exact writeStay_findRoom_ne hs i x (Ne.symm (h x rfl))

theorem fold_loadStay_findRoom {es : Entries (Option StayIn)} {s : State} (hs : s.Canonical) {r : Nat}
    (h : ∀ x ∈ opensOf es, x.room ≠ r) : (es.foldl loadStay s).findRoom r = s.findRoom r := by
  induction es generalizing s with
  | nil => rfl
  | cons e es ih =>
    have hmem (x : StayIn) (hx : x ∈ opensOf es) : x ∈ opensOf (e :: es) := by
      obtain ⟨d, hd, hdx⟩ := List.mem_filterMap.mp hx
      exact List.mem_filterMap.mpr ⟨d, by simp [hd], hdx⟩
    rw [List.foldl_cons, ih ((loadStay_ch s e).canonical hs) (fun x hx => h x (hmem x hx))]
    exact loadStay_findRoom hs e (fun x hx => h x (List.mem_filterMap.mpr ⟨e, by simp, hx⟩))

/-- How a record reads as a stay that is opened. -/
def stayLine (m : Record) : Option (RecKind × Spot × List Byte) := some (m.kind, m.spot, m.detail)

theorem loadStay_logged (s : State) (e : Nat × Option StayIn) : Logged stayLine s (s.loadStay e)
    (e.2.toList.map (fun x => (.stayOpened, .room x.room, le 2 x.number ++ le 3 x.planned ++ le 3 x.cap))) := by
  obtain ⟨i, x⟩ := e
  cases x with
  | none => exact .of_journal_eq rfl
  | some x =>
    exact Logged.after_eq (t := (s.setStay i (openedStay x)).nameStay x.room x.number) (nameStay_ch ..).journal_eq
      (.of_handOver _ _)

theorem fold_loadStay_logged (es : Entries (Option StayIn)) (s : State) : Logged stayLine s (es.foldl loadStay s)
    ((opensOf es).map (fun x => (.stayOpened, .room x.room, le 2 x.number ++ le 3 x.planned ++ le 3 x.cap))) := by
  have h := Logged.fold (f := loadStay) _ (fun _ => True) es (fun _ _ _ => trivial)
    (fun s e _ _ => loadStay_logged s e) (s := s) trivial
  rwa [← List.map_flatMap, ← List.filterMap_eq_flatMap_toList] at h

/-- From `s` to `u` the room of an OPEN stay has its entry, named and marked dirty: the one it had, or a new one. -/
def Named (s u : State) (x : StayIn) : Prop := ∃ j y, u.findRoom x.room = some (j, y) ∧ roomBlock j ∈ u.dirty ∧
  (∀ k z, s.findRoom x.room = some (k, z) → j = k ∧ y = { z with openStay := some x.number }) ∧
  (s.findRoom x.room = none → j < 96 ∧ Tab.look s.rooms j = none ∧ y = s.newRoom x.room (some x.number))

/-- The rooms of a list that lack an entry. -/
def lacking (s : State) (xs : List StayIn) : Nat := ((xs.map (fun x => x.room)).filter (fun r => (s.findRoom r).isNone)).length

theorem lacking_cons (s : State) (x : StayIn) (xs : List StayIn) :
    s.lacking (x :: xs) = (if s.findRoom x.room = none then 1 else 0) + s.lacking xs := by
  simp only [lacking, List.map_cons, List.filter_cons, Option.isNone_iff_eq_none]
  split <;> simp [Nat.add_comm]

theorem lacking_congr {s t : State} {xs : List StayIn} (h : ∀ x ∈ xs, t.findRoom x.room = s.findRoom x.room) :
    t.lacking xs = s.lacking xs := by
  simp only [lacking]
  congr 1
  refine List.filter_congr (fun r hr => ?_)
  obtain ⟨x, hx, rfl⟩ := List.mem_map.mp hr
  rw [h x hx]

/-- The Room Table behind a stay written: as long as before, or longer by the entry that the room lacked. -/
theorem writeStay_length {s : State} (hs : s.Canonical) (i : Nat) (x : StayIn)
    (h : s.findRoom x.room ≠ none ∨ Tab.lowestFree s.rooms 96 ≠ none) :
    (s.writeStay i x).rooms.length = s.rooms.length + (if s.findRoom x.room = none then 1 else 0) ∧
      ∀ j, Tab.look (s.writeStay i x).rooms j = none → Tab.look s.rooms j = none := by
  have hset := (setStay_ch s i (openedStay x)).canonical hs
  have hlook (k : Nat) (y : Room) (j : Nat) (hj : Tab.look (Tab.write s.rooms k y) j = none) : Tab.look s.rooms j = none := by
    by_cases hjk : j = k
    · subst hjk; rw [Tab.look_write_self] at hj; cases hj
    · rwa [Tab.look_write_ne _ _ hjk] at hj
  rw [writeStay_eq, (log_ch ..).rooms_eq]
  cases hf : s.findRoom x.room with
  | some e =>
    obtain ⟨k, y⟩ := e
    rw [nameStay_rooms_held (s := s.setStay i (openedStay x)) hf]
    have hk : k ∈ Tab.keys s.rooms := Tab.look_isSome_iff.mp (by simp [(findRoom_look hs hf).1])
    exact ⟨Tab.length_write_of_key hs.rooms hk _, hlook _ _⟩
  | none =>
    obtain ⟨k, hk⟩ := Option.ne_none_iff_exists'.mp (h.resolve_left (fun h => h hf))
    rw [nameStay_rooms_new (s := s.setStay i (openedStay x)) hset hf hk]
    exact ⟨Tab.length_write_of_not_key (Tab.look_none_iff.mp (Tab.lowestFree_spec hk).1) _, hlook _ _⟩

/-- R193: every OPEN record is named in its room's entry. -/
theorem fold_loadStay_named {es : Entries (Option StayIn)} {s : State} (hs : s.Canonical)
    (hn : ((opensOf es).map (fun x => x.room)).Nodup) (hl : s.lacking (opensOf es) ≤ 96 - s.rooms.length) :
    ∀ x ∈ opensOf es, s.Named (es.foldl loadStay s) x := by
  induction es generalizing s with
  | nil => exact fun x hx => (by cases hx)
  | cons e es ih =>
    obtain ⟨i, v⟩ := e
    cases v with
    | none => exact ih ((loadStay_ch s (i, none)).canonical hs) hn hl
    | some x =>
      rw [show opensOf ((i, some x) :: es) = x :: opensOf es from rfl] at hn hl ⊢
      rw [List.foldl_cons, show s.loadStay (i, some x) = s.writeStay i x from rfl]
      obtain ⟨hx, hn⟩ := List.nodup_cons.mp hn
      have hother (y : StayIn) (hy : y ∈ opensOf es) : y.room ≠ x.room := fun h => hx (List.mem_map.mpr ⟨y, hy, h⟩)
      rw [lacking_cons] at hl
      have hroom : s.findRoom x.room ≠ none ∨ Tab.lowestFree s.rooms 96 ≠ none := by
        by_cases hf : s.findRoom x.room = none
        · rw [if_pos hf] at hl
          exact .inr (Tab.lowestFree_of_length (by omega))
        · exact .inl hf
      have hw := writeStay_ch i x s
      have hcan := hw.canonical hs
      have hsame (y : StayIn) (hy : y ∈ opensOf es) : (s.writeStay i x).findRoom y.room = s.findRoom y.room :=
        writeStay_findRoom_ne hs i x (hother y hy)
      obtain ⟨hlen, hmono⟩ := writeStay_length hs i x hroom
      have hrest := ih hcan hn (by rw [lacking_congr hsame, hlen]; omega)
      intro y hy
      rcases List.mem_cons.mp hy with rfl | hy
      · obtain ⟨j, z, h1, h2, h3, h4⟩ := writeStay_room hs i y hroom
        refine ⟨j, z, (fold_loadStay_findRoom hcan hother).trans h1, ?_, h3, fun hf => ?_⟩
        · exact fold_dirty_mono (fun s e b hb => loadStay_dirty s e b (.inr hb)) h2
        · obtain ⟨hlow, hz⟩ := h4 hf
          exact ⟨(Tab.lowestFree_spec hlow).2.1, (Tab.lowestFree_spec hlow).1, hz⟩
      · obtain ⟨j, z, h1, h2, h3, h4⟩ := hrest y hy
        rw [hsame y hy] at h3 h4
        refine ⟨j, z, h1, h2, h3, fun hf => ?_⟩
        obtain ⟨h5, h6, h7⟩ := h4 hf
        exact ⟨h5, hmono j h6, by rw [h7, newRoom, newRoom, roomPlace_congr hw.places_eq, roomPlace_congr hw.places_eq]⟩

/-- What an OPEN record makes of its room's entry. -/
theorem loadStay_rooms {s : State} (hs : s.Canonical) (i : Nat) (x : StayIn) :
    (∀ j y, s.findRoom x.room = some (j, y) →
      (s.loadStay (i, some x)).rooms = Tab.write s.rooms j { y with openStay := some x.number }) ∧
    ∀ j, s.findRoom x.room = none → Tab.lowestFree s.rooms 96 = some j →
      (s.loadStay (i, some x)).rooms = Tab.write s.rooms j (s.newRoom x.room (some x.number)) := by
  have hset := (setStay_ch s i (openedStay x)).canonical hs
  rw [show s.loadStay (i, some x) = s.writeStay i x from rfl, writeStay_eq, (log_ch ..).rooms_eq]
  exact ⟨fun j y h => nameStay_rooms_held (s := s.setStay i (openedStay x)) h,
    fun j h hj => nameStay_rooms_new (s := s.setStay i (openedStay x)) hset h hj⟩

end State

/-- A LOAD CREDENTIALS that passes its checks. -/
theorem loadCredentials_spec {s : State} (hs : s.Canonical) {es : Entries (Option CredIn)}
    (hn : (es.map (fun e => e.1)).Nodup) : let u := es.foldl State.loadCred s
    (∀ e ∈ es, u.cred e.1 = e.2.map (fun c => c.cred) ∧ State.credBlock e.1 ∈ u.dirty) ∧
      (∀ i, (∀ e ∈ es, e.1 ≠ i) → u.cred i = s.cred i) ∧
      u = { s with
        creds := u.creds, places := u.places, journal := u.journal, trunk := { s.trunk with notices := u.trunk.notices }
        faults := u.faults, alarm := u.alarm, dirty := u.dirty, writer := u.writer } ∧
      (u.journal.storable = true → ∃ added, u.journal.ring = s.journal.ring ++ added ∧
        added.map (fun x => (x.kind, x.spot, x.card)) =
          (activeOf es).map (fun c => (.enrolled, State.credSpot c, some c.card))) := by
  intro u
  have hch : Changes State.kCred s u := .fold State.loadCred_parts es s
  obtain ⟨h1, h2⟩ := State.fold_entries (val := State.cred) (fun s e hs => (State.loadCred_parts s e).canonical hs)
    (fun s e j hs => State.loadCred_cred hs e j) hn hs
  refine ⟨fun e he => ⟨h1 e he, State.fold_dirty (block := fun e => State.credBlock e.1) State.loadCred_dirty he⟩, h2, ?_,
    fun hj => ?_⟩
  · conv_lhs => rw [hch.frame]
    rw [hch.rooms_eq, hch.segs_eq, hch.revocations_eq, hch.stays_eq, hch.charges_eq]
  · obtain ⟨added, hr, ha⟩ := (State.fold_loadCred_logged es s).ring hj
    exact ⟨added, hr, (congrFun List.filterMap_eq_map added).symm.trans ha⟩

/-- A LOAD STAYS that passes its checks. -/
theorem loadStays_spec {s : State} (hs : s.Canonical) {es : Entries (Option StayIn)}
    (hn : (es.map (fun e => e.1)).Nodup) (hc : s.loadStayChecks es = none) : let u := es.foldl State.loadStay s
    (∀ e ∈ es, State.stayBlock e.1 ∈ u.dirty ∧ Tab.look u.stays e.1 = e.2.map State.openedStay) ∧
      (∀ i, (∀ e ∈ es, e.1 ≠ i) → Tab.look u.stays i = Tab.look s.stays i) ∧
      u = { s with
        stays := u.stays, rooms := u.rooms, journal := u.journal, trunk := { s.trunk with notices := u.trunk.notices }
        faults := u.faults, alarm := u.alarm, dirty := u.dirty, writer := u.writer } ∧
      (∀ e ∈ es, ∀ x, e.2 = some x → s.Named u x) ∧ (∀ r, (∀ x ∈ opensOf es, x.room ≠ r) → u.findRoom r = s.findRoom r) ∧
      (u.journal.storable = true → ∃ added, u.journal.ring = s.journal.ring ++ added ∧
        added.map (fun m => (m.kind, m.spot, m.detail)) = (opensOf es).map (fun x =>
          (.stayOpened, .room x.room, le 2 x.number ++ le 3 x.planned ++ le 3 x.cap))) := by
  intro u
  have hch : Changes kStay s u := .fold loadStay_ch es s
  obtain ⟨hrooms, hlack⟩ := State.loadStayChecks_none hc
  obtain ⟨h1, h2⟩ := State.fold_entries (val := fun s j => Tab.look s.stays j) (fun s e hs => (loadStay_ch s e).canonical hs)
    (fun s e j hs => State.loadStay_stays hs e j) hn hs
  refine ⟨fun e he => ⟨State.fold_dirty (block := fun e => State.stayBlock e.1) State.loadStay_dirty he, h1 e he⟩, h2, ?_,
    fun e he x hx => ?_, fun r hr => State.fold_loadStay_findRoom hs hr, fun hj => ?_⟩
  · conv_lhs => rw [hch.frame]
    rw [hch.creds_eq, hch.places_eq, hch.segs_eq, hch.revocations_eq, hch.charges_eq]
  · exact State.fold_loadStay_named hs hrooms hlack x (List.mem_filterMap.mpr ⟨e, he, hx⟩)
  · obtain ⟨added, hr, ha⟩ := (State.fold_loadStay_logged es s).ring hj
    exact ⟨added, hr, (congrFun List.filterMap_eq_map added).symm.trans ha⟩

/-- Settles O48: the rows by their checks, and each entry by what its own write does. -/
theorem credentialsAndStaysAreLoaded : Obligations.CredentialsAndStaysAreLoaded := by
  refine ⟨fun q s es hq hs hread => ⟨fun r hr => ?_, fun hc => ?_⟩, fun s i p c hs => ⟨rfl, ?_⟩,
    fun q s es hq hs hread => ⟨fun r hr => ?_, fun hc => ?_⟩,
    fun s i x hs => ⟨rfl, State.loadStay_rooms hs i x⟩, State.roomChecks_cases,
    fun s es hs => ⟨fun pre c post r hes hpre hc => State.credChecks_failed hes hpre hc, fun h => ?_⟩,
    State.referenced_iff, fun s es hs => ?_, fun q s hq => ?_, fun q s b hq => ⟨fun hb => ?_, fun hb => ?_⟩⟩
  · rw [exec_loadCredentials, runRequest_takes hq, loadCredentialsBody, loadBody_ok hread, hr]
  · rw [exec_loadCredentials, runRequest_takes hq, loadCredentialsBody, loadBody_ok hread, hc]
    obtain ⟨h1, h2, h3, h4⟩ := loadCredentials_spec hs (readLoad_keys hread)
    exact ⟨_, rfl, h1, h2, h3, rfl, h4⟩
  · intro t pl guest takes
    have hplace : t.place p = s.added i c.cred pl := by
      have hcan : ({ s with creds := Tab.write s.creds i c.cred } : State).Canonical :=
        { hs with creds := Tab.write_rising _ _ hs.creds }
      rw [show t = s.writeCred i c.cred from rfl, State.place_congr (State.writeCred_places i c.cred s)]
      exact (State.handCredential_place hcan (Tab.look_write_self ..) p).trans (State.added_congr rfl i c.cred pl)
    rw [hplace]
    exact ⟨State.writeCred_creds i c.cred s, fun slot ht hsl => State.added_slot ht hsl, fun ht hsl => State.added_full ht hsl,
      State.added_of_not⟩
  · rw [exec_loadStays, runRequest_takes hq, loadStaysBody, loadBody_ok hread, hr]
  · rw [exec_loadStays, runRequest_takes hq, loadStaysBody, loadBody_ok hread, hc]
    obtain ⟨h1, h2, h3, h4⟩ := loadStays_spec hs (readLoad_keys hread) hc
    exact ⟨_, rfl, h1, h2, h3, rfl, h4⟩
  · obtain ⟨hbusy, hrest⟩ := State.credChecks_passed h
    have href : es.any (fun e => s.referenced e.1) = true ↔ ∃ e ∈ es, s.referenced e.1 = true := List.any_eq_true
    have hdup := State.duplicateCards_iff hs es
    refine ⟨hbusy, fun hb hr => ?_, fun hb hr hd => ?_, fun hb hr hd => ?_⟩
    · rw [hrest hb, if_pos (href.mpr hr)]
    · rw [hrest hb, if_neg (fun h => hr (href.mp h)), if_pos (hdup.mpr hd)]
    · rw [hrest hb, if_neg (fun h => hr (href.mp h)), if_neg (fun h => hd (hdup.mp h))]
  · obtain ⟨hbusy, hrest⟩ := State.loadStayChecks_eq (s := s) (es := es)
    have hdup := State.loadStayDuplicate_iff hs es
    have hocc := State.loadStayOccupied_iff (s := s) es
    intro numbers rooms busy duplicate occupied lacking
    have hlack (h : ¬occupied) : s.roomsLacking rooms = lacking := by
      have hn : rooms.Nodup := by
        by_contra hn
        exact h (.inl hn)
      rw [State.roomsLacking, distinct_of_nodup hn]
    refine ⟨hbusy, fun hb hd => ?_, fun hb hd ho => ?_, fun hb hd ho hf hle => ?_, fun hb hd ho hf => ?_⟩
    · rw [hrest hb, if_pos (hdup.mpr hd)]
    · rw [hrest hb, if_neg (fun h => hd (hdup.mp h)), if_pos (hocc.mpr ho)]
    · rw [hrest hb, if_neg (fun h => hd (hdup.mp h)), if_neg (fun h => ho (hocc.mp h)), hlack ho, if_pos (by omega)]
    · rw [hrest hb, if_neg (fun h => hd (hdup.mp h)), if_neg (fun h => ho (hocc.mp h)), hlack ho, if_neg (by omega)]
  · rw [exec_loadRooms, runRequest_takes hq]
    rfl
  · rw [exec_loadCredentials, runRequest_takes hq, loadCredentialsBody, loadBody_error hb]
  · rw [exec_loadStays, runRequest_takes hq, loadStaysBody, loadBody_error hb]

end Sys2Proof.Machine
end

