-- ==== Sys2Proof/Proofs/Reconciled.lean ====
section
/-! The parts of the reconciliation over credentials and stays (R23, R208 parts 1, 2 and 5). -/

set_option Elab.async false

namespace Sys2Proof.Machine

namespace State

/-- The parts that a fix of the Stay or Room Table changes. -/
abbrev kFix : List Part := [.faults, .notices, .journal, .dirty, .stays, .rooms]

/-! ## Part 1: the entries of one card -/

theorem keeper_spec {s : State} (hs : s.Canonical) {n i : Nat} (h : s.keeper n = some i) : ∃ c, s.cred i = some c ∧ c.card = n ∧
    ((c.state = .active ∧ ∀ j d, j < i → s.cred j = some d → d.card = n → d.state ≠ .active) ∨
      ((∀ j d, s.cred j = some d → d.card = n → d.state ≠ .active) ∧
        ∀ j d, j < i → s.cred j = some d → d.card ≠ n)) := by
  unfold keeper at h
  cases hf : s.creds.find? (fun e => e.2.card == n && e.2.state == .active) with
  | some e =>
    obtain ⟨k, c⟩ := e
    rw [hf] at h
    cases h
    obtain ⟨h1, h2, h3⟩ := (Tab.find?_iff hs.creds (fun c => c.card == n && c.state == .active) k c).mp hf
    simp only [Bool.and_eq_true, beq_iff_eq] at h2
    refine ⟨c, h1, h2.1, .inl ⟨h2.2, fun j d hj hd hn ha => ?_⟩⟩
    simpa [hn, ha] using h3 j d hj hd
  | none =>
    rw [hf] at h
    obtain ⟨⟨k, c⟩, hk, rfl⟩ := Option.map_eq_some_iff.mp h
    have hnone := (Tab.find?_none_iff hs.creds (fun c => c.card == n && c.state == .active)).mp hf
    obtain ⟨h1, h2, h3⟩ := (Tab.find?_iff hs.creds (fun c => c.card == n) k c).mp hk
    refine ⟨c, h1, by simpa using h2, .inr ⟨fun j d hd hn ha => ?_, fun j d hj hd hn => ?_⟩⟩
    · simpa [hn, ha] using hnone j d hd
    · simpa [hn] using h3 j d hj hd

theorem mem_losers {s : State} (hs : s.Canonical) {i : Nat} {c : Cred} :
    (i, c) ∈ s.losers ↔ s.cred i = some c ∧ s.keeper c.card ≠ some i := by
  simp only [losers, List.mem_filter, Tab.mem_iff_look hs.creds, bne_iff_ne, ne_eq]
  rfl

theorem losers_keys {s : State} (hs : s.Canonical) : (s.losers.map (fun e => e.1)).Nodup :=
  (Tab.keys_nodup hs.creds).sublist (List.filter_sublist.map _)

theorem emptyLoser_ch (s : State) (e : Nat × Cred) : Changes kCred s (s.emptyLoser e) :=
  (Changes.up (emptyCred_ch ..)).comp (fixRecord_ch ..)

theorem emptyLoser_cred {s : State} (hs : s.Canonical) (e : Nat × Cred) (j : Nat) :
    (s.emptyLoser e).cred j = if j = e.1 then none else s.cred j := by
  rw [emptyLoser, cred, (fixRecord_ch ..).creds_eq]
  exact Tab.look_clear _ _ _ hs.creds

theorem fixDuplicates_cred {s : State} (hs : s.Canonical) (i : Nat) : s.fixDuplicates.cred i =
    if ∃ c, s.cred i = some c ∧ s.keeper c.card ≠ some i then none else s.cred i := by
  have hrev : s.losers.foldl (fun s e => s.revoke e.1 .replace) s = s.revokeAll (s.losers.map (fun e => e.1)) .replace := by
    rw [revokeAll, List.foldl_map]
  unfold fixDuplicates
  simp only [hrev]
  have hch := revokeAll_ch (s.losers.map (fun e => e.1)) .replace s
  obtain ⟨h1, h2⟩ := fold_entries (val := cred) (g := fun _ => none) (fun s e hs => (emptyLoser_ch s e).canonical hs)
    (fun s e j hs => emptyLoser_cred hs e j) (losers_keys hs) (hch.canonical hs)
  split
  · rename_i h
    obtain ⟨c, hc, hk⟩ := h
    exact h1 (i, c) ((mem_losers hs).mpr ⟨hc, hk⟩)
  · rename_i h
    have hne : ∀ e ∈ s.losers, e.1 ≠ i := by
      rintro ⟨j, c⟩ he rfl
      exact h ⟨c, (mem_losers hs).mp he⟩
    rw [h2 i hne, revokeAll_cred_ne]
    intro hi
    obtain ⟨e, he, hei⟩ := List.mem_map.mp hi
    exact hne e he hei

theorem fixDuplicates_spec {s : State} (hs : s.Canonical) : let t := s.fixDuplicates
    (∀ i c, s.cred i = some c → t.cred i = if s.keeper c.card = some i then some c else none) ∧
    ∀ i j c d, t.cred i = some c → t.cred j = some d → c.card = d.card → i = j := by
  intro t
  have hcred := fixDuplicates_cred hs
  have hkept (i : Nat) (c : Cred) (h : t.cred i = some c) : s.keeper c.card = some i := by
    have h' := (hcred i).symm.trans h
    split at h'
    · cases h'
    · rename_i hn
      by_contra hk
      exact hn ⟨c, h', hk⟩
  refine ⟨fun i c hc => ?_, fun i j c d hi hj hcd => ?_⟩
  · rw [show t.cred i = _ from hcred i, hc]
    simp only [Option.some.injEq, exists_eq_left', ne_eq, ite_not]
  · have h1 := hkept i c hi
    rw [hcd, hkept j d hj] at h1
    exact (Option.some.inj h1).symm

/-! ## Part 2: the OPEN stays of one room -/

/-- Another OPEN stay of the room was opened later, or in the same minute at a higher index. -/
def Beaten (s : State) (i : Nat) (x : Stay) : Prop := ∃ j y, Tab.look s.stays j = some y ∧ y.isOpen = true ∧ y.room = x.room ∧
  (x.opened < y.opened ∨ (y.opened = x.opened ∧ i < j))

theorem outdone_iff {s : State} (hs : s.Canonical) {i : Nat} {x : Stay} : s.outdone i x = true ↔ s.Beaten i x := by
  simp only [outdone, Beaten, Tab.any_iff hs.stays, Bool.and_eq_true, Bool.or_eq_true, beq_iff_eq, decide_eq_true_eq, and_assoc]

/-- The entry of a stay that start-up closes. -/
def closedAt (s : State) (x : Stay) : Stay := { x with isOpen := false, closed := some s.clock.m }

theorem closeByFix_eq (s : State) (i : Nat) (x : Stay) : s.closeByFix (i, x) =
    (s.setStay i (s.closedAt x)).log .restoreFix (.room x.room) ([1#8] ++ le 2 x.number ++ le 2 x.room) := by
  simp only [closeByFix, fixRecord, closedAt, List.append_assoc]
  rfl

theorem closeByFix_parts (s : State) (e : Nat × Stay) : Changes kFix s (s.closeByFix e) :=
  (Changes.up (setStay_ch ..)).comp (fixRecord_ch ..)

theorem closeByFix_stays (s : State) (i : Nat) (x : Stay) :
    (s.closeByFix (i, x)).stays = Tab.write s.stays i (s.closedAt x) := by
  rw [closeByFix_eq, (log_ch ..).stays_eq]
  rfl

theorem closeByFix_rooms (s : State) (e : Nat × Stay) : (s.closeByFix e).rooms = s.rooms := (fixRecord_ch ..).rooms_eq

/-- The stays that part 2 closes. -/
def beatenStays (s : State) : List (Nat × Stay) := s.stays.filter (fun e => e.2.isOpen && s.outdone e.1 e.2)

theorem mem_beatenStays {s : State} (hs : s.Canonical) {j : Nat} {y : Stay} : (j, y) ∈ s.beatenStays ↔
    Tab.look s.stays j = some y ∧ y.isOpen = true ∧ s.Beaten j y := by
  simp only [beatenStays, List.mem_filter, Tab.mem_iff_look hs.stays, Bool.and_eq_true, outdone_iff hs]

theorem fixStays_fold {s : State} (hs : s.Canonical) :
    (∀ e ∈ s.beatenStays, Tab.look s.fixStays.stays e.1 = some (s.closedAt e.2)) ∧
      ∀ j, (∀ e ∈ s.beatenStays, e.1 ≠ j) → Tab.look s.fixStays.stays j = Tab.look s.stays j :=
  (fold_table (f := closeByFix) (val := fun s j => Tab.look s.stays j) (g := fun e => some (s.closedAt e.2))
    (G := fun u => u.clock = s.clock) (I := fun _ _ => True) (es := s.beatenStays)
    (fun u e h _ => (closeByFix_parts u e).clock_eq.trans h) (fun _ _ _ _ _ _ _ => trivial)
    (fun u e h _ => by rw [closeByFix_stays, Tab.look_write_self, closedAt, closedAt, h])
    (fun u e j _ _ hj => by rw [closeByFix_stays, Tab.look_write_ne _ _ hj])
    ((Tab.keys_nodup hs.stays).sublist (List.filter_sublist.map _)) (s := s) rfl (fun _ _ => trivial)).2

/-- Part 2 entry by entry. -/
theorem fixStays_look {s : State} (hs : s.Canonical) {i : Nat} {x : Stay} (hx : Tab.look s.stays i = some x) :
    (x.isOpen = true → s.Beaten i x → Tab.look s.fixStays.stays i = some (s.closedAt x)) ∧
      (x.isOpen = false ∨ ¬s.Beaten i x → Tab.look s.fixStays.stays i = some x) := by
  obtain ⟨h1, h2⟩ := fixStays_fold hs
  refine ⟨fun ho hb => h1 (i, x) ((mem_beatenStays hs).mpr ⟨hx, ho, hb⟩), fun h => (h2 i (fun e he hei => ?_)).trans hx⟩
  obtain ⟨j, y⟩ := e
  obtain rfl : j = i := hei
  obtain ⟨hy, ho, hb⟩ := (mem_beatenStays hs).mp he
  obtain rfl := Option.some.inj (hx.symm.trans hy)
  rcases h with h | h
  · rw [ho] at h; cases h
  · exact h hb

theorem fixStays_unused {s : State} (hs : s.Canonical) {i : Nat} (hi : Tab.look s.stays i = none) :
    Tab.look s.fixStays.stays i = none := by
  refine ((fixStays_fold hs).2 i (fun e he hei => ?_)).trans hi
  obtain ⟨j, y⟩ := e
  obtain rfl : j = i := hei
  have h := ((mem_beatenStays hs).mp he).1
  rw [hi] at h
  cases h

/-- R208 part 2: at most one stay of a room stays OPEN. -/
theorem fixStays_spec {s : State} (hs : s.Canonical) {i j : Nat} {x y : Stay} (hi : Tab.look s.fixStays.stays i = some x)
    (hj : Tab.look s.fixStays.stays j = some y) (hx : x.isOpen = true) (hy : y.isOpen = true) (hr : x.room = y.room) :
    i = j := by
  have hopen (k : Nat) (z : Stay) (hk : Tab.look s.fixStays.stays k = some z) (hz : z.isOpen = true) :
      Tab.look s.stays k = some z ∧ ¬s.Beaten k z := by
    cases hl : Tab.look s.stays k with
    | none => rw [fixStays_unused hs hl] at hk; cases hk
    | some w =>
      obtain ⟨h1, h2⟩ := fixStays_look hs hl
      by_cases hb : w.isOpen = true ∧ s.Beaten k w
      · rw [h1 hb.1 hb.2] at hk
        obtain rfl := Option.some.inj hk
        cases hz
      · have hkeep : w.isOpen = false ∨ ¬s.Beaten k w := by
          by_cases ho : w.isOpen = true
          · exact .inr (fun h => hb ⟨ho, h⟩)
          · exact .inl (by simpa using ho)
        rw [h2 hkeep] at hk
        obtain rfl := Option.some.inj hk
        exact ⟨rfl, hkeep.resolve_left (by simp [hz])⟩
  obtain ⟨hx1, hx2⟩ := hopen i x hi hx
  obtain ⟨hy1, hy2⟩ := hopen j y hj hy
  by_contra hij
  rcases Nat.lt_trichotomy x.opened y.opened with h | h | h
  · exact hx2 ⟨j, y, hy1, hy, hr.symm, .inl h⟩
  · rcases Nat.lt_or_gt_of_ne hij with hlt | hgt
    · exact hx2 ⟨j, y, hy1, hy, hr.symm, .inr ⟨h.symm, hlt⟩⟩
    · exact hy2 ⟨i, x, hx1, hx, hr, .inr ⟨h, hgt⟩⟩
  · exact hy2 ⟨i, x, hx1, hx, hr, .inl h⟩

/-! ## Part 5: entries below their room's generation -/

theorem isStale_iff (s : State) (c : Cred) : s.isStale c = true ↔ c.state = .active ∧ c.kind = .guest ∧
    ∃ g a, c.guest = some g ∧ s.accepted g.room = some a ∧ g.generation < a := by
  unfold isStale
  cases hg : c.guest with
  | none => simp
  | some g =>
    cases ha : s.accepted g.room with
    | none => simp [ha]
    | some a => simp [ha, and_assoc]

theorem supersedeStale_parts (s : State) (e : Nat × Cred) : Changes kRev s (s.supersedeStale e) := by
  unfold supersedeStale
  exact (Changes.up (fixRecord_ch ..)).comp (revoke_ch ..)

theorem supersedeStale_cred_ne (s : State) (e : Nat × Cred) {j : Nat} (hj : j ≠ e.1) :
    (s.supersedeStale e).cred j = s.cred j := by
  rw [supersedeStale, revoke_cred_ne _ _ hj, cred, (fixRecord_ch ..).creds_eq, cred]

theorem fixStale_cred {s : State} (hs : s.Canonical) {i : Nat} {c : Cred} (hc : s.cred i = some c) :
    s.fixStale.cred i = if s.isStale c then some { c with state := .superseded } else some c := by
  obtain ⟨-, h1, h2⟩ := fold_table (f := supersedeStale) (val := cred) (g := fun e => some { e.2 with state := .superseded })
    (G := fun _ => True) (I := fun u e => u.cred e.1 = some e.2 ∧ e.2.state = .active) (fun _ _ _ _ => trivial)
    (fun u e d _ _ hd h => ⟨(supersedeStale_cred_ne u e hd).trans h.1, h.2⟩)
    (fun u e _ h => by
      have hlog : (u.fixRecord 5 (credSpot e.2) (le 2 e.1)).cred e.1 = some e.2 := by
        rw [cred, (fixRecord_ch ..).creds_eq]; exact h.1
      exact revoke_cred_self hlog h.2 .supersede)
    (fun u e j _ _ hj => supersedeStale_cred_ne u e hj)
    (es := s.creds.filter (fun e => s.isStale e.2)) ((Tab.keys_nodup hs.creds).sublist (List.filter_sublist.map _)) (s := s)
    trivial (fun e he => by
      obtain ⟨he, hst⟩ := List.mem_filter.mp he
      exact ⟨Tab.mem_look hs.creds he, ((isStale_iff s e.2).mp hst).1⟩)
  split
  · rename_i hst
    exact h1 (i, c) (List.mem_filter.mpr ⟨Tab.look_mem hc, hst⟩)
  · rename_i hst
    refine (h2 i (fun e he hei => hst ?_)).trans hc
    obtain ⟨he, hst'⟩ := List.mem_filter.mp he
    have := Tab.mem_look hs.creds he
    rw [hei] at this
    obtain rfl := Option.some.inj (this.symm.trans hc)
    exact hst'

end State

end Sys2Proof.Machine
end

