-- ==== Sys2Proof/Proofs/RoomsReconciled.lean ====
section
/-! The parts of the reconciliation over the Room Table (R208 parts 3 and 4). -/

set_option Elab.async false

namespace Sys2Proof.Machine

namespace State

/-! ## Part 3: the rooms' open stay fields -/

theorem isOpenFor_iff {s : State} (hs : s.Canonical) {r n : Nat} : s.isOpenFor r n = true ↔
    ∃ i x, Tab.look s.stays i = some x ∧ x.isOpen = true ∧ x.number = n ∧ x.room = r := by
  simp only [isOpenFor, Tab.any_iff hs.stays, Bool.and_eq_true, beq_iff_eq, and_assoc]

theorem isOpenFor_mem (s : State) (r n : Nat) : s.isOpenFor r n = true ↔
    ∃ e ∈ s.stays, e.2.isOpen = true ∧ e.2.number = n ∧ e.2.room = r := by
  simp only [isOpenFor, List.any_eq_true, Bool.and_eq_true, beq_iff_eq, and_assoc]

theorem roomOccupied_iff {s : State} {r : Nat} : s.roomOccupied r = true ↔
    ∃ j y n, s.findRoom r = some (j, y) ∧ y.openStay = some n := by
  unfold roomOccupied
  cases s.findRoom r with
  | none => simp
  | some e =>
    obtain ⟨j, y⟩ := e
    simp [Option.isSome_iff_exists]

theorem roomOccupied_congr {s t : State} {r : Nat} (h : t.findRoom r = s.findRoom r) : t.roomOccupied r = s.roomOccupied r := by
  simp only [roomOccupied, h]

/-- Every open stay field names an OPEN stay of its room. -/
def FieldsOpen (s : State) : Prop := ∀ j e, Tab.look s.rooms j = some e → ∀ n, e.openStay = some n → s.isOpenFor e.room n = true

theorem dropField_drop {s : State} {e : Nat × Room} {n : Nat} (hn : e.2.openStay = some n)
    (h : s.isOpenFor e.2.room n = false) : s.dropField e = (s.setRoom e.1 { e.2 with openStay := none }).log .restoreFix
      (.room e.2.room) ([2#8] ++ le 2 e.2.room ++ le 2 n) := by
  simp only [dropField, hn, h, Bool.false_eq_true, if_false, fixRecord, List.append_assoc]
  rfl

theorem dropField_keep {s : State} {e : Nat × Room} (h : ∀ n, e.2.openStay = some n → s.isOpenFor e.2.room n = true) :
    s.dropField e = s := by
  unfold dropField
  split
  · rfl
  · rename_i n hn
    rw [if_pos (h n hn)]

theorem dropField_parts (s : State) (e : Nat × Room) : Changes [.faults, .notices, .journal, .dirty, .rooms] s (s.dropField e) := by
  unfold dropField
  split
  · exact .refl s
  · exact .ite (fun _ => .refl s) (fun _ => (Changes.up (setRoom_ch ..)).comp (fixRecord_ch ..))

theorem isOpenFor_congr {s t : State} (h : t.stays = s.stays) (r n : Nat) : t.isOpenFor r n = s.isOpenFor r n := by
  simp only [isOpenFor, h]

/-- The entry of a room with its field removed where that names no OPEN stay of the room. -/
def droppedRoom (s : State) (e : Room) : Room :=
  if ∃ n, e.openStay = some n ∧ s.isOpenFor e.room n = false then { e with openStay := none } else e

theorem dropField_rooms {s u : State} (hu : u.stays = s.stays) {e : Nat × Room} (he : Tab.look u.rooms e.1 = some e.2) (j : Nat) :
    Tab.look (u.dropField e).rooms j = if j = e.1 then some (s.droppedRoom e.2) else Tab.look u.rooms j := by
  by_cases h : ∃ n, e.2.openStay = some n ∧ s.isOpenFor e.2.room n = false
  · obtain ⟨n, hn, ho⟩ := h
    have hd : s.droppedRoom e.2 = { e.2 with openStay := none } := if_pos ⟨n, hn, ho⟩
    rw [dropField_drop hn (by rw [isOpenFor_congr hu]; exact ho), (log_ch ..).rooms_eq, hd]
    by_cases hj : j = e.1
    · subst hj; rw [if_pos rfl]; exact Tab.look_write_self ..
    · rw [if_neg hj]; exact Tab.look_write_ne _ _ hj
  · have hkeep : ∀ n, e.2.openStay = some n → u.isOpenFor e.2.room n = true := fun n hn => by
      rw [isOpenFor_congr hu]
      by_contra ho
      exact h ⟨n, hn, by simpa using ho⟩
    rw [dropField_keep hkeep, droppedRoom, if_neg h]
    split
    · rename_i hj; subst hj; exact he
    · rfl

/-- R208 part 3, first sentence: afterwards every field names an OPEN stay of its room. -/
theorem dropFields_spec {s : State} (hs : s.Canonical) : (s.rooms.foldl dropField s).FieldsOpen := by
  obtain ⟨hst, h1, h2⟩ := fold_table (f := dropField) (val := fun s j => Tab.look s.rooms j)
    (g := fun e => some (s.droppedRoom e.2)) (G := fun u => u.stays = s.stays) (I := fun u e => Tab.look u.rooms e.1 = some e.2)
    (fun u e h _ => (dropField_parts u e).stays_eq.trans h)
    (fun u e d h he hd hi => by rw [dropField_rooms h he, if_neg hd]; exact hi)
    (fun u e h he => by rw [dropField_rooms h he, if_pos rfl])
    (fun u e j h he hj => by rw [dropField_rooms h he, if_neg hj])
    (es := s.rooms) (Tab.keys_nodup hs.rooms) (s := s) rfl (fun e he => Tab.mem_look hs.rooms he)
  intro j e he n hn
  rw [isOpenFor_congr hst]
  cases hl : Tab.look s.rooms j with
  | none =>
    have h := h2 j (fun d hd hdj => by
      have := Tab.mem_look hs.rooms hd
      rw [hdj, hl] at this
      cases this)
    rw [h, hl] at he
    cases he
  | some d =>
    rw [h1 (j, d) (Tab.look_mem hl)] at he
    obtain rfl := Option.some.inj he
    unfold droppedRoom at hn ⊢
    split at hn
    · cases hn
    · rename_i hno
      rw [if_neg hno]
      by_contra ho
      exact hno ⟨n, hn, by simpa using ho⟩

theorem giveField_skip {s : State} {e : Nat × Stay} (h : e.2.isOpen = false ∨ s.roomOccupied e.2.room = true) :
    s.giveField e = s := by
  unfold giveField
  exact if_pos (by rcases h with h | h <;> simp [h])

/-- The room of an OPEN stay has no entry and none is unused: the stay is closed. -/
theorem giveField_full {s : State} {e : Nat × Stay} (ho : e.2.isOpen = true) (hf : s.findRoom e.2.room = none)
    (hl : Tab.lowestFree s.rooms 96 = none) : s.giveField e = s.closeByFix e := by
  have hocc : s.roomOccupied e.2.room = false := by simp [roomOccupied, hf]
  have hens : s.ensureRoom e.2.room = s := by simp [ensureRoom, createRoom, hf, hl]
  unfold giveField
  simp only [ho, hocc, hens, hf, Bool.not_true, Bool.or_self, Bool.false_eq_true, if_false, Option.isNone_none, if_true]

/-- Otherwise the field names it. -/
theorem giveField_name {s : State} (hs : s.Canonical) {e : Nat × Stay} (ho : e.2.isOpen = true)
    (hocc : s.roomOccupied e.2.room = false) (hr : s.findRoom e.2.room ≠ none ∨ Tab.lowestFree s.rooms 96 ≠ none) :
    s.giveField e = (s.nameStay e.2.room e.2.number).log .restoreFix (.room e.2.room)
      ([2#8] ++ le 2 e.2.room ++ le 2 e.2.number) := by
  have hens : ((s.ensureRoom e.2.room).findRoom e.2.room).isNone = false := by
    cases hf : s.findRoom e.2.room with
    | some x => simp [ensureRoom, hf]
    | none =>
      obtain ⟨j, hj⟩ := Option.ne_none_iff_exists'.mp (hr.resolve_left (fun h => h hf))
      have he : s.ensureRoom e.2.room = s.setRoom j (s.newRoom e.2.room none) := by
        simp [ensureRoom, createRoom, hf, hj, newRoom]
      rw [he, findRoom_write_new hs rfl hf rfl]
      rfl
  unfold giveField
  simp only [ho, hocc, hens, Bool.not_true, Bool.or_self, Bool.false_eq_true, if_false, fixRecord, List.append_assoc]
  rfl

theorem giveField_parts (s : State) (e : Nat × Stay) : Changes kFix s (s.giveField e) := by
  unfold giveField
  simp only
  refine .ite (fun _ => .refl s) (fun _ => .ite (fun _ => closeByFix_parts ..) (fun _ => ?_))
  exact ((Changes.up (ensureRoom_ch ..)).comp (setOpenStay_ch ..)).comp (fixRecord_ch ..)

/-- What one step of part 3's third sentence does, by its case. -/
theorem giveField_cases {s : State} (hs : s.Canonical) (e : Nat × Stay) :
    (e.2.isOpen = false ∨ s.roomOccupied e.2.room = true) ∧ s.giveField e = s ∨
    e.2.isOpen = true ∧ s.findRoom e.2.room = none ∧ s.giveField e = s.closeByFix e ∨
    e.2.isOpen = true ∧ s.roomOccupied e.2.room = false ∧
      (s.findRoom e.2.room ≠ none ∨ Tab.lowestFree s.rooms 96 ≠ none) ∧
      (s.giveField e).rooms = (s.nameStay e.2.room e.2.number).rooms ∧ (s.giveField e).stays = s.stays := by
  by_cases ho : e.2.isOpen = true
  · by_cases hocc : s.roomOccupied e.2.room = true
    · exact .inl ⟨.inr hocc, giveField_skip (.inr hocc)⟩
    · have hocc : s.roomOccupied e.2.room = false := by simpa using hocc
      by_cases hr : s.findRoom e.2.room ≠ none ∨ Tab.lowestFree s.rooms 96 ≠ none
      · refine .inr (.inr ⟨ho, hocc, hr, ?_, ?_⟩)
        · rw [giveField_name hs ho hocc hr, (log_ch ..).rooms_eq]
        · rw [giveField_name hs ho hocc hr, (log_ch ..).stays_eq, (nameStay_ch ..).stays_eq]
      · simp only [ne_eq, not_or, not_not] at hr
        exact .inr (.inl ⟨ho, hr.1, giveField_full ho hr.1 hr.2⟩)
  · exact .inl ⟨.inl (by simpa using ho), giveField_skip (.inl (by simpa using ho))⟩

/-- An occupied room stays occupied, and the stay's own room is, unless the stay is not OPEN. -/
theorem giveField_occupied {s : State} (hs : s.Canonical) {e : Nat × Stay} (he : Tab.look s.stays e.1 = some e.2) :
    (∀ r, s.roomOccupied r = true → (s.giveField e).roomOccupied r = true) ∧
      (∀ y, Tab.look (s.giveField e).stays e.1 = some y → y.isOpen = true → (s.giveField e).roomOccupied y.room = true) ∧
      ∀ j, j ≠ e.1 → Tab.look (s.giveField e).stays j = Tab.look s.stays j := by
  rcases giveField_cases hs e with ⟨h, heq⟩ | ⟨-, hf, heq⟩ | ⟨-, hocc, hr, hrooms, hstays⟩
  · rw [heq]
    refine ⟨fun _ h => h, fun y hy ho => ?_, fun _ _ => rfl⟩
    obtain rfl := Option.some.inj (he.symm.trans hy)
    exact h.resolve_left (by simp [ho])
  · rw [heq]
    have hst := closeByFix_stays s e.1 e.2
    have hfind := fun r => findRoom_congr (closeByFix_rooms s e) r
    refine ⟨fun r h => (roomOccupied_congr (hfind r)).trans h, fun y hy ho => ?_, fun j hj => ?_⟩
    · rw [show (s.closeByFix e).stays = _ from hst, Tab.look_write_self] at hy
      obtain rfl := Option.some.inj hy
      cases ho
    · rw [show (s.closeByFix e).stays = _ from hst, Tab.look_write_ne _ _ hj]
  · have hfind := fun r => findRoom_congr hrooms r
    obtain ⟨j, y, h1, -, hold, hnew⟩ := nameStay_findRoom (n := e.2.number) hs hr
    have hy : y.openStay = some e.2.number := by
      cases h : s.findRoom e.2.room with
      | some d => rw [(hold d.1 d.2 h).2]
      | none => rw [(hnew h).2]; rfl
    have hown : (s.giveField e).roomOccupied e.2.room = true :=
      roomOccupied_iff.mpr ⟨j, y, _, (hfind _).trans h1, hy⟩
    refine ⟨fun r h => ?_, fun z hz _ => ?_, fun j _ => by rw [hstays]⟩
    · by_cases hre : r = e.2.room
      · subst hre; exact hown
      · exact (roomOccupied_congr ((hfind r).trans (nameStay_findRoom_ne hs hre))).trans h
    · rw [hstays] at hz
      obtain rfl := Option.some.inj (he.symm.trans hz)
      exact hown

/-- Every field keeps naming an OPEN stay of its room. -/
theorem giveField_fieldsOpen {s : State} (hs : s.Canonical) {e : Nat × Stay} (he : Tab.look s.stays e.1 = some e.2)
    (h : s.FieldsOpen) : (s.giveField e).FieldsOpen := by
  rcases giveField_cases hs e with ⟨-, heq⟩ | ⟨ho, hf, heq⟩ | ⟨ho, -, hr, hrooms, hstays⟩
  · rw [heq]; exact h
  · rw [heq]
    intro j d hd n hn
    have hst : (s.closeByFix e).stays = _ := closeByFix_stays s e.1 e.2
    rw [closeByFix_rooms] at hd
    obtain ⟨i, x, hx, hxo, hxn, hxr⟩ := (isOpenFor_iff hs).mp (h j d hd n hn)
    refine (isOpenFor_iff ((closeByFix_parts s e).canonical hs)).mpr ⟨i, x, ?_, hxo, hxn, hxr⟩
    rw [hst, Tab.look_write_ne _ _ ?_]
    · exact hx
    · rintro rfl
      obtain rfl := Option.some.inj (he.symm.trans hx)
      have hne := (Tab.find?_none_iff hs.rooms (fun x => x.room == e.2.room)).mp hf j d hd
      simp [hxr] at hne
  · intro j d hd n hn
    rw [isOpenFor_congr hstays]
    rw [hrooms] at hd
    have hwrite (k : Nat) (y : Room) (hyr : y.room = e.2.room) (hyn : y.openStay = some e.2.number)
        (hk : Tab.look (Tab.write s.rooms k y) j = some d) : s.isOpenFor d.room n = true := by
      by_cases hj : j = k
      · subst hj
        rw [Tab.look_write_self] at hk
        obtain rfl := Option.some.inj hk
        rw [hyr]
        rw [hyn] at hn
        exact (isOpenFor_iff hs).mpr ⟨e.1, e.2, he, ho, Option.some.inj hn, rfl⟩
      · rw [Tab.look_write_ne _ _ hj] at hk
        exact h j d hk n hn
    cases hf : s.findRoom e.2.room with
    | some c =>
      rw [nameStay_rooms_held hf] at hd
      exact hwrite c.1 { c.2 with openStay := some e.2.number } (findRoom_look hs hf).2 rfl hd
    | none =>
      obtain ⟨k, hk⟩ := Option.ne_none_iff_exists'.mp (hr.resolve_left (fun h => h hf))
      rw [nameStay_rooms_new hs hf hk] at hd
      exact hwrite k _ rfl rfl hd

/-- R208 part 3, third sentence, over a list of stays. -/
theorem giveFields_fold {l : List (Nat × Stay)} (hn : (l.map (fun e => e.1)).Nodup) {s : State} (hs : s.Canonical)
    (hl : ∀ e ∈ l, Tab.look s.stays e.1 = some e.2) (hf : s.FieldsOpen) :
    (l.foldl giveField s).FieldsOpen ∧ (∀ r, s.roomOccupied r = true → (l.foldl giveField s).roomOccupied r = true) ∧
      (∀ e ∈ l, ∀ y, Tab.look (l.foldl giveField s).stays e.1 = some y → y.isOpen = true →
        (l.foldl giveField s).roomOccupied y.room = true) ∧
      ∀ j, (∀ e ∈ l, e.1 ≠ j) → Tab.look (l.foldl giveField s).stays j = Tab.look s.stays j := by
  induction l generalizing s with
  | nil => exact ⟨hf, fun _ h => h, fun e he => (by cases he), fun _ _ => rfl⟩
  | cons d l ih =>
    obtain ⟨hd, hn⟩ := List.nodup_cons.mp hn
    have hne : ∀ x ∈ l, x.1 ≠ d.1 := fun x hx h => hd (List.mem_map.mpr ⟨x, hx, h⟩)
    have hdl := hl d (by simp)
    obtain ⟨h1, h2, h3⟩ := giveField_occupied hs hdl
    obtain ⟨ih1, ih2, ih3, ih4⟩ := ih hn ((giveField_parts s d).canonical hs)
      (fun e he => (h3 e.1 (hne e he)).trans (hl e (by simp [he]))) (giveField_fieldsOpen hs hdl hf)
    refine ⟨ih1, fun r h => ih2 r (h1 r h), fun e he y hy ho => ?_, fun j hj => ?_⟩
    · rcases List.mem_cons.mp he with rfl | he
      · rw [List.foldl_cons, ih4 e.1 hne] at hy
        exact ih2 _ (h2 y hy ho)
      · exact ih3 e he y hy ho
    · rw [List.foldl_cons, ih4 j (fun e he => hj e (by simp [he])), h3 j (fun h => hj d (by simp) h.symm)]

theorem dropFields_ch (s : State) : Changes [.faults, .notices, .journal, .dirty, .rooms] s (s.rooms.foldl dropField s) :=
  .fold (fun s e => dropField_parts s e) _ s

theorem fixFields_parts (s : State) : Changes kFix s s.fixFields :=
  (Changes.up (dropFields_ch s)).comp (Changes.fold (fun s e => giveField_parts s e) _ _)

theorem fixFields_spec {s : State} (hs : s.Canonical) : let t := s.fixFields
    (∀ e ∈ t.rooms, ∀ n, e.2.openStay = some n →
      ∃ x ∈ t.stays, x.2.isOpen = true ∧ x.2.number = n ∧ x.2.room = e.2.room) ∧
    (∀ e ∈ t.stays, e.2.isOpen = true → ∃ i r n, t.findRoom e.2.room = some (i, r) ∧ r.openStay = some n) := by
  intro t
  have hu := (dropFields_ch s).canonical hs
  obtain ⟨h1, -, h3, h4⟩ := giveFields_fold (Tab.keys_nodup hu.stays) hu (fun e he => Tab.mem_look hu.stays he)
    (dropFields_spec hs)
  have ht : t.Canonical := (fixFields_parts s).canonical hs
  refine ⟨fun e he n hn => ?_, fun e he ho => ?_⟩
  · exact (isOpenFor_mem t _ _).mp (h1 e.1 e.2 (Tab.mem_look ht.rooms he) n hn)
  · have hlook : Tab.look t.stays e.1 = some e.2 := Tab.mem_look ht.stays he
    refine roomOccupied_iff.mp ?_
    by_cases hk : ∃ d ∈ (s.rooms.foldl dropField s).stays, d.1 = e.1
    · obtain ⟨d, hd, hde⟩ := hk
      exact h3 d hd e.2 (hde ▸ hlook) ho
    · have hnot : ∀ d ∈ (s.rooms.foldl dropField s).stays, d.1 ≠ e.1 := fun d hd h => hk ⟨d, hd, h⟩
      exact absurd (Tab.look_mem ((h4 e.1 hnot).symm.trans hlook)) (fun h => hnot _ h rfl)

end State

end Sys2Proof.Machine
end

