-- ==== Sys2Proof/Proofs/RoomsSettled.lean ====
section
/-! Part 4 of the reconciliation: the entries that nothing needs removed, the rooms that doors name created, and every entry's
door and minibar recomputed (R208). -/

set_option Elab.async false

namespace Sys2Proof.Machine

namespace State

/-- The parts that part 4 changes. -/
abbrev kNamed : List Part := [.faults, .notices, .journal, .dirty, .rooms]

/-- A door record or an OPEN stay needs the entry. -/
def Needed (s : State) (e : Room) : Prop := s.roomNamed e.room = true ∨ e.openStay ≠ none

theorem roomNamed_of_places {s t : State} (h : t.places = s.places) (r : Nat) : t.roomNamed r = s.roomNamed r := by
  simp only [roomNamed, h]

theorem removeUnnamed_keep {s : State} {e : Nat × Room} (h : s.Needed e.2) : s.removeUnnamed e = s := by
  refine if_neg ?_
  rcases h with h | h
  · simp [h]
  · simp [h]

theorem removeUnnamed_remove {s : State} {e : Nat × Room} (h : ¬s.Needed e.2) : s.removeUnnamed e =
    (s.clearRoom e.1).log .restoreFix (.room e.2.room) ([4#8] ++ le 2 e.2.room) := by
  simp only [Needed, ne_eq, not_or, not_not, Bool.not_eq_true] at h
  refine if_pos ?_
  simp [h.1, h.2]

theorem removeUnnamed_parts (s : State) (e : Nat × Room) : Changes kNamed s (s.removeUnnamed e) := by
  unfold removeUnnamed
  exact .ite (fun _ => (Changes.up (clearRoom_ch ..)).comp (fixRecord_ch ..)) (fun _ => .refl s)

theorem removeUnnamed_rooms {s u : State} (hu : u.Canonical) (hp : u.places = s.places) {e : Nat × Room}
    (he : Tab.look u.rooms e.1 = some e.2) (j : Nat) [Decidable (s.Needed e.2)] :
    Tab.look (u.removeUnnamed e).rooms j =
      if j = e.1 then (if s.Needed e.2 then some e.2 else none) else Tab.look u.rooms j := by
  have hneed : u.Needed e.2 ↔ s.Needed e.2 := by simp only [Needed, roomNamed_of_places hp]
  by_cases h : s.Needed e.2
  · rw [removeUnnamed_keep (hneed.mpr h), if_pos h]
    split
    · rename_i hj; subst hj; exact he
    · rfl
  · rw [removeUnnamed_remove (fun h' => h (hneed.mp h')), (log_ch ..).rooms_eq, if_neg h]
    exact Tab.look_clear _ _ _ hu.rooms

open Classical in
/-- R208 part 4: what nothing needs is gone, and the rest stands. -/
theorem removeAll_look {s : State} (hs : s.Canonical) (j : Nat) : Tab.look (s.rooms.foldl removeUnnamed s).rooms j =
    (Tab.look s.rooms j).filter (fun e => decide (s.Needed e)) := by
  obtain ⟨-, h1, h2⟩ := fold_table (f := removeUnnamed) (val := fun s j => Tab.look s.rooms j)
    (g := fun e => if s.Needed e.2 then some e.2 else none) (G := fun u => u.Canonical ∧ u.places = s.places)
    (I := fun u e => Tab.look u.rooms e.1 = some e.2)
    (fun u e h _ => ⟨(removeUnnamed_parts u e).canonical h.1, (removeUnnamed_parts u e).places_eq.trans h.2⟩)
    (fun u e d h he hd hi => by rw [removeUnnamed_rooms h.1 h.2 he, if_neg hd]; exact hi)
    (fun u e h he => by rw [removeUnnamed_rooms h.1 h.2 he, if_pos rfl])
    (fun u e j h he hj => by rw [removeUnnamed_rooms h.1 h.2 he, if_neg hj])
    (es := s.rooms) (Tab.keys_nodup hs.rooms) (s := s) ⟨hs, rfl⟩ (fun e he => Tab.mem_look hs.rooms he)
  cases hl : Tab.look s.rooms j with
  | none =>
    refine (h2 j (fun d hd hdj => ?_)).trans hl
    have := Tab.mem_look hs.rooms hd
    rw [hdj, hl] at this
    cases this
  | some e =>
    refine (h1 (j, e) (Tab.look_mem hl)).trans ?_
    by_cases h : s.Needed e <;> simp [h, Option.filter]

/-! ## Rooms created -/

theorem createNamed_unnamed {s : State} {p : Nat} (h : (s.place p).door.room? = none) : s.createNamed p = s := by
  simp only [createNamed, h]

theorem createNamed_skip {s : State} {p r : Nat} (hr : (s.place p).door.room? = some r)
    (h : s.findRoom r ≠ none ∨ Tab.lowestFree s.rooms 96 = none) : s.createNamed p = s := by
  simp only [createNamed, hr]
  by_cases hf : s.findRoom r = none
  · have hl := h.resolve_left (fun h => h hf)
    have hc : s.createRoom r = s := by simp [createRoom, hl]
    simp [hf, hc]
  · simp [Option.isSome_iff_ne_none.mpr hf]

theorem createNamed_new {s : State} (hs : s.Canonical) {p r j : Nat} (hr : (s.place p).door.room? = some r)
    (hf : s.findRoom r = none) (hj : Tab.lowestFree s.rooms 96 = some j) : s.createNamed p =
      (s.setRoom j (s.newRoom r none)).log .restoreFix (.room r) ([3#8] ++ le 2 r) := by
  have hc : s.createRoom r = s.setRoom j (s.newRoom r none) := by simp [createRoom, hj, newRoom]
  have hfind : (s.setRoom j (s.newRoom r none)).findRoom r = some (j, s.newRoom r none) := findRoom_write_new hs rfl hf rfl
  simp only [createNamed, hr, hf, hc, hfind, Option.isSome_none, Bool.false_eq_true, if_false, Option.isSome_some, if_true,
    fixRecord]
  rfl

theorem createNamed_parts (s : State) (p : Nat) : Changes kNamed s (s.createNamed p) := by
  unfold createNamed
  split
  · exact .refl s
  · refine .ite (fun _ => .refl s) (fun _ => ?_)
    simp only
    exact .ite (fun _ => (Changes.up (createRoom_ch ..)).comp (fixRecord_ch ..)) (fun _ => .refl s)

/-- A room has an entry, or there is none unused. -/
def Roomed (s : State) (r : Nat) : Prop := s.findRoom r ≠ none ∨ Tab.lowestFree s.rooms 96 = none

theorem findRoom_ne_none_iff {s : State} (hs : s.Canonical) {r : Nat} :
    s.findRoom r ≠ none ↔ ∃ j e, Tab.look s.rooms j = some e ∧ e.room = r := by
  have h := Tab.find?_none_iff hs.rooms (fun x => x.room == r)
  rw [ne_eq, findRoom, h]
  simp only [beq_eq_false_iff_ne, not_forall, not_not, exists_prop]

theorem roomed_mono {s t : State} (hs : s.Canonical) (ht : t.Canonical)
    (h : ∀ j e, Tab.look s.rooms j = some e → ∃ x, Tab.look t.rooms j = some x ∧ x.room = e.room) {r : Nat}
    (hr : s.Roomed r) : t.Roomed r := by
  rcases hr with hr | hr
  · obtain ⟨j, e, he, her⟩ := (findRoom_ne_none_iff hs).mp hr
    obtain ⟨x, hx, hxr⟩ := h j e he
    exact .inl ((findRoom_ne_none_iff ht).mpr ⟨j, x, hx, hxr.trans her⟩)
  · refine .inr (Tab.lowestFree_none_iff.mpr (fun j hj => ?_))
    obtain ⟨e, he⟩ := Option.ne_none_iff_exists'.mp (Tab.lowestFree_none_iff.mp hr j hj)
    obtain ⟨x, hx, -⟩ := h j e he
    rw [hx]
    simp

/-- One place of part 4: its room has an entry where one is unused, the entries stay, and a new one is needed. -/
theorem createNamed_spec {s : State} (hs : s.Canonical) (p : Nat) :
    (∀ r, (s.place p).door.room? = some r → (s.createNamed p).Roomed r) ∧
      (∀ j e, Tab.look s.rooms j = some e → Tab.look (s.createNamed p).rooms j = some e) ∧
      ∀ j e, Tab.look (s.createNamed p).rooms j = some e → Tab.look s.rooms j = some e ∨ s.Needed e := by
  have hsame (h : s.createNamed p = s) (hr : ∀ r, (s.place p).door.room? = some r → s.Roomed r) :
      (∀ r, (s.place p).door.room? = some r → (s.createNamed p).Roomed r) ∧
      (∀ j e, Tab.look s.rooms j = some e → Tab.look (s.createNamed p).rooms j = some e) ∧
      ∀ j e, Tab.look (s.createNamed p).rooms j = some e → Tab.look s.rooms j = some e ∨ s.Needed e := by
    rw [h]
    exact ⟨hr, fun _ _ h => h, fun _ _ h => .inl h⟩
  cases hd : (s.place p).door.room? with
  | none => exact hd ▸ hsame (createNamed_unnamed hd) (fun r h => by rw [hd] at h; cases h)
  | some r =>
    by_cases hr : s.Roomed r
    · exact hd ▸ hsame (createNamed_skip hd hr) (fun q h => by rw [hd] at h; cases h; exact hr)
    · simp only [Roomed, ne_eq, not_or, not_not] at hr
      obtain ⟨hf, hl⟩ := hr
      obtain ⟨j, hj⟩ := Option.ne_none_iff_exists'.mp hl
      have hrooms : (s.createNamed p).rooms = Tab.write s.rooms j (s.newRoom r none) := by
        rw [createNamed_new hs hd hf hj, (log_ch ..).rooms_eq]
        rfl
      rw [hrooms]
      refine ⟨fun q hq => ?_, fun k e he => ?_, fun k e he => ?_⟩
      · cases hq
        refine .inl ?_
        rw [findRoom_write_new hs hrooms hf rfl]
        simp
      · rw [Tab.look_write_ne _ _ (fun h => ?_)]
        · exact he
        · rw [h, (Tab.lowestFree_spec hj).1] at he
          cases he
      · by_cases hk : k = j
        · subst hk
          rw [Tab.look_write_self] at he
          obtain rfl := Option.some.inj he
          exact .inr (.inl ((roomNamed_iff hs).mpr ⟨p, hd⟩))
        · rw [Tab.look_write_ne _ _ hk] at he
          exact .inl he

theorem createAll_ch (ps : List Nat) (s : State) : Changes kNamed s (ps.foldl createNamed s) :=
  .fold (fun s p => createNamed_parts s p) ps s

theorem createAll_spec (ps : List Nat) {s : State} (hs : s.Canonical) :
    (∀ p ∈ ps, ∀ r, (s.place p).door.room? = some r → (ps.foldl createNamed s).Roomed r) ∧
      (∀ j e, Tab.look s.rooms j = some e → Tab.look (ps.foldl createNamed s).rooms j = some e) ∧
      ∀ j e, Tab.look (ps.foldl createNamed s).rooms j = some e → Tab.look s.rooms j = some e ∨ s.Needed e := by
  induction ps generalizing s with
  | nil => exact ⟨fun p hp => (by cases hp), fun _ _ h => h, fun _ _ h => .inl h⟩
  | cons p ps ih =>
    have hch := createNamed_parts s p
    have hcan := hch.canonical hs
    obtain ⟨h1, h2, h3⟩ := createNamed_spec hs p
    obtain ⟨ih1, ih2, ih3⟩ := ih hcan
    have hneed (e : Room) : (s.createNamed p).Needed e ↔ s.Needed e := by
      simp only [Needed, roomNamed_of_places hch.places_eq]
    refine ⟨fun q hq r hr => ?_, fun j e he => ih2 j e (h2 j e he), fun j e he => ?_⟩
    · rcases List.mem_cons.mp hq with rfl | hq
      · exact roomed_mono hcan ((createAll_ch ps _).canonical hcan) (fun j e he => ⟨e, ih2 j e he, rfl⟩) (h1 r hr)
      · exact ih1 q hq r (by rw [place_congr hch.places_eq]; exact hr)
    · rcases ih3 j e he with h | h
      · exact h3 j e h
      · exact .inr ((hneed e).mp h)

/-! ## Doors and minibars recomputed -/

/-- An entry with its door and minibar as the places give them. -/
def recomputed (s : State) (e : Room) : Room := { e with door := s.roomPlace 1 e.room, minibar := s.roomPlace 3 e.room }

theorem recomputeRoom_look {s u : State} (hp : u.places = s.places) {e : Nat × Room} (he : Tab.look u.rooms e.1 = some e.2)
    (j : Nat) : Tab.look (u.recomputeRoom e.1).rooms j = if j = e.1 then some (s.recomputed e.2) else Tab.look u.rooms j := by
  have hrec : u.recomputed e.2 = s.recomputed e.2 := by simp only [recomputed, roomPlace_congr hp]
  unfold recomputeRoom
  rw [he]
  simp only
  rw [show ({ e.2 with door := u.roomPlace 1 e.2.room, minibar := u.roomPlace 3 e.2.room } : Room) = s.recomputed e.2 from hrec]
  split
  · rename_i h
    split
    · rename_i hj; subst hj; rw [he, h]
    · rfl
  · split
    · rename_i hj; subst hj; exact Tab.look_write_self ..
    · rename_i hj; exact Tab.look_write_ne _ _ hj

theorem recomputeRooms_look {s : State} (hs : s.Canonical) (j : Nat) :
    Tab.look s.recomputeRooms.rooms j = (Tab.look s.rooms j).map s.recomputed := by
  have hfold : s.recomputeRooms = s.rooms.foldl (fun s e => s.recomputeRoom e.1) s := by
    rw [recomputeRooms, Tab.keys, List.foldl_map]
  obtain ⟨-, h1, h2⟩ := fold_table (f := fun s (e : Nat × Room) => s.recomputeRoom e.1) (val := fun s j => Tab.look s.rooms j)
    (g := fun e => some (s.recomputed e.2)) (G := fun u => u.places = s.places)
    (I := fun u e => Tab.look u.rooms e.1 = some e.2)
    (fun u e h _ => (recomputeRoom_ch u e.1).places_eq.trans h)
    (fun u e d h he hd hi => by rw [recomputeRoom_look h he, if_neg hd]; exact hi)
    (fun u e h he => by rw [recomputeRoom_look h he, if_pos rfl])
    (fun u e j h he hj => by rw [recomputeRoom_look h he, if_neg hj])
    (es := s.rooms) (Tab.keys_nodup hs.rooms) (s := s) rfl (fun e he => Tab.mem_look hs.rooms he)
  rw [hfold]
  cases hl : Tab.look s.rooms j with
  | none =>
    refine (h2 j (fun d hd hdj => ?_)).trans hl
    have := Tab.mem_look hs.rooms hd
    rw [hdj, hl] at this
    cases this
  | some e => exact h1 (j, e) (Tab.look_mem hl)

theorem fixRooms_spec {s : State} (hs : s.Canonical) : let t := s.fixRooms
    (∀ p r, (t.place p).door.room? = some r → t.findRoom r ≠ none ∨ Tab.lowestFree t.rooms 96 = none) ∧
    (∀ e ∈ t.rooms, (t.roomNamed e.2.room = true ∨ e.2.openStay ≠ none) ∧
      e.2.door = t.roomPlace 1 e.2.room ∧ e.2.minibar = t.roomPlace 3 e.2.room) ∧
    ∀ i e, Tab.look s.rooms i = some e → s.roomNamed e.room = true ∨ e.openStay ≠ none →
      ∃ x, Tab.look t.rooms i = some x ∧ x.room = e.room ∧ x.accepted = e.accepted ∧ x.openStay = e.openStay := by
  classical
  have hremove : Changes kNamed s (s.rooms.foldl removeUnnamed s) := .fold (fun s e => removeUnnamed_parts s e) _ s
  have hkept := removeAll_look hs
  unfold fixRooms
  simp only
  generalize s.rooms.foldl removeUnnamed s = u at hremove hkept
  have hu := hremove.canonical hs
  obtain ⟨h1, h2, h3⟩ := createAll_spec u.placeKeys hu
  have hcreate := createAll_ch u.placeKeys u
  generalize u.placeKeys.foldl createNamed u = v at h1 h2 h3 hcreate
  have hv := hcreate.canonical hu
  have hlook := recomputeRooms_look hv
  have hrecompute := recomputeRooms_ch v
  have ht := hrecompute.canonical hv
  have hplaces : v.recomputeRooms.places = v.places := hrecompute.places_eq
  have hvs : v.places = s.places := hcreate.places_eq.trans hremove.places_eq
  refine ⟨fun p r hr => ?_, fun e he => ?_, fun i e he hneed => ?_⟩
  · have hp : p ∈ u.placeKeys := mem_placeKeys (fun h => by
      rw [place_congr (hplaces.trans hcreate.places_eq), h] at hr
      cases hr)
    rw [place_congr (hplaces.trans hcreate.places_eq)] at hr
    exact roomed_mono hv ht (fun j e he => ⟨_, (hlook j).trans (congrArg (Option.map v.recomputed) he), rfl⟩) (h1 p hp r hr)
  · have hl : Tab.look v.recomputeRooms.rooms e.1 = some e.2 := Tab.mem_look ht.rooms he
    rw [hlook] at hl
    obtain ⟨x, hx, hxe⟩ := Option.map_eq_some_iff.mp hl
    have hneeded : s.Needed x := by
      rcases h3 e.1 x hx with h | h
      · rw [hkept] at h
        exact of_decide_eq_true (Option.filter_eq_some_iff.mp h).2
      · simpa only [Needed, roomNamed_of_places hremove.places_eq] using h
    rw [← hxe]
    refine ⟨?_, ?_, ?_⟩
    · rw [roomNamed_of_places (hplaces.trans hvs)]
      exact hneeded
    · exact (roomPlace_congr hplaces 1 x.room).symm
    · exact (roomPlace_congr hplaces 3 x.room).symm
  · have hstay : Tab.look u.rooms i = some e := by
      rw [hkept, he]
      exact Option.filter_eq_some_iff.mpr ⟨rfl, decide_eq_true hneed⟩
    exact ⟨v.recomputed e, by rw [hlook, h2 i e hstay]; rfl, rfl, rfl, rfl⟩

end State

end Sys2Proof.Machine
end

