-- ==== Sys2Proof/Proofs/ChargesReconciled.lean ====
section
/-! Part 6 of the reconciliation: every restored charge committed, and every compartment left PENDING emptied (R208). -/

set_option Elab.async false

namespace Sys2Proof.Machine

namespace State

/-! ## The restored charges -/

/-- What comes before the commit of a restored charge: its RESTORE_FIX, and its leave of the list. -/
def noteCharge (s : State) (c : Charge) : State :=
  (s.fixRecord 6 (.drop c.place) ([byte c.compartment] ++ le 2 c.stay)).setCharges (s.pendingCharges.filter (fun d => d != c))

theorem noteCharge_precedes : Precedes noteCharge :=
  ⟨fun _ _ => (Changes.up (fixRecord_ch ..)).comp (setCharges_ch ..), fun _ _ hs h => handOver_set hs _ _ h⟩

theorem restoredCommits (cs : List Charge) (s : State) : cs.foldl commitRestored s = commits noteCharge true cs s := rfl

/-- A RESTORE_FIX at a drop, with a detail of at most four bytes. -/
theorem fixRecord_logged {s : State} (p code : Nat) {bs : List Byte} (h : bs.length ≤ 3) :
    Logged (fun r => some r.outline) s (s.fixRecord code (.drop p) bs) [fixOutline p ([byte code] ++ bs)] := by
  have hl := Logged.of_handOver (view := fun r => some r.outline) s
    ⟨.restoreFix, .drop p, none, none, [byte code] ++ bs, Marks.none, none⟩
  have htake : ([byte code] ++ bs).take 4 = [byte code] ++ bs := List.take_of_length_le (by simp; omega)
  have ho : (s.stamp ⟨.restoreFix, .drop p, none, none, [byte code] ++ bs, Marks.none, none⟩).outline =
      fixOutline p ([byte code] ++ bs) := by
    simp only [Record.outline, stamp, htake]
    rfl
  rw [ho] at hl
  exact hl

theorem noteCharge_logged (s : State) (c : Charge) : Logged (fun r => some r.outline) s (s.noteCharge c)
    [fixOutline c.place ([6#8, byte c.compartment] ++ le 2 c.stay)] :=
  (fixRecord_logged c.place 6 (by simp [le_length])).then_eq rfl

/-! ## The keys of the places -/

theorem placeKeys_setPlace {s : State} (hs : s.Canonical) {p : Nat} {pl : Place} (hp : p ∈ s.placeKeys)
    (h : pl ≠ Place.reset) : (s.setPlace p pl).placeKeys = s.placeKeys := by
  simp only [placeKeys, setPlace, Tab.put, h, if_false]
  exact Tab.keys_write hs.places.1 hp pl

/-- A change of a compartment that exists leaves which places differ from reset. -/
theorem moveComp_placeKeys {s : State} (hs : s.Canonical) {p c : Nat} {x : Compartment} (h : (s.place p).comps[c]? = some x)
    (st : CompState) (rev : Nat) : (s.moveComp p c st rev).placeKeys = s.placeKeys := by
  obtain ⟨hlen, -⟩ := List.getElem?_eq_some_iff.mp h
  have hp : p ∈ s.placeKeys := mem_placeKeys (fun hr => by rw [hr] at hlen; simp [Place.reset] at hlen)
  refine placeKeys_setPlace hs hp (fun hr => ?_)
  have := congrArg (fun pl : Place => pl.comps.length) hr
  simp [Place.reset] at this
  rw [this] at hlen
  simp at hlen

theorem emptyComp_placeKeys {s : State} (hs : s.Canonical) (p c : Nat) : (s.emptyComp p c).placeKeys = s.placeKeys := by
  unfold emptyComp
  split
  · rfl
  · rename_i x hx
    split
    · exact moveComp_placeKeys hs hx _ _
    · rfl

theorem placeKeys_congr {s t : State} (h : t.places = s.places) : t.placeKeys = s.placeKeys := by simp only [placeKeys, h]

theorem commits_placeKeys {pre : State → Charge → State} (hpre : Precedes pre) {s : State} (hs : s.Canonical) (ng : Bool)
    (cs : List Charge) : (commits pre ng cs s).placeKeys = s.placeKeys := by
  induction cs generalizing s with
  | nil => rfl
  | cons c cs ih =>
    have hch := hpre.ch s c
    have hp := hch.canonical hs
    obtain ⟨u, K, hu, hpl, hcommit⟩ := commit_places (pre s c) c ng
    refine (ih ((commit_ch ..).canonical hp)).trans ((placeKeys_congr hcommit).trans ?_)
    rw [emptyComp_placeKeys (hu.canonical hp), placeKeys_congr hpl, placeKeys_congr hch.places_eq]

/-! ## Compartments left PENDING -/

/-- A compartment that is not left PENDING. -/
def settled (x : Compartment) : Compartment := if x.state = .pending then { x with state := .empty, reversals := 0 } else x

theorem orphanAt_parts (p : Nat) (s : State) (c : Nat) : Changes kMini s (orphanAt p s c) := by
  unfold orphanAt
  exact .ite (fun _ => (Changes.up (moveComp_ch ..)).comp (fixRecord_ch ..)) (fun _ => .refl s)

theorem comp_exists {s : State} {p c : Nat} (h : (s.comp p c).state = .pending) : (s.place p).comps[c]? = some (s.comp p c) := by
  cases hc : (s.place p).comps[c]? with
  | some x => rw [comp_some hc]
  | none => rw [comp_none hc] at h; cases h

theorem orphanAt_comp {s : State} (hs : s.Canonical) (p c q d : Nat) : (orphanAt p s c).comp q d =
    if q = p ∧ d = c then settled (s.comp q d) else s.comp q d := by
  unfold orphanAt
  by_cases h : (s.comp p c).state = .pending
  · rw [if_pos h, comp_congr (fixRecord_ch ..).places_eq, moveComp_comp hs (comp_exists h)]
    split
    · rename_i hqd
      obtain ⟨rfl, rfl⟩ := hqd
      rw [settled, if_pos h]
    · rfl
  · rw [if_neg h]
    split
    · rename_i hqd
      obtain ⟨rfl, rfl⟩ := hqd
      rw [settled, if_neg h]
    · rfl

theorem orphanAt_logged (p : Nat) (s : State) (c : Nat) : Logged (fun r => some r.outline) s (orphanAt p s c)
    (if (s.comp p c).state = .pending then [fixOutline p [7#8, byte c]] else []) := by
  unfold orphanAt
  split
  · exact Logged.after_eq (t := s.moveComp p c .empty 0) (moveComp_ch ..).journal_eq (fixRecord_logged p 7 (bs := [byte c]) (by simp))
  · exact .of_journal_eq rfl

theorem orphanAt_stays (p : Nat) (s : State) (c : Nat) : (orphanAt p s c).stays = s.stays ∧
    (orphanAt p s c).pendingCharges = s.pendingCharges := by
  unfold orphanAt
  split
  · exact ⟨(fixRecord_ch ..).stays_eq.trans (moveComp_ch ..).stays_eq, (fixRecord_ch ..).charges_eq.trans (moveComp_ch ..).charges_eq⟩
  · exact ⟨rfl, rfl⟩

theorem orphanAt_set {s : State} (hs : s.Canonical) (p c : Nat) (h : (s.fault .folioSaturated).set = true) :
    ((orphanAt p s c).fault .folioSaturated).set = true := by
  unfold orphanAt
  split
  · have hch := moveComp_ch s p c .empty 0
    exact handOver_set (hch.canonical hs) _ _ (by rw [fault_congr hch.faults_eq.1]; exact h)
  · exact h

/-- The compartments of a list of places and compartments, each settled. -/
def settleComps (l : List (Nat × Nat)) (s : State) : State := l.foldl (fun s e => orphanAt e.1 s e.2) s

theorem settleComps_ch (l : List (Nat × Nat)) (s : State) : Changes kMini s (settleComps l s) :=
  .fold (f := fun s (e : Nat × Nat) => orphanAt e.1 s e.2) (fun s e => orphanAt_parts e.1 s e.2) l s

theorem settleComps_spec {l : List (Nat × Nat)} (hn : l.Nodup) {s : State} (hs : s.Canonical) :
    (∀ q d, (settleComps l s).comp q d = if (q, d) ∈ l then settled (s.comp q d) else s.comp q d) ∧
      Logged (fun r => some r.outline) s (settleComps l s)
        (l.flatMap (fun e => if (s.comp e.1 e.2).state = .pending then [fixOutline e.1 [7#8, byte e.2]] else [])) ∧
      (settleComps l s).stays = s.stays ∧ (settleComps l s).pendingCharges = s.pendingCharges ∧
      ((s.fault .folioSaturated).set = true → ((settleComps l s).fault .folioSaturated).set = true) := by
  induction l generalizing s with
  | nil => exact ⟨fun _ _ => rfl, .of_journal_eq rfl, rfl, rfl, id⟩
  | cons e l ih =>
    obtain ⟨p, c⟩ := e
    obtain ⟨he, hn⟩ := List.nodup_cons.mp hn
    have hcomp := orphanAt_comp hs p c
    have hcan := (orphanAt_parts p s c).canonical hs
    obtain ⟨ih1, ih2, ih3, ih4, ih5⟩ := ih hn hcan
    have hsame : ∀ e ∈ l, (orphanAt p s c).comp e.1 e.2 = s.comp e.1 e.2 := by
      rintro ⟨q, d⟩ hqd
      rw [hcomp, if_neg]
      rintro ⟨rfl, rfl⟩
      exact he hqd
    refine ⟨fun q d => ?_, ?_, ih3.trans (orphanAt_stays p s c).1, ih4.trans (orphanAt_stays p s c).2,
      fun h => ih5 (orphanAt_set hs p c h)⟩
    · refine (ih1 q d).trans ?_
      by_cases hqd : (q, d) ∈ l
      · rw [if_pos hqd, if_pos (List.mem_cons_of_mem _ hqd), hsame _ hqd]
      · rw [if_neg hqd, hcomp]
        simp only [List.mem_cons, Prod.mk.injEq, hqd, or_false]
    · rw [List.flatMap_cons]
      refine (orphanAt_logged p s c).trans ?_
      rwa [List.flatMap_congr (fun e hel => by rw [hsame e hel])] at ih2

/-- The compartments that the second half of part 6 walks. -/
def allComps (s : State) : List (Nat × Nat) := s.placeKeys.flatMap (fun p => (List.range 12).map (fun c => (p, c)))

theorem mem_allComps {s : State} {p c : Nat} : (p, c) ∈ s.allComps ↔ p ∈ s.placeKeys ∧ c < 12 := by
  simp only [allComps, List.mem_flatMap, List.mem_map, List.mem_range, Prod.mk.injEq]
  constructor
  · rintro ⟨q, hq, d, hd, rfl, rfl⟩
    exact ⟨hq, hd⟩
  · rintro ⟨hp, hc⟩
    exact ⟨p, hp, c, hc, rfl, rfl⟩

theorem allComps_nodup {s : State} (hs : s.Canonical) : s.allComps.Nodup :=
  (placeKeys_nodup hs).product List.nodup_range

theorem fixPending_eq (s : State) : s.fixPending =
    settleComps (commits noteCharge true s.pendingCharges s).allComps (commits noteCharge true s.pendingCharges s) := by
  unfold fixPending settleComps allComps
  simp only [restoredCommits, List.foldl_flatMap, List.foldl_map]

theorem fixPending_parts (s : State) : Changes kMini s s.fixPending := by
  rw [fixPending_eq]
  exact (commits_ch noteCharge_precedes true _ s).comp (settleComps_ch _ _)

/-- The compartments of a place that stand PENDING and that no charge names. -/
def orphans (s : State) (cs : List Charge) (p : Nat) : List Nat :=
  (List.range 12).filter (fun c => (s.comp p c).state == .pending && !cs.any (isCharge p c))

theorem isCharge_any {cs : List Charge} {p c : Nat} : cs.any (isCharge p c) = true ↔
    ∃ x ∈ cs, p = x.place ∧ c = x.compartment := by
  simp only [List.any_eq_true, isCharge, Bool.and_eq_true, beq_iff_eq]
  simp only [eq_comm]

theorem fixPending_spec {s : State} (hs : s.Canonical) : let t := s.fixPending
    let cs := s.pendingCharges
    t.pendingCharges = [] ∧ (∀ p c, c < 12 → (t.comp p c).state ≠ .pending) ∧ s.Charged t cs ∧
    (∀ p c, c < 12 → (s.comp p c).state = .pending →
      t.comp p c = { s.comp p c with state := .empty, reversals := 0 }) ∧
    (t.journal.storable = true → ∃ added, t.journal.ring = s.journal.ring ++ added ∧
      added.map Record.outline = cs.flatMap (fun c =>
          [fixOutline c.place ([6#8, byte c.compartment] ++ le 2 c.stay), s.chargeOutline true c]) ++
        s.placeKeys.flatMap (fun p => (s.orphans cs p).map (fun c => fixOutline p [7#8, byte c]))) := by
  intro t cs
  have hch := commits_ch noteCharge_precedes true cs s
  have hcomp := commits_comp noteCharge_precedes hs true cs
  have hcharged := commits_charged noteCharge_precedes hs true cs
  have hkeys := commits_placeKeys noteCharge_precedes hs true cs
  have hlist := commits_charges (pre := noteCharge) (fun _ _ => rfl) true cs s
  have hlog := commits_logged some noteCharge_precedes noteCharge_logged hs true cs
  have ht : t = settleComps (commits noteCharge true cs s).allComps (commits noteCharge true cs s) := fixPending_eq s
  generalize commits noteCharge true cs s = v at *
  have hv := hch.canonical hs
  obtain ⟨h1, h2, h3, h4, h5⟩ := settleComps_spec (allComps_nodup hv) hv
  rw [← ht] at h1 h2 h3 h4 h5
  have hpend (p c : Nat) : (v.comp p c).state = .pending ↔ (s.comp p c).state = .pending ∧ cs.any (isCharge p c) = false := by
    rw [hcomp, ← Bool.not_eq_true, isCharge_any]
    split
    · rename_i h
      simp only [h, not_true, and_false, iff_false]
      unfold cleared
      split
      · simp
      · rename_i hst
        exact fun h => hst (.inl h)
    · rename_i h
      simp [h]
  have hsettled (p c : Nat) (hc : c < 12) : t.comp p c = settled (v.comp p c) := by
    rw [h1]
    split
    · rfl
    · rename_i hmem
      have hp : p ∉ v.placeKeys := fun hp => hmem (mem_allComps.mpr ⟨hp, hc⟩)
      have hdef : v.comp p c = ⟨0, .empty, 0⟩ := by rw [comp, place_of_not_key hp]; rfl
      rw [hdef]
      rfl
  refine ⟨?_, fun p c hc => ?_, ⟨fun i x hx => ?_, fun i hi => ?_, fun i x hx hb hsat => ?_⟩, fun p c hc hst => ?_, fun hj => ?_⟩
  · rw [h4, hlist]
    exact List.filter_eq_nil_iff.mpr (fun d hd => by simpa using hd)
  · rw [hsettled p c hc, settled]
    split
    · simp
    · assumption
  · rw [h3]; exact hcharged.stays i x hx
  · rw [h3]; exact hcharged.unused i hi
  · exact h5 (hcharged.saturated i x hx hb hsat)
  · rw [hsettled p c hc, hcomp]
    split
    · rw [cleared, if_pos (.inl hst)]
      rfl
    · rw [settled, if_pos hst]
  · obtain ⟨added, hr, ha⟩ := (hlog.trans h2).ring hj
    refine ⟨added, hr, ?_⟩
    rw [← congrFun List.filterMap_eq_map added]
    refine ha.trans ?_
    congr 1
    rw [allComps, hkeys, List.flatMap_assoc]
    refine List.flatMap_congr (fun p _ => ?_)
    rw [orphans, List.flatMap_map]
    induction List.range 12 with
    | nil => rfl
    | cons c l ih =>
      rw [List.flatMap_cons, ih, List.filter_cons]
      by_cases h : (s.comp p c).state = .pending ∧ cs.any (isCharge p c) = false
      · rw [if_pos ((hpend p c).mpr h), if_pos (by simp only [h.1, h.2]; rfl)]
        rfl
      · rw [if_neg (fun h' => h ((hpend p c).mp h')), if_neg (fun h' => h ?_)]
        · rfl
        · simpa only [Bool.and_eq_true, beq_iff_eq, Bool.not_eq_true'] using h'

end State

end Sys2Proof.Machine
end

