-- ==== Sys2Proof/Proofs/LineStates.lean ====
section
/-! Which operations leave the segments' line states and tests, and what a segment that enters TESTING has (R92). -/

set_option Elab.async false

namespace Sys2Proof.Machine

/-- A segment's line state and test. -/
def Segment.lineTest (x : Segment) : LineState × Option TestProgress := (x.line, x.test)

namespace State

/-- Every segment keeps its line state and test. -/
def SameLines (s t : State) : Prop := ∀ g, (t.seg g).lineTest = (s.seg g).lineTest

namespace SameLines

variable {s t u : State}

theorem refl (s : State) : SameLines s s := fun _ => rfl

theorem trans (h1 : SameLines s t) (h2 : SameLines t u) : SameLines s u := fun g => (h2 g).trans (h1 g)

theorem of_segs (h : t.segs = s.segs) : SameLines s t := fun g => by simp only [seg, h]

theorem ite {p : Prop} [Decidable p] {a b : State} (ha : SameLines s a) (hb : SameLines s b) :
    SameLines s (if p then a else b) := by
  split
  · exact ha
  · exact hb

end SameLines

theorem modSeg_sameLines {s : State} (hs : s.Canonical) (g : Nat) {f : Segment → Segment}
    (hf : ∀ x, (f x).lineTest = x.lineTest) : SameLines s (s.modSeg g f) := by
  intro k
  rw [seg_modSeg _ _ _ _ hs.segs.1]
  split
  · rename_i h; subst h; exact hf _
  · rfl

theorem walkFrom_sameLines (g : Nat) (guest : Bool) (s : State) : SameLines s (walkFrom g guest s).1 :=
  .of_segs (walkFrom_ch g guest s).segs_eq

theorem walkOther_sameLines (g : Nat) {s : State} (hs : s.Canonical) : SameLines s (walkOther g s) := by
  have h := walkFrom_sameLines g false s
  have hc := (walkFrom_ch g false s).canonical hs
  unfold walkOther
  split <;> rename_i heq <;> rw [heq] at h hc <;> exact h.trans (modSeg_sameLines hc g (fun _ => rfl))

theorem enterOther_sameLines (g : Nat) {s : State} (hs : s.Canonical) : SameLines s (enterOther g s) :=
  (modSeg_sameLines hs g (f := fun x => { x with index := 0, pass := .other }) (fun _ => rfl)).trans
    (walkOther_sameLines g ((modSeg_ch ..).canonical hs))

theorem walk_sameLines (g : Nat) {s : State} (hs : s.Canonical) : SameLines s (walk g s) := by
  unfold walk
  split
  · exact walkOther_sameLines g hs
  · have h := walkFrom_sameLines g true s
    have hc := (walkFrom_ch g true s).canonical hs
    split <;> rename_i heq <;> rw [heq] at h hc
    · exact h.trans (modSeg_sameLines hc g (fun _ => rfl))
    · exact h.trans (enterOther_sameLines g hc)
    · exact h.trans (enterOther_sameLines g hc)

theorem startReload_sameLines (g : Nat) {s : State} (hs : s.Canonical) : SameLines s (startReload g s) := by
  unfold startReload
  simp only
  refine .ite ?_ (.refl s)
  split
  · intro k
    rw [seg_setSeg _ _ _ _ hs.segs.1]
    split
    · rename_i h; subst h; rfl
    · rfl
  · exact .refl s

theorem pump_sameLines (g n : Nat) {s : State} (hs : s.Canonical) : SameLines s (pump g n s) := by
  induction n generalizing s with
  | zero => exact .refl s
  | succ n ih =>
    have hwalk (u : State) (hu : u.Canonical) : SameLines u (pump g n (u.walk g)) :=
      (walk_sameLines g hu).trans (ih ((walk_ch g u).canonical hu))
    simp only [pump]
    refine .ite (.refl s) (.ite ?_ (.ite (.refl s) (.ite (hwalk s hs) (walk_sameLines g hs))))
    split
    · exact (startReload_sameLines g hs).trans (hwalk _ ((startReload_ch g s).canonical hs))
    · exact .refl s

theorem leaveCache_sameLines (p : Nat) {s : State} (hs : s.Canonical) : SameLines s (leaveCache p s) := by
  have hdir : Changes [.places] s (s.modPlace p (fun pl => { pl with directory := [], flush := none })) :=
    modPlace_same s p (fun _ => rfl)
  have hclear : SameLines s (clearCache p s) :=
    (SameLines.of_segs hdir.segs_eq).trans (modSeg_sameLines (hdir.canonical hs) _ (fun _ => rfl))
  exact .ite (hclear.trans (pump_sameLines _ _ ((clearCache_ch p s).canonical hs))) hclear

/-- A drop that enters ABSENT leaves every segment's line state and test. -/
theorem enterAbsent_sameLines (p : Nat) {s : State} (hs : s.Canonical) : SameLines s (enterAbsent p s) := by
  have h1 : Changes kDoor s (s.modPlace p (fun pl => { pl with presence := .absent, delivery := none, waiting := [] })) :=
    (modPlace_ch s p (fun _ _ => by simp [Place.queueLen_eq])).up
  have h2 := (h1.comp (.fold (fun s e => loseCmd_ch p s e) (s.place p).queue _)).comp (endPresentation_ch p false true _)
  unfold enterAbsent
  simp only
  generalize State.endPresentation p false true _ = t at h2 ⊢
  have h3 := h2.comp (modPlace_same t p (f := fun pl => pl.resetDoor (t.zoneOfDoor pl.door == .released)) (fun _ => rfl))
  have h4 := (SameLines.of_segs h3.segs_eq).trans (leaveCache_sameLines p (h3.canonical hs))
  generalize State.leaveCache p _ = u at h4 ⊢
  have h5 : Changes kDoor u (if (s.place p).door.isMinibar then u.endLid p else u) :=
    .ite (fun _ => endLid_ch ..) (fun _ => .refl u)
  generalize (if (s.place p).door.isMinibar then u.endLid p else u) = v at h5 ⊢
  have h6 : Changes kDoor u (((v.modPlace p absentFields).presenceRecord p (s.place p).presence).faultAt .dropAbsent p) :=
    ((h5.comp (modPlace_same v p (f := absentFields) (fun _ => rfl))).comp (presenceRecord_ch ..)).comp (faultAt_ch ..)
  exact h4.trans (.of_segs h6.segs_eq)

theorem allAbsent_sameLines (g : Nat) {s : State} (hs : s.Canonical) : SameLines s (allAbsent g s) := by
  unfold allAbsent
  generalize (s.placesOn g).filter (fun p => (s.place p).presence != .absent) = l
  induction l generalizing s with
  | nil => exact .refl s
  | cons p l ih => exact (enterAbsent_sameLines p hs).trans (ih ((enterAbsent_ch p s).canonical hs))

/-- R92: the segment begins its test, and the others stay as they are. -/
theorem enterTesting_lineTest {s : State} (hs : s.Canonical) (g k : Nat) : ((enterTesting g s).seg k).lineTest =
    if k = g then (.testing, some ⟨1, 1, 0, .none, false⟩) else (s.seg k).lineTest := by
  have hfirst : ∃ u : State, u.Canonical ∧ enterTesting g s = (u.allAbsent g).modSeg g startTest ∧
      (u.seg g).line = .testing ∧ ∀ k, k ≠ g → (u.seg k).lineTest = (s.seg k).lineTest := by
    by_cases h : (s.seg g).line = .testing
    · exact ⟨s, hs, by simp only [enterTesting, h, if_true], h, fun _ _ => rfl⟩
    · have hmod (k : Nat) (f : Segment → Segment) := seg_modSeg s g k f hs.segs.1
      have hlog (u : State) (bs : List Byte) (k : Nat) : (u.log .segmentState (.segment g) bs).seg k = u.seg k := by
        rw [seg, (log_ch ..).segs_eq, seg]
      refine ⟨s.changeLine g .testing [], (changeLine_ch ..).canonical hs, by simp only [enterTesting, h, if_false], ?_, ?_⟩
      · simp only [changeLine, lineFault, hlog, hmod, if_true]
      · intro k hk
        simp only [changeLine, lineFault, hlog, hmod, hk, if_false]
  obtain ⟨u, hu, heq, hline, hother⟩ := hfirst
  have habs := allAbsent_sameLines g hu
  rw [heq, seg_modSeg _ _ _ _ ((allAbsent_ch g u).canonical hu).segs.1]
  split
  · have hl : ((u.allAbsent g).seg g).line = .testing := (congrArg Prod.fst (habs g)).trans hline
    simp only [startTest, Segment.lineTest, hl]
  · rename_i hk
    exact (habs k).trans (hother k hk)

theorem testAll_ch (l : List Nat) (s : State) : Changes kAbsent s (l.foldl (fun s g => s.enterTesting g) s) :=
  .fold (fun s g => enterTesting_ch g s) l s

theorem testAll_lineTest (l : List Nat) {s : State} (hs : s.Canonical) (k : Nat) :
    ((l.foldl (fun s g => s.enterTesting g) s).seg k).lineTest =
      if k ∈ l then (.testing, some ⟨1, 1, 0, .none, false⟩) else (s.seg k).lineTest := by
  induction l generalizing s with
  | nil => simp
  | cons g l ih =>
    rw [List.foldl_cons, ih ((enterTesting_ch g s).canonical hs), enterTesting_lineTest hs]
    by_cases hl : k ∈ l
    · simp [hl]
    · simp [hl]

end State

end Sys2Proof.Machine
end

