-- ==== Sys2Proof/Proofs/StartedUp.lean ====
section
/-! O19: START_UP_RESTORE. -/

set_option Elab.async false

namespace Sys2Proof.Machine

namespace State

/-! ## What the parts change -/

theorem fixDuplicates_parts (s : State) : Changes kRev s s.fixDuplicates := by
  unfold fixDuplicates
  simp only
  refine (Changes.fold (K := kRev) (f := fun s e => s.revoke e.1 .replace) (fun s e => revoke_ch e.1 .replace s) s.losers s).comp
    (L := kRev) ?_
  exact .fold (fun s e => (Changes.up (K := kRev) (emptyLoser_ch s e))) _ _

theorem fixStays_parts (s : State) : Changes kFix s s.fixStays := .fold (fun s e => closeByFix_parts s e) _ s

theorem fixRooms_parts (s : State) : Changes kNamed s s.fixRooms :=
  ((Changes.fold (fun s e => removeUnnamed_parts s e) _ s).comp (createAll_ch _ _)).comp (recomputeRooms_ch _)

theorem fixStale_parts (s : State) : Changes kRev s s.fixStale := .fold (fun s e => supersedeStale_parts s e) _ s

/-! ## The start-up record is kept up to the last stage -/

theorem restoreBlock_startRecord (b : Nat) (img : List Byte) (s : State) :
    (restoreBlock b img s).startRecord = s.startRecord := by
  have hif {p : Prop} [Decidable p] {a c : State} (ha : a.startRecord = s.startRecord) (hc : c.startRecord = s.startRecord) :
      (if p then a else c).startRecord = s.startRecord := by
    split
    · exact ha
    · exact hc
  have hplaces (l : List (Nat × List Byte)) : (l.foldl restorePlace s).startRecord = s.startRecord :=
    (Changes.fold (fun s e => restorePlace_ch s e) l s).status_eq.2.2.1
  unfold restoreBlock
  exact hif rfl (hif rfl (hif rfl (hif rfl (hif rfl (hif (hplaces _) (hif rfl (hif rfl (hif rfl rfl))))))))

theorem restoreOne_startRecord (s : State) (b : Nat) : (s.restoreOne b).startRecord = s.startRecord := by
  unfold restoreOne
  split
  · exact restoreBlock_startRecord ..
  · rfl
  · exact (faultWith_ch .storeBlockBad 1 b (s.markDirty b)).status_eq.2.2.1

theorem restoreAll_startRecord (s : State) : s.restoreAll.startRecord = s.startRecord := by
  unfold restoreAll
  generalize (List.range 81).map (fun i => i + 2) = l
  induction l generalizing s with
  | nil => rfl
  | cons b l ih => exact (ih (s.restoreOne b)).trans (restoreOne_startRecord s b)

theorem reconcile_startRecord (s : State) : s.reconcile.startRecord = s.startRecord := by
  have h1 := (fixDuplicates_parts s).status_eq.2.2.1
  have h2 := (fixStays_parts s.fixDuplicates).status_eq.2.2.1
  have h3 := (fixFields_parts s.fixDuplicates.fixStays).status_eq.2.2.1
  have h4 := (fixRooms_parts s.fixDuplicates.fixStays.fixFields).status_eq.2.2.1
  have h5 := (fixStale_parts s.fixDuplicates.fixStays.fixFields.fixRooms).status_eq.2.2.1
  have h6 := (fixPending_parts s.fixDuplicates.fixStays.fixFields.fixRooms.fixStale).status_eq.2.2.1
  unfold reconcile
  simp only
  generalize s.fixDuplicates.fixStays.fixFields.fixRooms.fixStale.fixPending = u at h6
  rw [(Changes.fold (fun s p => startMarks_ch s p) u.placeKeys u).status_eq.2.2.1, h6, h5, h4, h3, h2, h1]

theorem unitStart_kept (s : State) : s.unitStart.startRecord = s.startRecord ∧ s.unitStart.pendingCharges = s.pendingCharges := by
  have h := log_ch .unitStart .unit (le 6 s.journal.release ++ [byte (numberingCode s.journal.numbering)]) s
  unfold unitStart
  simp only
  split
  · exact ⟨h.status_eq.2.2.1, h.charges_eq⟩
  · exact ⟨h.status_eq.2.2.1, h.charges_eq⟩

theorem reconcile_charges {s : State} (hs : s.Canonical) : s.reconcile.pendingCharges = [] := by
  have hcan : (((((s.fixDuplicates).fixStays).fixFields).fixRooms).fixStale).Canonical :=
    (fixStale_ch _).canonical ((fixRooms_ch _).canonical ((fixFields_ch _).canonical ((fixStays_ch _).canonical
      ((fixDuplicates_ch s).canonical hs))))
  have h := (fixPending_spec hcan).1
  unfold reconcile
  simp only
  generalize s.fixDuplicates.fixStays.fixFields.fixRooms.fixStale.fixPending = u at h
  exact (Changes.fold (fun s p => startMarks_ch s p) u.placeKeys u).charges_eq.trans h

/-! ## The last stage (R209) -/

theorem lowestStage_none {l : List Note} (h : lowestStage l = none) : l = [] := by
  cases l with
  | nil => rfl
  | cons n l =>
    simp only [lowestStage] at h
    split at h
    · cases h
    · split at h <;> cases h

theorem lowestStage_some {l : List Note} {n : Note} (h : lowestStage l = some n) : n ∈ l ∧ ∀ m ∈ l, n.stage ≤ m.stage := by
  induction l generalizing n with
  | nil => cases h
  | cons k l ih =>
    simp only [lowestStage] at h
    split at h
    · rename_i hnone
      cases h
      rw [lowestStage_none hnone]
      simp
    · rename_i m hm
      obtain ⟨h1, h2⟩ := ih hm
      split at h
      · rename_i hlt
        cases h
        refine ⟨List.mem_cons_of_mem _ h1, fun x hx => ?_⟩
        rcases List.mem_cons.mp hx with rfl | hx
        · exact Nat.le_of_lt hlt
        · exact h2 x hx
      · rename_i hle
        cases h
        refine ⟨List.mem_cons_self, fun x hx => ?_⟩
        rcases List.mem_cons.mp hx with rfl | hx
        · exact Nat.le_refl _
        · exact Nat.le_trans (Nat.le_of_not_lt hle) (h2 x hx)

theorem finishStart_spec {s : State} (hs : s.Canonical) : let t := s.finishStart
    (t.notes = [] → t.status = .ready ∧ t.startRecord = s.startRecord) ∧
      (t.notes ≠ [] → t.status = .readyWithErrors ∧ (t.fault .startErrors).set = true ∧
        ∃ n ∈ t.notes, (∀ m ∈ t.notes, n.stage ≤ m.stage) ∧
          t.startRecord = some ⟨n.stage, n.code, min 255 t.notes.length⟩) ∧
      t.segs = s.segs ∧ t.pendingCharges = s.pendingCharges := by
  cases h : lowestStage s.notes with
  | none =>
    have ht : s.finishStart = { s with status := .ready } := by simp only [finishStart, h]
    rw [ht]
    exact ⟨fun _ => ⟨rfl, rfl⟩, fun hne => absurd (lowestStage_none h) hne, rfl, rfl⟩
  | some n =>
    obtain ⟨hn, hmin⟩ := lowestStage_some h
    have ht : s.finishStart = { s with
        status := .readyWithErrors, startRecord := some ⟨n.stage, n.code, min 255 s.notes.length⟩ }.giveFault .startErrors
          [byte n.stage, byte (min 255 s.notes.length), 0#8] := by simp only [finishStart, h]
    rw [ht]
    generalize hu : ({ s with
      status := .readyWithErrors, startRecord := some ⟨n.stage, n.code, min 255 s.notes.length⟩ } : State) = u
    have hch := giveFault_ch .startErrors [byte n.stage, byte (min 255 s.notes.length), 0#8] u
    have hset := (giveFault_fault (s := u) (by subst hu; exact hs.faults) .startErrors .startErrors
      [byte n.stage, byte (min 255 s.notes.length), 0#8]).1
    obtain ⟨h1, -, h3, h4, -⟩ := hch.status_eq
    refine ⟨fun hnil => ?_, fun _ => ⟨?_, hset, n, ?_, fun m hm => ?_, ?_⟩, ?_, ?_⟩
    · rw [h4] at hnil
      subst hu
      rw [show s.notes = [] from hnil] at hn
      cases hn
    · rw [h1]; subst hu; rfl
    · rw [h4]; subst hu; exact hn
    · rw [h4] at hm; subst hu; exact hmin m hm
    · rw [h3, h4]; subst hu; rfl
    · rw [hch.segs_eq]; subst hu; rfl
    · rw [hch.charges_eq]; subst hu; rfl

/-! ## The marks of the locks (R208 part 7) -/

/-- A place as start-up leaves its marks. -/
def marked (s : State) (pl : Place) : Place :=
  if pl.door.isLocked = true then
    { pl with suspect := true, mark := if s.zoneOfDoor pl.door = .released then .holdOwed else .none }
  else pl

theorem startMarks_place {s u : State} (hu : u.Canonical) (hz : u.zones = s.zones) (p q : Nat) :
    (u.startMarks p).place q = if q = p then s.marked (u.place p) else u.place q := by
  have hzone (d : DoorRec) : u.zoneOfDoor d = s.zoneOfDoor d := by simp only [zoneOfDoor, zone, hz]
  unfold startMarks
  by_cases h : (u.place p).door.isLocked = true
  · rw [if_pos h, place_modPlace _ _ _ _ hu.places.1, marked, if_pos h]
    simp only [hzone]
  · rw [if_neg h, marked, if_neg h]
    split
    · rename_i hq; subst hq; rfl
    · rfl

theorem startMarks_all {s : State} (hs : s.Canonical) (p : Nat) :
    (s.placeKeys.foldl startMarks s).place p = s.marked (s.place p) := by
  have h := fold_modPlace (f := startMarks) (g := fun _ => s.marked) (G := fun u => u.Canonical ∧ u.zones = s.zones)
    (fun u p h => ⟨(startMarks_ch u p).canonical h.1, (startMarks_ch u p).zones_eq.trans h.2⟩)
    (fun u p q h => startMarks_place h.1 h.2 p q) (placeKeys_nodup hs) ⟨hs, rfl⟩ p
  refine h.trans ?_
  split
  · rfl
  · rename_i hp
    rw [place_of_not_key hp]
    rfl

/-! ## One fix of each part (R208) -/

theorem supersedeStale_eq (s : State) (i : Nat) (c : Cred) : s.supersedeStale (i, c) =
    (s.log .restoreFix (credSpot c) ([5#8] ++ le 2 i)).revoke i .supersede := rfl

/-- The stay of a room whose entry names none is named there. -/
theorem giveField_held {s : State} (hs : s.Canonical) {i j : Nat} {x : Stay} {y : Room} (ho : x.isOpen = true)
    (hf : s.findRoom x.room = some (j, y)) (hy : y.openStay = none) : s.giveField (i, x) =
      (s.setRoom j { y with openStay := some x.number }).log .restoreFix (.room x.room)
        ([2#8] ++ le 2 x.room ++ le 2 x.number) := by
  have hocc : s.roomOccupied x.room = false := by simp [roomOccupied, hf, hy]
  have hroom : s.findRoom x.room ≠ none := by simp [hf]
  rw [giveField_name (e := (i, x)) hs ho hocc (.inl hroom), nameStay_held hf]

/-- The stay of a room without an entry is named in the one created. -/
theorem giveField_created {s : State} (hs : s.Canonical) {i j : Nat} {x : Stay} (ho : x.isOpen = true)
    (hf : s.findRoom x.room = none) (hj : Tab.lowestFree s.rooms 96 = some j) : let u := s.giveField (i, x)
      Tab.look u.rooms j = some (s.newRoom x.room (some x.number)) ∧
      (∀ k, k ≠ j → Tab.look u.rooms k = Tab.look s.rooms k) ∧ u.stays = s.stays ∧
      (s.journal.storable = true → ∃ m, u.journal.ring = s.journal.ring ++ [m] ∧ m.kind = .restoreFix ∧
        m.spot = .room x.room ∧ m.detail = [2#8] ++ le 2 x.room ++ le 2 x.number) := by
  have hocc : s.roomOccupied x.room = false := by simp [roomOccupied, hf]
  have hfree : Tab.lowestFree s.rooms 96 ≠ none := by simp [hj]
  intro u
  have hu : u = (s.nameStay x.room x.number).log .restoreFix (.room x.room) ([2#8] ++ le 2 x.room ++ le 2 x.number) :=
    giveField_name (e := (i, x)) hs ho hocc (.inr hfree)
  have hname := nameStay_ch s x.room x.number
  have hlog := log_ch .restoreFix (.room x.room) ([2#8] ++ le 2 x.room ++ le 2 x.number) (s.nameStay x.room x.number)
  rw [← hu] at hlog
  have hrooms : u.rooms = Tab.write s.rooms j (s.newRoom x.room (some x.number)) :=
    hlog.rooms_eq.trans (nameStay_rooms_new hs hf hj)
  refine ⟨?_, fun k hk => ?_, hlog.stays_eq.trans hname.stays_eq, fun hst => ?_⟩
  · rw [hrooms, Tab.look_write_self]
  · rw [hrooms, Tab.look_write_ne _ _ hk]
  · have hring := handOver_ring (s := s.nameStay x.room x.number)
      ⟨.restoreFix, .room x.room, none, none, [2#8] ++ le 2 x.room ++ le 2 x.number, Marks.none, none⟩
      (by rw [hname.journal_eq]; exact hst)
    rw [hname.journal_eq] at hring
    exact ⟨_, (congrArg (fun t : State => t.journal.ring) hu).trans hring, rfl, rfl, rfl⟩

/-! ## START_UP_RESTORE -/

/-- The state in which the last stage begins. -/
def tested (s : State) : State := (List.range 4).foldl (fun s g => s.enterTesting g) s.restoreAll.reconcile.unitStart

theorem startUp_eq {s : State} (h : s.status = .starting) (ha : s.attemptEnded = true) : s.startUp = s.tested.finishStart :=
  if_pos ⟨h, ha⟩

theorem tested_spec {s : State} (hs : s.Canonical) : s.tested.Canonical ∧ s.tested.startRecord = s.startRecord ∧
    s.tested.pendingCharges = [] ∧
    ∀ g, g < 4 → (s.tested.seg g).line = .testing ∧ (s.tested.seg g).test = some ⟨1, 1, 0, .none, false⟩ := by
  have h1 := (restoreAll_ch s).canonical hs
  have h2 := (reconcile_ch s.restoreAll).canonical h1
  have h3 := (unitStart_ch s.restoreAll.reconcile).canonical h2
  obtain ⟨hrec, hcharges⟩ := unitStart_kept s.restoreAll.reconcile
  have hall (g : Nat) (hg : g < 4) : g ∈ List.range 4 := List.mem_range.mpr hg
  unfold tested
  generalize List.range 4 = gs at hall
  have hch := testAll_ch gs s.restoreAll.reconcile.unitStart
  have hline := testAll_lineTest gs h3
  refine ⟨hch.canonical h3, ?_, ?_, fun g hg => ?_⟩
  · exact hch.status_eq.2.2.1.trans (hrec.trans ((reconcile_startRecord _).trans (restoreAll_startRecord s)))
  · exact hch.charges_eq.trans (hcharges.trans (reconcile_charges h1))
  · have h := hline g
    rw [if_pos (hall g hg)] at h
    exact ⟨congrArg Prod.fst h, congrArg Prod.snd h⟩

theorem startUp_spec {s : State} (hd : s.due = []) (hs : s.Canonical) (hst : s.status = .starting)
    (ha : s.attemptEnded = true) : let t := s.startUp
    (t.notes = [] → t.status = .ready ∧ t.startRecord = s.startRecord) ∧
      (t.notes ≠ [] → t.status = .readyWithErrors ∧ (t.fault .startErrors).set = true ∧
        ∃ n ∈ t.notes, (∀ m ∈ t.notes, n.stage ≤ m.stage) ∧
          t.startRecord = some ⟨n.stage, n.code, min 255 t.notes.length⟩) ∧
      (∀ g, g < 4 → (t.seg g).line = .testing ∧ (t.seg g).test = some ⟨1, 1, 0, .none, false⟩) ∧
      t.pendingCharges = [] ∧
      t.clock = s.clock ∧ t.store = s.store ∧ t.request = s.request ∧ t.due = [] ∧ t.pending = s.pending ∧
      t.trunk = { s.trunk with notices := t.trunk.notices } := by
  intro t
  have hch : Changes kStart s t := startUp_ch s
  obtain ⟨hcan, hrec, hcharges, hseg⟩ := tested_spec hs
  obtain ⟨h1, h2, h3, h4⟩ := finishStart_spec hcan
  rw [← startUp_eq hst ha] at h1 h2 h3 h4
  refine ⟨fun h => ⟨(h1 h).1, (h1 h).2.trans hrec⟩, h2, fun g hg => ?_, h4.trans hcharges, hch.clock_eq, hch.store_eq,
    hch.request_eq, hch.due_eq.trans hd, hch.pending_eq, hch.trunk_notices⟩
  have hsame : t.seg g = s.tested.seg g := by simp only [seg, show t.segs = s.tested.segs from h3]
  rw [hsame]
  exact hseg g hg

end State

/-- Settles O19: stage by stage, each part of the reconciliation by its own lemma. -/
theorem startUpEnds : Obligations.StartUpEnds := by
  refine ⟨fun s hd hs hst ha => ⟨s.startUp, ?_, State.startUp_spec hd hs hst ha⟩, fun s hd h => ?_, fun s hd hst ha => ?_,
    fun s n i hs h => State.keeper_spec hs h, fun s hs => State.fixDuplicates_spec hs,
    fun s hs => ⟨fun i x hx => State.fixStays_look hs hx, fun i j x y => State.fixStays_spec hs⟩,
    fun s hs => State.fixFields_spec hs, fun s hs => State.fixRooms_spec hs, fun s hs i c hc => ?_, fun s hs => ?_,
    fun s e => ⟨rfl, fun k hk => ?_, rfl, ?_⟩, fun s i x hs => ?_, fun s i x hs => ?_, fun s p hs => ?_,
    fun s p hs => State.startMarks_all hs p⟩
  · rw [exec_startUpRestore, settle_eq s hd]
  · rw [exec_startUpRestore, settle_eq s hd, State.startUp, if_neg]
    rintro ⟨h1, h2⟩
    rcases h with h | h
    · exact h h1
    · rw [h] at h2; cases h2
  · rw [exec_startUpRestore, settle_eq s hd, State.startUp_eq hst ha]
    rfl
  · have h := State.fixStale_cred hs hc
    have hiff := State.isStale_iff s c
    refine ⟨fun hst => h.trans (if_pos (hiff.mpr hst)), fun hst => h.trans (if_neg (fun h => hst (hiff.mp h)))⟩
  · intro t cs orphans
    obtain ⟨h1, h2, h3, h4, h5⟩ := State.fixPending_spec hs
    refine ⟨h1, h2, h3, h4, h5, ?_⟩
    have hch : Changes kMini s t := State.fixPending_parts s
    conv_lhs => rw [hch.frame]
    rw [hch.creds_eq, hch.rooms_eq, hch.segs_eq, hch.revocations_eq]
  · simp only [State.emptyLoser, hk, Option.getD_some, State.fixRecord, List.append_assoc]
    rfl
  · obtain ⟨i, c⟩ := e
    rw [State.supersedeStale_eq, State.credSpot, Cred.roomOf]
    cases c.guest <;> rfl
  · intro closed
    refine ⟨rfl, State.closeByFix_eq s i x, rfl, fun h => State.giveField_skip h,
      fun ho hf hl => State.giveField_full ho hf hl, fun j y ho hf hy => State.giveField_held hs ho hf hy,
      fun j ho hf hj => State.giveField_created hs ho hf hj⟩
  · refine ⟨fun n hn hno => State.dropField_drop hn ?_, fun h => State.dropField_keep fun n hn => ?_, rfl,
      fun hno hx => State.removeUnnamed_remove ?_, fun h => State.removeUnnamed_keep ?_⟩
    · exact Bool.eq_false_iff.mpr fun ho =>
        have ⟨e, he, hopen⟩ := (State.isOpenFor_mem s x.room n).mp ho
        hno e he hopen
    · rcases h with h | ⟨e, he, ho, hnum, hroom⟩
      · rw [h] at hn; cases hn
      · exact (State.isOpenFor_mem s x.room n).mpr ⟨e, he, ho, Option.some.inj (hnum.symm.trans hn), hroom⟩
    · rintro (h | h)
      · obtain ⟨p, hp⟩ := (State.roomNamed_iff hs).mp h
        exact hno p hp
      · exact h hx
    · exact h.imp (State.roomNamed_iff hs).mpr id
  · exact ⟨State.createNamed_unnamed, fun r hr => ⟨State.createNamed_skip hr, fun j => State.createNamed_new hs hr⟩⟩

end Sys2Proof.Machine
end

