-- ==== Sys2Proof/Proofs/ClockRange.lean ====
section
/-! What every step keeps of the clock (O4), what is due before another command (O3), the reset state (O10), and the
schedules' test of the minute-of-week (O39). -/

set_option Elab.async false

namespace Sys2Proof.Machine

/-! ## The clock's ranges (R25) -/

theorem Change.clock_inRange {K : List Part} {s t : State} (h : Change K s t) (hs : s.clock.InRange) : t.clock.InRange := by
  cases h with
  | clock c hK h => exact h hs
  | _ => exact hs

/-- Every chain of changes keeps the clock in its ranges. -/
theorem Changes.clock_inRange {K : List Part} {s t : State} (h : Changes K s t) (hs : s.clock.InRange) : t.clock.InRange :=
  h.inv (fun _ _ => Change.clock_inRange) hs

/-- Power-on reset starts from the clock's power-on values; every other command is a chain of changes. -/
theorem exec_clock_inRange {c : Instr} {s t : State} (hs : s.clock.InRange) (h : exec c s = .next t) : t.clock.InRange := by
  by_cases hc : ∃ i, c = .powerOnReset i
  · obtain ⟨i, rfl⟩ := hc
    have hreset : State.reset.clock.InRange := by decide
    exact (exec_powerOn_ch h).clock_inRange hreset
  · exact (exec_ch (fun i hi => hc ⟨i, hi⟩) h).clock_inRange hs

/-- Settles O4: a step is a command on the same clock, and a chain of changes keeps its ranges. -/
theorem clockStaysInRange : Obligations.ClockStaysInRange := by
  intro s t hs h
  unfold step at h
  split at h
  · cases h; exact hs
  · rename_i rest _
    exact exec_clock_inRange (s := { s with pending := rest }) hs h

/-! ## What is due comes first (log 1) -/

/-- A command other than power-on reset and the rows of the consequences reads its state settled. -/
theorem exec_of_settle {c : Instr} (hc : c.consequence = none) (hp : c.isPowerOn = false) {s t : State}
    (h : s.settle = t.settle) : exec c s = exec c t := by
  cases c with
  | powerOnReset i => cases hp
  | minuteAdvance | unlockTimeout | doorHeld | graceExpiry | errorWindowClose | retestTimeout | missCountSilent
  | missCountAbsent | terminatorMissesDown | completionEnterQueue => cases hc
  | _ => simp only [exec_startUpRestore, exec_secondEvent, exec_credentialExpiry, exec_revocationDeadline,
      exec_normalPoll, exec_probePoll, exec_priorityPoll, exec_testExchange, exec_responseReceived,
      exec_responseWindowClose, exec_frameReceived, exec_partnerHold, exec_linkDisconnect, exec_linkConnect,
      exec_classifyFrame, exec_downlinkTransmit, exec_uplinkArbitrate, exec_storeWriteStart, exec_storeWriteComplete,
      exec_unknownRequest, exec_loadWindows, exec_loadDoors, exec_loadSchedules, exec_loadZones, exec_loadPrices,
      exec_loadCompartments, exec_loadPolicy, exec_loadCredentials, exec_loadStays, exec_loadRooms, exec_fetchWindows,
      exec_fetchDoors, exec_fetchSchedules, exec_fetchZones, exec_fetchPrices, exec_fetchCompartments, exec_fetchPolicy,
      exec_fetchCredentials, exec_fetchStays, exec_fetchRooms, exec_enrol, exec_enrolReplace, exec_withdraw,
      exec_stayOpen, exec_stayExtend, exec_stayClose, exec_stayPurge, exec_doorOpen, exec_zoneSet, exec_clockSet,
      exec_journalRelease, exec_journalRewind, exec_segmentTest, exec_segmentServiceOut, exec_segmentServiceIn,
      exec_status, exec_faultClear, exec_restart, h]

/-- Settles O3: a settled state is its own settling, so that each command reads the same state from both. -/
theorem dueWorkFirst : Obligations.DueWorkFirst :=
  ⟨fun _ s hc hp => exec_of_settle hc hp (settle_eq s.settle (settle_due s)).symm, settle_due, settle_eq⟩

/-! ## The reset state -/

theorem reset_canonical : State.reset.Canonical := by constructor <;> decide

/-- No compartment is listed at reset. -/
theorem reset_comp (p c : Nat) : State.reset.comp p c = ⟨0, .empty, 0⟩ := rfl

theorem reset_chargesMatch : State.reset.ChargesMatch :=
  ⟨fun x hx => absurd hx List.not_mem_nil, fun p c h => by rw [reset_comp] at h; cases h⟩

theorem reset_contiguous : State.reset.journal.Contiguous := by
  constructor
  case limitRises => intro n h; cases h
  all_goals decide

/-- Settles O10, invariant by invariant: every table and queue is empty at reset. -/
theorem resetMeetsTheInvariants : Obligations.ResetMeetsTheInvariants :=
  ⟨by decide, by decide, by decide, reset_contiguous, by decide, by decide, by decide, by decide, reset_canonical, by decide,
    by decide, reset_chargesMatch⟩

/-! ## Schedules (R32, R34) -/

/-- R32: the minutes from an interval's start to W, modulo a week, are below its length. -/
theorem Interval.admits_iff {i : Interval} {w : Nat} (hi : i.start ≤ 10079) :
    i.admits w = true ↔ ((w : Int) - (i.start : Int)) % 10080 < (i.length : Int) := by
  have hd : ((w + 10080 - i.start : Nat) : Int) % 10080 = ((w : Int) - i.start) % 10080 := by omega
  rw [Interval.admits, decide_eq_true_eq, ← hd]
  omega

theorem slotAdmits_iff {x : Option Interval} {w : Nat} : slotAdmits x w = true ↔ ∃ i, x = some i ∧ i.admits w = true := by
  cases x <;> simp [slotAdmits]

/-- R32: a schedule admits W when one of its present slots does. -/
theorem Schedule.admits_iff {x : Schedule} {w : Nat} : x.admits w = true ↔
    ∃ i, (x.slot0 = some i ∨ x.slot1 = some i ∨ x.slot2 = some i ∨ x.slot3 = some i) ∧ i.admits w = true := by
  simp only [Schedule.admits, Bool.or_eq_true, slotAdmits_iff, or_and_right, exists_or, or_assoc]

namespace State

/-- R34: with the clock UNSET no time test is made. -/
theorem stepTime_unset {s : State} (h : s.clock.state = .unset) (d : DoorRec) (c : Cred) : s.stepTime d c = .pass := by
  simp [stepTime, h]

/-- R34: while the clock runs, a credential within its validity is tested against its schedule at the door. -/
theorem stepTime_schedule {s : State} {d : DoorRec} {c : Cred} {n : Nat} (h : s.clock.state = .running)
    (he : s.tooEarly c = false) (hp : s.ended c = false) (hn : scheduleFor d c = some n) :
    s.stepTime d c = if (s.schedule n).admits s.clock.w then .pass else .deny .time none := by
  simp [stepTime, h, he, hp, hn]

end State

/-- Settles O39, from the laws of one interval, one schedule and the time test. -/
theorem schedulesAdmit : Obligations.SchedulesAdmit :=
  ⟨fun _ _ hi _ => Interval.admits_iff hi, fun _ _ => Schedule.admits_iff, fun _ d c h => State.stepTime_unset h d c,
    fun _ _ _ _ h he hp hn => State.stepTime_schedule h he hp hn⟩

end Sys2Proof.Machine
end

