-- ==== Sys2Proof/Proofs/ZoneRefuted.lean ====
section
/-! ZONE SET fails its statement at a lock whose join procedure is owed a zone command: `Canonical` admits such a state,
and R77 offers whatever is owed. -/

set_option Elab.async false

namespace Sys2Proof.Proofs

open Sys2Proof.Machine

/-- A lock of zone 1, which is NORMAL, with a SECURE queued; its join procedure is owed another SECURE. -/
def owedSecureReady : State := { owedSecure with zones := [], status := .ready }

/-- ZONE SET of zone 1 to RELEASED. -/
def releaseZone : Request := ⟨.unit, 0, 0, [1#8, byte (zoneCode .released)]⟩

theorem owedSecureReady_canonical : owedSecureReady.Canonical := by
  constructor <;> decide

theorem owedSecureReady_takes : owedSecureReady.Takes 0x0A releaseZone := by
  constructor <;> decide

/-- The lock's SECURE is withdrawn, the freed place takes the join procedure's SECURE, and the mark follows it. -/
theorem releaseZone_mark : ((owedSecureReady.changeZone 1 .released).place 0).mark = .secureQueued := by decide +kernel

/-- A completion leaves the places. -/
theorem answer_place (s : State) (kind : Byte) (q : Request) (r : List Byte) (p : Nat) :
    (s.answer kind q (.done r)).place p = s.place p := by
  rw [State.place, State.answer, (buildCompletion_ch ..).places_eq]
  rfl

/-- Refutes O55: the lock entering RELEASED withdraws its SECURE; the freed place is offered, the join procedure's owed
SECURE enters there, and the mark is SECURE_QUEUED. -/
theorem not_zonesAreSet : ¬ Obligations.ZonesAreSet := by
  intro h
  obtain ⟨-, h⟩ := h
  obtain ⟨-, h⟩ := h releaseZone owedSecureReady 1#8 .released owedSecureReady_takes owedSecureReady_canonical (by decide) rfl
  obtain ⟨u, hu, -, -, -, hmark, -⟩ := h (by decide)
  have hexec : exec (.zoneSet releaseZone) owedSecureReady = .next ((owedSecureReady.changeZone 1 .released).answer 0x0A
      releaseZone (.done [byte (zoneCode .normal)])) := by
    rw [exec_zoneSet, runRequest_takes owedSecureReady_takes]
    rfl
  have hplace := congrArg (fun t : State => (t.place 0).mark) (Host.Outcome.next.inj (hexec.symm.trans hu))
  simp only [answer_place, releaseZone_mark] at hplace
  obtain ⟨hm, -⟩ := hmark 0 (by decide) (by decide) rfl
  rw [← hplace] at hm
  rcases hm with hm | hm <;> cases hm

end Sys2Proof.Proofs
end

