-- ==== Sys2Proof/Proofs/SecondEvent.lean ====
section
/-! O20: the counts of a second event, part by part, and what they make due. -/

set_option Elab.async false

namespace Sys2Proof.Machine

/-- What a chain leaves that touches neither the settings, the request, the start-up values nor the store. -/
theorem Changes.timed_frame {K : List Part} {s t : State} (h : Changes K s t)
    (hK : ∀ x ∈ [Part.schedules, .zones, .prices, .windows, .policy, .completions, .trunk, .request, .status, .store],
      x ∉ K := by decide) :
    t = { s with
      clock := t.clock, creds := t.creds, rooms := t.rooms, places := t.places, segs := t.segs
      revocations := t.revocations, stays := t.stays, pendingCharges := t.pendingCharges, journal := t.journal
      trunk := { s.trunk with notices := t.trunk.notices }, faults := t.faults, alarm := t.alarm, dirty := t.dirty
      writer := t.writer, due := t.due } := by
  simp only [List.mem_cons, List.not_mem_nil, or_false, forall_eq_or_imp, forall_eq] at hK
  obtain ⟨h1, h2, h3, h4, h5, h6, h7, h8, h9, h10⟩ := hK
  obtain ⟨e1, e2, e3, e4, e5⟩ := h.status_eq h9
  rw [← h.trunk_notices h7 h6, ← h.schedules_eq h1, ← h.zones_eq h2, ← h.prices_eq h3, ← h.windows_eq h4,
    ← h.policy_eq h5, ← h.request_eq h8, ← e1, ← e2, ← e3, ← e4, ← e5, ← h.store_eq h10, ← h.pending_eq]

/-! ## The counts of one place and one segment -/

/-- R58: the open seconds of an open door are counted unless its lock holds open. -/
theorem Place.isOpenCounted_iff (pl : Place) : pl.isOpenCounted = true ↔
    (pl.doorState = .openGranted ∨ pl.doorState = .openForced) ∧ pl.holding = false := by
  simp [Place.isOpenCounted]

/-- R56, R58: one place's counts. -/
theorem Place.countSecond_eq (pl : Place) : pl.countSecond =
    if pl.doorState = .unlocked then { pl with unlockLeft := pl.unlockLeft - 1 }
    else if (pl.doorState = .openGranted ∨ pl.doorState = .openForced) ∧ pl.holding = false then
      { pl with openElapsed := pl.openElapsed + 1 }
    else pl := by
  simp only [Place.countSecond, Place.isOpenCounted_iff]

/-- R97: one segment's count. -/
def Segment.countRetest (x : Segment) : Segment :=
  if x.line = .failed ∨ x.line = .testPlug then { x with retest := x.retest - 1 } else x

namespace State

theorem awaitsRetest_iff (s : State) (g : Nat) : s.awaitsRetest g = true ↔ (s.seg g).line = .failed ∨ (s.seg g).line = .testPlug := by
  simp [awaitsRetest]

theorem polling_iff (s : State) (g : Nat) : s.polling g = true ↔ (s.seg g).line = .inService ∨ (s.seg g).line = .degraded := by
  simp [polling]

theorem countRetest_seg {s : State} (hs : s.Canonical) (g k : Nat) :
    (s.countRetest g).seg k = if k = g then (s.seg g).countRetest else s.seg k := by
  unfold countRetest Segment.countRetest
  simp only [awaitsRetest_iff]
  split
  · exact seg_modSeg _ _ _ _ hs.segs.1
  · split
    · rename_i hk; rw [hk]
    · rfl

theorem countRetests_seg {l : List Nat} (hl : l.Nodup) {s : State} (hs : s.Canonical) (k : Nat) :
    (l.foldl countRetest s).seg k = if k ∈ l then (s.seg k).countRetest else s.seg k := by
  induction l generalizing s with
  | nil => rfl
  | cons g l ih =>
    obtain ⟨hg, hl⟩ := List.nodup_cons.mp hl
    rw [List.foldl_cons, ih hl ((countRetest_ch s g).canonical hs), countRetest_seg hs]
    by_cases hk : k = g
    · subst hk; simp [hg]
    · simp [hk]

theorem countDoors_place {s : State} (hs : s.Canonical) (p : Nat) : s.countDoors.place p = (s.place p).countSecond := by
  have h := fold_modPlace (f := fun s p => s.modPlace p Place.countSecond) (g := fun _ => Place.countSecond) (G := Canonical)
    (fun s p hs => (modPlace_same s p countSecond_same).canonical hs) (fun s p q hs => place_modPlace s p q _ hs.places.1)
    (placeKeys_nodup hs) hs p
  refine h.trans ?_
  split
  · rfl
  · rename_i hp
    rw [place_of_not_key hp]
    rfl

theorem wakeWriter_writer (s : State) : s.wakeWriter.writer = (if s.writer = .waiting then .idle else s.writer) ∧
    s.wakeWriter.dirty = s.dirty := by
  unfold wakeWriter
  cases h : s.writer <;> simp [h]

/-! ## All counts -/

/-- The counts but the segments' and the writer's. -/
def countedDoors (s : State) : State := s.countSecond.countDoors.countGraces

/-- The counts but the writer's. -/
def countedSegs (s : State) : State := (List.range 4).foldl countRetest s.countedDoors

theorem countedDoors_ch (s : State) : Changes [.clock, .places, .charges] s s.countedDoors :=
  ((Changes.up (countSecondEvent_ch s)).comp (countDoors_ch _)).comp (L := [.charges]) (.one (.charges _ _ (by decide)))

theorem countRetests_ch (s : State) : Changes [.segs] s.countedDoors s.countedSegs :=
  .fold (fun s g => countRetest_ch s g) _ _

theorem countedSegs_ch (s : State) : Changes [.clock, .places, .charges, .segs] s s.countedSegs :=
  (Changes.up (countedDoors_ch s)).comp (countRetests_ch s)

theorem countAll_wake (s : State) : s.countAll = s.countedSegs.wakeWriter := rfl

theorem countAll_parts (s : State) : Changes [.clock, .places, .charges, .segs, .dirty] s s.countAll :=
  (Changes.up (countedSegs_ch s)).comp (wakeWriter_ch _)

theorem countAll_clock (s : State) : s.countAll.clock = { s.clock with s := (s.clock.s + 1) % 60 } :=
  (wakeWriter_ch _).clock_eq.trans ((countRetests_ch s).clock_eq.trans (countDoors_ch s.countSecond).clock_eq)

theorem countAll_charges (s : State) :
    s.countAll.pendingCharges = s.pendingCharges.map (fun c => { c with left := c.left - 1 }) :=
  (wakeWriter_ch _).charges_eq.trans ((countRetests_ch s).charges_eq.trans
    (congrArg (List.map _) (countDoors_ch s.countSecond).charges_eq))

theorem countAll_writer (s : State) : s.countAll.writer = (if s.writer = .waiting then .idle else s.writer) ∧
    s.countAll.dirty = s.dirty := by
  obtain ⟨hd, hw⟩ := (countedSegs_ch s).dirty_eq
  obtain ⟨h1, h2⟩ := s.countedSegs.wakeWriter_writer
  rw [countAll_wake]
  exact ⟨by rw [h1, hw], h2.trans hd⟩

theorem countAll_place {s : State} (hs : s.Canonical) (p : Nat) : s.countAll.place p = (s.place p).countSecond := by
  have hplaces : s.countAll.places = s.countedDoors.places := (wakeWriter_ch _).places_eq.trans (countRetests_ch s).places_eq
  exact (place_congr hplaces p).trans (countDoors_place (s := s.countSecond) { hs with } p)

theorem seg_congr {s t : State} (h : t.segs = s.segs) (g : Nat) : t.seg g = s.seg g := by simp only [seg, h]

theorem countAll_seg {s : State} (hs : s.Canonical) {g : Nat} (hg : g < 4) : s.countAll.seg g = (s.seg g).countRetest := by
  have h := countRetests_seg (l := List.range 4) List.nodup_range ((countedDoors_ch s).canonical hs) g
  rw [if_pos (List.mem_range.mpr hg), seg_congr (countedDoors_ch s).segs_eq] at h
  exact (seg_congr (wakeWriter_ch _).segs_eq g).trans h

/-! ## What is due -/

/-- R56, R58: what one place's counts bring. -/
theorem mem_dueAt {s : State} {p : Nat} {d : Due} : d ∈ s.dueAt p ↔
    ((s.place p).doorState = .unlocked ∧ (s.place p).unlockLeft = 0) ∧ d = .unlockTimeout p ∨
      ((s.place p).isOpenCounted = true ∧ (s.place p).door.heldLimit < (s.place p).openElapsed) ∧ d = .doorHeld p := by
  unfold dueAt
  simp only [Bool.and_eq_true, decide_eq_true_eq]
  by_cases hu : (s.place p).doorState = .unlocked
  · have hc : (s.place p).isOpenCounted = false := by simp [Place.isOpenCounted, hu]
    by_cases hl : (s.place p).unlockLeft = 0 <;> simp [hu, hl, hc]
  · by_cases hh : (s.place p).isOpenCounted = true ∧ (s.place p).door.heldLimit < (s.place p).openElapsed <;> simp [hu, hh]

theorem mem_dueGraces {s : State} {d : Due} : d ∈ s.dueGraces ↔
    ∃ x ∈ s.pendingCharges, x.left = 0 ∧ d = .graceExpiry x.place x.compartment := by
  simp only [dueGraces, List.mem_map, List.mem_filter, beq_iff_eq, and_assoc, eq_comm (a := d)]

/-- R95, R97: what one segment's counts bring. -/
theorem mem_dueSegment {s : State} {g : Nat} {d : Due} : d ∈ s.dueSegment g ↔
    ((s.seg g).line = .inService ∨ (s.seg g).line = .degraded) ∧ d = .errorWindow g ∨
      (((s.seg g).line = .failed ∨ (s.seg g).line = .testPlug) ∧ (s.seg g).retest = 0) ∧ d = .retest g := by
  unfold dueSegment
  simp only [polling_iff, Bool.and_eq_true, awaitsRetest_iff, beq_iff_eq]
  by_cases hp : (s.seg g).line = .inService ∨ (s.seg g).line = .degraded
  · have hf : ¬((s.seg g).line = .failed ∨ (s.seg g).line = .testPlug) := by rcases hp with h | h <;> simp [h]
    simp [hp, hf]
  · by_cases hr : ((s.seg g).line = .failed ∨ (s.seg g).line = .testPlug) ∧ (s.seg g).retest = 0 <;> simp [hp, hr]

/-- What a second event makes due, by its source. -/
theorem mem_dueList {s : State} {wrapped : Bool} {d : Due} : d ∈ s.dueList wrapped ↔
    (wrapped = true ∧ d = .minuteAdvance) ∨ (∃ p ∈ s.placeKeys, d ∈ s.dueAt p) ∨ d ∈ s.dueGraces ∨
      ∃ g, g < 4 ∧ d ∈ s.dueSegment g := by
  simp only [dueList, List.mem_append, List.mem_flatMap, List.mem_range, or_assoc]
  cases wrapped <;> simp

theorem dueList_minute {s : State} {w : Bool} : Due.minuteAdvance ∈ s.dueList w ↔ w = true := by
  simp only [mem_dueList, mem_dueAt, mem_dueGraces, mem_dueSegment, reduceCtorEq, and_false, or_false, exists_false, and_true]

theorem dueList_unlock {s : State} {w : Bool} {p : Nat} : Due.unlockTimeout p ∈ s.dueList w ↔
    (s.place p).doorState = .unlocked ∧ (s.place p).unlockLeft = 0 := by
  have hkey (h : (s.place p).doorState = .unlocked) : p ∈ s.placeKeys :=
    mem_placeKeys (fun hr => by rw [hr] at h; cases h)
  simp only [mem_dueList, mem_dueAt, mem_dueGraces, mem_dueSegment, reduceCtorEq, and_false, or_false, exists_false,
    false_or, Due.unlockTimeout.injEq, ← and_assoc, exists_eq_right']
  exact ⟨fun ⟨⟨_, hst⟩, hleft⟩ => ⟨hst, hleft⟩, fun ⟨hst, hleft⟩ => ⟨⟨hkey hst, hst⟩, hleft⟩⟩

theorem dueList_held {s : State} {w : Bool} {p : Nat} : Due.doorHeld p ∈ s.dueList w ↔
    (s.place p).isOpenCounted = true ∧ (s.place p).door.heldLimit < (s.place p).openElapsed := by
  have hkey (h : (s.place p).isOpenCounted = true) : p ∈ s.placeKeys :=
    mem_placeKeys (fun hr => by rw [hr] at h; cases h)
  simp only [mem_dueList, mem_dueAt, mem_dueGraces, mem_dueSegment, reduceCtorEq, and_false, or_false, exists_false,
    false_or, Due.doorHeld.injEq, ← and_assoc, exists_eq_right']
  exact ⟨fun ⟨⟨_, hst⟩, hleft⟩ => ⟨hst, hleft⟩, fun ⟨hst, hleft⟩ => ⟨⟨hkey hst, hst⟩, hleft⟩⟩

theorem dueList_grace {s : State} {w : Bool} {p c : Nat} : Due.graceExpiry p c ∈ s.dueList w ↔
    ∃ x ∈ s.pendingCharges, x.place = p ∧ x.compartment = c ∧ x.left = 0 := by
  simp only [mem_dueList, mem_dueAt, mem_dueGraces, mem_dueSegment, reduceCtorEq, and_false, or_false, exists_false,
    false_or, Due.graceExpiry.injEq]
  exact exists_congr fun x => and_congr_right fun _ => by rw [and_comm, and_assoc, eq_comm (a := p), eq_comm (a := c)]

theorem dueList_window {s : State} {w : Bool} {g : Nat} : Due.errorWindow g ∈ s.dueList w ↔
    g < 4 ∧ ((s.seg g).line = .inService ∨ (s.seg g).line = .degraded) := by
  simp only [mem_dueList, mem_dueAt, mem_dueGraces, mem_dueSegment, reduceCtorEq, and_false, or_false, exists_false,
    false_or, Due.errorWindow.injEq, ← and_assoc, exists_eq_right']

theorem dueList_retest {s : State} {w : Bool} {g : Nat} : Due.retest g ∈ s.dueList w ↔
    g < 4 ∧ ((s.seg g).line = .failed ∨ (s.seg g).line = .testPlug) ∧ (s.seg g).retest = 0 := by
  simp only [mem_dueList, mem_dueAt, mem_dueGraces, mem_dueSegment, reduceCtorEq, and_false, or_false, exists_false,
    false_or, Due.retest.injEq, ← and_assoc, exists_eq_right']

end State

/-- Settles O20: the counts are `countAll`'s, and what is due is read off `dueList` source by source. -/
theorem secondEventCounts : Obligations.SecondEventCounts := by
  intro s hd hs
  have hch := State.countAll_parts s
  have hclock := s.countAll_clock
  have hplace := fun p => (State.countAll_place hs p).trans (Place.countSecond_eq _)
  have hcharges := s.countAll_charges
  have hseg := fun g (hg : g < 4) => State.countAll_seg hs hg
  obtain ⟨hwriter, hdirty⟩ := s.countAll_writer
  have hexec : exec .secondEvent s = .next { s.countAll with due := s.countAll.dueList (s.clock.s == 59) } := by
    rw [exec_secondEvent, settle_eq s hd, State.secondEvent, hch.due_eq, hd]
    rfl
  generalize s.countAll = u at hch hclock hplace hcharges hseg hwriter hdirty hexec
  refine ⟨_, hexec, hclock, hplace, hcharges, hseg, hwriter, State.dueList_minute.trans beq_iff_eq,
    fun p => State.dueList_unlock, fun p => State.dueList_held, fun p c => State.dueList_grace,
    fun g => State.dueList_window, fun g => State.dueList_retest, ?_⟩
  have hframe := hch.timed_frame
  rw [hch.creds_eq, hch.rooms_eq, hch.revocations_eq, hch.stays_eq, hch.journal_eq, hch.trunk_eq, hch.faults_eq.1,
    hch.faults_eq.2, hdirty] at hframe
  exact congrArg (fun v : State => { v with due := u.dueList (s.clock.s == 59) }) hframe

end Sys2Proof.Machine
end

