-- ==== Sys2Proof/Proofs/Expiry.lean ====
section
/-! What the deadline test and the expiry rule leave: no record whose deadline is reached, no ACTIVE credential past its
end, every fault that was SET, and the journal's set point. -/

set_option Elab.async false

namespace Sys2Proof.Machine

/-! ## Faults and the set point -/

/-- No fault is cleared, and the journal's set point stays. -/
structure State.Steady (s t : State) : Prop where
  faults : ∀ k, (s.fault k).set = true → (t.fault k).set = true
  setPoint : t.journal.setPoint = s.journal.setPoint

namespace State.Steady

variable {s t u : State}

theorem refl (s : State) : Steady s s := ⟨fun _ h => h, rfl⟩

theorem trans (h1 : Steady s t) (h2 : Steady t u) : Steady s u :=
  ⟨fun k h => h2.faults k (h1.faults k h), h2.setPoint.trans h1.setPoint⟩

/-- A chain of changes that touches neither the faults nor the journal. -/
theorem of_changes {K : List Part} (h : Changes K s t) (hf : Part.faults ∉ K := by decide)
    (hj : Part.journal ∉ K := by decide) : Steady s t :=
  ⟨fun k hk => by rw [fault_congr (h.faults_eq hf).1]; exact hk, congrArg Journal.setPoint (h.journal_eq hj)⟩

theorem giveFault (hs : s.Canonical) (k : FaultKind) (d : List Byte) : Steady s (s.giveFault k d) :=
  ⟨fun l => giveFault_set hs.faults k l d, congrArg Journal.setPoint (giveFault_journal s k d)⟩

theorem handOver (hs : s.Canonical) (d : Draft) : Steady s (s.handOver d) := by
  refine ⟨fun l => handOver_set hs d l, ?_⟩
  unfold State.handOver
  split
  · obtain ⟨x, hx⟩ := (s.append d).highFault.fullFault.reserve_journal
    rw [hx]
    simp only [fullFault_journal, highFault_journal, append]
  · rw [fullFault_journal]
    rfl

end State.Steady

namespace State

theorem recordRevocation_steady {s : State} (hs : s.Canonical) (i : Nat) (c : Cred) (cause : Cause) :
    Steady s (s.recordRevocation i c cause) := by
  have hstart {u : State} (hu : u.Canonical) (n : Nat) (b : Bool) : Steady u (u.startLog i c cause n b) := .handOver hu _
  by_cases hd : s.removingAt i = []
  · rw [recordRevocation_none hd]
    exact (hstart hs 0 false).trans (.handOver ((startLog_ch ..).canonical hs) _)
  · cases hk : Tab.lowestFree s.revocations 32 with
    | some k =>
      rw [recordRevocation_free hd hk]
      generalize hu : ({ s with revocations := _ } : State) = u
      have hcan : u.Canonical := by subst hu; exact { hs with revocations := Tab.write_rising k _ hs.revocations }
      have hsame : Steady s u := by subst hu; exact ⟨fun _ h => h, rfl⟩
      exact hsame.trans (hstart hcan _ _)
    | none =>
      rw [recordRevocation_full hd hk]
      have hch := Changes.fold (fun s p => overflowAt_ch i s p) (s.removingAt i) s
      exact ((Steady.of_changes hch).trans (hstart (hch.canonical hs) _ _)).trans
        (.giveFault ((startLog_ch ..).canonical (hch.canonical hs)) _ _)

theorem revoke_steady {s : State} (hs : s.Canonical) (i : Nat) (cause : Cause) : Steady s (s.revoke i cause) := by
  by_cases hn : s.NotActive i
  · rw [revoke_of_not hn]
    exact .refl s
  · simp only [NotActive, not_forall, not_not] at hn
    obtain ⟨c, hc, ha⟩ := hn
    have hch := swept_ch i c cause s
    rw [revoke_eq hc ha]
    exact (Steady.of_changes hch).trans (recordRevocation_steady (hch.canonical hs) i c cause)

theorem revokeAll_steady {s : State} (hs : s.Canonical) (is : List Nat) (cause : Cause) :
    Steady s (s.revokeAll is cause) := by
  unfold revokeAll
  induction is generalizing s with
  | nil => exact .refl s
  | cons i is ih => exact (revoke_steady hs i cause).trans (ih ((revoke_ch i cause s).canonical hs))

theorem endPartial_steady {s : State} (hs : s.Canonical) (k : Nat) (r : Revocation) : Steady s (s.endPartial k r) := by
  have hch : Changes kCache s (r.drops.foldl (partialAt r.index) s) := .fold (fun s p => partialAt_ch r.index s p) r.drops s
  unfold endPartial
  generalize r.drops.foldl (partialAt r.index) s = u at hch
  simp only
  generalize hv : u.logCard .revocationPartial _ r.card _ = v
  have hlog : Steady u v := hv ▸ Steady.handOver (hch.canonical hs) _
  have hcan : v.Canonical := hv ▸ (logCard_ch ..).canonical (hch.canonical hs)
  have hfault := Steady.giveFault hcan .revocationPartial (padTo 3 (le 2 r.index))
  exact (Steady.of_changes hch).trans (hlog.trans ⟨hfault.faults, hfault.setPoint⟩)

/-! ## The deadline test (R121) -/

theorem deadlineAt_of_look {s : State} {k : Nat} {r : Revocation} (h : Tab.look s.revocations k = some r) :
    s.deadlineAt k = if r.deadline ≤ s.clock.m then s.endPartial k r else s := by
  simp only [deadlineAt, h]

theorem deadlineAt_of_none {s : State} {k : Nat} (h : Tab.look s.revocations k = none) : s.deadlineAt k = s := by
  simp only [deadlineAt, h]

theorem deadlineAt_steady {s : State} (hs : s.Canonical) (k : Nat) : Steady s (s.deadlineAt k) := by
  cases h : Tab.look s.revocations k with
  | none => rw [deadlineAt_of_none h]; exact .refl s
  | some r =>
    rw [deadlineAt_of_look h]
    split
    · exact endPartial_steady hs k r
    · exact .refl s

theorem deadlineAt_creds {s : State} (hs : s.Canonical) (k : Nat) : (s.deadlineAt k).creds = s.creds := by
  cases h : Tab.look s.revocations k with
  | none => rw [deadlineAt_of_none h]
  | some r =>
    rw [deadlineAt_of_look h]
    split
    · obtain ⟨-, -, -, -, hcreds⟩ := endPartial_spec (k := k) (r := r) hs
      exact hcreds
    · rfl

/-- A record is reached by its deadline. -/
def reached (s : State) (r : Revocation) : Bool := decide (r.deadline ≤ s.clock.m)

theorem filter_all {α : Type} (o : Option α) : o.filter (fun _ => true) = o := by cases o <;> rfl

/-- R121: the test of one record frees it where it is reached, and leaves every other. -/
theorem deadlineAt_record {s : State} (hs : s.Canonical) (k j : Nat) : Tab.look (s.deadlineAt k).revocations j =
    (Tab.look s.revocations j).filter (fun r => !(decide (j = k) && s.reached r)) := by
  cases h : Tab.look s.revocations k with
  | none =>
    rw [deadlineAt_of_none h]
    by_cases hj : j = k
    · subst hj; rw [h]; rfl
    · simp [hj, filter_all]
  | some r =>
    rw [deadlineAt_of_look h]
    by_cases hr : r.deadline ≤ s.clock.m
    · obtain ⟨hrev, -⟩ := endPartial_spec (k := k) (r := r) hs
      rw [if_pos hr, hrev, Tab.look_clear _ _ _ hs.revocations]
      by_cases hj : j = k
      · subst hj; simp [h, reached, hr, Option.filter_some]
      · simp [hj, filter_all]
    · rw [if_neg hr]
      by_cases hj : j = k
      · subst hj; simp [h, reached, hr, Option.filter_some]
      · simp [hj, filter_all]

theorem deadlineAt_fault {s : State} (hs : s.Canonical) {k : Nat} {r : Revocation} (h : Tab.look s.revocations k = some r)
    (hr : s.reached r = true) : ((s.deadlineAt k).fault .revocationPartial).set = true := by
  rw [deadlineAt_of_look h, if_pos (by simpa [reached] using hr)]
  obtain ⟨-, hset, -⟩ := endPartial_spec (k := k) (r := r) hs
  exact hset

/-- The tests of a list of records, in any order. -/
theorem deadlines_spec (l : List Nat) {s : State} (hs : s.Canonical) : let t := l.foldl deadlineAt s
    Steady s t ∧ t.creds = s.creds ∧
      (∀ j, Tab.look t.revocations j = (Tab.look s.revocations j).filter (fun r => !(decide (j ∈ l) && s.reached r))) ∧
      ∀ j ∈ l, ∀ r, Tab.look s.revocations j = some r → s.reached r = true → (t.fault .revocationPartial).set = true := by
  induction l generalizing s with
  | nil => exact ⟨.refl s, rfl, fun j => by simp [filter_all], fun j hj => nomatch hj⟩
  | cons k l ih =>
    have hch := deadlineAt_ch s k
    have hreached (r : Revocation) : (s.deadlineAt k).reached r = s.reached r := by rw [reached, hch.clock_eq, reached]
    obtain ⟨h1, h2, h3, h4⟩ := ih (hch.canonical hs)
    have hrecord := deadlineAt_record hs k
    refine ⟨(deadlineAt_steady hs k).trans h1, h2.trans (deadlineAt_creds hs k), fun j => ?_, fun j hj r hr hm => ?_⟩
    · rw [List.foldl_cons, h3, hrecord, Option.filter_filter]
      congr 1
      funext r
      by_cases hjk : j = k
      · cases hr : s.reached r <;> simp [hreached, hjk, hr]
      · simp [hreached, hjk]
    · by_cases hjk : j = k
      · subst hjk
        exact h1.faults _ (deadlineAt_fault hs hr hm)
      · refine h4 j ((List.mem_cons.mp hj).resolve_left hjk) r ?_ ((hreached r).trans hm)
        rw [hrecord, hr]
        simp [hjk]

/-- R121: the deadline test frees the records that are reached, with the fault, and leaves the others. -/
theorem deadlineTest_spec {s : State} (hs : s.Canonical) : let t := s.deadlineTest
    Steady s t ∧ t.creds = s.creds ∧
      (∀ j, Tab.look t.revocations j = (Tab.look s.revocations j).filter (fun r => !s.reached r)) ∧
      ∀ j r, Tab.look s.revocations j = some r → s.reached r = true → (t.fault .revocationPartial).set = true := by
  obtain ⟨h1, h2, h3, h4⟩ := deadlines_spec (Tab.keys s.revocations) hs
  have hkey {j : Nat} {r : Revocation} (hr : Tab.look s.revocations j = some r) : j ∈ Tab.keys s.revocations :=
    Tab.look_isSome_iff.mp (by rw [hr]; rfl)
  refine ⟨h1, h2, fun j => (h3 j).trans ?_, fun j r hr => h4 j (hkey hr) r hr⟩
  cases hr : Tab.look s.revocations j with
  | none => rfl
  | some r => simp [hkey hr]

/-! ## The expiry rule (R14) -/

theorem mem_expiring {s : State} (hs : s.Canonical) {i : Nat} :
    i ∈ s.expiring ↔ ∃ c, s.cred i = some c ∧ s.expires c = true := by
  simp only [expiring, List.mem_map, List.mem_filter]
  constructor
  · rintro ⟨⟨i, c⟩, ⟨hc, he⟩, rfl⟩
    exact ⟨c, Tab.mem_look hs.creds hc, he⟩
  · rintro ⟨c, hc, he⟩
    exact ⟨(i, c), ⟨Tab.look_mem hc, he⟩, rfl⟩

theorem expiring_nodup {s : State} (hs : s.Canonical) : s.expiring.Nodup :=
  (Tab.keys_nodup hs.creds).sublist (List.filter_sublist.map _)

theorem active_of_expires {s : State} {c : Cred} (h : s.expires c = true) : c.state = .active := by
  simp only [expires, Bool.and_eq_true, beq_iff_eq] at h
  exact h.1

theorem expires_congr {s t : State} (hc : t.clock = s.clock) (hp : t.policy = s.policy) (c : Cred) :
    t.expires c = s.expires c := by
  simp only [expires, ended, credEnd, hc, hp]

/-- R14: each entry that expires becomes EXPIRED, and every other stays. -/
theorem applyExpiry_cred {s : State} (hs : s.Canonical) (i : Nat) : s.applyExpiry.cred i =
    (s.cred i).map (fun c => if s.expires c then { c with state := .expired } else c) := by
  by_cases hi : i ∈ s.expiring
  · obtain ⟨c, hc, he⟩ := (mem_expiring hs).mp hi
    rw [applyExpiry, revokeAll_cred (expiring_nodup hs) .expiry hi hc (active_of_expires he), hc]
    simp [he, Cause.newState]
  · rw [applyExpiry, revokeAll_cred_ne _ _ _ hi]
    cases hc : s.cred i with
    | none => rfl
    | some c =>
      have : s.expires c = false := by
        by_contra he
        exact hi ((mem_expiring hs).mpr ⟨c, hc, by simpa using he⟩)
      simp [this]

/-- R14: the expiry rule leaves no entry that it would move. -/
theorem applyExpiry_none {s : State} (hs : s.Canonical) : ∀ e ∈ s.applyExpiry.creds, s.applyExpiry.expires e.2 = false := by
  intro e he
  have hch := applyExpiry_ch s
  have hlook : s.applyExpiry.cred e.1 = some e.2 := Tab.mem_look (hch.canonical hs).creds he
  rw [applyExpiry_cred hs] at hlook
  obtain ⟨c, -, hc⟩ := Option.map_eq_some_iff.mp hlook
  rw [expires_congr hch.clock_eq hch.policy_eq, ← hc]
  split
  · simp [expires]
  · rename_i hne
    simpa using hne

/-- R14: an entry keeps everything but its state, which only EXPIRED replaces. -/
theorem applyExpiry_keeps {s : State} (hs : s.Canonical) {i : Nat} {c : Cred} (hc : s.cred i = some c) :
    ∃ x, s.applyExpiry.cred i = some { c with state := x } ∧ (x = c.state ∨ c.state = .active ∧ x = .expired) := by
  rw [applyExpiry_cred hs, hc, Option.map_some]
  split
  · rename_i he
    exact ⟨.expired, rfl, .inr ⟨active_of_expires he, rfl⟩⟩
  · exact ⟨c.state, rfl, .inl rfl⟩

/-! ## The Revocation List under revocations (R116) -/

/-- The revocations of a list of credentials keep every record, and what they add has the deadline of now. -/
theorem revokeAll_record {s : State} (hs : s.Canonical) (is : List Nat) (cause : Cause) (k : Nat) :
    Tab.look (s.revokeAll is cause).revocations k = Tab.look s.revocations k ∨
      Tab.look s.revocations k = none ∧
        ∃ r, Tab.look (s.revokeAll is cause).revocations k = some r ∧ r.deadline = s.newDeadline := by
  have hone (s : State) (hs : s.Canonical) (i : Nat) :
      Tab.look (s.revoke i cause).revocations k = Tab.look s.revocations k ∨
        Tab.look s.revocations k = none ∧
          ∃ r, Tab.look (s.revoke i cause).revocations k = some r ∧ r.deadline = s.newDeadline := by
    by_cases hn : s.NotActive i
    · rw [revoke_of_not hn]
      exact .inl rfl
    · simp only [NotActive, not_forall, not_not] at hn
      obtain ⟨c, hc, ha⟩ := hn
      exact (revoke_record hs hc ha cause k).imp id (fun ⟨_, hnone, h⟩ => ⟨hnone, _, h, rfl⟩)
  unfold revokeAll
  induction is generalizing s with
  | nil => exact .inl rfl
  | cons i is ih =>
    have hch := revoke_ch i cause s
    have hdl : (s.revoke i cause).newDeadline = s.newDeadline := by rw [newDeadline, hch.clock_eq, hch.policy_eq, newDeadline]
    have ih := ih (hch.canonical hs)
    rw [hdl] at ih
    rcases hone s hs i with h | ⟨hnone, r, hr, hd⟩
    · rwa [h] at ih
    · rcases ih with h | ⟨h, -⟩
      · exact .inr ⟨hnone, r, h.trans hr, hd⟩
      · rw [hr] at h; cases h

/-- Below the top of M, with D at least 1, no record is left whose deadline M has reached, where none was before. -/
theorem applyExpiry_deadlines {s : State} (hs : s.Canonical) (hm : s.clock.m < top24) (hd : 1 ≤ s.policy.d)
    (hnone : ∀ k r, Tab.look s.revocations k = some r → s.reached r = false) :
    ∀ e ∈ s.applyExpiry.revocations, s.clock.m < e.2.deadline := by
  intro e he
  have hlook := Tab.mem_look ((applyExpiry_ch s).canonical hs).revocations he
  rcases revokeAll_record hs s.expiring .expiry e.1 with h | ⟨-, r, hr, hdl⟩
  · simpa [reached] using hnone _ _ (h.symm.trans hlook)
  · obtain rfl := Option.some.inj (hr.symm.trans hlook)
    rw [hdl, newDeadline]
    omega

end State

end Sys2Proof.Machine
end

