-- ==== Sys2Proof/Proofs/MinuteAdvance.lean ====
section
/-! O21: the minute advance, as the clock's faults, the deadline test and the expiry rule on the advanced clock. -/

set_option Elab.async false

namespace Sys2Proof.Machine

namespace State

/-! ## The faults of the clock (R27, R28) -/

theorem clockEnd_set {s : State} (hs : s.Canonical) (h : s.clock.m = top24) : (s.clockEnd.fault .clockEnd).set = true := by
  rw [clockEnd, if_pos h]
  exact (giveFault_fault hs.faults .clockEnd .clockEnd _).1

theorem clockEnd_steady {s : State} (hs : s.Canonical) : Steady s s.clockEnd := by
  unfold clockEnd
  split
  · exact .giveFault hs _ _
  · exact .refl s

theorem unsetFault_set {s : State} (hs : s.Canonical) (h : s.clock.state = .unset) :
    (s.unsetFault.fault .clockUnset).set = true := by
  rw [unsetFault, if_pos h]
  exact (giveFault_fault hs.faults .clockUnset .clockUnset _).1

theorem unsetFault_steady {s : State} (hs : s.Canonical) : Steady s s.unsetFault := by
  unfold unsetFault
  split
  · exact .giveFault hs _ _
  · exact .refl s

/-! ## The expiry rule while the clock runs -/

theorem expireIfRunning_steady {s : State} (hs : s.Canonical) : Steady s s.expireIfRunning := by
  unfold expireIfRunning
  split
  · exact revokeAll_steady hs _ _
  · exact .refl s

theorem expireIfRunning_keeps {s : State} (hs : s.Canonical) {i : Nat} {c : Cred} (hc : s.cred i = some c) :
    ∃ x, s.expireIfRunning.cred i = some { c with state := x } ∧ (x = c.state ∨ c.state = .active ∧ x = .expired) := by
  unfold expireIfRunning
  split
  · exact applyExpiry_keeps hs hc
  · exact ⟨c.state, hc, .inl rfl⟩

theorem expireIfRunning_deadlines {s : State} (hs : s.Canonical) (hm : s.clock.m < top24) (hd : 1 ≤ s.policy.d)
    (hnone : ∀ k r, Tab.look s.revocations k = some r → s.reached r = false) :
    ∀ e ∈ s.expireIfRunning.revocations, s.clock.m < e.2.deadline := by
  unfold expireIfRunning
  split
  · exact applyExpiry_deadlines hs hm hd hnone
  · intro e he
    simpa [reached] using hnone e.1 e.2 (Tab.mem_look hs.revocations he)

/-- R121: after the deadline test no record is reached. -/
theorem deadlineTest_none {s : State} (hs : s.Canonical) (k : Nat) (r : Revocation)
    (hr : Tab.look s.deadlineTest.revocations k = some r) : s.deadlineTest.reached r = false := by
  obtain ⟨-, -, hrecord, -⟩ := deadlineTest_spec hs
  rw [hrecord] at hr
  simpa [reached, (deadlineTest_ch s).clock_eq] using (Option.filter_eq_some_iff.mp hr).2

/-! ## The minute advance -/

/-- The state that the deadline test of a minute advance reads. -/
def minuteStarted (s : State) : State := s.advanceClock.clockEnd.unsetFault

theorem minuteStarted_ch (s : State) : Changes [.faults, .notices, .clock] s s.minuteStarted :=
  ((Changes.up (advanceClock_ch s)).comp (clockEnd_ch _)).comp (unsetFault_ch _)

theorem minuteAdvance_started (s : State) : s.minuteAdvance = s.minuteStarted.deadlineTest.expireIfRunning := rfl

theorem minuteStarted_clock (s : State) : s.minuteStarted.clock = s.advanceClock.clock :=
  ((clockEnd_ch s.advanceClock).comp (unsetFault_ch _)).clock_eq

theorem minuteStarted_faults {s : State} (hs : s.Canonical) :
    (s.minuteStarted.clock.m = top24 → (s.minuteStarted.fault .clockEnd).set = true) ∧
      (s.clock.state = .unset → (s.minuteStarted.fault .clockUnset).set = true) := by
  have hadv : s.advanceClock.Canonical := (advanceClock_ch s).canonical hs
  have hend : s.advanceClock.clockEnd.Canonical := (clockEnd_ch _).canonical hadv
  have hclock : s.advanceClock.clockEnd.clock = s.advanceClock.clock := (clockEnd_ch _).clock_eq
  rw [minuteStarted_clock]
  exact ⟨fun h => (unsetFault_steady hend).faults _ (clockEnd_set hadv h),
    fun h => unsetFault_set hend (by rw [hclock]; exact h)⟩

end State

open State in
/-- Settles O21: the row is the minute advance with nothing of its own left due; the test and the expiry rule act on the
advanced clock. -/
theorem minuteAdvance : Obligations.MinuteAdvance := by
  intro s₀ hs₀
  have hexec : exec .minuteAdvance s₀ = .next (s₀.undue .minuteAdvance).minuteAdvance := by
    rw [exec_minuteAdvance, runDue, minuteFirst, if_neg (fun h => h.1 rfl)]
    rfl
  have hs : (s₀.undue .minuteAdvance).Canonical := (undue_ch ..).canonical hs₀
  have hstart := minuteStarted_ch (s₀.undue .minuteAdvance)
  have hstarted := hstart.canonical hs
  have hclock := minuteStarted_clock (s₀.undue .minuteAdvance)
  obtain ⟨hend, hunset⟩ := minuteStarted_faults hs
  have hall := minuteAdvance_ch (s₀.undue .minuteAdvance)
  rw [minuteAdvance_started] at hexec hall
  generalize (s₀.undue .minuteAdvance).minuteStarted = u at *
  have htest := deadlineTest_ch u
  obtain ⟨hsteady, hcreds, -, -⟩ := deadlineTest_spec hstarted
  have hnone := deadlineTest_none hstarted
  have htested := htest.canonical hstarted
  have hkept := hsteady.trans (expireIfRunning_steady htested)
  have hclocks : u.deadlineTest.expireIfRunning.clock = u.clock := (expireIfRunning_ch _).clock_eq.trans htest.clock_eq
  have hpolicy : u.deadlineTest.policy = s₀.policy := htest.policy_eq.trans hstart.policy_eq
  refine ⟨_, hexec, hclocks.trans hclock, fun h => hkept.faults _ (hend (by rwa [hclocks] at h)),
    fun h => hkept.faults _ (hunset h), fun hm hd => ?_, fun hrun => ?_, fun hun => ?_, fun i c hc => ?_, ?_⟩
  · rw [hclocks, ← htest.clock_eq] at hm ⊢
    exact expireIfRunning_deadlines htested hm (by rwa [hpolicy]) hnone
  · have hrunning : u.deadlineTest.clock.state = .running := by rw [htest.clock_eq, hclock]; exact hrun
    rw [expireIfRunning, if_pos hrunning]
    exact applyExpiry_none htested
  · have hnot : ¬u.deadlineTest.clock.state = .running := by
      rw [htest.clock_eq, hclock]
      exact fun h => nomatch hun.symm.trans h
    rw [expireIfRunning, if_neg hnot, hcreds, hstart.creds_eq]
    rfl
  · refine expireIfRunning_keeps htested ?_
    rw [← hc, cred, cred, hcreds, hstart.creds_eq]
    rfl
  · have hframe := hall.timed_frame
    rw [hall.rooms_eq, hall.stays_eq, hall.charges_eq, hall.due_eq] at hframe
    exact hframe

end Sys2Proof.Machine
end

