-- ==== Sys2Proof/Proofs/ClockSet.lean ====
section
/-! O56: CLOCK SET, as the deadline test and the expiry rule on the clock and the deadlines it has set. -/

set_option Elab.async false

namespace Sys2Proof.Machine

theorem Tab.look_map {α β : Type} (f : α → β) (t : Tab α) (k : Nat) :
    Tab.look (t.map (fun e => (e.1, f e.2))) k = (Tab.look t k).map f := by
  induction t with
  | nil => rfl
  | cons e t ih => simp only [List.map_cons, Tab.look, ih]; split <;> rfl

namespace State

/-! ## What CLOCK SET leaves for the deadline test -/

/-- The clock loaded, its record written and the deadlines moved. -/
def clockMoved (m w : Nat) (s : State) : State :=
  State.moveDeadlines s.clock.m m ((s.loadClock m w).log .clockSet .unit ([byte (clockCode s.clock.state)] ++ le 3 s.clock.m))

theorem setClock_moved (m w : Nat) (s : State) : s.setClock m w = (s.clockMoved m w).deadlineTest := rfl

section
variable {m w : Nat} {s : State}

theorem clockMoved_ch (hm : m ≤ top24) (hw : w < 10080) :
    Changes [.faults, .notices, .journal, .dirty, .clock, .revocations] s (s.clockMoved m w) :=
  ((Changes.up (loadClock_ch m w s hm hw)).comp (log_ch ..)).comp (moveDeadlines_ch ..)

/-- What follows the loading of the clock touches neither the clock nor the set point. -/
theorem clockMoved_loaded (hm : m ≤ top24) (hw : w < 10080) (hs : s.Canonical) :
    (s.clockMoved m w).clock = ⟨m, w, 0, .running⟩ ∧ (s.clockMoved m w).journal.setPoint = some (m * 60) := by
  have hload := (loadClock_ch m w s hm hw).canonical hs
  exact ⟨(log_ch .clockSet .unit _ (s.loadClock m w)).clock_eq, (Steady.handOver hload _).setPoint⟩

/-- R30: every open record has its deadline moved. -/
theorem clockMoved_record (k : Nat) : Tab.look (s.clockMoved m w).revocations k =
    (Tab.look s.revocations k).map (moveDeadline s.clock.m m) := by
  have hrev : (s.clockMoved m w).revocations = s.revocations.map (fun e => (e.1, moveDeadline s.clock.m m e.2)) :=
    congrArg (List.map _) (log_ch .clockSet .unit _ (s.loadClock m w)).revocations_eq
  rw [hrev, Tab.look_map]

theorem expiring_length (s : State) : s.expiring.length =
    (s.creds.filter (fun e => e.2.state == .active && (s.credEnd e.2).any (fun n => decide (n ≤ s.clock.m)))).length := by
  rw [expiring, List.length_map]
  congr 2
  funext e
  rw [expires, ended]
  cases s.credEnd e.2 <;> rfl

end

/-! ## The whole of CLOCK SET -/

/-- The state that CLOCK SET leaves. -/
def clockWasSet (m w : Nat) (s : State) : State := (s.setClock m w).applyExpiry.clockEnd

section
variable {m w : Nat} {s : State}

theorem clockWasSet_ch (hm : m ≤ top24) (hw : w < 10080) : Changes kMinute s (s.clockWasSet m w) :=
  ((setClock_ch _ _ s hm hw).comp (applyExpiry_ch _)).comp (clockEnd_ch _)

theorem setClock_clock (hm : m ≤ top24) (hw : w < 10080) (hs : s.Canonical) :
    (s.setClock m w).clock = ⟨m, w, 0, .running⟩ :=
  (deadlineTest_ch _).clock_eq.trans (clockMoved_loaded hm hw hs).1

theorem setClock_creds (hm : m ≤ top24) (hw : w < 10080) (hs : s.Canonical) : (s.setClock m w).creds = s.creds := by
  have hch := clockMoved_ch hm hw (s := s)
  obtain ⟨-, hcreds, -, -⟩ := deadlineTest_spec (hch.canonical hs)
  rw [setClock_moved, hcreds, hch.creds_eq]

theorem setClock_expiring (hm : m ≤ top24) (hw : w < 10080) (hs : s.Canonical) : (s.setClock m w).expiring.length =
    (s.creds.filter (fun e => e.2.state == .active && (s.credEnd e.2).any (fun n => decide (n ≤ m)))).length := by
  have hend (c : Cred) : (s.setClock m w).credEnd c = s.credEnd c := by
    simp only [credEnd, (setClock_ch m w s hm hw).policy_eq]
  rw [expiring_length, setClock_creds hm hw hs, setClock_clock hm hw hs]
  simp only [hend]

/-- The body of CLOCK SET. -/
theorem clockSetBody_eq {q : Request} (hpay : q.payload = le 3 m ++ le 2 w) (hm : m ≤ top24) (hw : w ≤ 65535) :
    (10080 ≤ w → clockSetBody q s = (s, badField 2)) ∧
    (w < 10080 → clockSetBody q s = (s.clockWasSet m w, .done (le 3 s.clock.m ++ le 2 s.clock.w ++
      [byte (clockCode s.clock.state)] ++ le 2 (s.setClock m w).expiring.length))) := by
  have htop : top24 < 256 ^ 3 := by decide
  have hv1 : Fields.val [(1, m), (2, w)] 1 = m := rfl
  have hv2 : Fields.val [(1, m), (2, w)] 2 = w := rfl
  unfold clockSetBody
  rw [withFields_ok (readLayout_two hpay (by omega) (by omega))]
  simp only [hv1, hv2]
  exact ⟨fun h => by rw [if_pos (by omega)], fun h => by rw [if_neg (by omega)]; rfl⟩

/-- R30, R121: after CLOCK SET a record that moved to a deadline above M stands there; one that did not has its fault. -/
theorem clockWasSet_record (hm : m ≤ top24) (hw : w < 10080) (hs : s.Canonical) {k : Nat} {r : Revocation}
    (hr : Tab.look s.revocations k = some r) : let d := min top24 (m + (r.deadline - s.clock.m))
    (m < d → Tab.look (s.clockWasSet m w).revocations k = some { r with deadline := d }) ∧
      (d ≤ m → ((s.clockWasSet m w).fault .revocationPartial).set = true) := by
  have hmoved := (clockMoved_ch hm hw (s := s)).canonical hs
  have hset := (deadlineTest_ch (s.clockMoved m w)).canonical hmoved
  have hexp := (applyExpiry_ch (s.setClock m w)).canonical hset
  have hclock := (clockMoved_loaded hm hw hs).1
  obtain ⟨-, -, hrecord, hfault⟩ := deadlineTest_spec hmoved
  have hmove : Tab.look (s.clockMoved m w).revocations k = some (moveDeadline s.clock.m m r) := by
    rw [clockMoved_record, hr, Option.map_some]
  have hreach : (s.clockMoved m w).reached (moveDeadline s.clock.m m r) =
      decide (min top24 (m + (r.deadline - s.clock.m)) ≤ m) := by rw [reached, hclock]; rfl
  refine ⟨fun hd => ?_, fun hd => ?_⟩
  · have hkept : Tab.look (s.setClock m w).revocations k = some (moveDeadline s.clock.m m r) := by
      rw [setClock_moved, hrecord, hmove, Option.filter_some, if_pos]
      rw [hreach, decide_eq_false (by omega), Bool.not_false]
    rw [clockWasSet, (clockEnd_ch _).revocations_eq]
    rcases revokeAll_record hset (s.setClock m w).expiring .expiry k with h | ⟨hnone, -⟩
    · exact h.trans hkept
    · exact nomatch hkept.symm.trans hnone
  · have hreached := hreach.trans (decide_eq_true hd)
    exact (clockEnd_steady hexp).faults _ ((revokeAll_steady hset _ _).faults _ (hfault k _ hmove hreached))

theorem clockWasSet_setPoint (hm : m ≤ top24) (hw : w < 10080) (hs : s.Canonical) :
    (s.clockWasSet m w).journal.setPoint = some (m * 60) := by
  have hmoved := (clockMoved_ch hm hw (s := s)).canonical hs
  have hset := (deadlineTest_ch (s.clockMoved m w)).canonical hmoved
  have hexp := (applyExpiry_ch (s.setClock m w)).canonical hset
  obtain ⟨hsteady, -⟩ := deadlineTest_spec hmoved
  exact ((hsteady.trans (revokeAll_steady hset _ _)).trans (clockEnd_steady hexp)).setPoint.trans
    (clockMoved_loaded hm hw hs).2

end

end State

open State in
/-- Settles O56: the body is the expiry rule on the clock and the deadlines set, and each clause is a lemma about it. -/
theorem clockIsSet : Obligations.ClockIsSet := by
  intro q s m w hq hs hpay hm hlt
  obtain ⟨hbad, hbody⟩ := clockSetBody_eq (s := s) hpay hm hlt
  rw [exec_clockSet, runRequest_takes hq]
  refine ⟨fun h => by rw [hbad h], fun hw => ?_⟩
  rw [hbody hw, setClock_expiring hm hw hs]
  have hset := (setClock_ch m w s hm hw).canonical hs
  have hexp := (applyExpiry_ch (s.setClock m w)).canonical hset
  have hclock := setClock_clock hm hw hs
  have hexpclock : (s.setClock m w).applyExpiry.clock = ⟨m, w, 0, .running⟩ := (applyExpiry_ch _).clock_eq.trans hclock
  have hend := clockEnd_ch (s.setClock m w).applyExpiry
  have hall := clockWasSet_ch hm hw (s := s)
  refine ⟨s.clockWasSet m w, rfl, hend.clock_eq.trans hexpclock, clockWasSet_setPoint hm hw hs,
    fun h => clockEnd_set hexp (by rw [hexpclock]; exact h), fun h hd e he => ?_, fun e he => ?_,
    fun k r hr => clockWasSet_record hm hw hs hr, fun i c hc => ?_, ?_⟩
  · have hpolicy := (setClock_ch m w s hm hw).policy_eq
    rw [clockWasSet, hend.revocations_eq] at he
    have hlater := applyExpiry_deadlines hset (by rw [hclock]; exact h) (by rw [hpolicy]; exact hd)
      (deadlineTest_none ((clockMoved_ch hm hw).canonical hs)) e he
    rwa [hclock] at hlater
  · rw [clockWasSet, hend.creds_eq] at he
    rw [clockWasSet, expires_congr hend.clock_eq hend.policy_eq]
    exact applyExpiry_none hset e he
  · have hkeep := applyExpiry_keeps hset (i := i) (c := c) (by rw [cred, setClock_creds hm hw hs]; exact hc)
    rwa [cred, ← hend.creds_eq] at hkeep
  · have hframe := hall.timed_frame
    rw [hall.rooms_eq, hall.stays_eq, hall.charges_eq, hall.due_eq] at hframe
    exact hframe

end Sys2Proof.Machine
end

