-- ==== Sys2Proof/Proofs/Granted.lean ====
section
/-! O38: the thirteen steps as a list of conditions, of which the first that holds gives the verdict. -/

set_option Elab.async false

namespace Sys2Proof.Machine

/-! ## Lists of conditions -/

/-- What a step gives where its condition holds. -/
abbrev Ruling := Verdict × Option Cause

/-- What a step gives, if anything. -/
def StepResult.ruling : StepResult → Option Ruling
  | .pass => none
  | .grant => some (.grant, none)
  | .deny r ends => some (.deny r, ends)

/-- The first ruling of a list of steps. -/
def rulingOf (l : List StepResult) : Option Ruling := l.findSome? StepResult.ruling

theorem firstVerdict_eq (l : List StepResult) : State.firstVerdict l = (rulingOf l).getD (.grant, none) := by
  induction l with
  | nil => rfl
  | cons r l ih =>
    cases r with
    | pass => exact ih
    | grant | deny => rfl

theorem rulingOf_cons (r : StepResult) (l : List StepResult) : rulingOf (r :: l) = r.ruling.or (rulingOf l) := by
  rw [rulingOf, List.findSome?_cons]
  cases r <;> rfl

theorem rulingOf_append (l l' : List StepResult) : rulingOf (l ++ l') = (rulingOf l).or (rulingOf l') :=
  List.findSome?_append

theorem rulingOf_one (r : StepResult) : rulingOf [r] = r.ruling := by
  rw [rulingOf_cons]
  exact Option.or_none

theorem rulingOf_eq_none {l : List StepResult} : rulingOf l = none ↔ ∀ r ∈ l, r = .pass := by
  rw [rulingOf, List.findSome?_eq_none_iff]
  exact forall_congr' fun r => imp_congr_right fun _ => by cases r <;> simp [StepResult.ruling]

/-- A ruling is that of the first condition that holds, and there is none where none holds. -/
def Ruled : List (Prop × Ruling) → Option Ruling → Prop
  | [], o => o = none
  | x :: rows, o => (x.1 → o = some x.2) ∧ (¬x.1 → Ruled rows o)

namespace Ruled

variable {rows more : List (Prop × Ruling)} {o o' : Option Ruling}

/-- The conditions of one step after those of the steps before it; a step's own need only be right once those have failed. -/
theorem append (h : Ruled rows o) (h' : (∀ x ∈ rows, ¬x.1) → Ruled more o') : Ruled (rows ++ more) (o.or o') := by
  induction rows with
  | nil =>
    cases (show o = none from h)
    exact h' (by simp)
  | cons x rows ih =>
    refine ⟨fun hx => by rw [h.1 hx]; rfl, fun hx => ih (h.2 hx) fun hrows => h' ?_⟩
    simpa [hx] using hrows

/-- A step that denies on one condition. -/
theorem deny_if {P Q : Prop} [Decidable P] {r : DenyReason} {ends : Option Cause} (h : P ↔ Q) :
    Ruled [(Q, .deny r, ends)] (if P then StepResult.deny r ends else .pass).ruling :=
  ⟨fun hq => by rw [if_pos (h.mpr hq)]; rfl, fun hq => by rw [if_neg (fun hp => hq (h.mp hp))]; rfl⟩

theorem drop (h : Ruled (rows ++ more) o) (hrows : ∀ x ∈ rows, ¬x.1) : Ruled more o := by
  induction rows with
  | nil => exact h
  | cons x rows ih =>
    rw [List.forall_mem_cons] at hrows
    exact ih (h.2 hrows.1) hrows.2

theorem first (h : Ruled rows o) {pre post : List (Prop × Ruling)} {x : Prop × Ruling} (hrows : rows = pre ++ x :: post)
    (hpre : ∀ y ∈ pre, ¬y.1) (hx : x.1) : o = some x.2 := by
  subst hrows
  exact (h.drop hpre).1 hx

theorem none_of (h : Ruled rows o) (hrows : ∀ x ∈ rows, ¬x.1) : o = none := by
  rw [← List.append_nil rows] at h
  exact h.drop hrows

theorem eq_none_iff (h : Ruled rows o) : o = none ↔ ∀ x ∈ rows, ¬x.1 := by
  refine ⟨fun ho => ?_, h.none_of⟩
  induction rows with
  | nil => simp
  | cons x rows ih =>
    have hx : ¬x.1 := fun hx => nomatch ho.symm.trans (h.1 hx)
    exact List.forall_mem_cons.mpr ⟨hx, ih (h.2 hx)⟩

/-- Where every condition denies, a card is let through exactly where none holds. -/
theorem grant_iff (h : Ruled rows o) (hdeny : ∀ x ∈ rows, x.2.1 ≠ .grant) :
    (o.getD (.grant, none)).1 = .grant ↔ ∀ x ∈ rows, ¬x.1 := by
  rw [← h.eq_none_iff]
  refine ⟨fun ho => ?_, fun ho => by rw [ho]; rfl⟩
  induction rows with
  | nil => exact h
  | cons x rows ih =>
    rw [List.forall_mem_cons] at hdeny
    by_cases hx : x.1
    · rw [h.1 hx] at ho
      exact absurd ho hdeny.1
    · exact ih (h.2 hx) hdeny.2

end Ruled

/-! ## The conditions -/

namespace State

/-- R48: the door's zone is in the credential's list. -/
def Zoned (d : DoorRec) (c : Cred) : Prop := ∃ z, d.zone? = some z ∧ c.zones.getLsbD z = true

/-- R48: the door is of the GUEST credential's room. -/
def Home (d : DoorRec) (c : Cred) : Prop := ∃ g r, c.guest = some g ∧ d.room? = some r ∧ g.room = r

/-- R48 step 7. -/
def Reach (d : DoorRec) (c : Cred) : Prop :=
  (c.kind = .guest ∧ d.kindCode = 2 ∧ Zoned d c) ∨ (c.kind = .guest ∧ d.kindCode ≠ 2 ∧ Home d c) ∨
    (c.kind = .staff ∧ Zoned d c ∧ (d.kindCode = 3 → c.restock = true)) ∨ (c.kind = .master ∧ Zoned d c ∧ d.kindCode ≠ 3)

/-- R49 step 8. -/
def Older (s : State) (d : DoorRec) (c : Cred) : Prop :=
  c.kind = .guest ∧ ∃ g r a, c.guest = some g ∧ d.room? = some r ∧ s.accepted r = some a ∧ g.generation < a

/-- R33: before the start of validity. -/
def Early (s : State) (c : Cred) : Prop := ∃ a b, c.validity = some (a, b) ∧ s.clock.m < a

/-- R33: at or past the end of validity. -/
def Passed (s : State) (c : Cred) : Prop :=
  ∃ a b, c.validity = some (a, b) ∧ (b + if c.kind = .guest then s.policy.g else 0) ≤ s.clock.m

/-- R34: a schedule tested does not admit the minute-of-week. -/
def Shut (s : State) (d : DoorRec) (c : Cred) : Prop := ∃ n, (s.schedule n).admits s.clock.w = false ∧
  ((c.kind = .staff ∧ c.schedule = some n) ∨ (c.kind = .guest ∧ ∃ z u h, d = .commonDoor z (some n) u h))

/-- R49 step 10. -/
def Bolted (pl : Place) (c : Cred) : Prop :=
  pl.door.kindCode = 1 ∧ (∃ x, pl.accepted = some x ∧ x.bolt = true) ∧ ¬(c.kind = .master ∧ c.boltOverride = true)

/-- R49 step 11. -/
def Audited (s : State) (c : Cred) : Prop :=
  s.journal.held = 2048 ∧ s.policy.strictAudit = true ∧ (c.kind = .staff ∨ c.kind = .master)

/-- R49 step 12: the room's open stay is not the credential's. -/
def NoStay (s : State) (d : DoorRec) (c : Cred) : Prop :=
  ∃ g r, c.guest = some g ∧ d.room? = some r ∧ ∀ e, s.openStay r = some e → e.2.number ≠ g.stay

/-- R49 step 13: the open stay's total has come to its cap. -/
def Spent (s : State) (d : DoorRec) : Prop := ∃ r e, d.room? = some r ∧ s.openStay r = some e ∧ e.2.cap ≤ e.2.total

/-- R47 step 4. -/
def stateRows (c : Cred) : List (Prop × Ruling) :=
  [(c.state = .revoked, .deny .revoked, none), (c.state = .superseded, .deny .superseded, none),
    (c.state = .expired, .deny .expired, none)]

/-- R47 step 5. -/
def emergencyRows (c : Cred) : List (Prop × Ruling) := [(c.kind = .emergency, .grant, none)]

/-- R48, R49: steps 6 to 8. -/
def placeRows (s : State) (pl : Place) (c : Cred) : List (Prop × Ruling) :=
  [(pl.door.isLocked = true ∧ s.zoneOfDoor pl.door = .closed ∧ (c.kind = .guest ∨ c.kind = .staff), .deny .closed, none),
    (¬Reach pl.door c, .deny .reach, none), (s.Older pl.door c, .deny .superseded, some .supersede)]

/-- R34: step 9. -/
def timeRows (s : State) (d : DoorRec) (c : Cred) : List (Prop × Ruling) :=
  [(s.clock.state = .running ∧ s.Early c, .deny .time, none),
    (s.clock.state = .running ∧ s.Passed c, .deny .expired, some .expiry),
    (s.clock.state = .running ∧ s.Shut d c, .deny .time, none)]

/-- R49: steps 10 and 11. -/
def guardRows (s : State) (pl : Place) (c : Cred) : List (Prop × Ruling) :=
  [(Bolted pl c, .deny .privacy, none), (s.Audited c, .deny .audit, none)]

/-- R49: steps 12 and 13. -/
def minibarRows (s : State) (d : DoorRec) (c : Cred) : List (Prop × Ruling) :=
  [((c.kind = .guest ∧ d.kindCode = 3) ∧ s.NoStay d c, .deny .stay, none),
    ((c.kind = .guest ∧ d.kindCode = 3) ∧ (∃ g, c.guest = some g) ∧ s.Spent d, .deny .cap, none)]

/-- Steps 4 to 8. -/
def earlyRows (s : State) (pl : Place) (c : Cred) : List (Prop × Ruling) :=
  stateRows c ++ (emergencyRows c ++ s.placeRows pl c)

/-- Steps 9 to 13. -/
def lateRows (s : State) (pl : Place) (c : Cred) : List (Prop × Ruling) :=
  s.timeRows pl.door c ++ (s.guardRows pl c ++ s.minibarRows pl.door c)

/-! ## Each step by its conditions -/

theorem stepState_ruled (c : Cred) : Ruled (stateRows c) (stepState c).ruling := by
  cases h : c.state <;> simp [Ruled, stateRows, stepState, stateDeny, StepResult.ruling, h]

theorem stepEmergency_ruled (c : Cred) : Ruled (emergencyRows c) (stepEmergency c).ruling := by
  by_cases h : c.kind = .emergency <;> simp [Ruled, emergencyRows, stepEmergency, StepResult.ruling, h]

theorem inZone_iff {d : DoorRec} {c : Cred} : c.inZone d = true ↔ Zoned d c := by
  unfold Cred.inZone Zoned
  cases d.zone? <;> simp

theorem roomOf_iff {c : Cred} {d : DoorRec} {r : Nat} (hr : d.room? = some r) : c.roomOf = some r ↔ Home d c := by
  simp [Cred.roomOf, Home, hr, eq_comm]

theorem reaches_iff {d : DoorRec} {c : Cred} (hd : d ≠ .unused) (hc : c.kind ≠ .emergency) :
    reaches d c = true ↔ Reach d c := by
  unfold Reach
  cases hk : c.kind with
  | emergency => exact absurd hk hc
  | guest =>
    cases d with
    | unused => exact absurd rfl hd
    | roomDoor r z u h => simpa [reaches, hk, DoorRec.kindCode] using roomOf_iff rfl
    | minibar r z h => simpa [reaches, hk, DoorRec.kindCode] using roomOf_iff rfl
    | commonDoor => simp [reaches, hk, inZone_iff, DoorRec.kindCode]
  | staff =>
    cases d with
    | unused => exact absurd rfl hd
    | roomDoor | minibar | commonDoor => simp [reaches, hk, inZone_iff, DoorRec.kindCode]
  | master =>
    cases d with
    | unused => exact absurd rfl hd
    | roomDoor | minibar | commonDoor => simp [reaches, hk, inZone_iff, DoorRec.kindCode]

theorem stepClosed_ruled (s : State) (d : DoorRec) (c : Cred) :
    Ruled [(d.isLocked = true ∧ s.zoneOfDoor d = .closed ∧ (c.kind = .guest ∨ c.kind = .staff), .deny .closed, none)]
      (s.stepClosed d c).ruling := by
  unfold stepClosed
  exact .deny_if (by simp [and_assoc])

theorem stepReach_ruled {d : DoorRec} {c : Cred} (hd : d ≠ .unused) (hc : c.kind ≠ .emergency) :
    Ruled [(¬Reach d c, .deny .reach, none)] (stepReach d c).ruling := by
  unfold stepReach
  rw [← ite_not]
  exact .deny_if (not_congr (reaches_iff hd hc))

theorem stepGeneration_ruled (s : State) (d : DoorRec) (c : Cred) :
    Ruled [(s.Older d c, .deny .superseded, some .supersede)] (s.stepGeneration d c).ruling := by
  unfold stepGeneration Older
  cases c.guest with
  | none => simp [Ruled, StepResult.ruling]
  | some g =>
    cases d.room? with
    | none => simp [Ruled, StepResult.ruling]
    | some r =>
      cases ha : s.accepted r with
      | none => simp [Ruled, StepResult.ruling, ha]
      | some a =>
        simp only [ha]
        exact .deny_if (by simp [ha])

theorem early_ruled (s : State) {pl : Place} {c : Cred} (hd : pl.door ≠ .unused) :
    Ruled (s.earlyRows pl c) (rulingOf (s.earlySteps pl c)) := by
  simp only [earlySteps, rulingOf_cons (stepState c), rulingOf_cons (stepEmergency c), rulingOf_cons (s.stepClosed pl.door c),
    rulingOf_cons (stepReach pl.door c), rulingOf_one]
  exact (stepState_ruled c).append fun _ => (stepEmergency_ruled c).append fun he =>
    (s.stepClosed_ruled pl.door c).append fun _ => (stepReach_ruled hd (by simpa [emergencyRows] using he)).append fun _ =>
      s.stepGeneration_ruled pl.door c

/-! ## The time test (R33, R34) -/

theorem credEnd_eq (s : State) (c : Cred) :
    s.credEnd c = c.validity.map (fun v => v.2 + if c.kind = .guest then s.policy.g else 0) := by
  unfold credEnd
  cases c.validity <;> rfl

theorem tooEarly_iff {s : State} {c : Cred} : s.tooEarly c = true ↔ s.Early c := by
  unfold tooEarly Early
  cases c.validity with
  | none => simp
  | some v => obtain ⟨a, b⟩ := v; simp

theorem ended_iff {s : State} {c : Cred} : s.ended c = true ↔ s.Passed c := by
  unfold ended Passed
  rw [credEnd_eq]
  cases c.validity with
  | none => simp
  | some v => obtain ⟨a, b⟩ := v; simp

theorem scheduleFor_iff {d : DoorRec} {c : Cred} {n : Nat} : scheduleFor d c = some n ↔
    (c.kind = .staff ∧ c.schedule = some n) ∨ (c.kind = .guest ∧ ∃ z u h, d = .commonDoor z (some n) u h) := by
  unfold scheduleFor
  cases c.kind with
  | guest => cases d <;> simp
  | staff | master | emergency => simp

theorem stepTime_ruled (s : State) (d : DoorRec) (c : Cred) : Ruled (s.timeRows d c) (s.stepTime d c).ruling := by
  unfold stepTime timeRows Shut
  simp only [← tooEarly_iff, ← ended_iff, ← scheduleFor_iff]
  cases hrun : s.clock.state with
  | unset => simp [Ruled, StepResult.ruling]
  | running =>
    by_cases he : s.tooEarly c = true
    · simp [Ruled, StepResult.ruling, he]
    · by_cases hp : s.ended c = true
      · simp [Ruled, StepResult.ruling, he, hp]
      · cases hn : scheduleFor d c with
        | none => simp [Ruled, StepResult.ruling, he, hp]
        | some n => cases ha : (s.schedule n).admits s.clock.w <;> simp [Ruled, StepResult.ruling, he, hp, ha]

/-! ## Privacy, audit and the minibar (R49) -/

theorem stepPrivacy_ruled (pl : Place) (c : Cred) :
    Ruled [(Bolted pl c, .deny .privacy, none)] (stepPrivacy pl c).ruling := by
  unfold stepPrivacy Bolted
  cases pl.accepted with
  | none => simp [Ruled, StepResult.ruling]
  | some x => exact .deny_if (by simp)

theorem stepAudit_ruled (s : State) (c : Cred) : Ruled [(s.Audited c, .deny .audit, none)] (s.stepAudit c).ruling := by
  unfold stepAudit
  exact .deny_if (by simp [Audited, Journal.full, and_assoc])

theorem stepMinibar_ruled (s : State) (d : DoorRec) (c : Cred) :
    Ruled (s.minibarRows d c) (s.stepMinibar d c).ruling := by
  unfold minibarRows NoStay Spent stepMinibar
  cases d with
  | unused | roomDoor | commonDoor => simp [Ruled, StepResult.ruling, DoorRec.kindCode]
  | minibar r z h =>
    cases c.kind with
    | staff | master | emergency => simp [Ruled, StepResult.ruling]
    | guest =>
      cases c.guest with
      | none => simp [Ruled, StepResult.ruling]
      | some g =>
        cases he : s.openStay r with
        | none => simp [Ruled, StepResult.ruling, DoorRec.kindCode, DoorRec.room?, he]
        | some e =>
          obtain ⟨j, y⟩ := e
          by_cases hn : y.number = g.stay
          · by_cases ht : y.cap ≤ y.total <;> simp [Ruled, StepResult.ruling, DoorRec.kindCode, DoorRec.room?, he, hn, ht]
          · simp [Ruled, StepResult.ruling, DoorRec.kindCode, DoorRec.room?, he, hn]

theorem late_ruled (s : State) (pl : Place) (c : Cred) : Ruled (s.lateRows pl c) (rulingOf (s.lateSteps pl c)) := by
  simp only [lateSteps, rulingOf_cons (s.stepTime pl.door c), rulingOf_cons (stepPrivacy pl c), rulingOf_cons (s.stepAudit c),
    rulingOf_one]
  exact (s.stepTime_ruled pl.door c).append fun _ => (stepPrivacy_ruled pl c).append fun _ =>
    (s.stepAudit_ruled c).append fun _ => s.stepMinibar_ruled pl.door c

/-! ## The evaluation of a card found -/

/-- Every condition of an evaluation, in order; a backlog record is evaluated by the steps before the time test. -/
def stepRows (s : State) (pl : Place) (c : Cred) (full : Bool) : List (Prop × Ruling) :=
  s.earlyRows pl c ++ if full then s.lateRows pl c else []

theorem steps_ruled (s : State) {pl : Place} {c : Cred} (hd : pl.door ≠ .unused) (full : Bool) :
    Ruled (s.stepRows pl c full) (rulingOf (s.earlySteps pl c ++ if full then s.lateSteps pl c else [])) := by
  rw [rulingOf_append]
  refine (s.early_ruled hd).append fun _ => ?_
  cases full
  · exact rfl
  · exact s.late_ruled pl c

theorem reachesTime_iff (s : State) {pl : Place} {c : Cred} (hd : pl.door ≠ .unused) :
    s.reachesTime pl c = true ↔ ∀ x ∈ s.earlyRows pl c, ¬x.1 := by
  rw [← (s.early_ruled hd).eq_none_iff, rulingOf_eq_none, reachesTime]
  simp

theorem isUnused_iff {d : DoorRec} : d.isUnused = true ↔ d = .unused := by
  cases d <;> simp [DoorRec.isUnused, DoorRec.kindCode]

/-- R47: a place unused. -/
theorem evaluate_unused {s : State} {p card : Nat} {full : Bool} (hd : (s.place p).door = .unused) :
    s.evaluate p card full = ⟨.deny .unmapped, false, false, none, none⟩ := by
  simp only [evaluate, isUnused_iff, hd, if_true]

/-- R47: a place used, whose zone decides by itself. -/
theorem evaluate_released {s : State} {p card : Nat} {full : Bool}
    (hz : (s.place p).door.isLocked = true ∧ s.zoneOfDoor (s.place p).door = .released) :
    s.evaluate p card full = ⟨.grant, true, false, (s.findCard card).map foundOf, none⟩ := by
  have hd : ¬(s.place p).door = .unused := fun hd => by rw [hd] at hz; exact absurd hz.1 (by decide)
  simp [evaluate, isUnused_iff, hd, hz]

section
variable {s : State} {p card : Nat} {full : Bool} (hd : (s.place p).door ≠ .unused)
  (hz : ¬((s.place p).door.isLocked = true ∧ s.zoneOfDoor (s.place p).door = .released))
include hd hz

theorem evaluate_unknown (hf : s.findCard card = none) :
    s.evaluate p card full = ⟨.deny .unknown, false, false, none, none⟩ := by
  simp only [evaluate, isUnused_iff, hd, Bool.and_eq_true, beq_iff_eq, hz, hf, if_false]

theorem evaluate_found {i : Nat} {c : Cred} (hf : s.findCard card = some (i, c)) :
    let out := (rulingOf (s.earlySteps (s.place p) c ++ if full then s.lateSteps (s.place p) c else [])).getD (.grant, none)
    s.evaluate p card full = ⟨out.1, false, full && s.reachesTime (s.place p) c && s.clock.state == .unset,
      some (foundOf (i, c)), out.2⟩ := by
  simp only [evaluate, isUnused_iff, hd, Bool.and_eq_true, beq_iff_eq, hz, hf, if_false, ← firstVerdict_eq]
  rfl

/-- R47 to R49: the parts of the evaluation of a card found, by the conditions. -/
theorem evaluate_rules {i : Nat} {c : Cred} (hf : s.findCard card = some (i, c)) : let v := s.evaluate p card full
    v.found = some (foundOf (i, c)) ∧ v.released = false ∧
      (v.untimed = true ↔ full = true ∧ s.clock.state = .unset ∧ ∀ x ∈ s.earlyRows (s.place p) c, ¬x.1) ∧
      (∀ pre x post, s.stepRows (s.place p) c full = pre ++ x :: post → (∀ y ∈ pre, ¬y.1) → x.1 →
        v.verdict = x.2.1 ∧ v.ends = x.2.2) ∧
      ((∀ x ∈ s.stepRows (s.place p) c full, ¬x.1) → v.verdict = .grant ∧ v.ends = none) := by
  have hruled := s.steps_ruled (c := c) hd full
  intro v
  have hv : v = _ := evaluate_found hd hz hf
  refine hv ▸ ⟨rfl, rfl, ?_, fun pre x post hrows hpre hx => ?_, fun hrows => ?_⟩
  · simp only [Bool.and_eq_true, beq_iff_eq, reachesTime_iff s hd]
    rw [and_right_comm, and_assoc]
  · rw [hruled.first hrows hpre hx]
    exact ⟨rfl, rfl⟩
  · rw [hruled.none_of hrows]
    exact ⟨rfl, rfl⟩

end

/-! ## What is permitted -/

/-- R34: no condition of the time test holds. -/
theorem timeRows_fail {s : State} {d : DoorRec} {c : Cred} :
    (∀ x ∈ s.timeRows d c, ¬x.1) ↔ (s.clock.state = .running → s.InTime d c) := by
  have hearly : ¬s.Early c ↔ ∀ v, c.validity = some v → v.1 ≤ s.clock.m := by simp [Early]
  have hpassed : ¬s.Passed c ↔ ∀ e, s.credEnd c = some e → s.clock.m < e := by
    rw [← ended_iff, ended]
    cases s.credEnd c <;> simp
  have hshut : ¬s.Shut d c ↔ ∀ n, scheduleFor d c = some n → (s.schedule n).admits s.clock.w = true := by
    simp only [Shut, ← scheduleFor_iff, not_exists, not_and', Bool.not_eq_false]
  simp only [timeRows, List.forall_mem_cons, List.not_mem_nil, false_imp_iff, implies_true, and_true, not_and,
    hearly, hpassed, hshut, InTime, ← imp_and]

/-- R49: neither minibar condition holds. -/
theorem minibarRows_fail {s : State} {d : DoorRec} {c : Cred} :
    (∀ x ∈ s.minibarRows d c, ¬x.1) ↔ ∀ r z h g, d = .minibar r z h → c.kind = .guest → c.guest = some g →
      ∃ e, s.openStay r = some e ∧ e.2.number = g.stay ∧ e.2.total < e.2.cap := by
  unfold minibarRows NoStay Spent
  cases d with
  | unused | roomDoor | commonDoor => simp [DoorRec.kindCode]
  | minibar r z h =>
    have hself : (∀ r' z' h' g, DoorRec.minibar r z h = .minibar r' z' h' → c.kind = .guest → c.guest = some g →
        ∃ e, s.openStay r' = some e ∧ e.2.number = g.stay ∧ e.2.total < e.2.cap) ↔ ∀ g, c.kind = .guest → c.guest = some g →
        ∃ e, s.openStay r = some e ∧ e.2.number = g.stay ∧ e.2.total < e.2.cap :=
      ⟨fun H g => H r z h g rfl, fun H r' z' h' g e => by cases e; exact H g⟩
    refine .trans ?_ hself.symm
    cases c.guest with
    | none => simp
    | some g =>
      cases he : s.openStay r with
      | none => simp [DoorRec.kindCode, DoorRec.room?, he]
      | some e =>
        obtain ⟨j, y⟩ := e
        simp [DoorRec.kindCode, DoorRec.room?, he, ← imp_and]

theorem allows_iff {s : State} {pl : Place} {c : Cred} (hd : pl.door ≠ .unused) (hc : c.kind ≠ .emergency) :
    s.Allows pl c ↔ ∀ x ∈ s.placeRows pl c ++ s.lateRows pl c, ¬x.1 := by
  have hmaster : ¬(c.kind = .guest ∨ c.kind = .staff) ↔ c.kind = .master := by
    cases h : c.kind <;> simp [h] at hc ⊢
  have hclosed : ¬(pl.door.isLocked = true ∧ s.zoneOfDoor pl.door = .closed ∧ (c.kind = .guest ∨ c.kind = .staff)) ↔
      (pl.door.isLocked = true → s.zoneOfDoor pl.door = .closed → c.kind = .master) := by
    simp only [not_and, hmaster]
  have holder : ¬s.Older pl.door c ↔ ∀ r g a, pl.door.room? = some r → c.guest = some g → c.kind = .guest →
      s.accepted r = some a → a ≤ g.generation := by
    simp only [Older, not_and, not_exists, not_lt]
    exact ⟨fun h r g a hr hg hk => h hk g r a hg hr, fun h hk g r a hg hr => h r g a hr hg hk⟩
  have hbolt : ¬Bolted pl c ↔ ∀ x, pl.door.kindCode = 1 → pl.accepted = some x → x.bolt = true →
      c.kind = .master ∧ c.boltOverride = true :=
    ⟨fun h x hk hx hb => by_contra fun hm => h ⟨hk, ⟨x, hx, hb⟩, hm⟩, fun h ⟨hk, ⟨x, hx, hb⟩, hm⟩ => hm (h x hk hx hb)⟩
  have haudit : ¬s.Audited c ↔ (s.journal.full = true → s.policy.strictAudit = true → c.kind ≠ .staff ∧ c.kind ≠ .master) := by
    simp [Audited, Journal.full]
  simp only [lateRows, List.forall_mem_append, timeRows_fail, minibarRows_fail]
  simp only [placeRows, guardRows, List.forall_mem_cons, List.not_mem_nil, false_imp_iff, implies_true, and_true, hclosed,
    holder, hbolt, haudit, not_not, ← reaches_iff hd hc]
  exact ⟨fun ⟨h1, h2, h3, h4, h5, h6, h7⟩ => ⟨⟨h1, h2, h3⟩, h4, ⟨h5, h6⟩, h7⟩,
    fun ⟨⟨h1, h2, h3⟩, h4, ⟨h5, h6⟩, h7⟩ => ⟨h1, h2, h3, h4, h5, h6, h7⟩⟩

/-- Of a card found, the steps grant exactly where it is ACTIVE and either EMERGENCY or allowed. -/
theorem ruled_grant_iff {s : State} {pl : Place} {c : Cred} {o : Option Ruling} (hd : pl.door ≠ .unused)
    (h : Ruled (s.stepRows pl c true) o) :
    (o.getD (.grant, none)).1 = .grant ↔ c.state = .active ∧ (c.kind = .emergency ∨ s.Allows pl c) := by
  simp only [stepRows, earlyRows, if_true, List.append_assoc] at h
  by_cases ha : c.state = .active
  · have h := h.drop (by simp [stateRows, ha])
    by_cases he : c.kind = .emergency
    · rw [h.first (pre := []) rfl (by simp) he]
      simp [ha, he]
    · have h := h.drop (rows := emergencyRows c) (by simp [emergencyRows, he])
      rw [h.grant_iff (by simp [placeRows, lateRows, timeRows, guardRows, minibarRows]), ← allows_iff hd he]
      simp [ha, he]
  · cases hc : c.state with
    | active => exact absurd hc ha
    | revoked | superseded | expired =>
      simp [stateRows, Ruled, hc] at h
      simp [h]

theorem evaluate_grant_iff (s : State) (p card : Nat) : (s.evaluate p card true).verdict = .grant ↔ s.Permits p card := by
  unfold Permits
  by_cases hd : (s.place p).door = .unused
  · simp [evaluate_unused hd, hd]
  · by_cases hz : (s.place p).door.isLocked = true ∧ s.zoneOfDoor (s.place p).door = .released
    · simp [evaluate_released hz, hd, hz]
    · cases hf : s.findCard card with
      | none => simp [evaluate_unknown hd hz hf, hz]
      | some e =>
        obtain ⟨i, c⟩ := e
        rw [evaluate_found hd hz hf]
        refine (ruled_grant_iff hd (s.steps_ruled hd true)).trans ?_
        simp [hd, hz]

/-! ## The open stay of a room (R137) -/

theorem openStay_iff {s : State} {r i : Nat} {x : Stay} : s.openStay r = some (i, x) ↔
    x.isOpen = true ∧ ∃ j y n, s.findRoom r = some (j, y) ∧ y.openStay = some n ∧ s.findStay n = some (i, x) := by
  unfold openStay
  cases s.findRoom r with
  | none => simp
  | some e =>
    obtain ⟨j, y⟩ := e
    cases hy : y.openStay with
    | none => simp [hy]
    | some n =>
      cases hn : s.findStay n with
      | none => simp [hy, hn]
      | some z =>
        have hx : (∃ j' y' n', some (j, y) = some (j', y') ∧ y'.openStay = some n' ∧ s.findStay n' = some (i, x)) ↔
            z = (i, x) := by simp [hy, hn]
        simp only [hy, hn, hx]
        by_cases hz : z = (i, x)
        · simp [hz]
        · simp [hz]

end State

open State in
/-- Settles O38: the steps are the list of conditions `stepRows`, and the first that holds gives the verdict. -/
theorem grantsArePermitted : Obligations.GrantsArePermitted :=
  ⟨evaluate_grant_iff, fun _ _ _ _ => ⟨evaluate_unused, evaluate_released, evaluate_unknown, fun _ _ hd hz hf =>
      evaluate_rules hd hz hf⟩,
    credEnd_eq, fun _ _ _ => scheduleFor_iff, fun _ _ _ _ => openStay_iff⟩

end Sys2Proof.Machine
end

