-- ==== Sys2Proof/Proofs/Confirmed.lean ====
section
/-! What a confirmation leaves (R107, R118 to R120): the records of the Revocation List, the directory and the queue of the
drop; and what the offers of a freed place leave of a command in doubt. -/

set_option Elab.async false

namespace Sys2Proof.Machine

/-! ## Offers where nothing is in delivery -/

namespace Place

/-- Where no command is in delivery, none comes to stand there, and no doubt arises. -/
structure Calm (a b : Place) : Prop where
  kept : a.delivery = none → b.delivery = none ∧ b.uncertain = a.uncertain ∧ b.departed = a.departed

namespace Calm

variable {a b c : Place}

theorem refl (a : Place) : Calm a a := ⟨fun h => ⟨h, rfl, rfl⟩⟩

theorem trans (h1 : Calm a b) (h2 : Calm b c) : Calm a c := ⟨fun h =>
  have ⟨hd, hu, hp⟩ := h1.kept h
  have ⟨hd', hu', hp'⟩ := h2.kept hd
  ⟨hd', hu'.trans hu, hp'.trans hp⟩⟩

/-- A change of other fields. -/
theorem of_eq (hd : b.delivery = a.delivery) (hu : b.uncertain = a.uncertain) (hp : b.departed = a.departed) : Calm a b :=
  ⟨fun h => ⟨hd.trans h, hu, hp⟩⟩

theorem fold {α : Type} {f : Place → α → Place} (h : ∀ pl x, Calm pl (f pl x)) (l : List α) (pl : Place) :
    Calm pl (l.foldl f pl) := by
  induction l generalizing pl with
  | nil => exact refl pl
  | cons x l ih => exact (h pl x).trans (ih _)

theorem ite {p : Prop} [Decidable p] (h : Calm a b) : Calm a (if p then b else a) := by
  split
  · exact h
  · exact refl a

end Calm

theorem onEntered_calm (c : LineCmd) (pl : Place) : Calm pl (onEntered c pl) := by
  cases c with
  | cacheFlush j => cases j <;> exact .of_eq rfl rfl rfl
  | _ => exact .of_eq rfl rfl rfl

theorem onReturned_calm (c : LineCmd) (st : CmdStatus) (pl : Place) : Calm pl (onReturned c st pl) := by
  cases c with
  | cacheFlush j => cases j <;> exact .of_eq rfl rfl rfl
  | _ => exact .of_eq rfl rfl rfl

theorem enter_calm (c : LineCmd) (pl : Place) : Calm pl (pl.enter c) := by
  refine Calm.trans ?_ (onEntered_calm c _)
  exact .of_eq rfl rfl rfl

/-- With nothing in delivery a command evicted was waiting. -/
theorem evict_calm (v : QEntry) (pl : Place) : Calm pl (pl.evict v) := ⟨fun h => by
  have hv : ¬pl.delivery = some v := by simp [h]
  rw [evict, if_neg hv]
  exact (onReturned_calm v.cmd .owed { pl with waiting := pl.waiting.filter (fun e => e != v) }).kept h⟩

theorem offer_calm (c : LineCmd) (pl : Place) : Calm pl (pl.offer c) := by
  unfold offer
  split
  · exact enter_calm c pl
  · split
    · exact onReturned_calm ..
    · split
      · exact (evict_calm _ pl).trans (enter_calm ..)
      · exact onReturned_calm ..

theorem offerFree_calm (c : LineCmd) (pl : Place) : Calm pl (pl.offerFree c) := (enter_calm c pl).ite

theorem offerZone_calm (pl : Place) : Calm pl pl.offerZone := by
  unfold offerZone
  refine .ite ?_
  split
  · exact offer_calm ..
  · exact offer_calm ..
  all_goals exact .refl pl

theorem offerReturned_calm (pl : Place) (c : LineCmd) : Calm pl (pl.offerReturned c) := by
  refine .ite (Calm.trans ?_ (enter_calm c _))
  exact .of_eq rfl rfl rfl

theorem reoffer_calm (card : Nat → Nat) (pl : Place) : Calm pl (pl.reoffer card) := by
  have hjoin (pl : Place) : Calm pl pl.offerJoin := .fold offerReturned_calm _ pl
  have hflush (pl : Place) : Calm pl pl.offerFlush := (offerFree_calm ..).ite
  have hremoves (pl : Place) : Calm pl pl.offerRemoves := .fold (fun pl _ => (offerFree_calm _ pl).ite) _ pl
  have hadds (pl : Place) : Calm pl (pl.offerAdds card) := .fold (fun pl _ => (offerFree_calm _ pl).ite) _ pl
  exact ((((offerZone_calm pl).trans (hjoin _)).trans (hflush _)).trans (hremoves _)).trans (hadds _)

end Place

namespace State

/-- At its own place an offer of the freed places keeps the core, and no doubt arises where nothing is in delivery. -/
theorem reoffer_own {s : State} (hs : s.Canonical) (p : Nat) : ((s.reoffer p).place p).core = (s.place p).core ∧
    Place.Calm (s.place p) ((s.reoffer p).place p) := by
  obtain ⟨j, hj⟩ := s.exists_notActive
  have hcore := ((reoffer_each p hs hj).1 p).core
  refine ⟨hcore, (Place.reoffer_calm s.cardOf _).trans ?_⟩
  have hch := modPlace_ch s p (Place.reoffer_ok s.cardOf)
  have hplace : (s.modPlace p (Place.reoffer s.cardOf)).place p = (s.place p).reoffer s.cardOf := by
    rw [place_modPlace _ _ _ _ hs.places.1, if_pos rfl]
  rw [← hplace]
  unfold reoffer
  simp only
  split
  · have h := runEngine_filled (segOf p) (hch.canonical hs) (hj.congr hch.creds_eq) p
    rw [h.rest]
    exact .of_eq rfl rfl rfl
  · exact .refl _

end State

/-! ## One record (R118 to R120) -/

/-- A record without one drop: none where no other is left. -/
def Revocation.without (p : Nat) (r : Revocation) : Option Revocation :=
  if p ∈ r.drops then
    if ∃ d ∈ r.drops, d ≠ p then some { r with drops := r.drops.filter (fun d => d != p) } else none
  else some r

theorem Revocation.without_self {p : Nat} {r : Revocation} (h : p ∉ r.drops) : r.without p = some r := if_neg h

theorem Revocation.without_more {p : Nat} {r : Revocation} (h : p ∈ r.drops) (hd : ∃ d ∈ r.drops, d ≠ p) :
    r.without p = some { r with drops := r.drops.filter (fun d => d != p) } := by
  rw [Revocation.without, if_pos h, if_pos hd]

theorem Revocation.without_last {p : Nat} {r : Revocation} (h : p ∈ r.drops) (hd : ∀ d ∈ r.drops, d = p) :
    r.without p = none := by
  rw [Revocation.without, if_pos h, if_neg (by simpa using hd)]

theorem filter_drops_isEmpty {p : Nat} {ds : List Nat} :
    (ds.filter (fun d => d != p)).isEmpty = true ↔ ∀ d ∈ ds, d = p := by
  simp [List.isEmpty_iff, List.filter_eq_nil_iff]

/-- The one record that a search can find. -/
theorem Tab.findKey_unique {α : Type} {t : Tab α} (ht : Tab.Rising t) {f : α → Bool} {k : Nat} {v : α}
    (hk : Tab.look t k = some v) (hv : f v = true) (hu : ∀ j w, Tab.look t j = some w → f w = true → j = k) :
    Tab.findKey? t f = some k := by
  unfold Tab.findKey?
  cases h : List.find? (fun e => f e.2) t with
  | none => exact absurd hv (List.find?_eq_none.mp h _ (Tab.look_mem hk))
  | some e => exact congrArg some (hu e.1 e.2 (Tab.mem_look ht (List.mem_of_find?_eq_some h))
      (List.find?_some (p := fun e : Nat × α => f e.2) h))

namespace State

variable {s : State} {p k : Nat} {r : Revocation}

theorem confirmAt_none (h : Tab.look s.revocations k = none) : s.confirmAt p k = s := by
  simp only [confirmAt, h]

theorem confirmAt_other (h : Tab.look s.revocations k = some r) (hp : p ∉ r.drops) : s.confirmAt p k = s := by
  simp only [confirmAt, h, List.contains_eq_mem, hp, decide_false, Bool.false_eq_true, if_false]

theorem confirmAt_more (h : Tab.look s.revocations k = some r) (hp : p ∈ r.drops) (hd : ∃ d ∈ r.drops, d ≠ p) :
    s.confirmAt p k =
      { s with revocations := Tab.write s.revocations k { r with drops := r.drops.filter (fun d => d != p) } } := by
  have hne : ¬(r.drops.filter (fun d => d != p)).isEmpty = true := by
    rw [filter_drops_isEmpty]
    exact fun hall => hd.elim fun d ⟨hd, hne⟩ => hne (hall d hd)
  simp only [confirmAt, h, List.contains_eq_mem, hp, decide_true, if_true, completeIfEmpty, Tab.look_write_self, if_neg hne]

/-- R120: the record of a completed revocation. -/
def completed (s : State) (r : Revocation) : State :=
  s.logCard .revocationComplete .unit r.card ([byte (causeCode r.cause)] ++ le 2 r.index)

theorem confirmAt_last (h : Tab.look s.revocations k = some r) (hp : p ∈ r.drops) (hd : ∀ d ∈ r.drops, d = p) :
    s.confirmAt p k = { s.completed r with
      revocations := Tab.clear (Tab.write s.revocations k { r with drops := r.drops.filter (fun d => d != p) }) k } := by
  have he : (r.drops.filter (fun d => d != p)).isEmpty = true := filter_drops_isEmpty.mpr hd
  simp only [confirmAt, h, List.contains_eq_mem, hp, decide_true, if_true, completeIfEmpty, Tab.look_write_self, if_pos he,
    completed, logCard, handOver_revocations]

theorem confirmAt_places (s : State) (p k : Nat) : (s.confirmAt p k).places = s.places := by
  cases h : Tab.look s.revocations k with
  | none => rw [confirmAt_none h]
  | some r =>
    by_cases hp : p ∈ r.drops
    · by_cases hd : ∃ d ∈ r.drops, d ≠ p
      · rw [confirmAt_more h hp hd]
      · rw [confirmAt_last h hp (by simpa using hd)]
        exact (logCard_ch ..).places_eq
    · rw [confirmAt_other h hp]

/-- R118 to R120: the record confirmed loses the drop, and every other stays. -/
theorem confirmAt_record (hs : s.Canonical) (p k j : Nat) : Tab.look (s.confirmAt p k).revocations j =
    if j = k then (Tab.look s.revocations k).bind (Revocation.without p) else Tab.look s.revocations j := by
  by_cases hj : j = k
  · subst hj
    rw [if_pos rfl]
    cases h : Tab.look s.revocations j with
    | none => rw [confirmAt_none h, h]; rfl
    | some r =>
      rw [Option.bind_some]
      by_cases hp : p ∈ r.drops
      · by_cases hd : ∃ d ∈ r.drops, d ≠ p
        · rw [confirmAt_more h hp hd, Revocation.without_more hp hd, Tab.look_write_self]
        · have hall : ∀ d ∈ r.drops, d = p := by simpa using hd
          rw [confirmAt_last h hp hall, Revocation.without_last hp hall,
            Tab.look_clear_self _ _ (Tab.write_rising _ _ hs.revocations)]
      · rw [confirmAt_other h hp, Revocation.without_self hp, h]
  · rw [if_neg hj]
    cases h : Tab.look s.revocations k with
    | none => rw [confirmAt_none h]
    | some r =>
      by_cases hp : p ∈ r.drops
      · by_cases hd : ∃ d ∈ r.drops, d ≠ p
        · rw [confirmAt_more h hp hd, Tab.look_write_ne _ _ hj]
        · rw [confirmAt_last h hp (by simpa using hd), Tab.look_clear_ne _ hj, Tab.look_write_ne _ _ hj]
      · rw [confirmAt_other h hp]

/-- The same over several records. -/
theorem confirms_record {l : List Nat} (hl : l.Nodup) {s : State} (hs : s.Canonical) (p j : Nat) :
    Tab.look (l.foldl (confirmAt p) s).revocations j =
      if j ∈ l then (Tab.look s.revocations j).bind (Revocation.without p) else Tab.look s.revocations j := by
  induction l generalizing s with
  | nil => rfl
  | cons k l ih =>
    obtain ⟨hk, hl⟩ := List.nodup_cons.mp hl
    rw [List.foldl_cons, ih hl ((confirmAt_ch p s k).canonical hs), confirmAt_record hs]
    by_cases hj : j = k
    · subst hj; simp [hk]
    · simp [hj]

theorem confirms_places (l : List Nat) (s : State) (p : Nat) : (l.foldl (confirmAt p) s).places = s.places := by
  induction l generalizing s with
  | nil => rfl
  | cons k l ih => exact (ih _).trans (confirmAt_places s p k)

/-! ## A confirmed CACHE_REMOVE (R118) -/

/-- The directory without the entry removed. -/
def removedEntry (slot i p : Nat) (s : State) : State :=
  s.modPlace p (Place.dropDir (fun d => d.slot == slot && d.index == i && match d.state with
    | .removing _ => true
    | .adding _ => false
    | .held => false))

theorem removedEntry_ch (slot i p : Nat) (s : State) : Changes [.places] s (s.removedEntry slot i p) := dropDir_ch s p _

theorem removeConfirmed_places (s : State) (p slot i : Nat) :
    (s.removeConfirmed p slot i).places = (s.removedEntry slot i p).places := by
  unfold removeConfirmed
  simp only
  split
  · rfl
  · exact confirmAt_places ..

/-- R118: the entry is gone. -/
theorem removeConfirmed_gone {s : State} (hs : s.Canonical) (p slot i : Nat) :
    ∀ d ∈ ((s.removeConfirmed p slot i).place p).directory, ∀ y, d ≠ ⟨slot, i, .removing y⟩ := by
  rw [place_congr (removeConfirmed_places ..), removedEntry, place_modPlace _ _ _ _ hs.places.1, if_pos rfl]
  rintro d hd y rfl
  simpa using (List.mem_filter.mp hd).2

theorem removeConfirmed_eq {s : State} (hs : s.Canonical) {p slot i k : Nat} {r : Revocation}
    (hr : Tab.look s.revocations k = some r) (hi : r.index = i) (hp : p ∈ r.drops)
    (hu : ∀ j x, Tab.look s.revocations j = some x → x.index = i → j = k) :
    s.removeConfirmed p slot i = (s.removedEntry slot i p).confirmAt p k := by
  have hfind : Tab.findKey? s.revocations (fun r => r.index == i && r.drops.contains p) = some k :=
    Tab.findKey_unique hs.revocations hr (by simp [hi, hp]) fun j x hx h => hu j x hx (by
      simp only [Bool.and_eq_true, beq_iff_eq] at h
      exact h.1)
  unfold removeConfirmed
  simp only
  split
  · rename_i h
    exact nomatch hfind.symm.trans h
  · rename_i h
    obtain rfl := Option.some.inj (hfind.symm.trans h)
    rfl

/-- R120: the record of a revocation that has lost its last drop. -/
theorem confirmAt_ring {s : State} {p k : Nat} {r : Revocation} (hr : Tab.look s.revocations k = some r) (hp : p ∈ r.drops)
    (hd : ∀ d ∈ r.drops, d = p) (hj : s.journal.storable = true) :
    ∃ x, (s.confirmAt p k).journal.ring = s.journal.ring ++ [x] ∧ x.kind = .revocationComplete ∧ x.card = some r.card ∧
      x.detail = [byte (causeCode r.cause)] ++ le 2 r.index := by
  rw [confirmAt_last hr hp hd]
  exact ⟨_, handOver_ring _ hj, rfl, rfl, rfl⟩

/-! ## A confirmed flush (R119) -/

/-- A place after a confirmed flush. -/
def flushedPlace (pl : Place) : Place :=
  { (pl.dropDir (fun d => !survivesFlush d)).withdraw isAnyRemove with suspect := false, flush := none }

/-- The state whose records a confirmed flush confirms. -/
def flushedQueue (p : Nat) (s : State) : State :=
  (s.modPlace p (Place.dropDir (fun d => !survivesFlush d))).modPlace p (Place.withdraw isAnyRemove)

theorem flushedQueue_ch (p : Nat) (s : State) : Changes [.places] s (s.flushedQueue p) :=
  (dropDir_ch s p _).comp (modPlace_ch _ p (Place.withdraw_ok _))

theorem flushConfirmed_eq (p : Nat) (s : State) : s.flushConfirmed p =
    ((Tab.keys s.revocations).foldl (confirmAt p) (s.flushedQueue p)).modPlace p
      (fun pl => { pl with suspect := false, flush := none }) := rfl

theorem flushConfirmed_place {s : State} (hs : s.Canonical) (p q : Nat) :
    (s.flushConfirmed p).place q = if q = p then flushedPlace (s.place p) else s.place q := by
  have hplaces := confirms_places (Tab.keys s.revocations) (s.flushedQueue p) p
  have hqueue := (flushedQueue_ch p s).canonical hs
  rw [flushConfirmed_eq, place_modPlace _ _ _ _ (by rw [hplaces]; exact hqueue.places.1), place_congr hplaces,
    place_congr hplaces]
  have hdrop : ((s.modPlace p (Place.dropDir (fun d => !survivesFlush d)))).Canonical := (dropDir_ch ..).canonical hs
  simp only [flushedQueue, place_modPlace _ _ _ _ hdrop.places.1, place_modPlace _ _ _ _ hs.places.1, if_true]
  split <;> rfl

/-- R119: every record loses the drop. -/
theorem flushConfirmed_record {s : State} (hs : s.Canonical) (p k : Nat) :
    Tab.look (s.flushConfirmed p).revocations k = (Tab.look s.revocations k).bind (Revocation.without p) := by
  have h := confirms_record (Tab.keys_nodup hs.revocations) ((flushedQueue_ch p s).canonical hs) p k
  rw [(flushedQueue_ch p s).revocations_eq] at h
  refine h.trans ?_
  split
  · rfl
  · rename_i hk
    rw [Tab.look_none_iff.mpr hk]
    rfl

theorem survivesFlush_iff (d : DirEntry) : survivesFlush d = decide (d.state = .adding .queued ∨ d.state = .adding .owed) := by
  unfold survivesFlush
  cases d.state with
  | adding st => cases st <;> rfl
  | held => rfl
  | removing st => rfl

theorem flushedPlace_directory (pl : Place) : (flushedPlace pl).directory =
    pl.directory.filter (fun d => decide (d.state = .adding .queued ∨ d.state = .adding .owed)) := by
  simp only [flushedPlace, Place.withdraw, Place.dropDir, Bool.not_not, survivesFlush_iff]

theorem flushedPlace_waiting {pl : Place} {x : QEntry} (hx : x ∈ (flushedPlace pl).waiting) :
    x ∈ pl.waiting ∧ ∀ a i, x.cmd ≠ .cacheRemove a i := by
  obtain ⟨hw, hr⟩ := List.mem_filter.mp (show x ∈ pl.waiting.filter (fun e => !isAnyRemove e.cmd) from hx)
  exact ⟨hw, fun a i h => by simp [h, isAnyRemove] at hr⟩

/-! ## The reload requested (R109) -/

theorem startReload_keeps {s : State} (hs : s.Canonical) {g a : Nat} (ha : a ∈ (s.seg g).requests) :
    let x := (s.startReload g).seg g
    (x.terminal = false ∧ x.served = a) ∨ a ∈ x.requests := by
  unfold startReload
  simp only
  split
  · cases h : nextServed (s.seg g) with
    | none => exact .inr ha
    | some b =>
      simp only
      rw [seg_setSeg _ _ _ _ hs.segs.1, if_pos rfl]
      by_cases hab : a = b
      · exact .inl ⟨rfl, hab.symm⟩
      · exact .inr (List.mem_filter.mpr ⟨ha, by simpa using hab⟩)
  · exact .inr ha

theorem requestReload_asked {s : State} (hs : s.Canonical) (p : Nat) : (s.requestReload p).reloadAsked p := by
  unfold requestReload
  simp only
  split
  · rename_i h
    refine .inl ?_
    rw [seg_setSeg _ _ _ _ hs.segs.1, if_pos rfl]
    exact h
  · refine startReload_keeps ((setSeg_ch ..).canonical hs) ?_
    rw [seg_setSeg _ _ _ _ hs.segs.1, if_pos rfl]
    exact mem_insertNat.mpr (.inl rfl)

theorem suspectFlushDone_asked {s : State} (hs : s.Canonical) {p : Nat} (hp : (s.place p).reachable = true) :
    (s.suspectFlushDone p).reloadAsked p := by
  rw [suspectFlushDone, if_pos hp]
  exact requestReload_asked ((flushConfirmed_ch p s).canonical hs) p

end State

end Sys2Proof.Machine
end

