-- ==== Sys2Proof/Proofs/Responses.lean ====
section
/-! O36: a drop's valid response in its parts, what each confirmation does at its source, and what a resync settles. -/

set_option Elab.async false

namespace Sys2Proof.Machine

/-! ## Commands and their answers (R71) -/

theorem expects_iff (c : LineCmd) (ev : LineEvent) : State.expects c ev = true ↔
    (ev = .done ∧ c ≠ .identify ∧ c ≠ .backlogNext) ∨ (ev = .stale ∧ ∃ tag out, c = .verdict tag out) ∨
    (c = .identify ∧ ∃ k n, ev = .identity k n) ∨
    (c = .backlogNext ∧ (ev = .backlogEnd ∨ ∃ card tag d age, ev = .backlog card tag d age)) := by
  cases c with
  | verdict | identify | backlogNext | remoteUnlock | holdOpen | secure | cacheAdd | cacheRemove | cacheFlush =>
    cases ev <;> simp [State.expects]

namespace State

/-- R62: BACKLOG_NEXT is asked for. -/
theorem backlogRule_eq (s : State) (p : Nat) :
    ((s.place p).backlog = true ∧ (∀ x ∈ (s.place p).queue, x.cmd ≠ .backlogNext) →
      s.backlogRule p = s.setPlace p ((s.place p).offer .backlogNext)) ∧
    (¬((s.place p).backlog = true ∧ ∀ x ∈ (s.place p).queue, x.cmd ≠ .backlogNext) → s.backlogRule p = s) := by
  have hasks : ((s.place p).backlog && !(s.place p).queue.any (fun e => isBacklogNext e.cmd)) = true ↔
      (s.place p).backlog = true ∧ ∀ x ∈ (s.place p).queue, x.cmd ≠ .backlogNext := by
    simp [isBacklogNext]
  unfold backlogRule
  simp only [hasks]
  exact ⟨fun h => if_pos h, fun h => if_neg h⟩

theorem takeAnswer_expected {s : State} {p : Nat} {e : Exchange} {r : Response} {q : QEntry} (hc : e.carried = some q)
    (hd : (s.place p).delivery = some q) (he : expects q.cmd r.event = true) :
    s.takeAnswer p e r = (s.confirm p q.cmd r.event).nextBacklog p q.cmd := by
  simp only [takeAnswer, hc, hd, he, and_self, if_true]

theorem takeAnswer_other {s : State} {p : Nat} {e : Exchange} {r : Response} {q : QEntry} (hc : e.carried = some q)
    (h : (s.place p).delivery ≠ some q ∨ expects q.cmd r.event = false) : s.takeAnswer p e r = s := by
  simp only [takeAnswer, hc]
  exact if_neg fun ⟨hd, he⟩ => h.elim (fun h => h hd) fun h => by rw [h] at he; cases he

/-- R62, R71: an expected answer, and the next BACKLOG_NEXT that it asks for. -/
theorem takeAnswer_confirms {s : State} {p : Nat} {e : Exchange} {r : Response} {q : QEntry} (hc : e.carried = some q)
    (hd : (s.place p).delivery = some q) (he : expects q.cmd r.event = true) : let t := s.confirm p q.cmd r.event
    let asks := q.cmd = .backlogNext ∧ (t.place p).backlog = true ∧ ∀ x ∈ (t.place p).queue, x.cmd ≠ .backlogNext
    (asks → s.takeAnswer p e r = t.setPlace p ((t.place p).offer .backlogNext)) ∧ (¬asks → s.takeAnswer p e r = t) := by
  rw [takeAnswer_expected hc hd he, nextBacklog]
  obtain ⟨hyes, hno⟩ := (s.confirm p q.cmd r.event).backlogRule_eq p
  by_cases hq : q.cmd = .backlogNext
  · rw [if_pos hq]
    exact ⟨fun ⟨_, h⟩ => hyes h, fun h => hno fun h' => h ⟨hq, h'⟩⟩
  · rw [if_neg hq]
    exact ⟨fun h => absurd h.1 hq, fun _ => rfl⟩

/-- R62, R68: a drop's valid response is taken in its parts. -/
theorem responseReceived_drop {g : Nat} {s : State} {frame : List Byte} {e : Exchange} {r : Response}
    (he : (s.seg g).exchange = some e) (hk : e.kind ≠ .test) (ha : e.addr ≠ 0) (hr : validResponse e frame = some r) :
    s.responseReceived g frame = (s.endExchange g e).dropResponse (placeOf g e.addr) e r := by
  simp only [responseReceived, he, hr, validExchange, hk, ha, if_false]

/-! ## Zone commands (R40) -/

theorem markHoldDone_eq (m : ZoneMark) :
    Place.markHoldDone m = if m = .secureOwed ∨ m = .secureQueued then m else .none := by
  cases m <;> rfl

theorem markSecureDone_eq (m : ZoneMark) :
    Place.markSecureDone m = if m = .holdOwed ∨ m = .holdQueued then m else .none := by
  cases m <;> rfl

theorem holdOpenDone_spec (pl : Place) : (pl.holdOpenDone).holding = true ∧
    pl.holdOpenDone.mark = (if pl.mark = .secureOwed ∨ pl.mark = .secureQueued then pl.mark else .none) ∧
    pl.holdOpenDone.doorState = (if pl.doorState = .unknown then .unknown else .released) := by
  unfold Place.holdOpenDone
  simp only
  split
  · rename_i h
    exact ⟨rfl, markHoldDone_eq _, h⟩
  · exact ⟨rfl, markHoldDone_eq _, rfl⟩

theorem secureDone_spec (pl : Place) : (pl.secureDone).holding = false ∧
    pl.secureDone.mark = (if pl.mark = .holdOwed ∨ pl.mark = .holdQueued then pl.mark else .none) ∧
    (pl.doorState = .unknown → pl.secureDone.doorState = .unknown) ∧
    ∀ x, pl.doorState ≠ .unknown → pl.accepted = some x →
      pl.secureDone.doorState = if x.isOpen then .openForced else .secure := by
  unfold Place.secureDone
  simp only
  by_cases h : pl.doorState = .unknown
  · rw [if_pos h]
    exact ⟨rfl, markSecureDone_eq _, fun h => h, fun x hx => absurd h hx⟩
  · rw [if_neg h]
    cases ha : pl.accepted with
    | none => exact ⟨rfl, markSecureDone_eq _, fun hu => absurd hu h, fun x _ hx => nomatch hx⟩
    | some c => exact ⟨rfl, markSecureDone_eq _, fun hu => absurd hu h, fun x _ hx => by cases hx; rfl⟩

/-- R40: the two zone commands at a lock. -/
theorem zoneCmd_eq {s : State} {p : Nat} (ev : LineEvent) (hl : (s.place p).door.isLocked = true) :
    s.handAnswer p .holdOpen ev = s.modPlace p Place.holdOpenDone ∧
      s.handAnswer p .secure ev = s.modPlace p Place.secureDone := by
  simp only [handAnswer, hl, if_true, and_self]

/-! ## Cache commands (R105, R107) -/

theorem addConfirmed_directory {s : State} (hs : s.Canonical) (p slot i : Nat) :
    ((s.addConfirmed p slot i).place p).directory = (s.place p).directory.map (fun d =>
      if d.slot = slot ∧ d.index = i ∧ ∃ x ∈ [CmdStatus.queued, .carried, .owed, .doubtful], d.state = .adding x then
        { d with state := .held } else d) := by
  rw [addConfirmed, place_modPlace _ _ _ _ hs.places.1, if_pos rfl]
  refine List.map_congr_left fun d _ => ?_
  obtain ⟨sl, j, st⟩ := d
  by_cases h : sl = slot ∧ j = i
  · cases st with
    | adding x => cases x <;> simp [h]
    | held | removing => simp [h]
  · rw [if_neg h, if_neg fun h' => h ⟨h'.1, h'.2.1⟩]

theorem settleAdd_acted {s : State} (hs : s.Canonical) (p slot card i : Nat) :
    ((s.settleDoubt p (.cacheAdd slot card i) true).place p).directory = (s.place p).directory.map (fun d =>
      if d.slot = slot ∧ d.index = i ∧ d.state = .adding .doubtful then { d with state := .held } else d) := by
  rw [settleDoubt, if_pos rfl, place_modPlace _ _ _ _ hs.places.1, if_pos rfl]
  refine List.map_congr_left fun d _ => ?_
  obtain ⟨sl, j, st⟩ := d
  by_cases h : sl = slot ∧ j = i
  · cases st with
    | adding x => cases x <;> simp [h]
    | held | removing => simp [h]
  · rw [if_neg h, if_neg fun h' => h ⟨h'.1, h'.2.1⟩]

theorem undoubt_directory (pl : Place) (slot i : Nat) : (undoubt pl slot i).directory = pl.directory.map (fun d =>
    if d.slot = slot ∧ d.index = i ∧ d.state = .removing .doubtful then { d with state := .removing .owed }
    else if d.slot = slot ∧ d.index = i ∧ d.state = .adding .doubtful then { d with state := .adding .owed } else d) := by
  refine List.map_congr_left fun d _ => ?_
  obtain ⟨sl, j, st⟩ := d
  by_cases h : sl = slot ∧ j = i
  · cases st with
    | adding x => cases x <;> simp [h]
    | held => simp [h]
    | removing x => cases x <;> simp [h]
  · rw [if_neg h, if_neg fun h' => h ⟨h'.1, h'.2.1⟩, if_neg fun h' => h ⟨h'.1, h'.2.1⟩]

theorem settleAdd_missed {s : State} (hs : s.Canonical) (p slot card i : Nat)
    (h : ∀ d ∈ (s.place p).directory, d.slot = slot → d.index = i → d.state = .adding .doubtful) :
    ((s.settleDoubt p (.cacheAdd slot card i) false).place p).directory = (s.place p).directory.map (fun d =>
      if d.slot = slot ∧ d.index = i then { d with state := .adding .owed } else d) := by
  rw [settleDoubt, if_neg (by decide)]
  split
  · rw [place_modPlace _ _ _ _ hs.places.1, if_pos rfl, undoubt_directory]
    refine List.map_congr_left fun d hd => ?_
    by_cases hm : d.slot = slot ∧ d.index = i
    · have hst := h d hd hm.1 hm.2
      simp [hm, hst]
    · rw [if_neg hm, if_neg fun h' => hm ⟨h'.1, h'.2.1⟩, if_neg fun h' => hm ⟨h'.1, h'.2.1⟩]
  · rename_i hany
    have hnone (d : DirEntry) (hd : d ∈ (s.place p).directory) : ¬(d.slot = slot ∧ d.index = i) := fun hm =>
      hany (List.any_eq_true.mpr ⟨d, hd, by simp [hm, h d hd hm.1 hm.2]⟩)
    exact ((List.map_congr_left (g := id) fun d hd => if_neg (hnone d hd)).trans (List.map_id _)).symm

theorem settleRemove_missed {s : State} (hs : s.Canonical) (p slot i : Nat) :
    ((s.settleDoubt p (.cacheRemove slot i) false).place p).directory = (s.place p).directory.map (fun d =>
      if d.slot = slot ∧ d.index = i ∧ d.state = .removing .doubtful then { d with state := .removing .owed }
      else if d.slot = slot ∧ d.index = i ∧ d.state = .adding .doubtful then { d with state := .adding .owed } else d) := by
  rw [settleDoubt, if_neg (by decide), place_modPlace _ _ _ _ hs.places.1, if_pos rfl, undoubt_directory]

theorem settleFlush_eq {s : State} {p : Nat} (h : (s.place p).flush = some .doubtful) :
    s.settleDoubt p (.cacheFlush false) true = s.suspectFlushDone p ∧
      s.settleDoubt p (.cacheFlush false) false = s.setPlace p { s.place p with flush := some .owed } := by
  unfold settleDoubt
  simp only
  rw [if_pos h, if_pos h]
  exact ⟨rfl, rfl⟩

/-- R105: an echo settles nothing of a command that keeps no status. -/
theorem settleDoubt_other (s : State) (p : Nat) {c : LineCmd} (acted : Bool)
    (hc : c.cls = 1 ∨ c = .identify ∨ c = .backlogNext) : s.settleDoubt p c acted = s := by
  cases c with
  | verdict | remoteUnlock | holdOpen | secure | identify | backlogNext => rfl
  | cacheAdd | cacheRemove | cacheFlush => simp [LineCmd.cls] at hc

/-! ## What settling a doubt leaves of the line's own state (R72, R73) -/

/-- The command in delivery, the doubt and the next bit stay. -/
structure LineKept (a b : Place) : Prop where
  delivery : b.delivery = a.delivery
  uncertain : b.uncertain = a.uncertain
  departed : b.departed = a.departed
  nextBit : b.nextBit = a.nextBit

theorem LineKept.refl (a : Place) : LineKept a a := ⟨rfl, rfl, rfl, rfl⟩

theorem LineKept.of_places {s t : State} (h : t.places = s.places) (p : Nat) : LineKept (s.place p) (t.place p) := by
  rw [place_congr h]
  exact .refl _

theorem LineKept.modPlace {s : State} (hs : s.Canonical) (p : Nat) {f : Place → Place}
    (hf : LineKept (s.place p) (f (s.place p))) : LineKept (s.place p) ((s.modPlace p f).place p) := by
  rw [place_modPlace _ _ _ _ hs.places.1, if_pos rfl]
  exact hf

theorem removeConfirmed_line {s : State} (hs : s.Canonical) (p slot i : Nat) :
    LineKept (s.place p) ((s.removeConfirmed p slot i).place p) := by
  rw [place_congr (removeConfirmed_places ..)]
  exact .modPlace hs p ⟨rfl, rfl, rfl, rfl⟩

theorem flushedPlace_line (pl : Place) : LineKept pl (flushedPlace pl) := ⟨rfl, rfl, rfl, rfl⟩

theorem suspectFlushDone_line {s : State} (hs : s.Canonical) (p : Nat) :
    LineKept (s.place p) ((s.suspectFlushDone p).place p) := by
  have hflush : LineKept (s.place p) ((s.flushConfirmed p).place p) := by
    rw [flushConfirmed_place hs, if_pos rfl]
    exact flushedPlace_line _
  unfold suspectFlushDone
  split
  · rw [place_congr (requestReload_ch ..).places_eq]
    exact hflush
  · exact hflush

theorem settleDoubt_line {s : State} (hs : s.Canonical) (p : Nat) (c : LineCmd) (acted : Bool) :
    LineKept (s.place p) ((s.settleDoubt p c acted).place p) := by
  cases c with
  | verdict | remoteUnlock | holdOpen | secure | identify | backlogNext => exact .refl _
  | cacheAdd slot card i =>
    unfold settleDoubt
    simp only
    split
    · exact .modPlace hs p ⟨rfl, rfl, rfl, rfl⟩
    · split
      · exact .modPlace hs p ⟨rfl, rfl, rfl, rfl⟩
      · exact .refl _
  | cacheRemove slot i =>
    unfold settleDoubt
    simp only
    split
    · exact removeConfirmed_line hs p slot i
    · exact .modPlace hs p ⟨rfl, rfl, rfl, rfl⟩
  | cacheFlush join =>
    cases join with
    | true => exact .refl _
    | false =>
      unfold settleDoubt
      simp only
      split
      · split
        · exact suspectFlushDone_line hs p
        · exact .modPlace hs p ⟨rfl, rfl, rfl, rfl⟩
      · exact .refl _

/-! ## A plain poll's response (R72, R73) -/

theorem settleDeparted_open {s : State} {p : Nat} {r : Response} {d : Departed} (hd : (s.place p).departed = some d)
    (hn : d.settled = false) : s.settleDeparted p r =
      ((s.setPlace p { s.place p with departed := some { d with settled := true } }).settleDoubt p d.cmd
        (decide (r.echo = d.bit))).reoffer p := by
  simp only [settleDeparted, hd, hn]
  rfl

theorem settleDeparted_done {s : State} {p : Nat} {r : Response}
    (h : ∀ d, (s.place p).departed = some d → d.settled = true) : s.settleDeparted p r = s := by
  unfold settleDeparted
  cases hd : (s.place p).departed with
  | none => rfl
  | some d => exact if_pos (h d hd)

theorem departedBacklog_acted {s : State} {p : Nat} {r : Response} {d : Departed} (hd : (s.place p).departed = some d)
    (hc : d.cmd = .backlogNext) (he : r.echo = d.bit) : s.departedBacklog p r = s.takeBacklog p r.event := by
  simp only [departedBacklog, hd, hc, he, and_self, if_true]

theorem departedBacklog_other {s : State} {p : Nat} {r : Response}
    (h : ∀ d, (s.place p).departed = some d → d.cmd ≠ .backlogNext ∨ r.echo ≠ d.bit) : s.departedBacklog p r = s := by
  unfold departedBacklog
  cases hd : (s.place p).departed with
  | none => rfl
  | some d => exact if_neg fun ⟨hc, he⟩ => (h d hd).elim (fun h => h hc) (fun h => h he)

theorem settleDeparted_place {s : State} (hs : s.Canonical) (p : Nat) (r : Response) : let t := s.settleDeparted p r
    (t.place p).nextBit = (s.place p).nextBit ∧ ((s.place p).delivery = none → (t.place p).uncertain = (s.place p).uncertain ∧
      ∀ d, (s.place p).departed = some d → (t.place p).departed = some { d with settled := true }) := by
  by_cases hdone : ∀ d, (s.place p).departed = some d → d.settled = true
  · rw [settleDeparted_done hdone]
    refine ⟨rfl, fun _ => ⟨rfl, fun d hd => ?_⟩⟩
    rw [hd, ← hdone d hd]
  · simp only [not_forall, Bool.not_eq_true] at hdone
    obtain ⟨d, hd, hopen⟩ := hdone
    rw [settleDeparted_open hd hopen]
    have hset : Changes [.places] s (s.setPlace p { s.place p with departed := some { d with settled := true } }) :=
      setPlace_same s p rfl
    have hplace := place_setPlace s p p { s.place p with departed := some { d with settled := true } } hs.places.1
    rw [if_pos rfl] at hplace
    generalize s.setPlace p { s.place p with departed := some { d with settled := true } } = u at hset hplace
    have hu := hset.canonical hs
    have hline := settleDoubt_line hu p d.cmd (decide (r.echo = d.bit))
    obtain ⟨hcore, hcalm⟩ := reoffer_own ((settleDoubt_ch p d.cmd (decide (r.echo = d.bit)) u).canonical hu) p
    refine ⟨?_, fun hnone => ?_⟩
    · exact (congrArg Place.nextBit hcore :).trans (hline.nextBit.trans (by rw [hplace]))
    · obtain ⟨-, huncertain, hdeparted⟩ := hcalm.kept (hline.delivery.trans (by rw [hplace]; exact hnone))
      refine ⟨huncertain.trans (hline.uncertain.trans (by rw [hplace])), fun d' hd' => ?_⟩
      obtain rfl := Option.some.inj (hd.symm.trans hd')
      exact hdeparted.trans (hline.departed.trans (by rw [hplace]))

/-- A resync's response up to the end of the doubt. -/
def resynced (p : Nat) (r : Response) (s : State) : State :=
  ((s.setPlace p { s.place p with nextBit := !r.echo }).settleDeparted p r).departedBacklog p r

theorem resynced_ch (p : Nat) (r : Response) (s : State) : Changes kRev s (s.resynced p r) := by
  have hset : Changes [.places] s (s.setPlace p { s.place p with nextBit := !r.echo }) := setPlace_same s p rfl
  exact ((Changes.up hset).comp (settleDeparted_ch p r _)).comp (departedBacklog_ch p r _)

theorem resynced_place {s : State} (hs : s.Canonical) (p : Nat) (r : Response) : let t := s.resynced p r
    (t.place p).nextBit = !r.echo ∧ ((s.place p).delivery = none → (t.place p).uncertain = (s.place p).uncertain ∧
      ∀ d, (s.place p).departed = some d → (t.place p).departed = some { d with settled := true }) := by
  have hset : Changes [.places] s (s.setPlace p { s.place p with nextBit := !r.echo }) := setPlace_same s p rfl
  have h := settleDeparted_place (hset.canonical hs) p r
  simp only [resynced, place_congr (departedBacklog_ch p r _).places_eq]
  rw [place_setPlace _ _ _ _ hs.places.1, if_pos rfl] at h
  exact h

/-- R72: the events of a drop's own. -/
theorem unsolicited_iff {ev : LineEvent} : LineEvent.unsolicited ev = true ↔
    (∃ card tag, ev = .presentation card tag) ∨ ∃ c taken, ev = .compartment c taken := by
  cases ev <;> simp [LineEvent.unsolicited]

/-- R73: the response to a resync poll: an event of the drop's own leaves the doubt for another response. -/
theorem plainResponse_resync (s : State) (p : Nat) (e : Exchange) (r : Response) (he : e.resync = true) :
    let t := s.resynced p r
    let asks := (∃ card tag, r.event = .presentation card tag) ∨ ∃ c taken, r.event = .compartment c taken
    (asks → s.plainResponse p e r = t) ∧
      (¬asks → s.plainResponse p e r = t.setPlace p { t.place p with uncertain := false, departed := none }) := by
  unfold plainResponse
  simp only [he, if_true, ← unsolicited_iff]
  exact ⟨fun h => if_pos h, fun h => if_neg h⟩

theorem plainResponse_place {s : State} (hs : s.Canonical) (p : Nat) (e : Exchange) (r : Response) (he : e.resync = true) :
    let t := s.plainResponse p e r
    let asks := (∃ card tag, r.event = .presentation card tag) ∨ ∃ c taken, r.event = .compartment c taken
    (¬asks → (t.place p).uncertain = false ∧ (t.place p).departed = none ∧ (t.place p).nextBit = !r.echo) ∧
      (asks → (s.place p).delivery = none → (t.place p).uncertain = (s.place p).uncertain ∧
        ∀ d, (s.place p).departed = some d → (t.place p).departed = some { d with settled := true }) := by
  obtain ⟨hasks, hclear⟩ := plainResponse_resync s p e r he
  obtain ⟨hbit, hkept⟩ := resynced_place hs p r
  refine ⟨fun h => ?_, fun h => ?_⟩
  · rw [hclear h, place_setPlace _ _ _ _ ((resynced_ch p r s).canonical hs).places.1, if_pos rfl]
    exact ⟨rfl, rfl, hbit⟩
  · rw [hasks h]
    exact hkept

/-! ## A confirmed REMOTE_UNLOCK (R56, R61) -/

/-- What a quiet response leaves of the drop of a PRESENT lock: no miss, the condition as it was, no backlog. -/
def quiet (pl : Place) : Place := { pl with misses := 0, candidate := none, backlog := false }

theorem quietResponse {s : State} (hs : s.Canonical) {p : Nat} {r : Response} (hp : (s.place p).presence = .present)
    (hc : (s.place p).accepted = some (condOf r.status)) (hd : (s.place p).door.isUnused = false)
    (hb : r.status.getLsbD 3 = false) :
    Changes [.places] s ((s.heard p r).takeCondition p r) ∧
      ((s.heard p r).takeCondition p r).place p = quiet (s.place p) := by
  have hheard : s.heard p r = s.setPlace p { s.place p with misses := 0 } := by simp only [heard, hp]
  have h1 : Changes [.places] s (s.setPlace p { s.place p with misses := 0 }) := setPlace_same s p rfl
  have hplace : (s.setPlace p { s.place p with misses := 0 }).place p = { s.place p with misses := 0 } := by
    rw [place_setPlace _ _ _ _ hs.places.1, if_pos rfl]
  rw [hheard]
  generalize s.setPlace p { s.place p with misses := 0 } = u at h1 hplace
  have hreport : u.reportCond p (condOf r.status) = u.setPlace p { u.place p with candidate := none } := by
    simp only [reportCond, hplace, hd, hc, Bool.false_eq_true, if_false, if_true]
  have h2 : Changes [.places] u (u.setPlace p { u.place p with candidate := none }) := setPlace_same u p rfl
  have hplace2 : (u.setPlace p { u.place p with candidate := none }).place p = { u.place p with candidate := none } := by
    rw [place_setPlace _ _ _ _ (h1.canonical hs).places.1, if_pos rfl]
  unfold takeCondition
  simp only
  rw [hreport]
  generalize u.setPlace p { u.place p with candidate := none } = v at h2 hplace2
  have hv := (h1.comp h2).canonical hs
  have h3 : Changes [.places] v (v.modPlace p (fun pl => { pl with backlog := r.status.getLsbD 3 })) :=
    modPlace_same v p (fun _ => rfl)
  have hplace3 : (v.modPlace p (fun pl => { pl with backlog := r.status.getLsbD 3 })).place p = quiet (s.place p) := by
    rw [place_modPlace _ _ _ _ hv.places.1, if_pos rfl, hplace2, hplace, hb]
    rfl
  have hrule := (backlogRule_eq (v.modPlace p (fun pl => { pl with backlog := r.status.getLsbD 3 })) p).2
    (by rw [hplace3]; exact fun h => nomatch h.1)
  rw [hrule]
  exact ⟨(h1.comp h2).comp h3, hplace3⟩

/-- What a confirmed unlock leaves of the place. -/
def unlockedPlace (n : Nat) (pl : Place) : Place :=
  { pl with delivery := none, nextBit := !pl.nextBit, doorState := .unlocked, unlockLeft := n }

/-- The confirmation up to the offer of the freed place. -/
def unlockTaken (p n : Nat) (s : State) : State :=
  (s.modPlace p (fun pl => { pl with delivery := none, nextBit := !pl.nextBit })).modPlace p (Place.unlock n)

theorem confirm_unlock {s : State} (hs : s.Canonical) {p n : Nat} (ev : LineEvent) (hu : (s.place p).door.isUnused = false)
    (hd : (s.place p).doorState = .secure ∨ (s.place p).doorState = .unlocked) :
    let t := s.confirm p (.remoteUnlock n) ev
    ((t.place p).delivery = none ∧ (t.place p).nextBit = !(s.place p).nextBit ∧ (t.place p).doorState = .unlocked ∧
      (t.place p).unlockLeft = n ∧ (t.place p).misses = (s.place p).misses) ∧
      (s.journal.storable = true → ∃ x, t.journal.ring = s.journal.ring ++ [x] ∧ x.kind = .remoteOpen ∧
        x.spot = .drop p ∧ x.detail = le 2 n ∧ x.marks.undelivered = false) ∧
      t.creds = s.creds ∧ t.pendingCharges = s.pendingCharges ∧ t.revocations = s.revocations := by
  have hout : Changes [.places] s (s.modPlace p (fun pl => { pl with delivery := none, nextBit := !pl.nextBit })) := by
    refine modPlace_ch s p (fun pl h => ?_)
    simp only [Place.queueLen_eq, Option.toList_none, List.length_nil] at h ⊢
    omega
  have hplace1 : (s.modPlace p (fun pl => { pl with delivery := none, nextBit := !pl.nextBit })).place p =
      { s.place p with delivery := none, nextBit := !(s.place p).nextBit } := by
    rw [place_modPlace _ _ _ _ hs.places.1, if_pos rfl]
  have htaken : Changes [.places] s (s.unlockTaken p n) := hout.comp (modPlace_same _ p (unlock_same _))
  have hplace : (s.unlockTaken p n).place p = unlockedPlace n (s.place p) := by
    rw [unlockTaken, place_modPlace _ _ _ _ (hout.canonical hs).places.1, if_pos rfl, hplace1]
    rcases hd with h | h <;> simp only [Place.unlock, unlockedPlace, h]
  have hconfirm : s.confirm p (.remoteUnlock n) ev = ((s.unlockTaken p n).remoteOpened p n false).reoffer p := by
    simp only [confirm, handAnswer, hplace1, hu, Bool.false_eq_true, if_false]
    rfl
  rw [hconfirm]
  generalize s.unlockTaken p n = u at htaken hplace
  have hopened : Changes kLog u (u.remoteOpened p n false) := remoteOpened_ch ..
  have hplace' := (place_congr hopened.places_eq p).trans hplace
  obtain ⟨hcore, hcalm⟩ := reoffer_own (hopened.canonical (htaken.canonical hs)) p
  have hoffer := reoffer_ch p (u.remoteOpened p n false)
  refine ⟨⟨(hcalm.kept (congrArg Place.delivery hplace')).1, (congrArg Place.nextBit hcore :).trans (congrArg Place.nextBit hplace'),
    (congrArg Place.doorState hcore :).trans (congrArg Place.doorState hplace'),
    (congrArg Place.unlockLeft hcore :).trans (congrArg Place.unlockLeft hplace'),
    (congrArg Place.misses hcore :).trans (congrArg Place.misses hplace' :)⟩, fun hj => ?_, ?_, ?_, ?_⟩
  · rw [hoffer.journal_eq, ← htaken.journal_eq]
    exact ⟨_, handOver_ring _ (by rw [htaken.journal_eq]; exact hj), rfl, rfl, rfl, rfl⟩
  · rw [hoffer.creds_eq, hopened.creds_eq, htaken.creds_eq]
  · rw [hoffer.charges_eq, hopened.charges_eq, htaken.charges_eq]
  · rw [hoffer.revocations_eq, hopened.revocations_eq, htaken.revocations_eq]

end State

open State in
/-- The clause of a confirmed REMOTE_UNLOCK: the response is quiet up to its answer, which confirms the command. -/
theorem responseReceived_unlock {g : Nat} {s : State} {frame : List Byte} {e : Exchange} {r : Response} {q : QEntry} {n : Nat}
    (hs : s.Canonical) (he : (s.seg g).exchange = some e) (hk : e.kind ≠ .test) (ha : e.addr ≠ 0) (hc : e.carried = some q)
    (hq : q.cmd = .remoteUnlock n) (hr : validResponse e frame = some r) (hev : r.event = .done)
    (hb : r.status.getLsbD 3 = false) : let p := placeOf g e.addr
    (s.place p).delivery = some q → (s.place p).presence = .present → (s.place p).accepted = some (condOf r.status) →
    (s.place p).door.isLocked = true → (s.place p).doorState = .secure ∨ (s.place p).doorState = .unlocked →
    let t := s.responseReceived g frame
    (t.place p).delivery = none ∧
      (t.place p).nextBit = !(s.place p).nextBit ∧ (t.place p).doorState = .unlocked ∧ (t.place p).unlockLeft = n ∧
      (t.place p).misses = 0 ∧
      (s.journal.storable = true → ∃ x, t.journal.ring = s.journal.ring ++ [x] ∧ x.kind = .remoteOpen ∧
        x.spot = .drop p ∧ x.detail = le 2 n ∧ x.marks.undelivered = false) ∧
      t.creds = s.creds ∧ t.pendingCharges = s.pendingCharges ∧ t.revocations = s.revocations := by
  intro p hd hp hacc hlock hdoor
  have hend := endExchange_ch g e s
  have hsame : (s.endExchange g e).place p = s.place p := place_congr hend.places_eq p
  have hunused : (s.place p).door.isUnused = false := by
    cases hdr : (s.place p).door <;> simp [hdr, DoorRec.isLocked, DoorRec.isUnused, DoorRec.kindCode] at hlock ⊢
  obtain ⟨hquiet, hplace⟩ := quietResponse (hend.canonical hs) (p := p) (r := r) (by rw [hsame, hp]) (by rw [hsame, hacc])
    (by rw [hsame, hunused]) hb
  rw [hsame] at hplace
  rw [responseReceived_drop he hk ha hr, dropResponse]
  generalize ((s.endExchange g e).heard p r).takeCondition p r = u at hquiet hplace
  have hall := (Changes.up (K := kCache) hend).comp hquiet
  have hanswer : (u.takeEvent p r.event).takeAnswer p e r = u.confirm p (.remoteUnlock n) .done := by
    have htake : u.takeEvent p r.event = u := by rw [hev]; rfl
    rw [htake, takeAnswer_expected hc (by rw [hplace]; exact hd) (by rw [hq, hev]; rfl), hq, hev, nextBacklog]
    rfl
  obtain ⟨⟨hdel, hbit, hst, hleft, hmiss⟩, hring, hcreds, hcharges, hrev⟩ := confirm_unlock (hall.canonical hs) (p := p)
    (n := n) .done (by rw [hplace]; exact hunused) (by rw [hplace]; exact hdoor)
  rw [hanswer]
  rw [hplace] at hbit hmiss
  rw [hall.journal_eq] at hring
  exact ⟨hdel, hbit, hst, hleft, hmiss, hring, hcreds.trans hall.creds_eq, hcharges.trans hall.charges_eq,
    hrev.trans hall.revocations_eq⟩

namespace State

/-- The clause of a confirmed CACHE_REMOVE. -/
theorem removeConfirmed_spec {s : State} (hs : s.Canonical) {p slot i k : Nat} {r : Revocation}
    (hr : Tab.look s.revocations k = some r) (hi : r.index = i) (hp : p ∈ r.drops)
    (hu : ∀ j x, Tab.look s.revocations j = some x → x.index = i → j = k) : let t := s.removeConfirmed p slot i
    ((∃ d ∈ r.drops, d ≠ p) →
      Tab.look t.revocations k = some { r with drops := r.drops.filter (fun d => d != p) } ∧ t.journal = s.journal) ∧
    ((∀ d ∈ r.drops, d = p) → Tab.look t.revocations k = none ∧
      (s.journal.storable = true → ∃ x, t.journal.ring = s.journal.ring ++ [x] ∧ x.kind = .revocationComplete ∧
        x.card = some r.card ∧ x.detail = [byte (causeCode r.cause)] ++ le 2 i)) ∧
    (∀ j, j ≠ k → Tab.look t.revocations j = Tab.look s.revocations j) := by
  have hch := removedEntry_ch slot i p s
  have hlook := hch.revocations_eq
  have hjournal := hch.journal_eq
  have hcan := hch.canonical hs
  rw [removeConfirmed_eq hs hr hi hp hu]
  generalize s.removedEntry slot i p = u at *
  have hr' : Tab.look u.revocations k = some r := by rw [hlook, hr]
  have hrecord := confirmAt_record hcan p k
  refine ⟨fun hd => ⟨?_, ?_⟩, fun hd => ⟨?_, fun hj => ?_⟩, fun j hj => ?_⟩
  · rw [hrecord, if_pos rfl, hr', Option.bind_some, Revocation.without_more hp hd]
  · rw [confirmAt_more hr' hp hd]
    exact hjournal
  · rw [hrecord, if_pos rfl, hr', Option.bind_some, Revocation.without_last hp hd]
  · rw [← hjournal, ← hi]
    exact confirmAt_ring hr' hp hd (by rw [hjournal]; exact hj)
  · rw [hrecord, if_neg hj, hlook]

/-- The clause of the zone commands. -/
theorem zoneCmd_spec {s : State} (hs : s.Canonical) {p : Nat} (ev : LineEvent) (hl : (s.place p).door.isLocked = true) :
    let h := s.handAnswer p .holdOpen ev
    let c := s.handAnswer p .secure ev
    (h.place p).holding = true ∧ (c.place p).holding = false ∧
    (h.place p).mark = (if (s.place p).mark = .secureOwed ∨ (s.place p).mark = .secureQueued then (s.place p).mark else .none) ∧
    (c.place p).mark = (if (s.place p).mark = .holdOwed ∨ (s.place p).mark = .holdQueued then (s.place p).mark else .none) ∧
    (h.place p).doorState = (if (s.place p).doorState = .unknown then .unknown else .released) ∧
    ((s.place p).doorState = .unknown → (c.place p).doorState = .unknown) ∧
    (∀ x, (s.place p).doorState ≠ .unknown → (s.place p).accepted = some x →
      (c.place p).doorState = if x.isOpen then .openForced else .secure) ∧
    h = { s with places := h.places } ∧ c = { s with places := c.places } := by
  obtain ⟨hhold, hsecure⟩ := zoneCmd_eq ev hl
  obtain ⟨h1, h2, h3⟩ := holdOpenDone_spec (s.place p)
  obtain ⟨c1, c2, c3, c4⟩ := secureDone_spec (s.place p)
  simp only [hhold, hsecure, place_modPlace _ _ _ _ hs.places.1, if_true]
  exact ⟨h1, c1, h2, c2, h3, c3, c4, rfl, rfl⟩

/-- The clause of a confirmed flush. -/
theorem flushConfirmed_spec {s : State} (hs : s.Canonical) (p : Nat) : let t := s.flushConfirmed p
    (t.place p).directory = (s.place p).directory.filter (fun d =>
      decide (d.state = .adding .queued ∨ d.state = .adding .owed)) ∧
    (t.place p).suspect = false ∧ (t.place p).flush = none ∧
    (∀ x ∈ (t.place p).waiting, x ∈ (s.place p).waiting ∧ ∀ a i, x.cmd ≠ .cacheRemove a i) ∧
    (∀ k r, Tab.look s.revocations k = some r → p ∉ r.drops → Tab.look t.revocations k = some r) ∧
    (∀ k r, Tab.look s.revocations k = some r → p ∈ r.drops → (∃ d ∈ r.drops, d ≠ p) →
      Tab.look t.revocations k = some { r with drops := r.drops.filter (fun d => d != p) }) ∧
    ∀ k r, Tab.look s.revocations k = some r → p ∈ r.drops → (∀ d ∈ r.drops, d = p) →
      Tab.look t.revocations k = none := by
  simp only [flushConfirmed_record hs, flushConfirmed_place hs, if_true]
  refine ⟨flushedPlace_directory _, rfl, rfl, fun x => flushedPlace_waiting, fun k r hr hp => ?_, fun k r hr hp hd => ?_,
    fun k r hr hp hd => ?_⟩
  · rw [hr]
    exact Revocation.without_self hp
  · rw [hr]
    exact Revocation.without_more hp hd
  · rw [hr]
    exact Revocation.without_last hp hd

end State

open State in
/-- Settles O36, clause by clause from the lemmas on the response's parts, the confirmations and the resync. -/
theorem confirmations : Obligations.Confirmations := by
  refine ⟨?_, ?_, ?_, ?_, ?_, expects_iff, fun s p ev hs hl => zoneCmd_spec hs ev hl, ?_, fun s p hs => flushConfirmed_spec hs p,
    fun s p ev hs hp => suspectFlushDone_asked hs hp, ?_, fun s p e r hs he => plainResponse_place hs p e r he, ?_,
    plainResponse_resync, fun s p slot card i hs => ⟨settleAdd_acted hs p slot card i, settleAdd_missed hs p slot card i⟩,
    fun s p slot i hs => ⟨rfl, settleRemove_missed hs p slot i⟩, fun s p _ h => settleFlush_eq h,
    fun s p c acted => settleDoubt_other s p acted⟩
  · intro g s frame e r q n hdue hs he hk ha hc hq hr hev hb p hd hp hacc hlock hdoor
    rw [exec_responseReceived, settle_eq s hdue]
    exact ⟨_, rfl, responseReceived_unlock hs he hk ha hc hq hr hev hb hd hp hacc hlock hdoor⟩
  · intro s p slot i k st r hs _ hr hi hp hu
    exact ⟨removeConfirmed_gone hs p slot i, removeConfirmed_spec hs hr hi hp hu⟩
  · intro g s frame e r hdue he hk ha hr
    rw [exec_responseReceived, settle_eq s hdue, responseReceived_drop he hk ha hr]
    rfl
  · intro s p e r hc
    simp only [takeAnswer, hc]
  · intro s p e r q hc
    exact ⟨takeAnswer_confirms hc, takeAnswer_other hc⟩
  · intro s p slot card i ev hs
    exact ⟨rfl, fun d hd => place_setPlace_ne s _ hd, addConfirmed_directory hs p slot i⟩
  · intro s p e r _ _ he
    simp only [plainResponse, he, Bool.false_eq_true, if_false]
    rfl
  · intro s p r
    exact ⟨fun d => settleDeparted_open, settleDeparted_done, fun d => departedBacklog_acted, departedBacklog_other⟩

end Sys2Proof.Machine
end

