-- ==== Sys2Proof/Proofs/DoorOpen.lean ====
section
/-! O54: a command of class 1 offered to a queue with fewer than four of its class enters it (R74 to R76), and DOOR OPEN
(R61). -/

set_option Elab.async false

namespace Sys2Proof.Machine

/-! ## Offering a command of class 1 -/

namespace Place

theorem onEntered_queue (c : LineCmd) (pl : Place) : (onEntered c pl).waiting = pl.waiting ∧
    (onEntered c pl).queue = pl.queue := by
  cases c with
  | cacheFlush j => cases j <;> exact ⟨rfl, rfl⟩
  | _ => exact ⟨rfl, rfl⟩

theorem onReturned_queue (c : LineCmd) (st : CmdStatus) (pl : Place) : (onReturned c st pl).queue = pl.queue := by
  cases c with
  | cacheFlush j => cases j <;> rfl
  | _ => rfl

theorem class1_congr {a b : Place} (h : b.queue = a.queue) : b.class1 = a.class1 := by rw [class1, class1, h]

theorem insertEntry_perm (e : QEntry) (l : List QEntry) : (insertEntry e l).Perm (e :: l) := by
  induction l with
  | nil => exact .refl _
  | cons x l ih =>
    simp only [insertEntry]
    split
    · exact .refl _
    · exact (ih.cons x).trans (.swap e x l)

/-- The command that enters waits. -/
theorem enter_waits (c : LineCmd) (pl : Place) : ∃ x ∈ (pl.enter c).waiting, x.cmd = c := by
  rw [enter, (onEntered_queue c _).1]
  exact ⟨_, mem_insertEntry.mpr (.inl rfl), rfl⟩

theorem enter_class1 {c : LineCmd} (hc : c.cls = 1) (pl : Place) : (pl.enter c).class1 = pl.class1 + 1 := by
  rw [enter, class1_congr (onEntered_queue c _).2]
  have hperm : (pl.delivery.toList ++ insertEntry ⟨c, pl.nextStamp⟩ pl.waiting).Perm (⟨c, pl.nextStamp⟩ :: pl.queue) :=
    ((insertEntry_perm _ _).append_left _).trans List.perm_middle
  exact ((hperm.filter _).length_eq).trans (by simp [class1, hc])

theorem victim_eq_none {l : List QEntry} (h : victim l = none) : l = [] := by
  cases l with
  | nil => rfl
  | cons e l =>
    simp only [victim] at h
    split at h
    · cases h
    · split at h <;> cases h

/-- The victim is of the lowest class present. -/
theorem cls_le_victim {l : List QEntry} {v : QEntry} (h : victim l = some v) : ∀ e ∈ l, e.cmd.cls ≤ v.cmd.cls := by
  induction l generalizing v with
  | nil => simp
  | cons e l ih =>
    simp only [victim] at h
    split at h
    · rename_i hnone
      cases h
      simp [victim_eq_none hnone]
    · rename_i w hw
      have hle := ih hw
      simp only [evictBefore, Bool.or_eq_true, Bool.and_eq_true, decide_eq_true_eq, beq_iff_eq] at h
      refine List.forall_mem_cons.mpr ?_
      split at h <;> cases h
      · exact ⟨le_rfl, fun x hx => by have := hle x hx; omega⟩
      · exact ⟨by omega, hle⟩

/-- An evicted command of class 2 or 3 leaves the count of class 1. -/
theorem evict_class1 {v : QEntry} (hv : v.cmd.cls ≠ 1) (pl : Place) : (pl.evict v).class1 = pl.class1 := by
  unfold evict
  split
  · rename_i hd
    rw [class1_congr (onReturned_queue ..)]
    simp [class1, queue, depart, hd, hv]
  · rw [class1_congr (onReturned_queue ..)]
    simp only [class1, queue, List.filter_append, List.filter_filter]
    congr 3
    funext e
    by_cases he : e = v
    · simp [he, hv]
    · simp [he]

/-- A full queue with fewer than four commands of class 1 has a victim of another class. -/
theorem victim_of_full {pl : Place} (hroom : pl.hasRoom = false) (h : pl.class1 < 4) :
    ∃ v, victim pl.queue = some v ∧ 1 < v.cmd.cls := by
  have hfull : 4 ≤ pl.queue.length := not_lt.mp (of_decide_eq_false hroom)
  obtain ⟨e, he, hcls⟩ : ∃ e ∈ pl.queue, e.cmd.cls ≠ 1 := by
    by_contra hall
    push Not at hall
    have : pl.class1 = pl.queue.length := by
      rw [class1, List.filter_eq_self.mpr (fun e he => by simp [hall e he])]
    omega
  have hone := e.cmd.one_le_cls
  cases hv : victim pl.queue with
  | none => simp [victim_eq_none hv] at he
  | some v => exact ⟨v, rfl, by have := cls_le_victim hv e he; omega⟩

/-- A command of class 1 enters where fewer than four of its class stand in the queue, in place of another if need be. -/
theorem offer_enters {c : LineCmd} (hc : c.cls = 1) {pl : Place} (h : pl.class1 < 4) :
    ∃ q : Place, pl.offer c = q.enter c ∧ q.class1 = pl.class1 := by
  unfold offer
  cases hroom : pl.hasRoom with
  | true => exact ⟨pl, rfl, rfl⟩
  | false =>
    obtain ⟨v, hv, hcls⟩ := victim_of_full hroom h
    refine ⟨pl.evict v, ?_, evict_class1 (by omega) pl⟩
    simp only [hv, hc, hcls, Bool.false_eq_true, if_false, if_true]

end Place

/-! ## DOOR OPEN -/

section DoorOpenAt

variable {s : State} {p : Nat}

theorem doorOpenAt_notFound (h : (s.place p).door.isLocked = false) : doorOpenAt p s = (s, .refused .notFound []) := by
  simp only [doorOpenAt, h, Bool.not_false, if_true]

theorem doorOpenAt_absent (h : (s.place p).door.isLocked = true) (ha : (s.place p).presence = .absent) :
    doorOpenAt p s = (s, .refused .outOfService []) := by
  simp only [doorOpenAt, h, ha, Bool.not_true, Bool.false_eq_true, if_false, if_true]

theorem doorOpenAt_busy (h : (s.place p).door.isLocked = true) (ha : (s.place p).presence ≠ .absent)
    (hb : 4 ≤ (s.place p).class1) : doorOpenAt p s = (s, .refused .busy []) := by
  simp only [doorOpenAt, h, ha, hb, Bool.not_true, Bool.false_eq_true, if_false, if_true]

theorem doorOpenAt_done (h : (s.place p).door.isLocked = true) (ha : (s.place p).presence ≠ .absent)
    (hb : (s.place p).class1 < 4) :
    doorOpenAt p s = (s.modPlace p (Place.offer (.remoteUnlock (s.place p).door.unlockSeconds)), .done []) := by
  simp only [doorOpenAt, h, ha, Nat.not_le.mpr hb, Bool.not_true, Bool.false_eq_true, if_false]

end DoorOpenAt

/-- What a REMOTE_UNLOCK offered at a place leaves: one more command of class 1 there, and every other place as it was. -/
theorem State.remoteUnlock_offered {s : State} (hs : s.Canonical) {p : Nat} (n : Nat) (h : (s.place p).class1 < 4) :
    let u := s.modPlace p (Place.offer (.remoteUnlock n))
    u = { s with places := u.places } ∧ (∀ d, d ≠ p → u.place d = s.place d) ∧
      (∃ x ∈ (u.place p).waiting, x.cmd = .remoteUnlock n) ∧ (u.place p).class1 = (s.place p).class1 + 1 ∧
      (u.place p).doorState = (s.place p).doorState := by
  intro u
  have hplace : u.place p = (s.place p).offer (.remoteUnlock n) := by
    rw [State.place_modPlace _ _ _ _ hs.places.1, if_pos rfl]
  have hstate : (u.place p).doorState = (s.place p).doorState := by
    rw [hplace]
    exact (congrArg Place.doorState (Place.offer_offered _ (s.place p)).core :)
  obtain ⟨q, henter, hcount⟩ := Place.offer_enters (c := .remoteUnlock n) rfl h
  refine ⟨rfl, fun d hd => State.place_setPlace_ne s _ hd, ?_, ?_, hstate⟩
  · rw [hplace, henter]
    exact Place.enter_waits _ q
  · rw [hplace, henter, Place.enter_class1 rfl, hcount]

/-- A DOOR OPEN that is taken answers as its body does. -/
theorem exec_doorOpen_takes {q : Request} {s t : State} {a : Answer} (h : s.Takes 0x09 q) (hb : doorOpenBody q s = (t, a)) :
    exec (.doorOpen q) s = .next (t.answer 0x09 q a) := by
  rw [exec_doorOpen, runRequest_takes h, hb]

/-- The body of a DOOR OPEN by place reads segment and address. -/
theorem doorOpenBody_unit {q : Request} {g a : Byte} (hf : q.form = .unit) (hp : q.payload = [g, a]) (s : State) :
    doorOpenBody q s =
      if 3 < g.toNat then (s, badField 1)
      else if a.toNat = 0 ∨ 32 < a.toNat then (s, badField 2)
      else doorOpenAt (placeOf g.toNat a.toNat) s := by
  have hread : readLayout [(1, 1), (2, 1)] q.payload = .ok ([(1, g.toNat), (2, a.toNat)], []) := by
    rw [hp]
    rfl
  simp only [doorOpenBody, hf, doorOpenUnit]
  rw [withFields_ok hread]
  rfl

/-- The body of a DOOR OPEN by room acts at the room door, where there is one. -/
theorem doorOpenBody_room {q : Request} {r : Nat} (hf : q.form = .room r) (hp : q.payload = []) (s : State) :
    (s.roomDoor r = none → doorOpenBody q s = (s, .refused .notFound [])) ∧
      ∀ p, s.roomDoor r = some p → doorOpenBody q s = doorOpenAt p s := by
  have hread : readLayout [] q.payload = .ok ([], []) := by rw [hp]; rfl
  simp only [doorOpenBody, hf, doorOpenRoom]
  rw [withFields_ok hread]
  exact ⟨fun h => by rw [h], fun p h => by rw [h]⟩

/-- Settles O54: each refusal is a case of the body, and a REMOTE_UNLOCK offered enters the queue. -/
theorem doorsAreOpened : Obligations.DoorsAreOpened := by
  refine ⟨fun q s g a hq hs hf hp => ?_, fun q s r hq hf hp => ?_⟩
  · have hbody := doorOpenBody_unit hf hp s
    refine ⟨fun hg => ?_, fun hg ha => ?_, fun hg ha1 ha2 => ?_⟩
    · exact exec_doorOpen_takes hq (by rw [hbody, if_pos (by omega)])
    · exact exec_doorOpen_takes hq (by rw [hbody, if_neg (by omega), if_pos (by omega)])
    · rw [if_neg (by omega), if_neg (by omega)] at hbody
      refine ⟨fun h => ?_, fun h hx => ?_, fun h hx hc => ?_, fun h hx hc => ?_⟩
      · exact exec_doorOpen_takes hq (hbody.trans (doorOpenAt_notFound h))
      · exact exec_doorOpen_takes hq (hbody.trans (doorOpenAt_absent h hx))
      · exact exec_doorOpen_takes hq (hbody.trans (doorOpenAt_busy h hx hc))
      · exact ⟨_, exec_doorOpen_takes hq (hbody.trans (doorOpenAt_done h hx hc)), State.remoteUnlock_offered hs _ hc⟩
  · obtain ⟨hnone, hdoor⟩ := doorOpenBody_room hf hp s
    refine ⟨fun hr => exec_doorOpen_takes hq (hnone hr), fun p hr h hx => ?_, fun p hr h hx hc => ?_,
      fun p hr h hx hc => ?_⟩
    · exact exec_doorOpen_takes hq ((hdoor p hr).trans (doorOpenAt_absent h hx))
    · exact exec_doorOpen_takes hq ((hdoor p hr).trans (doorOpenAt_busy h hx hc))
    · exact exec_doorOpen_takes hq ((hdoor p hr).trans (doorOpenAt_done h hx hc))

end Sys2Proof.Machine
end

