-- ==== Sys2Proof/Proofs/DoorStates.lean ====
section
/-! The door state machine and the lid on one place (R57, R59, R60, R140, R141): what each operation leaves of the places, of
the journal's ring and of the faults. -/

set_option Elab.async false

namespace Sys2Proof.Machine

/-! ## One place -/

namespace Place

/-- R55: a condition as the accepted one. -/
def taken (c : Cond) (pl : Place) : Place := { pl with accepted := some c, candidate := none }

/-- R57: the door of an accepted OPEN. -/
def openedDoor (pl : Place) : Place :=
  match pl.doorState with
  | .unlocked => { pl with doorState := .openGranted, unlockLeft := 0, openElapsed := 0 }
  | .released => { pl with doorState := .openGranted, openElapsed := 0 }
  | .secure => { pl with doorState := .openForced, openElapsed := 0 }
  | .openGranted | .openForced | .held | .unknown => pl

/-- R59: the door of an accepted CLOSED. -/
def shutDoor (pl : Place) : Place :=
  match pl.doorState with
  | .openGranted => { pl with doorState := if pl.holding then .released else .secure, openElapsed := 0 }
  | .openForced | .held => { pl with doorState := .secure, openElapsed := 0 }
  | .secure | .unlocked | .released | .unknown => pl

/-- R60: the door of a first condition. -/
def firstSeen (isOpen : Bool) (pl : Place) : Place :=
  if pl.doorState = .unknown then { pl with doorState := firstDoor isOpen pl.holding, openElapsed := 0 } else pl

/-- R140: the session that an accepted OPEN begins. -/
def begunSession (pl : Place) : Place :=
  match pl.session, pl.window with
  | some _, _ => pl
  | none, some w => { pl with window := none, session := some ⟨w.kind, some w.card, []⟩ }
  | none, none => { pl with session := some ⟨.forced, none, []⟩ }

/-- R140: the lid of an accepted OPEN. -/
def openedLid (pl : Place) : Place := if pl.door.isMinibar then pl.begunSession else pl

/-- R141: a session's end. -/
def endedSession (pl : Place) : Place := { pl with session := none }

/-- R141: the lid of an accepted CLOSED. -/
def shutLid (pl : Place) : Place := if pl.door.isMinibar then pl.endedSession else pl

/-- R57, R59: door and lid of an accepted condition whose door part is new. -/
def moved (isOpen : Bool) (pl : Place) : Place := if isOpen then pl.openedDoor.openedLid else pl.shutDoor.shutLid

theorem openedDoor_door (pl : Place) : pl.openedDoor.door = pl.door := by
  unfold openedDoor
  cases pl.doorState <;> rfl

/-- The door's part leaves the minibar's. -/
theorem shutDoor_minibar (pl : Place) :
    pl.shutDoor.door = pl.door ∧ pl.shutDoor.session = pl.session ∧ pl.shutDoor.comps = pl.comps := by
  unfold shutDoor
  cases pl.doorState <;> exact ⟨rfl, rfl, rfl⟩

theorem firstSeen_door (isOpen : Bool) (pl : Place) : (pl.firstSeen isOpen).door = pl.door := by
  unfold firstSeen
  split <;> rfl

theorem firstSeen_unknown {isOpen : Bool} {pl : Place} (h : pl.doorState = .unknown) : pl.firstSeen isOpen =
    { pl with doorState := firstDoor isOpen pl.holding, openElapsed := 0 } := if_pos h

end Place

/-! ## All places -/

theorem Changes.place_eq {s t : State} {K : List Part} (h : Changes K s t) (hK : Part.places ∉ K := by decide) :
    t.place = s.place :=
  funext (State.place_congr (h.places_eq hK))

theorem RingGrows.of_eq {s t : State} (h : t.journal = s.journal) : RingGrows s t := ⟨[], by rw [h, List.append_nil]⟩

namespace State

variable {s t u : State}

/-- Writing one place updates the places as a function of their number. -/
theorem setPlace_place (hs : s.Canonical) (p : Nat) (pl : Place) :
    (s.setPlace p pl).place = Function.update s.place p pl := by
  funext d
  rw [place_setPlace _ _ _ _ hs.places.1, Function.update_apply]

theorem setPlace_canonical (hs : s.Canonical) (p : Nat) (pl : Place) : (s.setPlace p pl).Canonical :=
  { hs with places := Tab.put_wf _ _ _ hs.places }

theorem modPlace_place (hs : s.Canonical) (p : Nat) (f : Place → Place) :
    (s.modPlace p f).place = Function.update s.place p (f (s.place p)) := setPlace_place hs p _

theorem doorOpened_place (hs : s.Canonical) (p : Nat) :
    (s.doorOpened p).place = Function.update s.place p (s.place p).openedDoor := by
  simp only [doorOpened, Place.openedDoor]
  cases (s.place p).doorState with
  | unlocked | released => exact setPlace_place hs p _
  | secure => exact (Changes.place_eq ((log_ch ..).comp (faultAt_ch ..))).trans (setPlace_place hs p _)
  | openGranted | openForced | held | unknown => exact (Function.update_eq_self p s.place).symm

theorem doorShut_place (hs : s.Canonical) (p : Nat) :
    (s.doorShut p).place = Function.update s.place p (s.place p).shutDoor := by
  simp only [doorShut, Place.shutDoor]
  cases (s.place p).doorState with
  | openGranted => exact setPlace_place hs p _
  | openForced | held => exact (Changes.place_eq (log_ch ..)).trans (setPlace_place hs p _)
  | secure | unlocked | released | unknown => exact (Function.update_eq_self p s.place).symm

theorem openLid_place (hs : s.Canonical) (p : Nat) :
    (s.openLid p).place = Function.update s.place p (s.place p).begunSession := modPlace_place hs p _

theorem endSession_place (hs : s.Canonical) (p : Nat) :
    (s.endSession p).place = Function.update s.place p (s.place p).endedSession := by
  simp only [endSession]
  cases hx : (s.place p).session with
  | none =>
    have hsame : (s.place p).endedSession = s.place p := by rw [Place.endedSession, ← hx]
    rw [hsame, Function.update_eq_self]
  | some x =>
    simp only
    split
    · exact (Changes.place_eq (handOver_ch ..)).trans (modPlace_place hs p _)
    · exact modPlace_place hs p _

theorem doorMoved_place (hs : s.Canonical) (p : Nat) (isOpen : Bool) :
    (s.doorMoved p isOpen).place = Function.update s.place p ((s.place p).moved isOpen) := by
  cases isOpen with
  | true =>
    have hopened := doorOpened_place hs p
    have hcan := (doorOpened_ch p s).canonical hs
    simp only [doorMoved, Place.moved, Place.openedLid, Place.openedDoor_door, if_true]
    split
    · rw [openLid_place hcan, hopened, Function.update_idem, Function.update_self]
    · exact hopened
  | false =>
    have hshut := doorShut_place hs p
    have hcan := (doorShut_ch p s).canonical hs
    simp only [doorMoved, Place.moved, Place.shutLid, (s.place p).shutDoor_minibar.1, Bool.false_eq_true, if_false]
    split
    · rw [endSession_place hcan, hshut, Function.update_idem, Function.update_self]
    · exact hshut

/-- R60: the door's part of the first accepted condition. -/
def doorSeen (p : Nat) (isOpen : Bool) (s : State) : State :=
  if (s.place p).doorState = .unknown then s.setPlace p { s.place p with
    doorState := Place.firstDoor isOpen (s.place p).holding, openElapsed := 0 }
  else s

theorem doorFirst_eq (p : Nat) (isOpen : Bool) (s : State) : s.doorFirst p isOpen =
    if (s.place p).door.isMinibar && isOpen then (s.doorSeen p isOpen).openLid p else s.doorSeen p isOpen := rfl

theorem doorSeen_place (hs : s.Canonical) (p : Nat) (isOpen : Bool) : (s.doorSeen p isOpen).Canonical ∧
    (s.doorSeen p isOpen).place = Function.update s.place p ((s.place p).firstSeen isOpen) := by
  unfold doorSeen Place.firstSeen
  split
  · exact ⟨setPlace_canonical hs p _, setPlace_place hs p _⟩
  · exact ⟨hs, (Function.update_eq_self p s.place).symm⟩

theorem doorFirst_place (hs : s.Canonical) (p : Nat) (isOpen : Bool) :
    (s.doorFirst p isOpen).place = Function.update s.place p
      ((if isOpen then Place.openedLid else id) ((s.place p).firstSeen isOpen)) := by
  obtain ⟨hcan, hseen⟩ := doorSeen_place hs p isOpen
  rw [doorFirst_eq]
  cases isOpen with
  | false => simpa using hseen
  | true =>
    simp only [Bool.and_true, if_true, Place.openedLid, Place.firstSeen_door]
    split
    · rw [openLid_place hcan, hseen, Function.update_idem, Function.update_self]
    · exact hseen

/-! ## The journal's ring and the faults -/

/-- A record handed over where one can be stored joins the ring first. -/
theorem handOver_ring_first {d : Draft} (h : s.journal.storable = true) (hj : t.journal = s.journal)
    (hu : RingGrows (t.handOver d) u) : ∃ rest, u.journal.ring = s.journal.ring ++ t.stamp d :: rest := by
  obtain ⟨rest, hrest⟩ := hu
  exact ⟨rest, by rw [hrest, handOver_ring d (by rw [hj]; exact h), hj, List.append_assoc, List.singleton_append]⟩

/-- The same of a record without card. -/
theorem log_ring_first {k : RecKind} {w : Spot} {bs : List Byte} (h : s.journal.storable = true)
    (hj : t.journal = s.journal) (hu : RingGrows (t.log k w bs) u) : ∃ x rest,
      u.journal.ring = s.journal.ring ++ x :: rest ∧ x.kind = k ∧ x.spot = w ∧ x.detail = bs := by
  obtain ⟨rest, hring⟩ := handOver_ring_first h hj hu
  exact ⟨_, rest, hring, rfl, rfl, rfl⟩

theorem faultAt_grows (k : FaultKind) (p : Nat) (s : State) : RingGrows s (s.faultAt k p) :=
  .of_eq (giveFault_journal ..)

theorem endSession_grows (p : Nat) (s : State) : RingGrows s (s.endSession p) := by
  simp only [endSession]
  split
  · exact .of_eq rfl
  · have hended : RingGrows s (s.modPlace p Place.endedSession) := .of_eq (modPlace_journal ..)
    split
    · exact hended.trans (.of_handOver ..)
    · exact hended

/-- R55: the tamper part of an accepted condition, where it begins. -/
def tamperNoticed (p : Nat) (begins : Bool) (s : State) : State := if begins then s.tampered p else s

theorem tamperNoticed_place (p : Nat) (b : Bool) (s : State) : (s.tamperNoticed p b).place = s.place := by
  unfold tamperNoticed
  split
  · exact Changes.place_eq (tampered_ch p s)
  · rfl

theorem tamperNoticed_grows (p : Nat) (b : Bool) (s : State) : RingGrows s (s.tamperNoticed p b) := by
  unfold tamperNoticed
  split
  · exact (RingGrows.of_handOver s _).trans (faultAt_grows ..)
  · exact .of_eq rfl

theorem tamperNoticed_steady (hs : s.Canonical) (p : Nat) (b : Bool) : Steady s (s.tamperNoticed p b) := by
  unfold tamperNoticed
  split
  · exact (Steady.handOver hs _).trans (.giveFault ((handOver_ch _ s).canonical hs) _ _)
  · exact .refl s

end State

end Sys2Proof.Machine
end

