-- ==== Sys2Proof/Proofs/DoorRows.lean ====
section
/-! O24: UNLOCK_TIMEOUT and DOOR_HELD, the debounce of the condition, and what an accepted condition leaves. -/

set_option Elab.async false

namespace Sys2Proof.Machine

/-- R56: an unlock opens a SECURE or UNLOCKED door only. -/
theorem Place.unlock_eq (pl : Place) (n : Nat) : pl.unlock n =
    if pl.doorState = .secure ∨ pl.doorState = .unlocked then { pl with doorState := .unlocked, unlockLeft := n } else pl := by
  unfold Place.unlock
  cases pl.doorState with
  | secure | unlocked => exact (if_pos (by decide)).symm
  | openGranted | openForced | held | released | unknown => exact (if_neg (by decide)).symm

namespace State

/-! ## The rows of the timers (R56, R58) -/

/-- A consequence other than a grace's end, with no minute advance due, is carried out and no longer due. -/
theorem runDue_alone {s : State} {d : Due} (hm : Due.minuteAdvance ∉ s.due) (hd : ∀ p c, d ≠ .graceExpiry p c) :
    s.runDue d = (s.without d).carryOut d := by
  have hgraces (t : State) : t.gracesFirst d = t := by
    cases d with
    | graceExpiry p c => exact absurd rfl (hd p c)
    | _ => rfl
  rw [runDue, hgraces, minuteFirst, if_neg (fun h => hm h.2)]
  rfl

theorem runDue_unlockTimeout {s : State} (hm : Due.minuteAdvance ∉ s.due) (p : Nat) :
    s.runDue (.unlockTimeout p) = (s.without (.unlockTimeout p)).unlockTimeout p := runDue_alone hm (fun _ _ => nofun)

theorem runDue_doorHeld {s : State} (hm : Due.minuteAdvance ∉ s.due) (p : Nat) :
    s.runDue (.doorHeld p) = (s.without (.doorHeld p)).doorHeld p := runDue_alone hm (fun _ _ => nofun)

/-- The door's part of DOOR_HELD acts beyond the held limit. -/
theorem doorHeld_eq (p : Nat) (s : State) : s.doorHeld p =
    if (((s.place p).doorState = .openGranted ∨ (s.place p).doorState = .openForced) ∧ (s.place p).holding = false) ∧
      (s.place p).door.heldLimit < (s.place p).openElapsed then
      ((s.setPlace p { s.place p with doorState := .held }).log .doorHeld (.drop p)
        (le 2 (s.place p).door.heldLimit)).faultAt .doorHeld p
    else s := by
  simp only [doorHeld, Bool.and_eq_true, decide_eq_true_eq, Place.isOpenCounted_iff]

/-! ## The debounce (R55) -/

theorem reportCond_spec (s : State) (p : Nat) (c : Cond) : let pl := s.place p
    (pl.door = .unused → s.reportCond p c = s) ∧
    (pl.door ≠ .unused → pl.accepted = none ∨ (pl.accepted ≠ some c ∧ pl.candidate = some c) →
      s.reportCond p c = s.acceptCond p c) ∧
    (pl.door ≠ .unused → pl.accepted = some c → s.reportCond p c = s.setPlace p { pl with candidate := none }) ∧
    (pl.door ≠ .unused → pl.accepted ≠ none → pl.accepted ≠ some c → pl.candidate ≠ some c →
      s.reportCond p c = s.setPlace p { pl with candidate := some c }) := by
  simp only [reportCond, isUnused_iff]
  refine ⟨fun h => if_pos h, fun h hc => ?_, fun h ha => ?_, fun h ha hne hc => ?_⟩ <;> rw [if_neg h]
  · rcases hc with ha | ⟨hne, hc⟩
    · rw [ha]
    · cases ha : (s.place p).accepted with
      | none => rfl
      | some a =>
        have hac : a ≠ c := fun h => hne (by rw [ha, h])
        simp only [hac, hc, if_false, if_true]
  · rw [ha]
    exact if_pos rfl
  · obtain ⟨a, ha⟩ := Option.ne_none_iff_exists'.mp ha
    have hac : a ≠ c := fun h => hne (by rw [ha, h])
    rw [ha]
    simp only [hac, hc, if_false]

/-! ## What is accepted (R57, R59, R60) -/

variable {s : State} {p : Nat} {c o : Cond}

/-- The state with the condition accepted, before its parts are handed on. -/
def condTaken (p : Nat) (c : Cond) (s : State) : State := s.modPlace p (Place.taken c)

theorem condTaken_canonical (hs : s.Canonical) : (s.condTaken p c).Canonical := setPlace_canonical hs p _

theorem condTaken_places (hs : s.Canonical) :
    (s.condTaken p c).place = Function.update s.place p ((s.place p).taken c) := modPlace_place hs p _

theorem condTaken_self (hs : s.Canonical) : (s.condTaken p c).place p = (s.place p).taken c := by
  rw [condTaken_places hs, Function.update_self]

theorem condTaken_set_journal (p : Nat) (c : Cond) (pl : Place) (s : State) :
    ((s.condTaken p c).setPlace p pl).journal = s.journal := rfl

/-- A first condition. -/
theorem acceptCond_first (h : (s.place p).accepted = none) :
    s.acceptCond p c = ((s.condTaken p c).doorFirst p c.isOpen).tamperNoticed p c.tamper := by
  simp only [acceptCond, h, Bool.not_false, Bool.and_true]
  rfl

/-- A condition with the door part of the one before. -/
theorem acceptCond_same (h : (s.place p).accepted = some o) (ho : o.isOpen = c.isOpen) :
    s.acceptCond p c = (s.condTaken p c).tamperNoticed p (c.tamper && !o.tamper) := by
  simp only [acceptCond, h, ho, if_true]
  rfl

/-- A condition with another door part. -/
theorem acceptCond_moved (h : (s.place p).accepted = some o) (ho : o.isOpen ≠ c.isOpen) :
    s.acceptCond p c = ((s.condTaken p c).doorMoved p c.isOpen).tamperNoticed p (c.tamper && !o.tamper) := by
  simp only [acceptCond, h, ho, if_false]
  rfl

theorem acceptCond_first_place (hs : s.Canonical) (h : (s.place p).accepted = none) :
    (s.acceptCond p c).place = Function.update s.place p
      ((if c.isOpen then Place.openedLid else id) (((s.place p).taken c).firstSeen c.isOpen)) := by
  rw [acceptCond_first h, tamperNoticed_place, doorFirst_place (condTaken_canonical hs), condTaken_self hs,
    condTaken_places hs, Function.update_idem]

theorem acceptCond_same_place (hs : s.Canonical) (h : (s.place p).accepted = some o) (ho : o.isOpen = c.isOpen) :
    (s.acceptCond p c).place = Function.update s.place p ((s.place p).taken c) := by
  rw [acceptCond_same h ho, tamperNoticed_place, condTaken_places hs]

theorem acceptCond_moved_place (hs : s.Canonical) (h : (s.place p).accepted = some o) (ho : o.isOpen ≠ c.isOpen) :
    (s.acceptCond p c).place = Function.update s.place p (((s.place p).taken c).moved c.isOpen) := by
  rw [acceptCond_moved h ho, tamperNoticed_place, doorMoved_place (condTaken_canonical hs), condTaken_self hs,
    condTaken_places hs, Function.update_idem]

/-- An accepted condition is the business of its place alone. -/
theorem acceptCond_elsewhere (hs : s.Canonical) {d : Nat} (hd : d ≠ p) : (s.acceptCond p c).place d = s.place d := by
  cases h : (s.place p).accepted with
  | none => rw [acceptCond_first_place hs h, Function.update_of_ne hd]
  | some o =>
    by_cases ho : o.isOpen = c.isOpen
    · rw [acceptCond_same_place hs h ho, Function.update_of_ne hd]
    · rw [acceptCond_moved_place hs h ho, Function.update_of_ne hd]

/-! ## Records and faults -/

/-- R57: a SECURE door that opens is journalled as forced, with its fault. -/
theorem doorOpened_forced (h : (s.place p).doorState = .secure) : s.doorOpened p =
    ((s.setPlace p (s.place p).openedDoor).log .doorForced (.drop p) []).faultAt .doorForced p := by
  simp only [doorOpened, Place.openedDoor, h]

/-- R59: a door FORCED or HELD that closes is journalled. -/
theorem doorShut_closed (h : (s.place p).doorState = .openForced ∨ (s.place p).doorState = .held) : s.doorShut p =
    (s.setPlace p (s.place p).shutDoor).closedRecord p (s.place p).doorState (s.place p).openElapsed := by
  rcases h with h | h <;> simp only [doorShut, Place.shutDoor, h]

/-- R59: another door that closes is not journalled. -/
theorem doorShut_journal (h1 : (s.place p).doorState ≠ .openForced) (h2 : (s.place p).doorState ≠ .held) :
    (s.doorShut p).journal = s.journal := by
  simp only [doorShut]
  cases h : (s.place p).doorState with
  | openForced => exact absurd h h1
  | held => exact absurd h h2
  | openGranted | secure | unlocked | released | unknown => rfl

/-- R141: a restock session that ends is journalled. -/
theorem endSession_restock {y : Session} (h : (s.place p).session = some y) (hk : y.kind = .restock) : s.endSession p =
    (s.modPlace p Place.endedSession).handOver ⟨.restock, .drop p, y.card, none,
      le 2 y.touched.length ++ le 2 (stockedCount (s.place p)), Marks.none, none⟩ := by
  simp only [endSession, h, hk, if_true]
  rfl

/-- R140: the lid follows the door that opens. -/
theorem doorMoved_open (p : Nat) (s : State) : s.doorMoved p true =
    if (s.place p).door.isMinibar then (s.doorOpened p).openLid p else s.doorOpened p := rfl

/-- R141: the lid follows the door that closes. -/
theorem doorMoved_shut (p : Nat) (s : State) : s.doorMoved p false =
    if (s.place p).door.isMinibar then (s.doorShut p).endSession p else s.doorShut p := rfl

/-- What the lid adds to a door that opens is no record and clears no fault. -/
theorem doorMoved_open_after (p : Nat) (s : State) :
    (s.doorMoved p true).journal = (s.doorOpened p).journal ∧ Steady (s.doorOpened p) (s.doorMoved p true) := by
  rw [doorMoved_open]
  split
  · exact ⟨(openLid_ch ..).journal_eq, .of_changes (openLid_ch ..)⟩
  · exact ⟨rfl, .refl _⟩

theorem doorMoved_shut_after (p : Nat) (s : State) : RingGrows (s.doorShut p) (s.doorMoved p false) := by
  rw [doorMoved_shut]
  split
  · exact endSession_grows p _
  · exact .of_eq rfl

theorem tampered_set (hs : s.Canonical) (p : Nat) : ((s.tampered p).fault .tamper).set = true :=
  (giveFault_fault ((log_ch ..).canonical hs).faults .tamper .tamper _).1

/-- R57: DOOR_FORCED stands in the journal and as a fault where a SECURE door opens. -/
theorem acceptCond_forced (hs : s.Canonical) (h : (s.place p).accepted = some o) (ho : o.isOpen = false)
    (hc : c.isOpen = true) (hd : (s.place p).doorState = .secure) : ((s.acceptCond p c).fault .doorForced).set = true ∧
      (s.journal.storable = true → ∃ x rest, (s.acceptCond p c).journal.ring = s.journal.ring ++ x :: rest ∧
        x.kind = .doorForced ∧ x.spot = .drop p) := by
  rw [acceptCond_moved h (by simp [ho, hc]), hc]
  have hs1 : (s.condTaken p c).Canonical := condTaken_canonical hs
  have hforced := doorOpened_forced (s := s.condTaken p c) (p := p) (by rw [condTaken_self hs]; exact hd)
  have hpost := doorMoved_open_after p (s.condTaken p c)
  have hmoved := (doorMoved_ch p true (s.condTaken p c)).canonical hs1
  have hsteady := hpost.2.trans (tamperNoticed_steady hmoved p (c.tamper && !o.tamper))
  have hgrows := (RingGrows.of_eq hpost.1).trans (tamperNoticed_grows p (c.tamper && !o.tamper) _)
  rw [hforced] at hsteady hgrows
  have hs2 := setPlace_canonical hs1 p ((s.condTaken p c).place p).openedDoor
  refine ⟨hsteady.faults _ (giveFault_fault ((log_ch ..).canonical hs2).faults _ .doorForced _).1, fun hj => ?_⟩
  obtain ⟨x, rest, hring, hkind, hspot, -⟩ := log_ring_first hj (condTaken_set_journal ..) ((faultAt_grows ..).trans hgrows)
  exact ⟨x, rest, hring, hkind, hspot⟩

/-- R59: DOOR_CLOSED stands in the journal where a door FORCED or HELD closes. -/
theorem acceptCond_closed (hs : s.Canonical) (h : (s.place p).accepted = some o) (ho : o.isOpen = true)
    (hc : c.isOpen = false) (hd : (s.place p).doorState = .openForced ∨ (s.place p).doorState = .held)
    (hj : s.journal.storable = true) :
    ∃ x rest, (s.acceptCond p c).journal.ring = s.journal.ring ++ x :: rest ∧ x.kind = .doorClosed ∧ x.spot = .drop p ∧
      x.detail = [byte (doorStateCode (s.place p).doorState)] ++ le 2 (s.place p).openElapsed := by
  rw [acceptCond_moved h (by simp [ho, hc]), hc]
  have hclosed := doorShut_closed (s := s.condTaken p c) (p := p) (by rw [condTaken_self hs]; exact hd)
  rw [condTaken_self hs] at hclosed
  have hgrows := (doorMoved_shut_after p (s.condTaken p c)).trans (tamperNoticed_grows p (c.tamper && !o.tamper) _)
  rw [hclosed] at hgrows
  exact log_ring_first hj (condTaken_set_journal ..) hgrows

/-- R141: RESTOCK stands in the journal where a restock session ends and no DOOR_CLOSED comes before it. -/
theorem acceptCond_restock (hs : s.Canonical) (h : (s.place p).accepted = some o) (ho : o.isOpen = true)
    (hc : c.isOpen = false) {y : Session} (hm : (s.place p).door.isMinibar = true) (hy : (s.place p).session = some y)
    (hk : y.kind = .restock) (h1 : (s.place p).doorState ≠ .openForced) (h2 : (s.place p).doorState ≠ .held)
    (hj : s.journal.storable = true) :
    ∃ x rest, (s.acceptCond p c).journal.ring = s.journal.ring ++ x :: rest ∧ x.kind = .restock ∧ x.spot = .drop p ∧
      x.card = y.card ∧ x.detail = le 2 y.touched.length ++ le 2 (stockedCount ((s.place p).taken c)) := by
  rw [acceptCond_moved h (by simp [ho, hc]), hc, doorMoved_shut,
    if_pos (by rw [condTaken_self hs]; exact hm)]
  have hself : (s.condTaken p c).place p = (s.place p).taken c := condTaken_self hs
  have hshut : ((s.condTaken p c).doorShut p).place p = ((s.place p).taken c).shutDoor := by
    rw [doorShut_place (condTaken_canonical hs), Function.update_self, hself]
  obtain ⟨-, hsession, hcomps⟩ := ((s.place p).taken c).shutDoor_minibar
  have hjournal : ((s.condTaken p c).doorShut p).journal = s.journal :=
    doorShut_journal (by rw [hself]; exact h1) (by rw [hself]; exact h2)
  have hcount : stockedCount ((s.place p).taken c).shutDoor = stockedCount ((s.place p).taken c) := by
    rw [stockedCount, hcomps, stockedCount]
  rw [endSession_restock (by rw [hshut, hsession]; exact hy) hk, hshut, hcount]
  obtain ⟨rest, hring⟩ := handOver_ring_first hj (t := ((s.condTaken p c).doorShut p).modPlace p Place.endedSession) hjournal
    (tamperNoticed_grows p (c.tamper && !o.tamper) _)
  exact ⟨_, rest, hring, rfl, rfl, rfl, rfl⟩

/-- R60: a first condition without tamper makes no record and no fault. -/
theorem acceptCond_first_quiet (h : (s.place p).accepted = none) (hc : c.tamper = false) :
    (s.acceptCond p c).journal = s.journal ∧ (s.acceptCond p c).faults = s.faults := by
  have hch := doorFirst_ch p c.isOpen (s.condTaken p c)
  rw [acceptCond_first h, hc]
  exact ⟨hch.journal_eq, hch.faults_eq.1⟩

/-- R55: a tamper that begins sets its fault. -/
theorem acceptCond_tamper (hs : s.Canonical) (hc : c.tamper = true)
    (hold : ∀ o, (s.place p).accepted = some o → o.tamper = false) : ((s.acceptCond p c).fault .tamper).set = true := by
  have hs1 : (s.condTaken p c).Canonical := condTaken_canonical hs
  cases h : (s.place p).accepted with
  | none =>
    rw [acceptCond_first h, hc]
    exact tampered_set ((doorFirst_ch ..).canonical hs1) p
  | some o =>
    have hbegins : (c.tamper && !o.tamper) = true := by simp [hc, hold o h]
    by_cases ho : o.isOpen = c.isOpen
    · rw [acceptCond_same h ho, hbegins]
      exact tampered_set hs1 p
    · rw [acceptCond_moved h ho, hbegins]
      exact tampered_set ((doorMoved_ch ..).canonical hs1) p

end State

open State in
/-- Settles O24: the rows by their guards, the debounce and the accepted condition by the lemmas on its door, its lid, its
records and its faults. -/
theorem doorTimerRows : Obligations.DoorTimerRows := by
  refine ⟨fun p s hm hd hl => ?_, fun p s hm h => ?_, fun p s hm hd hh hl => ?_, fun p s hm h => ?_, reportCond_spec, ?_,
    fun _ _ => rfl, fun pl n => pl.unlock_eq n⟩
  · rw [exec_unlockTimeout, runDue_unlockTimeout hm]
    exact congrArg _ (if_pos ⟨hd, hl⟩)
  · rw [exec_unlockTimeout, runDue_unlockTimeout hm]
    exact congrArg _ (if_neg (fun hg => h.elim (· hg.1) (· hg.2)))
  · rw [exec_doorHeld, runDue_doorHeld hm, doorHeld_eq]
    exact congrArg _ (if_pos ⟨⟨hd, hh⟩, hl⟩)
  · rw [exec_doorHeld, runDue_doorHeld hm, doorHeld_eq]
    refine congrArg _ (if_neg (fun hg => ?_))
    obtain ⟨⟨hd, hh⟩, hl⟩ := hg
    rcases h with ⟨hn1, hn2⟩ | h | h
    · exact hd.elim hn1 hn2
    · exact absurd (hh.symm.trans h) nofun
    · exact absurd hl (Nat.not_lt.mpr h)
  · intro s p c hs
    refine ⟨fun d hd => acceptCond_elsewhere hs hd, fun o h ho => ?_, fun o h ho hc => ⟨?_, acceptCond_forced hs h ho hc⟩,
      fun o h ho hc => ⟨?_, acceptCond_closed hs h ho hc, fun y => acceptCond_restock hs h ho hc⟩,
      fun h hd => ⟨?_, acceptCond_first_quiet h⟩, acceptCond_tamper hs⟩
    · exact (congrFun (acceptCond_same_place hs h ho) p).trans (Function.update_self ..)
    · refine (congrFun (acceptCond_moved_place hs h (by simp [ho, hc])) p).trans ((Function.update_self ..).trans ?_)
      rw [hc]
      rfl
    · refine (congrFun (acceptCond_moved_place hs h (by simp [ho, hc])) p).trans ((Function.update_self ..).trans ?_)
      rw [hc]
      rfl
    · refine (congrFun (acceptCond_first_place hs h) p).trans ((Function.update_self ..).trans ?_)
      rw [Place.firstSeen_unknown (pl := (s.place p).taken c) hd]
      cases c.isOpen <;> rfl

end Sys2Proof.Machine
end

