-- ==== Sys2Proof/Proofs/Polls.lean ====
section
/-! O30, O31: the check of a poll frame ends at 0 (R211); whom each poll takes, and when none is made (R79 to R82, R92). -/

set_option Elab.async false

namespace Sys2Proof.Machine

/-! ## The check (R211) -/

/-- Where the lowest bits are 0 no shift meets a 1. -/
theorem crcShifts_of_low (n : Nat) (r : Check) (h : ∀ i < n, r.getLsbD i = false) : crcShifts n r = r >>> n := by
  induction n generalizing r with
  | zero => rfl
  | succ n ih =>
    have hshift : crcShift r = r >>> 1 := by rw [crcShift, h 0 (by omega)]; rfl
    rw [crcShifts, hshift, ih _ (fun i hi => ?_), ← BitVec.shiftRight_add, Nat.add_comm]
    rw [BitVec.getLsbD_ushiftRight]
    exact h (1 + i) (by omega)

/-- A check and its low byte leave the high byte. -/
theorem crcByte_low (c : Check) : crcByte c (byte c.toNat) = c >>> 8 := by
  have hbits (i : Nat) (hi : i < 16) :
      (c ^^^ (byte c.toNat).setWidth 16).getLsbD i = (decide (8 ≤ i) && c.getLsbD i) := by
    by_cases h8 : i < 8
    · simp [byte, hi, h8, Nat.not_le.mpr h8]
    · simp [byte, Nat.not_lt.mp h8]
  rw [crcByte, crcShifts_of_low _ _ (fun i hi => by simp [hbits i (by omega), hi])]
  refine BitVec.eq_of_getLsbD_eq fun i hi => ?_
  rw [BitVec.getLsbD_ushiftRight, BitVec.getLsbD_ushiftRight]
  by_cases h16 : 8 + i < 16
  · simp [hbits _ h16]
  · rw [BitVec.getLsbD_of_ge _ _ (by omega), BitVec.getLsbD_of_ge _ _ (by omega)]

/-- The high byte and its own byte leave 0. -/
theorem crcByte_high (c : Check) : crcByte (c >>> 8) (byte (c.toNat / 256)) = 0#16 := by
  have hsame : (byte (c.toNat / 256)).setWidth 16 = c >>> 8 := by
    have hlt : c.toNat / 256 < 256 := Nat.div_lt_of_lt_mul c.isLt
    refine BitVec.eq_of_toNat_eq ?_
    simp only [byte, BitVec.toNat_setWidth, BitVec.toNat_ofNat, BitVec.toNat_ushiftRight, Nat.shiftRight_eq_div_pow]
    omega
  rw [crcByte, hsame, BitVec.xor_self, crcShifts_of_low _ _ (fun i _ => BitVec.getLsbD_zero)]
  rfl

/-- R211: the computation over bytes and their own check ends at 0. -/
theorem crcOk_lineFrame (bs : List Byte) : crcOk (lineFrame bs) = true := by
  have hfold : crc (lineFrame bs) = crcByte (crcByte (crc bs) (byte (crc bs).toNat)) (byte ((crc bs).toNat / 256)) := by
    simp [crc, lineFrame, checkBytes, le, List.foldl_append]
  rw [crcOk, hfold, crcByte_low, crcByte_high]
  rfl

namespace State

variable {s : State} {g a : Nat}

/-! ## Addresses -/

theorem mem_addresses : a ∈ addresses ↔ 1 ≤ a ∧ a ≤ 32 := by
  simp only [addresses, List.mem_map, List.mem_range]
  constructor
  · rintro ⟨i, hi, rfl⟩; omega
  · exact fun h => ⟨a - 1, by omega, by omega⟩

/-- The lowest address that qualifies. -/
theorem addresses_find {f : Nat → Bool} : addresses.find? f = some a ↔
    (1 ≤ a ∧ a ≤ 32) ∧ f a = true ∧ ∀ b, 1 ≤ b → b < a → f b = false := by
  simp only [addresses, List.find?_map, Option.map_eq_some_iff, List.find?_range_eq_some, Function.comp_apply,
    List.mem_range]
  constructor
  · rintro ⟨i, ⟨hf, hi, hmin⟩, rfl⟩
    refine ⟨by omega, hf, fun b h1 hb => ?_⟩
    have := hmin (b - 1) (by omega)
    rw [Nat.sub_add_cancel h1] at this
    simpa using this
  · rintro ⟨⟨h1, h32⟩, hf, hmin⟩
    refine ⟨a - 1, ⟨by rwa [Nat.sub_add_cancel h1], by omega, fun j hj => ?_⟩, Nat.sub_add_cancel h1⟩
    simpa using hmin (j + 1) (by omega) (by omega)

theorem addresses_find_none {f : Nat → Bool} : addresses.find? f = none ↔ ∀ b, 1 ≤ b → b ≤ 32 → f b = false := by
  simp [List.find?_eq_none, mem_addresses]

/-- R80, R81: the address after a mark. -/
theorem afterMark_of_isNext {mark : Nat} {f : Nat → Bool} (h : isNext mark f a) : afterMark mark f = some a := by
  obtain ⟨h1, h32, hf, hnext⟩ := h
  unfold afterMark
  rcases hnext with ⟨hm, hbetween⟩ | ⟨habove, hbelow⟩
  · have hfind : addresses.find? (fun b => decide (mark < b) && f b) = some a :=
      addresses_find.mpr ⟨⟨h1, h32⟩, by simp [hm, hf], fun b _ hb => by
        by_cases hmb : mark < b
        · simp [hbetween b hmb hb]
        · simp [hmb]⟩
    rw [hfind]
  · have hnone : addresses.find? (fun b => decide (mark < b) && f b) = none :=
      addresses_find_none.mpr fun b _ hb => by
        by_cases hmb : mark < b
        · simp [habove b hmb hb]
        · simp [hmb]
    rw [hnone]
    exact addresses_find.mpr ⟨⟨h1, h32⟩, hf, hbelow⟩

theorem afterMark_none {mark : Nat} {f : Nat → Bool} (h : ∀ b, 1 ≤ b → b ≤ 32 → f b = false) : afterMark mark f = none := by
  have hnone : addresses.find? (fun b => decide (mark < b) && f b) = none :=
    addresses_find_none.mpr fun b h1 h2 => by simp [h b h1 h2]
  rw [afterMark, hnone]
  exact addresses_find_none.mpr h

/-! ## Members, candidates, drops with a class-1 command (R79 to R81) -/

theorem isMember_iff (s : State) (g a : Nat) : s.isMember g a = true ↔
    (s.place (placeOf g a)).presence ≠ .absent ∧ (s.place (placeOf g a)).door ≠ .unused := by
  simp [isMember, ← isUnused_iff]

theorem isCandidate_iff (s : State) (g a : Nat) : s.isCandidate g a = true ↔
    (s.place (placeOf g a)).presence = .absent ∨ (s.place (placeOf g a)).door = .unused := by
  simp [isCandidate, ← isUnused_iff]

theorem isUrgent_iff (s : State) (g a : Nat) : s.isUrgent g a = true ↔
    (s.place (placeOf g a)).presence ≠ .absent ∧ ∃ x ∈ (s.place (placeOf g a)).queue, x.cmd.cls = 1 := by
  simp [isUrgent, Place.class1, List.length_pos_iff_exists_mem]

theorem priorityDue_iff (s : State) (g : Nat) : s.priorityDue g = true ↔
    (s.seg g).prioDue = true ∧ ∃ a, 1 ≤ a ∧ a ≤ 32 ∧ s.isUrgent g a = true := by
  simp only [priorityDue, Bool.and_eq_true, List.any_eq_true, mem_addresses, and_assoc]

theorem lineFree_iff (s : State) (g : Nat) : s.lineFree g = true ↔ s.LineFree g := by
  simp [lineFree, polling, LineFree]

theorem nextMember_some (h : (s.seg g).roundPos < a) (ha : a ≤ 32) (hm : s.isMember g a = true)
    (hb : ∀ b, (s.seg g).roundPos < b → b < a → s.isMember g b = false) : s.nextMember g = some a := by
  refine addresses_find.mpr ⟨⟨by omega, ha⟩, by simp [h, hm], fun b _ hlt => ?_⟩
  by_cases hr : (s.seg g).roundPos < b
  · simp [hb b hr hlt]
  · simp [hr]

theorem nextMember_none_iff (s : State) (g : Nat) : s.nextMember g = none ↔
    ∀ b, (s.seg g).roundPos < b → b ≤ 32 → s.isMember g b = false := by
  rw [nextMember, addresses_find_none]
  constructor
  · intro h b hr hb
    simpa [hr] using h b (by omega) hb
  · intro h b _ hb
    by_cases hr : (s.seg g).roundPos < b
    · simp [h b hr hb]
    · simp [hr]

/-! ## The poll begun -/

/-- R67: the poll of one drop: what its queue gives, and the exchange begun. `x` is the segment with its mark moved. -/
theorem pollDrop_spec (hs : s.Canonical) (g a : Nat) (kind : PollKind) (x : Segment) (hx : x.line = (s.seg g).line) :
    let p := placeOf g a
    let c := (s.place p).choose ((s.seg g).line == .degraded)
    let t := (s.setSeg g x).pollDrop g a kind
    t = { s with segs := t.segs, places := t.places } ∧ (∀ h, h ≠ g → t.seg h = s.seg h) ∧
      (∀ q, q ≠ p → t.place q = s.place q) ∧ t.place p = c.1 ∧
      t.seg g = { x with exchange := some ⟨a, kind, (s.place p).pollBit, c.2, (s.place p).uncertain⟩ } := by
  intro p c
  have hseg : ∀ k, (s.setSeg g x).seg k = if k = g then x else s.seg k := fun k => seg_setSeg _ _ _ _ hs.segs.1
  have hcan : ((s.setSeg g x).setPlace p c.1).Canonical := setPlace_canonical ((setSeg_ch ..).canonical hs) p _
  have hpoll : (s.setSeg g x).pollDrop g a kind = ((s.setSeg g x).setPlace p c.1).modSeg g (fun y =>
      { y with exchange := some ⟨a, kind, (s.place p).pollBit, c.2, (s.place p).uncertain⟩ }) := by
    simp only [pollDrop, hseg, if_true, hx]
    rfl
  simp only [hpoll]
  have hnew : ∀ k, ((s.setSeg g x).setPlace p c.1).seg k = if k = g then x else s.seg k := hseg
  refine ⟨rfl, fun h hh => ?_, fun q hq => ?_, ?_, ?_⟩
  · rw [seg_modSeg _ _ _ _ hcan.segs.1, if_neg hh, hnew, if_neg hh]
  · exact place_setPlace_ne s _ hq
  · exact (place_setPlace s p p _ hs.places.1).trans (if_pos rfl)
  · rw [seg_modSeg _ _ _ _ hcan.segs.1, if_pos rfl, hnew, if_pos rfl]

/-- The terminator's poll that opens a round. -/
theorem openRound_spec (hs : s.Canonical) (g : Nat) : let t := s.openRound g
    t = { s with segs := t.segs } ∧ (∀ h, h ≠ g → t.seg h = s.seg h) ∧
      t.seg g = { s.seg g with
        roundPos := 0, roundOpen := true, prioDue := false, exchange := some ⟨0, .normal, false, none, false⟩ } := by
  have hcan := (modSeg_ch s g (fun x => { x with roundPos := 0, roundOpen := true, prioDue := false })).canonical hs
  refine ⟨rfl, fun h hh => ?_, ?_⟩
  · rw [openRound, pollTerminator, seg_modSeg _ _ _ _ hcan.segs.1, if_neg hh, seg_modSeg _ _ _ _ hs.segs.1, if_neg hh]
  · rw [openRound, pollTerminator, seg_modSeg _ _ _ _ hcan.segs.1, if_pos rfl, seg_modSeg _ _ _ _ hs.segs.1, if_pos rfl]

/-- A normal poll begins while the line is free and no priority poll is due. -/
theorem normalPoll_free (h : s.LineFree g) (hp : s.priorityDue g = false) : s.normalPoll g =
    if (s.seg g).roundOpen then
      match s.nextMember g with
      | some a => (s.modSeg g (fun x => { x with roundPos := a, prioDue := false })).pollDrop g a .normal
      | none => if addresses.any (s.isCandidate g) then s else s.openRound g
    else s.openRound g := by
  rw [normalPoll, (lineFree_iff s g).mpr h, hp]
  rfl

theorem normalPoll_blocked (h : ¬s.LineFree g ∨ s.priorityDue g = true) : s.normalPoll g = s := by
  refine if_neg fun hg => ?_
  simp only [Bool.and_eq_true, lineFree_iff, Bool.not_eq_true'] at hg
  exact h.elim (fun h => h hg.1) (fun h => Bool.noConfusion (h.symm.trans hg.2))

end State

open State in
/-- Settles O30: the guard of the row, and whom it polls behind it. -/
theorem normalPolls : Obligations.NormalPolls := by
  refine ⟨fun g s hdue hs hfree hprio hround => ?_, fun g s a hdue hs hfree hprio hopen hpos ha hm hb => ?_,
    fun g s hdue h => ?_⟩
  · have hopens : s.normalPoll g.val = s.openRound g.val := by
      rw [normalPoll_free hfree hprio]
      rcases hround with hclosed | ⟨hmembers, hcands⟩
      · rw [hclosed]
        rfl
      · have hnone : addresses.any (s.isCandidate g.val) = false :=
          List.any_eq_false.mpr fun b hb => by
            rw [hcands b (mem_addresses.mp hb).1 (mem_addresses.mp hb).2]
            exact Bool.false_ne_true
        rw [(nextMember_none_iff s g.val).mpr hmembers, hnone]
        exact ite_self _
    rw [exec_normalPoll, settle_eq s hdue, hopens]
    obtain ⟨hframe, hothers, hseg⟩ := openRound_spec hs g.val
    exact ⟨_, rfl, hframe, hothers, hseg⟩
  · rw [exec_normalPoll, settle_eq s hdue, normalPoll_free hfree hprio, if_pos hopen, nextMember_some hpos ha hm hb]
    exact ⟨_, rfl, pollDrop_spec hs g.val a .normal { s.seg g.val with roundPos := a, prioDue := false } rfl⟩
  · rw [exec_normalPoll, settle_eq s hdue]
    rcases h with h | h | ⟨hopen, hmembers, b, h1, h32, hcand⟩
    · rw [normalPoll_blocked (.inl h)]
    · rw [normalPoll_blocked (.inr h)]
    · by_cases hblocked : ¬s.LineFree g.val ∨ s.priorityDue g.val = true
      · rw [normalPoll_blocked hblocked]
      · simp only [not_or, not_not, Bool.not_eq_true] at hblocked
        have hany : addresses.any (s.isCandidate g.val) = true :=
          List.any_eq_true.mpr ⟨b, mem_addresses.mpr ⟨h1, h32⟩, hcand⟩
        rw [normalPoll_free hblocked.1 hblocked.2, if_pos hopen, (nextMember_none_iff s g.val).mpr hmembers]
        exact congrArg _ (if_pos hany)

namespace State

variable {s : State} {g a : Nat}

/-! ## Probes, priority polls and test exchanges (R80, R81, R92) -/

theorem probePoll_next (h : s.LineFree g) (hp : s.priorityDue g = false) (ho : (s.seg g).roundOpen = true)
    (hm : s.nextMember g = none) (ha : afterMark (s.seg g).probeMark (s.isCandidate g) = some a) : s.probePoll g =
      (s.setSeg g { s.seg g with probeMark := a, roundOpen := false, prioDue := false }).pollDrop g a .probe := by
  rw [probePoll, (lineFree_iff s g).mpr h, hp, ho, hm, ha]
  rfl

theorem probePoll_idle (h : ¬s.LineFree g ∨ s.priorityDue g = true ∨ (s.seg g).roundOpen = false ∨
    s.nextMember g ≠ none ∨ afterMark (s.seg g).probeMark (s.isCandidate g) = none) : s.probePoll g = s := by
  unfold probePoll
  split
  · rename_i hg
    simp only [Bool.and_eq_true, lineFree_iff, Bool.not_eq_true', Option.isNone_iff_eq_none] at hg
    obtain ⟨⟨⟨hfree, hprio⟩, hopen⟩, hmember⟩ := hg
    rcases h with h | h | h | h | h
    · exact absurd hfree h
    · exact Bool.noConfusion (h.symm.trans hprio)
    · exact Bool.noConfusion (h.symm.trans hopen)
    · exact absurd hmember h
    · rw [h]
  · rfl

theorem priorityPoll_next (h : s.LineFree g) (hp : (s.seg g).prioDue = true)
    (ha : afterMark (s.seg g).prioMark (s.isUrgent g) = some a) : s.priorityPoll g =
      (s.setSeg g { s.seg g with prioMark := a, prioDue := false }).pollDrop g a .priority := by
  rw [priorityPoll, (lineFree_iff s g).mpr h, hp, ha]
  rfl

theorem priorityPoll_idle (h : ¬s.LineFree g ∨ (s.seg g).prioDue = false ∨
    afterMark (s.seg g).prioMark (s.isUrgent g) = none) : s.priorityPoll g = s := by
  unfold priorityPoll
  split
  · rename_i hg
    simp only [Bool.and_eq_true, lineFree_iff] at hg
    rcases h with h | h | h
    · exact absurd hg.1 h
    · exact Bool.noConfusion (h.symm.trans hg.2)
    · rw [h]
  · rfl

theorem testExchange_idle (h : (s.seg g).line ≠ .testing ∨ (s.seg g).exchange ≠ none) : s.testExchange g = s :=
  if_neg fun hg => h.elim (fun h => h hg.1) (fun h => h hg.2.2)

/-- Some member above the round position is left. -/
theorem nextMember_ne_none (h : ∃ b, (s.seg g).roundPos < b ∧ b ≤ 32 ∧ s.isMember g b = true) : s.nextMember g ≠ none := by
  obtain ⟨b, hr, hb, hm⟩ := h
  intro hnone
  exact Bool.noConfusion (((nextMember_none_iff s g).mp hnone b hr hb).symm.trans hm)

/-! ## The poll frame (R67, R211) -/

theorem pollByte_toNat (bit : Bool) (h : a ≤ 32) : (pollByte a bit).toNat = a + if bit then 128 else 0 := by
  cases bit <;> simp [pollByte, byte] <;> omega

/-- The body of a poll that carries a command. -/
theorem body_carried {e : Exchange} {q : QEntry} (hk : e.kind ≠ .test) (hc : e.carried = some q)
    (test : Option TestProgress) : e.body test = byte q.cmd.code :: q.cmd.operands := by
  cases hkind : e.kind with
  | test => exact absurd hkind hk
  | normal | probe | priority => simp only [Exchange.body, hkind, hc]

theorem body_none {e : Exchange} (hk : e.kind ≠ .test) (hc : e.carried = none) (test : Option TestProgress) :
    e.body test = [0#8] := by
  cases hkind : e.kind with
  | test => exact absurd hkind hk
  | normal | probe | priority => simp only [Exchange.body, hkind, hc]

theorem body_test {e : Exchange} {x : TestProgress} (hk : e.kind = .test) : e.body (some x) = 10#8 :: testPattern x := by
  simp only [Exchange.body, hk]

theorem testPattern_getElem (x : TestProgress) {i : Nat} (h : i < 8) : (testPattern x)[i]? = some
    (byte (8 * (8 * (x.attempt - 1) + (x.exchange - 1)) + i) ^^^ (if i % 2 = 0 then 0xAA#8 else 0x55#8)) := by
  have hn : ((x.attempt - 1) * 8 + (x.exchange - 1)) * 8 + i = 8 * (8 * (x.attempt - 1) + (x.exchange - 1)) + i := by ring
  simp [testPattern, h, hn]

end State

open State in
/-- Settles O31: each row by its guard, the sets of addresses in their own words, and the frame part by part. -/
theorem otherPolls : Obligations.OtherPolls := by
  refine ⟨fun g s a hdue hs hfree hprio hopen hm ha => ?_, fun g s a hdue hs hfree hprio ha => ?_,
    fun g s hdue hl ht he => ?_, fun g s hdue h => ?_, fun g s hdue h => ?_,
    fun s g a => ⟨isMember_iff s g a, isCandidate_iff s g a, isUrgent_iff s g a⟩, priorityDue_iff, fun g s hdue h => ?_,
    fun s g e he ha => ?_, fun x i => testPattern_getElem x⟩
  · rw [exec_probePoll, settle_eq s hdue, probePoll_next hfree hprio hopen ((nextMember_none_iff s g.val).mpr hm)
      (afterMark_of_isNext ha)]
    exact ⟨_, rfl, pollDrop_spec hs g.val a .probe
      { s.seg g.val with probeMark := a, roundOpen := false, prioDue := false } rfl⟩
  · rw [exec_priorityPoll, settle_eq s hdue, priorityPoll_next hfree hprio (afterMark_of_isNext ha)]
    exact ⟨_, rfl, pollDrop_spec hs g.val a .priority { s.seg g.val with prioMark := a, prioDue := false } rfl⟩
  · rw [exec_testExchange, settle_eq s hdue]
    exact congrArg _ (if_pos ⟨hl, Option.isSome_iff_ne_none.mpr ht, he⟩)
  · rw [exec_probePoll, settle_eq s hdue, probePoll_idle]
    exact h.imp_right (.imp_right (.imp_right (.imp nextMember_ne_none afterMark_none)))
  · rw [exec_priorityPoll, settle_eq s hdue, priorityPoll_idle]
    exact h.imp_right (.imp_right afterMark_none)
  · rw [exec_testExchange, settle_eq s hdue, testExchange_idle h]
  · refine ⟨pollByte e.addr e.bit, e.body (s.seg g).test, by rw [pollFrame, he]; rfl, crcOk_lineFrame _,
      pollByte_toNat e.bit ha, fun hk hc => body_none hk hc _, fun q hk hc => ?_, fun x hk hx => by rw [hx, body_test hk]⟩
    rw [body_carried hk hc]
    cases hq : q.cmd with
    | verdict tag out => cases out <;> rfl
    | _ => rfl

end Sys2Proof.Machine
end

