-- ==== Sys2Proof/Proofs/SilentRefuted.lean ====
section
/-! MISS_COUNT_SILENT fails its statement at a lock whose join procedure is owed a VERDICT: `Canonical` admits such a state,
and R77 offers whatever is owed. -/

set_option Elab.async false

namespace Sys2Proof.Proofs

open Sys2Proof.Machine

/-- The drop of `owedVerdict`, PRESENT with three misses: its unsent presentation of tag 5 has a VERDICT waiting, and its
join procedure is owed a VERDICT of the same tag. -/
def silentVerdict : State := { owedVerdict with
  places := [(0, { owedVerdict.place 0 with presence := .present, misses := 3 })] }

theorem silentVerdict_canonical : silentVerdict.Canonical := by
  constructor <;> decide

/-- The VERDICT is withdrawn, and the freed place takes the join procedure's. -/
theorem silentVerdict_waits :
    ((silentVerdict.runDue (.missSilent 0)).place 0).waits (State.isVerdict 5) = true := by decide +kernel

/-- Refutes O29: the VERDICT withdrawn at MISS_COUNT_SILENT frees a place, and the join procedure's owed VERDICT of the same
tag enters there, so that one waits on. -/
theorem not_missCountRows : ¬ Obligations.MissCountRows := by
  intro h
  obtain ⟨-, hunsent, -⟩ := h
  obtain ⟨t, ht, -, -, hwaits, -⟩ := hunsent 0 silentVerdict ⟨5, 7, none, .deny .unmapped, false, false, false⟩ (by decide)
    silentVerdict_canonical rfl (by decide) rfl rfl
  rw [exec_missCountSilent] at ht
  rw [← Host.Outcome.next.inj ht] at hwaits
  exact Bool.noConfusion (silentVerdict_waits.symm.trans hwaits)

end Sys2Proof.Proofs
end

