-- ==== Sys2Proof/Proofs/Exchanges.lean ====
section
/-! O33: an exchange that ends without a valid response (R66, R84, R94, R95). -/

set_option Elab.async false

namespace Sys2Proof.Machine

/-! ## Canonical tables with the same entries are the same -/

theorem Tab.ext_look {α : Type} {t u : Tab α} (ht : Tab.Rising t) (hu : Tab.Rising u)
    (h : ∀ k, Tab.look t k = Tab.look u k) : t = u := by
  have hpair {w : Tab α} (hw : Tab.Rising w) : w.Pairwise (fun a b => a.1 < b.1) := List.pairwise_map.mp hw
  have hnodup {w : Tab α} (hw : Tab.Rising w) : w.Nodup :=
    (hpair hw).imp fun hlt heq => Nat.ne_of_lt hlt (congrArg Prod.fst heq)
  refine List.Perm.eq_of_pairwise (fun _ _ _ _ h1 h2 => absurd h1 (Nat.lt_asymm h2)) (hpair ht) (hpair hu)
    ((List.perm_ext_iff_of_nodup (hnodup ht) (hnodup hu)).mpr fun e => ?_)
  rw [Tab.mem_iff_look ht e.1 e.2, Tab.mem_iff_look hu e.1 e.2, h]

theorem Tab.ext_read {α : Type} [DecidableEq α] {d : α} {t u : Tab α} (ht : Tab.Wf d t) (hu : Tab.Wf d u)
    (h : ∀ k, Tab.read d t k = Tab.read d u k) : t = u := by
  have hlook {w : Tab α} (hw : Tab.Wf d w) (k : Nat) :
      Tab.look w k = if Tab.read d w k = d then none else some (Tab.read d w k) := by
    cases hk : Tab.look w k with
    | none => simp [Tab.read, hk]
    | some v => simp [Tab.read, hk, hw.2 _ (Tab.look_mem hk)]
  exact Tab.ext_look ht.1 hu.1 fun k => by rw [hlook ht, hlook hu, h]

namespace State

variable {s : State} {g : Nat}

/-- The later of two writes of one segment stays. -/
theorem setSeg_setSeg (hs : s.Canonical) (g : Nat) (x y : Segment) : (s.setSeg g x).setSeg g y = s.setSeg g y := by
  have hsegs : ((s.setSeg g x).setSeg g y).segs = (s.setSeg g y).segs := by
    have hx := Tab.put_wf Segment.reset g x hs.segs
    refine Tab.ext_read (Tab.put_wf _ g y hx) (Tab.put_wf _ g y hs.segs) fun k => ?_
    change ((s.setSeg g x).setSeg g y).seg k = (s.setSeg g y).seg k
    rw [seg_setSeg _ _ _ _ hx.1, seg_setSeg _ _ _ _ hs.segs.1, seg_setSeg _ _ _ _ hs.segs.1]
    split <;> rfl
  exact congrArg (fun z => { s with segs := z }) hsegs

theorem setSeg_canonical (hs : s.Canonical) (g : Nat) (x : Segment) : (s.setSeg g x).Canonical :=
  (setSeg_ch s g x).canonical hs

theorem setSeg_seg_self (hs : s.Canonical) (g : Nat) (x : Segment) : (s.setSeg g x).seg g = x :=
  (seg_setSeg s g g x hs.segs.1).trans (if_pos rfl)

/-! ## The end of an exchange (R66) -/

/-- A segment whose exchange has ended. -/
def exchangeOver (e : Exchange) (x : Segment) : Segment :=
  { x with exchange := none, prioDue := x.prioDue || e.kind == .normal || e.kind == .probe }

theorem endExchange_eq (g : Nat) (e : Exchange) (s : State) :
    s.endExchange g e = s.setSeg g (exchangeOver e (s.seg g)) := rfl

theorem windowClosed_some {e : Exchange} (he : (s.seg g).exchange = some e) :
    s.windowClosed g = (s.endExchange g e).missedExchange g e := by
  simp only [windowClosed, he]

theorem windowClosed_none (he : (s.seg g).exchange = none) : s.windowClosed g = s := by
  simp only [windowClosed, he]

theorem responseReceived_none (he : (s.seg g).exchange = none) (frame : List Byte) : s.responseReceived g frame = s := by
  simp only [responseReceived, he]

theorem responseReceived_bad {e : Exchange} {frame : List Byte} (he : (s.seg g).exchange = some e)
    (hr : validResponse e frame = none) :
    s.responseReceived g frame = ((s.endExchange g e).countBad g).missedExchange g e := by
  simp only [responseReceived, he, hr]

/-- R95: the bad response is counted before the exchange ends as well as after it. -/
theorem countBad_endExchange (hs : s.Canonical) (g : Nat) (e : Exchange) : (s.endExchange g e).countBad g =
    (if (s.seg g).line = .inService ∨ (s.seg g).line = .degraded then
      s.setSeg g { s.seg g with badCount := min 255 ((s.seg g).badCount + 1) } else s).endExchange g e := by
  have hself := setSeg_seg_self hs g (exchangeOver e (s.seg g))
  have hpoll : (s.endExchange g e).polling g = true ↔ (s.seg g).line = .inService ∨ (s.seg g).line = .degraded := by
    rw [polling_iff, endExchange_eq, hself]
    rfl
  unfold countBad
  simp only [hpoll]
  split
  · rw [endExchange_eq, modSeg, hself, setSeg_setSeg hs, endExchange_eq, setSeg_seg_self hs, setSeg_setSeg hs]
    rfl
  · rfl

/-! ## A missed poll (R84, R94) -/

theorem missedExchange_drop {e : Exchange} (hk : e.kind ≠ .test) (ha : e.addr ≠ 0) :
    s.missedExchange g e = s.missDrop (placeOf g e.addr) := by
  simp only [missedExchange, hk, ha, if_false]

theorem missedExchange_terminator {e : Exchange} (hk : e.kind ≠ .test) (ha : e.addr = 0) :
    s.missedExchange g e = s.missTerminator g := by
  simp only [missedExchange, hk, ha, if_false, if_true]

theorem missDrop_absent {p : Nat} (h : (s.place p).presence = .absent) : s.missDrop p = s := if_pos h

/-- A consequence that is due under a condition. -/
theorem addDue_if (c : Prop) [Decidable c] (d : Due) (s : State) :
    (if c then s.addDue d else s) = { s with due := s.due ++ if c then [d] else [] } := by
  split
  · rfl
  · rw [List.append_nil]

/-- What a missed poll of a drop that is not ABSENT makes due. -/
def missDue (p : Nat) (pl : Place) (n : Nat) : List Due :=
  (if pl.presence = .present ∧ n = 3 then [.missSilent p] else []) ++ if n = 16 then [.missAbsent p] else []

theorem missDrop_counted {p : Nat} (h : (s.place p).presence ≠ .absent) :
    let n := min 16 ((s.place p).misses + 1)
    s.missDrop p = { s.setPlace p { s.place p with misses := n } with due := s.due ++ missDue p (s.place p) n } := by
  simp only [missDrop, h, if_false, addDue_if, missDue, List.append_assoc]
  rfl

theorem mem_missDue (p n : Nat) (pl : Place) : (Due.missSilent p ∈ missDue p pl n ↔ pl.presence = .present ∧ n = 3) ∧
    (Due.missAbsent p ∈ missDue p pl n ↔ n = 16) := by
  by_cases h3 : pl.presence = .present ∧ n = 3
  · simp [missDue, h3]
  · by_cases h16 : n = 16 <;> simp [missDue, h3, h16]

theorem missTerminator_eq (g : Nat) (s : State) : let n := min 3 ((s.seg g).termMisses + 1)
    s.missTerminator g = { s.setSeg g { s.seg g with termMisses := n } with
      due := s.due ++ if n = 3 then [.terminatorDown g] else [] } := addDue_if ..

end State

open State in
/-- Settles O33: an exchange's end writes its segment, and the miss that follows its drop or its terminator. -/
theorem missedAndBadExchanges : Obligations.MissedAndBadExchanges := by
  refine ⟨fun g s e hdue hs he hk ha => ?_, fun g s e hdue hs he hk ha => ?_, fun g s frame e hdue hs he hr => ?_,
    fun g s frame hdue he => ?_⟩
  · rw [exec_responseWindowClose, settle_eq s hdue, windowClosed_some he, missedExchange_drop hk ha, endExchange_eq]
    generalize hx : exchangeOver e (s.seg g.val) = x
    have hseg := fun h : Nat => seg_setSeg s g.val h x hs.segs.1
    refine ⟨_, rfl, ?_⟩
    by_cases hp : (s.place (placeOf g.val e.addr)).presence = .absent
    · rw [missDrop_absent (s := s.setSeg g.val x) hp]
      exact ⟨((hseg _).trans (if_pos rfl)).trans hx.symm, fun h hh => (hseg h).trans (if_neg hh), rfl,
        fun _ => ⟨rfl, hdue⟩, fun hn => absurd hp hn⟩
    · rw [missDrop_counted (s := s.setSeg g.val x) hp]
      obtain ⟨hsilent, habsent⟩ := mem_missDue (placeOf g.val e.addr) (min 16 ((s.place (placeOf g.val e.addr)).misses + 1))
        (s.place (placeOf g.val e.addr))
      have hplace := fun q : Nat => place_setPlace s (placeOf g.val e.addr) q
        { s.place (placeOf g.val e.addr) with misses := min 16 ((s.place (placeOf g.val e.addr)).misses + 1) } hs.places.1
      refine ⟨((hseg _).trans (if_pos rfl)).trans hx.symm, fun h hh => (hseg h).trans (if_neg hh), rfl,
        fun ha => absurd ha hp, fun _ => ⟨(hplace _).trans (if_pos rfl), fun q hq => (hplace q).trans (if_neg hq), ?_, ?_⟩⟩
      · rw [← hsilent, show (s.setSeg g.val x).due = [] from hdue]
        rfl
      · rw [← habsent, show (s.setSeg g.val x).due = [] from hdue]
        rfl
  · rw [exec_responseWindowClose, settle_eq s hdue, windowClosed_some he, missedExchange_terminator hk ha, missTerminator_eq,
      endExchange_eq, setSeg_seg_self hs, setSeg_setSeg hs]
    refine ⟨_, rfl, setSeg_seg_self hs .., fun h hh => seg_setSeg_ne s _ hh, rfl, ?_⟩
    change _ ∈ s.due ++ _ ↔ _
    rw [hdue]
    have hthird : min 3 ((s.seg g.val).termMisses + 1) = 3 ↔ 2 ≤ (s.seg g.val).termMisses := by omega
    simp only [exchangeOver, List.nil_append, hthird]
    by_cases h : 2 ≤ (s.seg g.val).termMisses <;> simp [h]
  · rw [exec_responseReceived, exec_responseWindowClose, settle_eq s hdue, responseReceived_bad he hr, countBad_endExchange hs]
    split
    · have hself := setSeg_seg_self hs g.val { s.seg g.val with badCount := min 255 ((s.seg g.val).badCount + 1) }
      rw [settle_eq _ (by exact hdue), windowClosed_some (e := e) (by rw [hself]; exact he)]
    · rw [settle_eq s hdue, windowClosed_some he]
  · rw [exec_responseReceived, exec_responseWindowClose, settle_eq s hdue, responseReceived_none he, windowClosed_none he]
    exact ⟨rfl, rfl⟩

end Sys2Proof.Machine
end

