-- ==== Sys2Proof/Proofs/SegmentLines.lean ====
section
/-! The push engine of a segment step by step (R108 to R111): it adds entries at the drop it serves and moves its own fields;
and what an operation on one segment's line leaves: the segment's other fields, the other segments and their places. -/

set_option Elab.async false

namespace Sys2Proof.Machine

/-- A segment without its push engine's fields. -/
def Segment.core (x : Segment) : Segment :=
  { x with served := 0, index := 0, pass := .guest, terminal := true, waits := false, requests := [] }

/-- R108, R109: the drops that the engine serves and is asked to serve are drops of its segment. -/
def Segment.Addressed (x : Segment) : Prop := x.served ≤ 32 ∧ ∀ a ∈ x.requests, a ≤ 32

theorem segOf_placeOf {g a : Nat} (h : a ≤ 32) : segOf (placeOf g a) = g := by
  unfold segOf placeOf
  omega

namespace State

/-- What one step of a push engine does: an addition at the drop it serves, a move of its own marks, a reload's start. -/
inductive EngineStep (g : Nat) : State → State → Prop
  | add (s : State) (slot i card : Nat) : EngineStep g s (s.modPlace (placeOf g (s.seg g).served) (Place.addEntry slot i card))
  | mark (s : State) (x : Segment) (hcore : x.core = (s.seg g).core) (hserved : x.served = (s.seg g).served)
      (hrequests : x.requests = (s.seg g).requests) : EngineStep g s (s.setSeg g x)
  | start (s : State) (a : Nat) (ha : a ∈ (s.seg g).requests) : EngineStep g s (s.setSeg g { s.seg g with
      requests := (s.seg g).requests.filter (fun r => r != a)
      served := a, index := 0, pass := .guest, terminal := false, waits := false })

/-- A run of a push engine. -/
abbrev EngineRun (g : Nat) : State → State → Prop := Relation.ReflTransGen (EngineStep g)

theorem walkPass_run (g : Nat) (guest : Bool) (cs : List (Nat × Cred)) (pos : Nat) (s : State) :
    EngineRun g s (walkPass (placeOf g (s.seg g).served) guest pos cs s).1 := by
  induction cs generalizing pos s with
  | nil => exact .refl
  | cons e cs ih =>
    simp only [walkPass]
    split
    · exact .refl
    · split
      · split
        · rename_i slot _ _ _
          exact .head (.add s slot e.1 e.2.card)
            (ih (e.1 + 1) (s.modPlace (placeOf g (s.seg g).served) (Place.addEntry slot e.1 e.2.card)))
        · exact .refl
      · exact ih _ _

theorem walkFrom_run (g : Nat) (guest : Bool) (s : State) : EngineRun g s (walkFrom g guest s).1 := walkPass_run ..

theorem walkOther_run (g : Nat) (s : State) : EngineRun g s (walkOther g s) := by
  have h := walkFrom_run g false s
  unfold walkOther
  split <;> rename_i heq <;> rw [heq] at h <;> exact .tail h (.mark _ _ rfl rfl rfl)

theorem enterOther_run (g : Nat) (s : State) : EngineRun g s (enterOther g s) :=
  .trans (.single (.mark s { s.seg g with index := 0, pass := .other } rfl rfl rfl)) (walkOther_run g _)

theorem walk_run (g : Nat) (s : State) : EngineRun g s (walk g s) := by
  unfold walk
  split
  · exact walkOther_run g s
  · have h := walkFrom_run g true s
    split <;> rename_i heq <;> rw [heq] at h
    · exact .tail h (.mark _ _ rfl rfl rfl)
    · exact h.trans (enterOther_run g _)
    · exact h.trans (enterOther_run g _)

theorem nextServed_mem {x : Segment} {a : Nat} (h : nextServed x = some a) : a ∈ x.requests := by
  unfold nextServed at h
  split at h
  · rename_i b hb
    cases h
    exact List.mem_of_find?_eq_some hb
  · exact List.mem_of_head? h

theorem startReload_run (g : Nat) (s : State) : EngineRun g s (startReload g s) := by
  unfold startReload
  simp only
  split
  · split
    · rename_i ha
      exact .single (.start s _ (nextServed_mem ha))
    · exact .refl
  · exact .refl

theorem pump_run (g n : Nat) (s : State) : EngineRun g s (pump g n s) := by
  induction n generalizing s with
  | zero => exact .refl
  | succ n ih =>
    simp only [pump]
    split
    · exact .refl
    · split
      · split
        · exact ((startReload_run g s).trans (walk_run g _)).trans (ih _)
        · exact .refl
      · split
        · exact .refl
        · split
          · exact (walk_run g s).trans (ih _)
          · exact walk_run g s

theorem runEngine_run (g : Nat) (s : State) : EngineRun g s (s.runEngine g) := pump_run ..

/-! ## What an operation on one segment's line leaves -/

/-- From `s` to `t` something happens at segment `g` alone: every other segment is the same, no record and no fault is lost,
no door record changes, no drop leaves ABSENT; and where the engine's addresses are drops of the segment, they stay so, and
the places of the other segments are the same. -/
structure AtSegment (g : Nat) (s t : State) : Prop where
  canonical : t.Canonical
  others : ∀ h, h ≠ g → t.seg h = s.seg h
  grows : RingGrows s t
  faults : ∀ k, (s.fault k).set = true → (t.fault k).set = true
  doors : ∀ q, (t.place q).door = (s.place q).door
  gone : ∀ q, (s.place q).presence = .absent → (t.place q).presence = .absent
  apart : (s.seg g).Addressed → (t.seg g).Addressed ∧ ∀ q, segOf q ≠ g → t.place q = s.place q

/-- The same where the segment itself keeps everything but its push engine. -/
structure OnLine (g : Nat) (s t : State) : Prop extends AtSegment g s t where
  core : (t.seg g).core = (s.seg g).core

namespace AtSegment

variable {g : Nat} {s t u : State}

theorem trans (h1 : AtSegment g s t) (h2 : AtSegment g t u) : AtSegment g s u where
  canonical := h2.canonical
  others h hh := (h2.others h hh).trans (h1.others h hh)
  grows := h1.grows.trans h2.grows
  faults k h := h2.faults k (h1.faults k h)
  doors q := (h2.doors q).trans (h1.doors q)
  gone q h := h2.gone q (h1.gone q h)
  apart h :=
    have ⟨ha, hp⟩ := h1.apart h
    have ⟨ha', hp'⟩ := h2.apart ha
    ⟨ha', fun q hq => (hp' q hq).trans (hp q hq)⟩

/-- A write of the segment. -/
theorem setSeg (hs : s.Canonical) {x : Segment} (ha : (s.seg g).Addressed → x.Addressed) :
    AtSegment g s (s.setSeg g x) :=
  ⟨setSeg_canonical hs g x, fun h hh => seg_setSeg_ne s x hh, .of_eq rfl, fun _ h => h, fun _ => rfl, fun _ h => h,
    fun haddr => ⟨by rw [setSeg_seg_self hs]; exact ha haddr, fun _ _ => rfl⟩⟩

end AtSegment

namespace OnLine

variable {g : Nat} {s t u : State}

theorem refl (hs : s.Canonical) : OnLine g s s :=
  ⟨⟨hs, fun _ _ => rfl, .of_eq rfl, fun _ h => h, fun _ => rfl, fun _ h => h, fun h => ⟨h, fun _ _ => rfl⟩⟩, rfl⟩

theorem trans (h1 : OnLine g s t) (h2 : OnLine g t u) : OnLine g s u :=
  ⟨h1.toAtSegment.trans h2.toAtSegment, h2.core.trans h1.core⟩

/-- A change that leaves places and segments: a record or a fault. -/
theorem of_steady {K : List Part} (hs : s.Canonical) (h : Changes K s t) (hg : RingGrows s t) (hf : Steady s t)
    (hp : Part.places ∉ K := by decide) (hq : Part.segs ∉ K := by decide) : OnLine g s t := by
  have hseg : t.seg = s.seg := by funext k; rw [seg, h.segs_eq hq, seg]
  have hplace := h.place_eq hp
  exact ⟨⟨h.canonical hs, fun _ _ => by rw [hseg], hg, hf.faults, fun _ => by rw [hplace],
    fun q hq => by rw [hplace]; exact hq, fun ha => by rw [hseg, hplace]; exact ⟨ha, fun _ _ => rfl⟩⟩, by rw [hseg]⟩

theorem handOver (hs : s.Canonical) (d : Draft) : OnLine g s (s.handOver d) :=
  of_steady hs (handOver_ch d s) (.of_handOver s d) (.handOver hs d)

theorem giveFault (hs : s.Canonical) (k : FaultKind) (d : List Byte) : OnLine g s (s.giveFault k d) :=
  of_steady hs (giveFault_ch k d s) (.of_eq (giveFault_journal s k d)) (.giveFault hs k d)

/-- A change of one place, at the engine's segment where its addresses are. -/
theorem modPlace (hs : s.Canonical) {p : Nat} {f : Place → Place} (hd : ∀ pl, (f pl).door = pl.door)
    (ha : ∀ pl, pl.presence = .absent → (f pl).presence = .absent) (hp : (s.seg g).Addressed → segOf p = g) :
    OnLine g s (s.modPlace p f) := by
  have hplace (q : Nat) : (s.modPlace p f).place q = if q = p then f (s.place p) else s.place q :=
    place_modPlace s p q f hs.places.1
  refine ⟨⟨setPlace_canonical hs p _, fun _ _ => rfl, .of_eq rfl, fun _ h => h, fun q => ?_, fun q hq => ?_,
    fun haddr => ⟨haddr, fun q hq => ?_⟩⟩, rfl⟩
  · rw [hplace]
    split
    · rename_i h; subst h; exact hd _
    · rfl
  · rw [hplace]
    split
    · rename_i h; subst h; exact ha _ hq
    · exact hq
  · rw [hplace, if_neg (fun h => hq (by rw [h]; exact hp haddr))]

/-- A change of the segment's engine. -/
theorem setSeg (hs : s.Canonical) {x : Segment} (hc : x.core = (s.seg g).core)
    (ha : (s.seg g).Addressed → x.Addressed) : OnLine g s (s.setSeg g x) :=
  ⟨.setSeg hs ha, by rw [setSeg_seg_self hs, hc]⟩

theorem fold {α : Type} {f : State → α → State} (h : ∀ s x, s.Canonical → OnLine g s (f s x)) (l : List α)
    (hs : s.Canonical) : OnLine g s (l.foldl f s) := by
  induction l generalizing s with
  | nil => exact refl hs
  | cons x l ih => exact (h s x hs).trans (ih (h s x hs).canonical)

/-- An operation under a condition. -/
theorem ite {c : Prop} [Decidable c] (hs : s.Canonical) (h : OnLine g s t) : OnLine g s (if c then t else s) := by
  split
  · exact h
  · exact refl hs

theorem engineStep (hs : s.Canonical) (h : EngineStep g s t) : OnLine g s t := by
  cases h with
  | add slot i card =>
    have hcore (pl : Place) : (Place.addEntry slot i card pl).core = pl.core := (Place.offer_offered ..).core
    refine modPlace hs (fun pl => (congrArg Place.door (hcore pl) :)) (fun pl hpl => ?_) (fun haddr => segOf_placeOf haddr.1)
    exact (congrArg Place.presence (hcore pl) :).trans hpl
  | mark x hcore hserved hrequests =>
    exact setSeg hs hcore (fun haddr => ⟨by rw [hserved]; exact haddr.1, by rw [hrequests]; exact haddr.2⟩)
  | start a ha =>
    exact setSeg hs rfl (fun haddr => ⟨haddr.2 a ha, fun b hb => haddr.2 b (List.mem_filter.mp hb).1⟩)

theorem engineRun (hs : s.Canonical) (h : EngineRun g s t) : OnLine g s t := by
  induction h with
  | refl => exact refl hs
  | tail _ h ih => exact ih.trans (engineStep ih.canonical h)

end OnLine

/-! ## A drop that leaves the line (R78, R89, R111) -/

theorem endPresentation_onLine {s : State} (hs : s.Canonical) (p : Nat) (stale lost : Bool) :
    OnLine (segOf p) s (s.endPresentation p stale lost) := by
  unfold endPresentation
  split
  · exact .refl hs
  · have h := OnLine.modPlace hs (p := p) (f := fun pl => { pl with presentation := none }) (fun _ => rfl) (fun _ h => h)
      (fun _ => rfl)
    exact h.trans (.handOver h.canonical _)

theorem loseCmd_onLine {s : State} (hs : s.Canonical) (p : Nat) (e : QEntry) : OnLine (segOf p) s (s.loseCmd p e) := by
  unfold loseCmd
  split
  · split
    · exact .ite hs (endPresentation_onLine hs p false true)
    · exact .refl hs
  · exact .handOver hs _
  all_goals exact .refl hs

theorem endReload_addressed (a : Nat) {x : Segment} (h : x.Addressed) : (Segment.endReload a x).Addressed :=
  ⟨h.1, fun b hb => h.2 b (List.mem_filter.mp hb).1⟩

theorem leaveCache_onLine {s : State} (hs : s.Canonical) (p : Nat) : OnLine (segOf p) s (s.leaveCache p) := by
  have hdir := OnLine.modPlace hs (p := p) (f := fun pl => { pl with directory := [], flush := none }) (fun _ => rfl)
    (fun _ h => h) (fun _ => rfl)
  have hclear : OnLine (segOf p) s (s.clearCache p) :=
    hdir.trans (.setSeg hdir.canonical rfl (endReload_addressed (dropOf p)))
  unfold leaveCache
  simp only
  split
  · exact hclear.trans (.engineRun hclear.canonical (runEngine_run _ _))
  · exact hclear

theorem endSession_onLine {s : State} (hs : s.Canonical) (p : Nat) : OnLine (segOf p) s (s.endSession p) := by
  have hended := OnLine.modPlace hs (p := p) (f := fun pl => { pl with session := none }) (fun _ => rfl) (fun _ h => h)
    (fun _ => rfl)
  unfold endSession
  simp only
  split
  · exact .refl hs
  · split
    · exact hended.trans (.handOver hended.canonical _)
    · exact hended

theorem endLid_onLine {s : State} (hs : s.Canonical) (p : Nat) : OnLine (segOf p) s (s.endLid p) := by
  have hwindow := OnLine.modPlace hs (p := p) (f := fun pl => { pl with window := none }) (fun _ => rfl) (fun _ h => h)
    (fun _ => rfl)
  exact hwindow.trans (endSession_onLine hwindow.canonical p)

theorem presenceRecord_onLine {s : State} (hs : s.Canonical) (g p : Nat) (x : Presence) :
    OnLine g s (s.presenceRecord p x) := .handOver hs _

/-- R89: a drop that enters ABSENT is ABSENT, and nothing else happens but on its segment's line. -/
theorem enterAbsent_onLine {s : State} (hs : s.Canonical) (p : Nat) :
    OnLine (segOf p) s (s.enterAbsent p) ∧ ((s.enterAbsent p).place p).presence = .absent := by
  have hmod {u : State} (hu : u.Canonical) {f : Place → Place} (hd : ∀ pl, (f pl).door = pl.door)
      (ha : ∀ pl, pl.presence = .absent → (f pl).presence = .absent) : OnLine (segOf p) u (u.modPlace p f) :=
    .modPlace hu hd ha (fun _ => rfl)
  unfold enterAbsent
  simp only
  have h1 := hmod hs (f := fun pl => { pl with presence := .absent, delivery := none, waiting := [] }) (fun _ => rfl)
    (fun _ _ => rfl)
  have hgone : ((s.modPlace p (fun pl => { pl with presence := .absent, delivery := none, waiting := [] })).place p).presence
      = .absent := by
    rw [place_modPlace _ _ _ _ hs.places.1, if_pos rfl]
  generalize s.modPlace p (fun pl => { pl with presence := .absent, delivery := none, waiting := [] }) = s1 at h1 hgone
  have hlost := OnLine.fold (fun u e hu => loseCmd_onLine hu p e) (s.place p).queue h1.canonical
  have h2 := hlost.trans (endPresentation_onLine hlost.canonical p false true)
  generalize State.endPresentation p false true _ = s2 at h2
  have h3 := h2.trans (hmod h2.canonical (f := fun pl => pl.resetDoor (s2.zoneOfDoor pl.door == .released)) (fun _ => rfl)
    (fun _ h => h))
  have h4 := h3.trans (leaveCache_onLine h3.canonical p)
  have h5 := h4.trans (.ite (c := (s.place p).door.isMinibar = true) h4.canonical (endLid_onLine h4.canonical p))
  have h6 := h5.trans (hmod h5.canonical (f := absentFields) (fun _ => rfl) (fun _ h => h))
  have h7 := h6.trans (presenceRecord_onLine h6.canonical _ p (s.place p).presence)
  have h8 := h7.trans (.giveFault h7.canonical .dropAbsent (padTo 3 (placeBytes p)))
  exact ⟨h1.trans h8, h8.gone p hgone⟩

/-- R92, R97: every drop of the segment is ABSENT. -/
theorem allAbsent_onLine {s : State} (hs : s.Canonical) (g : Nat) : OnLine g s (s.allAbsent g) ∧
    ∀ p, segOf p = g → ((s.allAbsent g).place p).presence = .absent := by
  have hfold (l : List Nat) (hl : ∀ p ∈ l, segOf p = g) {u : State} (hu : u.Canonical) :
      OnLine g u (l.foldl (fun s p => s.enterAbsent p) u) ∧
        ∀ p ∈ l, ((l.foldl (fun s p => s.enterAbsent p) u).place p).presence = .absent := by
    induction l generalizing u with
    | nil => exact ⟨.refl hu, nofun⟩
    | cons p l ih =>
      obtain ⟨hline, hp⟩ := enterAbsent_onLine hu p
      rw [hl p (by simp)] at hline
      obtain ⟨hrest, hall⟩ := ih (fun q hq => hl q (by simp [hq])) hline.canonical
      exact ⟨hline.trans hrest, List.forall_mem_cons.mpr ⟨hrest.gone p hp, hall⟩⟩
  have hmem (p : Nat) : p ∈ (s.placesOn g).filter (fun p => (s.place p).presence != .absent) ↔
      segOf p = g ∧ (s.place p).presence ≠ .absent := by
    simp only [placesOn, List.mem_filter, beq_iff_eq, bne_iff_ne, ne_eq]
    refine ⟨fun h => ⟨h.1.2, h.2⟩, fun h => ⟨⟨mem_placeKeys fun hr => h.2 (by rw [hr]; rfl), h.1⟩, h.2⟩⟩
  obtain ⟨hline, hall⟩ := hfold _ (fun p hp => ((hmem p).mp hp).1) hs
  refine ⟨hline, fun p hp => ?_⟩
  by_cases h : (s.place p).presence = .absent
  · exact hline.gone p h
  · exact hall p ((hmem p).mpr ⟨hp, h⟩)

end State

end Sys2Proof.Machine
end

