-- ==== Sys2Proof/Proofs/LineTests.lean ====
section
/-! O28: a line state entered (R90, R91, R95), and the line test's start (R92, R94, R97). -/

set_option Elab.async false

namespace Sys2Proof.Machine

namespace State

variable {s t : State} {g : Nat}

/-! ## A line state entered (R91) -/

/-- R66, R95: a segment in another line state. -/
def lineMoved (x : LineState) (y : Segment) : Segment :=
  { y with line := x, cleanWindows := 0, exchange := if x = .inService ∨ x = .degraded then y.exchange else none }

theorem changeLine_eq (g : Nat) (x : LineState) (bs : List Byte) (s : State) : s.changeLine g x bs =
    ((s.setSeg g (lineMoved x (s.seg g))).log .segmentState (.segment g)
      ([byte (lineCode (s.seg g).line), byte (lineCode x)] ++ bs)).lineFault g x := rfl

theorem lineFault_onLine (hs : s.Canonical) (g : Nat) (x : LineState) : OnLine g s (s.lineFault g x) := by
  cases x with
  | degraded | down | failed => exact .giveFault hs _ _
  | outOfService | testing | inService | testPlug => exact .refl hs

theorem log_onLine (hs : s.Canonical) (g : Nat) (k : RecKind) (w : Spot) (bs : List Byte) : OnLine g s (s.log k w bs) :=
  .handOver hs _

theorem changeLine_onLine (hs : s.Canonical) (g : Nat) (x : LineState) (bs : List Byte) :
    OnLine g (s.setSeg g (lineMoved x (s.seg g))) (s.changeLine g x bs) := by
  have hlog := log_onLine (setSeg_canonical hs g (lineMoved x (s.seg g))) g .segmentState (.segment g)
    ([byte (lineCode (s.seg g).line), byte (lineCode x)] ++ bs)
  exact hlog.trans (lineFault_onLine hlog.canonical g x)

theorem changeLine_at (hs : s.Canonical) (g : Nat) (x : LineState) (bs : List Byte) :
    AtSegment g s (s.changeLine g x bs) :=
  .trans (.setSeg hs (x := lineMoved x (s.seg g)) (fun h => h)) (changeLine_onLine hs g x bs).toAtSegment

/-- The line state entered changes no other segment and no place. -/
theorem changeLine_segs (g : Nat) (x : LineState) (bs : List Byte) (s : State) :
    (s.changeLine g x bs).segs = (s.setSeg g (lineMoved x (s.seg g))).segs ∧
      (s.changeLine g x bs).places = s.places := by
  have h : Changes kLog (s.setSeg g (lineMoved x (s.seg g))) (s.changeLine g x bs) := (log_ch ..).comp (lineFault_ch ..)
  exact ⟨h.segs_eq, h.places_eq⟩

theorem changeLine_seg (hs : s.Canonical) (g : Nat) (x : LineState) (bs : List Byte) :
    (s.changeLine g x bs).seg g = lineMoved x (s.seg g) := by
  rw [seg, (changeLine_segs g x bs s).1]
  exact setSeg_seg_self hs g _

theorem changeLine_fault (hs : s.Canonical) (g : Nat) (bs : List Byte) :
    ((s.changeLine g .degraded bs).fault .segmentDegraded).set = true ∧
      ((s.changeLine g .down bs).fault .segmentDown).set = true := by
  have hlog (x : LineState) := (log_onLine (setSeg_canonical hs g (lineMoved x (s.seg g))) g .segmentState (.segment g)
    ([byte (lineCode (s.seg g).line), byte (lineCode x)] ++ bs)).canonical.faults
  exact ⟨(giveFault_fault (hlog .degraded) _ .segmentDegraded _).1, (giveFault_fault (hlog .down) _ .segmentDown _).1⟩

/-! ## The line test's start (R92) -/

/-- What a segment has whose test has just begun. -/
theorem startTest_fields {x y : Segment} (h : x.core = (startTest y).core) :
    x.line = y.line ∧ x.test = some ⟨1, 1, 0, .none, false⟩ ∧ x.exchange = none ∧ x.roundPos = 0 ∧ x.probeMark = 0 ∧
      x.prioMark = 0 ∧ x.roundOpen = false ∧ x.prioDue = false ∧ x.retest = 0 ∧ x.cleanWindows = y.cleanWindows :=
  ⟨(congrArg Segment.line h :), (congrArg Segment.test h :), (congrArg Segment.exchange h :), (congrArg Segment.roundPos h :),
    (congrArg Segment.probeMark h :), (congrArg Segment.prioMark h :), (congrArg Segment.roundOpen h :),
    (congrArg Segment.prioDue h :), (congrArg Segment.retest h :), (congrArg Segment.cleanWindows h :)⟩

/-- The segment as TESTING finds it. -/
def toTesting (y : Segment) : Segment := if y.line = .testing then y else lineMoved .testing y

theorem toTesting_line (y : Segment) : (toTesting y).line = .testing := by
  unfold toTesting
  split
  · assumption
  · rfl

/-- R92: a segment that enters TESTING begins its test, and its drops are ABSENT. -/
theorem enterTesting_spec (hs : s.Canonical) (g : Nat) : let t := s.enterTesting g
    AtSegment g s t ∧ (t.seg g).core = (startTest (toTesting (s.seg g))).core ∧
      ∀ p, segOf p = g → (t.place p).presence = .absent := by
  have hline : ∃ u, s.enterTesting g = (u.allAbsent g).modSeg g startTest ∧ u.Canonical ∧
      u.seg g = toTesting (s.seg g) ∧ (AtSegment g u (s.enterTesting g) → AtSegment g s (s.enterTesting g)) := by
    by_cases h : (s.seg g).line = .testing
    · exact ⟨s, by simp only [enterTesting, h, if_true], hs, (if_pos h).symm, id⟩
    · have hat := changeLine_at hs g .testing []
      exact ⟨s.changeLine g .testing [], by simp only [enterTesting, h, if_false], hat.canonical,
        (changeLine_seg hs g .testing []).trans (if_neg h).symm, hat.trans⟩
  obtain ⟨u, heq, hu, hseg, hat⟩ := hline
  obtain ⟨habsent, hall⟩ := allAbsent_onLine hu g
  have hstart : AtSegment g u (s.enterTesting g) := by
    rw [heq]
    exact habsent.toAtSegment.trans (.setSeg habsent.canonical (fun h => h))
  refine ⟨hat hstart, ?_, fun p hp => ?_⟩
  · rw [heq, modSeg, setSeg_seg_self habsent.canonical, ← hseg]
    exact congrArg startTest habsent.core
  · rw [heq]
    exact hall p hp

theorem addressed_of_range (h : s.ReloadsInRange) (g : Nat) : (s.seg g).Addressed := by
  unfold seg Tab.read
  cases hg : Tab.look s.segs g with
  | none => exact ⟨by decide, nofun⟩
  | some x =>
    obtain ⟨-, hserved, hrequests, -⟩ := h _ (Tab.look_mem hg)
    exact ⟨hserved, fun a ha => (hrequests a ha).2⟩

theorem without_canonical (hs : s.Canonical) (d : Due) : (s.without d).Canonical := { hs with }

/-- R94: a segment that passes through DOWN begins its test with no clean windows left, and gives its fault. -/
theorem enterDown_spec (hs : s.Canonical) (g : Nat) : let t := s.enterDown g
    AtSegment g s t ∧ (t.seg g).core = (startTest (lineMoved .testing (lineMoved .down (s.seg g)))).core ∧
      (∀ p, segOf p = g → (t.place p).presence = .absent) ∧ (t.fault .segmentDown).set = true := by
  have hdown := changeLine_at hs g .down []
  obtain ⟨hat, hcore, habsent⟩ := enterTesting_spec hdown.canonical g
  rw [changeLine_seg hs] at hcore
  exact ⟨hdown.trans hat, hcore, habsent, hat.faults _ (changeLine_fault hs g []).2⟩

/-! ## The rows of the line states -/

theorem runDue_retest (hm : Due.minuteAdvance ∉ s.due) (g : Nat) :
    s.runDue (.retest g) = (s.without (.retest g)).retestTimeout g := runDue_alone hm (fun _ _ => nofun)

theorem runDue_terminatorDown (hm : Due.minuteAdvance ∉ s.due) (g : Nat) :
    s.runDue (.terminatorDown g) = (s.without (.terminatorDown g)).terminatorDown g := runDue_alone hm (fun _ _ => nofun)

theorem runDue_errorWindow (hm : Due.minuteAdvance ∉ s.due) (g : Nat) :
    s.runDue (.errorWindow g) = (s.without (.errorWindow g)).closeWindow g := runDue_alone hm (fun _ _ => nofun)

/-- R94: the guard of TERMINATOR_MISSES_DOWN. -/
theorem terminatorDown_eq (g : Nat) (s : State) : s.terminatorDown g =
    if ((s.seg g).line = .inService ∨ (s.seg g).line = .degraded) ∧ 3 ≤ (s.seg g).termMisses then s.enterDown g else s := by
  simp only [terminatorDown, Bool.and_eq_true, polling_iff, decide_eq_true_eq]

end State

open State in
/-- Settles O28: both rows enter TESTING, the second through DOWN, where their rules' conditions hold. -/
theorem lineTestStarts : Obligations.LineTestStarts := by
  refine ⟨fun g s hm hs hr hl h0 => ?_, fun g s hm hs hr hl h3 => ?_, fun g s hm h => ?_, fun g s hm h => ?_⟩
  · have hrun : s.runDue (.retest g.val) = (s.without (.retest g.val)).enterTesting g.val :=
      (runDue_retest hm g.val).trans (if_pos ⟨hl, h0⟩)
    rw [exec_retestTimeout, hrun]
    obtain ⟨hat, hcore, habsent⟩ := enterTesting_spec (without_canonical hs (.retest g.val)) g.val
    obtain ⟨hline, htest, hexch, hround, hprobe, hprio, hopen, hdue, hretest, -⟩ := startTest_fields hcore
    exact ⟨_, rfl, hline.trans (toTesting_line _), htest, hexch, hround, hprobe, hprio, hopen, hdue, hretest, habsent,
      (hat.apart (addressed_of_range hr g.val)).2, hat.others, hat.doors⟩
  · have hrun : s.runDue (.terminatorDown g.val) = (s.without (.terminatorDown g.val)).enterDown g.val :=
      (runDue_terminatorDown hm g.val).trans ((terminatorDown_eq ..).trans (if_pos ⟨hl, h3⟩))
    rw [exec_terminatorMissesDown, hrun]
    obtain ⟨hat, hcore, habsent, hfault⟩ := enterDown_spec (without_canonical hs (.terminatorDown g.val)) g.val
    obtain ⟨hline, htest, hexch, hround, hprobe, hprio, hopen, hdue, hretest, hclean⟩ := startTest_fields hcore
    exact ⟨_, rfl, hline, htest, hexch, hround, hprobe, hprio, hopen, hdue, hretest, hfault, hclean, habsent,
      (hat.apart (addressed_of_range hr g.val)).2, hat.others⟩
  · rw [exec_retestTimeout, runDue_retest hm]
    exact congrArg _ (if_neg fun hg => h.elim (fun hn => hg.1.elim hn.1 hn.2) (fun hn => hn hg.2))
  · rw [exec_terminatorMissesDown, runDue_terminatorDown hm, terminatorDown_eq]
    exact congrArg _ (if_neg fun hg => h.elim (fun hn => hg.1.elim hn.1 hn.2) (fun hn => absurd hg.2 (Nat.not_le.mpr hn)))

end Sys2Proof.Machine
end

