-- ==== Sys2Proof/Proofs/SegmentRequests.lean ====
section
/-! O58: a segment whose drops leave the line with its state (R97, R99), a SEGMENT TEST answered (R93, R182, R189), and the
requests of the segments. -/

set_option Elab.async false

namespace Sys2Proof.Machine

namespace State

variable {s t : State} {g : Nat}

/-! ## A line state that takes the drops off the line (R97) -/

/-- The record of a line state entered stands first among those that follow. -/
theorem changeLine_ring (hj : s.journal.storable = true) {x : LineState} {bs : List Byte}
    (ht : RingGrows (s.changeLine g x bs) t) : ∃ m rest, t.journal.ring = s.journal.ring ++ m :: rest ∧
      m.kind = .segmentState ∧ m.spot = .segment g ∧ m.detail = [byte (lineCode (s.seg g).line), byte (lineCode x)] ++ bs := by
  have hfault (u : State) : RingGrows u (u.lineFault g x) := by
    cases x with
    | degraded | down | failed => exact .of_eq (giveFault_journal ..)
    | outOfService | testing | inService | testPlug => exact .of_eq rfl
  exact log_ring_first hj (t := s.setSeg g (lineMoved x (s.seg g))) rfl ((hfault _).trans ht)

/-- R97, R99: a line state entered with every drop ABSENT, and the segment's own fields changed by `f`. -/
theorem stopLine_spec (hs : s.Canonical) (g : Nat) (x : LineState) (bs : List Byte) {f : Segment → Segment}
    (hcore : ∀ y, (f y).core = (f y.core).core) (haddr : ∀ y : Segment, y.Addressed → (f y).Addressed) :
    let t := ((s.changeLine g x bs).allAbsent g).modSeg g f
    AtSegment g s t ∧ RingGrows (s.changeLine g x bs) t ∧ (t.seg g).core = (f (lineMoved x (s.seg g))).core ∧
      ∀ p, segOf p = g → (t.place p).presence = .absent := by
  have hat := changeLine_at hs g x bs
  obtain ⟨habsent, hall⟩ := allAbsent_onLine hat.canonical g
  have hlast : AtSegment g _ (((s.changeLine g x bs).allAbsent g).modSeg g f) := .setSeg habsent.canonical (haddr _)
  refine ⟨hat.trans (habsent.toAtSegment.trans hlast), habsent.grows.trans hlast.grows, ?_, hall⟩
  rw [modSeg, setSeg_seg_self habsent.canonical, hcore, habsent.core, changeLine_seg hs, ← hcore]

theorem enterStopped_spec (hs : s.Canonical) (g : Nat) (x : LineState) (bs : List Byte) : let t := s.enterStopped g x bs
    AtSegment g s t ∧ RingGrows (s.changeLine g x bs) t ∧
      (t.seg g).core = { lineMoved x (s.seg g) with test := none, retest := 60 }.core ∧
      ∀ p, segOf p = g → (t.place p).presence = .absent :=
  stopLine_spec hs g x bs (fun _ => rfl) (fun _ h => h)

theorem enterOut_spec (hs : s.Canonical) (g : Nat) : let t := s.enterOut g
    AtSegment g s t ∧ RingGrows (s.changeLine g .outOfService []) t ∧
      (t.seg g).core = { lineMoved .outOfService (s.seg g) with test := none }.core ∧
      ∀ p, segOf p = g → (t.place p).presence = .absent :=
  stopLine_spec hs g .outOfService [] (fun _ => rfl) (fun _ h => h)

/-! ## A SEGMENT TEST answered (R182, R189) -/

/-- R182: a completion built stands behind the others, in the queue or waiting for it. -/
theorem buildCompletion_behind (c : Completion) (h : s.trunk.unitNumber ≠ 0) :
    (s.buildCompletion c).trunk.completions ++ (s.buildCompletion c).trunk.waitingCompletions =
      s.trunk.completions ++ s.trunk.waitingCompletions ++ [c] := by
  rw [buildCompletion, if_neg h]
  split
  · rename_i hfree
    simp [hfree.2]
  · simp

theorem answerTest_none {status : ReplyStatus} {result : List Byte} (h : (s.seg g).pendingTest = none) :
    s.answerTest g status result = s := by
  simp only [answerTest, h]

theorem answerTest_some {status : ReplyStatus} {result : List Byte} {tag src : Byte}
    (h : (s.seg g).pendingTest = some (tag, src)) : s.answerTest g status result =
      (s.setSeg g { s.seg g with pendingTest := none }).buildCompletion ⟨tag, 0x0E#8, status, [], result⟩ := by
  simp only [answerTest, h]
  rfl

/-- R189: what answering a SEGMENT TEST leaves. -/
theorem answerTest_spec (hs : s.Canonical) (g : Nat) (status : ReplyStatus) (result : List Byte) :
    let t := s.answerTest g status result
    (t.seg g) = { s.seg g with pendingTest := none } ∧ (∀ h, h ≠ g → t.seg h = s.seg h) ∧ t.places = s.places ∧
      t.journal = s.journal ∧ ∀ tag src, (s.seg g).pendingTest = some (tag, src) → s.trunk.unitNumber ≠ 0 →
        t.trunk.completions ++ t.trunk.waitingCompletions = s.trunk.completions ++ s.trunk.waitingCompletions ++
          [⟨tag, 0x0E#8, status, [], result⟩] := by
  intro t
  cases hp : (s.seg g).pendingTest with
  | none =>
    have ht : t = s := answerTest_none hp
    rw [ht]
    exact ⟨by rw [← hp], fun _ _ => rfl, rfl, rfl, nofun⟩
  | some x =>
    obtain ⟨tag, src⟩ := x
    have ht : t = _ := answerTest_some hp
    have hbuilt := buildCompletion_ch ⟨tag, 0x0E#8, status, [], result⟩ (s.setSeg g { s.seg g with pendingTest := none })
    rw [ht]
    have hseg (k : Nat) := seg_setSeg s g k { s.seg g with pendingTest := none } hs.segs.1
    refine ⟨?_, fun h hh => ?_, hbuilt.places_eq, hbuilt.journal_eq, fun tag' src' h hunit => ?_⟩
    · rw [seg, hbuilt.segs_eq]
      exact (hseg g).trans (if_pos rfl)
    · rw [seg, hbuilt.segs_eq]
      exact (hseg h).trans (if_neg hh)
    · cases h
      exact buildCompletion_behind _ hunit

end State

/-! ## The requests of the segments (R98, R99) -/

section

variable {q : Request} {s t : State} {a : Answer} {g d : Byte}

theorem exec_segmentTest_takes (h : s.Takes 0x0E q) (hb : segmentTestBody q s = (t, a)) :
    exec (.segmentTest q) s = .next (t.answer 0x0E q a) := by
  rw [exec_segmentTest, runRequest_takes h, hb]

theorem exec_segmentServiceOut_takes (h : s.Takes 0x0F q) (hb : serviceBody q serviceOut s = (t, a)) :
    exec (.segmentServiceOut q) s = .next (t.answer 0x0F q a) := by
  rw [exec_segmentServiceOut, runRequest_takes h, hb]

theorem exec_segmentServiceIn_takes (h : s.Takes 0x0F q) (hb : serviceBody q serviceIn s = (t, a)) :
    exec (.segmentServiceIn q) s = .next (t.answer 0x0F q a) := by
  rw [exec_segmentServiceIn, runRequest_takes h, hb]

/-- R98: SEGMENT TEST by the segment that it names. -/
theorem segmentTestBody_eq (hp : q.payload = [g]) (s : State) : segmentTestBody q s =
    if 3 < g.toNat then (s, badField 1)
    else if (s.seg g.toNat).line = .testing then (s, .refused .busy [])
    else if (s.seg g.toNat).line = .outOfService then (s, .refused .outOfService [])
    else ((s.enterTesting g.toNat).modSeg g.toNat (fun x => { x with pendingTest := some (q.tag, q.source) }), .pending) := by
  have hread : readLayout [(1, 1)] q.payload = .ok ([(1, g.toNat)], []) := by
    rw [hp]
    rfl
  have hval : Fields.val [(1, g.toNat)] 1 = g.toNat := rfl
  rw [segmentTestBody, withFields_ok hread]
  simp only [hval]
  refine if_congr Iff.rfl rfl ?_
  cases (s.seg g.toNat).line <;> simp only [reduceCtorEq, if_true, if_false]

/-- R99: SEGMENT SERVICE by the segment and the direction that it names. -/
theorem serviceBody_eq (hp : q.payload = [g, d]) (k : Nat → Body) (s : State) : serviceBody q k s =
    if 3 < g.toNat then (s, badField 1) else if 1 < d.toNat then (s, badField 2) else k g.toNat s := by
  have hread : readLayout [(1, 1), (2, 1)] q.payload = .ok ([(1, g.toNat), (2, d.toNat)], []) := by
    rw [hp]
    rfl
  rw [serviceBody, withFields_ok hread]
  rfl

end

open State in
/-- R98: a SEGMENT TEST taken begins the line test and waits for its end. -/
theorem segmentTest_begins {q : Request} {s t : State} (hs : s.Canonical) (g : Nat)
    (ht : t = ((s.enterTesting g).modSeg g (fun x => { x with pendingTest := some (q.tag, q.source) })).answer 0x0E q .pending) :
    (t.seg g).line = .testing ∧ (t.seg g).test = some ⟨1, 1, 0, .none, false⟩ ∧
      (t.seg g).pendingTest = some (q.tag, q.source) ∧ (∀ p, segOf p = g → (t.place p).presence = .absent) ∧
      t.request = none ∧ t.trunk = { s.trunk with notices := t.trunk.notices } := by
  obtain ⟨hat, hcore, habsent⟩ := enterTesting_spec hs g
  have htrunk := (enterTesting_ch g s).trunk_notices
  obtain ⟨hline, htest, -⟩ := startTest_fields hcore
  have hu := hat.canonical
  generalize s.enterTesting g = u at *
  have hseg : t.seg g = { u.seg g with pendingTest := some (q.tag, q.source) } := by
    rw [ht]
    exact setSeg_seg_self hu g _
  refine ⟨?_, ?_, by rw [hseg], ?_⟩
  · rw [hseg]
    exact hline.trans (toTesting_line _)
  · rw [hseg]
    exact htest
  · rw [ht]
    exact ⟨habsent, rfl, htrunk⟩

open State in
/-- R99: a segment taken out of service, with its SEGMENT TEST answered. -/
theorem serviceOut_leaves {s u : State} (hs : s.Canonical) (g : Nat)
    (hu : u = (s.enterOut g).answerTest g (.refused .outOfService) []) :
    (u.seg g).line = .outOfService ∧ (u.seg g).test = none ∧ (u.seg g).pendingTest = none ∧
      (∀ p, segOf p = g → (u.place p).presence = .absent) ∧
      (∀ tag src, (s.seg g).pendingTest = some (tag, src) → s.trunk.unitNumber ≠ 0 →
        u.trunk.completions ++ u.trunk.waitingCompletions = s.trunk.completions ++ s.trunk.waitingCompletions ++
          [⟨tag, 0x0E#8, .refused .outOfService, [], []⟩]) := by
  obtain ⟨hat, -, hcore, habsent⟩ := enterOut_spec hs g
  obtain ⟨hseg, -, hplaces, -, hanswer⟩ := answerTest_spec hat.canonical g (.refused .outOfService) []
  have htrunk := (enterOut_ch g s).trunk_notices
  generalize s.enterOut g = v at *
  rw [← hu] at hseg hplaces hanswer
  refine ⟨?_, ?_, ?_, fun p hp => ?_, fun tag src hp hunit => ?_⟩
  · rw [hseg]
    exact (congrArg Segment.line hcore :)
  · rw [hseg]
    exact (congrArg Segment.test hcore :)
  · rw [hseg]
  · rw [place_congr hplaces]
    exact habsent p hp
  · rw [hanswer tag src ((congrArg Segment.pendingTest hcore :).trans hp) (by rw [htrunk]; exact hunit), htrunk]

open State in
/-- Settles O58: each body by the segment's line state. -/
theorem segmentsAreServed : Obligations.SegmentsAreServed := by
  refine ⟨fun q s g hq hs hp => ?_, fun q s g d hq hp hg hd => ?_, fun q s g hq hs hp => ?_, fun q s g hq hs hp => ?_⟩
  · have hbody := segmentTestBody_eq hp s
    refine ⟨fun hg => ?_, fun hg hl => ?_, fun hg hl => ?_, fun hg ht ho => ?_⟩
    · exact exec_segmentTest_takes hq (hbody.trans (if_pos (by omega)))
    · rw [if_neg (by omega), if_pos hl] at hbody
      exact exec_segmentTest_takes hq hbody
    · rw [if_neg (by omega), if_neg (by rw [hl]; decide), if_pos hl] at hbody
      exact exec_segmentTest_takes hq hbody
    · rw [if_neg (by omega), if_neg ht, if_neg ho] at hbody
      exact ⟨_, exec_segmentTest_takes hq hbody, segmentTest_begins hs g.toNat rfl⟩
  · have hbody (k : Nat → Body) : serviceBody q k s = (s, badField 2) := by
      rw [serviceBody_eq hp, if_neg (by omega), if_pos (by omega)]
    exact ⟨exec_segmentServiceOut_takes hq (hbody _), exec_segmentServiceIn_takes hq (hbody _)⟩
  · have hbody := serviceBody_eq hp serviceOut s
    refine ⟨fun hg => ?_, fun hg hl => ?_, fun hg hl => ?_⟩
    · exact exec_segmentServiceOut_takes hq (hbody.trans (if_pos (by omega)))
    · rw [if_neg (by omega), if_neg (by decide)] at hbody
      exact exec_segmentServiceOut_takes hq (hbody.trans (if_pos hl))
    · rw [if_neg (by omega), if_neg (by decide)] at hbody
      exact ⟨_, exec_segmentServiceOut_takes hq (hbody.trans (if_neg hl)), serviceOut_leaves hs g.toNat rfl⟩
  · have hbody := serviceBody_eq hp serviceIn s
    refine ⟨fun hg => ?_, fun hg hl => ?_, fun hg hl => ?_⟩
    · exact exec_segmentServiceIn_takes hq (hbody.trans (if_pos (by omega)))
    · rw [if_neg (by omega), if_neg (by decide)] at hbody
      exact exec_segmentServiceIn_takes hq (hbody.trans (if_neg hl))
    · rw [if_neg (by omega), if_neg (by decide)] at hbody
      obtain ⟨-, hcore, -⟩ := enterTesting_spec hs g.toNat
      obtain ⟨hline, htest, -⟩ := startTest_fields hcore
      exact ⟨_, exec_segmentServiceIn_takes hq (hbody.trans (if_pos hl)), hline.trans (toTesting_line _), htest⟩

end Sys2Proof.Machine
end

