-- ==== Sys2Proof/Proofs/TerminatorExchanges.lean ====
section
/-! O34: the exchanges of the terminator, in service and in a line test (R92 to R94, R97). -/

set_option Elab.async false

namespace Sys2Proof.Machine

namespace State

variable {s t : State} {g : Nat}

/-! ## A test exchange's progress (R92) -/

theorem seeWiring_panelLoop (w v : Wiring) : seeWiring w v = .panelLoop ↔ w = .panelLoop ∨ v = .panelLoop := by
  cases w <;> cases v <;> decide

theorem seeWiring_none (w v : Wiring) : seeWiring w v = .none ↔ w = .none ∧ v = .none := by
  cases w <;> cases v <;> decide

theorem wiringOf_panelLoop (b : Byte) : wiringOf b = .panelLoop ↔ b ≠ 0#8 := by
  unfold wiringOf
  split <;> simp [*]

/-- 11.6: the code of the wiring seen after a valid response. -/
theorem seeWiring_code (w : Wiring) (b : Byte) :
    byte (wiringCode (seeWiring w (wiringOf b))) = if w = .panelLoop ∨ b ≠ 0#8 then 2#8 else 1#8 := by
  by_cases hb : b = 0#8
  · cases w <;> simp [hb, wiringOf, seeWiring, wiringCode, byte]
  · cases w <;> simp [hb, wiringOf, seeWiring, wiringCode, byte]

theorem advanceTest_within {x : TestProgress} (h : x.exchange < 8) (passed : Bool) (seen : Wiring) :
    advanceTest x passed seen =
      (⟨x.attempt, x.exchange + 1, x.failed, seeWiring x.wiring seen, x.attemptFailed || !passed⟩, false) := if_pos h

theorem advanceTest_next {x : TestProgress} (h : 8 ≤ x.exchange) (h4 : x.attempt < 4) (passed : Bool) (seen : Wiring) :
    advanceTest x passed seen = (⟨x.attempt + 1, 1, if x.attemptFailed || !passed then x.failed + 1 else x.failed,
      seeWiring x.wiring seen, false⟩, false) := (if_neg (by omega)).trans (if_pos h4)

theorem advanceTest_last {x : TestProgress} (h : 8 ≤ x.exchange) (h4 : 4 ≤ x.attempt) (passed : Bool) (seen : Wiring) :
    advanceTest x passed seen = (⟨x.attempt, x.exchange, if x.attemptFailed || !passed then x.failed + 1 else x.failed,
      seeWiring x.wiring seen, x.attemptFailed || !passed⟩, true) := (if_neg (by omega)).trans (if_neg (by omega))

theorem advanceTest_goes_on {x : TestProgress} (h : x.attempt < 4 ∨ x.exchange < 8) (passed : Bool) (seen : Wiring) :
    (advanceTest x passed seen).2 = false := by
  by_cases h8 : x.exchange < 8
  · rw [advanceTest_within h8]
  · rw [advanceTest_next (by omega) (by omega)]

theorem testStep_goes_on {x : TestProgress} {passed : Bool} {seen : Wiring} (hx : (s.seg g).test = some x)
    (h : (advanceTest x passed seen).2 = false) :
    s.testStep g passed seen = s.setSeg g { s.seg g with test := some (advanceTest x passed seen).1 } := by
  unfold testStep
  simp only [hx]
  split
  · rename_i heq
    rw [heq]
    rfl
  · rename_i heq
    rw [heq] at h
    contradiction

theorem testStep_last {x y : TestProgress} {passed : Bool} {seen : Wiring} (hx : (s.seg g).test = some x)
    (h : advanceTest x passed seen = (y, true)) : s.testStep g passed seen = s.endTest g y := by
  simp only [testStep, hx, h]

/-- R81: after an exchange of the test no priority poll becomes due. -/
theorem exchangeOver_test {e : Exchange} (hk : e.kind = .test) (x : Segment) : exchangeOver e x = { x with exchange := none } := by
  have hdue : (x.prioDue || e.kind == .normal || e.kind == .probe) = x.prioDue := by
    rw [hk]
    exact (Bool.or_false _).trans (Bool.or_false _)
  rw [exchangeOver, hdue]

/-! ## The end of a test (R93) -/

theorem testResult_stopped {y : TestProgress} (h : y.wiring = .panelLoop ∨ 4 ≤ y.failed) :
    testResult y ≠ .inService ∧ testResult y ≠ .degraded := by
  unfold testResult
  split
  · decide
  · rename_i hw
    have h4 := h.resolve_left hw
    rw [if_neg (by omega), if_neg (by omega)]
    decide

theorem testResult_passed {y : TestProgress} (hw : y.wiring ≠ .panelLoop) (h : y.failed < 4) :
    testResult y = .inService ∨ testResult y = .degraded := by
  rw [testResult, if_neg hw, if_pos h]
  split <;> simp

/-- R93, R97: what the state that a test's result enters does to the segment's own fields. -/
def resultFields (x : LineState) (y : Segment) : Segment :=
  if x = .inService ∨ x = .degraded then { y with test := none, badCount := 0, termMisses := 0 }
  else { y with test := none, retest := 60 }

theorem enterFromTest_spec (hs : s.Canonical) (g : Nat) (x : LineState) (bs : List Byte) : let t := s.enterFromTest g x bs
    AtSegment g s t ∧ RingGrows (s.changeLine g x bs) t ∧
      t.seg g = { lineMoved x (s.seg g) with test := none, badCount := 0, termMisses := 0 } := by
  have hat := changeLine_at hs g x bs
  have hset : AtSegment g (s.changeLine g x bs) (s.enterFromTest g x bs) := .setSeg hat.canonical (fun h => h)
  refine ⟨hat.trans hset, hset.grows, ?_⟩
  rw [enterFromTest, modSeg, setSeg_seg_self hat.canonical, changeLine_seg hs]

theorem testResult_cases (y : TestProgress) :
    testResult y = .testPlug ∨ testResult y = .inService ∨ testResult y = .degraded ∨ testResult y = .failed := by
  unfold testResult
  repeat' split
  all_goals simp

theorem enterResult_spec (hs : s.Canonical) (g : Nat) (y : TestProgress) (bs : List Byte) :
    let t := s.enterResult g (testResult y) bs
    AtSegment g s t ∧ RingGrows (s.changeLine g (testResult y) bs) t ∧
      (t.seg g).core = (resultFields (testResult y) (lineMoved (testResult y) (s.seg g))).core := by
  have hstop (x : LineState) (hx : ¬(x = .inService ∨ x = .degraded)) : let t := s.enterStopped g x bs
      AtSegment g s t ∧ RingGrows (s.changeLine g x bs) t ∧
        (t.seg g).core = (resultFields x (lineMoved x (s.seg g))).core := by
    obtain ⟨hat, hring, hcore, -⟩ := enterStopped_spec hs g x bs
    exact ⟨hat, hring, by rw [resultFields, if_neg hx]; exact hcore⟩
  have hgo (x : LineState) (hx : x = .inService ∨ x = .degraded) : let t := s.enterFromTest g x bs
      AtSegment g s t ∧ RingGrows (s.changeLine g x bs) t ∧
        (t.seg g).core = (resultFields x (lineMoved x (s.seg g))).core := by
    obtain ⟨hat, hring, hseg⟩ := enterFromTest_spec hs g x bs
    exact ⟨hat, hring, by rw [resultFields, if_pos hx]; exact congrArg Segment.core hseg⟩
  rcases testResult_cases y with h | h | h | h <;> rw [h]
  · exact hstop .testPlug (by decide)
  · exact hgo .inService (by decide)
  · exact hgo .degraded (by decide)
  · exact hstop .failed (by decide)

theorem resultFields_kept (x : LineState) (y : Segment) : (resultFields x y).line = y.line ∧ (resultFields x y).test = none ∧
    (resultFields x y).exchange = y.exchange ∧ (resultFields x y).pendingTest = y.pendingTest := by
  unfold resultFields
  split <;> exact ⟨rfl, rfl, rfl, rfl⟩

/-- R93, R97, R189: what the end of the line test `y` at segment `g` leaves. -/
structure TestEnded (g : Nat) (y : TestProgress) (s t : State) : Prop where
  line : (t.seg g).line = testResult y
  test : (t.seg g).test = none
  exchange : (t.seg g).exchange = none
  pending : (t.seg g).pendingTest = none
  retest : testResult y ≠ .inService → testResult y ≠ .degraded → (t.seg g).retest = 60
  cleared : testResult y = .inService ∨ testResult y = .degraded →
    (t.seg g).badCount = 0 ∧ (t.seg g).cleanWindows = 0 ∧ (t.seg g).termMisses = 0
  record : s.journal.storable = true → ∃ m rest, t.journal.ring = s.journal.ring ++ m :: rest ∧ m.kind = .segmentState ∧
    m.spot = .segment g ∧ m.detail = [byte (lineCode (s.seg g).line), byte (lineCode (testResult y)), byte y.failed,
      byte (wiringCode y.wiring)]
  others : ∀ h, h ≠ g → t.seg h = s.seg h
  answer : ∀ tag src, (s.seg g).pendingTest = some (tag, src) → s.trunk.unitNumber ≠ 0 →
    (⟨tag, 0x0E#8, .done, [], [byte (lineCode (testResult y)), byte y.failed, byte (wiringCode y.wiring)]⟩ : Completion)
      ∈ t.trunk.completions ++ t.trunk.waitingCompletions

theorem endTest_ended (hs : s.Canonical) (he : (s.seg g).exchange = none) (y : TestProgress) :
    TestEnded g y s (s.endTest g y) := by
  generalize ht : s.endTest g y = t
  have hch := enterResult_ch g (testResult y) [byte y.failed, byte (wiringCode y.wiring)] s
  have htrunk := hch.trunk_notices
  obtain ⟨hat, hring, hcore⟩ := enterResult_spec hs g y [byte y.failed, byte (wiringCode y.wiring)]
  obtain ⟨hseg, hothers, -, hjournal, hanswer⟩ := answerTest_spec hat.canonical g .done
    ([byte (lineCode (testResult y))] ++ [byte y.failed, byte (wiringCode y.wiring)])
  change (s.enterResult g (testResult y) _).answerTest g .done _ = t at ht
  generalize s.enterResult g (testResult y) [byte y.failed, byte (wiringCode y.wiring)] = u at *
  rw [ht] at hseg hothers hjournal hanswer
  obtain ⟨hline, htest, hexch, hpending⟩ := resultFields_kept (testResult y) (lineMoved (testResult y) (s.seg g))
  refine ⟨?_, ?_, ?_, by rw [hseg], fun h1 h2 => ?_, fun h => ?_, fun hst => ?_, fun h hh => ?_, fun tag src hp hunit => ?_⟩
  · rw [hseg]
    exact (congrArg Segment.line hcore :).trans hline
  · rw [hseg]
    exact (congrArg Segment.test hcore :).trans htest
  · rw [hseg]
    exact (congrArg Segment.exchange hcore :).trans (hexch.trans (by simp [lineMoved, he]))
  · rw [hseg]
    refine (congrArg Segment.retest hcore :).trans ?_
    simp [Segment.core, resultFields, h1, h2]
  · rw [hseg]
    rw [resultFields, if_pos h] at hcore
    exact ⟨(congrArg Segment.badCount hcore :), (congrArg Segment.cleanWindows hcore :), (congrArg Segment.termMisses hcore :)⟩
  · exact changeLine_ring hst (hring.trans (.of_eq hjournal))
  · exact (hothers h hh).trans (hat.others h hh)
  · rw [hanswer tag src ((congrArg Segment.pendingTest hcore :).trans (hpending.trans hp)) (by rw [htrunk]; exact hunit)]
    simp

end State

open State in
/-- R92: an exchange of the test that is not its last one. -/
theorem testExchange_goes_on {s : State} {g : Nat} {e : Exchange} {x : TestProgress} (hs : s.Canonical)
    (hk : e.kind = .test) (hx : (s.seg g).test = some x) (hl : x.attempt < 4 ∨ x.exchange < 8) (passed : Bool)
    (seen : Wiring) : let t := (s.endExchange g e).testStep g passed seen
    t = { s with segs := t.segs } ∧ (∀ h, h ≠ g → t.seg h = s.seg h) ∧
      t.seg g = { s.seg g with exchange := none, test := some (advanceTest x passed seen).1 } := by
  have hself := setSeg_seg_self hs g (exchangeOver e (s.seg g))
  have ht : (s.endExchange g e).testStep g passed seen =
      s.setSeg g { exchangeOver e (s.seg g) with test := some (advanceTest x passed seen).1 } := by
    rw [endExchange_eq, testStep_goes_on (by rw [hself]; exact hx) (advanceTest_goes_on hl passed seen), hself,
      setSeg_setSeg hs]
  rw [ht]
  refine ⟨rfl, fun h hh => seg_setSeg_ne s _ hh, ?_⟩
  rw [setSeg_seg_self hs, exchangeOver_test hk]

open State in
/-- R92, R93: the last exchange of the test. -/
theorem testExchange_last {s : State} {g : Nat} {e : Exchange} {x y : TestProgress} {passed : Bool} {seen : Wiring}
    (hs : s.Canonical) (hx : (s.seg g).test = some x) (hl : advanceTest x passed seen = (y, true)) :
    TestEnded g y s ((s.endExchange g e).testStep g passed seen) := by
  have hself := setSeg_seg_self hs g (exchangeOver e (s.seg g))
  rw [endExchange_eq, testStep_last (by rw [hself]; exact hx) hl]
  have h := endTest_ended (setSeg_canonical hs g (exchangeOver e (s.seg g))) (by rw [hself]; rfl) y
  refine ⟨h.line, h.test, h.exchange, h.pending, h.retest, h.cleared, fun hst => ?_, fun k hk => ?_, fun tag src hp => ?_⟩
  · have hrecord := h.record hst
    rw [hself] at hrecord
    exact hrecord
  · exact (h.others k hk).trans (seg_setSeg_ne s _ hk)
  · exact h.answer tag src ((congrArg Segment.pendingTest hself).trans hp)

open State in
/-- R66: a response that is valid is acted on once its exchange has ended. -/
theorem responseReceived_valid {s : State} {g : Nat} {e : Exchange} {frame : List Byte} {r : Response}
    (he : (s.seg g).exchange = some e) (hr : validResponse e frame = some r) :
    s.responseReceived g frame = (s.endExchange g e).validExchange g e r := by
  simp only [responseReceived, he, hr]

open State in
theorem responseReceived_test {s : State} {g : Nat} {e : Exchange} {frame : List Byte} {r : Response} {x : TestProgress}
    (hs : s.Canonical) (he : (s.seg g).exchange = some e) (hr : validResponse e frame = some r) (hk : e.kind = .test)
    (hx : (s.seg g).test = some x) : s.responseReceived g frame =
      (s.endExchange g e).testStep g (decide (r.event = .echo (testPattern x))) (wiringOf r.status) := by
  have hself : ((s.endExchange g e).seg g).test = some x :=
    (congrArg Segment.test (setSeg_seg_self hs g (exchangeOver e (s.seg g)))).trans hx
  rw [responseReceived_valid he hr]
  simp only [validExchange, hk, if_true, testResponse, hself]

open State in
theorem windowClosed_test {s : State} {g : Nat} {e : Exchange} (he : (s.seg g).exchange = some e) (hk : e.kind = .test) :
    s.windowClosed g = (s.endExchange g e).testStep g false .none := by
  rw [windowClosed_some he, missedExchange, if_pos hk]

open State in
/-- R95: on a TESTING segment a bad response is counted nowhere. -/
theorem responseReceived_bad_testing {s : State} {g : Nat} {e : Exchange} {frame : List Byte} (hs : s.Canonical)
    (he : (s.seg g).exchange = some e) (hl : (s.seg g).line = .testing) (hr : validResponse e frame = none) :
    s.responseReceived g frame = s.windowClosed g := by
  rw [responseReceived_bad he hr, countBad_endExchange hs, if_neg (by rw [hl]; decide), windowClosed_some he]

open State in
/-- R94: the terminator's response in service. -/
theorem terminatorResponse_leaves {s : State} {g : Nat} {e : Exchange} (hs : s.Canonical) (r : Response) :
    let t := (s.endExchange g e).terminatorResponse g r
    (∀ h, h ≠ g → t.seg h = s.seg h) ∧
      (r.status = 0#8 → t = { s with segs := t.segs } ∧ t.seg g = { exchangeOver e (s.seg g) with termMisses := 0 }) ∧
      (r.status ≠ 0#8 → (t.seg g).line = .testPlug ∧ (t.seg g).retest = 60 ∧ (t.seg g).test = none) := by
  intro t
  have hu : (s.endExchange g e).modSeg g (fun x => { x with termMisses := 0 }) =
      s.setSeg g { exchangeOver e (s.seg g) with termMisses := 0 } := by
    rw [endExchange_eq, modSeg, setSeg_seg_self hs, setSeg_setSeg hs]
  have ht : t = if wiringOf r.status = .panelLoop then State.enterStopped g .testPlug [] _ else _ := congrArg
    (fun u : State => if wiringOf r.status = .panelLoop then u.enterStopped g .testPlug [] else u) hu
  have hcanon := setSeg_canonical hs g { exchangeOver e (s.seg g) with termMisses := 0 }
  have hothers (h : Nat) (hh : h ≠ g) := seg_setSeg_ne s { exchangeOver e (s.seg g) with termMisses := 0 } hh
  by_cases h0 : r.status = 0#8
  · rw [ht, if_neg (fun hp => (wiringOf_panelLoop _).mp hp h0)]
    exact ⟨hothers, fun _ => ⟨rfl, setSeg_seg_self hs ..⟩, fun hn => absurd h0 hn⟩
  · obtain ⟨hat, -, hcore, -⟩ := enterStopped_spec hcanon g .testPlug []
    rw [if_pos ((wiringOf_panelLoop _).mpr h0)] at ht
    rw [← ht] at hat hcore
    exact ⟨fun h hh => (hat.others h hh).trans (hothers h hh), fun h => absurd h h0, fun _ =>
      ⟨(congrArg Segment.line hcore :), (congrArg Segment.retest hcore :), (congrArg Segment.test hcore :)⟩⟩

open State in
/-- Settles O34: the terminator's exchange by its kind; in a line test by whether it is the last one. -/
theorem terminatorExchanges : Obligations.TerminatorExchanges := by
  refine ⟨fun g s frame e r hdue hs he hk ha hr => ?_, fun g s frame e r x hdue hs he hk hx hr hl => ?_,
    fun g s e x hdue hs he hk hx hl => ?_, fun x passed seen => ?_, fun g s frame e r x hdue hs he hk hx hr h4 h8 => ?_,
    fun g s e x hdue hs he hk hx h4 h8 => ?_⟩
  · rw [exec_responseReceived, settle_eq s hdue, responseReceived_valid he hr, validExchange, if_neg hk, if_pos ha]
    exact ⟨_, rfl, terminatorResponse_leaves hs r⟩
  · rw [exec_responseReceived, settle_eq s hdue, responseReceived_test hs he hr hk hx]
    exact ⟨_, rfl, testExchange_goes_on hs hk hx hl _ _⟩
  · rw [exec_responseWindowClose, settle_eq s hdue]
    refine ⟨_, rfl, ?_⟩
    obtain ⟨hframe, hothers, hseg⟩ := testExchange_goes_on hs hk hx hl false .none
    rw [windowClosed_test he hk]
    refine ⟨hframe, hothers, hseg, fun hline frame hr => ?_⟩
    rw [exec_responseReceived, settle_eq s hdue, responseReceived_bad_testing hs he hline hr, windowClosed_test he hk]
  · exact ⟨fun h => advanceTest_within h passed seen, fun h h4 => advanceTest_next h h4 passed seen,
      fun h h4 => advanceTest_last h h4 passed seen, seeWiring_panelLoop .., seeWiring_none ..⟩
  · rw [exec_responseReceived, settle_eq s hdue, responseReceived_test hs he hr hk hx]
    intro failed f loop
    have hended := testExchange_last (e := e) hs hx
      (advanceTest_last (by omega) (by omega) (decide (r.event = .echo (testPattern x))) (wiringOf r.status))
    have hf : (if x.attemptFailed || !decide (r.event = .echo (testPattern x)) then x.failed + 1 else x.failed) = f :=
      if_congr (by simp [failed]) rfl rfl
    have hloop : seeWiring x.wiring (wiringOf r.status) = .panelLoop ↔ loop := by
      rw [seeWiring_panelLoop, wiringOf_panelLoop]
    have hcode := seeWiring_code x.wiring r.status
    generalize hy : (⟨x.attempt, x.exchange, _, _, _⟩ : TestProgress) = y at hended
    have hfailed : y.failed = f := by
      rw [← hy]
      exact hf
    have hwiring : y.wiring = .panelLoop ↔ loop := by
      rw [← hy]
      exact hloop
    have hbyte : byte (wiringCode y.wiring) = if loop then 2#8 else 1#8 := by
      rw [← hy]
      exact hcode
    have hresult : testResult y = if loop then .testPlug else if f = 0 then .inService else if f < 4 then .degraded else .failed := by
      rw [← hfailed]
      exact if_congr hwiring rfl rfl
    rw [← hfailed] at *
    refine ⟨_, rfl, hended.test, hended.exchange, hended.line.trans hresult, fun h => ?_, hended.pending, fun hn h4 => ?_,
      ?_, hended.others, ?_⟩
    · obtain ⟨h1, h2⟩ := testResult_stopped (h.imp hwiring.mpr id)
      exact hended.retest h1 h2
    · exact hended.cleared (testResult_passed (fun hw => hn (hwiring.mp hw)) h4)
    · rw [hended.line, ← hbyte]
      exact hended.record
    · rw [hended.line, ← hbyte]
      exact hended.answer
  · rw [exec_responseWindowClose, settle_eq s hdue, windowClosed_test he hk]
    have hended := testExchange_last (e := e) hs hx (advanceTest_last (by omega) (by omega) false .none)
    have hfailed : (if x.attemptFailed || !false then x.failed + 1 else x.failed) = x.failed + 1 :=
      if_pos (Bool.or_true _)
    have hwiring : seeWiring x.wiring .none = x.wiring := by cases x.wiring <;> rfl
    rw [hfailed, hwiring] at hended
    generalize hy : (⟨x.attempt, x.exchange, x.failed + 1, x.wiring, _⟩ : TestProgress) = y at hended
    have hresult : testResult y = if x.wiring = .panelLoop then .testPlug else if x.failed < 3 then .degraded else .failed := by
      rw [← hy, testResult]
      exact if_congr Iff.rfl rfl ((if_neg (Nat.succ_ne_zero _)).trans (if_congr Nat.succ_lt_succ_iff rfl rfl))
    refine ⟨_, rfl, hended.test, hended.line.trans hresult, hended.pending, hended.exchange, fun h => ?_, fun hn h4 => ?_,
      hended.others, fun hline frame hr => ?_, ?_⟩
    · obtain ⟨h1, h2⟩ := testResult_stopped (y := y) (by rw [← hy]; exact h.imp id (Nat.succ_le_succ ·))
      exact hended.retest h1 h2
    · exact hended.cleared (testResult_passed (by rw [← hy]; exact hn) (by rw [← hy]; exact Nat.succ_lt_succ h4))
    · rw [exec_responseReceived, settle_eq s hdue, responseReceived_bad_testing hs he hline hr, windowClosed_test he hk]
    · rw [hended.line]
      rw [← hy] at *
      exact hended.answer

end Sys2Proof.Machine
end

