-- ==== Sys2Proof/Proofs/ErrorWindows.lean ====
section
/-! O27: the error window judged (R95), the recovery of a DEGRADED segment (R96), and the end of an engine's run (R109 to R111). -/

set_option Elab.async false

namespace Sys2Proof.Machine

namespace State

variable {s t : State} {g : Nat}

/-! ## Where a run of the push engine ends -/

/-- R110: a walk that waits has found the queue full. -/
theorem walkPass_waiting {p pos i : Nat} {guest : Bool} {cs : List (Nat × Cred)} {s t : State}
    (h : walkPass p guest pos cs s = (t, .waiting i)) : 4 ≤ (t.place p).queueLen := by
  induction cs generalizing pos s with
  | nil =>
    have h2 := congrArg Prod.snd h
    simp only [walkPass] at h2
    split at h2 <;> contradiction
  | cons e cs ih =>
    simp only [walkPass] at h
    split at h
    · cases h
    · split at h
      · split at h
        · exact ih h
        · rename_i hroom
          cases h
          simpa [Place.hasRoom] using hroom
      · exact ih h

/-- R109 to R111: the engine stands where it may: terminal with no request left, or at a full queue. -/
def EngineRests (g : Nat) (s : State) : Prop :=
  ((s.seg g).terminal = true ∧ (s.seg g).requests = []) ∨
    ((s.seg g).terminal = false ∧ (s.seg g).waits = true ∧ 4 ≤ (s.place (placeOf g (s.seg g).served)).queueLen)

/-- What a walk leaves of its segment, and how it ends. -/
structure WalkEnds (g : Nat) (s t : State) : Prop where
  requests : (t.seg g).requests = (s.seg g).requests
  served : (t.seg g).served = (s.seg g).served
  ends : (t.seg g).terminal = true ∨ ((t.seg g).terminal = (s.seg g).terminal ∧ (t.seg g).waits = true ∧
    4 ≤ (t.place (placeOf g (t.seg g).served)).queueLen)

theorem walkFrom_seg {guest : Bool} {w : Walked} (h : s.walkFrom g guest = (t, w)) : t.seg = s.seg := by
  have hsegs := (walkFrom_ch g guest s).segs_eq
  rw [h] at hsegs
  funext k
  rw [seg, seg, hsegs]

theorem walkFrom_canonical {guest : Bool} {w : Walked} (hs : s.Canonical) (h : s.walkFrom g guest = (t, w)) :
    t.Canonical := by
  have hc := (walkFrom_ch g guest s).canonical hs
  rwa [h] at hc

/-- A walk that waits at an index. -/
theorem walkEnds_waiting {guest : Bool} {i : Nat} (hs : s.Canonical) (h : s.walkFrom g guest = (t, .waiting i)) :
    WalkEnds g s (t.modSeg g (fun x => { x with index := i, waits := true })) := by
  have hself := setSeg_seg_self (walkFrom_canonical hs h) g { t.seg g with index := i, waits := true }
  have hseg : t.seg g = s.seg g := congrFun (walkFrom_seg h) g
  have hfull : 4 ≤ (t.place (placeOf g (s.seg g).served)).queueLen := walkPass_waiting h
  rw [← hseg] at hfull
  rw [modSeg]
  refine ⟨by rw [hself, ← hseg], by rw [hself, ← hseg], .inr ?_⟩
  rw [hself, ← hseg]
  exact ⟨rfl, rfl, hfull⟩

/-- A walk that has ended. -/
theorem walkEnds_terminal {guest : Bool} {w : Walked} (i : Nat) (hs : s.Canonical) (h : s.walkFrom g guest = (t, w)) :
    WalkEnds g s (t.modSeg g (fun x => { x with index := i, terminal := true, waits := false })) := by
  have hself := setSeg_seg_self (walkFrom_canonical hs h) g { t.seg g with index := i, terminal := true, waits := false }
  have hseg : t.seg g = s.seg g := congrFun (walkFrom_seg h) g
  rw [modSeg]
  refine ⟨by rw [hself, ← hseg], by rw [hself, ← hseg], .inl (by rw [hself])⟩

theorem walkOther_ends (hs : s.Canonical) (g : Nat) : WalkEnds g s (s.walkOther g) := by
  unfold walkOther
  split
  · exact walkEnds_waiting hs ‹_›
  · exact walkEnds_terminal _ hs ‹_›
  · exact walkEnds_terminal _ hs ‹_›

theorem enterOther_ends {w : Walked} (hs : s.Canonical) (h : s.walkFrom g true = (t, w)) : WalkEnds g s (t.enterOther g) := by
  have ht := walkFrom_canonical hs h
  have hends := walkOther_ends (setSeg_canonical ht g { t.seg g with index := 0, pass := .other }) g
  have hself := setSeg_seg_self ht g { t.seg g with index := 0, pass := .other }
  have hseg := congrFun (walkFrom_seg h) g
  refine ⟨hends.requests.trans ?_, hends.served.trans ?_, hends.ends.imp id fun ⟨h1, h2⟩ => ⟨h1.trans ?_, h2⟩⟩
  · refine (congrArg Segment.requests hself :).trans ?_
    rw [← hseg]
  · refine (congrArg Segment.served hself :).trans ?_
    rw [← hseg]
  · refine (congrArg Segment.terminal hself :).trans ?_
    rw [← hseg]

theorem walk_ends (hs : s.Canonical) (g : Nat) : WalkEnds g s (s.walk g) := by
  unfold walk
  split
  · exact walkOther_ends hs g
  · split
    · exact walkEnds_waiting hs ‹_›
    · exact enterOther_ends hs ‹_›
    · exact enterOther_ends hs ‹_›

/-- R109: a reload started leaves fewer requests. -/
theorem startReload_starts {a : Nat} (hs : s.Canonical) (ht : (s.seg g).terminal = true) (hl : (s.seg g).line ≠ .degraded)
    (ha : nextServed (s.seg g) = some a) : let x := (s.startReload g).seg g
    x.terminal = false ∧ x.line = (s.seg g).line ∧ x.requests.length < (s.seg g).requests.length := by
  have hstart : s.startReload g = s.setSeg g { s.seg g with
      requests := (s.seg g).requests.filter (fun r => r != a)
      served := a, index := 0, pass := .guest, terminal := false, waits := false } := by
    simp [startReload, ht, hl, ha]
  rw [hstart, setSeg_seg_self hs]
  refine ⟨rfl, rfl, ?_⟩
  have hmem := nextServed_mem ha
  exact List.length_filter_lt_length_iff_exists.mpr ⟨a, hmem, by simp⟩

theorem nextServed_none {x : Segment} (h : nextServed x = none) : x.requests = [] := by
  unfold nextServed at h
  split at h
  · contradiction
  · exact List.head?_eq_none_iff.mp h

theorem pump_rests {n : Nat} {s : State} (hs : s.Canonical) (hl : (s.seg g).line ≠ .degraded)
    (hn : (s.seg g).requests.length + (if (s.seg g).terminal then 0 else 1) < n ∨ EngineRests g s) :
    EngineRests g (pump g n s) := by
  induction n generalizing s with
  | zero => exact hn.resolve_left (Nat.not_lt_zero _)
  | succ n ih =>
    have hwalked {u : State} (hu : u.Canonical) (hf : (u.seg g).terminal = false) (hlu : (u.seg g).line ≠ .degraded)
        (hlen : (u.seg g).requests.length < n) : EngineRests g (pump g n (u.walk g)) := by
      have hends := walk_ends hu g
      have hwalk := OnLine.engineRun hu (walk_run g u)
      refine ih hwalk.canonical ?_ ?_
      · exact (congrArg Segment.line hwalk.core :) ▸ hlu
      · refine hends.ends.imp (fun h => ?_) (fun ⟨h1, h2⟩ => .inr ⟨h1.trans hf, h2⟩)
        rw [h, hends.requests]
        exact hlen
    simp only [pump]
    rw [if_neg hl]
    split
    · rename_i hterm
      split
      · rename_i a ha
        obtain ⟨hf, hline, hlen⟩ := startReload_starts hs hterm hl ha
        refine hwalked ((startReload_ch g s).canonical hs) hf (by rw [hline]; exact hl) ?_
        rcases hn with hn | ⟨-, hnone⟩ | ⟨hf, -⟩
        · rw [if_pos hterm] at hn
          omega
        · rw [hnone] at hlen
          exact absurd hlen (Nat.not_lt_zero _)
        · rw [hterm] at hf
          contradiction
      · exact .inl ⟨hterm, nextServed_none ‹_›⟩
    · rename_i hterm
      have hf := eq_false_of_ne_true hterm
      split
      · rename_i hstuck
        simp only [engineStuck, Bool.and_eq_true, Bool.not_eq_true', Place.hasRoom, decide_eq_false_iff_not, not_lt] at hstuck
        exact .inr ⟨hf, hstuck⟩
      · rename_i hstuck
        have hlen : (s.seg g).requests.length < n := by
          rcases hn with hn | ⟨ht, -⟩ | ⟨-, hw, hfull⟩
          · rw [if_neg hterm] at hn
            omega
          · exact absurd ht hterm
          · exact absurd (by simp [engineStuck, hw, Place.hasRoom, hfull]) hstuck
        split
        · exact hwalked hs hf hl hlen
        · rename_i hnot
          obtain ⟨h1, h2⟩ := (walk_ends hs g).ends.resolve_left hnot
          exact .inr ⟨h1.trans hf, h2⟩

/-- R109 to R111: a run of the engine ends where it may. -/
theorem runEngine_rests (hs : s.Canonical) (hl : (s.seg g).line ≠ .degraded) : EngineRests g (s.runEngine g) := by
  refine pump_rests hs hl (.inl ?_)
  split <;> omega

theorem runEngine_degraded (hl : (s.seg g).line = .degraded) : s.runEngine g = s := if_pos hl

/-! ## A join that goes on (R87) -/

theorem proceedJoin_minibar {p : Nat} (hs : s.Canonical) (hl : (s.seg (segOf p)).line ≠ .degraded)
    (hd : (s.place p).door.isMinibar = true) : let t := s.proceedJoin p
    (t.place p).presence = .present ∧ (t.place p).joinStep = .none ∧
      (s.journal.storable = true → ∃ x, t.journal.ring = s.journal.ring ++ [x] ∧ x.kind = .dropPresence ∧
        x.spot = .drop p ∧ x.detail = [byte (presenceCode .present)]) := by
  have ht : s.proceedJoin p = (s.enterPresent p).presenceRecord p .present := by
    simp only [proceedJoin, hl, hd, if_true, if_false]
  have hplace : ((s.enterPresent p).presenceRecord p .present).place p =
      { s.place p with presence := .present, joinStep := .none }.offerZone := by
    rw [(presenceRecord_ch p .present (s.enterPresent p)).place_eq, enterPresent, place_modPlace _ _ _ _ hs.places.1, if_pos rfl]
  have hcore := (Place.offerZone_offered { s.place p with presence := .present, joinStep := .none }).core
  intro t
  rw [show t = _ from ht, hplace]
  refine ⟨(congrArg Place.presence hcore :), (congrArg Place.joinStep hcore :), fun hst => ?_⟩
  exact ⟨_, handOver_ring (s := s.enterPresent p) _ hst, rfl, rfl, rfl⟩

theorem proceedJoin_lock {p : Nat} (hs : s.Canonical) (hl : (s.seg (segOf p)).line ≠ .degraded)
    (hd : (s.place p).door.isMinibar = false) : let t := s.proceedJoin p
    t = s.setPlace p ({ s.place p with joinStep := .flush }.offer (.cacheFlush true)) ∧ (t.place p).joinStep = .flush := by
  have ht : s.proceedJoin p = s.setPlace p ({ s.place p with joinStep := .flush }.offer (.cacheFlush true)) := by
    simp only [proceedJoin, hl, hd, if_false, Bool.false_eq_true]
    rfl
  refine ⟨ht, ?_⟩
  simp only [ht]
  rw [place_setPlace _ _ _ _ hs.places.1, if_pos rfl]
  exact (congrArg Place.joinStep (Place.offer_offered (.cacheFlush true) { s.place p with joinStep := .flush }).core :)

/-! ## The recovery of a DEGRADED segment (R96) -/

/-- R96: the WAITING drops of a segment, in ascending address. -/
def waitingDrops (g : Nat) (s : State) : List Nat :=
  ((List.range 32).map (fun i => g * 32 + i)).filter (fun p => (s.place p).joinStep == .waiting)

/-- The WAITING drops are among those that the table of places holds. -/
theorem waitingDrops_eq (hs : s.Canonical) (g : Nat) :
    (s.placesOn g).filter (fun p => (s.place p).joinStep == .waiting) = waitingDrops g s := by
  refine rising_ext ?_ ?_ (fun p => ?_)
  · exact ((placeKeys_rising hs).filter _).filter _
  · refine List.Pairwise.filter _ (List.pairwise_map.mpr (List.pairwise_lt_range.imp fun h => ?_))
    omega
  · simp only [waitingDrops, placesOn, List.mem_filter, List.mem_map, List.mem_range, beq_iff_eq]
    refine and_congr_left fun hw => ⟨fun h => ⟨p % 32, ?_⟩, fun ⟨i, hi, hp⟩ => ⟨mem_placeKeys fun hr => ?_, ?_⟩⟩
    · have := h.2
      unfold segOf at this
      omega
    · rw [hr] at hw
      contradiction
    · unfold segOf
      omega

/-- R95, R96: the segment at its recovery, with its record. -/
def recovered (g : Nat) (s : State) : State :=
  (s.setSeg g { s.seg g with line := .inService, badCount := 0, cleanWindows := 0 }).log .segmentState (.segment g)
    [byte (lineCode .degraded), byte (lineCode .inService)]

/-- R95, R96: the fourth clean window of a DEGRADED segment. -/
def recovery (g : Nat) (s : State) : State :=
  ((waitingDrops g s).foldl (fun s p => s.proceedJoin p) (recovered g s)).runEngine g

theorem recover_eq (hs : s.Canonical) (hl : (s.seg g).line = .degraded) (n : Nat) :
    (s.setSeg g { s.seg g with badCount := 0, cleanWindows := n }).recover g = recovery g s := by
  have hs2 := setSeg_canonical hs g { s.seg g with badCount := 0, cleanWindows := n }
  have hchange : (s.setSeg g { s.seg g with badCount := 0, cleanWindows := n }).changeLine g .inService [] = recovered g s := by
    rw [changeLine_eq, setSeg_seg_self hs, setSeg_setSeg hs, recovered, ← hl]
    rfl
  have hplaces : (recovered g s).place = s.place := by
    rw [← hchange]
    exact funext fun q => place_congr (changeLine_segs g .inService [] _).2 q
  have hcanon : (recovered g s).Canonical := by
    rw [← hchange]
    exact (changeLine_at hs2 g .inService []).canonical
  have hdrops : waitingDrops g (recovered g s) = waitingDrops g s := by simp only [waitingDrops, hplaces]
  rw [recover, hchange, proceedWaiting, waitingDrops_eq hcanon, hdrops]
  rfl

theorem core_judged {x y : Segment} (h : x.core = y.core) :
    x.line = y.line ∧ x.badCount = y.badCount ∧ x.cleanWindows = y.cleanWindows :=
  ⟨(congrArg Segment.line h :), (congrArg Segment.badCount h :), (congrArg Segment.cleanWindows h :)⟩

theorem recovery_seg (hs : s.Canonical) (g : Nat) :
    ((recovery g s).seg g).line = .inService ∧ ((recovery g s).seg g).badCount = 0 ∧
      ((recovery g s).seg g).cleanWindows = 0 ∧ ∀ h, h ≠ g → (recovery g s).seg h = s.seg h := by
  generalize hu : (waitingDrops g s).foldl (fun s p => s.proceedJoin p) (recovered g s) = u
  have hset := setSeg_canonical hs g { s.seg g with line := .inService, badCount := 0, cleanWindows := 0 }
  have hch : Changes kDoor (s.setSeg g { s.seg g with line := .inService, badCount := 0, cleanWindows := 0 }) u := by
    rw [← hu]
    exact (Changes.up (log_ch ..)).comp (.fold (fun s p => proceedJoin_ch p s) _ _)
  have hseg : u.seg = (s.setSeg g { s.seg g with line := .inService, badCount := 0, cleanWindows := 0 }).seg :=
    funext fun k => by rw [seg, seg, hch.segs_eq]
  have hrun := OnLine.engineRun (hch.canonical hset) (runEngine_run g u)
  have hcore := hrun.core
  rw [hseg, setSeg_seg_self hs] at hcore
  obtain ⟨hline, hbad, hclean⟩ := core_judged hcore
  rw [recovery, hu]
  refine ⟨hline, hbad, hclean, fun h hh => ?_⟩
  rw [hrun.others h hh, hseg, seg_setSeg_ne s _ hh]

/-! ## The window judged (R95) -/

/-- R95: the judgement of the window by the bad count, the line state and the clean windows. -/
theorem closeWindow_eq (hs : s.Canonical) (hl : (s.seg g).line = .inService ∨ (s.seg g).line = .degraded) :
    s.closeWindow g =
      if s.policy.e ≤ (s.seg g).badCount then
        if (s.seg g).line = .inService then (s.setSeg g { s.seg g with badCount := 0 }).changeLine g .degraded []
        else s.setSeg g { s.seg g with badCount := 0, cleanWindows := 0 }
      else if (s.seg g).line = .degraded then
        if 3 ≤ (s.seg g).cleanWindows then recovery g s
        else s.setSeg g { s.seg g with badCount := 0, cleanWindows := (s.seg g).cleanWindows + 1 }
      else s.setSeg g { s.seg g with badCount := 0 } := by
  rw [closeWindow, if_pos ((polling_iff s g).mpr hl)]
  simp only [degrade, setSeg_setSeg hs, Nat.succ_le_succ_iff]
  refine if_congr Iff.rfl rfl (ite_congr rfl (fun hd => ite_congr rfl (fun _ => recover_eq hs hd _) (fun hn => ?_)) fun _ => rfl)
  rw [Nat.min_eq_right (by omega)]

end State

open State in
/-- R95: whatever the judgement, the bad count returns to 0 and no other segment changes. -/
theorem closeWindow_seg {s : State} {g : Nat} (hs : s.Canonical) (hl : (s.seg g).line = .inService ∨ (s.seg g).line = .degraded) :
    ((s.closeWindow g).seg g).badCount = 0 ∧ ∀ h, h ≠ g → (s.closeWindow g).seg h = s.seg h := by
  have hset (x : Segment) (hx : x.badCount = 0) : ((s.setSeg g x).seg g).badCount = 0 ∧
      ∀ h, h ≠ g → (s.setSeg g x).seg h = s.seg h :=
    ⟨by rw [setSeg_seg_self hs, hx], fun h hh => seg_setSeg_ne s x hh⟩
  rw [closeWindow_eq hs hl]
  split
  · split
    · have hs1 := setSeg_canonical hs g { s.seg g with badCount := 0 }
      have hat := changeLine_at hs1 g .degraded []
      refine ⟨?_, fun h hh => (hat.others h hh).trans ((hset _ rfl).2 h hh)⟩
      rw [changeLine_seg hs1, setSeg_seg_self hs]
      rfl
    · exact hset _ rfl
  · split
    · split
      · obtain ⟨-, hbad, -, hothers⟩ := recovery_seg hs g
        exact ⟨hbad, hothers⟩
      · exact hset _ rfl
    · exact hset _ rfl

open State in
/-- R95: an errored window. -/
theorem closeWindow_errored {s : State} {g : Nat} (hs : s.Canonical)
    (hl : (s.seg g).line = .inService ∨ (s.seg g).line = .degraded) (he : s.policy.e ≤ (s.seg g).badCount) :
    let t := s.closeWindow g
    (t.seg g).line = .degraded ∧ (t.seg g).cleanWindows = 0 ∧
      ((s.seg g).line = .inService → (t.fault .segmentDegraded).set = true) := by
  have heq := closeWindow_eq hs hl
  rw [if_pos he] at heq
  intro t
  by_cases hin : (s.seg g).line = .inService
  · rw [if_pos hin] at heq
    have hs1 := setSeg_canonical hs g { s.seg g with badCount := 0 }
    have hseg := changeLine_seg hs1 g .degraded []
    have hfault := (changeLine_fault hs1 g []).1
    rw [← heq] at hseg hfault
    exact ⟨by rw [hseg]; rfl, by rw [hseg]; rfl, fun _ => hfault⟩
  · rw [if_neg hin] at heq
    have hseg : t.seg g = { s.seg g with badCount := 0, cleanWindows := 0 } := by
      rw [show t = _ from heq, setSeg_seg_self hs]
    rw [hseg]
    exact ⟨hl.resolve_left hin, rfl, fun h => absurd h hin⟩

open State in
/-- Settles O27: the window by its bad count and the line state; the join and the engine that go on at a recovery. -/
theorem errorWindowIsJudged : Obligations.ErrorWindowIsJudged := by
  refine ⟨fun g s hm hs hl => ?_, fun s p hs hl => ⟨proceedJoin_minibar hs hl, proceedJoin_lock hs hl⟩,
    fun s g hs => ⟨runEngine_degraded, runEngine_rests hs⟩, fun g s hm hi hd => ?_⟩
  · have hw := without_canonical hs (.errorWindow g.val)
    have hch := closeWindow_ch g.val (s.without (.errorWindow g.val))
    have hframe : ((s.without (.errorWindow g.val)).closeWindow g.val).pendingCharges = s.pendingCharges ∧
        ((s.without (.errorWindow g.val)).closeWindow g.val).creds = s.creds ∧
        ((s.without (.errorWindow g.val)).closeWindow g.val).clock = s.clock ∧
        ((s.without (.errorWindow g.val)).closeWindow g.val).due = s.due.erase (.errorWindow g.val) :=
      ⟨hch.charges_eq, hch.creds_eq, hch.clock_eq, hch.due_eq⟩
    have hseg : s.seg = (s.without (.errorWindow g.val)).seg := rfl
    have hpolicy : s.policy = (s.without (.errorWindow g.val)).policy := rfl
    have hplace : s.place = (s.without (.errorWindow g.val)).place := rfl
    rw [exec_errorWindowClose, runDue_errorWindow hm, hseg, hpolicy, hplace]
    rw [hseg] at hl
    generalize s.without (.errorWindow g.val) = w at *
    obtain ⟨hbad, hothers⟩ := closeWindow_seg hw hl
    have heq := closeWindow_eq hw hl
    refine ⟨_, rfl, hbad, closeWindow_errored hw hl, fun he hin => ?_, fun he hdg hc => ?_, fun he hdg hc => ?_, hothers, hframe⟩
    · rw [heq, if_neg (by omega), if_neg (by rw [hin]; decide)]
      exact ⟨rfl, setSeg_seg_self hw ..⟩
    · rw [heq, if_neg (by omega), if_pos hdg, if_neg (by omega)]
      exact ⟨rfl, setSeg_seg_self hw ..⟩
    · rw [heq, if_neg (by omega), if_pos hdg, if_pos hc]
      obtain ⟨hline, -, hclean, -⟩ := recovery_seg hw g.val
      exact ⟨hline, hclean, rfl⟩
  · rw [exec_errorWindowClose, runDue_errorWindow hm]
    exact congrArg _ (if_neg fun h => ((polling_iff _ _).mp h).elim hi hd)

end Sys2Proof.Machine
end

