-- ==== Sys2Proof/Proofs/Joins.lean ====
section
/-! O35: the join of a drop (R85 to R87): the probe answered, the identity compared, the join flush confirmed. -/

set_option Elab.async false

namespace Sys2Proof.Machine

namespace Place

variable {pl a b : Place}

/-! ## What an accepted condition leaves of a place -/

/-- A place without its door and its minibar lid. -/
def line (pl : Place) : Place :=
  { pl with doorState := .unknown, accepted := none, candidate := none, unlockLeft := 0, openElapsed := 0, window := none
            session := none }

theorem openedDoor_line (pl : Place) : pl.openedDoor.line = pl.line := by
  unfold openedDoor
  split <;> rfl

theorem shutDoor_line (pl : Place) : pl.shutDoor.line = pl.line := by
  unfold shutDoor
  split <;> rfl

theorem firstSeen_line (isOpen : Bool) (pl : Place) : (pl.firstSeen isOpen).line = pl.line := by
  unfold firstSeen
  split <;> rfl

theorem openedLid_line (pl : Place) : pl.openedLid.line = pl.line := by
  unfold openedLid begunSession
  split
  · split <;> rfl
  · rfl

theorem shutLid_line (pl : Place) : pl.shutLid.line = pl.line := by
  unfold shutLid
  split <;> rfl

theorem moved_line (isOpen : Bool) (pl : Place) : (pl.moved isOpen).line = pl.line := by
  unfold moved
  split
  · exact (openedLid_line _).trans (openedDoor_line pl)
  · exact (shutLid_line _).trans (shutDoor_line pl)

/-- A command that leaves no mark at a source enters a queue with a free place. -/
theorem offer_backlogNext (h : pl.queueLen < 4) :
    pl.offer .backlogNext = { pl with waiting := insertEntry ⟨.backlogNext, pl.nextStamp⟩ pl.waiting } := by
  simp [offer, hasRoom, h, enter, onEntered]

/-- R85: a drop that has just answered its probe. -/
structure ProbeHeard (pl : Place) : Prop where
  presence : pl.presence = .joining
  misses : pl.misses = 0
  joinStep : pl.joinStep = .identify
  queued : ∃ x ∈ pl.waiting, x.cmd = .identify
  departed : pl.departed = none

theorem ProbeHeard.of_line (h : ProbeHeard a) (hl : b.line = a.line) : ProbeHeard b where
  presence := (congrArg Place.presence hl :).trans h.presence
  misses := (congrArg Place.misses hl :).trans h.misses
  joinStep := (congrArg Place.joinStep hl :).trans h.joinStep
  queued :=
    have hwaiting : b.waiting = a.waiting := (congrArg Place.waiting hl :)
    hwaiting ▸ h.queued
  departed := (congrArg Place.departed hl :).trans h.departed

theorem ProbeHeard.offer_backlogNext (h : ProbeHeard pl) (hroom : pl.queueLen < 4) : ProbeHeard (pl.offer .backlogNext) := by
  rw [Place.offer_backlogNext hroom]
  obtain ⟨x, hx, hc⟩ := h.queued
  exact ⟨h.presence, h.misses, h.joinStep, ⟨x, mem_insertEntry.mpr (.inr hx), hc⟩, h.departed⟩

theorem ProbeHeard.offer_identify (hp : pl.presence = .joining) (hm : pl.misses = 0) (hj : pl.joinStep = .identify)
    (hd : pl.departed = none) (hq : pl.queueLen = 0) :
    ProbeHeard (pl.offer .identify) ∧ (pl.offer .identify).queueLen < 4 := by
  have hoffer : pl.offer .identify = pl.enter .identify := if_pos (by simp [hasRoom, hq])
  rw [hoffer, enter_queueLen, hq]
  exact ⟨⟨hp, hm, hj, ⟨_, mem_insertEntry.mpr (.inl rfl), rfl⟩, hd⟩, by decide⟩

end Place

namespace State

variable {s t : State} {p : Nat}

/-- R55: a reported condition concerns the door and the lid of its place alone. -/
theorem reportCond_line (hs : s.Canonical) (p : Nat) (c : Cond) :
    ((s.reportCond p c).place p).line = (s.place p).line ∧ ∀ q, q ≠ p → (s.reportCond p c).place q = s.place q := by
  have hset (pl : Place) (hl : pl.line = (s.place p).line) :
      ((s.setPlace p pl).place p).line = (s.place p).line ∧ ∀ q, q ≠ p → (s.setPlace p pl).place q = s.place q := by
    refine ⟨?_, fun q hq => ?_⟩
    · rw [place_setPlace _ _ _ _ hs.places.1, if_pos rfl, hl]
    · rw [place_setPlace _ _ _ _ hs.places.1, if_neg hq]
  have haccept : ((s.acceptCond p c).place p).line = (s.place p).line ∧
      ∀ q, q ≠ p → (s.acceptCond p c).place q = s.place q := by
    refine ⟨?_, fun q hq => acceptCond_elsewhere hs hq⟩
    cases h : (s.place p).accepted with
    | none =>
      rw [acceptCond_first_place hs h, Function.update_self]
      split
      · exact (Place.openedLid_line _).trans (Place.firstSeen_line _ _)
      · exact Place.firstSeen_line _ _
    | some o =>
      by_cases ho : o.isOpen = c.isOpen
      · rw [acceptCond_same_place hs h ho, Function.update_self]
        rfl
      · rw [acceptCond_moved_place hs h ho, Function.update_self]
        exact Place.moved_line _ _
  unfold reportCond
  simp only
  split
  · exact ⟨rfl, fun _ _ => rfl⟩
  · split
    · exact haccept
    · split
      · exact hset _ rfl
      · split
        · exact haccept
        · exact hset _ rfl

/-- R85: a probe of an ABSENT drop answered. -/
theorem heard_absent {r : Response} (hs : s.Canonical) (ha : (s.place p).presence = .absent) (hq : (s.place p).queue = [])
    (hd : (s.place p).departed = none) : let t := s.heard p r
    (t.place p).ProbeHeard ∧ (t.place p).queueLen < 4 ∧ ∀ q, q ≠ p → t.place q = s.place q := by
  have hheard : s.heard p r = s.setPlace p ({ s.place p with
      presence := .joining, misses := 0, nextBit := !r.echo, joinStep := .identify }.offer .identify) := by
    simp only [heard, ha]
  have hlen : (s.place p).queueLen = 0 := congrArg List.length hq
  intro t
  have hplace (q : Nat) : t.place q = _ := (congrArg (fun u => State.place u q) hheard).trans (place_setPlace s p q _ hs.places.1)
  refine (and_assoc.mp ⟨?_, fun q hne => (hplace q).trans (if_neg hne)⟩)
  rw [hplace, if_pos rfl]
  exact Place.ProbeHeard.offer_identify rfl rfl rfl hd hlen

/-- R55, R62: the condition of the response to the probe. -/
theorem takeCondition_heard {r : Response} (hs : s.Canonical) (h : (s.place p).ProbeHeard) (hroom : (s.place p).queueLen < 4) :
    let t := s.takeCondition p r
    (t.place p).ProbeHeard ∧ (t.place p).backlog = r.status.getLsbD 3 ∧ ∀ q, q ≠ p → t.place q = s.place q := by
  obtain ⟨hline, hothers⟩ := reportCond_line hs p (condOf r.status)
  have hu := (reportCond_ch p (condOf r.status) s).canonical hs
  unfold takeCondition
  simp only
  generalize s.reportCond p (condOf r.status) = u at hline hothers hu
  have hqueue : (u.place p).queueLen = (s.place p).queueLen :=
    Place.queueLen_congr (congrArg Place.delivery hline :) (congrArg Place.waiting hline :)
  have hflag (q : Nat) : (u.modPlace p (fun pl => { pl with backlog := r.status.getLsbD 3 })).place q =
      if q = p then { u.place p with backlog := r.status.getLsbD 3 } else u.place q := place_modPlace _ _ _ _ hu.places.1
  have hv : (u.modPlace p (fun pl => { pl with backlog := r.status.getLsbD 3 })).Canonical := setPlace_canonical hu p _
  have hheard : ({ u.place p with backlog := r.status.getLsbD 3 } : Place).ProbeHeard := by
    obtain ⟨h1, h2, h3, h4, h5⟩ := h.of_line hline
    exact ⟨h1, h2, h3, h4, h5⟩
  have hlen : ({ u.place p with backlog := r.status.getLsbD 3 } : Place).queueLen < 4 := hqueue.trans_lt hroom
  generalize ha : ({ u.place p with backlog := r.status.getLsbD 3 } : Place) = a at hheard hlen hflag
  have hb : a.backlog = r.status.getLsbD 3 := by rw [← ha]
  generalize u.modPlace p (fun pl => { pl with backlog := r.status.getLsbD 3 }) = v at hflag hv
  have hself : v.place p = a := (hflag p).trans (if_pos rfl)
  obtain ⟨hasks, hquiet⟩ := backlogRule_eq v p
  by_cases h : (v.place p).backlog = true ∧ ∀ x ∈ (v.place p).queue, x.cmd ≠ .backlogNext
  · rw [hasks h, hself]
    have hset (q : Nat) := place_setPlace v p q (a.offer .backlogNext) hv.places.1
    refine ⟨?_, ?_, fun q hq => ?_⟩
    · rw [hset, if_pos rfl]
      exact hheard.offer_backlogNext hlen
    · rw [hset, if_pos rfl, Place.offer_backlogNext hlen]
      exact hb
    · rw [hset, if_neg hq, hflag, if_neg hq, hothers q hq]
  · rw [hquiet h, hself]
    exact ⟨hheard, hb, fun q hq => by rw [hflag, if_neg hq, hothers q hq]⟩

/-- R72: the response to the probe as the end of a resync with nothing in doubt. -/
theorem plainResponse_heard {e : Exchange} {r : Response} (hs : s.Canonical) (he : e.resync = true) (hev : r.event = .none)
    (hd : (s.place p).departed = none) : let t := s.plainResponse p e r
    Changes [.places] s t ∧ t.place p = { s.place p with nextBit := !r.echo, uncertain := false, departed := none } ∧
      ∀ q, q ≠ p → t.place q = s.place q := by
  have hbit (q : Nat) := place_setPlace s p q { s.place p with nextBit := !r.echo } hs.places.1
  have hu := setPlace_canonical hs p { s.place p with nextBit := !r.echo }
  have hch : Changes [.places] s (s.setPlace p { s.place p with nextBit := !r.echo }) := setPlace_same s p rfl
  have heq : s.plainResponse p e r = (s.setPlace p { s.place p with nextBit := !r.echo }).modPlace p
      (fun pl => { pl with uncertain := false, departed := none }) := by
    have hnone : ((s.setPlace p { s.place p with nextBit := !r.echo }).place p).departed = none := by
      rw [hbit, if_pos rfl]
      exact hd
    rw [(plainResponse_resync s p e r he).2 (by simp [hev]), resynced, settleDeparted_done (by simp [hnone]),
      departedBacklog_other (by simp [hnone])]
    rfl
  rw [heq]
  refine ⟨hch.comp (modPlace_same _ p fun _ => rfl), ?_, fun q hq => ?_⟩
  · rw [place_modPlace _ _ _ _ hu.places.1, if_pos rfl, hbit, if_pos rfl]
  · rw [place_modPlace _ _ _ _ hu.places.1, if_neg hq, hbit, if_neg hq]

/-- R85: a probe of an ABSENT drop answered without an event. -/
theorem dropResponse_probe {e : Exchange} {r : Response} (hs : s.Canonical) (hc : e.carried = none) (he : e.resync = true)
    (hev : r.event = .none) (ha : (s.place p).presence = .absent) (hq : (s.place p).queue = [])
    (hd : (s.place p).departed = none) : let t := s.dropResponse p e r
    Changes kDoor s t ∧ (t.place p).ProbeHeard ∧ (t.place p).nextBit = (!r.echo) ∧ (t.place p).uncertain = false ∧
      (t.place p).backlog = r.status.getLsbD 3 ∧ ∀ q, q ≠ p → t.place q = s.place q := by
  have h1 := heard_ch p r s
  obtain ⟨hheard, hroom, hothers⟩ := heard_absent (r := r) hs ha hq hd
  have h2 := takeCondition_ch p r (s.heard p r)
  obtain ⟨hheard2, hback, hothers2⟩ := takeCondition_heard (r := r) (h1.canonical hs) hheard hroom
  have heq : s.dropResponse p e r = ((s.heard p r).takeCondition p r).plainResponse p e r := by
    simp only [dropResponse, takeEvent, hev, takeAnswer, hc]
  have h12 : Changes kDoor s ((s.heard p r).takeCondition p r) := (Changes.up h1).comp h2
  obtain ⟨h3, hplace, hothers3⟩ := plainResponse_heard (r := r) (h12.canonical hs) he hev hheard2.departed
  rw [heq]
  simp only [hplace]
  exact ⟨h12.comp h3, ⟨hheard2.presence, hheard2.misses, hheard2.joinStep, hheard2.queued, rfl⟩, trivial, trivial, hback,
    fun q hq => ((hothers3 q hq).trans (hothers2 q hq)).trans (hothers q hq)⟩

/-! ## The identity compared (R86) -/

/-- R86: the place of a drop that has reported its identity. -/
def told (k : DropKind) (n : Nat) (pl : Place) : Place := { pl with reportedKind := some k, reportedSerial := some n }

theorem identified_other {k : DropKind} {n : Nat} (h : (s.place p).joinStep ≠ .identify) : s.identified p k n = s := if_neg h

theorem identified_eq {k : DropKind} {n : Nat} (hs : s.Canonical) (h : (s.place p).joinStep = .identify) :
    s.identified p k n = if kindMatches (s.place p).door k then (s.modPlace p (told k n)).identityMatch p n
      else ((s.modPlace p (told k n)).modPlace p (fun pl => { pl with joinStep := .mismatch })).faultAt .dropMismatch p := by
  have hplace : (s.modPlace p (told k n)).place p = told k n (s.place p) := by
    rw [place_modPlace _ _ _ _ hs.places.1, if_pos rfl]
  rw [identified, if_pos h]
  change (s.modPlace p (told k n)).compareIdentity p k n = _
  rw [compareIdentity, hplace]
  rfl

/-- R86: a kind that does not match the door record. -/
theorem identified_mismatch {k : DropKind} {n : Nat} (hs : s.Canonical) (h : (s.place p).joinStep = .identify)
    (hk : kindMatches (s.place p).door k = false) : let t := s.identified p k n
    t.place p = { told k n (s.place p) with joinStep := .mismatch } ∧ (t.fault .dropMismatch).set = true ∧
      t.journal = s.journal := by
  have heq := identified_eq (k := k) (n := n) hs h
  rw [hk, if_neg (by decide)] at heq
  have hu : (s.modPlace p (told k n)).Canonical := setPlace_canonical hs p _
  have hv : ((s.modPlace p (told k n)).modPlace p (fun pl => { pl with joinStep := .mismatch })).Canonical :=
    setPlace_canonical hu p _
  have hplace : ((s.modPlace p (told k n)).modPlace p (fun pl => { pl with joinStep := .mismatch })).place p =
      { told k n (s.place p) with joinStep := .mismatch } := by
    rw [place_modPlace _ _ _ _ hu.places.1, if_pos rfl, place_modPlace _ _ _ _ hs.places.1, if_pos rfl]
  intro t
  rw [show t = _ from heq]
  refine ⟨?_, (giveFault_fault hv.faults _ .dropMismatch _).1, giveFault_journal ..⟩
  rw [(faultAt_ch ..).place_eq]
  exact hplace

/-- R86: the LOCK_REPLACED record of a serial that has changed. -/
def serialNoted (p n : Nat) (s : State) : State :=
  match (s.place p).lockSerial with
  | none => s
  | some old => if old = n then s else s.log .lockReplaced (.drop p) (le 4 old ++ le 4 n)

theorem serialNoted_same {n : Nat} (h : (s.place p).lockSerial = none ∨ (s.place p).lockSerial = some n) :
    s.serialNoted p n = s := by
  rcases h with h | h <;> simp [serialNoted, h]

theorem serialNoted_replaced {n old : Nat} (h : (s.place p).lockSerial = some old) (hn : old ≠ n) :
    s.serialNoted p n = s.log .lockReplaced (.drop p) (le 4 old ++ le 4 n) := by
  simp only [serialNoted, h, hn, if_false]

theorem serialNoted_ch (p n : Nat) (s : State) : Changes kLog s (s.serialNoted p n) := by
  unfold serialNoted
  split
  · exact .refl s
  · exact .ite (fun _ => .refl s) (fun _ => log_ch ..)

/-- R86: a drop whose identity matches, before its join goes on. -/
def serialKept (p : Nat) (k : DropKind) (n : Nat) (s : State) : State :=
  ((s.modPlace p (told k n)).serialNoted p n).modPlace p (fun pl => { pl with lockSerial := some n })

theorem identified_match {k : DropKind} {n : Nat} (hs : s.Canonical) (h : (s.place p).joinStep = .identify)
    (hk : kindMatches (s.place p).door k = true) : s.identified p k n = (s.serialKept p k n).proceedJoin p :=
  (identified_eq hs h).trans (if_pos hk)

theorem serialKept_spec (hs : s.Canonical) (p : Nat) (k : DropKind) (n : Nat) : let u := s.serialKept p k n
    u.Canonical ∧ u.place p = { told k n (s.place p) with lockSerial := some n } ∧ u.seg = s.seg ∧
      u.journal = ((s.modPlace p (told k n)).serialNoted p n).journal := by
  have hu : (s.modPlace p (told k n)).Canonical := setPlace_canonical hs p _
  have hch := serialNoted_ch p n (s.modPlace p (told k n))
  have hv := hch.canonical hu
  refine ⟨setPlace_canonical hv p _, ?_, funext fun g => ?_, rfl⟩
  · rw [serialKept, place_modPlace _ _ _ _ hv.places.1, if_pos rfl, hch.place_eq, place_modPlace _ _ _ _ hs.places.1,
      if_pos rfl]
  · exact congrArg (fun x => Tab.read Segment.reset x g) hch.segs_eq

theorem proceedJoin_degraded (hl : (s.seg (segOf p)).line = .degraded) :
    s.proceedJoin p = s.modPlace p (fun pl => { pl with joinStep := .waiting }) := if_pos hl

theorem proceedJoin_grows (p : Nat) (s : State) : RingGrows s (s.proceedJoin p) := by
  unfold proceedJoin
  split
  · exact .of_eq rfl
  · split
    · exact (RingGrows.of_eq rfl).trans (.of_handOver (s.enterPresent p) _)
    · exact .of_eq rfl

/-- R87: off DEGRADED, the joining of a drop changes its presence, its join step and its queue. -/
theorem proceedJoin_core (hs : s.Canonical) (hl : (s.seg (segOf p)).line ≠ .degraded) :
    { ((s.proceedJoin p).place p).core with presence := .absent, joinStep := .none } =
      { (s.place p).core with presence := .absent, joinStep := .none } := by
  unfold proceedJoin
  rw [if_neg hl]
  split
  · rw [(presenceRecord_ch ..).place_eq, enterPresent, place_modPlace _ _ _ _ hs.places.1, if_pos rfl,
      (Place.offerZone_offered _).core]
    rfl
  · rw [place_modPlace _ _ _ _ hs.places.1, if_pos rfl, (Place.offer_offered _ _).core]
    rfl

/-- R86, R87: an identity that matches the door record. -/
theorem identified_matches {k : DropKind} {n : Nat} (hs : s.Canonical) (h : (s.place p).joinStep = .identify)
    (hk : kindMatches (s.place p).door k = true) : let t := s.identified p k n
    (∀ old, (s.place p).lockSerial = some old → old ≠ n → s.journal.storable = true →
      ∃ x rest, t.journal.ring = s.journal.ring ++ x :: rest ∧ x.kind = .lockReplaced ∧ x.spot = .drop p ∧
        x.detail = le 4 old ++ le 4 n) ∧
    ((s.place p).lockSerial = none ∨ (s.place p).lockSerial = some n →
      (s.seg (segOf p)).line = .degraded ∨ (s.place p).door.isMinibar = false → t.journal = s.journal) ∧
    ((s.seg (segOf p)).line = .degraded →
      t.place p = { told k n (s.place p) with lockSerial := some n, joinStep := .waiting }) ∧
    ((s.seg (segOf p)).line ≠ .degraded → (s.place p).door.isMinibar = true →
      (t.place p).presence = .present ∧ (t.place p).joinStep = .none ∧ (t.place p).lockSerial = some n) ∧
    ((s.seg (segOf p)).line ≠ .degraded → (s.place p).door.isMinibar = false → (s.place p).queueLen < 4 →
      (t.place p).joinStep = .flush ∧ (t.place p).lockSerial = some n ∧ (t.place p).presence = (s.place p).presence ∧
      ∃ x ∈ (t.place p).waiting, x.cmd = .cacheFlush true) := by
  obtain ⟨hu, hplace, hseg, hjournal⟩ := serialKept_spec hs p k n
  have htold : ((s.modPlace p (told k n)).place p).lockSerial = (s.place p).lockSerial := by
    rw [place_modPlace _ _ _ _ hs.places.1, if_pos rfl]
    rfl
  rw [identified_match hs h hk]
  generalize s.serialKept p k n = u at *
  have hdoor : (u.place p).door = (s.place p).door := by
    rw [hplace]
    rfl
  have hserial : (u.place p).lockSerial = some n := by rw [hplace]
  rw [← hseg, ← hdoor]
  refine ⟨fun old ho hn hst => ?_, fun hsame hquiet => ?_, fun hl => ?_, fun hl hm => ?_, fun hl hm hroom => ?_⟩
  · have hlog := serialNoted_replaced (htold.trans ho) hn
    have hgrows : RingGrows ((s.modPlace p (told k n)).log .lockReplaced (.drop p) (le 4 old ++ le 4 n)) (u.proceedJoin p) := by
      rw [← hlog]
      exact (RingGrows.of_eq hjournal).trans (proceedJoin_grows p u)
    exact log_ring_first hst (t := s.modPlace p (told k n)) rfl hgrows
  · rw [serialNoted_same (hsame.imp htold.trans htold.trans)] at hjournal
    refine Eq.trans ?_ hjournal
    by_cases hl : (u.seg (segOf p)).line = .degraded
    · rw [proceedJoin_degraded hl]
      rfl
    · rw [(proceedJoin_lock hu hl (hquiet.resolve_left hl)).1]
      rfl
  · rw [proceedJoin_degraded hl, place_modPlace _ _ _ _ hu.places.1, if_pos rfl, hplace]
  · obtain ⟨hpresence, hstep, -⟩ := proceedJoin_minibar hu hl hm
    exact ⟨hpresence, hstep, (congrArg Place.lockSerial (proceedJoin_core hu hl) :).trans hserial⟩
  · have hpl : ((u.proceedJoin p).place p) = ({ u.place p with joinStep := .flush } : Place).enter (.cacheFlush true) := by
      have hlen : (u.place p).queueLen < 4 := by
        rw [hplace]
        exact hroom
      rw [(proceedJoin_lock hu hl hm).1, place_setPlace _ _ _ _ hu.places.1, if_pos rfl]
      exact if_pos (decide_eq_true hlen)
    rw [hpl]
    refine ⟨rfl, hserial, ?_, _, Place.mem_insertEntry.mpr (.inl rfl), rfl⟩
    change (u.place p).presence = _
    rw [hplace]
    rfl

/-! ## The join flush confirmed (R87, R119) -/

theorem joinFlushDone_eq (h : (s.place p).joinStep = .flush) : s.joinFlushDone p =
    (((s.flushConfirmed p).enterPresent p).presenceRecord p .present).requestReload p := if_pos h

theorem joinFlushDone_present (hs : s.Canonical) (h : (s.place p).joinStep = .flush) : let t := s.joinFlushDone p
    (t.place p).presence = .present ∧ (t.place p).joinStep = .none ∧ (t.place p).suspect = false ∧ t.reloadAsked p ∧
    (s.flushConfirmed p).journal.ring <+: t.journal.ring ∧
    ((s.flushConfirmed p).journal.storable = true → ∃ x, t.journal.ring = (s.flushConfirmed p).journal.ring ++ [x] ∧
      x.kind = .dropPresence ∧ x.spot = .drop p ∧ x.detail = [byte (presenceCode .present)]) := by
  have hu := (flushConfirmed_ch p s).canonical hs
  have hflushed : (s.flushConfirmed p).place p = flushedPlace (s.place p) := by rw [flushConfirmed_place hs, if_pos rfl]
  rw [joinFlushDone_eq h]
  generalize s.flushConfirmed p = u at *
  have hentered := (enterPresent_ch p u).canonical hu
  have hrecord := presenceRecord_ch p .present (u.enterPresent p)
  have hreload := requestReload_ch p ((u.enterPresent p).presenceRecord p .present)
  have hplace : (((u.enterPresent p).presenceRecord p .present).requestReload p).place p =
      ({ u.place p with presence := .present, joinStep := .none } : Place).offerZone := by
    rw [hreload.place_eq, hrecord.place_eq, enterPresent, place_modPlace _ _ _ _ hu.places.1, if_pos rfl]
  have hcore := (Place.offerZone_offered { u.place p with presence := .present, joinStep := .none }).core
  intro t
  have hjournal : t.journal = ((u.enterPresent p).presenceRecord p .present).journal := hreload.journal_eq
  rw [hplace, hjournal]
  refine ⟨(congrArg Place.presence hcore :), (congrArg Place.joinStep hcore :), ?_,
    requestReload_asked (hrecord.canonical hentered) p, ?_, fun hst => ?_⟩
  · refine (congrArg Place.suspect hcore :).trans ?_
    change (u.place p).suspect = false
    rw [hflushed]
    rfl
  · obtain ⟨rest, hrest⟩ : RingGrows (u.enterPresent p) ((u.enterPresent p).presenceRecord p .present) := .of_handOver _ _
    exact ⟨rest, hrest.symm⟩
  · exact ⟨_, handOver_ring (s := u.enterPresent p) _ hst, rfl, rfl, rfl⟩

end State

theorem kindMatches_iff (d : DoorRec) (k : DropKind) : kindMatches d k = true ↔
    (k = .lock ∧ d.isLocked = true) ∨ (k = .reader ∧ d.kindCode = 2) ∨ (k = .minibar ∧ d.isMinibar = true) := by
  cases d with
  | unused | roomDoor | commonDoor | minibar => cases k <;> simp [kindMatches, DoorRec.isLocked, DoorRec.kindCode, DoorRec.isMinibar]

open State in
/-- Settles O35: the probe's answer, the comparison of the identity and the confirmed join flush. -/
theorem probeAnswered : Obligations.ProbeAnswered := by
  refine ⟨fun g s frame e r hdue hs he hk ha hc hre hr hev hab hq hd => ?_, kindMatches_iff,
    fun s p n k hs h => ⟨identified_mismatch hs h, identified_matches hs h⟩, fun s p n k h => identified_other h,
    fun s p hs h => joinFlushDone_present hs h⟩
  have hu : (s.endExchange g.val e).Canonical := setSeg_canonical hs g.val _
  have hend : Changes [.segs] s (s.endExchange g.val e) := modSeg_ch ..
  have heq : s.responseReceived g.val frame = (s.endExchange g.val e).dropResponse (placeOf g.val e.addr) e r := by
    rw [responseReceived_valid he hr, validExchange, if_neg (by rw [hk]; decide), if_neg (by omega)]
  obtain ⟨hch, hheard, hbit, hcertain, hback, hothers⟩ := dropResponse_probe (s := s.endExchange g.val e) hu hc hre hev hab hq hd
  rw [exec_responseReceived, settle_eq s hdue, heq]
  obtain ⟨x, hx, hxc⟩ := hheard.queued
  exact ⟨_, rfl, hheard.presence, hheard.misses, hheard.joinStep, hbit, hcertain,
    ⟨x, List.mem_append.mpr (.inr hx), hxc⟩, hback, hothers, hch.creds_eq.trans hend.creds_eq, hch.clock_eq.trans hend.clock_eq,
    hch.charges_eq.trans hend.charges_eq, hch.revocations_eq.trans hend.revocations_eq⟩

end Sys2Proof.Machine
end

