-- ==== Sys2Proof/Proofs/DropQueues.lean ====
section
/-! O32, the command queue of a drop (R73 to R77, R67): how a command enters, what gives way to it, and what a poll carries. -/

set_option Elab.async false

namespace Sys2Proof.Machine

namespace Place

variable {pl : Place} {c : LineCmd}

/-! ## The three outcomes of an offer (R76) -/

theorem offer_room (h : pl.queueLen < 4) : pl.offer c = pl.enter c := if_pos (decide_eq_true h)

theorem not_hasRoom (h : 4 ≤ pl.queueLen) : ¬pl.hasRoom = true := by simpa [hasRoom] using h

theorem offer_kept (h : 4 ≤ pl.queueLen) (hc : ∀ x ∈ pl.queue, x.cmd.cls ≤ c.cls) : pl.offer c = onReturned c .owed pl := by
  rw [offer, if_neg (not_hasRoom h)]
  split
  · rfl
  · rename_i v hv
    exact if_neg (Nat.not_lt.mpr (hc v (victim_mem hv)))

theorem offer_evicts (h : 4 ≤ pl.queueLen) (hc : ∃ x ∈ pl.queue, c.cls < x.cmd.cls) : ∃ v, victim pl.queue = some v ∧
    c.cls < v.cmd.cls ∧ pl.offer c = (pl.evict v).enter c := by
  obtain ⟨x, hx, hlt⟩ := hc
  cases hv : victim pl.queue with
  | none =>
    rw [victim_eq_none hv] at hx
    contradiction
  | some v =>
    have hcls := cls_le_victim hv x hx
    refine ⟨v, rfl, by omega, ?_⟩
    rw [offer, if_neg (not_hasRoom h)]
    simp only [hv, if_pos (show c.cls < v.cmd.cls by omega)]

/-- R76: of the lowest class, the newest command is the victim. -/
theorem stamp_le_victim {l : List QEntry} {v : QEntry} (h : victim l = some v) :
    ∀ x ∈ l, x.cmd.cls = v.cmd.cls → x.stamp ≤ v.stamp := by
  induction l generalizing v with
  | nil => exact nofun
  | cons e l ih =>
    simp only [victim] at h
    cases hw : victim l with
    | none =>
      rw [hw] at h
      cases h
      simp [victim_eq_none hw]
    | some w =>
      have hcls := cls_le_victim hw
      have hstamp := ih hw
      simp only [hw] at h
      have hbefore : evictBefore e w = true ↔ w.cmd.cls < e.cmd.cls ∨ (e.cmd.cls = w.cmd.cls ∧ w.stamp < e.stamp) := by
        simp [evictBefore]
      by_cases hb : evictBefore e w = true
      · rw [if_pos hb] at h
        cases h
        refine List.forall_mem_cons.mpr ⟨fun _ => le_rfl, fun x hx hxe => ?_⟩
        have := hcls x hx
        have := hstamp x hx
        have := hbefore.mp hb
        omega
      · rw [if_neg hb] at h
        cases h
        refine List.forall_mem_cons.mpr ⟨fun hcls => ?_, hstamp⟩
        by_contra hlt
        exact hb (hbefore.mpr (.inr ⟨hcls, Nat.not_le.mp hlt⟩))

/-! ## What enters, and what stays -/

theorem enter_waiting (c : LineCmd) (pl : Place) :
    (pl.enter c).waiting = insertEntry ⟨c, pl.nextStamp⟩ pl.waiting := (onEntered_queue c _).1

theorem onEntered_delivery (c : LineCmd) (pl : Place) : (onEntered c pl).delivery = pl.delivery := by
  cases c with
  | cacheFlush j => cases j <;> rfl
  | verdict | remoteUnlock | holdOpen | secure | cacheAdd | cacheRemove | identify | backlogNext => rfl

theorem onReturned_waiting (c : LineCmd) (st : CmdStatus) (pl : Place) :
    (onReturned c st pl).waiting = pl.waiting ∧ (onReturned c st pl).delivery = pl.delivery := by
  cases c with
  | cacheFlush j => cases j <;> exact ⟨rfl, rfl⟩
  | verdict | remoteUnlock | holdOpen | secure | cacheAdd | cacheRemove | identify | backlogNext => exact ⟨rfl, rfl⟩

theorem enter_delivery (c : LineCmd) (pl : Place) : (pl.enter c).delivery = pl.delivery := onEntered_delivery c _

theorem mem_queue {x : QEntry} {pl : Place} : x ∈ pl.queue ↔ pl.delivery = some x ∨ x ∈ pl.waiting := by
  simp [queue]

theorem mem_enter_queue {x : QEntry} (h : x ∈ pl.queue) (c : LineCmd) : x ∈ (pl.enter c).queue := by
  rw [mem_queue] at *
  rw [enter_delivery, enter_waiting, mem_insertEntry]
  exact h.imp id .inr

theorem depart_of {v : QEntry} (h : pl.delivery = some v) : pl.depart =
    { pl with delivery := none, uncertain := true, departed := some ⟨v.cmd, pl.nextBit, false⟩ } := by
  simp only [depart, h]

/-- R76: an eviction takes the victim alone. -/
theorem mem_evict_queue {x v : QEntry} (h : x ∈ pl.queue) (hx : x ≠ v) : x ∈ (pl.evict v).queue := by
  rw [mem_queue] at *
  unfold evict
  split
  · rename_i hd
    obtain ⟨hw, -⟩ := onReturned_waiting v.cmd .doubtful pl.depart
    rw [hw, depart_of hd]
    exact .inr (h.resolve_left fun hd' => hx (Option.some.inj (hd'.symm.trans hd)))
  · obtain ⟨hw, hd⟩ := onReturned_waiting v.cmd .owed { pl with waiting := pl.waiting.filter (fun e => e != v) }
    rw [hw, hd]
    exact h.imp id fun h => List.mem_filter.mpr ⟨h, by simpa using hx⟩

/-- R75: the command stands behind those of its class and before the lower ones. -/
theorem insertEntry_split (e : QEntry) (l : List QEntry) : ∃ hi lo, l = hi ++ lo ∧ insertEntry e l = hi ++ [e] ++ lo ∧
    (∀ x ∈ hi, x.cmd.cls ≤ e.cmd.cls) ∧ ∀ x, lo.head? = some x → e.cmd.cls < x.cmd.cls := by
  induction l with
  | nil => exact ⟨[], [], rfl, rfl, nofun, nofun⟩
  | cons y l ih =>
    by_cases hy : e.cmd.cls < y.cmd.cls
    · refine ⟨[], y :: l, rfl, if_pos hy, nofun, fun x hx => ?_⟩
      cases hx
      exact hy
    · obtain ⟨hi, lo, hl, hins, hhi, hlo⟩ := ih
      refine ⟨y :: hi, lo, by rw [hl]; rfl, ?_, List.forall_mem_cons.mpr ⟨Nat.not_lt.mp hy, hhi⟩, hlo⟩
      rw [insertEntry, if_neg hy, hins]
      rfl

/-- The order of the classes in a queue. -/
def Ranked (l : List QEntry) : Prop := l.Pairwise (fun x y => x.cmd.cls ≤ y.cmd.cls)

theorem insertEntry_ranked {l : List QEntry} (e : QEntry) (h : Ranked l) : Ranked (insertEntry e l) := by
  induction l with
  | nil => exact List.pairwise_singleton _ _
  | cons y l ih =>
    obtain ⟨hy, hl⟩ := List.pairwise_cons.mp h
    rw [insertEntry]
    split
    · rename_i hlt
      refine List.pairwise_cons.mpr ⟨List.forall_mem_cons.mpr ⟨hlt.le, fun x hx => hlt.le.trans (hy x hx)⟩, h⟩
    · rename_i hle
      refine List.pairwise_cons.mpr ⟨fun x hx => ?_, ih hl⟩
      rcases mem_insertEntry.mp hx with rfl | hx
      · exact Nat.not_lt.mp hle
      · exact hy x hx

theorem enter_ranked (c : LineCmd) (h : Ranked pl.waiting) : Ranked (pl.enter c).waiting := by
  rw [enter_waiting]
  exact insertEntry_ranked _ h

theorem evict_ranked (v : QEntry) (h : Ranked pl.waiting) : Ranked (pl.evict v).waiting := by
  unfold evict
  split
  · rename_i hd
    rw [(onReturned_waiting ..).1, depart_of hd]
    exact h
  · rw [(onReturned_waiting ..).1]
    exact h.filter _

/-- R75: an offer keeps the classes in order. -/
theorem offer_ranked (c : LineCmd) (h : Ranked pl.waiting) : Ranked (pl.offer c).waiting := by
  unfold offer
  split
  · exact enter_ranked c h
  · split
    · rw [(onReturned_waiting ..).1]
      exact h
    · split
      · exact enter_ranked c (evict_ranked _ h)
      · rw [(onReturned_waiting ..).1]
        exact h

theorem stamp_lt_nextStamp {x : QEntry} (h : x ∈ pl.queue) : x.stamp < pl.nextStamp := by
  have hfold (l : List QEntry) (n : Nat) : n ≤ l.foldl (fun n e => max n (e.stamp + 1)) n ∧
      ∀ x ∈ l, x.stamp < l.foldl (fun n e => max n (e.stamp + 1)) n := by
    induction l generalizing n with
    | nil => exact ⟨le_rfl, nofun⟩
    | cons y l ih =>
      obtain ⟨hle, hall⟩ := ih (max n (y.stamp + 1))
      rw [List.foldl_cons]
      exact ⟨by omega, List.forall_mem_cons.mpr ⟨by omega, hall⟩⟩
  exact (hfold pl.queue 0).2 x h

/-! ## The sources of the commands (R77, R104) -/

theorem addStatus_eq (pl : Place) (slot i : Nat) (st : CmdStatus) : pl.addStatus slot i st =
    { pl with directory := pl.directory.map (fun d =>
        if d.slot = slot ∧ d.index = i ∧ ∃ x ∈ [CmdStatus.queued, .carried, .owed, .doubtful], d.state = .adding x then
          { d with state := .adding st } else d) } := by
  simp only [addStatus, mapDir]
  congr 1
  refine List.map_congr_left fun d _ => ?_
  obtain ⟨n, j, x⟩ := d
  cases x with
  | adding y => cases y <;> simp
  | held | removing => simp

theorem removeStatus_eq (pl : Place) (slot i : Nat) (st : CmdStatus) : pl.removeStatus slot i st =
    { pl with directory := pl.directory.map (fun d =>
        if d.slot = slot ∧ d.index = i ∧ ∃ x ∈ [CmdStatus.queued, .carried, .owed, .doubtful], d.state = .removing x then
          { d with state := .removing st } else d) } := by
  simp only [removeStatus, mapDir]
  congr 1
  refine List.map_congr_left fun d _ => ?_
  obtain ⟨n, j, x⟩ := d
  cases x with
  | removing y => cases y <;> simp
  | held | adding => simp

/-! ## The command of a poll (R67, R96) -/

/-- R96: an addition is held back in DEGRADED. -/
def heldBack (dg : Bool) (e : QEntry) : Prop := dg = true ∧ ∃ a b i, e.cmd = .cacheAdd a b i

theorem firstReady_eq (dg : Bool) (pl : Place) : ∃ f : QEntry → Bool, pl.firstReady dg = pl.waiting.find? f ∧
    ∀ e, f e = true ↔ ¬heldBack dg e := by
  refine ⟨_, rfl, fun e => ?_⟩
  unfold heldBack
  cases e.cmd <;> simp

theorem choose_ready (hu : pl.uncertain = false) (hd : pl.delivery = none) {dg : Bool} :
    (pl.firstReady dg = none → pl.choose dg = (pl, none)) ∧
      ∀ e, pl.firstReady dg = some e → pl.choose dg = (pl.carry e, some e) :=
  ⟨fun h => by simp only [choose, hu, hd, h, Bool.false_eq_true, if_false],
    fun e h => by simp only [choose, hu, hd, h, Bool.false_eq_true, if_false]⟩

theorem choose_none (hu : pl.uncertain = false) (hd : pl.delivery = none) {dg : Bool}
    (h : ∀ x ∈ pl.waiting, heldBack dg x) : pl.choose dg = (pl, none) := by
  obtain ⟨f, hf, hiff⟩ := firstReady_eq dg pl
  have hnone : pl.firstReady dg = none := by
    rw [hf]
    exact List.find?_eq_none.mpr fun x hx => fun hx' => (hiff x).mp hx' (h x hx)
  exact (choose_ready hu hd).1 hnone

theorem carry_eq (e : QEntry) (pl : Place) :
    (pl.carry e).delivery = some e ∧ (pl.carry e).waiting = pl.waiting.filter (fun x => x != e) := by
  have h (q : Place) : (onCarried e.cmd q).delivery = q.delivery ∧ (onCarried e.cmd q).waiting = q.waiting := by
    cases e.cmd with
    | cacheFlush j => cases j <;> exact ⟨rfl, rfl⟩
    | verdict tag out =>
      simp only [onCarried]
      split
      · split <;> exact ⟨rfl, rfl⟩
      · exact ⟨rfl, rfl⟩
    | remoteUnlock | holdOpen | secure | cacheAdd | cacheRemove | identify | backlogNext => exact ⟨rfl, rfl⟩
  exact h _

theorem choose_first (hu : pl.uncertain = false) (hd : pl.delivery = none) {dg : Bool} {e : QEntry} {pre post : List QEntry}
    (hw : pl.waiting = pre ++ e :: post) (hpre : ∀ x ∈ pre, heldBack dg x) (he : ¬heldBack dg e) :
    pl.choose dg = (pl.carry e, some e) := by
  obtain ⟨f, hf, hiff⟩ := firstReady_eq dg pl
  have hfirst : pl.firstReady dg = some e := by
    rw [hf, hw]
    exact List.find?_eq_some_iff_append.mpr ⟨(hiff e).mpr he, pre, post, rfl, fun x hx => by
      simpa using fun h => (hiff x).mp h (hpre x hx)⟩
  exact (choose_ready hu hd).2 e hfirst

end Place

end Sys2Proof.Machine
end

