-- ==== Sys2Proof/Proofs/FreedPlaces.lean ====
section
/-! O32, the freed place (R104): what is owed is offered until the queue is full, and no command in it is lost. -/

set_option Elab.async false

namespace Sys2Proof.Machine

namespace Place

variable {a b c pl : Place}

/-- R104: an entry whose command is owed. -/
def owes (d : DirEntry) : Prop := d.state = .adding .owed ∨ d.state = .removing .owed

/-- What commands that enter leave: every command of the queue, and nothing owed that was not. -/
structure Fills (a b : Place) : Prop where
  length : a.queueLen ≤ b.queueLen
  queue : ∀ x ∈ a.queue, x ∈ b.queue
  presence : b.presence = a.presence
  joinOwed : a.joinOwed = [] → b.joinOwed = []
  flush : b.flush = some .owed → a.flush = some .owed
  mark : b.mark = .holdOwed ∨ b.mark = .secureOwed → a.mark = b.mark
  directory : ∀ d ∈ b.directory, owes d → d ∈ a.directory

namespace Fills

theorem refl (a : Place) : Fills a a := ⟨le_rfl, fun _ h => h, rfl, id, id, fun _ => rfl, fun _ h _ => h⟩

theorem trans (h1 : Fills a b) (h2 : Fills b c) : Fills a c where
  length := h1.length.trans h2.length
  queue x h := h2.queue x (h1.queue x h)
  presence := h2.presence.trans h1.presence
  joinOwed h := h2.joinOwed (h1.joinOwed h)
  flush h := h1.flush (h2.flush h)
  mark h :=
    have hb := h2.mark h
    (h1.mark (by rw [hb]; exact h)).trans hb
  directory d h ho := h1.directory d (h2.directory d h ho) ho

theorem ite {p : Prop} [Decidable p] (h : Fills a b) : Fills a (if p then b else a) := by
  split
  · exact h
  · exact refl a

theorem fold {α : Type} {f : Place → α → Place} (h : ∀ pl x, Fills pl (f pl x)) (l : List α) (pl : Place) :
    Fills pl (l.foldl f pl) := by
  induction l generalizing pl with
  | nil => exact refl pl
  | cons x l ih => exact (h pl x).trans (ih _)

theorem reachable (h : Fills a b) : b.reachable = a.reachable := by rw [Place.reachable, h.presence, Place.reachable]

end Fills

/-- R104: an addition that has entered is owed no longer. -/
theorem addStatus_owes {slot i : Nat} {d : DirEntry} (hd : d ∈ (pl.addStatus slot i .queued).directory) (ho : owes d) :
    d ∈ pl.directory ∧ (d.slot = slot → d.index = i → d.state ≠ .adding .owed) := by
  obtain ⟨d0, hd0, rfl⟩ := List.mem_map.mp hd
  by_cases hm : d0.slot = slot ∧ d0.index = i
  · rw [if_pos hm] at ho ⊢
    obtain ⟨n, j, x⟩ := d0
    cases x with
    | adding y | held => simp [owes] at ho
    | removing y => exact ⟨hd0, fun _ _ => nofun⟩
  · rw [if_neg hm]
    exact ⟨hd0, fun h1 h2 => absurd ⟨h1, h2⟩ hm⟩

/-- R104: a removal that has entered is owed no longer. -/
theorem removeStatus_owes {slot i : Nat} {d : DirEntry} (hd : d ∈ (pl.removeStatus slot i .queued).directory) (ho : owes d) :
    d ∈ pl.directory ∧ (d.slot = slot → d.index = i → d.state ≠ .removing .owed) := by
  obtain ⟨d0, hd0, rfl⟩ := List.mem_map.mp hd
  by_cases hm : d0.slot = slot ∧ d0.index = i
  · rw [if_pos hm] at ho ⊢
    obtain ⟨n, j, x⟩ := d0
    cases x with
    | removing y | held => simp [owes] at ho
    | adding y => exact ⟨hd0, fun _ _ => nofun⟩
  · rw [if_neg hm]
    exact ⟨hd0, fun h1 h2 => absurd ⟨h1, h2⟩ hm⟩

/-- A command that enters is owed no longer. -/
theorem onEntered_fills (k : LineCmd) (pl : Place) : Fills pl (onEntered k pl) := by
  cases k with
  | cacheAdd slot card i =>
    exact ⟨le_rfl, fun _ h => h, rfl, id, id, fun _ => rfl, fun d hd ho => (addStatus_owes hd ho).1⟩
  | cacheRemove slot i =>
    exact ⟨le_rfl, fun _ h => h, rfl, id, id, fun _ => rfl, fun d hd ho => (removeStatus_owes hd ho).1⟩
  | holdOpen | secure => exact ⟨le_rfl, fun _ h => h, rfl, id, id, fun h => by simp [onEntered] at h, fun _ h _ => h⟩
  | cacheFlush j =>
    cases j with
    | true => exact .refl pl
    | false => exact ⟨le_rfl, fun _ h => h, rfl, id, nofun, fun _ => rfl, fun _ h _ => h⟩
  | verdict | remoteUnlock | identify | backlogNext => exact .refl pl

theorem enter_fills (k : LineCmd) (pl : Place) : Fills pl (pl.enter k) := by
  have h := onEntered_fills k { pl with waiting := insertEntry ⟨k, pl.nextStamp⟩ pl.waiting }
  exact ⟨by rw [enter_queueLen]; omega, fun x hx => mem_enter_queue hx k, h.presence, h.joinOwed, h.flush, h.mark, h.directory⟩

theorem offerFree_fills (k : LineCmd) (pl : Place) : Fills pl (pl.offerFree k) := (enter_fills k pl).ite

/-- Where a place is free in the end, a command offered has entered. -/
theorem offerFree_entered {k : LineCmd} (hf : Fills (pl.offerFree k) b) (hb : b.queueLen < 4) : pl.offerFree k = pl.enter k := by
  refine if_pos (decide_eq_true ?_)
  have := (offerFree_fills k pl).length
  have := hf.length
  omega

/-! ## The offers one after another -/

theorem offerZone_fills (h : pl.queueLen < 4) : Fills pl pl.offerZone ∧
    (pl.reachable = true → pl.offerZone.mark ≠ .holdOwed ∧ pl.offerZone.mark ≠ .secureOwed) := by
  have hclass : pl.class1 < 4 := (List.length_filter_le _ _).trans_lt h
  unfold offerZone
  split
  · cases hm : pl.mark with
    | holdOwed | secureOwed =>
      simp only [offer_room h]
      exact ⟨enter_fills .., fun _ => by simp [enter, onEntered]⟩
    | none | holdQueued | secureQueued => exact ⟨.refl pl, fun _ => by simp [hm]⟩
  · rename_i hshut
    exact ⟨.refl pl, fun hr => absurd (by simp [hr, hclass]) hshut⟩

theorem onEntered_joinOwed (k : LineCmd) (pl : Place) : (onEntered k pl).joinOwed = pl.joinOwed := by
  cases k with
  | cacheFlush j => cases j <;> rfl
  | verdict | remoteUnlock | holdOpen | secure | cacheAdd | cacheRemove | identify | backlogNext => rfl

theorem offerReturned_room (pl : Place) (k : LineCmd) (h : pl.queueLen < 4) :
    pl.offerReturned k = { pl with joinOwed := pl.joinOwed.erase k }.enter k := if_pos (decide_eq_true h)

theorem offerReturned_fills (pl : Place) (k : LineCmd) : Fills pl (pl.offerReturned k) := by
  have herase : Fills pl { pl with joinOwed := pl.joinOwed.erase k } :=
    ⟨le_rfl, fun _ h => h, rfl, fun h => by rw [h]; rfl, id, fun _ => rfl, fun _ h _ => h⟩
  exact .ite (herase.trans (enter_fills k _))

theorem offerJoin_fills (pl : Place) : Fills pl pl.offerJoin := .fold offerReturned_fills _ pl

theorem offerJoin_done (h : pl.offerJoin.queueLen < 4) : pl.offerJoin.joinOwed = [] := by
  have hfold (l : List LineCmd) (q : Place) (hq : q.joinOwed = l) (hroom : (l.foldl offerReturned q).queueLen < 4) :
      (l.foldl offerReturned q).joinOwed = [] := by
    induction l generalizing q with
    | nil => exact hq
    | cons k l ih =>
      have hlen := (Fills.fold offerReturned_fills (k :: l) q).length
      refine ih _ ?_ hroom
      rw [offerReturned_room q k (by omega), enter, onEntered_joinOwed]
      simp [hq]
  exact hfold pl.joinOwed pl rfl h

theorem offerFlush_fills (pl : Place) : Fills pl pl.offerFlush := (offerFree_fills ..).ite

theorem offerFlush_done (h : pl.offerFlush.queueLen < 4) (hr : pl.reachable = true) : pl.offerFlush.flush ≠ some .owed := by
  by_cases ho : pl.flush = some .owed
  · have hoffer : pl.offerFlush = pl.offerFree (.cacheFlush false) := if_pos (by simp [hr, ho])
    rw [hoffer] at h ⊢
    rw [offerFree_entered (.refl _) h]
    exact nofun
  · exact fun hn => ho ((offerFlush_fills pl).flush hn)

/-- Offers made for the entries of a list that `due` picks leave no entry of that kind owed, where a place stays free. -/
theorem offers_done {due : DirEntry → Prop} [DecidablePred due] {cmd : DirEntry → LineCmd}
    (hsettles : ∀ (q : Place) (e d : DirEntry), due e → d ∈ (q.enter (cmd e)).directory → due d →
      d.slot = e.slot → d.index = e.index → False)
    (howes : ∀ d, due d → owes d) (l : List DirEntry) (q : Place)
    (hcover : ∀ d ∈ q.directory, due d → ∃ e ∈ l, due e ∧ d.slot = e.slot ∧ d.index = e.index)
    (hroom : (l.foldl (fun q d => if due d then q.offerFree (cmd d) else q) q).queueLen < 4) :
    ∀ d ∈ (l.foldl (fun q d => if due d then q.offerFree (cmd d) else q) q).directory, ¬due d := by
  have hfills (q : Place) (d : DirEntry) : Fills q (if due d then q.offerFree (cmd d) else q) := (offerFree_fills ..).ite
  induction l generalizing q with
  | nil =>
    intro d hd hdue
    obtain ⟨e, he, -⟩ := hcover d hd hdue
    contradiction
  | cons e l ih =>
    refine ih _ (fun d hd hdue => ?_) hroom
    obtain ⟨e', he', hdue', hslot, hindex⟩ := hcover d ((hfills q e).directory d hd (howes d hdue)) hdue
    rcases List.mem_cons.mp he' with rfl | he'
    · change d ∈ (if due e' then q.offerFree (cmd e') else q).directory at hd
      rw [if_pos hdue'] at hd
      have hrest := Fills.fold hfills l (if due e' then q.offerFree (cmd e') else q)
      rw [if_pos hdue'] at hrest
      rw [List.foldl_cons, if_pos hdue'] at hroom
      rw [offerFree_entered hrest hroom] at hd
      exact (hsettles q e' d hdue' hd hdue hslot hindex).elim
    · exact ⟨e', he', hdue', hslot, hindex⟩

theorem offerRemoves_fills (pl : Place) : Fills pl pl.offerRemoves := .fold (fun _ _ => (offerFree_fills ..).ite) _ pl

theorem offerRemoves_done (h : pl.offerRemoves.queueLen < 4) : ∀ d ∈ pl.offerRemoves.directory, d.state ≠ .removing .owed := by
  refine offers_done (due := fun d => d.state = .removing .owed) (cmd := fun d => .cacheRemove d.slot d.index) ?_
    (fun _ => .inr) pl.directory pl (fun d hd ho => ⟨d, hd, ho, rfl, rfl⟩) h
  intro q e d _ hd ho hslot hindex
  exact (removeStatus_owes hd (.inr ho)).2 hslot hindex ho

theorem offerAdds_fills (card : Nat → Nat) (pl : Place) : Fills pl (pl.offerAdds card) :=
  .fold (fun _ _ => (offerFree_fills ..).ite) _ pl

theorem offerAdds_done {card : Nat → Nat} (h : (pl.offerAdds card).queueLen < 4) :
    ∀ d ∈ (pl.offerAdds card).directory, d.state ≠ .adding .owed := by
  refine offers_done (due := fun d => d.state = .adding .owed) (cmd := fun d => .cacheAdd d.slot (card d.index) d.index) ?_
    (fun _ => .inl) pl.directory pl (fun d hd ho => ⟨d, hd, ho, rfl, rfl⟩) h
  intro q e d _ hd ho hslot hindex
  exact (addStatus_owes hd (.inl ho)).2 hslot hindex ho

/-- R104: a freed place is offered until the queue is full or nothing is owed. -/
theorem reoffer_fills (card : Nat → Nat) (h : pl.queueLen < 4) : (∀ x ∈ pl.queue, x ∈ (pl.reoffer card).queue) ∧
    ((pl.reoffer card).queueLen < 4 → (pl.reoffer card).joinOwed = [] ∧
      (pl.reachable = true → (pl.reoffer card).flush ≠ some .owed ∧
        (pl.reoffer card).mark ≠ .holdOwed ∧ (pl.reoffer card).mark ≠ .secureOwed) ∧
      ∀ d ∈ (pl.reoffer card).directory, d.state ≠ .adding .owed ∧ d.state ≠ .removing .owed) := by
  obtain ⟨hzone, hmarks⟩ := offerZone_fills h
  have hjoin := offerJoin_fills pl.offerZone
  have hflush := offerFlush_fills pl.offerZone.offerJoin
  have hremoves := offerRemoves_fills pl.offerZone.offerJoin.offerFlush
  have hadds := offerAdds_fills card pl.offerZone.offerJoin.offerFlush.offerRemoves
  have hlast := hremoves.trans hadds
  refine ⟨(((hzone.trans hjoin).trans hflush).trans hlast).queue, fun hroom => ⟨?_, fun hr => ⟨fun ho => ?_, ?_⟩, ?_⟩⟩
  · exact (hflush.trans hlast).joinOwed (offerJoin_done ((hflush.trans hlast).length.trans_lt hroom))
  · exact offerFlush_done (hlast.length.trans_lt hroom) ((hzone.trans hjoin).reachable.trans hr) (hlast.flush ho)
  · obtain ⟨hhold, hsecure⟩ := hmarks hr
    have hmark := ((hjoin.trans hflush).trans hlast).mark
    exact ⟨fun ho => hhold ((hmark (.inl ho)).trans ho), fun ho => hsecure ((hmark (.inr ho)).trans ho)⟩
  · intro d hd
    exact ⟨offerAdds_done hroom d hd, fun ho =>
      offerRemoves_done (hadds.length.trans_lt hroom) d (hadds.directory d hd (.inr ho)) ho⟩

end Place

end Sys2Proof.Machine
end

