-- ==== Sys2Proof/Proofs/Reloads.lean ====
section
/-! O32, the reload of a lock's cache (R102, R109 to R111): the plan, the request, the drop served next, one pass; and the
settlement of O32. -/

set_option Elab.async false

namespace Sys2Proof.Machine

/-! ## The plan (R102) -/

theorem inPlan_iff (s : State) (guest : Bool) (d : DoorRec) (c : Cred) : s.inPlan guest d c = true ↔ c.state = .active ∧
    ((guest = true ∧ c.kind = .guest ∧ ∃ r z u h g, d = .roomDoor r z u h ∧ c.guest = some g ∧ g.room = r ∧
        ∀ a, s.accepted r = some a → a ≤ g.generation) ∨
      (guest = false ∧ d.isLocked = true ∧
        (c.kind = .emergency ∨ (c.kind = .master ∧ ∃ z, d.zone? = some z ∧ c.zones.getLsbD z = true)))) := by
  have haccepted (r n : Nat) : (s.accepted r).getD 0 ≤ n ↔ ∀ a, s.accepted r = some a → a ≤ n := by
    cases s.accepted r <;> simp
  cases guest with
  | true =>
    simp only [State.inPlan, if_true, State.planGuest]
    cases d with
    | roomDoor r z u h =>
      cases hg : c.guest with
      | none => simp
      | some g =>
        simp only [Bool.and_eq_true, beq_iff_eq, decide_eq_true_eq, haccepted]
        constructor
        · rintro ⟨⟨⟨hactive, hkind⟩, hroom⟩, hgen⟩
          exact ⟨hactive, .inl ⟨trivial, hkind, r, z, u, h, g, rfl, rfl, hroom, hgen⟩⟩
        · rintro ⟨hactive, ⟨-, hkind, r, z, u, h, g, hd, hg, hroom, hgen⟩ | ⟨hfalse, -⟩⟩
          · cases hd
            cases hg
            exact ⟨⟨⟨hactive, hkind⟩, hroom⟩, hgen⟩
          · contradiction
    | unused | commonDoor | minibar => simp
  | false =>
    simp only [State.inPlan, State.planOther]
    cases hz : d.zone? with
    | none =>
      simp only [Bool.false_eq_true, if_false, Bool.and_eq_true, Bool.or_eq_true, beq_iff_eq, false_and, true_and, false_or,
        reduceCtorEq, and_false, exists_false, or_false]
      tauto
    | some z =>
      simp only [Bool.false_eq_true, if_false, Bool.and_eq_true, Bool.or_eq_true, beq_iff_eq, false_and, true_and, false_or,
        Option.some.injEq, exists_eq_left']
      tauto

namespace State

variable {s : State} {p : Nat}

/-! ## The request and the start of a reload (R109, R111) -/

theorem requestReload_frame (s : State) (p : Nat) : s.requestReload p = { s with segs := (s.requestReload p).segs } := by
  unfold requestReload startReload
  simp only
  split
  · rfl
  · split
    · split <;> rfl
    · rfl

theorem requestReload_served (hs : s.Canonical) (ht : (s.seg (segOf p)).terminal = false)
    (hv : (s.seg (segOf p)).served = dropOf p) :
    (s.requestReload p).seg (segOf p) = { s.seg (segOf p) with index := 0, pass := .guest, waits := false } := by
  have h : s.requestReload p = s.setSeg (segOf p) { s.seg (segOf p) with index := 0, pass := .guest, waits := false } :=
    if_pos ⟨ht, hv⟩
  rw [h, setSeg_seg_self hs]

/-- R111: a drop that leaves the line and whose reload does not run leaves the engine where it is. -/
theorem leaveCache_idle (h : (s.seg (segOf p)).terminal = true ∨ (s.seg (segOf p)).served ≠ dropOf p) : s.leaveCache p =
    (s.setPlace p { s.place p with directory := [], flush := none }).setSeg (segOf p)
      { s.seg (segOf p) with requests := (s.seg (segOf p)).requests.filter (fun a => a != dropOf p) } := by
  have hclear : s.leaveCache p = s.clearCache p := if_neg fun ⟨ht, hv⟩ => h.elim (fun h => by simp [h] at ht) (fun h => h hv)
  have hterm : ((s.seg (segOf p)).terminal || (s.seg (segOf p)).served == dropOf p) = (s.seg (segOf p)).terminal := by
    rcases h with h | h
    · rw [h, Bool.true_or]
    · rw [beq_false_of_ne h, Bool.or_false]
  rw [hclear]
  change (s.setPlace p _).setSeg (segOf p) (Segment.endReload (dropOf p) (s.seg (segOf p))) = _
  rw [Segment.endReload, hterm]

/-- R109: the next address above the one served, else the lowest. -/
theorem nextServed_least {x : Segment} {a : Nat} (hr : x.requests.Pairwise (· < ·)) (h : nextServed x = some a) :
    a ∈ x.requests ∧ ((x.served < a ∧ ∀ b ∈ x.requests, x.served < b → a ≤ b) ∨
      ((∀ b ∈ x.requests, b ≤ x.served) ∧ ∀ b ∈ x.requests, a ≤ b)) := by
  refine ⟨nextServed_mem h, ?_⟩
  unfold nextServed at h
  split at h
  · rename_i a' hfind
    cases h
    obtain ⟨habove, pre, post, hl, hpre⟩ := List.find?_eq_some_iff_append.mp hfind
    refine .inl ⟨of_decide_eq_true habove, fun b hb hlt => ?_⟩
    rw [hl] at hb hr
    rcases List.mem_append.mp hb with hb | hb
    · exact absurd (hpre b hb) (by simpa using hlt)
    · obtain ⟨-, hpost, -⟩ := List.pairwise_append.mp hr
      rcases List.mem_cons.mp hb with rfl | hb
      · exact le_rfl
      · exact ((List.pairwise_cons.mp hpost).1 b hb).le
  · rename_i hfind
    refine .inr ⟨fun b hb => by simpa using List.find?_eq_none.mp hfind b hb, fun b hb => ?_⟩
    obtain ⟨l, hl⟩ := List.head?_eq_some_iff.mp h
    rw [hl] at hb hr
    rcases List.mem_cons.mp hb with rfl | hb
    · exact le_rfl
    · exact ((List.pairwise_cons.mp hr).1 b hb).le

end State

namespace Place

variable {a b pl : Place}

/-! ## An addition at a drop (R106, R110) -/

/-- R106: a directory that names a slot and a credential. -/
def Names (pl : Place) (slot i : Nat) : Prop := ∃ d ∈ pl.directory, d.slot = slot ∧ d.index = i

theorem names_of_plainDir (h : b.plainDir = a.plainDir) {slot i : Nat} (hn : b.Names slot i) : a.Names slot i := by
  obtain ⟨d, hd, hslot, hindex⟩ := hn
  have hmem : d.plain ∈ a.plainDir := h ▸ List.mem_map_of_mem hd
  obtain ⟨e, he, hplain⟩ := List.mem_map.mp hmem
  exact ⟨e, he, (congrArg DirEntry.slot hplain :).trans hslot, (congrArg DirEntry.index hplain :).trans hindex⟩

theorem addEntry_names (pl : Place) (slot i card n j : Nat) :
    (addEntry slot i card pl).Names n j ↔ pl.Names n j ∨ (n = slot ∧ j = i) := by
  have hdir := (offer_offered (.cacheAdd slot card i)
    { pl with directory := insertDir ⟨slot, i, .adding .owed⟩ pl.directory }).dir
  have hinsert : ({ pl with directory := insertDir ⟨slot, i, .adding .owed⟩ pl.directory } : Place).Names n j ↔
      pl.Names n j ∨ (n = slot ∧ j = i) := by
    simp only [Names, mem_insertDir, or_and_right, exists_or, exists_eq_left]
    exact Or.comm.trans (or_congr_right ⟨fun h => ⟨h.1.symm, h.2.symm⟩, fun h => ⟨h.1.symm, h.2.symm⟩⟩)
  exact Iff.trans ⟨names_of_plainDir hdir, names_of_plainDir hdir.symm⟩ hinsert

theorem namesIndex_iff (pl : Place) (i : Nat) : pl.namesIndex i = true ↔ ∃ slot, pl.Names slot i := by
  simp only [namesIndex, List.any_eq_true, beq_iff_eq, Names]
  exact ⟨fun ⟨d, hd, hi⟩ => ⟨d.slot, d, hd, rfl, hi⟩, fun ⟨_, d, hd, _, hi⟩ => ⟨d, hd, hi⟩⟩

theorem freeSlot_mem {guest : Bool} {slot : Nat} (h : pl.freeSlot guest = some slot) : slot ∈ classSlots guest := by
  unfold freeSlot at h
  split at h
  · contradiction
  · exact List.mem_of_find?_eq_some h

theorem addEntry_door (pl : Place) (slot i card : Nat) : (addEntry slot i card pl).door = pl.door :=
  (congrArg Place.door (offer_offered (.cacheAdd slot card i)
    { pl with directory := insertDir ⟨slot, i, .adding .owed⟩ pl.directory }).core :)

end Place

namespace State

/-! ## One pass of a reload (R110) -/

/-- R110: what a pass over the credentials `cs` at the drop `p` leaves. -/
structure PassLeaves (p : Nat) (guest : Bool) (cs : List (Nat × Cred)) (s : State) (r : State × Walked) : Prop where
  others : ∀ d, d ≠ p → r.1.place d = s.place d
  door : (r.1.place p).door = (s.place p).door
  kept : ∀ slot i, (s.place p).Names slot i → (r.1.place p).Names slot i
  added : ∀ slot i, (r.1.place p).Names slot i → (s.place p).Names slot i ∨
    ∃ c, (i, c) ∈ cs ∧ s.inPlan guest (s.place p).door c = true ∧ slot ∈ classSlots guest
  done : r.2 = .done → ∀ e ∈ cs, s.inPlan guest (s.place p).door e.2 = true → (r.1.place p).namesIndex e.1 = true
  waiting : ∀ i, r.2 = .waiting i → 4 ≤ (r.1.place p).queueLen ∧ (r.1.place p).namesIndex i = false ∧
    ∃ c, (i, c) ∈ cs ∧ s.inPlan guest (s.place p).door c = true
  full : ∀ i, r.2 = .full i → (r.1.place p).freeSlot guest = none

/-- A pass that stops where it stands. -/
theorem PassLeaves.stop {p : Nat} {guest : Bool} {cs : List (Nat × Cred)} {s : State} {w : Walked}
    (hdone : w = .done → cs = [])
    (hwaiting : ∀ i, w = .waiting i → 4 ≤ (s.place p).queueLen ∧ (s.place p).namesIndex i = false ∧
      ∃ c, (i, c) ∈ cs ∧ s.inPlan guest (s.place p).door c = true)
    (hfull : ∀ i, w = .full i → (s.place p).freeSlot guest = none) : PassLeaves p guest cs s (s, w) where
  others _ _ := rfl
  door := rfl
  kept _ _ h := h
  added _ _ h := .inl h
  done h e he := by
    rw [hdone h] at he
    contradiction
  waiting := hwaiting
  full := hfull

/-- A pass that goes on behind a credential, from a state that differs by the credential's addition at most. -/
theorem PassLeaves.next {p : Nat} {guest : Bool} {e : Nat × Cred} {cs : List (Nat × Cred)} {s u : State}
    {r : State × Walked} (h : PassLeaves p guest cs u r) (hplan : ∀ d c, u.inPlan guest d c = s.inPlan guest d c)
    (hothers : ∀ d, d ≠ p → u.place d = s.place d) (hdoor : (u.place p).door = (s.place p).door)
    (hkept : ∀ slot i, (s.place p).Names slot i → (u.place p).Names slot i)
    (hadded : ∀ slot i, (u.place p).Names slot i → (s.place p).Names slot i ∨
      (i = e.1 ∧ s.inPlan guest (s.place p).door e.2 = true ∧ slot ∈ classSlots guest))
    (hnamed : s.inPlan guest (s.place p).door e.2 = true → (u.place p).namesIndex e.1 = true) :
    PassLeaves p guest (e :: cs) s r where
  others d hd := (h.others d hd).trans (hothers d hd)
  door := h.door.trans hdoor
  kept slot i hn := h.kept slot i (hkept slot i hn)
  added slot i hn := by
    rcases h.added slot i hn with hn | ⟨c, hc, hp, hslot⟩
    · exact (hadded slot i hn).imp id fun ⟨hi, hp, hslot⟩ => ⟨e.2, by rw [hi]; exact List.mem_cons_self, hp, hslot⟩
    · rw [hplan, hdoor] at hp
      exact .inr ⟨c, List.mem_cons_of_mem _ hc, hp, hslot⟩
  done hd := by
    refine List.forall_mem_cons.mpr ⟨fun hp => ?_, fun x hx hp => h.done hd x hx (by rw [hplan, hdoor]; exact hp)⟩
    obtain ⟨slot, hn⟩ := (Place.namesIndex_iff _ _).mp (hnamed hp)
    exact (Place.namesIndex_iff _ _).mpr ⟨slot, h.kept slot _ hn⟩
  waiting i hi := by
    obtain ⟨hfull, hnone, c, hc, hp⟩ := h.waiting i hi
    rw [hplan, hdoor] at hp
    exact ⟨hfull, hnone, c, List.mem_cons_of_mem _ hc, hp⟩
  full := h.full

theorem walkPass_leaves {s : State} (hs : s.Canonical) (p pos : Nat) (guest : Bool) (cs : List (Nat × Cred)) :
    PassLeaves p guest cs s (walkPass p guest pos cs s) := by
  induction cs generalizing pos s with
  | nil =>
    rw [walkPass]
    refine .stop (fun _ => rfl) (fun i hi => ?_) (fun i hi => ?_)
    · split at hi <;> contradiction
    · split at hi
      · exact Option.isNone_iff_eq_none.mp ‹_›
      · contradiction
  | cons e cs ih =>
    obtain ⟨i, c⟩ := e
    simp only [walkPass]
    split
    · rename_i hslot
      exact .stop nofun nofun (fun _ _ => hslot)
    · rename_i slot hslot
      split
      · rename_i hadd
        simp only [Bool.and_eq_true, Bool.not_eq_true'] at hadd
        obtain ⟨hplan, hnone⟩ := hadd
        split
        · have hplace (q : Nat) := place_modPlace s p q (Place.addEntry slot i c.card) hs.places.1
          have hself := (hplace p).trans (if_pos rfl)
          refine (ih (s := s.modPlace p (Place.addEntry slot i c.card)) (setPlace_canonical hs p _) (i + 1)).next
            (fun _ _ => rfl) (fun d hd => (hplace d).trans (if_neg hd)) ?_ (fun n j hn => ?_) (fun n j hn => ?_) (fun _ => ?_)
          · rw [hself, Place.addEntry_door]
          · rw [hself, Place.addEntry_names]
            exact .inl hn
          · rw [hself, Place.addEntry_names] at hn
            exact hn.imp id fun ⟨hn, hj⟩ => ⟨hj, hplan, by rw [hn]; exact Place.freeSlot_mem hslot⟩
          · rw [hself, Place.namesIndex_iff]
            exact ⟨slot, (Place.addEntry_names ..).mpr (.inr ⟨rfl, rfl⟩)⟩
        · rename_i hroom
          refine .stop nofun (fun j hj => ?_) nofun
          cases hj
          exact ⟨by simpa [Place.hasRoom] using hroom, hnone, c, List.mem_cons_self, hplan⟩
      · rename_i hskip
        refine (ih hs (i + 1)).next (fun _ _ => rfl) (fun _ _ => rfl) rfl (fun _ _ h => h) (fun _ _ h => .inl h) fun hplan => ?_
        simpa [hplan] using hskip

end State

open State Place in
/-- Settles O32: the queue's rules, the sources of its commands, the freed place and the reload. -/
theorem offersAndEvictions : Obligations.OffersAndEvictions := by
  refine ⟨fun c => by cases c <;> rfl, fun pl c => ⟨fun h => ?_, fun h hc => ?_, fun h hc => ?_⟩, fun pl c => ?_, inPlan_iff,
    fun pl c => ⟨fun h => ?_, offer_ranked c⟩, fun pl dg => ⟨fun h => ?_, fun e hu hd => ?_, fun hu hd h => choose_none hu hd h,
      fun e pre post hu hd hw hpre he => ?_⟩, fun pl card => reoffer_fills card,
    fun s p hs => ⟨requestReload_asked hs p, requestReload_served hs, requestReload_frame s p⟩,
    fun s p => leaveCache_idle, fun x a => nextServed_least, fun s p pos guest cs hs => ?_⟩
  · rw [offer_room h]
    refine ⟨enter_delivery c pl, fun x hx => ?_, enter_queueLen c pl, enter_waits c pl⟩
    rw [enter_waiting]
    exact mem_insertEntry.mpr (.inr hx)
  · rw [offer_kept h hc, onReturned_queue]
  · obtain ⟨v, hv, hlt, hoffer⟩ := offer_evicts h hc
    have hmem := victim_mem hv
    have hlen := evict_queueLen hmem
    rw [hoffer]
    refine ⟨v, hmem, cls_le_victim hv, stamp_le_victim hv, fun x hx hne => mem_enter_queue (mem_evict_queue hx hne) c, ?_,
      enter_waits c _⟩
    rw [enter_queueLen]
    omega
  · intro noted taken
    have hnoted (k : LineCmd) (st : CmdStatus) (q : Place) : noted k st q = onReturned k st q := by
      cases k with
      | cacheAdd slot card i => exact (addStatus_eq ..).symm
      | cacheRemove slot i => exact (removeStatus_eq ..).symm
      | cacheFlush j => cases j <;> rfl
      | verdict | remoteUnlock | holdOpen | secure | identify | backlogNext => rfl
    have htaken (q : Place) : taken q = onEntered c q := by
      cases c with
      | cacheAdd slot card i => exact (addStatus_eq ..).symm
      | cacheRemove slot i => exact (removeStatus_eq ..).symm
      | cacheFlush j => cases j <;> rfl
      | verdict | remoteUnlock | holdOpen | secure | identify | backlogNext => rfl
    simp only [hnoted, htaken]
    refine ⟨fun h => ⟨_, offer_room h⟩, offer_kept, fun h hc => ?_, fun v => ⟨fun hd => ?_, fun hd => if_neg hd⟩⟩
    · obtain ⟨v, hv, hlt, hoffer⟩ := offer_evicts h hc
      exact ⟨v, victim_mem hv, _, hlt, hoffer⟩
    · rw [evict, if_pos hd, depart_of hd]
  · rw [offer_room h, enter_waiting]
    obtain ⟨hi, lo, hw, hins, hhi, hlo⟩ := insertEntry_split ⟨c, pl.nextStamp⟩ pl.waiting
    exact ⟨hi, lo, pl.nextStamp, hw, hins, hhi, hlo, fun x => stamp_lt_nextStamp⟩
  · simp only [choose, h, if_true]
  · simp only [choose, hu, hd, Bool.false_eq_true, if_false]
  · obtain ⟨hdelivery, hwaiting⟩ := carry_eq e pl
    rw [choose_first hu hd hw hpre (fun ⟨hdg, a, b, i, hc⟩ => he hdg a b i hc)]
    exact ⟨rfl, hdelivery, hwaiting⟩
  · have h := walkPass_leaves hs p pos guest cs
    refine ⟨(walkPass_ch p guest cs pos s).places_frame, h.others, h.door, fun d hd => h.kept _ _ ⟨d, hd, rfl, rfl⟩,
      fun d hd => h.added _ _ ⟨d, hd, rfl, rfl⟩, h.done, h.waiting, h.full⟩

end Sys2Proof.Machine
end

