-- ==== Sys2Proof/Proofs/CacheRange.lean ====
section
/-! What a command does to the push engines' addresses (R108, R109), from one write of a segment up to the Cache Manager, the
revocations and the Decision Engine: no operation takes them out of their range. -/

set_option Elab.async false

namespace Sys2Proof.Machine

/-! ## One segment -/

/-- R108, R109: the drop served, while the engine is not terminal, and the request set are addresses 1..32, the set
ascending. -/
def Segment.Ranged (x : Segment) : Prop :=
  (x.terminal = false → 1 ≤ x.served) ∧ x.served ≤ 32 ∧ (∀ a ∈ x.requests, 1 ≤ a ∧ a ≤ 32) ∧ x.requests.Pairwise (· < ·)

namespace Segment.Ranged

variable {x : Segment}

theorem reset : Segment.reset.Ranged := by
  unfold Segment.Ranged
  decide

/-- R110: a reload that ends leaves its drop and the requests. -/
theorem stop (h : x.Ranged) : ({ x with terminal := true } : Segment).Ranged :=
  have ⟨_, hrest⟩ := h
  ⟨nofun, hrest⟩

/-- R111: a request set from which addresses are taken. -/
theorem filter (h : x.Ranged) (f : Nat → Bool) : ({ x with requests := x.requests.filter f } : Segment).Ranged := by
  obtain ⟨hserved, hmax, hrequests, hrising⟩ := h
  exact ⟨hserved, hmax, fun a ha => hrequests a (List.mem_filter.mp ha).1, hrising.filter f⟩

/-- R109: a reload started serves an address of the request set. -/
theorem serve (h : x.Ranged) {a : Nat} (ha : a ∈ x.requests) : ({ x with served := a, terminal := false } : Segment).Ranged :=
  have ⟨_, _, hrequests, hrising⟩ := h
  have ⟨hlow, hhigh⟩ := hrequests a ha
  ⟨fun _ => hlow, hhigh, hrequests, hrising⟩

/-- R109: an address joins the request set. -/
theorem insert (h : x.Ranged) {a : Nat} (hlow : 1 ≤ a) (hhigh : a ≤ 32) :
    ({ x with requests := insertNat a x.requests } : Segment).Ranged := by
  obtain ⟨hserved, hmax, hrequests, hrising⟩ := h
  refine ⟨hserved, hmax, fun b hb => ?_, insertNat_rising a hrising⟩
  rcases mem_insertNat.mp hb with rfl | hb
  · exact ⟨hlow, hhigh⟩
  · exact hrequests b hb

theorem endReload (h : x.Ranged) (a : Nat) : (Segment.endReload a x).Ranged := by
  obtain ⟨hserved, hrest⟩ := h.filter (fun r => r != a)
  exact ⟨fun ht => hserved (Bool.or_eq_false_iff.mp ht).1, hrest⟩

theorem restart (x : Segment) : (Segment.restart x).Ranged := ⟨nofun, Nat.zero_le _, nofun, .nil⟩

end Segment.Ranged

theorem dropOf_range (p : Nat) : 1 ≤ dropOf p ∧ dropOf p ≤ 32 := by
  unfold dropOf
  omega

namespace State

variable {s t u : State}

theorem ReloadsInRange.seg (h : s.ReloadsInRange) (g : Nat) : (s.seg g).Ranged := by
  unfold State.seg Tab.read
  cases hg : Tab.look s.segs g with
  | none => exact .reset
  | some x => exact h _ (Tab.look_mem hg)

/-! ## A part of a command -/

/-- From `s` to `t` the push engines' addresses stay in range. -/
structure KeepsReloads (s t : State) : Prop where
  keep : s.ReloadsInRange → t.ReloadsInRange

namespace KeepsReloads

theorem refl (s : State) : KeepsReloads s s := ⟨id⟩

theorem trans (h1 : KeepsReloads s t) (h2 : KeepsReloads t u) : KeepsReloads s u :=
  ⟨fun h => h2.keep (h1.keep h)⟩

theorem of_segs (h : t.segs = s.segs) : KeepsReloads s t := by
  refine ⟨fun hs => ?_⟩
  unfold State.ReloadsInRange
  rw [h]
  exact hs

/-- A chain of changes that touches no segment. -/
theorem of_changes {K : List Part} (h : Changes K s t) (hK : Part.segs ∉ K := by decide) : KeepsReloads s t :=
  of_segs (h.segs_eq hK)

/-- A chain of changes that touches no segment comes behind. -/
theorem then_changes {K : List Part} (h1 : KeepsReloads s t) (h2 : Changes K t u) (hK : Part.segs ∉ K := by decide) :
    KeepsReloads s u := h1.trans (of_changes h2 hK)

theorem ite {p : Prop} [Decidable p] (h1 : p → KeepsReloads s t) (h2 : ¬p → KeepsReloads s u) :
    KeepsReloads s (if p then t else u) := by
  split
  · exact h1 ‹_›
  · exact h2 ‹_›

theorem fold {α : Type} {f : State → α → State} (h : ∀ s x, KeepsReloads s (f s x)) (l : List α) (s : State) :
    KeepsReloads s (l.foldl f s) := by
  induction l generalizing s with
  | nil => exact refl s
  | cons x l ih => exact (h s x).trans (ih (f s x))

theorem of_setSeg {g : Nat} {x : Segment} (hx : (s.seg g).Ranged → x.Ranged) : KeepsReloads s (s.setSeg g x) := by
  refine ⟨fun h e he => ?_⟩
  rw [setSeg_segs, Tab.put] at he
  split at he
  · exact h e (Tab.mem_clear he)
  · rcases Tab.mem_write he with rfl | he
    · exact hx (h.seg g)
    · exact h e he

theorem of_modSeg {g : Nat} {f : Segment → Segment} (hf : ∀ x, x.Ranged → (f x).Ranged := by exact fun _ h => h) :
    KeepsReloads s (s.modSeg g f) :=
  of_setSeg (hf _)

end KeepsReloads

open KeepsReloads

/-! ## The push engine (R108 to R111) -/

/-- A walk's pass touches no segment. -/
theorem walkFrom_reloads {g : Nat} {guest : Bool} {w : Walked} (h : s.walkFrom g guest = (t, w)) : KeepsReloads s t := by
  have hch := walkFrom_ch g guest s
  rw [h] at hch
  exact of_changes hch

theorem walkOther_reloads (g : Nat) (s : State) : KeepsReloads s (s.walkOther g) := by
  unfold walkOther
  split
  · exact (walkFrom_reloads ‹_›).trans of_modSeg
  · exact (walkFrom_reloads ‹_›).trans (of_modSeg fun _ h => h.stop)
  · exact (walkFrom_reloads ‹_›).trans (of_modSeg fun _ h => h.stop)

theorem enterOther_reloads (g : Nat) (s : State) : KeepsReloads s (s.enterOther g) :=
  .trans of_modSeg (walkOther_reloads g _)

theorem walk_reloads (g : Nat) (s : State) : KeepsReloads s (s.walk g) := by
  unfold walk
  split
  · exact walkOther_reloads g s
  · split
    · exact (walkFrom_reloads ‹_›).trans of_modSeg
    · exact (walkFrom_reloads ‹_›).trans (enterOther_reloads g _)
    · exact (walkFrom_reloads ‹_›).trans (enterOther_reloads g _)

theorem startReload_reloads (g : Nat) (s : State) : KeepsReloads s (s.startReload g) := by
  unfold startReload
  simp only
  split
  · split
    · exact of_setSeg fun h => (h.serve (nextServed_mem ‹_›)).filter _
    · exact .refl s
  · exact .refl s

theorem pump_reloads (g n : Nat) (s : State) : KeepsReloads s (pump g n s) := by
  induction n generalizing s with
  | zero => exact .refl s
  | succ n ih =>
    simp only [pump]
    split
    · exact .refl s
    · split
      · split
        · exact ((startReload_reloads g s).trans (walk_reloads g _)).trans (ih _)
        · exact .refl s
      · split
        · exact .refl s
        · split
          · exact (walk_reloads g s).trans (ih _)
          · exact walk_reloads g s

theorem runEngine_reloads (g : Nat) (s : State) : KeepsReloads s (s.runEngine g) := pump_reloads ..

theorem requestReload_reloads (p : Nat) (s : State) : KeepsReloads s (s.requestReload p) := by
  have ⟨hlow, hhigh⟩ := dropOf_range p
  unfold requestReload
  exact .ite (fun _ => of_setSeg fun h => h)
    (fun _ => (of_setSeg fun h => h.insert hlow hhigh).trans (startReload_reloads _ _))

theorem reoffer_reloads (p : Nat) (s : State) : KeepsReloads s (s.reoffer p) := by
  have h : KeepsReloads s (s.modPlace p (Place.reoffer s.cardOf)) := of_changes (modPlace_ch s p (Place.reoffer_ok _))
  unfold reoffer
  exact .ite (fun _ => h.trans (runEngine_reloads _ _)) (fun _ => h)

theorem withdraw_reloads (p : Nat) (c : LineCmd → Bool) (s : State) : KeepsReloads s (s.withdraw p c) := by
  unfold withdraw
  exact .ite (fun _ => (of_changes (modPlace_ch s p (Place.withdraw_ok c))).trans (reoffer_reloads p _)) (fun _ => .refl s)

theorem clearCache_reloads (p : Nat) (s : State) : KeepsReloads s (s.clearCache p) :=
  (of_changes (modPlace_same s p (f := fun pl => { pl with directory := [], flush := none }) (fun _ => rfl))).trans
    (of_modSeg fun _ h => h.endReload _)

theorem leaveCache_reloads (p : Nat) (s : State) : KeepsReloads s (s.leaveCache p) :=
  .ite (fun _ => (clearCache_reloads p s).trans (runEngine_reloads _ _)) (fun _ => clearCache_reloads p s)

/-! ## Revocations (R113 to R121) -/

theorem revokeAt_reloads (i : Nat) (s : State) (p : Nat) : KeepsReloads s (revokeAt i s p) := by
  unfold revokeAt
  split
  · exact .refl s
  · simp only
    split
    · exact (of_changes (dropDir_ch s p _)).trans (withdraw_reloads _ _ _)
    · exact of_changes (dropDir_ch s p _)
    · exact of_changes (modPlace_ch s p (Place.startRemove_ok _ _))
    · exact of_changes (modPlace_ch s p (Place.startRemove_ok _ _))
    · exact of_changes (modPlace_ch s p (Place.startRemove_ok _ _))
    · exact .refl s

/-- R117, R121: an entry deleted with its removal, and the drop marked. -/
theorem clearEntry_reloads (f : DirEntry → Bool) (c : LineCmd → Bool) (p : Nat) (s : State) :
    KeepsReloads s (((s.modPlace p (Place.dropDir f)).withdraw p c).markSuspect p) :=
  ((of_changes (dropDir_ch s p f)).trans (withdraw_reloads p c _)).then_changes (markSuspect_ch ..)

theorem overflowAt_reloads (i : Nat) (s : State) (p : Nat) : KeepsReloads s (overflowAt i s p) := by
  unfold overflowAt
  split
  · exact .refl s
  · exact clearEntry_reloads ..

theorem partialAt_reloads (i : Nat) (s : State) (p : Nat) : KeepsReloads s (partialAt i s p) := by
  unfold partialAt
  split
  · exact of_changes (markSuspect_ch ..)
  · exact clearEntry_reloads ..

/-- A record written in the Revocation List touches no segment. -/
theorem revocations_reloads (s : State) (x : Tab Revocation) : KeepsReloads s { s with revocations := x } := .of_segs rfl

theorem recordRevocation_reloads (i : Nat) (c : Cred) (cause : Cause) (s : State) :
    KeepsReloads s (s.recordRevocation i c cause) := by
  unfold recordRevocation
  simp only
  split
  · exact (of_changes (logCard_ch ..)).then_changes (logCard_ch ..)
  · split
    · exact (revocations_reloads s _).then_changes (logCard_ch ..)
    · exact ((KeepsReloads.fold (overflowAt_reloads i) _ s).then_changes (logCard_ch ..)).then_changes (faultWith_ch ..)

theorem swept_reloads (i : Nat) (c : Cred) (cause : Cause) (s : State) : KeepsReloads s (s.swept i c cause) :=
  ((of_changes (setCred_ch ..)).then_changes (replaceGrants_ch ..)).trans (.fold (revokeAt_reloads i) _ _)

theorem revoke_reloads (i : Nat) (cause : Cause) (s : State) : KeepsReloads s (s.revoke i cause) := by
  by_cases hn : s.NotActive i
  · rw [revoke_of_not hn]
    exact .refl s
  · simp only [NotActive, not_forall, not_not] at hn
    obtain ⟨c, hc, hactive⟩ := hn
    rw [revoke_eq hc hactive]
    exact (swept_reloads i c cause s).trans (recordRevocation_reloads ..)

theorem revokeAll_reloads (is : List Nat) (cause : Cause) (s : State) : KeepsReloads s (s.revokeAll is cause) :=
  .fold (fun s i => revoke_reloads i cause s) is s

theorem completeIfEmpty_reloads (k : Nat) (s : State) : KeepsReloads s (s.completeIfEmpty k) := by
  unfold completeIfEmpty
  split
  · exact .refl s
  · exact .ite (fun _ => (of_changes (logCard_ch ..)).trans (revocations_reloads _ _)) (fun _ => .refl s)

theorem confirmAt_reloads (p : Nat) (s : State) (k : Nat) : KeepsReloads s (confirmAt p s k) := by
  unfold confirmAt
  split
  · exact .refl s
  · exact .ite (fun _ => (revocations_reloads s _).trans (completeIfEmpty_reloads k _)) (fun _ => .refl s)

theorem removeConfirmed_reloads (p slot i : Nat) (s : State) : KeepsReloads s (s.removeConfirmed p slot i) := by
  unfold removeConfirmed
  simp only
  split
  · exact of_changes (dropDir_ch s p _)
  · exact (of_changes (dropDir_ch s p _)).trans (confirmAt_reloads p _ _)

theorem flushConfirmed_reloads (p : Nat) (s : State) : KeepsReloads s (s.flushConfirmed p) := by
  rw [flushConfirmed_eq]
  exact ((of_changes (flushedQueue_ch p s)).trans (KeepsReloads.fold (confirmAt_reloads p) _ _)).then_changes
    (modPlace_same _ p (fun _ => rfl))

theorem deadlineAt_reloads (s : State) (k : Nat) : KeepsReloads s (deadlineAt s k) := by
  unfold deadlineAt
  split
  · exact .refl s
  · rename_i r _
    refine .ite (fun _ => ?_) (fun _ => .refl s)
    unfold endPartial
    exact (((KeepsReloads.fold (partialAt_reloads r.index) r.drops s).then_changes (logCard_ch ..)).then_changes
      (faultWith_ch ..)).then_changes (freeRecord_ch ..)

theorem deadlineTest_reloads (s : State) : KeepsReloads s s.deadlineTest := .fold deadlineAt_reloads _ s

theorem applyExpiry_reloads (s : State) : KeepsReloads s s.applyExpiry := revokeAll_reloads ..

theorem expireAt_reloads (i : Nat) (s : State) : KeepsReloads s (s.expireAt i) := by
  unfold expireAt
  split
  · exact .refl s
  · exact .ite (fun _ => revoke_reloads ..) (fun _ => .refl s)

/-! ## Presentations and verdicts (R44 to R53) -/

theorem abandon_reloads (p : Nat) (s : State) : KeepsReloads s (s.abandon p) := by
  unfold abandon
  split
  · exact .refl s
  · exact (KeepsReloads.ite (fun _ => .refl s) (fun _ => withdraw_reloads _ _ s)).then_changes (endPresentation_ch ..)

theorem withdrawSent_reloads (p tag : Nat) (s : State) : KeepsReloads s (s.withdrawSent p tag) := by
  unfold withdrawSent
  split
  · exact .refl s
  · exact .ite (fun _ => (of_changes (modPlace_ch s p Place.depart_ok)).trans (reoffer_reloads p _)) (fun _ => .refl s)

theorem applyEnds_reloads (e : Evaluation) (s : State) : KeepsReloads s (s.applyEnds e) := by
  unfold applyEnds
  split
  · exact revoke_reloads ..
  · exact .refl s

theorem present_reloads (p card tag : Nat) (s : State) : KeepsReloads s (s.present p card tag) :=
  (((abandon_reloads p s).trans (withdrawSent_reloads p tag _)).trans (applyEnds_reloads _ _)).then_changes (deliver_ch ..)

theorem raise_reloads (p : Nat) (f : Option Found) (s : State) : KeepsReloads s (s.raise p f) := by
  unfold raise
  split
  · split
    · exact .refl s
    · exact .ite (fun _ => (of_changes (setRoom_ch ..)).trans (revokeAll_reloads ..)) (fun _ => .refl s)
  · exact .refl s

theorem grantDone_reloads (p n : Nat) (pr : Presentation) (s : State) : KeepsReloads s (s.grantDone p n pr) := by
  unfold grantDone
  simp only
  refine .ite (fun _ => ?_) (fun _ => .ite (fun _ => ?_) (fun _ => .refl s))
  · exact of_changes (modPlace_same s p (fun pl => by rw [openWindow_same, unlock_same]))
  · exact (of_changes (modPlace_same s p (unlock_same n))).trans (raise_reloads p _ _)

theorem verdictDone_reloads (p tag : Nat) (out : VerdictOut) (s : State) : KeepsReloads s (s.verdictDone p tag out) := by
  unfold verdictDone
  split
  · exact .refl s
  · refine .ite (fun _ => ?_) (fun _ => .refl s)
    simp only
    split
    · exact (of_changes (endPresentation_ch ..)).trans (grantDone_reloads ..)
    · exact of_changes (endPresentation_ch ..)

theorem verdictSilent_reloads (p : Nat) (s : State) : KeepsReloads s (s.verdictSilent p) := by
  unfold verdictSilent
  split
  · exact .refl s
  · exact .ite (fun _ => .refl s) (fun _ => (withdraw_reloads _ _ s).then_changes (endPresentation_ch ..))

end State

end Sys2Proof.Machine
end

