-- ==== Sys2Proof/Proofs/LineRange.lean ====
section
/-! What the Segment Controllers' operations do to the push engines' addresses (R108, R109): presence, joins, line states,
tests, polls and responses. -/

set_option Elab.async false

namespace Sys2Proof.Machine

namespace State

open KeepsReloads

/-! ## ABSENT (R78, R89) -/

theorem enterAbsent_reloads (p : Nat) (s : State) : KeepsReloads s (s.enterAbsent p) := by
  unfold enterAbsent
  simp only
  have h1 : KeepsReloads s (s.modPlace p (fun pl => { pl with presence := .absent, delivery := none, waiting := [] })) :=
    of_changes (modPlace_ch s p (fun _ _ => by simp [Place.queueLen_eq]))
  have h2 := (h1.then_changes (.fold (fun s e => loseCmd_ch p s e) (s.place p).queue _)).then_changes
    (endPresentation_ch p false true _)
  generalize State.endPresentation p false true _ = t at h2 ⊢
  have h3 := h2.then_changes (modPlace_same t p (f := fun pl => pl.resetDoor (t.zoneOfDoor pl.door == .released))
    (fun _ => rfl))
  have h4 := h3.trans (leaveCache_reloads p _)
  generalize State.leaveCache p _ = u at h4 ⊢
  have h5 : KeepsReloads s (if (s.place p).door.isMinibar then u.endLid p else u) :=
    .ite (fun _ => h4.then_changes (endLid_ch ..)) (fun _ => h4)
  exact ((h5.then_changes (modPlace_same _ p (f := absentFields) (fun _ => rfl))).then_changes
    (presenceRecord_ch ..)).then_changes (faultAt_ch ..)

theorem allAbsent_reloads (g : Nat) (s : State) : KeepsReloads s (s.allAbsent g) :=
  .fold (fun s p => enterAbsent_reloads p s) _ s

/-! ## Line states and tests (R90 to R97) -/

theorem changeLine_reloads (g : Nat) (x : LineState) (bs : List Byte) (s : State) :
    KeepsReloads s (s.changeLine g x bs) := by
  rw [changeLine_eq]
  exact ((of_setSeg (x := lineMoved x (s.seg g)) fun h => h).then_changes (log_ch ..)).then_changes (lineFault_ch ..)

theorem enterTesting_reloads (g : Nat) (s : State) : KeepsReloads s (s.enterTesting g) := by
  have hline : KeepsReloads s (if (s.seg g).line = .testing then s else s.changeLine g .testing []) :=
    .ite (fun _ => .refl s) (fun _ => changeLine_reloads ..)
  exact (hline.trans (allAbsent_reloads g _)).trans of_modSeg

theorem enterDown_reloads (g : Nat) (s : State) : KeepsReloads s (s.enterDown g) :=
  (changeLine_reloads g .down [] s).trans (enterTesting_reloads g _)

theorem enterStopped_reloads (g : Nat) (x : LineState) (bs : List Byte) (s : State) :
    KeepsReloads s (s.enterStopped g x bs) :=
  ((changeLine_reloads g x bs s).trans (allAbsent_reloads g _)).trans of_modSeg

theorem enterOut_reloads (g : Nat) (s : State) : KeepsReloads s (s.enterOut g) :=
  ((changeLine_reloads g .outOfService [] s).trans (allAbsent_reloads g _)).trans of_modSeg

theorem enterFromTest_reloads (g : Nat) (x : LineState) (bs : List Byte) (s : State) :
    KeepsReloads s (s.enterFromTest g x bs) := (changeLine_reloads g x bs s).trans of_modSeg

theorem recover_reloads (g : Nat) (s : State) : KeepsReloads s (s.recover g) :=
  ((changeLine_reloads g .inService [] s).then_changes (proceedWaiting_ch g _)).trans (runEngine_reloads g _)

/-- R95: the window's counts are no fields of the engine. -/
theorem closeWindow_reloads (g : Nat) (s : State) : KeepsReloads s (s.closeWindow g) := by
  refine ⟨fun hs => ?_⟩
  have hset (bad clean : Nat) {u : State} (hu : u.ReloadsInRange) :
      (u.setSeg g { s.seg g with badCount := bad, cleanWindows := clean }).ReloadsInRange := by
    have hcounts : Segment.Ranged { s.seg g with badCount := bad, cleanWindows := clean } := hs.seg g
    exact (of_setSeg fun _ => hcounts).keep hu
  have hcleared : (s.setSeg g { s.seg g with badCount := 0 }).ReloadsInRange := hset 0 (s.seg g).cleanWindows hs
  unfold closeWindow
  simp only
  split
  · split
    · split
      · exact (changeLine_reloads g .degraded [] _).keep hcleared
      · exact hset 0 0 hcleared
    · split
      · split
        · exact (recover_reloads g _).keep (hset 0 _ hcleared)
        · exact hset 0 _ hcleared
      · exact hcleared
  · exact hs

theorem retestTimeout_reloads (g : Nat) (s : State) : KeepsReloads s (s.retestTimeout g) := by
  unfold retestTimeout
  exact .ite (fun _ => enterTesting_reloads ..) (fun _ => .refl s)

theorem terminatorDown_reloads (g : Nat) (s : State) : KeepsReloads s (s.terminatorDown g) := by
  unfold terminatorDown
  exact .ite (fun _ => enterDown_reloads ..) (fun _ => .refl s)

theorem missSilent_reloads (p : Nat) (s : State) : KeepsReloads s (s.missSilent p) := by
  unfold missSilent
  exact .ite (fun _ => (of_changes (setPlace_same s p (by rfl))).trans (verdictSilent_reloads p _)) (fun _ => .refl s)

theorem missAbsent_reloads (p : Nat) (s : State) : KeepsReloads s (s.missAbsent p) := by
  unfold missAbsent
  exact .ite (fun _ => enterAbsent_reloads ..) (fun _ => .refl s)

theorem answerTest_reloads (g : Nat) (st : ReplyStatus) (bs : List Byte) (s : State) :
    KeepsReloads s (s.answerTest g st bs) := by
  unfold answerTest
  split
  · exact .refl s
  · exact .then_changes of_modSeg (buildCompletion_ch ..)

theorem enterResult_reloads (g : Nat) (x : LineState) (bs : List Byte) (s : State) :
    KeepsReloads s (s.enterResult g x bs) := by
  cases x with
  | testPlug | failed => exact enterStopped_reloads ..
  | inService | degraded => exact enterFromTest_reloads ..
  | outOfService | testing | down => exact .refl s

theorem testStep_reloads (g : Nat) (ok : Bool) (w : Wiring) (s : State) : KeepsReloads s (s.testStep g ok w) := by
  unfold testStep
  split
  · exact .refl s
  · split
    · exact of_modSeg
    · exact (enterResult_reloads ..).trans (answerTest_reloads ..)

/-! ## Polls (R66, R67, R79 to R82) -/

theorem pollDrop_reloads (g a : Nat) (k : PollKind) (s : State) : KeepsReloads s (s.pollDrop g a k) := by
  unfold pollDrop
  exact (of_changes (setPlace_ch s _ _ (Place.choose_ok _ _))).trans of_modSeg

theorem pollTerminator_reloads (g : Nat) (k : PollKind) (s : State) : KeepsReloads s (s.pollTerminator g k) :=
  of_modSeg

theorem openRound_reloads (g : Nat) (s : State) : KeepsReloads s (s.openRound g) :=
  .trans of_modSeg (pollTerminator_reloads g _ _)

theorem normalPoll_reloads (g : Nat) (s : State) : KeepsReloads s (s.normalPoll g) := by
  unfold normalPoll
  refine .ite (fun _ => .ite (fun _ => ?_) (fun _ => openRound_reloads g s)) (fun _ => .refl s)
  split
  · exact .trans of_modSeg (pollDrop_reloads ..)
  · exact .ite (fun _ => .refl s) (fun _ => openRound_reloads g s)

theorem probePoll_reloads (g : Nat) (s : State) : KeepsReloads s (s.probePoll g) := by
  unfold probePoll
  refine .ite (fun _ => ?_) (fun _ => .refl s)
  split
  · exact .trans of_modSeg (pollDrop_reloads ..)
  · exact .refl s

theorem priorityPoll_reloads (g : Nat) (s : State) : KeepsReloads s (s.priorityPoll g) := by
  unfold priorityPoll
  refine .ite (fun _ => ?_) (fun _ => .refl s)
  split
  · exact .trans of_modSeg (pollDrop_reloads ..)
  · exact .refl s

theorem testExchange_reloads (g : Nat) (s : State) : KeepsReloads s (s.testExchange g) := by
  unfold testExchange
  exact .ite (fun _ => pollTerminator_reloads ..) (fun _ => .refl s)

/-! ## Missed polls (R84, R94, R95) -/

theorem countBad_reloads (g : Nat) (s : State) : KeepsReloads s (s.countBad g) := by
  unfold countBad
  exact .ite (fun _ => of_modSeg) (fun _ => .refl s)

theorem missTerminator_reloads (g : Nat) (s : State) : KeepsReloads s (s.missTerminator g) := by
  have hcount : KeepsReloads s (s.modSeg g (fun x => { x with termMisses := min 3 ((s.seg g).termMisses + 1) })) :=
    of_modSeg
  unfold missTerminator
  exact .ite (fun _ => hcount.then_changes (addDue_ch ..)) (fun _ => hcount)

theorem missedExchange_reloads (g : Nat) (e : Exchange) (s : State) : KeepsReloads s (s.missedExchange g e) := by
  unfold missedExchange
  exact .ite (fun _ => testStep_reloads ..)
    (fun _ => .ite (fun _ => missTerminator_reloads ..) (fun _ => of_changes (missDrop_ch ..)))

/-! ## Confirmations (R71 to R73, R105) -/

theorem suspectFlushDone_reloads (p : Nat) (s : State) : KeepsReloads s (s.suspectFlushDone p) :=
  .ite (fun _ => (flushConfirmed_reloads p s).trans (requestReload_reloads p _)) (fun _ => flushConfirmed_reloads p s)

theorem joinFlushDone_reloads (p : Nat) (s : State) : KeepsReloads s (s.joinFlushDone p) := by
  have hflush := flushConfirmed_reloads p s
  unfold joinFlushDone
  refine .ite (fun _ => ?_) (fun _ => .ite (fun _ => hflush.trans (requestReload_reloads p _)) (fun _ => hflush))
  exact ((hflush.then_changes (enterPresent_ch ..)).then_changes (presenceRecord_ch ..)).trans (requestReload_reloads p _)

theorem handAnswer_reloads (p : Nat) (c : LineCmd) (ev : LineEvent) (s : State) : KeepsReloads s (s.handAnswer p c ev) := by
  cases c with
  | verdict tag out => exact .ite (fun _ => of_changes (verdictStale_ch ..)) (fun _ => verdictDone_reloads ..)
  | remoteUnlock n =>
    have hunlock : KeepsReloads s (if (s.place p).door.isUnused then s else s.modPlace p (Place.unlock n)) :=
      .ite (fun _ => .refl s) (fun _ => of_changes (modPlace_same s p (unlock_same _)))
    exact hunlock.then_changes (remoteOpened_ch ..)
  | holdOpen => exact .ite (fun _ => of_changes (modPlace_same s p holdOpenDone_same)) (fun _ => .refl s)
  | secure => exact .ite (fun _ => of_changes (modPlace_same s p secureDone_same)) (fun _ => .refl s)
  | cacheAdd => exact of_changes (addConfirmed_ch ..)
  | cacheRemove => exact removeConfirmed_reloads ..
  | cacheFlush join =>
    cases join with
    | true => exact joinFlushDone_reloads ..
    | false => exact suspectFlushDone_reloads ..
  | identify =>
    cases ev with
    | identity k n => exact of_changes (identified_ch p k n s)
    | _ => exact .refl s
  | backlogNext => exact of_changes (takeBacklog_ch ..)

theorem confirm_reloads (p : Nat) (c : LineCmd) (ev : LineEvent) (s : State) : KeepsReloads s (s.confirm p c ev) := by
  have hleft : KeepsReloads s (s.modPlace p (fun pl => { pl with delivery := none, nextBit := !pl.nextBit })) := by
    refine of_changes (modPlace_ch s p (fun pl h => ?_))
    simp only [Place.queueLen_eq, Option.toList_none, List.length_nil] at h ⊢
    omega
  exact (hleft.trans (handAnswer_reloads p c ev _)).trans (reoffer_reloads p _)

theorem settleDoubt_reloads (p : Nat) (c : LineCmd) (acted : Bool) (s : State) : KeepsReloads s (s.settleDoubt p c acted) := by
  cases c with
  | cacheAdd =>
    exact .ite (fun _ => of_changes (modPlace_same s p (fun _ => by rfl)))
      (fun _ => .ite (fun _ => of_changes (modPlace_same s p (fun _ => by rfl))) (fun _ => .refl s))
  | cacheRemove =>
    exact .ite (fun _ => removeConfirmed_reloads ..) (fun _ => of_changes (modPlace_same s p (fun _ => by rfl)))
  | cacheFlush join =>
    cases join with
    | true => exact .refl s
    | false =>
      exact .ite (fun _ => .ite (fun _ => suspectFlushDone_reloads p s)
        (fun _ => of_changes (modPlace_same s p (fun _ => by rfl)))) (fun _ => .refl s)
  | verdict | remoteUnlock | holdOpen | secure | identify | backlogNext => exact .refl s

theorem settleDeparted_reloads (p : Nat) (r : Response) (s : State) : KeepsReloads s (s.settleDeparted p r) := by
  unfold settleDeparted
  split
  · exact .refl s
  · refine .ite (fun _ => .refl s) (fun _ => ?_)
    exact ((of_changes (modPlace_same s p (fun _ => by rfl))).trans (settleDoubt_reloads ..)).trans (reoffer_reloads p _)

theorem plainResponse_reloads (p : Nat) (e : Exchange) (r : Response) (s : State) :
    KeepsReloads s (s.plainResponse p e r) := by
  have hbit : KeepsReloads s (s.modPlace p (fun pl => { pl with nextBit := !r.echo })) :=
    of_changes (modPlace_same s p (fun _ => by rfl))
  have hresync := (hbit.trans (settleDeparted_reloads p r _)).then_changes (departedBacklog_ch p r _)
  unfold plainResponse
  refine .ite (fun _ => .ite (fun _ => hresync) (fun _ => ?_)) (fun _ => hbit)
  exact hresync.then_changes (modPlace_same _ p (fun _ => by rfl))

/-! ## Responses (R66, R68) -/

theorem takeEvent_reloads (p : Nat) (ev : LineEvent) (s : State) : KeepsReloads s (s.takeEvent p ev) := by
  cases ev with
  | presentation card tag => exact present_reloads ..
  | compartment c taken => exact .ite (fun _ => of_changes (compartmentEvent_ch ..)) (fun _ => .refl s)
  | none | done | stale | identity | backlogEnd | backlog | echo => exact .refl s

theorem takeAnswer_reloads (p : Nat) (e : Exchange) (r : Response) (s : State) : KeepsReloads s (s.takeAnswer p e r) := by
  unfold takeAnswer
  split
  · exact .ite (fun _ => (confirm_reloads ..).then_changes (nextBacklog_ch ..)) (fun _ => .refl s)
  · exact plainResponse_reloads ..

theorem dropResponse_reloads (p : Nat) (e : Exchange) (r : Response) (s : State) :
    KeepsReloads s (s.dropResponse p e r) :=
  (((of_changes (heard_ch p r s)).then_changes (takeCondition_ch p r _)).trans (takeEvent_reloads p r.event _)).trans
    (takeAnswer_reloads p e r _)

theorem terminatorResponse_reloads (g : Nat) (r : Response) (s : State) : KeepsReloads s (s.terminatorResponse g r) := by
  have hheard : KeepsReloads s (s.modSeg g (fun x => { x with termMisses := 0 })) := of_modSeg
  unfold terminatorResponse
  exact .ite (fun _ => hheard.trans (enterStopped_reloads ..)) (fun _ => hheard)

theorem testResponse_reloads (g : Nat) (r : Response) (s : State) : KeepsReloads s (s.testResponse g r) := by
  unfold testResponse
  split
  · exact .refl s
  · exact testStep_reloads ..

theorem validExchange_reloads (g : Nat) (e : Exchange) (r : Response) (s : State) :
    KeepsReloads s (s.validExchange g e r) := by
  unfold validExchange
  exact .ite (fun _ => testResponse_reloads ..)
    (fun _ => .ite (fun _ => terminatorResponse_reloads ..) (fun _ => dropResponse_reloads ..))

theorem endExchange_reloads (g : Nat) (e : Exchange) (s : State) : KeepsReloads s (s.endExchange g e) :=
  of_modSeg

theorem responseReceived_reloads (g : Nat) (bs : List Byte) (s : State) : KeepsReloads s (s.responseReceived g bs) := by
  unfold responseReceived
  split
  · exact .refl s
  · simp only
    split
    · exact (endExchange_reloads ..).trans (validExchange_reloads ..)
    · exact ((endExchange_reloads ..).trans (countBad_reloads ..)).trans (missedExchange_reloads ..)

theorem windowClosed_reloads (g : Nat) (s : State) : KeepsReloads s (s.windowClosed g) := by
  unfold windowClosed
  split
  · exact .refl s
  · exact (endExchange_reloads ..).trans (missedExchange_reloads ..)

end State

end Sys2Proof.Machine
end

