-- ==== Sys2Proof/Proofs/CacheInvariants.lean ====
section
/-! O8: every step keeps the revocation records open and the push engines' addresses in range. -/

set_option Elab.async false

namespace Sys2Proof.Machine

namespace State

open KeepsReloads

variable {s t : State}

/-! ## Time and what is due (R26, R27) -/

theorem minuteAdvance_reloads (s : State) : KeepsReloads s s.minuteAdvance := by
  have hclock := ((of_changes (advanceClock_ch s)).then_changes (clockEnd_ch _)).then_changes (unsetFault_ch _)
  exact (hclock.trans (deadlineTest_reloads _)).trans (.ite (fun _ => applyExpiry_reloads _) (fun _ => .refl _))

theorem countRetest_reloads (s : State) (g : Nat) : KeepsReloads s (s.countRetest g) := by
  unfold countRetest
  exact .ite (fun _ => of_modSeg) (fun _ => .refl s)

theorem secondEvent_reloads (s : State) : KeepsReloads s s.secondEvent := by
  have hdoors := of_changes (countedDoors_ch s)
  have hcounts : KeepsReloads s s.countAll := (hdoors.trans (.fold countRetest_reloads _ _)).then_changes (wakeWriter_ch _)
  exact hcounts.then_changes (K := [.due]) (.one (.due _ _ (by decide)))

theorem carryOut_reloads (s : State) (d : Due) : KeepsReloads s (s.carryOut d) := by
  cases d with
  | minuteAdvance => exact minuteAdvance_reloads s
  | unlockTimeout p => exact of_changes (unlockTimeout_ch p s)
  | doorHeld p => exact of_changes (doorHeld_ch p s)
  | graceExpiry p c => exact of_changes (commitWhere_ch _ false s)
  | errorWindow g => exact closeWindow_reloads g s
  | retest g => exact retestTimeout_reloads g s
  | missSilent p => exact missSilent_reloads p s
  | missAbsent p => exact missAbsent_reloads p s
  | terminatorDown g => exact terminatorDown_reloads g s
  | completionEnter => exact of_changes (enterCompletion_ch s)

theorem settle_reloads (s : State) : KeepsReloads s s.settle :=
  KeepsReloads.trans (t := { s with due := [] }) (.of_segs rfl) (.fold carryOut_reloads _ _)

theorem runDue_reloads (d : Due) (s : State) : KeepsReloads s (s.runDue d) := by
  have hminute : KeepsReloads s (s.minuteFirst d) :=
    .ite (fun _ => (of_changes (undue_ch ..)).trans (minuteAdvance_reloads _)) (fun _ => .refl s)
  have hgraces (u : State) : KeepsReloads u (u.gracesFirst d) := by
    cases d with
    | graceExpiry p c =>
      exact .fold (fun s x => (of_changes (undue_ch ..)).then_changes (commitWhere_ch ..)) _ u
    | _ => exact .refl u
  exact ((hminute.trans (hgraces _)).then_changes (undue_ch d _)).trans (carryOut_reloads _ d)

/-! ## Start-up (R206 to R209) -/

/-- R207: no block of the store holds a segment. -/
theorem restoreBlock_reloads (b : Nat) (img : List Byte) (s : State) : KeepsReloads s (restoreBlock b img s) := by
  have hplaces (l : List (Nat × List Byte)) : KeepsReloads s (l.foldl restorePlace s) :=
    of_changes (.fold (fun s e => restorePlace_ch s e) l s)
  have hnext {p : Prop} [Decidable p] {a c : State} (ha : a.segs = s.segs) (hc : KeepsReloads s c) :
      KeepsReloads s (if p then a else c) := .ite (fun _ => .of_segs ha) (fun _ => hc)
  unfold restoreBlock
  exact hnext rfl (hnext rfl (hnext rfl (hnext rfl (hnext rfl (.ite (fun _ => hplaces _) (fun _ =>
    hnext rfl (hnext rfl (hnext rfl (.of_segs rfl)))))))))

theorem restoreOne_reloads (s : State) (b : Nat) : KeepsReloads s (s.restoreOne b) := by
  unfold restoreOne
  split
  · exact restoreBlock_reloads ..
  · exact (of_changes (markDirty_ch ..)).then_changes (note_ch ..)
  · exact ((of_changes (markDirty_ch ..)).then_changes (faultWith_ch ..)).then_changes (note_ch ..)

theorem fixDuplicates_reloads (s : State) : KeepsReloads s s.fixDuplicates := by
  have hrevoked := KeepsReloads.fold (f := fun s e => s.revoke e.1 .replace)
    (fun s (e : Nat × Cred) => revoke_reloads e.1 .replace s) s.losers s
  exact hrevoked.trans (.fold (fun s e => of_changes (emptyLoser_ch s e)) _ _)

theorem fixStale_reloads (s : State) : KeepsReloads s s.fixStale :=
  .fold (fun _ _ => (of_changes (fixRecord_ch ..)).trans (revoke_reloads ..)) _ s

theorem reconcile_reloads (s : State) : KeepsReloads s s.reconcile :=
  ((((((fixDuplicates_reloads s).then_changes (fixStays_parts _)).then_changes (fixFields_parts _)).then_changes
    (fixRooms_parts _)).trans (fixStale_reloads _)).then_changes (fixPending_parts _)).then_changes
    (.fold (fun s p => startMarks_ch s p) _ _)

theorem unitStart_reloads (s : State) : KeepsReloads s s.unitStart := by
  have hlog := of_changes (log_ch .unitStart .unit (le 6 s.journal.release ++ [byte (numberingCode s.journal.numbering)]) s)
  unfold unitStart
  exact .ite (fun _ => hlog.then_changes (note_ch ..)) (fun _ => hlog)

/-- R209: the last stage sets the unit status and may give a fault. -/
theorem finishStart_parts (s : State) : Changes [.faults, .notices, .status] s s.finishStart := by
  unfold finishStart
  split
  · exact .one (.status s _ _ _ _ _ (by decide))
  · exact (Changes.up (L := [.status]) (.one (.status s _ _ _ _ _ (by decide)))).comp (giveFault_ch ..)

theorem startUp_reloads (s : State) : KeepsReloads s s.startUp := by
  unfold startUp
  refine .ite (fun _ => ?_) (fun _ => .refl s)
  have hrestored := KeepsReloads.fold restoreOne_reloads ((List.range 81).map (fun i => i + 2)) s
  exact (((hrestored.trans (reconcile_reloads _)).trans (unitStart_reloads _)).trans
    (.fold (fun s g => enterTesting_reloads g s) _ _)).then_changes (finishStart_parts _)

/-- R167, R207: what the numbering restored brings. -/
theorem firstReservation_parts (s : State) : Changes [.journal, .dirty, .status] s s.firstReservation := by
  unfold firstReservation
  split
  · exact (Changes.up (note_ch ..)).comp (L := [.status]) (.one (.status _ _ _ _ _ _ (by decide)))
  · exact .one (.status s _ _ _ _ _ (by decide))
  · exact ((Changes.up (reserve_ch s)).comp (L := [.status]) (.one (.status _ _ _ _ _ .awaited (by decide)))).comp
      (startWrite_ch _)

theorem readCopies_reloads (s : State) : KeepsReloads s s.readCopies := by
  have hbad := (of_changes (badCopy_ch 0 (copyValue (s.readBlock 0)) s)).then_changes
    (badCopy_ch 1 (copyValue (s.readBlock 1)) _)
  have hjournal (u : State) (a b : Option Nat) : KeepsReloads u (u.restoreJournal a b) := .of_segs rfl
  exact (hbad.trans (hjournal _ _ _)).then_changes (firstReservation_parts _)

/-- R108, R210: no engine runs and no reload is asked for when the power comes up. -/
theorem powerOn_reloads (i : PowerOn) (s : State) : (s.powerOn i).ReloadsInRange := by
  have hpowered : (s.powered i).ReloadsInRange := fun _ h => absurd h List.not_mem_nil
  have hclock := (of_changes (giveFault_ch .clockUnset (le 3 (s.powered i).clock.m) (s.powered i))).keep hpowered
  have hmemory := (of_changes (noteMemory_ch i.failedPasses.val (s.powered i).clockUnset)).keep hclock
  unfold powerOn
  simp only
  split
  · exact hclock
  · split
    · exact hmemory
    · exact (readCopies_reloads _).keep hmemory

/-! ## Requests (R185 to R199) -/

/-- A request does to the engines what its body does. -/
theorem runRequest_reloads (kind : Byte) (q : Request) {body : Body} (hb : ∀ s, KeepsReloads s (body s).1) (s : State) :
    KeepsReloads s (s.runRequest kind q body) := by
  have hexecute : KeepsReloads s (s.execute kind q body) := by
    unfold execute
    split
    · exact of_changes (answer_ch ..)
    · exact (hb s).then_changes (answer_ch ..)
  unfold runRequest
  refine .ite (fun _ => ?_) (fun _ => .refl s)
  split
  · exact of_changes (answer_ch ..)
  · unfold answerBypass
    split
    · exact .refl s
    · exact of_changes (buildCompletion_ch ..)
    · exact of_changes (buildCompletion_ch ..)
  all_goals exact hexecute

/-- A body that branches. -/
theorem ite_reloads {p : Prop} [Decidable p] {x y : State × Answer} (h1 : p → KeepsReloads s x.1)
    (h2 : ¬p → KeepsReloads s y.1) : KeepsReloads s (if p then x else y).1 := by
  split
  · exact h1 ‹_›
  · exact h2 ‹_›

theorem withFields_reloads (l : Layout) (q : Request) {k : Fields → Body} (hk : ∀ f s, KeepsReloads s (k f s).1)
    (s : State) : KeepsReloads s (withFields l q k s).1 := by
  unfold withFields
  split
  · exact .refl s
  · exact hk _ s

theorem loadBody_reloads {α : Type} (t : TableId) (r : Reader) (check : State → Nat → Fields → Except Nat α) (q : Request)
    {k : Entries α → Body} (hk : ∀ es s, KeepsReloads s (k es s).1) (s : State) :
    KeepsReloads s (loadBody t r check q k s).1 := by
  unfold loadBody
  split
  · exact .refl s
  · exact hk _ s

/-! ### Credentials, stays and the clock -/

theorem placeCred_reloads (s : State) (card : Nat) (r : Bool) : KeepsReloads s (s.placeCred card r).1 := by
  unfold placeCred
  split
  · simp only
    split
    · split
      · split <;> exact revoke_reloads ..
      · exact .refl s
    · split <;> exact .refl s
  · split <;> exact .refl s

theorem enrolBody_reloads (q : Request) (r : Bool) (s : State) : KeepsReloads s (enrolBody q r s).1 := by
  have hstages (c : CredIn) : KeepsReloads s (enrolStages c r s).1 := by
    unfold enrolStages
    split
    · exact .refl s
    · have hplace := placeCred_reloads s c.cred.card r
      split <;> rename_i heq <;> rw [heq] at hplace
      · exact hplace
      · exact ((hplace.then_changes (setCred_ch ..)).then_changes (logCard_ch ..)).then_changes (handCredential_ch ..)
  unfold enrolBody
  split
  · exact .refl s
  · split
    · exact .refl s
    · exact hstages _

theorem withdrawBody_reloads (q : Request) (s : State) : KeepsReloads s (withdrawBody q s).1 := by
  refine withFields_reloads _ q (fun f s => ?_) s
  split
  · exact .refl s
  · split
    · exact revoke_reloads ..
    · exact .refl s

theorem closeStay_reloads (i n : Nat) (s : State) : KeepsReloads s (s.closeStay i n).1 := by
  unfold closeStay
  simp only
  split
  · exact of_changes (commitWhere_ch ..)
  · exact ((((of_changes (commitWhere_ch ..)).then_changes (setStay_ch ..)).then_changes (setOpenStay_ch ..)).then_changes
      (removeRoom_ch ..)).then_changes (log_ch ..)

theorem stayCloseBody_reloads (q : Request) (s : State) : KeepsReloads s (stayCloseBody q s).1 := by
  have hheld (n : Nat) (s : State) : KeepsReloads s (stayCloseHeld n s).1 := by
    have hrevoked := revokeAll_reloads (s.guestsOf n) .checkout s
    unfold stayCloseHeld
    simp only
    split
    · exact hrevoked
    · split
      · exact hrevoked.trans (closeStay_reloads ..)
      · exact hrevoked
  refine withFields_reloads _ q (fun f s => ?_) s
  exact ite_reloads (fun _ => .refl s) fun _ => ite_reloads (fun _ => .refl s) fun _ =>
    ite_reloads (fun _ => .refl s) fun _ => hheld ..

theorem clockSetBody_reloads (q : Request) (s : State) : KeepsReloads s (clockSetBody q s).1 := by
  have hset (m w : Nat) (s : State) : KeepsReloads s (s.setClock m w) := by
    have hload : KeepsReloads s (s.loadClock m w) := .of_segs rfl
    exact ((hload.then_changes (log_ch ..)).then_changes (moveDeadlines_ch ..)).trans (deadlineTest_reloads _)
  refine withFields_reloads _ q (fun f s => ite_reloads (fun _ => .refl s) fun _ => ?_) s
  dsimp only
  exact ((hset _ _ s).trans (applyExpiry_reloads _)).then_changes (clockEnd_ch _)

/-! ### Zones and doors -/

theorem changeMark_reloads {f : Place → Place} {p : Nat} (h : Changes [.places] s (s.modPlace p f)) :
    KeepsReloads s (s.changeMark f p) := by
  unfold changeMark
  exact .ite (fun _ => (of_changes h).trans (reoffer_reloads p _))
    (fun _ => (of_changes h).then_changes (modPlace_ch _ p Place.offerZone_ok))

theorem markReleased_reloads (p : Nat) (s : State) : KeepsReloads s (s.changeMark Place.markReleased p) :=
  changeMark_reloads (modPlace_ch s p Place.markReleased_ok)

theorem markLeft_reloads (p : Nat) (s : State) : KeepsReloads s (s.changeMark Place.markLeft p) :=
  changeMark_reloads (modPlace_ch s p Place.markLeft_ok)

theorem changeZone_reloads (z : Nat) (x : ZoneState) (s : State) : KeepsReloads s (s.changeZone z x) := by
  have hzone : KeepsReloads s (s.setZone z x) := of_changes (setZone_ch ..)
  unfold changeZone
  refine .ite (fun _ => .refl s) fun _ => .ite (fun _ => ?_) fun _ => .ite (fun _ => ?_) fun _ => hzone
  · exact hzone.trans (.fold (fun s p => markReleased_reloads p s) _ _)
  · exact hzone.trans (.fold (fun s p => markLeft_reloads p s) _ _)

theorem zoneSetBody_reloads (q : Request) (s : State) : KeepsReloads s (zoneSetBody q s).1 := by
  refine withFields_reloads _ q (fun f s => ite_reloads (fun _ => .refl s) fun _ => ?_) s
  split
  · exact .refl s
  · exact ite_reloads (fun _ => .refl s) fun _ => changeZone_reloads ..

theorem loadZonesBody_reloads (q : Request) (s : State) : KeepsReloads s (loadZonesBody q s).1 :=
  loadBody_reloads _ _ _ q (fun es s =>
    .fold (fun s e => (changeZone_reloads e.1 e.2 s).then_changes (markDirty_ch ..)) es s) s

theorem returnToJoining_reloads (p : Nat) (s : State) : KeepsReloads s (s.returnToJoining p) := by
  unfold returnToJoining
  exact ((of_changes (.fold (fun s e => loseCmd_ch p s e) _ s)).then_changes (modPlace_ch _ p rejoin_ok)).trans
    (leaveCache_reloads p _)

theorem doorReplaced_reloads (p : Nat) (old : DoorRec) (s : State) : KeepsReloads s (s.doorReplaced p old) := by
  have hold : KeepsReloads s (s.leaveOld p old) := by
    have hlid : KeepsReloads s (if old.isMinibar then (s.commitWhere (fun c => c.place == p) true).endLid p else s) :=
      .ite (fun _ => (of_changes (commitWhere_ch ..)).then_changes (endLid_ch ..)) (fun _ => .refl s)
    exact hlid.trans (abandon_reloads p _)
  unfold doorReplaced
  simp only
  generalize s.leaveOld p old = t at hold ⊢
  have hplace : KeepsReloads s (t.modPlace p (fun pl => runtimeAfter old (t.place p).door
      { pl.withdraw isZoneCmd with
        mark := markAfter (t.place p).door (s.zoneOfDoor old == .released)
          (s.zoneOfDoor (t.place p).door == .released) })) := hold.trans (.of_segs rfl)
  exact .ite (fun _ => hplace) (fun _ => hplace.trans (returnToJoining_reloads p _))

theorem doorEffects_reloads (s : State) (e : Nat × DoorRec) : KeepsReloads s (s.doorEffects e) := by
  have hzone (p : Nat) (old new : DoorRec) : KeepsReloads s (s.doorRezoned p old new) := by
    unfold doorRezoned
    exact (KeepsReloads.ite (fun _ => markReleased_reloads p s) fun _ => .ite (fun _ => markLeft_reloads p s)
      fun _ => .refl s).then_changes (markSuspect_ch ..)
  unfold doorEffects
  refine .ite (fun _ => doorReplaced_reloads ..) fun _ => ?_
  exact (KeepsReloads.ite (fun _ => hzone ..) fun _ => .refl s).then_changes (recheck_ch ..)

theorem loadDoorsBody_reloads (q : Request) (s : State) : KeepsReloads s (loadDoorsBody q s).1 := by
  have hwrite (s : State) (e : Nat × DoorRec) : KeepsReloads s (s.writeDoor e) := .of_segs rfl
  refine loadBody_reloads _ _ _ q (fun es s => ite_reloads (fun _ => .refl s) fun _ => ?_) s
  have hdoors := (KeepsReloads.fold hwrite es s).trans
    (.fold doorEffects_reloads (es.map (fun e => (e.1, (s.place e.1).door))) _)
  exact ((hdoors.then_changes (.fold removeRoom_ch _ _)).then_changes (.fold ensureRoom_ch _ _)).then_changes
    (recomputeRooms_ch _)

theorem loadCredentialsBody_reloads (q : Request) (s : State) : KeepsReloads s (loadCredentialsBody q s).1 := by
  refine loadBody_reloads _ _ _ q (fun es s => ?_) s
  split
  · exact .refl s
  · exact .fold (fun s e => of_changes (loadCred_parts s e)) es s

/-! ### Segments and RESTART -/

theorem segmentTestBody_reloads (q : Request) (s : State) : KeepsReloads s (segmentTestBody q s).1 := by
  refine withFields_reloads _ q (fun f s => ite_reloads (fun _ => .refl s) fun _ => ?_) s
  have htest : KeepsReloads s ((s.enterTesting (f.val 1)).modSeg (f.val 1)
      (fun x => { x with pendingTest := some (q.tag, q.source) })) :=
    (enterTesting_reloads ..).trans of_modSeg
  split
  · exact .refl s
  · exact .refl s
  all_goals exact htest

theorem serviceOut_reloads (g : Nat) (s : State) : KeepsReloads s (serviceOut g s).1 := by
  unfold serviceOut
  simp only
  split
  · exact .refl s
  · dsimp only
    exact (enterOut_reloads g s).trans (answerTest_reloads ..)

theorem serviceIn_reloads (g : Nat) (s : State) : KeepsReloads s (serviceIn g s).1 := by
  unfold serviceIn
  exact ite_reloads (fun _ => enterTesting_reloads ..) fun _ => .refl s

theorem serviceBody_reloads (q : Request) {k : Nat → Body} (hk : ∀ g s, KeepsReloads s (k g s).1) (s : State) :
    KeepsReloads s (serviceBody q k s).1 :=
  withFields_reloads _ q (fun _ s => ite_reloads (fun _ => .refl s) fun _ =>
    ite_reloads (fun _ => .refl s) fun _ => hk _ s) s

theorem restartMarks_reloads (s : State) : KeepsReloads s s.restartMarks := by
  have hseg (s : State) (g : Nat) : KeepsReloads s (s.modSeg g Segment.restart) := of_modSeg fun x _ => .restart x
  have hplace (s : State) (p : Nat) : Changes [.places] s (s.modPlace p Place.restart) := modPlace_same s p (fun _ => rfl)
  unfold restartMarks
  exact (KeepsReloads.fold hseg (List.range 4) s).then_changes (.fold hplace _ _)

theorem restart_reloads (s : State) : KeepsReloads s s.restart := by
  have htested := (of_changes (clearTrunk_ch s)).trans (.fold (fun s g => enterTesting_reloads g s) (List.range 4) _)
  exact htested.trans (restartMarks_reloads _)

theorem restartBody_reloads (q : Request) (s : State) : KeepsReloads s (restartBody q s).1 := by
  refine withFields_reloads _ q (fun _ s => ?_) s
  dsimp only
  exact restart_reloads s

end State

/-! ## Any command -/

open State State.KeepsReloads in
/-- Every command but power-on reset answers a state that keeps the engines' addresses in range. -/
theorem exec_keepsReloads {c : Instr} (hc : c.isPowerOn = false) (s : State) :
    ∃ t, exec c s = .next t ∧ KeepsReloads s t := by
  have settled {t : State} (h : KeepsReloads s.settle t) : KeepsReloads s t := (settle_reloads s).trans h
  have parts {K : List Part} {t : State} (h : Changes K s.settle t) (hK : Part.segs ∉ K := by decide) : KeepsReloads s t :=
    settled (of_changes h hK)
  have request {kind : Byte} {q : Request} {body : Body} (hb : ∀ s, KeepsReloads s (body s).1) :
      KeepsReloads s (s.settle.runRequest kind q body) := settled (runRequest_reloads kind q hb _)
  have simple {K : List Part} {kind : Byte} {q : Request} {body : Body} (hb : ∀ s, Changes K s (body s).1)
      (hK : Part.segs ∉ K := by decide) : KeepsReloads s (s.settle.runRequest kind q body) :=
    request fun s => of_changes (hb s) hK
  cases c with
  | powerOnReset i => cases hc
  | startUpRestore => exact ⟨_, exec_startUpRestore s, settled (startUp_reloads _)⟩
  | secondEvent => exact ⟨_, exec_secondEvent s, settled (secondEvent_reloads _)⟩
  | minuteAdvance => exact ⟨_, exec_minuteAdvance s, runDue_reloads ..⟩
  | credentialExpiry i => exact ⟨_, exec_credentialExpiry i s, settled (expireAt_reloads ..)⟩
  | revocationDeadline k => exact ⟨_, exec_revocationDeadline k s, settled (deadlineAt_reloads ..)⟩
  | unlockTimeout p => exact ⟨_, exec_unlockTimeout p s, runDue_reloads ..⟩
  | doorHeld p => exact ⟨_, exec_doorHeld p s, runDue_reloads ..⟩
  | graceExpiry p c => exact ⟨_, exec_graceExpiry p c s, runDue_reloads ..⟩
  | errorWindowClose g => exact ⟨_, exec_errorWindowClose g s, runDue_reloads ..⟩
  | retestTimeout g => exact ⟨_, exec_retestTimeout g s, runDue_reloads ..⟩
  | normalPoll g => exact ⟨_, exec_normalPoll g s, settled (normalPoll_reloads ..)⟩
  | probePoll g => exact ⟨_, exec_probePoll g s, settled (probePoll_reloads ..)⟩
  | priorityPoll g => exact ⟨_, exec_priorityPoll g s, settled (priorityPoll_reloads ..)⟩
  | testExchange g => exact ⟨_, exec_testExchange g s, settled (testExchange_reloads ..)⟩
  | responseReceived g bs => exact ⟨_, exec_responseReceived g bs s, settled (responseReceived_reloads ..)⟩
  | responseWindowClose g => exact ⟨_, exec_responseWindowClose g s, settled (windowClosed_reloads ..)⟩
  | missCountSilent p => exact ⟨_, exec_missCountSilent p s, runDue_reloads ..⟩
  | missCountAbsent p => exact ⟨_, exec_missCountAbsent p s, runDue_reloads ..⟩
  | terminatorMissesDown g => exact ⟨_, exec_terminatorMissesDown g s, runDue_reloads ..⟩
  | frameReceived port bs => exact ⟨_, exec_frameReceived port bs s, parts (receive_ch ..)⟩
  | partnerHold port x => exact ⟨_, exec_partnerHold port x s, parts (partnerHold_ch ..)⟩
  | linkDisconnect port rx tx => exact ⟨_, exec_linkDisconnect port rx tx s, parts (disconnect_ch ..)⟩
  | linkConnect port => exact ⟨_, exec_linkConnect port s, parts (setLink_ch ..)⟩
  | classifyFrame => exact ⟨_, exec_classifyFrame s, parts (classifyNext_ch _)⟩
  | downlinkTransmit => exact ⟨_, exec_downlinkTransmit s, parts (sendDown_ch _)⟩
  | uplinkArbitrate => exact ⟨_, exec_uplinkArbitrate s, parts (arbitrate_ch _)⟩
  | completionEnterQueue => exact ⟨_, exec_completionEnterQueue s, runDue_reloads ..⟩
  | storeWriteStart => exact ⟨_, exec_storeWriteStart s, parts (startWrite_ch _)⟩
  | storeWriteComplete ok landed => exact ⟨_, exec_storeWriteComplete ok landed s, parts (completeWrite_ch ..)⟩
  | unknownRequest kind q =>
    refine ⟨_, exec_unknownRequest kind q s, settled ?_⟩
    exact .ite (fun _ => .refl _) fun _ => runRequest_reloads kind q (fun s => .refl s) _
  | loadWindows q => exact ⟨_, exec_loadWindows q s, simple (loadWindowsBody_ch q)⟩
  | loadDoors q => exact ⟨_, exec_loadDoors q s, request (loadDoorsBody_reloads q)⟩
  | loadSchedules q => exact ⟨_, exec_loadSchedules q s, simple (loadSchedulesBody_ch q)⟩
  | loadZones q => exact ⟨_, exec_loadZones q s, request (loadZonesBody_reloads q)⟩
  | loadPrices q => exact ⟨_, exec_loadPrices q s, simple (loadPricesBody_ch q)⟩
  | loadCompartments q => exact ⟨_, exec_loadCompartments q s, simple (loadCompartmentsBody_ch q)⟩
  | loadPolicy q => exact ⟨_, exec_loadPolicy q s, simple (loadPolicyBody_ch q)⟩
  | loadCredentials q => exact ⟨_, exec_loadCredentials q s, request (loadCredentialsBody_reloads q)⟩
  | loadStays q => exact ⟨_, exec_loadStays q s, simple (loadStaysBody_ch q)⟩
  | loadRooms q => exact ⟨_, exec_loadRooms q s, request fun s => .refl s⟩
  | fetchWindows q => exact ⟨_, exec_fetchWindows q s, simple (fetchBody_ch _ q)⟩
  | fetchDoors q => exact ⟨_, exec_fetchDoors q s, simple (fetchBody_ch _ q)⟩
  | fetchSchedules q => exact ⟨_, exec_fetchSchedules q s, simple (fetchBody_ch _ q)⟩
  | fetchZones q => exact ⟨_, exec_fetchZones q s, simple (fetchBody_ch _ q)⟩
  | fetchPrices q => exact ⟨_, exec_fetchPrices q s, simple (fetchBody_ch _ q)⟩
  | fetchCompartments q => exact ⟨_, exec_fetchCompartments q s, simple (fetchBody_ch _ q)⟩
  | fetchPolicy q => exact ⟨_, exec_fetchPolicy q s, simple (fetchBody_ch _ q)⟩
  | fetchCredentials q => exact ⟨_, exec_fetchCredentials q s, simple (fetchBody_ch _ q)⟩
  | fetchStays q => exact ⟨_, exec_fetchStays q s, simple (fetchBody_ch _ q)⟩
  | fetchRooms q => exact ⟨_, exec_fetchRooms q s, simple (fetchBody_ch _ q)⟩
  | enrol q => exact ⟨_, exec_enrol q s, request (enrolBody_reloads q false)⟩
  | enrolReplace q => exact ⟨_, exec_enrolReplace q s, request (enrolBody_reloads q true)⟩
  | withdraw q => exact ⟨_, exec_withdraw q s, request (withdrawBody_reloads q)⟩
  | stayOpen q => exact ⟨_, exec_stayOpen q s, simple (stayOpenBody_ch q)⟩
  | stayExtend q => exact ⟨_, exec_stayExtend q s, simple (stayExtendBody_ch q)⟩
  | stayClose q => exact ⟨_, exec_stayClose q s, request (stayCloseBody_reloads q)⟩
  | stayPurge q => exact ⟨_, exec_stayPurge q s, simple (stayPurgeBody_ch q)⟩
  | doorOpen q => exact ⟨_, exec_doorOpen q s, simple (doorOpenBody_ch q)⟩
  | zoneSet q => exact ⟨_, exec_zoneSet q s, request (zoneSetBody_reloads q)⟩
  | clockSet q => exact ⟨_, exec_clockSet q s, request (clockSetBody_reloads q)⟩
  | journalRelease q => exact ⟨_, exec_journalRelease q s, simple (releaseBody_ch q)⟩
  | journalRewind q => exact ⟨_, exec_journalRewind q s, simple (rewindBody_ch q)⟩
  | segmentTest q => exact ⟨_, exec_segmentTest q s, request (segmentTestBody_reloads q)⟩
  | segmentServiceOut q => exact ⟨_, exec_segmentServiceOut q s, request (serviceBody_reloads q serviceOut_reloads)⟩
  | segmentServiceIn q => exact ⟨_, exec_segmentServiceIn q s, request (serviceBody_reloads q serviceIn_reloads)⟩
  | status q => exact ⟨_, exec_status q s, simple (statusBody_ch q)⟩
  | faultClear q => exact ⟨_, exec_faultClear q s, simple (faultClearBody_ch q)⟩
  | restart q => exact ⟨_, exec_restart q s, request (restartBody_reloads q)⟩

/-- Power-on reset leaves the engines idle; every other command keeps their addresses in range. -/
theorem exec_reloadsInRange {c : Instr} {s t : State} (hs : s.ReloadsInRange) (h : exec c s = .next t) :
    t.ReloadsInRange := by
  cases hc : c.isPowerOn with
  | false =>
    obtain ⟨u, hu, hkeep⟩ := exec_keepsReloads hc s
    rw [hu] at h
    cases h
    exact hkeep.keep hs
  | true =>
    cases c with
    | powerOnReset i =>
      rw [exec_powerOnReset] at h
      cases h
      exact State.powerOn_reloads i s
    | _ => cases hc

/-! ## Revocation records (R112, R120) -/

theorem Change.recordsOpen {K : List Part} {s t : State} (h : Change K s t) (hs : s.RecordsOpen) : t.RecordsOpen := by
  cases h with
  | revocations x hK h ho => exact ho hs
  | _ => exact hs

/-- Every chain of changes leaves each record in use a drop to confirm. -/
theorem Changes.recordsOpen {K : List Part} {s t : State} (h : Changes K s t) (hs : s.RecordsOpen) : t.RecordsOpen :=
  h.inv (fun _ _ => Change.recordsOpen) hs

/-- Power-on reset starts from an empty list; every other command is a chain of changes. -/
theorem exec_recordsOpen {c : Instr} {s t : State} (hs : s.RecordsOpen) (h : exec c s = .next t) : t.RecordsOpen := by
  by_cases hc : ∃ i, c = .powerOnReset i
  · obtain ⟨i, rfl⟩ := hc
    have hpowered : (s.powered i).RecordsOpen := fun _ h => absurd h List.not_mem_nil
    exact (exec_powerOn_ch h).recordsOpen hpowered
  · exact (exec_ch (fun i hi => hc ⟨i, hi⟩) h).recordsOpen hs

/-! ## Any step -/

/-- A condition that every command keeps, and that does not look at the queue of commands, is kept by a step. -/
theorem step_keeps {P : State → Prop} (hqueue : ∀ s cs, P s → P { s with pending := cs })
    (hexec : ∀ c s t, P s → exec c s = .next t → P t) {s t : State} (hs : P s) (h : step s = .next t) : P t := by
  unfold step at h
  split at h
  · cases h
    exact hs
  · exact hexec _ _ t (hqueue s _ hs) h

/-- Settles O8: a record's set is never left empty by a chain of changes, and each command keeps the engines' addresses,
which come from place numbers and from the request set, in 1..32. -/
theorem cacheWorkStaysInRange : Obligations.CacheWorkStaysInRange :=
  ⟨fun _ _ => step_keeps (fun _ _ h => h) (fun _ _ _ => exec_recordsOpen),
    fun _ _ _ => step_keeps (fun _ _ h => h) (fun _ _ _ => exec_reloadsInRange)⟩

end Sys2Proof.Machine
end
